-- ==== Sys2Proof/Word.lean ====
section
/-!
DEFINITION. The word types of the machine (04 R83, R84; 00 R3, R6).
-/

namespace Sys2Proof

/-- One value register, one instruction word. -/
abbrev Word := BitVec 32
/-- A register pair, a literal, a code address. -/
abbrev DWord := BitVec 64
abbrev Byte := BitVec 8

end Sys2Proof
end

