-- ==== Sys2Proof/Syntax.lean ====
section
/-!
DEFINITION. The instructions: one constructor of `Instr` per row of spec/opcode_table.json. Three groups have words
(base forms 04 Table 04.6 and R97, E-forms 04 R98, Fitas 11 R208); the device operations and events of the table have
none, and their constructors carry the object they concern and the choices the spec leaves to whoever makes the step.
-/

namespace Sys2Proof

/-- The fields of an extended instruction (04 R98), the opcode and LEN apart; `lit` is present exactly under LEN = 11. -/
structure EFields where
  ch   : BitVec 2
  rm   : BitVec 3
  ftzo : Bool
  ftzi : Bool
  rd   : BitVec 9
  mod  : BitVec 6
  fe   : BitVec 4
  rc   : BitVec 9
  rb   : BitVec 9
  ra   : BitVec 9
  scp  : BitVec 3
  yld  : Bool
  stall : BitVec 3
  ret  : BitVec 3
  gop  : Bool
  g2   : BitVec 5
  g1   : BitVec 5
  re   : BitVec 9
  lit  : Option (BitVec 64)
  deriving DecidableEq, Repr, Inhabited

/-- The operand fields of a Fitas word (11 R208). -/
structure XFields where
  ka  : BitVec 3
  kb  : BitVec 3
  kc  : BitVec 3
  i   : Bool
  imm : BitVec 16
  deriving DecidableEq, Repr, Inhabited

/-- What the supervisor records when it creates a queue (03 R51); the last three say which of the ring, the head word and
the error record lie in host memory. -/
structure QueueSpec where
  ctx   : Nat
  base  : Nat
  size  : Nat
  head  : Nat
  err   : Nat
  floor : Nat
  fn    : Nat
  hostRing : Bool
  hostHead : Bool
  hostErr  : Bool
  deriving DecidableEq, Repr, Inhabited

/-- What the supervisor records when it creates a context (13 R226; 08 R157, R159; 12 R225). -/
structure ContextSpec where
  num       : Nat
  fn        : Nat
  root      : Nat
  homeMap   : List (Nat × Nat × Nat)
  saveArea  : Nat
  injection : Bool
  deriving DecidableEq, Repr, Inhabited

/-- The memory manager's part of a dispatch: whether the ranges can be made resident, and the page-table entries
it writes (physical address of the entry, entry; 08 R157). -/
structure MmPlan where
  resident : Bool
  ptes     : List (Nat × BitVec 64)
  deriving DecidableEq, Repr, Inhabited

/-- Who asked for a codec service: a BIND packet of a queue (11 Table 11.2) or a thread's `SVC` (20 R359). -/
inductive SvcSource where
  | queue (q : Nat)
  | thread (b t : Nat)
  deriving DecidableEq, Repr, Inhabited

/-- The three snoops of 15 R253. -/
inductive SnoopOp where
  | inv | data | cur
  deriving DecidableEq, Repr, Inhabited

/-- The device behind a port: the number that DEV takes, and its CXL type (15 R249, R261). -/
structure PoolDevice where
  num  : Nat
  type : Nat
  deriving DecidableEq, Repr, Inhabited

/-- A snoop from the pool device: the port, the host physical address of its first line, how many lines (Blk forms),
the operation, and the peer's store (offset from the address, byte) that waits for the answer (15 R253, R254). -/
structure Snoop where
  port  : Nat
  hpa   : Nat
  lines : Nat
  op    : SnoopOp
  store : List (Nat × BitVec 8)
  deriving DecidableEq, Repr, Inhabited

/-- How in-flight work of a halted partition ends (13 R227): the loads (block, thread, operation) that still complete,
whether the current matrix instance of each listed core completes (the others abort). -/
structure StopPlan where
  loads  : List (Nat × Nat × Nat)
  cores  : List Nat
  deriving DecidableEq, Repr, Inhabited

/-- A 32-byte firmware message (17 Table 17.1). -/
structure Message where
  source  : BitVec 16
  kind    : BitVec 16
  seq     : BitVec 64
  cause   : BitVec 64
  payload : BitVec 64
  deriving DecidableEq, Repr, Inhabited

/-- The eight firmware cores (01 Table 01.5). -/
inductive FwCore where
  | fe | ls | mm | eh | pw | se | mg | cv
  deriving DecidableEq, Repr, Inhabited

/-- The life-cycle states, in the only order of their transitions (17 R273). -/
inductive LifeCycle where
  | manufacture | provisioned | deployed | return_
  deriving DecidableEq, Repr, Inhabited

/-- A write of the supervisor or the MM to a configuration register without a row of its own. -/
inductive RegWrite where
  /-- LCAP of a core, 64 to 2,048 lines (03 R76). -/
  | lcap (core lines : Nat)
  /-- Relative deadline of a context and class, units of 4 ns (08 R174). -/
  | deadline (ctx cls units : Nat)
  /-- SMASK of a die (08 Table 08.6). -/
  | smask (die : Nat) (v : BitVec 64)
  /-- HMASK_i of a die (08 Table 08.6). -/
  | hmask (die i : Nat) (v : BitVec 64)
  /-- The home map of a context: base and length in 2 MiB granules, die (08 R159). -/
  | homeMap (ctx : Nat) (entries : List (Nat × Nat × Nat))
  /-- A pool decoder: window offset, length, host physical base, port; an HDM-H range (else HDM-DB), and whether the
  supervisor marked it unshared (15 R249, R250). -/
  | decoder (i off len hpa port : Nat) (hdmH unshared : Bool)
  /-- The cores of a partition and the context it runs (13 R226). -/
  | partition (p : Nat) (cores : List Nat) (ctx : Option Nat)
  /-- Page-table entries the MM writes (08 R157). -/
  | ptes (l : List (Nat × BitVec 64))
  /-- The period of the patrol scrubber in hours (17 R272). -/
  | scrubPeriod (hours : Nat)
  deriving DecidableEq, Repr, Inhabited

/-- An access of the host or of a peer at system scope (08 R171). -/
inductive HostAccess where
  | read (ctx va n : Nat)
  | write (ctx va : Nat) (bytes : List (BitVec 8))
  deriving DecidableEq, Repr, Inhabited

/-- What a controller meets when it serves a request (13 R246): nothing, an uncorrectable error in the active copy of
a row-remap table, or one in both copies of an entry, with the lines (device physical) of the retired bank group. -/
inductive RemapEvent where
  | ok
  | failover (stack : Nat)
  | retire (stack entry : Nat) (lines : List Nat)
  deriving DecidableEq, Repr, Inhabited

/-- The instructions and the device's operations and events, one constructor per row of the opcode table. -/
inductive Instr where
  -- queues, packets and launches (03)
  | tailDoorbell (q : Nat) (tail : BitVec 64)
  | queueCreate (spec : QueueSpec)
  | queueResume (q : Nat)
  | launch (q : Nat)
  | launchDispatch (q n : Nat) (plan : MmPlan)
  | copy (q : Nat) (plan : MmPlan)
  | copyChunk (c : Nat)
  | signal (q : Nat) (plan : MmPlan)
  | tokclr (q : Nat)
  | map (q : Nat) (salvage : List (Nat × Nat)) (ptes : List (Nat × BitVec 64))
  | launchCompletion (l : Nat)
  | blockPlacement (b : Nat) (places : List (Nat × Nat))
  | placementReservation (b : Nat)
  | blockRetirement (b : Nat)
  -- the wave scheduler (03, 02)
  | waveActivation (core sub : Nat)
  | waveSwap (core sub : Nat)
  | starvationAdmission (core sub : Nat)
  | issueRotation (core sub : Nat)
  | groupIssueLimit (core sub : Nat)
  | leaseHalving (core : Nat)
  | meetingArrival (b w : Nat) (pc : BitVec 64)
  | convergenceDeadlock (b w : Nat)
  | crossLaneFire (b w : Nat) (pc : BitVec 64)
  | producerCompletion (b t p : Nat)
  | waveTimerExpiry (b w : Nat)
  -- matrix engine and copy engine (06, 10, 20)
  | mmaCapture (core : Nat)
  | mmaCompletion (core : Nat)
  | tokenGrant (b tile : Nat)
  | tokenReturn (b w tile : Nat)
  | acpTransferComplete (b id : Nat)
  | tcopyComplete (b id : Nat)
  -- the visibility machine (09)
  | storePerform (b t op : Nat)
  | loadSatisfy (b t op : Nat) (item : Option Nat) (early : Nat)
  | frontierAdvance (item : Nat) (wider : Nat)
  -- caches, translation and controllers (08)
  | lineFill (b t op : Nat) (evict : List Nat)
  | pageWalk (die group ctx va : Nat)
  | pageMigration (die ctx va frame : Nat)
  | controllerServe (ctl : Nat) (remap : RemapEvent)
  | budgetWindow (ctl : Nat)
  -- codecs (11, 12)
  | blockFill (ctx region blk : Nat)
  | blockEncode (ctx region blk : Nat)
  | stepBoundExceeded (run : Nat)
  | recodeWalk (ctx region : Nat)
  | codecLoad (src : SvcSource)
  | codecBind (src : SvcSource) (ptes : List (Nat × BitVec 64))
  | codecUnbind (src : SvcSource) (ptes : List (Nat × BitVec 64))
  | regionInfo (src : SvcSource)
  | slotInjection (ctx region blk off : Nat) (bytes : List (BitVec 8))
  -- faults, pre-emption and recovery (13)
  | partitionStop (p : Nat) (plan : StopPlan)
  | ehKillLaunch (l : Nat)
  | ehKillContext (ctx : Nat)
  | ehResumeContext (ctx : Nat)
  | preemptionRequest (p d f : Nat)
  | drainTimeout (p : Nat)
  | blockSave (b : Nat)
  | contextRestore (b : Nat) (places : List (Nat × Nat))
  | timingReplay (core : Nat)
  -- the pool tier (15)
  | backInvalidationSnoop (sn : Snoop)
  | linkExitL0 (port : Nat)
  | linkRecoveryTimeout (port : Nat)
  | poolRequestTimeout (port : Nat)
  | regionRevalidate (ctx i : Nat)
  | poolAttach (port : Nat) (dev : PoolDevice)
  -- firmware, power and management (17)
  | mailboxMessage (core : FwCore) (msg : Message)
  | arbiterWindow (caps budgets clocks : List Nat)
  | thermalSample (die : Nat) (readings : List Int)
  | emergencyEnd (die : Nat)
  | pwrwarnAssert
  | winterRequest
  | pwrwarnDeassert
  | wakeRequest
  | winterSensorSample (die : Nat) (readings : List Int)
  | thaw
  /-- Whether the image that ran until now had failed to reach the running state (17 R275). -/
  | reset (failed : Bool)
  | lifeCycleTransition (target : LifeCycle) (signed : Bool)
  | firmwareUpdate (image : List (BitVec 8)) (counter : Nat) (signed : Bool)
  | attestationRequest (port : Nat) (nonce : BitVec 256)
  | patrolScrub (corrected : Nat) (bad : List Nat)
  | sensorRead
  | eventLogRead
  | deadlineCountersRead
  | winterCountRead
  | registerWrite (w : RegWrite)
  -- base forms (04 Table 04.6)
  | nopBase
  | movBase (a d : BitVec 9)
  | iaddBase (i : BitVec 6) (a d : BitVec 9)
  | shlBase (n : BitVec 5) (a d : BitVec 9)
  | shrBase (n : BitVec 5) (a d : BitVec 9)
  | andBase (i : BitVec 6) (a d : BitVec 9)
  | moviBase (i : BitVec 15) (d : BitVec 9)
  | braBase (o : BitVec 24)
  | ldsBase (i : BitVec 6) (a d : BitVec 9)
  | stsBase (i : BitVec 6) (a d : BitVec 9)
  | exitBase
  | barBase (id : BitVec 4)
  -- base forms with a literal (04 R97)
  | moviBaseLiteral (d : BitVec 9) (l : BitVec 32)
  | iaddBaseLiteral (a d : BitVec 9) (l : BitVec 32)
  | andBaseLiteral (a d : BitVec 9) (l : BitVec 32)
  | ldsBaseLiteral (a d : BitVec 9) (l : BitVec 32)
  | stsBaseLiteral (a d : BitVec 9) (l : BitVec 32)
  -- E-form, control (04 Table 04.9)
  | nop (f : EFields)
  | bra (f : EFields)
  | brx (f : EFields)
  | call (f : EFields)
  | callx (f : EFields)
  | ret (f : EFields)
  | meet (f : EFields)
  | meetx (f : EFields)
  | exit (f : EFields)
  | bar (f : EFields)
  | trap (f : EFields)
  | brk (f : EFields)
  | spawn (f : EFields)
  | gate (f : EFields)
  | release (f : EFields)
  | svc (f : EFields)
  -- integer
  | iadd (f : EFields)
  | isub (f : EFields)
  | iadd3 (f : EFields)
  | imul (f : EFields)
  | imulh (f : EFields)
  | imad (f : EFields)
  | imadw (f : EFields)
  | imin (f : EFields)
  | imax (f : EFields)
  | iaddmin (f : EFields)
  | iabs (f : EFields)
  | idp4 (f : EFields)
  | iset (f : EFields)
  | sel (f : EFields)
  | mov (f : EFields)
  | movi (f : EFields)
  | lea (f : EFields)
  | and (f : EFields)
  | or (f : EFields)
  | xor (f : EFields)
  | lop3 (f : EFields)
  | shl (f : EFields)
  | shr (f : EFields)
  | sar (f : EFields)
  | fsh (f : EFields)
  | bfx (f : EFields)
  | bfi (f : EFields)
  | popc (f : EFields)
  | clz (f : EFields)
  | brev (f : EFields)
  | perm (f : EFields)
  -- predicate
  | plop (f : EFields)
  | p2v (f : EFields)
  | v2p (f : EFields)
  | elect (f : EFields)
  -- float
  | fadd (f : EFields)
  | fmul (f : EFields)
  | ffma (f : EFields)
  | fmin (f : EFields)
  | fmax (f : EFields)
  | fset (f : EFields)
  | fcls (f : EFields)
  | frnd (f : EFields)
  | frcp (f : EFields)
  | fsqrt (f : EFields)
  | frsq (f : EFields)
  | fex2 (f : EFields)
  | flg2 (f : EFields)
  | fscl (f : EFields)
  | fdp2 (f : EFields)
  | cvt (f : EFields)
  -- cross-lane
  | shfl (f : EFields)
  | vote (f : EFields)
  | wred (f : EFields)
  | qxch (f : EFields)
  | qbc (f : EFields)
  -- memory
  | ld (f : EFields)
  | ldc (f : EFields)
  | st (f : EFields)
  | lds (f : EFields)
  | sts (f : EFields)
  | feset (f : EFields)
  | atom (f : EFields)
  | atoms (f : EFields)
  | fence (f : EFields)
  | cctl (f : EFields)
  | pfetch (f : EFields)
  | lease (f : EFields)
  | acp (f : EFields)
  | acwait (f : EFields)
  | tcopy (f : EFields)
  -- matrix
  | mma (f : EFields)
  | cvset (f : EFields)
  | mwait (f : EFields)
  | accwin (f : EFields)
  | ald (f : EFields)
  | ast (f : EFields)
  | aclr (f : EFields)
  | tkget (f : EFields)
  | tkput (f : EFields)
  -- system
  | sread (f : EFields)
  | swrite (f : EFields)
  -- Fitas (11 Table 11.5)
  | xEnd
  | xFail
  | xMovi (a : BitVec 3) (i : BitVec 16)
  | xMovh (a : BitVec 3) (i : BitVec 16)
  | xAdd (f : XFields)
  | xSub (f : XFields)
  | xAnd (f : XFields)
  | xOr (f : XFields)
  | xXor (f : XFields)
  | xShl (f : XFields)
  | xShr (f : XFields)
  | xSar (f : XFields)
  | xZze (a b : BitVec 3)
  | xGetb (f : XFields)
  | xPutb (f : XFields)
  | xLdt (f : XFields)
  | xLdw (f : XFields)
  | xStw (f : XFields)
  | xLdp (f : XFields)
  | xCopy (f : XFields)
  | xBeq (a b : BitVec 3) (o : BitVec 16)
  | xBne (a b : BitVec 3) (o : BitVec 16)
  | xBlt (a b : BitVec 3) (o : BitVec 16)
  | xJ (o : BitVec 16)
  | xInfo (f : XFields)
  | xZzd (a b : BitVec 3)
  -- the table's last rows (15 R255, 17 R269, 08 R171, 13 R226)
  | linkReturnToL0 (port : Nat)
  | portReturnTimeout (port : Nat)
  | hostMemoryAccess (a : HostAccess)
  | contextCreate (spec : ContextSpec)
  deriving DecidableEq, Repr, Inhabited

end Sys2Proof
end

