-- ==== Sys2Proof/Machine/State.lean ====
section
/-!
DEFINITION. The state of one Nortur N8 module, as plain data, and its value after reset.

Objects that come and go (queues, launches, blocks, launched copies, fitas runs) are numbered by their place in a list
and stay in it; contexts are looked up by their number. Addresses are naturals: byte va of context c is key
c * 2^56 + va (08 R156); a device physical address is itself.
-/

namespace Sys2Proof.Machine

/-- Why the machine stops. -/
inductive Fault where
  /-- A page walk met a device physical address whose bits 55:48 name no target, or whose offset lies past the memory of
  its target (01 Table 01.2): 08 R158 says the MM never writes such an address into an entry, and gives it no effect.
  Raised by PAGE_WALK. Safe: the model stops where the spec says nothing. -/
  | reservedTarget (pa : Nat)
  deriving DecidableEq, Repr, Inhabited

/-- Why an instruction has no meaning here. -/
inductive Refusal where
  /-- The instruction has no meaning in this model yet. Raised by the arm of `exec` only. Safe. -/
  | notModelled (mnemonic : String)
  deriving DecidableEq, Repr, Inhabited

/-! ### Sparse data: a rising list of entries, none of them equal to the default -/

/-- A map from naturals with a default for unlisted keys: keys strictly rising, no entry equal to the default. -/
abbrev Sparse (α : Type) := List (Nat × α)

/-- Bytes by address; an unlisted address reads as zero (17 R273: reset wipes every memory). -/
abbrev Memory := List Host.Cell

/-! ### Threads -/

/-- The availability state of a value register (04 R86). -/
inductive Avail where
  | full | empty | abandoned
  deriving DecidableEq, Repr, Inhabited

/-- A value register with its availability state and its taint bit (04 R83, R86, R90). -/
structure Reg where
  val   : Word
  av    : Avail
  taint : Bool
  deriving DecidableEq, Repr, Inhabited

/-- The value registers v0.. and predicates of one lane; bit 0 of `preds` reads as true whatever it holds (04 R85). -/
structure Vals where
  regs  : List Reg
  preds : BitVec 16
  deriving DecidableEq, Repr, Inhabited

/-- The five scopes (09 R179). -/
inductive Scope where
  | blk | spn | dev | pool | sys
  deriving DecidableEq, Repr, Inhabited

/-- A scope instance (09 R179): a block, a span of a launch, the module, the pool instance, the system instance. -/
inductive Inst where
  | blk (b : Nat)
  | span (l sp : Nat)
  | dev
  | pool
  | sys
  deriving DecidableEq, Repr, Inhabited

/-- What a producer of 04 Table 04.1 will write. -/
inductive ProdVal where
  /-- The result is there. -/
  | ready (ws : List Word)
  /-- The result of the special-function unit, that of the shadow lane (02 R48), and the flags that merge when it is written
  (05 R121). -/
  | sfu (w shadow : Word) (flags : BitVec 5)
  /-- The result comes from the satisfy step of an operation. -/
  | waiting
  /-- A special register, read when the producer completes (20 R354; log 57). -/
  | special (idx : Nat) (wide : Bool)
  /-- FLAGS as they stood at the issue, with what older instructions have merged since (05 R122). -/
  | flagsAt (fl : BitVec 5)
  /-- An `ALD` of a tile: the pattern read (06 R152). -/
  | tile (t : Nat) (w : Word)
  deriving DecidableEq, Repr, Inhabited

/-- A producer in flight: the registers it made EMPTY and what it will write. -/
structure Prod where
  id     : Nat
  dst    : List Nat
  val    : ProdVal
  taint  : Bool
  /-- A global load that missed the L1: reading its destination is a long-latency wait (02 Table 02.2). -/
  missed : Bool
  pc     : DWord
  deriving DecidableEq, Repr, Inhabited

/-- The kinds of entries of an operation queue (09 R180). -/
inductive OpKind where
  | load
  | store
  /-- An atomic, with its operation (18 Table 18.2). -/
  | atomic (o : BitVec 4)
  /-- A release event that is no store (RELEASE, BAR arrival, SPAWN). -/
  | release
  /-- FENCE, acquire and release parts (09 R187). -/
  | fence (acq rel : Bool)
  /-- A global read of a copy, element `e` of copy `c` of the block (09 R192). -/
  | copyRead (c e : Nat)
  /-- `FESET` of n granules (18 R308). -/
  | feset (n : Nat) (full : Bool)
  deriving DecidableEq, Repr, Inhabited

/-- Where an operation's line fill stands (08 R160, R161). -/
inductive Fill where
  | idle | walking | queued | served | done
  deriving DecidableEq, Repr, Inhabited

/-- What else takes place at an operation's step. -/
inductive OpTag where
  | none
  /-- Opens a gate of the launch (03 R60). -/
  | gate (g : Nat)
  /-- An arrival at a barrier (18 R291). -/
  | bar (id : Nat)
  /-- Marks the granule FULL (`STS.f`, 08 Table 08.5). -/
  | setFull
  /-- Marks the granule EMPTY with the read (`LDS.c`, 08 Table 08.5). -/
  | clear
  /-- An acquire of the event that made the granule FULL, and of its newest store where `acq` says so (`LDS.w`). -/
  | full (acq : Bool)
  /-- As `full`, and the granule becomes EMPTY with the read (`LDS.wc`). -/
  | take (acq : Bool)
  deriving DecidableEq, Repr, Inhabited

/-- One entry of a thread's operation queue (09 R180). `addr` is a scratch offset, or the key of a global address; an
access through a read-only alias names the writer's key plus 2^72 (08 R162). -/
structure MemOp where
  id      : Nat
  kind    : OpKind
  scratch : Bool
  addr    : Nat
  va      : Nat
  alias_  : Bool
  size    : Nat
  acq     : Option Scope
  rel     : Option Scope
  consume : Option Scope
  /-- The scope an atomic takes its step at (09 R188). -/
  scp     : Scope
  taint   : Bool
  data    : List Byte
  sext    : Bool
  prod    : Option Nat
  tag     : OpTag
  fill    : Fill
  priv    : Bool
  pc      : DWord
  /-- The issue of the block it came from, the cycle, and the sub-core (09 R183, 08 R168, 01 R17). -/
  iss     : Nat
  cyc     : Nat
  sub     : Nat
  /-- The cycle at which its request left the core (08 R174). -/
  left    : Nat
  deriving DecidableEq, Repr, Inhabited

/-- The control state of a thread (02 R35, R43). -/
inductive TState where
  | ready
  /-- Arrived at a barrier (18 R291). -/
  | barWait (id len : Nat)
  /-- Arrived at a cross-lane instruction (02 R40), with its guard. -/
  | laneWait (on : Bool) (i : Instr) (len : Nat)
  /-- Requested the token of a tile (06 R149). -/
  | tokWait (tile len : Nat)
  /-- Reached `TKPUT` of a COMPACT block and waits for its wave (20 R365), with its guard. -/
  | putWait (on : Bool) (tile len : Nat)
  /-- Waits for the reply of a service: number, arguments, producer, the issue of the block it came from (20 R359). -/
  | svcWait (svc a b prod iss len : Nat)
  /-- Waits at a `TCOPY` until the core has fewer than 16 tensor copies in flight (20 R362): the descriptor read at the
  issue, the tag, the issue of the block, the length, the sub-core, the taint of the descriptor's address. -/
  | copyWait (desc : List Byte) (tag iss len sub : Nat) (taint : Bool)
  | held
  | exited
  deriving DecidableEq, Repr, Inhabited

/-- A sign whose capture has not completed (06 R146, 09 R193): instance, first A register held or 512, next operation
number and issue of the block at the sign, the granules of B from lo up to hi. -/
structure ABusy where
  inst : Nat
  reg  : Nat
  mark : Nat
  iss  : Nat
  lo   : Nat
  hi   : Nat
  deriving DecidableEq, Repr, Inhabited

structure Thread where
  vals    : Vals
  /-- The shadow lane of a REDUNDANT launch (02 R48). -/
  shadow  : Option Vals
  pc      : DWord
  /-- The meeting register; 0 is none (02 R27). -/
  mt      : DWord
  rm      : BitVec 3
  flags   : BitVec 5
  st      : TState
  pwave   : Nat
  slot    : Nat
  /-- The last cycle at which a thread of its PC group issued (02 R36); 0 before the first. -/
  stamp   : Nat
  prods   : List Prod
  nextId  : Nat
  ops     : List MemOp
  /-- Granules the thread accessed, with the step of the last access (09 R182). -/
  gran    : List (Nat × Nat)
  /-- The step of the thread's last acquire or fence (09 R185). -/
  orderPt : Nat
  /-- Items that older loads read (09 R187). -/
  reads   : List Nat
  /-- The step of the newest scratch store that older loads read (09 R187). -/
  sreads  : Nat
  /-- Items that LDCs read: operation, scope, item, step (09 R189). -/
  consumes : List (Nat × Scope × Nat × Nat)
  /-- Signs whose capture has not completed; those captured in this cycle leave at its end (06 R154). -/
  aBusy   : List ABusy
  /-- Instances signed and not completed: cv, instance number (06 R151). -/
  signed  : List (Nat × Nat)
  /-- The last fence that took its step before an older release event or fence: cycle, operation (09 R187, R195). -/
  fenced  : Option (Nat × Nat)
  deriving DecidableEq, Repr, Inhabited

/-! ### Waves and blocks -/

/-- What belongs to a home wave (02 R28, R46). -/
structure Wave where
  /-- Eight rejoin slots; a free slot has key 0 and an empty mask. -/
  slots    : List (DWord × BitVec 32)
  accBase  : Word
  accLim   : Word
  /-- The window as it stood at the start of the cycle (06 R143, R154). -/
  accBaseS : Word
  accLimS  : Word
  wtim     : Word
  wtlim    : Word
  /-- WTIM has reached a nonzero WTLIM (04 R93). -/
  hit      : Bool
  declared : Nat
  measured : Nat
  /-- The lease at the start of the cycle (03 R76, R82). -/
  leaseS   : Nat
  /-- Eight copy-tag counters of 11 bits (10 R198), and as they stood at the end of the last cycle. -/
  tags     : List (BitVec 11)
  tagsS    : List (BitVec 11)
  /-- The step of the last completion under each tag (09 Table 09.2). -/
  tagAt    : List Nat
  deriving DecidableEq, Repr, Inhabited

/-- What the scheduler keeps for a physical wave (03 R73-R75; 02 R36). -/
structure PWave where
  active    : Bool
  /-- The cycle at which it entered the pending set. -/
  since     : Nat
  /-- The order of activation. -/
  actSeq    : Nat
  lastIssue : Option Nat
  /-- Consecutive cycles long-latency blocked. -/
  ll        : Nat
  /-- Consecutive cycles for which the active wave has stayed ready without an issue (02 R50, 03 R74). -/
  unserved  : Nat
  /-- The current PC group and the instructions it has issued in a row. -/
  cur       : Option DWord
  run       : Nat
  deriving DecidableEq, Repr, Inhabited

/-- One signature of an instance (06 R143, R144). -/
structure Sig where
  tid   : Nat
  rank  : Nat
  tile  : Nat
  vb    : Nat
  at_   : Bool
  bt    : BitVec 2
  zc    : Bool
  ret   : BitVec 3
  rm    : BitVec 3
  ftzi  : Bool
  ftzo  : Bool
  aIdx  : Nat
  /-- Its row comes from the latch (06 R147). -/
  latched : Bool
  /-- The thread's next operation number at the sign (09 R193), and whether the address of B is tainted (09 R189). -/
  opMark : Nat
  taint  : Bool
  deriving DecidableEq, Repr, Inhabited

/-- A convergence register (06 R142, R147): IDLE without a set, OPEN without signatures, PARTIAL with some. -/
structure Cv where
  /-- first `TID` and count. -/
  set   : Option (Nat × Nat)
  sigs  : List Sig
  /-- The number of the instance being signed. -/
  inst  : Nat
  /-- The latch: rank and A register index of each row, from the close (06 R147). -/
  latch : List (Nat × Nat)
  /-- The rows of the last captured instance with RET = 1. -/
  rows  : List (Nat × List Word)
  /-- The `CVSET`s of this cycle: thread, pc, count, first; signs of the cycle come first (06 R154). -/
  pend  : List (Nat × DWord × Nat × Nat)
  deriving DecidableEq, Repr, Inhabited

/-- A closed instance (06 R141, R145). -/
structure MInst where
  id     : Nat
  block  : Nat
  cv     : Nat
  tile   : Nat
  count  : Nat
  sigs   : List Sig
  closed : Nat
  pc     : DWord
  /-- Captured: A rows (rank, eight words) and the bytes of B; and the cycle of the capture. -/
  cap    : Option (List (Nat × List Word) × List Byte)
  capAt  : Nat
  deriving DecidableEq, Repr, Inhabited

/-- A waiting `TKGET` (06 R149): home wave, threads, cycle of issue. -/
structure TokReq where
  wave  : Nat
  tids  : List Nat
  cycle : Nat
  deriving DecidableEq, Repr, Inhabited

structure Tile where
  cells  : Sparse Word
  /-- The home wave that holds the token; none is the engine. -/
  owner  : Option Nat
  ownerS : Option Nat
  reqs   : List TokReq
  deriving DecidableEq, Repr, Inhabited

/-- A phase of a barrier (18 R291): arrivals with their cycle, `TID` and count, and the release item of each. -/
structure Arrival where
  cycle : Nat
  tid   : Nat
  count : Nat
  scope : Scope
  rel   : Option Nat
  deriving DecidableEq, Repr, Inhabited

/-- A lane transfer of ACP or a tensor copy (10 R197, 20 R362). -/
structure Copy where
  id    : Nat
  tid   : Nat
  tag   : Nat
  pc    : DWord
  /-- The 128-byte descriptor of a tensor copy; empty for a lane transfer. -/
  desc  : List Byte
  dst   : Nat
  src   : Nat
  n     : Nat
  /-- Elements read so far: element, bytes. -/
  got   : List (Nat × List Byte)
  total : Nat
  cancelled : Bool
  /-- A read of it faulted: it never completes (10 R197). -/
  dead  : Bool
  issued : Nat
  /-- Its address operands are tainted (09 R189, R192). -/
  taint : Bool
  /-- The request of its next element has left the copy engine (20 R362, 08 R174). -/
  asked : Bool
  /-- The box that a tensor copy to global memory has read from scratch as it completes (09 R192). -/
  box   : Option (List Byte)
  deriving DecidableEq, Repr, Inhabited

/-- A rollback checkpoint (13 R242), with the copies in flight and the signatures at the time (log 94). -/
structure Checkpoint where
  threads : List Thread
  waves   : List Wave
  scratch : Memory
  fe      : Sparse Bool
  copies  : List Copy
  cvs     : List Cv
  deriving DecidableEq, Repr, Inhabited

inductive BStatus where
  | unplaced | placed | saved | retired
  deriving DecidableEq, Repr, Inhabited

/-- How a block of a pre-empted partition is treated (13 R234-R236). -/
inductive PMethod where
  | none | drain | flush | save
  deriving DecidableEq, Repr, Inhabited

structure Block where
  launch  : Nat
  index   : Nat
  ntid    : Nat
  entry   : DWord
  arg     : DWord
  status  : BStatus
  core    : Nat
  /-- Home wave h goes to sub-core (f + h) mod 4 (03 R70). -/
  f       : Nat
  threads : List Thread
  waves   : List Wave
  pwaves  : List PWave
  scratch : Memory
  /-- What granules of scratch held before each write, newest first: granule, step of the write, bytes (09 R182). -/
  past    : List (Nat × Nat × List Byte)
  /-- Full/empty bits: true is FULL, the default (08 R167). -/
  fe      : Sparse Bool
  /-- The step at which a granule was last made FULL, and last stored to (09 Table 09.2). -/
  fullAt   : Sparse Nat
  storedAt : Sparse Nat
  copies  : List Copy
  /-- Copies that completed in this cycle (10 R199). -/
  landed  : List Copy
  tiles   : List Tile
  cvs     : List Cv
  bars    : List (List Arrival)
  /-- Issues so far, one per issue of a PC group (13 R234). -/
  issues  : Nat
  spawned : Bool
  released : Bool
  ckpt    : Option Checkpoint
  /-- Interval log, oldest first: the item of each logged store (13 R242). -/
  log     : List Nat
  logBytes : Nat
  /-- The stores of logs that have been performed, in the order of the logs (13 R242). -/
  performed : List Nat
  rollable : Bool
  rolled  : Bool
  method  : PMethod
  /-- The cycle since which the block has waited to be placed (03 R72), and the die offered to it. -/
  waiting : Nat
  offered : Option Nat
  /-- `.sys` acquires of the block: the step of the last one (08 R162). -/
  sysAcq  : Nat
  /-- Closed instances of a saved block (06 R153). -/
  held    : List MInst
  /-- What its first instruction acquires from (09 Table 09.2): the step of a completion, or the `SPAWN` (block, thread,
  operation). -/
  acqDone : Option Nat
  acqFrom : Option (Nat × Nat × Nat)
  deriving DecidableEq, Repr, Inhabited

/-! ### Cores -/

structure Sub where
  /-- The wave that issued last: block, physical wave. -/
  last   : Option (Nat × Nat)
  /-- Consecutive cycles it has issued while another active wave was ready (03 R74). -/
  consec : Nat
  /-- The cycle of the sub-core's last issue, and of its last activation or swap. -/
  issued : Option Nat
  moved  : Option Nat
  deriving DecidableEq, Repr, Inhabited

structure Core where
  lcap    : Nat
  subs    : List Sub
  /-- Victim tags, oldest first: context, line, owner (block, home wave) (03 R78). -/
  victims : List (Nat × Nat × Option (Nat × Nat))
  /-- Closed instances in close order; the first may be executing (06 R141). -/
  mq      : List MInst
  replays : Nat
  /-- The cycle of the last halving of measured leases (03 R79). -/
  halved  : Nat
  deriving DecidableEq, Repr, Inhabited

/-! ### Contexts, queues, launches -/

/-- The coherence classes (08 R163). -/
inductive Coh where
  | priv | soft | hard | pool
  deriving DecidableEq, Repr, Inhabited

/-- A range of a lease set (03 Table 03.6); length in bytes. -/
structure Range where
  base : Nat
  len  : Nat
  tier : BitVec 2
  coh  : Coh
  x    : Bool
  w    : Bool
  rd   : Bool
  deriving DecidableEq, Repr, Inhabited

/-- A stop record (13 Table 13.3). -/
structure StopRec where
  source   : Nat
  cause    : Nat
  exited   : Bool
  rollback : Bool
  context  : Bool
  ctx      : Nat
  wave     : Nat
  region   : Nat
  seq      : Nat
  causeSeq : Nat
  launch   : Nat
  block    : Nat
  lanes    : BitVec 32
  cblock   : Nat
  pc       : DWord
  addr     : Nat
  step     : Nat
  attempt  : Nat
  core     : Nat
  /-- The cycle of its writing: of the records of one, the EH receives the lower SOURCE first (13 R232). -/
  at_      : Nat
  deriving DecidableEq, Repr, Inhabited

/-- The last store or atomic that wrote a line (11 R215, 15 R262); its sequence number is the step that performed it. -/
structure StoreRec where
  launch : Nat
  block  : Nat
  wave   : Nat
  core   : Nat
  pc     : DWord
  addr   : Nat
  seq    : Nat
  deriving DecidableEq, Repr, Inhabited

/-- A Fitas program image (11 R207). -/
structure Program where
  id     : Nat
  encode : Bool
  insns  : List Word
  table  : List Word
  deriving DecidableEq, Repr, Inhabited

/-- A generation of a codec region (11 R217). -/
structure Gen where
  num  : Nat
  dec  : Nat
  enc  : Nat
  dsb  : Nat
  esb  : Nat
  params : List Word
  deriving DecidableEq, Repr, Inhabited

/-- A codec region and its slot array (11 R201-R205). -/
structure Region where
  idx    : Nat
  base   : Nat
  len    : Nat
  pbs    : Nat
  sbs    : Nat
  vfy    : Bool
  lossy  : Bool
  repl   : Bool
  ebase  : Nat
  ecount : Nat
  rbase  : Nat
  gens   : List Gen
  cur    : Nat
  /-- The cycle of the last rebinding, and the generation current before it (11 R223). -/
  since  : Nat
  prev   : Nat
  die    : Nat
  /-- Slots that are not the ZERO slot of generation 0 every slot starts as. -/
  slots  : List (Nat × List Byte)
  /-- Escape entries in use: entry, block. -/
  escs   : List (Nat × Nat)
  inv    : Nat
  esc    : Nat
  rep    : Nat
  /-- The recode walker's next slot (11 R218). -/
  walker : Option Nat
  deriving DecidableEq, Repr, Inhabited

/-- A pool region (15 R255-R258): one lease range with COH 11. -/
structure PoolRegion where
  base    : Nat
  len     : Nat
  off     : Nat
  port    : Nat
  salvage : Nat
  lost    : Bool
  deriving DecidableEq, Repr, Inhabited

/-- An entry of the spawn queue or of the spill area (03 R67, R68). -/
structure SpawnEntry where
  launch : Nat
  first  : Nat
  n      : Nat
  deriving DecidableEq, Repr, Inhabited

structure Context where
  spec      : ContextSpec
  sets      : List (Nat × List Range)
  /-- The ranges of its accepted MAPs, newest first: under which TIER a page was last mapped (08 R170). -/
  maps      : List Range
  halted    : Bool
  killed    : Bool
  /-- The fault log: the 64-byte records that the EH has copied (13 R231). -/
  log       : List (List Byte)
  cyc       : Nat
  deadlines : List Nat
  spill     : List SpawnEntry
  programs  : List Program
  regions   : List Region
  pools     : List PoolRegion
  /-- Read-only aliases the MM has mapped: base, length, the writer's context and base (08 R162). -/
  aliases   : List (Nat × Nat × Nat × Nat)
  /-- Saved blocks' records in the save area: block, address, bytes (13 R238). -/
  saves     : List (Nat × Nat × List Byte)
  deriving DecidableEq, Repr, Inhabited

structure Partition where
  cores   : List Nat
  ctx     : Option Nat
  /-- The cycle at which the halt line rose; the SEQ and SOURCE of the record that raised it. -/
  halt    : Option (Nat × Nat × Nat)
  stopped : Bool
  /-- A pre-emption in progress: D and F in 1/256, cycle. -/
  preempt : Option (Nat × Nat × Nat)
  deriving DecidableEq, Repr, Inhabited

inductive QState where
  | active | stopped | error
  deriving DecidableEq, Repr, Inhabited

/-- A packet is fetched, then parsed, then started, then completed; or it is rejected. -/
inductive PStatus where
  | fetched | pending | started | completed | rejected
  deriving DecidableEq, Repr, Inhabited

/-- A packet the filter has read: its count, its 64 bytes. -/
structure Packet where
  n      : Nat
  raw    : List Byte
  st     : PStatus
  /-- Consumed, so the head may pass over it (03 R52). -/
  used   : Bool
  launch : Option Nat
  /-- The step of its completion, where that is a release (09 Table 09.2). -/
  doneAt : Option Nat
  deriving DecidableEq, Repr, Inhabited

structure Queue where
  spec     : QueueSpec
  head     : Nat
  tail     : Nat
  state    : QState
  tokens   : BitVec 64
  pkts     : List Packet
  resident : Bool
  idle     : Nat
  deriving DecidableEq, Repr, Inhabited

inductive LStage where
  | running | widened | done
  deriving DecidableEq, Repr, Inhabited

structure Launch where
  q        : Nat
  pkt      : Nat
  ctx      : Nat
  flags    : BitVec 8
  cls      : Nat
  threads  : Nat
  regs     : Nat
  span     : Nat
  tiles    : Nat
  scratch  : Nat
  tag      : Word
  entry    : DWord
  arg      : DWord
  setMask  : BitVec 64
  ranges   : List Range
  record   : Nat
  next     : Nat
  tree     : Nat
  gates    : BitVec 16
  /-- The step and the period at which each open gate opened: gate, step, period. -/
  gateAt   : List (Nat × Nat × Nat)
  /-- The step of its completion, and its period (03 R82). -/
  doneAt   : Option Nat
  doneIn   : Nat
  /-- The `GATE`s that a `RELEASE` of their own period let pass: block, thread, gate, period (03 R82). -/
  gated    : List (Nat × Nat × Nat × Nat)
  /-- The step of the completion it started after (09 Table 09.2). -/
  after    : Option Nat
  retired  : Nat
  /-- Issue counts of the retired blocks (13 R234). -/
  counts   : List Nat
  cause    : Nat
  /-- The cycle and the SOURCE of the record that charged the cause (13 R232). -/
  causeBy  : Nat × Nat
  killed   : Bool
  stage    : LStage
  /-- The packet number of the LAUNCH before it, when that had not completed at the start (03 R60). -/
  pred     : Option Nat
  deriving DecidableEq, Repr, Inhabited

/-- A COPY packet in progress (13 R237). -/
structure Xfer where
  q      : Nat
  pkt    : Nat
  ctx    : Nat
  src    : Nat
  dst    : Nat
  len    : Nat
  next   : Nat
  setMask : BitVec 64
  record : Nat
  cause  : Nat
  killed : Bool
  done   : Bool
  /-- Its service class, and whether the reads of its next chunk have been requested (03 R56, 08 R174). -/
  cls    : Nat
  asked  : Bool
  deriving DecidableEq, Repr, Inhabited

/-! ### Memory side -/

/-- A store or a release event of the visibility machine (09 R180). Its place in the list is its coherence order. -/
structure Item where
  /-- The granule key; none for a release event that is no store. -/
  gran   : Option Nat
  bytes  : List (Nat × Byte)
  /-- Block and thread; none for a store by no thread. -/
  thr    : Option (Nat × Nat)
  priv   : Bool
  vis    : List (Inst × Nat)
  /-- The step of a release at `.sys` of the thread that covered it (08 R162). -/
  relSys : Option Nat
  /-- Its operation, in the program order of its thread. -/
  op     : Nat
  /-- The release event that an acquire of it synchronizes with, when it is not itself (09 R190). -/
  sync   : Option Nat
  /-- No cache holds it as dirty pool data: it has reached the pool device (15 R252, R259), or is no store to the pool. -/
  written : Bool
  deriving DecidableEq, Repr, Inhabited

/-- The places a line is cached (08 R160). -/
inductive Place where
  | l1 (core : Nat)
  | rdc (die : Nat)
  | l2 (die : Nat)
  deriving DecidableEq, Repr, Inhabited

structure Line where
  place : Place
  ctx   : Nat
  addr  : Nat
  x     : Bool
  w     : Bool
  rd    : Bool
  coh   : Coh
  cb    : Bool
  creg  : Nat
  gen   : Nat
  dirty : Bool
  owned : Bool
  /-- A write of it to the pool device is in progress (15 R255, R262). -/
  wb    : Bool
  /-- The block and home wave whose miss filled it (03 R78). -/
  filler : Option (Nat × Nat)
  srec  : Option StoreRec
  deriving DecidableEq, Repr, Inhabited

/-- The unit in which the L2 holds a codec region (11 R203, R224). -/
structure CUnit where
  ctx       : Nat
  region    : Nat
  unit      : Nat
  installed : Bool
  /-- Blocks whose fill has succeeded while the unit is being filled. -/
  filled    : List Nat
  dirty     : List Nat
  pinned    : List Nat
  recs      : List (Nat × StoreRec)
  /-- Blocks whose encode runs: the generation it takes and its closing store (11 R215, R217). -/
  leaving   : List (Nat × Nat × Option StoreRec)
  /-- The generation of the slot that each block was filled from (08 R161). -/
  gens      : List (Nat × Nat)
  deriving DecidableEq, Repr, Inhabited

/-- The access a fill or a walk is charged to (11 R212): an operation of a thread, or nobody. -/
structure Opener where
  thr : Option (Nat × Nat × Nat)
  deriving DecidableEq, Repr, Inhabited

/-- A fill of a codec block in progress (11 R211). -/
structure CFill where
  ctx     : Nat
  region  : Nat
  blk     : Nat
  attempt : Nat
  opener  : Opener
  deriving DecidableEq, Repr, Inhabited

/-- How a Fitas run ends (20 Table 20.2). -/
inductive XEnd where
  | over | malformed | pastInput | pastOutput | ended
  deriving DecidableEq, Repr, Inhabited

/-- One Fitas run (11 R206). -/
structure XRun where
  ctx    : Nat
  region : Nat
  blk    : Nat
  gen    : Nat
  encode : Bool
  pbs    : Nat
  sbs    : Nat
  bound  : Nat
  insns  : List Word
  table  : List Word
  params : List Word
  k      : List Word
  work   : List Word
  inp    : List Byte
  out    : List Byte
  inCur  : Nat
  outCur : Nat
  pc     : Nat
  count  : Nat
  fin    : Option XEnd
  /-- The device has taken the outcome of the run. -/
  taken  : Bool
  deriving DecidableEq, Repr, Inhabited

/-- A leaf translation entry, decoded (08 Table 08.1). -/
structure Leaf where
  level : Nat
  coh   : Coh
  pin   : Bool
  cb    : Bool
  creg  : Nat
  x     : Bool
  w     : Bool
  rd    : Bool
  frame : Nat
  /-- The device physical address of the entry itself. -/
  at_   : Nat
  deriving DecidableEq, Repr, Inhabited

/-- A walk: die, group, context, page. -/
abbrev WalkKey := Nat × Nat × Nat × Nat

/-- A request at a memory controller (08 R174, R175). -/
structure Req where
  thr      : Option (Nat × Nat × Nat)
  ctx      : Nat
  /-- The class it is served at, and its own class, which its counter is of (08 R175, R176). -/
  cls      : Nat
  own      : Nat
  deadline : Nat
  arrival  : Nat
  pa       : Nat
  /-- The 64 KiB page of its context that it reaches; none for an entry of a table, a slot or a scrub (08 R170). -/
  page     : Option Nat
  /-- Requester: a core, 256 + core for its copy engine, 512 + 512 * die + engine for a transducer engine (08 R176); from
  4096 on those without counters, a migration and 4097 + its number for a COPY. -/
  who      : Nat
  /-- The walk whose read of a table entry it is (08 R166). -/
  walk     : Option WalkKey
  deriving DecidableEq, Repr, Inhabited

/-- A request of a requester without an entry that waits for its translation (08 R166, R174): requester, class, address, the
offset from there of what it reaches, the cycle at which it left. -/
structure Ask where
  who  : Nat
  cls  : Nat
  va   : Nat
  off  : Nat
  left : Nat
  deriving DecidableEq, Repr, Inhabited

/-- A walk (08 R166), with the operations and the other requests merged into it; the first operation is the opener. One that
does not run waits for a free walker. -/
structure Walk where
  die   : Nat
  group : Nat
  ctx   : Nat
  page  : Nat
  ops   : List (Nat × Nat × Nat)
  asks  : List Ask
  runs  : Bool
  deriving DecidableEq, Repr, Inhabited

/-- A memory controller or the hub's pool translator (08 R160, R166, R175). -/
structure Controller where
  tlb    : List (Nat × Nat × Leaf)
  reqs   : List Req
  budget : Nat
  used   : Nat
  used0  : Nat
  used1  : Nat
  deriving DecidableEq, Repr, Inhabited

structure Die where
  smask   : DWord
  hmask   : List DWord
  /-- The arbiter's k; in an emergency the die runs at k = 4 (17 R265, R266). -/
  clock   : Nat
  cap     : Nat
  emergency : Bool
  /-- A warning since the last arbiter window (17 R266). -/
  warned  : Bool
  readings : List Int
  spawnQ  : List SpawnEntry
  /-- Accesses per 64 KiB page: context, page, count (08 R170). -/
  hot     : List (Nat × Nat × Nat)
  /-- Winter spill: context, region, block, bytes, closing-store record (17 R268). -/
  spill   : List (Nat × Nat × Nat × List Byte × Option StoreRec)
  /-- The core cycles that its clock has counted, and what has gone by of the next in sixteenths (01 R21). -/
  cycle   : Nat
  phase   : Nat
  deriving DecidableEq, Repr, Inhabited

/-- A pool decoder (15 R250): of an HDM-H range or of an HDM-DB range. -/
structure Decoder where
  off      : Nat
  len      : Nat
  hpa      : Nat
  port     : Nat
  hdmH     : Bool
  unshared : Bool
  deriving DecidableEq, Repr, Inhabited

structure Port where
  attached   : Bool
  up         : Bool
  recovering : Bool
  lost       : Bool
  deriving DecidableEq, Repr, Inhabited

/-! ### Platform -/

inductive Winter where
  | running | pwrwarn | thermal (die : Nat) | request
  deriving DecidableEq, Repr, Inhabited

inductive LogKind where
  | warning | pinnedHot | repair | injection | loss | scrub | remap | walkerFault | winter | thaw | resetLoss
  deriving DecidableEq, Repr, Inhabited

/-- An event of the log with its source, its SEQ and the SEQ of the message that caused it, or zero (17 R271). -/
structure LogEntry where
  kind   : LogKind
  args   : List Nat
  source : Nat
  seq    : Nat
  cause  : Nat
  deriving DecidableEq, Repr, Inhabited

/-- What the module answers or sends to the outside. -/
inductive Reply where
  | sensors (v : List (List Int))
  | events (v : List LogEntry)
  | counters (v : Sparse Nat)
  | winters (n : Nat)
  | bytes (v : List Byte)
  /-- The identity certificate with its signature, the measurements, the signature of the report (17 R274). -/
  | report (cert certSig : List Byte) (measurements : List (List Byte)) (signature : List Byte)
  | birsp (port hpa : Nat)
  | irq (fn vector : Nat)
  deriving DecidableEq, Repr, Inhabited

structure Flash where
  imageA   : List Byte
  imageB   : List Byte
  running  : Bool
  /-- The image that becomes active at the next reset; true is B. -/
  next     : Bool
  counter  : Nat
  failures : Nat
  deriving DecidableEq, Repr, Inhabited

/-- The row-remap table of an HBM stack, of 4,096 entries in two copies (01 Table 01.1; 13 R246): what the two copies hold,
the mirror second, whether the mirror is the active copy, whether the other copy is out of service, the entries whose copies
have both failed. -/
structure RemapTable where
  copies  : List (Sparse DWord)
  mirror  : Bool
  failed  : Bool
  retired : List Nat
  deriving DecidableEq, Repr, Inhabited

structure Platform where
  winter    : Winter
  pwrwarn   : Bool
  wake      : Bool
  /-- The tripped die's sensors have read below the warning threshold (17 R269). -/
  cooled    : Bool
  winters   : Nat
  /-- The steps of a Thaw that have been taken (17 R269, R270). -/
  thawed    : Nat
  life      : LifeCycle
  /-- The identity key pair exists, with the identity certificate (17 R274). -/
  identity  : Bool
  cert      : List Byte
  boots     : Nat
  flash     : Flash
  scrub     : Nat
  corrected : Nat
  log       : List LogEntry
  out       : List Reply
  mail      : List (FwCore × List Message)
  /-- Messages whose senders wait for room, in the order they were sent (17 R264). -/
  waiting   : List (FwCore × Message)
  /-- Firmware cores in retention (01 R20, 17 R264). -/
  asleep    : List FwCore
  /-- Poisoned lines (device physical) (13 R246, 17 R272). -/
  poison    : List Nat
  /-- The row-remap tables of the eight HBM stacks. -/
  remap     : List RemapTable
  deriving DecidableEq, Repr, Inhabited

/-! ### The step's own data -/

/-- Who moves next: a sub-core's issue slot, one instruction of a Fitas run, a device event, an uncorrectable SRAM error
that threads of a block have consumed at an instruction (13 R244; log 77), a firmware core that takes a message or goes to
sleep (17 R264), a store of the host to its own memory (03 R51), the next core cycle. -/
inductive Turn where
  | issue (core sub : Nat)
  | fitas (run : Nat)
  | event (i : Instr)
  | sramError (b : Nat) (tids : List Nat) (pc : DWord)
  | firmware (c : FwCore)
  | hostStore (fn addr : Nat) (bytes : List Byte)
  | tick
  deriving DecidableEq, Repr, Inhabited

/-- What is being executed: a PC group of a physical wave (block, wave, pc, instruction length in bytes, threads, cycle), or
a Fitas run. -/
structure Cur where
  block : Nat
  pwave : Nat
  pc    : DWord
  len   : Nat
  tids  : List Nat
  run   : Nat
  /-- The cycle of its die. -/
  cyc   : Nat
  deriving DecidableEq, Repr, Inhabited

structure State where
  agenda  : List Turn
  cur     : Cur
  /-- Periods of 2.25 GHz: the cycles of a die at its full clock (01 R21). -/
  cycle   : Nat
  now     : Nat
  free    : Nat
  queues  : List Queue
  ctxs    : List Context
  parts   : List Partition
  launches : List Launch
  xfers   : List Xfer
  blocks  : List Block
  cores   : List Core
  dies    : List Die
  ctls    : List Controller
  walks   : List Walk
  mem     : Memory
  pmem    : Memory
  /-- Host memory that the functions reach: byte a of function f is key f * 2^64 + a (03 R51). -/
  hmem    : Memory
  items   : List Item
  /-- Floors, newest first: block, granule, item, step (09 R180). -/
  floors  : List (Nat × Nat × Nat × Nat)
  lines   : List Line
  units   : List CUnit
  fills   : List CFill
  runs    : List XRun
  /-- The record ring of the hub: stop records that the EH has not taken yet, 64 bytes each (13 R231, Table 13.3). -/
  ring    : List StopRec
  /-- Event count of each source, by SOURCE code (17 R271). -/
  seqs    : Sparse Nat
  ports   : List Port
  decoders : List Decoder
  /-- The hub's reverse map: host physical page, context, virtual page, page bytes (15 R251). -/
  rmap    : List (Nat × Nat × Nat × Nat)
  /-- Bytes that the pool device holds at host physical addresses the reverse map does not name: port, address, byte (15
  R254). -/
  peers   : List (Nat × Nat × Byte)
  dev     : Nat
  /-- Missed-deadline counters: requester times four plus class (08 R176). -/
  missed  : Sparse Nat
  plat    : Platform
  deriving DecidableEq, Repr, Inhabited

/-! ### Reset -/

def Sub.init : Sub := ⟨none, 0, none, none⟩
def Core.init : Core := ⟨2048, List.replicate 4 Sub.init, [], [], 0, 0⟩
def Die.init : Die := ⟨0, List.replicate 6 0, 16, 0, false, false, List.replicate 64 0, [], [], [], 0, 0⟩
/-- The budget before the first arbiter window: the peak rate of the device behind it for 1 ms (01 Table 01.2; log 5). -/
def Controller.init (i : Nat) : Controller :=
  ⟨[], [], if i = 24 then 256000000 else if i % 6 < 2 then 2560000000 else 153600000, 0, 0, 0⟩
def Port.init : Port := ⟨false, false, false, false⟩

/-- The platform after the first reset. Life cycle, flash and counters have no reset value in the spec: DESIGN CHOICE
(log 5, 6). -/
def Platform.init : Platform :=
  { winter := .running, pwrwarn := false, wake := false, cooled := false, winters := 0, thawed := 0, life := .manufacture,
    identity := false, cert := [], boots := 0, flash := ⟨[], [], false, false, 0, 0⟩, scrub := 24, corrected := 0, log := [],
    out := [], mail := [(.fe, []), (.ls, []), (.mm, []), (.eh, []), (.pw, []), (.se, []), (.mg, []), (.cv, [])], waiting := [],
    asleep := [.fe, .ls, .mm, .eh, .pw, .se, .mg, .cv], poison := [], remap := List.replicate 8 ⟨[[], []], false, false, []⟩ }

/-- The module right after reset: memories wiped (17 R273), no context, no queue, 160 idle cores with LCAP at 2,048
(03 R76), masks zero (08 Table 08.6), DEV 0 (04 Table 04.2). -/
def State.reset : State :=
  { agenda := [], cur := ⟨0, 0, 0, 0, [], 0, 0⟩, cycle := 0, now := 1, free := 0,
    queues := [], ctxs := [], parts := [], launches := [], xfers := [], blocks := [],
    cores := List.replicate 160 Core.init, dies := List.replicate 4 Die.init,
    ctls := (List.range 25).map Controller.init, walks := [],
    mem := [], pmem := [], hmem := [], items := [], floors := [], lines := [], units := [], fills := [], runs := [],
    ring := [], seqs := [], ports := List.replicate 2 Port.init, decoders := [], rmap := [], peers := [], dev := 0, missed := [],
    plat := Platform.init }

end Sys2Proof.Machine
end

