-- ==== Sys2Proof/Machine/Bits.lean ====
section
/-!
DEFINITION. Bit fields, sign extension, byte order, and the sparse maps that hold memory.
-/

namespace Sys2Proof.Machine

/-- Bits hi..lo of a number (00 R8). -/
def bitsOf (x hi lo : Nat) : Nat := (x >>> lo) % 2 ^ (hi + 1 - lo)

def bitOf (x i : Nat) : Bool := x.testBit i

/-- `sext(x, n)` of 00 R8: the low n bits of x as a signed integer. -/
def sextN (x n : Nat) : Int :=
  let y := x % 2 ^ n
  if n ≠ 0 ∧ y.testBit (n - 1) then (y : Int) - (2 ^ n : Nat) else y

/-- An integer wrapped to n bits. -/
def wrapN (x : Int) (n : Nat) : Nat := (x % (2 ^ n : Nat)).toNat

/-- Little-endian (00 R4): the first byte is the least significant. -/
def leNat : List Byte → Nat
  | [] => 0
  | b :: r => b.toNat + 256 * leNat r

def leBytes : Nat → Nat → List Byte
  | 0, _ => []
  | n + 1, x => BitVec.ofNat 8 x :: leBytes n (x / 256)

/-- The low `n` entries of a list, padded with a default. -/
def takePad {α : Type} (n : Nat) (d : α) (l : List α) : List α := (l ++ List.replicate n d).take n

/-! ### Sparse maps -/

def sget {α : Type} (d : α) (k : Nat) : Sparse α → α
  | [] => d
  | (k', v) :: r => if k = k' then v else sget d k r

def sset {α : Type} [DecidableEq α] (d : α) (k : Nat) (v : α) : Sparse α → Sparse α
  | [] => if v = d then [] else [(k, v)]
  | (k', v') :: r =>
    if k < k' then (if v = d then (k', v') :: r else (k, v) :: (k', v') :: r)
    else if k = k' then (if v = d then r else (k, v) :: r)
    else (k', v') :: sset d k v r

/-- The canonical form: keys strictly rising, no entry equal to the default. -/
abbrev SparseWf {α : Type} (d : α) (m : Sparse α) : Prop :=
  m.Pairwise (fun a b => a.1 < b.1) ∧ ∀ e ∈ m, e.2 ≠ d

/-- The canonical form of memory. -/
abbrev Memory.wf (m : Memory) : Prop := SparseWf (0 : Byte) m

/-- What one address reads as; an unlisted address reads as zero (17 R273, log 4). -/
def memGet (m : Memory) (a : Nat) : Byte := sget 0 a m

def memSet (m : Memory) (a : Nat) (v : Byte) : Memory := sset 0 a v m

def memRead (m : Memory) (a : Nat) : Nat → List Byte
  | 0 => []
  | n + 1 => memGet m a :: memRead m (a + 1) n

def memWrite (m : Memory) (a : Nat) : List Byte → Memory
  | [] => m
  | b :: r => memWrite (memSet m a b) (a + 1) r

/-! ### Lists -/

/-- Changes the element at an index; an index beyond the list changes nothing. -/
def modAt {α : Type} (f : α → α) : Nat → List α → List α
  | _, [] => []
  | 0, a :: r => f a :: r
  | n + 1, a :: r => a :: modAt f n r

/-- Changes every element that passes a test. -/
def modIf {α : Type} (p : α → Bool) (f : α → α) (l : List α) : List α := l.map fun a => if p a then f a else a

/-- The least element of a list of naturals. -/
def minNat : List Nat → Option Nat
  | [] => none
  | a :: r => match minNat r with
    | none => some a
    | some b => some (min a b)

/-- Inserts by a key, after entries with a smaller or equal key. -/
def insertBy {α : Type} (le : α → α → Bool) (x : α) : List α → List α
  | [] => [x]
  | a :: r => if le a x then a :: insertBy le x r else x :: a :: r

/-- Stable sort. -/
def sortBy {α : Type} (le : α → α → Bool) : List α → List α
  | [] => []
  | a :: r => let s := sortBy le r; (s.takeWhile fun b => !le a b) ++ a :: (s.dropWhile fun b => !le a b)

/-- The element with the least key, the first of equals. -/
def leastBy {α : Type} (key : α → Nat) : List α → Option α
  | [] => none
  | a :: r => match leastBy key r with
    | none => some a
    | some b => if key a ≤ key b then some a else some b

/-- The mask with the listed bits set. -/
def maskOf (l : List Nat) : Nat := l.foldl (fun m i => m ||| 2 ^ i) 0

/-- XOR of all bits. -/
def parityN : Nat → Nat → Bool
  | 0, _ => false
  | n + 1, x => xor (x.testBit n) (parityN n x)

end Sys2Proof.Machine
end

