-- ==== Sys2Proof/Machine/Legal.lean ====
section
/-!
DEFINITION. What an encoding of an extended instruction may hold (04 R98, R101-R108 and each entry of the reference):
the use of every field as a `Shape`, and the check of the fields against it, which raises fault 0x01 when it fails.
The same shape says which registers an instruction names, reads (with its FE bit) and writes.
-/

namespace Sys2Proof.Machine

open Sys2Proof

/-- How an instruction uses a register field. -/
inductive RegUse where
  | zero | reg | pair | run4 | run8
  /-- A predicate index, bits 8:4 zero; also a gate, a barrier id and a convergence register. -/
  | idx4
  /-- A predicate with a negate bit, bits 8:5 zero. -/
  | pred5
  /-- A tile, 0 to 23 (06 R138). -/
  | tile
  /-- An 8-bit immediate, bit 8 zero. -/
  | imm8
  /-- OFS9 (04 R104). -/
  | ofs
  deriving DecidableEq, Repr

/-- The register fields. -/
inductive Pos where
  | rd | ra | rb | rc | re
  deriving DecidableEq, Repr

/-- What LEN = 11 means for an instruction (04 R102, R103). -/
inductive LitUse where
  | never
  /-- These source fields may name the literal. -/
  | operand (l : List Pos)
  /-- The literal is the offset of the memory class. -/
  | offset
  deriving DecidableEq, Repr

structure Shape where
  rd : RegUse := .zero
  ra : RegUse := .zero
  rb : RegUse := .zero
  rc : RegUse := .zero
  re : RegUse := .zero
  /-- W1[26:0] holds a label or an immediate, not RA, RB and RC. -/
  label : Bool := false
  /-- The register sources in the order of the FE bits (04 R87). -/
  srcs : List Pos := []
  /-- RD is a register destination. -/
  dst : Bool := false
  mod : Bool := false
  ch : Bool := false
  rm : Bool := false
  ftzi : Bool := false
  ftzo : Bool := false
  /-- SCP is allowed from the first to the second value. -/
  scp : Nat × Nat := (0, 0)
  lit : LitUse := .never
  /-- RET must not exceed this. -/
  ret : Nat := 4
  /-- STALL and YLD may be set (04 R100): not where the entry says that every field except the guard is zero. -/
  hints : Bool := true
  deriving DecidableEq, Repr

def fieldAt (f : EFields) : Pos → BitVec 9
  | .rd => f.rd
  | .ra => f.ra
  | .rb => f.rb
  | .rc => f.rc
  | .re => f.re

def useAt (sh : Shape) : Pos → RegUse
  | .rd => sh.rd
  | .ra => sh.ra
  | .rb => sh.rb
  | .rc => sh.rc
  | .re => sh.re

/-- How many registers a use names (04 R84). -/
def RegUse.count : RegUse → Nat
  | .reg => 1
  | .pair => 2
  | .run4 => 4
  | .run8 => 8
  | _ => 0

/-- Whether the field names the literal (04 R102). -/
def namesLit (f : EFields) (sh : Shape) (p : Pos) : Bool :=
  match sh.lit with
  | .operand l => f.lit.isSome && l.contains p && fieldAt f p == 0x1FF#9
  | _ => false

/-- The alignment and range of one field (04 R84, R98, R104, 06 R138). -/
def fieldOk (f : EFields) (sh : Shape) (p : Pos) : Bool :=
  let v := (fieldAt f p).toNat
  match useAt sh p with
  | .zero => v == 0
  | .reg => true
  | .pair => namesLit f sh p || v % 2 == 0
  | .run4 => v % 4 == 0
  | .run8 => v % 8 == 0
  | .idx4 => v < 16
  | .pred5 => v < 32
  | .tile => v < 24
  | .imm8 => v < 256
  | .ofs => true

/-- FE bit i needs a register source at position i (04 R87). -/
def feOk (f : EFields) (sh : Shape) : Bool :=
  (List.range 4).all fun i =>
    !f.fe.getLsbD i || (match sh.srcs[i]? with
      | some p => !namesLit f sh p
      | none => false)

/-- A literal offset (04 R103): 32 copies of its sign above bit 31, OFS9 zero, no source field 0x1FF. -/
def litOffsetOk (f : EFields) (l : BitVec 64) : Bool :=
  (l.extractLsb' 32 32 == if l.getLsbD 31 then 0xFFFFFFFF#32 else 0#32) && f.rc == 0 &&
    f.ra != 0x1FF#9 && f.rb != 0x1FF#9 && f.re != 0x1FF#9

/-- A literal operand (04 R102): some field names it, no other source field holds 0x1FF, and its high half is zero
when a 32-bit operand takes it. -/
def litOperandOk (f : EFields) (sh : Shape) (l : BitVec 64) : Bool :=
  let named := [Pos.ra, .rb, .rc, .re].filter fun p => namesLit f sh p
  let srcs := [Pos.ra, .rb, .rc, .re].filter fun p => (useAt sh p).count != 0
  !named.isEmpty && srcs.all (fun p => fieldAt f p != 0x1FF#9 || named.contains p) &&
    (l.extractLsb' 32 32 == 0#32 || named.all fun p => useAt sh p == .pair)

def litOk (f : EFields) (sh : Shape) : Bool :=
  match f.lit, sh.lit with
  | none, _ => true
  | some _, .never => false
  | some l, .offset => litOffsetOk f l
  | some l, .operand _ => litOperandOk f sh l

/-- The check of one extended instruction against its shape; a failure is fault 0x01 (04 R108). -/
def shapeOk (f : EFields) (sh : Shape) : Bool :=
  sh.mod && fieldOk f sh .rd && (sh.label || (fieldOk f sh .ra && fieldOk f sh .rb && fieldOk f sh .rc)) &&
    fieldOk f sh .re && feOk f sh && (sh.ch || f.ch == 0) && (if sh.rm then f.rm.toNat ≤ 5 else f.rm == 0) &&
    (sh.ftzi || !f.ftzi) && (sh.ftzo || !f.ftzo) &&
    decide (sh.scp.1 ≤ f.scp.toNat) && decide (f.scp.toNat ≤ sh.scp.2) &&
    decide (f.ret.toNat ≤ sh.ret) && (sh.hints || (f.stall == 0 && !f.yld)) && litOk f sh

/-! ### MOD by class (04 R105) -/

/-- The MOD bits outside a mask are zero. -/
def modIn (f : EFields) (mask : BitVec 6) : Bool := f.mod &&& ~~~mask == 0

/-- Width chosen by a MOD bit. -/
def wide (f : EFields) (i : Nat) : RegUse := if f.mod.getLsbD i then .pair else .reg

def fmtOf (f : EFields) : Nat := f.mod.toNat % 8
def ordOf (f : EFields) : Nat := f.mod.toNat / 16

/-- The registers of a memory datum (18 R290, 19 R324): 8 to 32 bits one register, 64 a pair, 128 a run of 4. -/
def dataUse (f : EFields) : RegUse :=
  if fmtOf f = 3 then .pair else if fmtOf f = 4 then .run4 else .reg

/-- The data run of an atomic at RE (18 Table 18.2). -/
def atomUse (f : EFields) : RegUse :=
  if f.rb.toNat = 9 then (if fmtOf f = 3 then .run4 else if fmtOf f = 4 then .run8 else .pair) else dataUse f

/-- An operation of 18 Table 18.2 with a size it lists. -/
def atomOk (f : EFields) : Bool :=
  decide (fmtOf f = 2 ∨ fmtOf f = 3 ∨ fmtOf f = 4) && !f.mod.getLsbD 3 && decide (f.rb.toNat ≤ 9) &&
    (decide (fmtOf f ≠ 4) || decide (8 ≤ f.rb.toNat))

/-- Sizes and sign extension of the loads (19 R324). -/
def loadModOk (f : EFields) : Bool :=
  decide (fmtOf f ≤ 4) && (!f.mod.getLsbD 3 || decide (fmtOf f ≤ 1))

/-- The pairs of 18 Table 18.4: destination MOD[2:0], source MOD[5:3]. -/
def cvtOk (f : EFields) : Bool :=
  let d := fmtOf f
  let s := f.mod.toNat / 8
  match s with
  | 0 => d != 0
  | 1 => [0, 2, 5, 6, 7].contains d
  | 2 => [0, 1, 5, 6, 7].contains d
  | 3 => [0, 4].contains d
  | 4 => [0, 3].contains d
  | _ => [0, 1, 2].contains d

/-- The special registers (04 Table 04.2). -/
def specialListed (i : Nat) : Bool := decide (i ≤ 0x1C ∧ i ≠ 0x0F)

def allLit : LitUse := .operand [.ra, .rb, .rc, .re]

/-! ### The shapes -/

def intShape2 (f : EFields) (mask : BitVec 6) : Shape :=
  { rd := wide f 1, ra := wide f 1, rb := wide f 1, srcs := [.ra, .rb], dst := true, mod := modIn f mask, lit := allLit }

def intShape3 (f : EFields) (mask : BitVec 6) : Shape :=
  { intShape2 f mask with rc := wide f 1, srcs := [.ra, .rb, .rc] }

def shiftShape (f : EFields) : Shape :=
  { intShape2 f 0b10 with rb := .reg }

def intShape1 (f : EFields) (rd : RegUse) : Shape :=
  { rd := rd, ra := wide f 1, srcs := [.ra], dst := true, mod := modIn f 0b10, lit := allLit }

def floatShape (mod : Bool) : Shape :=
  { rd := .reg, ra := .reg, rb := .reg, srcs := [.ra, .rb], dst := true, mod := mod, rm := true, ftzi := true, ftzo := true, lit := allLit }

def sfuShape (f : EFields) : Shape :=
  { floatShape (fmtOf f == 0 && !f.mod.getLsbD 4) with rb := .zero, srcs := [.ra] }

def laneShape (mod : Bool) : Shape :=
  { rd := .reg, ra := .reg, rb := .reg, re := .idx4, srcs := [.ra, .rb], dst := true, mod := mod, lit := .operand [.rb], ret := 0 }

def globalShape (f : EFields) (mod : Bool) (scp : Nat × Nat) : Shape :=
  { rd := dataUse f, ra := .pair, rb := .reg, rc := .ofs, srcs := [.ra, .rb], dst := true, mod := mod, ch := true, scp := scp, lit := .offset }

def orderScp (f : EFields) : Nat × Nat := if ordOf f = 0 then (0, 0) else (1, 5)

def scratchShape (f : EFields) (mod : Bool) : Shape :=
  { rd := dataUse f, ra := .reg, rb := .reg, rc := .ofs, srcs := [.ra, .rb], dst := true, mod := mod, scp := (0, 1), lit := .offset }

def tileShape (f : EFields) : Shape := { rd := .tile, mod := f.mod == 0, ret := 0 }

/-- The use of the fields of every extended instruction; anything else has none. -/
def shapeOf : Instr → Shape
  | .nop f => { mod := f.mod == 0, ret := 0 }
  | .bra f => { label := true, mod := f.mod == 0 }
  | .brx f => { ra := .pair, srcs := [.ra], mod := f.mod == 0, lit := allLit }
  | .call f => { rd := .pair, dst := true, label := true, mod := f.mod == 0 }
  | .callx f => { rd := .pair, dst := true, ra := .pair, srcs := [.ra], mod := f.mod == 0, lit := allLit }
  | .ret f => { ra := .pair, srcs := [.ra], mod := f.mod == 0, lit := allLit }
  | .meet f => { rd := .pair, dst := true, label := true, mod := f.mod == 0 }
  | .meetx f => { ra := .pair, srcs := [.ra], mod := f.mod == 0, lit := allLit }
  | .exit f => { mod := f.mod == 0, ret := 0, hints := false }
  | .bar f => { rd := .idx4, ra := .reg, srcs := [.ra], mod := f.mod == 0, scp := (0, 5), lit := allLit }
  | .trap f => { re := .imm8, mod := f.mod == 0, ret := 0, hints := false }
  | .brk f => { mod := f.mod == 0, ret := 0, hints := false }
  | .spawn f => { rd := .reg, dst := true, ra := .reg, rb := .reg, rc := .pair, re := .pair, srcs := [.ra, .rb, .rc, .re], mod := f.mod == 0, lit := allLit }
  | .gate f => { rd := .idx4, mod := f.mod == 0 }
  | .release f => { rd := .idx4, mod := f.mod == 0, ret := 0, hints := false }
  | .svc f => { rd := .reg, dst := true, ra := .pair, rb := .pair, srcs := [.ra, .rb], mod := decide (1 ≤ f.mod.toNat ∧ f.mod.toNat ≤ 4), lit := allLit }
  | .iadd f => intShape2 f 0b111
  | .isub f => intShape2 f 0b111
  | .iadd3 f => intShape3 f 0b111
  | .imul f => intShape2 f 0b111
  | .imulh f => intShape2 f 0b11
  | .imad f => intShape3 f 0b111
  | .imadw f => { intShape3 f 0b101 with rd := .pair, rc := .pair, ra := .reg, rb := .reg }
  | .imin f => intShape2 f 0b11
  | .imax f => intShape2 f 0b11
  | .iaddmin f => { intShape3 f 0b1 with mod := f.mod == 1 }
  | .iabs f => { intShape1 f (wide f 1) with mod := modIn f 0b111 && f.mod.getLsbD 0 }
  | .idp4 f => intShape3 f 0b1
  | .iset f => { rd := .idx4, ra := wide f 4, rb := wide f 4, srcs := [.ra, .rb], mod := decide (fmtOf f ≤ 5) && modIn f 0b11111, lit := allLit }
  | .sel f => { intShape2 f 0b10 with re := .pred5 }
  | .mov f =>
    if f.mod == 0x10#6 then { rd := .run4, ra := .run4, srcs := [.ra], dst := true, mod := true }
    else intShape1 f (wide f 1)
  | .movi f =>
    if f.lit.isSome then { rd := wide f 1, dst := true, ra := wide f 1, mod := modIn f 0b10 && f.ra == 0x1FF#9, lit := .operand [.ra] }
    else { rd := wide f 1, dst := true, label := true, mod := modIn f 0b10 }
  | .lea f => { rd := .pair, ra := .pair, rb := .reg, srcs := [.ra, .rb], dst := true, mod := modIn f 0b110001, lit := allLit }
  | .and f => intShape2 f 0b10
  | .or f => intShape2 f 0b10
  | .xor f => intShape2 f 0b10
  | .lop3 f => { intShape3 f 0b10 with re := .imm8, lit := .operand [.ra, .rb, .rc] }
  | .shl f => shiftShape f
  | .shr f => shiftShape f
  | .sar f => shiftShape f
  | .fsh f => { intShape3 f 0 with mod := f.mod == 0 || f.mod == 0x10#6 }
  | .bfx f => { intShape3 f 0b11 with rb := .reg, rc := .reg }
  | .bfi f => { intShape2 f 0b10 with rc := .reg, re := .reg, srcs := [.ra, .rb, .rc, .re] }
  | .popc f => intShape1 f .reg
  | .clz f => intShape1 f .reg
  | .brev f => intShape1 f (wide f 1)
  | .perm f => intShape3 f 0
  | .plop f => { rd := .idx4, ra := .idx4, rb := .idx4, rc := .idx4, re := .imm8, mod := f.mod == 0 }
  | .p2v f => { rd := .reg, dst := true, mod := f.mod == 0 }
  | .v2p f => { ra := .reg, rb := .reg, srcs := [.ra, .rb], mod := f.mod == 0, lit := allLit }
  | .elect f => { rd := .idx4, mod := f.mod == 0, ret := 0, hints := false }
  | .fadd f => floatShape (decide (fmtOf f ≤ 4))
  | .fmul f => floatShape (decide (fmtOf f ≤ 4))
  | .ffma f => { floatShape (decide (fmtOf f ≤ 4)) with rc := .reg, srcs := [.ra, .rb, .rc] }
  | .fmin f => floatShape (decide (fmtOf f ≤ 4))
  | .fmax f => floatShape (decide (fmtOf f ≤ 4))
  | .fset f => { floatShape (modIn f 0b1111 && (decide (fmtOf f ≤ 5) || !f.mod.getLsbD 3)) with rd := .idx4, dst := false, rm := false, ftzo := false }
  | .fcls f => { floatShape (decide (fmtOf f ≤ 2) && modIn f 0b111) with rd := .idx4, dst := false, rm := false, ftzo := false }
  | .frnd f => { floatShape (decide (fmtOf f ≤ 4) && !f.mod.getLsbD 4) with rb := .zero, srcs := [.ra] }
  | .frcp f => sfuShape f
  | .fsqrt f => sfuShape f
  | .frsq f => sfuShape f
  | .fex2 f => sfuShape f
  | .flg2 f => sfuShape f
  | .fscl f => floatShape (decide (fmtOf f ≤ 4) && !f.mod.getLsbD 4)
  | .fdp2 f => { floatShape (decide (fmtOf f = 3 ∨ fmtOf f = 4)) with rc := .reg, srcs := [.ra, .rb, .rc] }
  | .cvt f =>
    let two := f.mod.toNat / 8 = 0 ∧ (fmtOf f = 3 ∨ fmtOf f = 4)
    let unpack := (f.mod.toNat / 8 = 3 ∨ f.mod.toNat / 8 = 4) ∧ fmtOf f = 0
    { floatShape (cvtOk f) with rd := if unpack then .pair else .reg, rb := if two then .reg else .zero, srcs := if two then [.ra, .rb] else [.ra] }
  | .shfl f => { laneShape (modIn f 0b111 && (!f.mod.getLsbD 2 || decide (f.mod.toNat % 4 = 1 ∨ f.mod.toNat % 4 = 2))) with rc := .reg, srcs := [.ra, .rb, .rc], lit := .operand [.rb, .rc] }
  | .vote f => { laneShape (modIn f 0b11) with rd := if f.mod == 3 then .reg else .idx4, dst := f.mod == 3, ra := .pred5, srcs := [.rb] }
  | .wred f => laneShape (decide (fmtOf f ≤ 5) && modIn f 0b1111 && (!f.mod.getLsbD 3 || decide (fmtOf f = 1 ∨ fmtOf f = 2)))
  | .qxch f => laneShape (modIn f 0b11 && f.mod != 0)
  | .qbc f => laneShape (modIn f 0b11)
  | .ld f => globalShape f (loadModOk f && decide (ordOf f ≤ 1)) (orderScp f)
  | .ldc f => globalShape f (loadModOk f && decide (ordOf f = 3)) (1, 5)
  | .st f => { globalShape f (decide (fmtOf f ≤ 4 ∧ ordOf f ≤ 1) && !f.mod.getLsbD 3) (orderScp f) with srcs := [.ra, .rb, .rd], dst := false }
  | .lds f => scratchShape f (loadModOk f)
  | .sts f => { scratchShape f (decide (fmtOf f ≤ 4 ∧ ordOf f ≤ 1) && !f.mod.getLsbD 3) with srcs := [.ra, .rb, .rd], dst := false }
  | .feset f => { scratchShape f (f.mod == 0x04#6 || f.mod == 0x14#6) with rd := .zero, re := .reg, srcs := [.ra, .rb, .re], dst := false }
  | .atom f => { globalShape f (atomOk f) (1, 5) with rb := .idx4, re := atomUse f, srcs := [.ra, .re] }
  | .atoms f => { scratchShape f (atomOk f) with rb := .idx4, re := atomUse f, srcs := [.ra, .re] }
  | .fence f => { mod := f.mod == 0x10#6 || f.mod == 0x11#6 || f.mod == 0x20#6, scp := (1, 5) }
  | .cctl f => { ra := .pair, rb := .reg, rc := .ofs, srcs := [.ra, .rb], mod := decide (f.mod.toNat ≤ 2), scp := (1, 5), lit := .offset }
  | .pfetch f => { ra := .pair, rb := .reg, rc := .ofs, srcs := [.ra, .rb], mod := decide (f.mod.toNat ≤ 1), ch := true, lit := .offset }
  | .lease f => { ra := .reg, rc := .ofs, srcs := [.ra], mod := f.mod == 0, lit := .offset }
  | .acp f => { rd := .reg, ra := .pair, rb := .reg, rc := .ofs, re := .reg, srcs := [.rd, .ra, .rb, .re], mod := decide (f.mod.toNat ≤ 7), ch := true, lit := .offset, ret := 0 }
  | .acwait f => { mod := decide (f.mod.toNat ≤ 7), ret := 0 }
  | .tcopy f => { ra := .reg, rb := .reg, srcs := [.ra, .rb], mod := f.mod == 0, ch := true }
  | .mma f => { rd := .tile, ra := .run8, rb := .reg, rc := .idx4, srcs := [.ra, .rb], mod := modIn f 0b10111 && decide (f.mod.toNat / 2 % 4 ≠ 3), rm := true, ftzi := true, ftzo := true, ret := 1 }
  | .cvset f => { rd := .idx4, ra := .reg, rb := .reg, srcs := [.ra, .rb], mod := f.mod == 0, lit := allLit, ret := 0 }
  | .mwait f => { rd := .idx4, mod := f.mod == 0, ret := 0, hints := false }
  | .accwin f => { ra := .reg, rb := .reg, rc := .reg, srcs := [.ra, .rb, .rc], mod := f.mod == 0, lit := allLit, ret := 0 }
  | .ald f => { rd := .reg, dst := true, ra := .reg, rb := .reg, srcs := [.ra, .rb], mod := f.mod == 0, lit := allLit, ret := 0 }
  | .ast f => { ra := .reg, rb := .reg, rc := .reg, srcs := [.ra, .rb, .rc], mod := f.mod == 0, lit := allLit, ret := 0 }
  | .aclr f => tileShape f
  | .tkget f => { tileShape f with hints := false }
  | .tkput f => { tileShape f with hints := false }
  | .sread f => { rd := wide f 1, dst := true, re := .imm8, mod := modIn f 0b10 && specialListed f.re.toNat &&
      (!f.mod.getLsbD 1 || decide (f.re.toNat = 0x12 ∨ f.re.toNat = 0x16)) }
  | .swrite f => { re := .imm8, ra := .reg, srcs := [.ra], mod := f.mod == 0 && decide (f.re.toNat = 0x10 ∨ f.re.toNat = 0x11 ∨ f.re.toNat = 0x15), lit := allLit }
  | _ => {}

/-! ### Opcodes (04 Table 04.9) -/

/-- The opcode and the fields of an extended instruction; none for every other instruction. -/
def eform : Instr → Option (BitVec 8 × EFields)
  | .nop f => some (0x00, f) | .bra f => some (0x01, f) | .brx f => some (0x02, f) | .call f => some (0x03, f)
  | .callx f => some (0x04, f) | .ret f => some (0x05, f) | .meet f => some (0x06, f) | .meetx f => some (0x07, f)
  | .exit f => some (0x08, f) | .bar f => some (0x09, f) | .trap f => some (0x0A, f) | .brk f => some (0x0B, f)
  | .spawn f => some (0x0C, f) | .gate f => some (0x0D, f) | .release f => some (0x0E, f) | .svc f => some (0x0F, f)
  | .iadd f => some (0x20, f) | .isub f => some (0x21, f) | .iadd3 f => some (0x22, f) | .imul f => some (0x23, f)
  | .imulh f => some (0x24, f) | .imad f => some (0x25, f) | .imadw f => some (0x26, f) | .imin f => some (0x27, f)
  | .imax f => some (0x28, f) | .iaddmin f => some (0x29, f) | .iabs f => some (0x2A, f) | .idp4 f => some (0x2B, f)
  | .iset f => some (0x2C, f) | .sel f => some (0x2D, f) | .mov f => some (0x2E, f) | .movi f => some (0x2F, f)
  | .lea f => some (0x30, f) | .and f => some (0x31, f) | .or f => some (0x32, f) | .xor f => some (0x33, f)
  | .lop3 f => some (0x34, f) | .shl f => some (0x35, f) | .shr f => some (0x36, f) | .sar f => some (0x37, f)
  | .fsh f => some (0x38, f) | .bfx f => some (0x39, f) | .bfi f => some (0x3A, f) | .popc f => some (0x3B, f)
  | .clz f => some (0x3C, f) | .brev f => some (0x3D, f) | .perm f => some (0x3E, f)
  | .plop f => some (0x40, f) | .p2v f => some (0x41, f) | .v2p f => some (0x42, f) | .elect f => some (0x43, f)
  | .fadd f => some (0x48, f) | .fmul f => some (0x49, f) | .ffma f => some (0x4A, f) | .fmin f => some (0x4B, f)
  | .fmax f => some (0x4C, f) | .fset f => some (0x4D, f) | .fcls f => some (0x4E, f) | .frnd f => some (0x4F, f)
  | .frcp f => some (0x50, f) | .fsqrt f => some (0x51, f) | .frsq f => some (0x52, f) | .fex2 f => some (0x53, f)
  | .flg2 f => some (0x54, f) | .fscl f => some (0x55, f) | .fdp2 f => some (0x56, f) | .cvt f => some (0x57, f)
  | .shfl f => some (0x60, f) | .vote f => some (0x61, f) | .wred f => some (0x62, f) | .qxch f => some (0x63, f)
  | .qbc f => some (0x64, f)
  | .ld f => some (0x68, f) | .ldc f => some (0x69, f) | .st f => some (0x6A, f) | .lds f => some (0x6B, f)
  | .sts f => some (0x6C, f) | .feset f => some (0x6D, f) | .atom f => some (0x6E, f) | .atoms f => some (0x6F, f)
  | .fence f => some (0x70, f) | .cctl f => some (0x71, f) | .pfetch f => some (0x72, f) | .lease f => some (0x73, f)
  | .acp f => some (0x74, f) | .acwait f => some (0x75, f) | .tcopy f => some (0x76, f)
  | .mma f => some (0x80, f) | .cvset f => some (0x81, f) | .mwait f => some (0x82, f) | .accwin f => some (0x83, f)
  | .ald f => some (0x84, f) | .ast f => some (0x85, f) | .aclr f => some (0x86, f) | .tkget f => some (0x87, f)
  | .tkput f => some (0x88, f)
  | .sread f => some (0x90, f) | .swrite f => some (0x91, f)
  | _ => none

/-- The constructor of an opcode; none where the opcode is reserved. -/
def ectorOf (o : BitVec 8) : Option (EFields → Instr) :=
  match o.toNat with
  | 0x00 => some .nop | 0x01 => some .bra | 0x02 => some .brx | 0x03 => some .call
  | 0x04 => some .callx | 0x05 => some .ret | 0x06 => some .meet | 0x07 => some .meetx
  | 0x08 => some .exit | 0x09 => some .bar | 0x0A => some .trap | 0x0B => some .brk
  | 0x0C => some .spawn | 0x0D => some .gate | 0x0E => some .release | 0x0F => some .svc
  | 0x20 => some .iadd | 0x21 => some .isub | 0x22 => some .iadd3 | 0x23 => some .imul
  | 0x24 => some .imulh | 0x25 => some .imad | 0x26 => some .imadw | 0x27 => some .imin
  | 0x28 => some .imax | 0x29 => some .iaddmin | 0x2A => some .iabs | 0x2B => some .idp4
  | 0x2C => some .iset | 0x2D => some .sel | 0x2E => some .mov | 0x2F => some .movi
  | 0x30 => some .lea | 0x31 => some .and | 0x32 => some .or | 0x33 => some .xor
  | 0x34 => some .lop3 | 0x35 => some .shl | 0x36 => some .shr | 0x37 => some .sar
  | 0x38 => some .fsh | 0x39 => some .bfx | 0x3A => some .bfi | 0x3B => some .popc
  | 0x3C => some .clz | 0x3D => some .brev | 0x3E => some .perm
  | 0x40 => some .plop | 0x41 => some .p2v | 0x42 => some .v2p | 0x43 => some .elect
  | 0x48 => some .fadd | 0x49 => some .fmul | 0x4A => some .ffma | 0x4B => some .fmin
  | 0x4C => some .fmax | 0x4D => some .fset | 0x4E => some .fcls | 0x4F => some .frnd
  | 0x50 => some .frcp | 0x51 => some .fsqrt | 0x52 => some .frsq | 0x53 => some .fex2
  | 0x54 => some .flg2 | 0x55 => some .fscl | 0x56 => some .fdp2 | 0x57 => some .cvt
  | 0x60 => some .shfl | 0x61 => some .vote | 0x62 => some .wred | 0x63 => some .qxch
  | 0x64 => some .qbc
  | 0x68 => some .ld | 0x69 => some .ldc | 0x6A => some .st | 0x6B => some .lds
  | 0x6C => some .sts | 0x6D => some .feset | 0x6E => some .atom | 0x6F => some .atoms
  | 0x70 => some .fence | 0x71 => some .cctl | 0x72 => some .pfetch | 0x73 => some .lease
  | 0x74 => some .acp | 0x75 => some .acwait | 0x76 => some .tcopy
  | 0x80 => some .mma | 0x81 => some .cvset | 0x82 => some .mwait | 0x83 => some .accwin
  | 0x84 => some .ald | 0x85 => some .ast | 0x86 => some .aclr | 0x87 => some .tkget
  | 0x88 => some .tkput
  | 0x90 => some .sread | 0x91 => some .swrite
  | _ => none

/-! ### Fitas words (20 R370-R381) -/

/-- The second operand: with I = 0 the immediate is zero, with I = 1 KC is zero (20 R372). -/
def xOperandOk (f : XFields) : Bool := if f.i then f.kc == 0 else f.imm == 0

/-- The opcode, fields and legality of a Fitas word. -/
def xform : Instr → Option (BitVec 6 × XFields × Bool)
  | .xEnd => some (0x00, ⟨0, 0, 0, false, 0⟩, true)
  | .xFail => some (0x01, ⟨0, 0, 0, false, 0⟩, true)
  | .xMovi a i => some (0x02, ⟨a, 0, 0, true, i⟩, true)
  | .xMovh a i => some (0x03, ⟨a, 0, 0, true, i⟩, true)
  | .xAdd f => some (0x04, f, xOperandOk f) | .xSub f => some (0x05, f, xOperandOk f)
  | .xAnd f => some (0x06, f, xOperandOk f) | .xOr f => some (0x07, f, xOperandOk f)
  | .xXor f => some (0x08, f, xOperandOk f) | .xShl f => some (0x09, f, xOperandOk f)
  | .xShr f => some (0x0A, f, xOperandOk f) | .xSar f => some (0x0B, f, xOperandOk f)
  | .xZze a b => some (0x0C, ⟨a, b, 0, false, 0⟩, true)
  | .xGetb f => some (0x0D, f, xOperandOk f && f.kb == 0) | .xPutb f => some (0x0E, f, xOperandOk f && f.kb == 0)
  | .xLdt f => some (0x0F, f, xOperandOk f) | .xLdw f => some (0x10, f, xOperandOk f)
  | .xStw f => some (0x11, f, xOperandOk f) | .xLdp f => some (0x12, f, xOperandOk f)
  | .xCopy f => some (0x13, f, xOperandOk f && f.kb == 0)
  | .xBeq a b o => some (0x14, ⟨a, b, 0, false, o⟩, true)
  | .xBne a b o => some (0x15, ⟨a, b, 0, false, o⟩, true)
  | .xBlt a b o => some (0x16, ⟨a, b, 0, false, o⟩, true)
  | .xJ o => some (0x17, ⟨0, 0, 0, false, o⟩, true)
  | .xInfo f => some (0x18, f, xOperandOk f && f.kb == 0)
  | .xZzd a b => some (0x19, ⟨a, b, 0, false, 0⟩, true)
  | _ => none

/-- The encoding of an instruction breaks no rule; anything without an encoding has none to break. -/
def legal (i : Instr) : Bool :=
  match eform i with
  | some (_, f) => shapeOk f (shapeOf i)
  | none => match xform i with
    | some (_, _, ok) => ok
    | none => true

end Sys2Proof.Machine
end

