-- ==== Sys2Proof/WellFormed.lean ====
section
/-!
DEFINITION. Which instructions have an encoding the spec allows.
-/

namespace Sys2Proof

/-- A base form (04 R96, R97): its operand fields admit every value. -/
def Instr.isBase : Instr → Bool
  | .nopBase | .movBase .. | .iaddBase .. | .shlBase .. | .shrBase .. | .andBase .. | .moviBase .. | .braBase ..
  | .ldsBase .. | .stsBase .. | .exitBase | .barBase .. | .moviBaseLiteral .. | .iaddBaseLiteral ..
  | .andBaseLiteral .. | .ldsBaseLiteral .. | .stsBaseLiteral .. => true
  | _ => false

/-- An instruction of a Torile thread. -/
def Instr.isTorile (i : Instr) : Bool := i.isBase || (Machine.eform i).isSome

/-- A Fitas instruction. -/
def Instr.isFitas (i : Instr) : Bool := (Machine.xform i).isSome

/-- An instruction with words, none of whose fields the spec forbids (04 R98-R108, 20 R370). -/
def WellFormed (i : Instr) : Prop := (i.isTorile || i.isFitas) = true ∧ Machine.legal i = true

end Sys2Proof
end

