-- ==== Sys2Proof/Decode.lean ====
section
/-!
DEFINITION. Decoding: bytes to an instruction or a named refusal (04 R95-R108; 11 R208, 20 R370), and the encoder.
-/

namespace Sys2Proof

open Machine

/-! ### Words and bytes (00 R4) -/

def wordOf (b0 b1 b2 b3 : Byte) : Word := b3 ++ b2 ++ b1 ++ b0

def wordBytes (w : Word) : List Byte :=
  [w.extractLsb' 0 8, w.extractLsb' 8 8, w.extractLsb' 16 8, w.extractLsb' 24 8]

/-- The first word of a list of bytes and the rest. -/
def takeWord : List Byte → Option (Word × List Byte)
  | b0 :: b1 :: b2 :: b3 :: r => some (wordOf b0 b1 b2 b3, r)
  | _ => none

/-- The length in bytes that LEN of a first word fixes (04 Table 04.5). -/
def lenOf (w0 : Word) : Nat :=
  match (w0.extractLsb' 0 2).toNat with
  | 0 => 4
  | 1 => 12
  | 2 => 12
  | _ => 20

/-- Why bytes are no instruction. All but the first are fault 0x01 (04 R108). -/
inductive DecodeError where
  /-- Fewer bytes than LEN asks for. -/
  | truncated
  /-- A reserved OPC or OPC6. -/
  | reservedOpcode
  /-- A bit required to be zero is not, or a base form that takes no literal has one. -/
  | reservedBits
  /-- A field holds a value that the instruction does not define. -/
  | illegalField
  deriving DecidableEq, Repr

inductive Decoded where
  | ok (i : Instr) (rest : List Byte)
  | bad (e : DecodeError)
  deriving DecidableEq, Repr

/-! ### Base forms -/

def baseA (w : Word) : BitVec 9 := w.extractLsb' 17 9
def baseD (w : Word) : BitVec 9 := w.extractLsb' 8 9
def baseI (w : Word) : BitVec 6 := w.extractLsb' 26 6

/-- A base word without a literal (04 Table 04.6). -/
def decodeBase (w : Word) : Except DecodeError Instr :=
  match (w.extractLsb' 2 6).toNat with
  | 0x00 => if w = 0 then .ok .nopBase else .error .reservedBits
  | 0x01 => if baseI w = 0 then .ok (.movBase (baseA w) (baseD w)) else .error .reservedBits
  | 0x02 => .ok (.iaddBase (baseI w) (baseA w) (baseD w))
  | 0x03 => if w.getLsbD 31 then .error .reservedBits else .ok (.shlBase (w.extractLsb' 26 5) (baseA w) (baseD w))
  | 0x04 => if w.getLsbD 31 then .error .reservedBits else .ok (.shrBase (w.extractLsb' 26 5) (baseA w) (baseD w))
  | 0x05 => .ok (.andBase (baseI w) (baseA w) (baseD w))
  | 0x06 => .ok (.moviBase (w.extractLsb' 17 15) (baseD w))
  | 0x07 => .ok (.braBase (w.extractLsb' 8 24))
  | 0x08 => .ok (.ldsBase (baseI w) (baseA w) (baseD w))
  | 0x09 => .ok (.stsBase (baseI w) (baseA w) (baseD w))
  | 0x0A => if w.extractLsb' 8 24 = 0 then .ok .exitBase else .error .reservedBits
  | 0x0B => if w.extractLsb' 12 20 = 0 then .ok (.barBase (w.extractLsb' 8 4)) else .error .reservedBits
  | _ => .error .reservedOpcode

/-- A base word with a literal, low word first (04 R97). -/
def decodeBaseLiteral (w l h : Word) : Except DecodeError Instr :=
  let sign : Word := if l.getLsbD 31 then 0xFFFFFFFF#32 else 0#32
  match (w.extractLsb' 2 6).toNat with
  | 0x06 => if w.extractLsb' 17 15 = 0 ∧ h = 0 then .ok (.moviBaseLiteral (baseD w) l) else .error .reservedBits
  | 0x02 => if baseI w = 0 ∧ h = 0 then .ok (.iaddBaseLiteral (baseA w) (baseD w) l) else .error .reservedBits
  | 0x05 => if baseI w = 0 ∧ h = 0 then .ok (.andBaseLiteral (baseA w) (baseD w) l) else .error .reservedBits
  | 0x08 => if baseI w = 0 ∧ h = sign then .ok (.ldsBaseLiteral (baseA w) (baseD w) l) else .error .reservedBits
  | 0x09 => if baseI w = 0 ∧ h = sign then .ok (.stsBaseLiteral (baseA w) (baseD w) l) else .error .reservedBits
  | _ => .error .reservedOpcode

/-! ### The extended form (04 R98) -/

def decodeFields (w0 w1 w2 : Word) (lit : Option (BitVec 64)) : EFields :=
  { ch := w0.extractLsb' 30 2, rm := w0.extractLsb' 27 3, ftzo := w0.getLsbD 26, ftzi := w0.getLsbD 25,
    rd := w0.extractLsb' 16 9, mod := w0.extractLsb' 10 6,
    fe := w1.extractLsb' 27 4, rc := w1.extractLsb' 18 9, rb := w1.extractLsb' 9 9, ra := w1.extractLsb' 0 9,
    scp := w2.extractLsb' 27 3, yld := w2.getLsbD 26, stall := w2.extractLsb' 23 3, ret := w2.extractLsb' 20 3,
    gop := w2.getLsbD 19, g2 := w2.extractLsb' 14 5, g1 := w2.extractLsb' 9 5, re := w2.extractLsb' 0 9, lit := lit }

def decodeE (w0 w1 w2 : Word) (lit : Option (BitVec 64)) : Except DecodeError Instr :=
  match ectorOf (w0.extractLsb' 2 8) with
  | none => .error .reservedOpcode
  | some c =>
    if w1.getLsbD 31 ∨ w2.extractLsb' 30 2 ≠ 0 then .error .reservedBits
    else
      let i := c (decodeFields w0 w1 w2 lit)
      if legal i then .ok i else .error .illegalField

/-! ### Torile -/

def Decoded.ofExcept (r : List Byte) : Except DecodeError Instr → Decoded
  | .ok i => .ok i r
  | .error e => .bad e

/-- The instruction at the head of a list of bytes (04 R95). -/
def decode (bs : List Byte) : Decoded :=
  match takeWord bs with
  | none => .bad .truncated
  | some (w0, r0) =>
    match (w0.extractLsb' 0 2).toNat with
    | 0 => .ofExcept r0 (decodeBase w0)
    | 1 => match takeWord r0 with
      | none => .bad .truncated
      | some (w1, r1) => match takeWord r1 with
        | none => .bad .truncated
        | some (w2, r2) => .ofExcept r2 (decodeE w0 w1 w2 none)
    | 2 => match takeWord r0 with
      | none => .bad .truncated
      | some (l, r1) => match takeWord r1 with
        | none => .bad .truncated
        | some (h, r2) => .ofExcept r2 (decodeBaseLiteral w0 l h)
    | _ => match takeWord r0 with
      | none => .bad .truncated
      | some (w1, r1) => match takeWord r1 with
        | none => .bad .truncated
        | some (w2, r2) => match takeWord r2 with
          | none => .bad .truncated
          | some (l, r3) => match takeWord r3 with
            | none => .bad .truncated
            | some (h, r4) => .ofExcept r4 (decodeE w0 w1 w2 (some (h ++ l)))

/-! ### Fitas (11 R208, 20 R370) -/

def xFieldsOf (w : Word) : XFields :=
  { ka := w.extractLsb' 23 3, kb := w.extractLsb' 20 3, kc := w.extractLsb' 17 3, i := w.getLsbD 16,
    imm := w.extractLsb' 0 16 }

/-- The constructor of an OP; none where OP is reserved. -/
def xctorOf (o : BitVec 6) (f : XFields) : Option Instr :=
  match o.toNat with
  | 0x00 => some .xEnd | 0x01 => some .xFail | 0x02 => some (.xMovi f.ka f.imm) | 0x03 => some (.xMovh f.ka f.imm)
  | 0x04 => some (.xAdd f) | 0x05 => some (.xSub f) | 0x06 => some (.xAnd f) | 0x07 => some (.xOr f)
  | 0x08 => some (.xXor f) | 0x09 => some (.xShl f) | 0x0A => some (.xShr f) | 0x0B => some (.xSar f)
  | 0x0C => some (.xZze f.ka f.kb) | 0x0D => some (.xGetb f) | 0x0E => some (.xPutb f) | 0x0F => some (.xLdt f)
  | 0x10 => some (.xLdw f) | 0x11 => some (.xStw f) | 0x12 => some (.xLdp f) | 0x13 => some (.xCopy f)
  | 0x14 => some (.xBeq f.ka f.kb f.imm) | 0x15 => some (.xBne f.ka f.kb f.imm) | 0x16 => some (.xBlt f.ka f.kb f.imm)
  | 0x17 => some (.xJ f.imm) | 0x18 => some (.xInfo f) | 0x19 => some (.xZzd f.ka f.kb)
  | _ => none

/-- A Fitas word; none is a reserved OP or a field that breaks its entry, which ends a run as malformed (11 R208,
20 R370). -/
def decodeX (w : Word) : Option Instr :=
  match xctorOf (w.extractLsb' 26 6) (xFieldsOf w) with
  | none => none
  | some i => match xform i with
    | some (_, f, true) => if f = xFieldsOf w then some i else none
    | _ => none

/-! ### Encoding -/

def baseWord (opc : BitVec 6) (i : BitVec 6) (a d : BitVec 9) : Word := i ++ a ++ d ++ opc ++ 0#2
def baseWordL (opc : BitVec 6) (a d : BitVec 9) : Word := 0#6 ++ a ++ d ++ opc ++ 2#2

def bitOfBool (b : Bool) : BitVec 1 := if b then 1#1 else 0#1

def encodeE (o : BitVec 8) (f : EFields) : List Byte :=
  let len : BitVec 2 := if f.lit.isSome then 3 else 1
  let w0 : Word := f.ch ++ f.rm ++ bitOfBool f.ftzo ++ bitOfBool f.ftzi ++ f.rd ++ f.mod ++ o ++ len
  let w1 : Word := 0#1 ++ f.fe ++ f.rc ++ f.rb ++ f.ra
  let w2 : Word := 0#2 ++ f.scp ++ bitOfBool f.yld ++ f.stall ++ f.ret ++ bitOfBool f.gop ++ f.g2 ++ f.g1 ++ f.re
  wordBytes w0 ++ wordBytes w1 ++ wordBytes w2 ++
    match f.lit with
    | none => []
    | some l => wordBytes (l.extractLsb' 0 32) ++ wordBytes (l.extractLsb' 32 32)

def encodeX (o : BitVec 6) (f : XFields) : Word := o ++ f.ka ++ f.kb ++ f.kc ++ bitOfBool f.i ++ f.imm

/-- 32 copies of the sign of an offset (04 R97). -/
def signWord (l : Word) : Word := if l.getLsbD 31 then 0xFFFFFFFF#32 else 0#32

/-- The bytes of an instruction; empty for the rows without an encoding. -/
def encode (i : Instr) : List Byte :=
  match i with
  | .nopBase => wordBytes 0
  | .movBase a d => wordBytes (baseWord 1 0 a d)
  | .iaddBase k a d => wordBytes (baseWord 2 k a d)
  | .shlBase n a d => wordBytes (baseWord 3 (0#1 ++ n) a d)
  | .shrBase n a d => wordBytes (baseWord 4 (0#1 ++ n) a d)
  | .andBase k a d => wordBytes (baseWord 5 k a d)
  | .moviBase k d => wordBytes (k ++ d ++ 6#6 ++ 0#2)
  | .braBase o => wordBytes (o ++ 7#6 ++ 0#2)
  | .ldsBase k a d => wordBytes (baseWord 8 k a d)
  | .stsBase k a d => wordBytes (baseWord 9 k a d)
  | .exitBase => wordBytes (0#24 ++ 10#6 ++ 0#2)
  | .barBase id => wordBytes (0#20 ++ id ++ 11#6 ++ 0#2)
  | .moviBaseLiteral d l => wordBytes (0#15 ++ d ++ 6#6 ++ 2#2) ++ wordBytes l ++ wordBytes 0
  | .iaddBaseLiteral a d l => wordBytes (baseWordL 2 a d) ++ wordBytes l ++ wordBytes 0
  | .andBaseLiteral a d l => wordBytes (baseWordL 5 a d) ++ wordBytes l ++ wordBytes 0
  | .ldsBaseLiteral a d l => wordBytes (baseWordL 8 a d) ++ wordBytes l ++ wordBytes (signWord l)
  | .stsBaseLiteral a d l => wordBytes (baseWordL 9 a d) ++ wordBytes l ++ wordBytes (signWord l)
  | i => match eform i with
    | some (o, f) => encodeE o f
    | none => match xform i with
      | some (o, f, _) => wordBytes (encodeX o f)
      | none => []

/-! ### The opcode table's numbering -/

/-- The bytes of an instruction whose bits the opcode table numbers as `w`, with zeros up to the longest, 20 bytes. -/
def tableBytes (nbits w : Nat) : List Byte := leBytes 20 (w % 2 ^ nbits)

/-- The Torile instruction of the bytes or, where Torile refuses them, the Fitas instruction of the first word: the
table numbers both kinds of words alike (log 21). -/
def decodeTableWord (nbits w : Nat) : Option Instr :=
  match decode (tableBytes nbits w) with
  | .ok i _ => some i
  | .bad _ => decodeX (BitVec.ofNat 32 (w % 2 ^ nbits))

end Sys2Proof
end

