-- ==== Sys2Proof/Config.lean ====
section
/-!
DEFINITION. What the implementation fixes and the spec leaves open: free values without a body (log 7, 20).
-/

namespace Sys2Proof.Config

/-- The SLH-DSA-SHAKE-256s signature of a report under the module's identity key, which never leaves the module
(17 R274). -/
opaque sign : List Byte → List Byte

/-- The identity certificate of the module (17 R274 gives it no layout), by a number that is never used twice. -/
opaque identityCert : Nat → List Byte

/-- The bytes of the supervisor's configuration that the SE measures (17 R274 gives them no layout), by a number that is
never used twice. -/
opaque supervisorConfig : Nat → List Byte

/-- What the rails read (17 R276), by a number that is never used twice. -/
opaque railReadings : Nat → List Int

/-- The exponent field that EXP12 decodes where the offset exceeds the group's maximum exponent (11 R221 states none):
the maximum, the offset. -/
opaque exp12Below : Nat → Nat → BitVec 8

/-- The bytes of a section of a save record whose layout the spec does not state (13 Table 13.5: Matrix, Copies), by a
number that is never used twice. -/
opaque saveSection : Nat → List Byte

/-- A value of the implementation for which the spec gives no rule, by a number that is never used twice. -/
opaque freeWord : Nat → Word

/-- Kind and payload of a message that the module's hardware posts to a firmware core (17 Table 17.1 leaves them to the
receiving core), by the SOURCE and SEQ of the event. -/
opaque postKind : Nat → Nat → BitVec 16
opaque postPayload : Nat → Nat → BitVec 64

/-- The set of an L1 that a line belongs to (01 Table 01.3: 128 sets), by its context and its address. -/
opaque l1Set : Nat → Nat → BitVec 7

/-- How many cycles after its issue in a cycle a PC group is held back by the interlock of fixed latencies (04 R86, which
states none) and by STALL (04 R100): block, physical wave, cycle of the issue. -/
opaque issueGap : Nat → Nat → Nat → BitVec 8

end Sys2Proof.Config
end

