-- ==== Sys2Proof/Machine/Flags.lean ====
section
/-!
DEFINITION. Floating-point formats, exact values, the one rounding, the flags it sets, and DS8 (05 R114-R130, R134).
-/

namespace Sys2Proof.Machine

/-! ### Flags (04 Table 04.4), as a 5-bit mask -/

def fNV : Nat := 16
def fDZ : Nat := 8
def fOF : Nat := 4
def fUF : Nat := 2
def fNX : Nat := 1

/-- Merging by OR (05 R121). -/
def mergeFlags (a b : BitVec 5) : BitVec 5 := a ||| b

/-! ### Rounding modes, by their code (04 Table 04.3) -/

def rmRNE : Nat := 1
def rmRTZ : Nat := 2
def rmRDN : Nat := 3
def rmRUP : Nat := 4
def rmRNA : Nat := 5

/-- RM = 000 takes the mode of the thread (05 R117). -/
def rmOf (field mode : BitVec 3) : Nat := if field = 0 then mode.toNat else field.toNat

/-! ### Formats -/

/-- Exponent bits and fraction bits (05 Table 05.1). -/
structure Fmt where
  eb : Nat
  fb : Nat
  deriving DecidableEq, Repr

def f32 : Fmt := ⟨8, 23⟩
def f16 : Fmt := ⟨5, 10⟩
def bf16 : Fmt := ⟨8, 7⟩

def Fmt.width (f : Fmt) : Nat := 1 + f.eb + f.fb
def Fmt.bias (f : Fmt) : Nat := 2 ^ (f.eb - 1) - 1
/-- The exponent of the smallest normal. -/
def Fmt.emin (f : Fmt) : Int := 1 - (f.bias : Int)
/-- The magnitude bits of infinity. -/
def Fmt.infBits (f : Fmt) : Nat := (2 ^ f.eb - 1) <<< f.fb
/-- The canonical NaN (05 R116). -/
def Fmt.nanBits (f : Fmt) : Nat := f.infBits + 2 ^ (f.fb - 1)
def Fmt.sign (f : Fmt) (neg : Bool) : Nat := if neg then 2 ^ (f.eb + f.fb) else 0

/-- The value of an element: a NaN, an infinity, or (-1)^neg · m · 2^e. -/
inductive FV where
  | nan (signaling : Bool)
  | inf (neg : Bool)
  | fin (neg : Bool) (m : Nat) (e : Int)
  deriving DecidableEq, Repr

def unpackF (f : Fmt) (x : Nat) : FV :=
  let frac := x % 2 ^ f.fb
  let ex := (x >>> f.fb) % 2 ^ f.eb
  let neg := x.testBit (f.eb + f.fb)
  if ex = 2 ^ f.eb - 1 then (if frac = 0 then .inf neg else .nan (!frac.testBit (f.fb - 1)))
  else if ex = 0 then .fin neg frac (f.emin - f.fb)
  else .fin neg (frac + 2 ^ f.fb) ((ex : Int) - 1 + f.emin - f.fb)

/-- A nonzero subnormal pattern. -/
def isSubnormal (f : Fmt) (x : Nat) : Bool := (x >>> f.fb) % 2 ^ f.eb = 0 && x % 2 ^ f.fb ≠ 0

/-- FTZI (05 R120): a subnormal input becomes a zero of its sign. -/
def flushIn (f : Fmt) (ftzi : Bool) (x : Nat) : Nat :=
  if ftzi && isSubnormal f x then f.sign (x.testBit (f.eb + f.fb)) else x % 2 ^ f.width

def FV.isNan : FV → Bool
  | .nan _ => true
  | _ => false
def FV.isInf : FV → Bool
  | .inf _ => true
  | _ => false
def FV.isZero : FV → Bool
  | .fin _ 0 _ => true
  | _ => false
def FV.neg? : FV → Bool
  | .nan _ => false
  | .inf n => n
  | .fin n _ _ => n
def FV.signaling : FV → Bool
  | .nan s => s
  | _ => false
def FV.negate : FV → FV
  | .nan s => .nan s
  | .inf n => .inf !n
  | .fin n m e => .fin (!n) m e
def FV.abs : FV → FV
  | .nan s => .nan s
  | .inf _ => .inf false
  | .fin _ m e => .fin false m e

/-- NV when an operand is a signaling NaN (05 R116). -/
def sigFlags (l : List FV) : Nat := if l.any FV.signaling then fNV else 0

/-! ### Rounding (05 R118, R120) -/

/-- Whether the magnitude t + r/2^sh of a sign is rounded up to t + 1. -/
def roundUp (rm : Nat) (neg : Bool) (t r sh : Nat) : Bool :=
  if r = 0 then false
  else if rm = rmRNE then 2 ^ sh < 2 * r || (2 ^ sh = 2 * r && t % 2 = 1)
  else if rm = rmRNA then 2 ^ sh ≤ 2 * r
  else if rm = rmRDN then neg
  else if rm = rmRUP then !neg
  else false

/-- `round_fmt` of the nonzero (-1)^neg · m · 2^e, then FTZO: the bits and the flags. A value that rounds to zero keeps its
sign (DESIGN CHOICE, log 104: `round_fmt` works on reals, and 05 R119 is of exact zeros). -/
def roundF (f : Fmt) (rm : Nat) (ftzo : Bool) (neg : Bool) (m : Nat) (e : Int) : Nat × Nat :=
  let lg : Int := (Nat.log2 m : Int) + e
  let ee := max lg f.emin
  let qe := ee - f.fb
  let sh := (qe - e).toNat
  let t := if qe ≤ e then m <<< (e - qe).toNat else m >>> sh
  let r := if qe ≤ e then 0 else m % 2 ^ sh
  let t' := if roundUp rm neg t r sh then t + 1 else t
  let enc := ((ee - f.emin).toNat <<< f.fb) + t'
  if f.infBits ≤ enc then
    let up := rm = rmRNE ∨ rm = rmRNA ∨ (rm = rmRUP ∧ !neg) ∨ (rm = rmRDN ∧ neg)
    (f.sign neg + (if up then f.infBits else f.infBits - 1), fOF ||| fNX)
  else
    let flags := (if r ≠ 0 then fNX else 0) ||| (if r ≠ 0 ∧ lg < f.emin then fUF else 0)
    if ftzo && enc < 2 ^ f.fb && enc ≠ 0 then (f.sign neg, flags ||| fUF ||| fNX)
    else (f.sign neg + enc, flags)

/-- The result of an operation whose exact value is `v`. -/
def finishF (f : Fmt) (rm : Nat) (ftzo : Bool) (v : FV) : Nat × Nat :=
  match v with
  | .nan _ => (f.nanBits, 0)
  | .inf n => (f.sign n + f.infBits, 0)
  | .fin n 0 _ => (f.sign n, 0)
  | .fin n m e => roundF f rm ftzo n m e

def orFlags (fl : Nat) (r : Nat × Nat) : Nat × Nat := (r.1, r.2 ||| fl)

/-! ### Exact products and sums (05 R119, R123) -/

/-- A product, and NV for 0 × ∞. -/
def mulFV (a b : FV) : FV × Nat :=
  match a, b with
  | .nan _, _ => (.nan false, 0)
  | _, .nan _ => (.nan false, 0)
  | .inf n, y => if y.isZero then (.nan false, fNV) else (.inf (xor n y.neg?), 0)
  | x, .inf n => if x.isZero then (.nan false, fNV) else (.inf (xor x.neg? n), 0)
  | .fin n m e, .fin n' m' e' => (.fin (xor n n') (m * m') (e + e'), 0)

def signedM (n : Bool) (m : Nat) : Int := if n then -(m : Int) else m

/-- The least exponent of the nonzero finite terms. -/
def minExp : List FV → Int → Int
  | [], a => a
  | .fin _ 0 _ :: r, a => minExp r a
  | .fin _ _ e :: r, a => minExp r (min e a)
  | _ :: r, a => minExp r a

/-- The exact sum of the finite terms in units of 2^e0. -/
def sumAt (e0 : Int) : List FV → Int
  | [] => 0
  | .fin n m e :: r => signedM n (m <<< (e - e0).toNat) + sumAt e0 r
  | _ :: r => sumAt e0 r

/-- The exact sum of terms, with the sign of a zero sum (05 R119) and NV for ∞ − ∞. -/
def sumFV (rm : Nat) (ts : List FV) : FV × Nat :=
  let pos := ts.any fun t => t.isInf && !t.neg?
  let neg := ts.any fun t => t.isInf && t.neg?
  if pos && neg then (.nan false, fNV)
  else if ts.any FV.isNan then (.nan false, 0)
  else if pos then (.inf false, 0)
  else if neg then (.inf true, 0)
  else
    let e0 := minExp ts 1024
    let s := sumAt e0 ts
    if s = 0 then
      let n := if ts.all FV.isZero then ts.all FV.neg? else decide (rm = rmRDN)
      (.fin n 0 0, 0)
    else (.fin (decide (s < 0)) s.natAbs e0, 0)

/-- A sum of products of two factors and of single terms, rounded once: the flags are those of the signaling operands, of
invalid products and sums, and of the rounding. -/
def sumOfProducts (f : Fmt) (rm : Nat) (ftzo : Bool) (ps : List (FV × FV)) (ts : List FV) : Nat × Nat :=
  let prods := ps.map fun p => mulFV p.1 p.2
  let fl := prods.foldl (fun a p => a ||| p.2) (sigFlags (ps.map Prod.fst ++ ps.map Prod.snd ++ ts))
  let s := sumFV rm (prods.map Prod.fst ++ ts)
  orFlags (fl ||| s.2) (finishF f rm ftzo s.1)

/-! ### Compare, minimum, class (05 R123, R124; 18 R305) -/

/-- a < b of two values that are no NaN. -/
def ltFV (a b : FV) : Bool :=
  match a, b with
  | .inf n, y => n && !(y.isInf && y.neg?)
  | x, .inf n => !n && !(x.isInf && !x.neg?)
  | .fin n m e, .fin n' m' e' =>
    let e0 := min e e'
    decide (signedM n (m <<< (e - e0).toNat) < signedM n' (m' <<< (e' - e0).toNat))
  | _, _ => false

def eqFV (a b : FV) : Bool := !a.isNan && !b.isNan && !ltFV a b && !ltFV b a

/-- minimumNumber or maximumNumber, with −0 < +0. -/
def minMaxFV (mx : Bool) (a b : FV) : FV :=
  if a.isNan then (if b.isNan then .nan false else b)
  else if b.isNan then a
  else
    let less := if a.isZero && b.isZero then a.neg? && !b.neg? else ltFV a b
    if xor less mx then a else b

/-- The class bit of a pattern. -/
def classOf (f : Fmt) (x : Nat) : Nat :=
  match unpackF f x with
  | .inf n => if n then 0 else 7
  | .nan s => if s then 8 else 9
  | .fin n 0 _ => if n then 3 else 4
  | .fin n _ _ => if isSubnormal f x then (if n then 2 else 5) else (if n then 1 else 6)

/-! ### Rounding to an integral value (05 R127, 18 R313) -/

/-- The magnitude of m · 2^e rounded to an integer, and whether it is exact. -/
def roundInt (rm : Nat) (neg : Bool) (m : Nat) (e : Int) : Nat × Bool :=
  if 0 ≤ e then (m <<< e.toNat, true)
  else
    let sh := (-e).toNat
    let t := m >>> sh
    let r := m % 2 ^ sh
    (if roundUp rm neg t r sh then t + 1 else t, r == 0)

def frndFV (f : Fmt) (rm : Nat) (ftzo : Bool) (a : FV) : Nat × Nat :=
  match a with
  | .fin n 0 _ => (f.sign n, 0)
  | .fin n m e =>
    let r := roundInt rm n m e
    if r.1 = 0 then (f.sign n, if r.2 then 0 else fNX)
    else orFlags (if r.2 then 0 else fNX) (roundF f rm ftzo n r.1 0)
  | v => orFlags (sigFlags [a]) (finishF f rm ftzo v)

/-- A float to an integer of n bits (05 R127). -/
def toInteger (n : Nat) (signed : Bool) (rm : Nat) (a : FV) : Nat × Nat :=
  let hi : Int := if signed then 2 ^ (n - 1) - 1 else 2 ^ n - 1
  let lo : Int := if signed then -(2 ^ (n - 1)) else 0
  match a with
  | .nan _ => (0, fNV)
  | .inf neg => (wrapN (if neg then lo else hi) n, fNV)
  | .fin neg m e =>
    let r := roundInt rm neg m e
    let v := signedM neg r.1
    if v > hi then (wrapN hi n, fNV) else if v < lo then (wrapN lo n, fNV)
    else (wrapN v n, if r.2 then 0 else fNX)

/-! ### DS8 (05 R128-R130) -/

/-- The two terms of a DS8 byte, in units of 2^-7; the second is none when b = 7. -/
def ds8Terms (w : Nat) : Int × Option Int :=
  let t1 := signedM (w.testBit 7) (2 ^ (7 - bitsOf w 6 4))
  (t1, if w % 8 = 7 then none else some (signedM (w.testBit 3) (2 ^ (7 - w % 8))))

def ds8Value (w : Nat) : Int := (ds8Terms w).1 + ((ds8Terms w).2.getD 0)

def ds8Byte (sa : Bool) (a : Nat) (sb : Bool) (b : Nat) : Nat :=
  (if sa then 128 else 0) + 16 * a + (if sb then 8 else 0) + b

/-- The canonical bytes with their magnitudes in units of 2^-7, in the order of the rules of 05 R130. -/
def ds8Canonical (neg : Bool) : List (Nat × Nat) :=
  [(0, 0x08), (256, if neg then 0x88 else 0x00)] ++
  (List.range 8).map (fun k => (2 ^ (7 - k), ds8Byte neg k false 7)) ++
  (List.range 8).flatMap (fun i => ((List.range 8).filter (i < ·)).map fun j =>
    (2 ^ (7 - i) + 2 ^ (7 - j), if j = 7 then ds8Byte neg 7 neg i else ds8Byte neg i neg j)) ++
  (List.range 8).flatMap (fun i => ((List.range 8).filter (i + 2 ≤ ·)).map fun j =>
    (2 ^ (7 - i) - 2 ^ (7 - j), if j = 7 then ds8Byte (!neg) 7 neg i else ds8Byte neg i (!neg) j))

/-- The canonical encoding of a magnitude. -/
def ds8Encode (neg : Bool) (m : Nat) : Nat :=
  match (ds8Canonical neg).find? (·.1 = m) with
  | some p => p.2
  | none => 0x08

/-- The DS8 magnitude nearest to m · 2^e, ties to the smaller. -/
def ds8Nearest (m : Nat) (e : Int) : Nat :=
  let e0 := min e (-7)
  let x := m <<< (e - e0).toNat
  let sc := (-7 - e0).toNat
  let mags := sortBy (fun a b => decide (a ≤ b)) ((ds8Canonical false).map Prod.fst)
  let dist := fun (n : Nat) => (((n <<< sc : Nat) : Int) - x).natAbs
  mags.foldl (fun best n => if dist n < dist best then n else best) 0

def toDs8 (a : FV) : Nat × Nat :=
  match a with
  | .nan _ => (0x08, fNV)
  | .inf n => (if n then 0x88 else 0x00, fOF ||| fNX)
  | .fin _ 0 _ => (0x08, 0)
  | .fin n m e =>
    let e0 := min e 0
    if 2 * 2 ^ (-e0).toNat < m <<< (e - e0).toNat then (if n then 0x88 else 0x00, fOF ||| fNX)
    else
      let k := ds8Nearest m e
      if k = 0 then (0x08, fUF ||| fNX)
      else
        let e1 := min e (-7)
        let exact := k <<< (-7 - e1).toNat = m <<< (e - e1).toNat
        (ds8Encode n k, if exact then 0 else fNX)

def ds8FV (w : Nat) : FV := let v := ds8Value w; .fin (decide (v < 0)) v.natAbs (-7)

/-! ### Special functions (05 R125): a value between two neighbours of a grid finer than any boundary of the rounding
is stood for by the point half way between them -/

/-- Newton's iteration from above. -/
def isqrtIter (n : Nat) : Nat → Nat → Nat
  | 0, x => x
  | k + 1, x => let y := (x + n / x) / 2; if y < x then isqrtIter n k y else x

/-- The floor of a square root. -/
def isqrt (n : Nat) : Nat := if n = 0 then 0 else isqrtIter n (n.log2 + 8) (2 ^ (n.log2 / 2 + 1))

/-- Rounds t · 2^e, or the middle of t and t + 1 when not exact. -/
def roundSticky (rm : Nat) (ftzo neg : Bool) (t : Nat) (exact : Bool) (e : Int) : Nat × Nat :=
  roundF f32 rm ftzo neg (2 * t + (if exact then 0 else 1)) (e - 1)

def frcpFV (rm : Nat) (ftzo : Bool) (a : FV) : Nat × Nat :=
  match a with
  | .nan s => (f32.nanBits, if s then fNV else 0)
  | .inf n => (f32.sign n, 0)
  | .fin n 0 _ => (f32.sign n + f32.infBits, fDZ)
  | .fin n m e =>
    let s := m.log2 + 40
    roundSticky rm ftzo n (2 ^ s / m) (2 ^ s % m == 0) (-(s : Int) - e)

def fsqrtFV (rm : Nat) (ftzo : Bool) (a : FV) : Nat × Nat :=
  match a with
  | .nan s => (f32.nanBits, if s then fNV else 0)
  | .inf n => if n then (f32.nanBits, fNV) else (f32.infBits, 0)
  | .fin n 0 _ => (f32.sign n, 0)
  | .fin true _ _ => (f32.nanBits, fNV)
  | .fin false m e =>
    let s : Nat := if e % 2 = 0 then 80 else 81
    let x := m <<< s
    let r := isqrt x
    roundSticky rm ftzo false r (r * r == x) ((e - s) / 2)

def frsqFV (rm : Nat) (ftzo : Bool) (a : FV) : Nat × Nat :=
  match a with
  | .nan s => (f32.nanBits, if s then fNV else 0)
  | .inf n => if n then (f32.nanBits, fNV) else (0, 0)
  | .fin n 0 _ => (f32.sign n + f32.infBits, fDZ)
  | .fin true _ _ => (f32.nanBits, fNV)
  | .fin false m e =>
    let s : Nat := if e % 2 = 0 then 120 else 121
    let r := isqrt (2 ^ s / m)
    roundSticky rm ftzo false r (r * r * m == 2 ^ s) (-((e + s) / 2))

/-- Fraction bits of the fixed-point evaluation of 2^f and log2. -/
def sfuP : Nat := 320

/-- The product of 2^(2^-i) over the set bits of a fraction, most significant first; `root` is 2^(2^-(i-1)). -/
def exp2Frac : Nat → Nat → Nat → Nat → Nat
  | 0, _, _, acc => acc
  | k + 1, frac, root, acc =>
    let root' := isqrt (root <<< sfuP)
    exp2Frac k frac root' (if frac.testBit k then (acc * root') >>> sfuP else acc)

def fex2FV (rm : Nat) (ftzo : Bool) (a : FV) : Nat × Nat :=
  match a with
  | .nan s => (f32.nanBits, if s then fNV else 0)
  | .inf n => (if n then 0 else f32.infBits, 0)
  | .fin _ 0 _ => (f32.bias <<< f32.fb, 0)
  | .fin n m e =>
    let big := (m.log2 : Int) + e ≥ 8
    if big then roundF f32 rm ftzo false 1 (if n then -300 else 300)
    else if 0 ≤ e then roundF f32 rm ftzo false 1 (signedM n (m <<< e.toNat))
    else
      let k := (-e).toNat
      let x := signedM n m
      let whole := x / (2 ^ k : Nat)
      let frac := (x % (2 ^ k : Nat)).toNat
      if frac = 0 then roundF f32 rm ftzo false 1 whole
      else roundSticky rm ftzo false (exp2Frac k frac (2 ^ (sfuP + 1)) (2 ^ sfuP) >>> (sfuP - 40)) false (whole - 40)

/-- The bits of log2 f, for f in [1, 2) with `sfuP` fraction bits, by squaring. -/
def log2Frac : Nat → Nat → Nat → Nat
  | 0, _, acc => acc
  | k + 1, x, acc =>
    let y := (x * x) >>> sfuP
    if 2 ^ (sfuP + 1) ≤ y then log2Frac k (y / 2) (2 * acc + 1) else log2Frac k y (2 * acc)

def flg2FV (rm : Nat) (ftzo : Bool) (a : FV) : Nat × Nat :=
  match a with
  | .nan s => (f32.nanBits, if s then fNV else 0)
  | .inf n => if n then (f32.nanBits, fNV) else (f32.infBits, 0)
  | .fin _ 0 _ => (f32.sign true + f32.infBits, fDZ)
  | .fin true _ _ => (f32.nanBits, fNV)
  | .fin false m e =>
    let lg := m.log2
    let whole : Int := (lg : Int) + e
    if m = 2 ^ lg then
      (if whole = 0 then (0, 0) else roundF f32 rm ftzo (decide (whole < 0)) whole.natAbs 0)
    else
      let l := log2Frac 100 (m <<< (sfuP - lg)) 0
      let v : Int := 2 * (whole * (2 ^ 100 : Nat) + l) + 1
      roundF f32 rm ftzo (decide (v < 0)) v.natAbs (-101)

/-! ### One element of a matrix instance (05 R134) -/

/-- The terms of B element `w` for factor A: one for BF16 and FP16, two for DS8, the second of them of value 0 when b = 7. -/
def mmaTerms (bt : Nat) (ftzi : Bool) (a : FV) (w : Nat) : List (FV × FV) :=
  if bt = 2 then
    let t := ds8Terms w
    let one := fun (x : Int) => (a, FV.fin (decide (x < 0)) x.natAbs (-7))
    [one t.1, one (t.2.getD 0)]
  else
    let f := if bt = 1 then f16 else bf16
    [(a, unpackF f (flushIn f ftzi w))]

/-- The FP32 pattern and the flags of one element: `c` is none under ZC. -/
def mmaSum (at_ : Bool) (bt rm : Nat) (ftzi ftzo : Bool) (c : Option Nat) (row col : List Nat) : Nat × Nat :=
  let fa := if at_ then f16 else bf16
  let ps := (row.zip col).flatMap fun p => mmaTerms bt ftzi (unpackF fa (flushIn fa ftzi p.1)) p.2
  let ts := match c with
    | none => []
    | some x => [unpackF f32 (flushIn f32 ftzi x)]
  sumOfProducts f32 rm ftzo ps ts

end Sys2Proof.Machine
end

