-- ==== Sys2Proof/Machine/Operands.lean ====
section
/-!
DEFINITION. Operand forms: registers, pairs and runs, the literal, guards, effective addresses (04 R83-R104).
-/

namespace Sys2Proof.Machine

open Sys2Proof

/-! ### Registers of one lane -/

def Reg.zero : Reg := ⟨0, .full, false⟩

/-- One register; `v0` reads as zero, FULL and untainted (04 R83, R90). -/
def Vals.get (v : Vals) (n : Nat) : Reg := if n = 0 then Reg.zero else v.regs.getD n Reg.zero

/-- The registers of a run in order; a run that begins at `v0` is all zeros (04 R84). -/
def Vals.run (v : Vals) (n count : Nat) : List Reg :=
  if n = 0 then List.replicate count Reg.zero else (List.range count).map fun i => v.get (n + i)

/-- The value of a run, low word first. -/
def runVal : List Reg → Nat
  | [] => 0
  | r :: l => r.val.toNat + 2 ^ 32 * runVal l

/-- ABANDONED if any register is, else EMPTY if any is (04 R87). -/
def runAv (l : List Reg) : Avail :=
  if l.any (·.av = .abandoned) then .abandoned else if l.any (·.av = .empty) then .empty else .full

def runTaint (l : List Reg) : Bool := l.any Reg.taint

/-- Replaces one register; `v0` ignores writes (04 R83). -/
def Vals.put (v : Vals) (n : Nat) (r : Reg) : Vals := if n = 0 then v else { v with regs := modAt (fun _ => r) n v.regs }

/-- Writes registers n, n + 1, … -/
def Vals.putRun (v : Vals) (n : Nat) : List Reg → Vals
  | [] => v
  | r :: l => (v.put n r).putRun (n + 1) l

/-- The words of a value, low word first. -/
def wordsOf : Nat → Nat → List Word
  | 0, _ => []
  | k + 1, x => BitVec.ofNat 32 x :: wordsOf k (x / 2 ^ 32)

/-- Writes a run as a whole, FULL; a run that begins at `v0` ignores the write (04 R84, R88). -/
def Vals.write (v : Vals) (n : Nat) (ws : List Word) (taint : Bool) : Vals :=
  if n = 0 then v else v.putRun n (ws.map fun w => ⟨w, .full, taint⟩)

/-- Changes the state of registers, keeping what they hold. -/
def Vals.setAv (v : Vals) (ns : List Nat) (a : Avail) : Vals :=
  ns.foldl (fun v n => v.put n { v.get n with av := a }) v

/-! ### Predicates -/

/-- `p0` reads as true (04 R85). -/
def Vals.pred (v : Vals) (i : Nat) : Bool := i = 0 || v.preds.getLsbD i

/-- A write to `p0` is ignored. -/
def Vals.setPred (v : Vals) (i : Nat) (b : Bool) : Vals :=
  if i = 0 then v else
    { v with preds := (v.preds &&& ~~~((1#16) <<< i)) ||| (if b then (1#16) <<< i else 0#16) }

/-- A predicate field with its negate bit (04 R98). -/
def Vals.predField (v : Vals) (g : Nat) : Bool := xor (v.pred (g % 16)) (g.testBit 4)

/-- The guard (04 R99). -/
def guardOf (f : EFields) (v : Vals) : Bool :=
  let a := v.predField f.g1.toNat
  let b := v.predField f.g2.toNat
  if f.gop then a || b else a && b

/-! ### Fields of an instruction -/

/-- The registers a field names; none where it names the literal or no register. -/
def fieldRegs (f : EFields) (sh : Shape) (p : Pos) : List Nat :=
  if namesLit f sh p then [] else (List.range (useAt sh p).count).map fun i => (fieldAt f p).toNat + i

/-- Every register field in use lies below k (04 R83, R84). -/
def rangeOk (f : EFields) (sh : Shape) (k : Nat) : Bool :=
  [Pos.rd, .ra, .rb, .rc, .re].all fun p =>
    namesLit f sh p || (useAt sh p).count = 0 || decide ((fieldAt f p).toNat + (useAt sh p).count ≤ k)

/-- The registers of a field of one lane. -/
def fieldRun (f : EFields) (sh : Shape) (v : Vals) (p : Pos) : List Reg :=
  if namesLit f sh p then [] else v.run (fieldAt f p).toNat (useAt sh p).count

/-- `reg(F)` and `reg64(F)` (18 R278). -/
def opd (f : EFields) (sh : Shape) (v : Vals) (p : Pos) : Nat :=
  if namesLit f sh p then
    (let l := (f.lit.getD 0).toNat
     if useAt sh p = .pair then l else l % 2 ^ 32)
  else runVal (fieldRun f sh v p)

/-- The sources in their order. -/
def opds (f : EFields) (sh : Shape) (v : Vals) : List Nat := sh.srcs.map (opd f sh v)

/-- Whether some register source is tainted (04 R90). -/
def srcTaint (f : EFields) (sh : Shape) (v : Vals) : Bool := sh.srcs.any fun p => runTaint (fieldRun f sh v p)

/-- What the availability of the sources asks: ABANDONED, or EMPTY with its FE bit, is fault 0x08 (04 R87). -/
def srcFault (f : EFields) (sh : Shape) (v : Vals) : Bool :=
  (List.range sh.srcs.length).any fun i =>
    let a := runAv (fieldRun f sh v (sh.srcs.getD i .ra))
    a = .abandoned || (a = .empty && f.fe.getLsbD i)

def srcWait (f : EFields) (sh : Shape) (v : Vals) : Bool :=
  sh.srcs.any fun p => runAv (fieldRun f sh v p) = .empty

/-- The destination registers; a run that begins at `v0` has none. -/
def dstRegs (f : EFields) (sh : Shape) : List Nat :=
  if sh.dst && f.rd != 0 then fieldRegs f sh .rd else []

/-- An EMPTY destination waits (04 R88). -/
def dstWait (f : EFields) (sh : Shape) (v : Vals) : Bool := (dstRegs f sh).any fun n => (v.get n).av = .empty

/-! ### Addresses (04 R104) -/

/-- The bytes of an access of the memory class. -/
def sizeOf (f : EFields) : Nat := 2 ^ fmtOf f

/-- The byte offset: the literal, or OFS9 in units. -/
def offsetOf (f : EFields) (unit : Nat) : Int :=
  match f.lit with
  | some l => sextN (l.toNat % 2 ^ 32) 32
  | none => sextN f.rc.toNat 9 * unit

/-- The index register, where the instruction has one. -/
def indexOf (f : EFields) (sh : Shape) (v : Vals) : Nat := if sh.rb = .reg then opd f sh v .rb else 0

def globalAddr (f : EFields) (sh : Shape) (unit : Nat) (v : Vals) : Nat :=
  wrapN ((opd f sh v .ra : Int) + indexOf f sh v + offsetOf f unit) 64

def scratchAddr (f : EFields) (sh : Shape) (unit : Nat) (v : Vals) : Nat :=
  wrapN ((opd f sh v .ra : Int) + indexOf f sh v + offsetOf f unit) 32

/-- Whether an address operand is tainted (04 R90). -/
def addrTaint (f : EFields) (sh : Shape) (v : Vals) : Bool :=
  runTaint (fieldRun f sh v .ra) || (sh.rb = .reg && runTaint (fieldRun f sh v .rb))

/-- The target of a label (18 R281): signed words from the next instruction. -/
def labelTarget (f : EFields) (next : Nat) : Nat :=
  let w := f.ra.toNat + 2 ^ 9 * f.rb.toNat + 2 ^ 18 * f.rc.toNat
  wrapN ((next : Int) + 4 * sextN w 27) 64

/-- A code address that a transfer accepts (18 R281, 02 R33). -/
def codeOk (a : Nat) : Bool := a % 4 = 0 && a / 2 ^ 56 = 0

/-! ### Base forms (04 R96, R97): the fields and the shape of the E-form that has the same effect -/

def baseFields : EFields :=
  { ch := 0, rm := 0, ftzo := false, ftzi := false, rd := 0, mod := 0, fe := 0, rc := 0, rb := 0, ra := 0, scp := 0,
    yld := false, stall := 0, ret := 0, gop := false, g2 := 0, g1 := 0, re := 0, lit := none }

/-- Two registers and an immediate as the second source: only RB names the literal, so 0x1FF elsewhere is `v511`. -/
def baseImm (a d : BitVec 9) (imm : Int) : EFields :=
  { baseFields with ra := a, rd := d, rb := 0x1FF, lit := some (BitVec.ofNat 64 (wrapN imm 32)) }

/-- The fields and shape an instruction executes with. -/
def fieldsOf (i : Instr) : EFields × Shape :=
  match i with
  | .nopBase => (baseFields, shapeOf (.nop baseFields))
  | .movBase a d => let f := { baseFields with ra := a, rd := d }; (f, shapeOf (.mov f))
  | .iaddBase k a d =>
    let f := { baseImm a d (sextN k.toNat 6) with mod := 1 }
    (f, { shapeOf (.iadd f) with lit := .operand [.rb] })
  | .shlBase n a d => let f := baseImm a d n.toNat; (f, { shapeOf (.shl f) with lit := .operand [.rb] })
  | .shrBase n a d => let f := baseImm a d n.toNat; (f, { shapeOf (.shr f) with lit := .operand [.rb] })
  | .andBase k a d => let f := baseImm a d (sextN k.toNat 6); (f, { shapeOf (.and f) with lit := .operand [.rb] })
  | .moviBase k d =>
    let f := { baseFields with rd := d, ra := 0x1FF, lit := some (BitVec.ofNat 64 (wrapN (sextN k.toNat 15) 32)) }
    (f, shapeOf (.movi f))
  | .braBase o =>
    let w := wrapN (sextN o.toNat 24) 27
    let f := { baseFields with ra := BitVec.ofNat 9 w, rb := BitVec.ofNat 9 (w / 2 ^ 9), rc := BitVec.ofNat 9 (w / 2 ^ 18) }
    (f, shapeOf (.bra f))
  | .ldsBase k a d =>
    let f := { baseFields with ra := a, rd := d, mod := 2, rc := k.zeroExtend 9 }
    (f, shapeOf (.lds f))
  | .stsBase k a d =>
    let f := { baseFields with ra := a, rd := d, mod := 2, rc := k.zeroExtend 9 }
    (f, shapeOf (.sts f))
  | .exitBase => (baseFields, shapeOf (.exit baseFields))
  | .barBase id => let f := { baseFields with rd := id.zeroExtend 9 }; (f, shapeOf (.bar f))
  | .moviBaseLiteral d l =>
    let f := { baseFields with rd := d, ra := 0x1FF, lit := some (l.zeroExtend 64) }
    (f, shapeOf (.movi f))
  | .iaddBaseLiteral a d l =>
    let f := { baseImm a d l.toNat with mod := 1 }
    (f, { shapeOf (.iadd f) with lit := .operand [.rb] })
  | .andBaseLiteral a d l => let f := baseImm a d l.toNat; (f, { shapeOf (.and f) with lit := .operand [.rb] })
  | .ldsBaseLiteral a d l =>
    let f := { baseFields with ra := a, rd := d, mod := 2, lit := some (l.signExtend 64) }
    (f, shapeOf (.lds f))
  | .stsBaseLiteral a d l =>
    let f := { baseFields with ra := a, rd := d, mod := 2, lit := some (l.signExtend 64) }
    (f, shapeOf (.sts f))
  | i => match eform i with
    | some (_, f) => (f, shapeOf i)
    | none => (baseFields, {})

end Sys2Proof.Machine
end

