-- ==== Sys2Proof/Machine/Ops.lean ====
section
/-!
DEFINITION. The named operations over the state: access to its parts, what belongs to a thread, taking an exception
(13 R226-R233) and coming back from one, rollback, producers, and the lease check.
-/

namespace Sys2Proof.Machine

open Sys2Proof

/-! ### Parts of the state -/

abbrev Result := Host.Outcome State Fault Refusal

def State.block (s : State) (b : Nat) : Block := s.blocks.getD b default
def State.thread (s : State) (b t : Nat) : Thread := (s.block b).threads.getD t default
def State.launch (s : State) (l : Nat) : Launch := s.launches.getD l default
def State.launchOf (s : State) (b : Nat) : Launch := s.launch (s.block b).launch
def State.core (s : State) (c : Nat) : Core := s.cores.getD c default
def State.queue (s : State) (q : Nat) : Queue := s.queues.getD q default
def State.die (s : State) (d : Nat) : Die := s.dies.getD d default
def State.ctl (s : State) (c : Nat) : Controller := s.ctls.getD c default

/-- The context with a number. -/
def State.ctx? (s : State) (n : Nat) : Option Context := s.ctxs.find? (·.spec.num = n)
def State.ctx (s : State) (n : Nat) : Context := (s.ctx? n).getD default

def modBlock (b : Nat) (f : Block → Block) (s : State) : State := { s with blocks := modAt f b s.blocks }
def modThread (b t : Nat) (f : Thread → Thread) (s : State) : State :=
  modBlock b (fun k => { k with threads := modAt f t k.threads }) s
def modWave (b w : Nat) (f : Wave → Wave) (s : State) : State :=
  modBlock b (fun k => { k with waves := modAt f w k.waves }) s
def modPWave (b w : Nat) (f : PWave → PWave) (s : State) : State :=
  modBlock b (fun k => { k with pwaves := modAt f w k.pwaves }) s
def modLaunch (l : Nat) (f : Launch → Launch) (s : State) : State := { s with launches := modAt f l s.launches }
def modCore (c : Nat) (f : Core → Core) (s : State) : State := { s with cores := modAt f c s.cores }
def modQueue (q : Nat) (f : Queue → Queue) (s : State) : State := { s with queues := modAt f q s.queues }
def modDie (d : Nat) (f : Die → Die) (s : State) : State := { s with dies := modAt f d s.dies }
def modCtl (c : Nat) (f : Controller → Controller) (s : State) : State := { s with ctls := modAt f c s.ctls }
def modPart (p : Nat) (f : Partition → Partition) (s : State) : State := { s with parts := modAt f p s.parts }
def modCtx (n : Nat) (f : Context → Context) (s : State) : State :=
  { s with ctxs := modIf (fun c => c.spec.num = n) f s.ctxs }
def modPlat (f : Platform → Platform) (s : State) : State := { s with plat := f s.plat }

/-- A new step of the visibility machine begins (09 R181). -/
def State.tickNow (s : State) : State := { s with now := s.now + 1 }

/-- A fresh number for a free value. -/
def State.fresh (s : State) : Nat × State := (s.free, { s with free := s.free + 1 })

/-- MG logs an event that a source has numbered (17 R271). -/
def logAs (src seq cause : Nat) (k : LogKind) (args : List Nat) : State → State :=
  modPlat fun p => { p with log := p.log ++ [⟨k, args, src, seq, cause⟩] }

/-! ### Launches (03 Table 03.3) -/

def Launch.redundant (l : Launch) : Bool := l.flags.getLsbD 3
def Launch.compact (l : Launch) : Bool := l.flags.getLsbD 4 && !l.redundant
def Launch.rollback (l : Launch) : Bool := l.flags.getLsbD 2
def Launch.idem (l : Launch) : Bool := l.flags.getLsbD 1
def Launch.early (l : Launch) : Bool := l.flags.getLsbD 0
def Launch.scoreboard (l : Launch) : Bool := l.flags.getLsbD 5
/-- Threads per home wave (02 R25, R48). -/
def Launch.lanes (l : Launch) : Nat := if l.redundant then 16 else 32
/-- Waves of a block of n threads (03 R70). -/
def Launch.wavesOf (l : Launch) (n : Nat) : Nat := (n + l.lanes - 1) / l.lanes

def homeWave (l : Launch) (t : Nat) : Nat := t / l.lanes
def homeLane (l : Launch) (t : Nat) : Nat := t % l.lanes

/-- `SPAN` and `SPOS` (02 R26). -/
def spanOf (l : Launch) (b : Nat) : Nat := if l.span = 0 then b else if b = 0 then 0 else (b - 1) / l.span + 1
def sposOf (l : Launch) (b : Nat) : Nat := if l.span = 0 ∨ b = 0 then 0 else (b - 1) % l.span

/-- The threads of a block in order. -/
def tidsOf (k : Block) : List Nat := List.range k.threads.length

def Thread.alive (th : Thread) : Bool := th.st != .exited

/-- The living threads of a home wave, as a mask of home lanes (02 R44). -/
def laneMask (s : State) (b w : Nat) : Nat :=
  let l := s.launchOf b
  maskOf (((tidsOf (s.block b)).filter fun t => decide (homeWave l t = w) && (s.thread b t).alive).map (homeLane l))

/-- The partition that runs a core, and the context it runs. -/
def partOf (s : State) (core : Nat) : Option Nat := s.parts.findIdx? fun p => p.cores.contains core

def ctxOf (s : State) (b : Nat) : Nat := (s.launchOf b).ctx

/-- The sub-core of a physical wave (03 R70). -/
def subOf (k : Block) (pw : Nat) : Nat := (k.f + pw) % 4

/-- max of the declared and the measured lease (03 R77). -/
def Wave.lease (w : Wave) : Nat := max w.declared w.measured

/-! ### Events of a source (17 R271) -/

/-! ### The clock of a die (01 R21; 17 R265, R266) -/

/-- In sixteenths of 2.25 GHz. -/
def Die.k (d : Die) : Nat := if d.emergency then 4 else d.clock

/-- Its cycle ends with the next period. -/
def Die.ticks (d : Die) : Bool := decide (16 ≤ d.phase + d.k)

/-- A period goes by. -/
def Die.tick (d : Die) : Die :=
  if d.ticks then { d with cycle := d.cycle + 1, phase := d.phase + d.k - 16 } else { d with phase := d.phase + d.k }

/-- The cycle of a core. -/
def State.coreCycle (s : State) (core : Nat) : Nat := (s.die (core / 40)).cycle

/-- SOURCE of 13 Table 13.3. -/
def sourceCode (kind die inst : Nat) : Nat := kind * 4096 + die * 256 + inst
def coreSource (core : Nat) : Nat := sourceCode 0 (core / 40) (core % 40)
/-- The FE on the hub (13 R237). -/
def feSource : Nat := 0x6400

/-- SOURCE of a firmware core: kind 6 for the FE, kind 7 for another, by its place in 01 Table 01.5 (DESIGN CHOICE, log 100). -/
def fwSource : FwCore → Nat
  | .fe => feSource
  | .ls => 0x7401
  | .mm => 0x7402
  | .eh => 0x7403
  | .pw => 0x7404
  | .se => 0x7405
  | .mg => 0x7406
  | .cv => 0x7407

def seqNumber (s : State) (count : Nat) : Nat := s.plat.boots % 2 ^ 24 * 2 ^ 40 + count

/-- The next SEQ of a source. -/
def nextSeq (s : State) (src : Nat) : Nat × State :=
  let n := (sget 0 src s.seqs + 1) % 2 ^ 40
  (seqNumber s n, { s with seqs := sset 0 src n s.seqs })

/-- A source logs an event, which it numbers (17 R271; which source numbers which event is a DESIGN CHOICE, log 100). -/
def logEvent (src : Nat) (k : LogKind) (args : List Nat) (s : State) : State :=
  let (q, s) := nextSeq s src
  logAs src q 0 k args s

/-! ### Taking an exception (13 R226-R233) -/

def StopRec.base : StopRec :=
  { source := 0, cause := 0, exited := false, rollback := false, context := false, ctx := 0, wave := 0, region := 0,
    seq := 0, causeSeq := 0, launch := 0, block := 0, lanes := 0, cblock := 0, pc := 0, addr := 0, step := 0,
    attempt := 0, core := 0xFF, at_ := 0 }

/-- The halt line of every partition that runs a context rises (13 R226); one that is up stays as it is. -/
def raiseHalt (ctx seq src : Nat) (s : State) : State :=
  { s with parts := modIf (fun p => p.ctx = some ctx) (fun p => { p with halt := p.halt.or (some (s.cycle, seq, src)) }) s.parts }

/-- The context halts, and its queues stop (03 R54). -/
def haltCtx (ctx seq src : Nat) (s : State) : State :=
  let s := raiseHalt ctx seq src s
  let s := modCtx ctx (fun c => { c with halted := true }) s
  { s with queues := modIf (fun q => q.spec.ctx = ctx && q.state = .active) (fun q => { q with state := .stopped }) s.queues }

/-- The first cause charged to a launch that has not written its completion record; of records that arrive in one cycle
the one with the lower SOURCE counts (13 R232, R233). -/
def noteCause (l cause src : Nat) (s : State) : State :=
  modLaunch l (fun x =>
    if x.stage ≠ .done ∧ (x.cause = 0 ∨ (x.causeBy.1 = s.cycle ∧ src < x.causeBy.2)) then { x with cause := cause, causeBy := (s.cycle, src) }
    else x) s

/-- A message enters a mailbox of 64 and wakes its core; the sender of a message to a full one waits, with all that it
sends after it (17 R264). -/
def Platform.post (c : FwCore) (m : Message) (p : Platform) : Platform :=
  if (p.mail.any fun e => e.1 = c && decide (e.2.length < 64)) && !(p.waiting.any fun e => e.1 = c || e.2.source = m.source) then
    { p with mail := modIf (fun e => e.1 = c) (fun e => (e.1, e.2 ++ [m])) p.mail, asleep := p.asleep.filter (· ≠ c) }
  else { p with waiting := p.waiting ++ [(c, m)] }

/-- A core takes its oldest message, and what waits for room goes on, in the order it was sent. -/
def Platform.takeMessage (c : FwCore) (p : Platform) : Platform :=
  let p := { p with mail := modIf (fun e => e.1 = c) (fun e => (e.1, e.2.drop 1)) p.mail }
  p.waiting.foldl (fun p e => Platform.post e.1 e.2 p) { p with waiting := [] }

/-- The messages in the mailbox of a core. -/
def Platform.inbox (p : Platform) (c : FwCore) : List Message := ((p.mail.find? fun e => e.1 = c).map Prod.snd).getD []

/-- The message of an event of a source (17 Table 17.1). -/
def eventMessage (src seq cause : Nat) : Message :=
  ⟨BitVec.ofNat 16 src, Config.postKind src seq, BitVec.ofNat 64 seq, BitVec.ofNat 64 cause, Config.postPayload src seq⟩

/-- A source posts an event to firmware cores, which it wakes for policy work (01 R20, 17 R264; log 86). -/
def notify (cs : List FwCore) (src : Nat) (s : State) : State :=
  cs.foldl (fun s c => let (q, s) := nextSeq s src; modPlat (Platform.post c (eventMessage src q 0)) s) s

/-- A mailbox has room for n messages of a source, which nothing stands before (17 R264). -/
def mailRoom (s : State) (c : FwCore) (src n : Nat) : Bool :=
  decide ((s.plat.inbox c).length + n ≤ 64) && !s.plat.waiting.any fun e => e.1 = c || e.2.source.toNat = src

/-- A core takes its messages to the last, those that wait for room among them. -/
def Platform.takeAll (c : FwCore) (p : Platform) : Platform :=
  (List.range ((p.inbox c).length + p.waiting.length)).foldl (fun p _ => p.takeMessage c) p

/-- A message of the MG's own waits for another core's room: the MG waits with it (17 R264). -/
def mgWaits (s : State) : Bool := s.plat.waiting.any fun e => e.1 ≠ .mg && e.2.source.toNat = fwSource .mg

/-- A REQUEST TO THE FIRMWARE CORES ARRIVES AS A MESSAGE TO MG, which takes it after all that came before it (17 R276); the
SEQ of the message. -/
def mgRequest (s : State) : Nat × State :=
  let (q, s) := nextSeq s (fwSource .mg)
  (q, modPlat (fun p => (p.post .mg (eventMessage (fwSource .mg) q 0)).takeAll .mg) s)

/-- Writes a stop record: the source numbers it, the hub's record ring takes it and posts to the EH (13 R231, 17 R264). -/
def writeRecord (r : StopRec) (s : State) : Nat × State :=
  let (q, s) := nextSeq s r.source
  (q, modPlat (Platform.post .eh (eventMessage r.source q r.causeSeq)) { s with ring := s.ring ++ [{ r with seq := q, at_ := s.cycle }] })

def StopRec.flagBits (r : StopRec) : Nat := r.exited.toNat + 2 * r.rollback.toNat + 4 * r.context.toNat

/-- THE 64 BYTES OF A STOP RECORD (13 Table 13.3). -/
def recordBytes (r : StopRec) : List Byte :=
  leBytes 2 r.source ++ leBytes 1 r.cause ++ leBytes 1 r.flagBits ++ leBytes 2 (r.ctx % 2 ^ 10) ++ leBytes 1 r.wave ++
  leBytes 1 (r.region % 2 ^ 4) ++ leBytes 8 r.seq ++ leBytes 8 r.causeSeq ++ leBytes 4 r.launch ++ leBytes 4 r.block ++
  leBytes 4 r.lanes.toNat ++ leBytes 4 r.cblock ++ leBytes 8 r.pc.toNat ++ leBytes 8 r.addr ++ leBytes 2 r.step ++
  leBytes 1 r.attempt ++ leBytes 1 r.core ++ leBytes 4 0

/-- The record that the EH receives next: of those of the oldest cycle in the ring, that of the lowest SOURCE, the oldest of
it first (13 R232). -/
def nextRecord (ring : List StopRec) : Option StopRec :=
  match ring with
  | [] => none
  | r :: rest => some ((rest.takeWhile fun x => x.at_ = r.at_).foldl (fun m x => if x.source < m.source then x else m) r)

/-- The EH receives a record and copies it into the fault log of its context (13 R231). -/
def receiveRecord (s : State) : State :=
  match nextRecord s.ring with
  | none => s
  | some r => modCtx r.ctx (fun c => { c with log := c.log ++ [recordBytes r] }) { s with ring := s.ring.erase r }

/-- The records of a context, in its fault log or still in the ring. -/
def recordsOf (s : State) (ctx : Nat) : List (List Byte) :=
  (s.ctx ctx).log ++ (s.ring.filter fun r => r.ctx = ctx).map recordBytes

/-- TAKING AN EXCEPTION: the record of the cause is written, the launch notes its first cause, the context halts. -/
def takeFault (r : StopRec) (s : State) : State :=
  let (q, s) := writeRecord r s
  let s := if r.context then s else noteCause r.launch r.cause r.source s
  haltCtx r.ctx q r.source s

/-- The record of threads of a block: LANES lists them all, WAVE is the home wave of the first (log 84). -/
def threadRec (s : State) (b cause : Nat) (tids : List Nat) (pc : DWord) (addr : Nat) : StopRec :=
  let k := s.block b
  let l := s.launchOf b
  let t0 := tids.headD 0
  { StopRec.base with
      source := coreSource k.core, cause := cause, ctx := l.ctx, wave := homeWave l t0, launch := k.launch,
      block := k.index, lanes := BitVec.ofNat 32 (maskOf (tids.map (homeLane l))), pc := pc, addr := addr, core := k.core,
      exited := tids.all fun t => !(s.thread b t).alive }

/-- One record for the threads of one cause (13 R232). -/
def raiseCause (b cause : Nat) (tids : List Nat) (pc : DWord) (addr : Nat) (s : State) : State :=
  if tids = [] then s else takeFault (threadRec s b cause tids pc addr) s

/-- The precise faults of one instruction: one record per distinct cause, in ascending order of the lowest home lane
each lists (13 R232). Entries are thread, cause, address, in ascending home lane. -/
def raiseFaults (b : Nat) (pc : DWord) (fs : List (Nat × Nat × Nat)) (s : State) : State :=
  ((fs.map fun f => f.2.1).eraseDups).foldl
    (fun s c =>
      let g := fs.filter fun f => f.2.1 = c
      raiseCause b c (g.map Prod.fst) pc ((g.headD (0, 0, 0)).2.2) s) s

/-- A fault charged to a recorded store (11 R215, 08 R161): no lanes. -/
def raiseStore (source cause ctx : Nat) (r : StoreRec) (addr : Nat) (extra : StopRec → StopRec) (s : State) : State :=
  let k := s.blocks.find? fun k => k.launch = r.launch && k.index = r.block
  let exited := match k with
    | some k => k.status = .retired ||
        (tidsOf k).all fun t => decide (homeWave (s.launch k.launch) t ≠ r.wave) || !(k.threads.getD t default).alive
    | none => true
  takeFault (extra { StopRec.base with
    source := source, cause := cause, ctx := ctx, wave := r.wave, launch := r.launch, block := r.block, pc := r.pc,
    addr := addr, core := r.core, exited := exited }) s

/-- A fault charged to a context (13 Table 13.3, CONTEXT). -/
def raiseContext (source cause ctx addr : Nat) (extra : StopRec → StopRec) (s : State) : State :=
  takeFault (extra { StopRec.base with source := source, cause := cause, context := true, ctx := ctx, addr := addr }) s

/-- RETURN FROM AN EXCEPTION: the EH resumes a context (13 R228, R229): its threads restart at their trap points, its
halt lines fall, its stopped queues become active; the causes noted so far count no more (03 R82, 13 R237). -/
def resumeCtx (ctx : Nat) (s : State) : State :=
  let s := modCtx ctx (fun c => { c with halted := false }) s
  let clear := fun (l : Launch) => if l.ctx = ctx && l.stage != .done then { l with cause := 0 } else l
  let clearX := fun (x : Xfer) => if x.ctx = ctx && !x.done then { x with cause := 0 } else x
  let s := { s with launches := s.launches.map clear, xfers := s.xfers.map clearX }
  let s := { s with parts := modIf (fun p => p.ctx = some ctx) (fun p => { p with halt := none, stopped := false }) s.parts }
  { s with queues := modIf (fun q => q.spec.ctx = ctx && q.state = .stopped) (fun q => { q with state := .active }) s.queues }

/-! ### Rollback (13 R242-R244) -/

/-- Whether an error consumed by a thread of the block rolls it back. -/
def canRollBack (k : Block) : Bool := k.rollable && !k.rolled && k.ckpt.isSome

/-- The items of a log are taken out of the machine. -/
def dropItems (ids : List Nat) (items : List Item) : List Item :=
  (List.range items.length).map fun i =>
    let x := items.getD i default
    if ids.contains i then { x with gran := none, bytes := [], vis := [] } else x

/-- The number of an instance of a cv, as the holds of its signers name it. -/
def instKey (cv inst : Nat) : Nat := inst * 16 + cv

/-- Nothing that is on its way for entries of a block names them any more (13 R236, R244). A fill that one of them opened goes on
without an opener: its failure is charged to nobody (DESIGN CHOICE, log 117). -/
def dropRequests (b : Nat) (s : State) : State :=
  let mine := fun (e : Nat × Nat × Nat) => e.1 = b
  let req := fun (r : Req) => { r with thr := r.thr.filter fun e => !mine e }
  { s with
      walks := s.walks.map fun w => { w with ops := w.ops.filter fun e => !mine e }
      ctls := s.ctls.map fun c => { c with reqs := c.reqs.map req }
      fills := s.fills.map fun f => { f with opener := ⟨f.opener.thr.filter fun e => !mine e⟩ } }

/-- A thread of a checkpoint, as it resumes: it waits for no instance that has completed since, and what was on its way for its
entries is asked for again (13 R244). -/
def resumeThread (mq : List MInst) (b : Nat) (c : Checkpoint) (nextId : Nat) (th : Thread) : Thread :=
  let there := fun (cv inst : Nat) => (c.cvs.getD cv default).inst = inst || mq.any fun i => i.block = b && i.cv = cv && i.id = inst
  let held := fun (key : Nat) => (c.cvs.getD (key % 16) default).inst = key / 16 ||
    mq.any fun i => i.block = b && i.cap.isNone && instKey i.cv i.id = key
  { th with
      nextId := nextId, signed := th.signed.filter fun e => there e.1 e.2, aBusy := th.aBusy.filter fun a => held a.inst
      ops := th.ops.map fun o => { o with fill := if o.fill = .done then .done else .idle } }

/-- ROLLBACK (13 R244): the log is discarded with the floors that name it, and the checkpoint stands again; the copies
in flight then go on, those of the interval are gone. FLAGS are those of the checkpoint, also of an instance that was signed
before it and has completed since (DESIGN CHOICE, log 109). -/
def rollBack (b cause : Nat) (tids : List Nat) (pc : DWord) (addr : Nat) (s : State) : State :=
  let k := s.block b
  match k.ckpt with
  | none => s
  | some c =>
    let (_, s) := writeRecord { threadRec s b cause tids pc addr with rollback := true } s
    let s := dropRequests b { s with items := dropItems k.log s.items, floors := s.floors.filter fun e => !k.log.any fun i => e.2.2.1 = i + 1 }
    modBlock b (fun k =>
      { k with
          threads := (List.range c.threads.length).map fun t =>
            resumeThread (s.core k.core).mq b c (k.threads.getD t default).nextId (c.threads.getD t default)
          waves := c.waves, copies := c.copies
          cvs := (List.range c.cvs.length).map fun i => { c.cvs.getD i default with rows := (k.cvs.getD i default).rows }
          scratch := c.scratch, past := [], fe := c.fe, log := [], logBytes := 0,
          rolled := true, bars := List.replicate 16 [], tiles := k.tiles.map fun t => { t with reqs := [] } }) s

/-- An uncorrectable error or a shadow mismatch: rollback where the interval allows it, else the fault (13 R244). -/
def errorOrRollBack (b cause : Nat) (tids : List Nat) (pc : DWord) (addr : Nat) (s : State) : State :=
  if canRollBack (s.block b) then rollBack b cause tids pc addr s else raiseCause b cause tids pc addr s

/-! ### Writing registers of a thread -/

/-- Both lanes of a REDUNDANT thread (02 R48). -/
def onLanes (f : Vals → Vals) (th : Thread) : Thread :=
  { th with vals := f th.vals, shadow := th.shadow.map f }

/-- A producer takes its destination: EMPTY, as a whole (04 R86). -/
def startProd (p : Prod) (th : Thread) : Thread :=
  { onLanes (fun v => v.setAv p.dst .empty) th with prods := th.prods ++ [p], nextId := th.nextId + 1 }

/-- The producer's data is written: FULL, with its taint (04 R86, R90). -/
def fillRegs (dst : List Nat) (ws : List Word) (taint : Bool) (v : Vals) : Vals :=
  (dst.zip ws).foldl (fun v p => v.put p.1 ⟨p.2, .full, taint⟩) v

/-- Cancelled: every register it had made EMPTY is ABANDONED (04 R86). -/
def abandonProd (id : Nat) (th : Thread) : Thread :=
  let dst := (th.prods.filter (·.id = id)).flatMap Prod.dst
  { onLanes (fun v => v.setAv dst .abandoned) th with prods := th.prods.filter (·.id ≠ id) }

def advancePc (len : Nat) (th : Thread) : Thread := { th with pc := th.pc + BitVec.ofNat 64 len }

/-! ### The lease check (03 R65) -/

inductive Right where
  | rd | w | x
  deriving DecidableEq, Repr

def Range.has (r : Range) : Right → Bool
  | .rd => r.rd
  | .w => r.w
  | .x => r.x

/-- The range that holds an address. -/
def rangeAt (rs : List Range) (a : Nat) : Option Range := rs.find? fun r => decide (r.base ≤ a ∧ a < r.base + r.len)

/-- Bytes a .. a + n − 1 all lie in ranges with the right; ranges are made of 64 KiB units. -/
def leaseOk (rs : List Range) (a n : Nat) (right : Right) : Bool :=
  [a, a + n - 1].all fun x => match rangeAt rs x with
    | some r => r.has right
    | none => false

/-- The checks of a global address in their order (18 R282): form and alignment, then the lease. -/
def globalFault (rs : List Range) (a size align : Nat) (rights : List Right) : Option Nat :=
  if a / 2 ^ 56 ≠ 0 ∨ a % align ≠ 0 then some 0x09
  else if rights.all (leaseOk rs a size) then none else some 0x0B

/-- The checks of a scratch address (18 R282). -/
def scratchFault (bytes a size align : Nat) : Option Nat :=
  if a % align ≠ 0 then some 0x09 else if bytes < a + size then some 0x0A else none

end Sys2Proof.Machine
end

