-- ==== Sys2Proof/Machine/Vis.lean ====
section
/-!
DEFINITION. The visibility machine (09): scope instances, items, frontiers, floors, and when an entry of a thread's
queue may take its step.
-/

namespace Sys2Proof.Machine

open Sys2Proof

/-! ### Scopes (09 R179) -/

/-- SCP of an encoding (04 R98); none is 000. -/
def scopeOf (scp : BitVec 3) : Option Scope :=
  match scp.toNat with
  | 1 => some .blk
  | 2 => some .spn
  | 3 => some .dev
  | 4 => some .pool
  | 5 => some .sys
  | _ => none

def Scope.rank : Scope → Nat
  | .blk => 0
  | .spn => 1
  | .dev => 2
  | .pool => 3
  | .sys => 4

def scopeOfRank : Nat → Scope
  | 0 => .blk
  | 1 => .spn
  | 2 => .dev
  | 3 => .pool
  | _ => .sys

/-- inst(s, t) for a thread of block b; without a pool, `.pool` is the module. -/
def instOf (s : State) (b : Nat) : Scope → Inst
  | .blk => .blk b
  | .spn => .span (s.block b).launch (spanOf (s.launchOf b) (s.block b).index)
  | .dev => .dev
  | .pool => if s.ports.any Port.attached then .pool else .dev
  | .sys => .sys

/-- K lies within K'. -/
def instWithin (s : State) (k k' : Inst) : Bool :=
  match k, k' with
  | _, .sys => true
  | .sys, _ => false
  | _, .pool => true
  | .pool, _ => false
  | _, .dev => true
  | .dev, _ => false
  | .span l p, .span l' p' => l = l' && p = p'
  | .blk b, .span l p => (s.block b).launch = l && spanOf (s.launchOf b) (s.block b).index = p
  | .span _ _, .blk _ => false
  | .blk b, .blk b' => b = b'

/-! ### Items (09 R180) -/

/-- vis(x, K): the first step at which the item was visible in K or in an instance around it. -/
def visStep (s : State) (x : Item) (k : Inst) : Option Nat :=
  minNat ((x.vis.filter fun e => instWithin s k e.1).map Prod.snd)

/-- Visible in K at a step. -/
def visibleAt (s : State) (x : Item) (k : Inst) (τ : Nat) : Bool :=
  match visStep s x k with
  | some v => decide (v ≤ τ)
  | none => false

/-- The key of a granule of a context's space (09 R180; log 9). -/
def granOf (ctx va : Nat) : Nat := (ctx * 2 ^ 56 + va) / 16

/-- The bytes of a granule after one store is put over them. -/
def overlay (g : List Byte) : List (Nat × Byte) → List Byte
  | [] => g
  | (o, v) :: r => overlay (modAt (fun _ => v) o g) r

/-- The value of a granule after every store up to `upto` (exclusive index) of its coherence order. -/
def granValue (s : State) (g upto : Nat) : List Byte :=
  ((s.items.take upto).filter fun x => x.gran = some g).foldl (fun a x => overlay a x.bytes) (memRead s.mem (16 * g) 16)

/-- The newest store of co(g), as its index plus one, that passes a test; 0 is the initial store. -/
def newestFrom (p : Item → Bool) : Nat → List Item → Nat → Nat
  | _, [], best => best
  | i, x :: r, best => newestFrom p (i + 1) r (if p x then i + 1 else best)

/-- The newest store of a granule visible in K at a step, as its index plus one. -/
def newestIn (s : State) (g : Nat) (k : Inst) (τ : Nat) : Nat :=
  newestFrom (fun x => x.gran = some g && visibleAt s x k τ) 0 s.items 0

/-- floor(B, g) at a step, as index plus one. -/
def floorAt (s : State) (b g τ : Nat) : Nat :=
  match s.floors.find? fun e => e.1 = b && e.2.1 = g && decide (e.2.2.2 ≤ τ) with
  | some e => e.2.2.1
  | none => 0

/-- Sets floor(B, g) from a step on; entries stand newest step first. -/
def setFloor (b g x τ : Nat) (s : State) : State :=
  if x = 0 then s
  else { s with floors := (s.floors.takeWhile fun e => decide (τ < e.2.2.2)) ++ (b, g, x, τ) ::
      (s.floors.dropWhile fun e => decide (τ < e.2.2.2)) }

def raiseFloor (b g x : Nat) (s : State) : State := if floorAt s b g s.now < x then setFloor b g x s.now s else s

/-- The granules that have stores. -/
def itemGrans (s : State) : List Nat := (s.items.filterMap Item.gran).eraseDups

/-- The newest store of co(g) with vis(x, K) < w, as index plus one (09 R185). -/
def newestBefore (s : State) (g : Nat) (k : Inst) (w : Nat) : Nat :=
  newestFrom (fun x => x.gran = some g && match visStep s x k with
    | some v => decide (v < w)
    | none => false) 0 s.items 0

/-- The floor raises of an acquire that synchronizes with an event visible in K since step w (09 R185). -/
def acquireFrom (b : Nat) (k : Inst) (w : Nat) (s : State) : State :=
  (itemGrans s).foldl (fun s g => raiseFloor b g (newestBefore s g k w) s) s

/-- The raise of FENCE.ar (09 R187): every floor to the newest store visible in K. -/
def raiseAll (b : Nat) (k : Inst) (s : State) : State :=
  (itemGrans s).foldl (fun s g => raiseFloor b g (newestIn s g k s.now) s) s

/-- The step at which the event an acquire synchronizes with became visible in K: the release event of a PRIV `.rel`
store, else the store itself (09 R190). Index plus one; the initial store came before every step. -/
def syncStep (s : State) (x1 : Nat) (k : Inst) : Option Nat :=
  if x1 = 0 then some 0
  else
    let x := s.items.getD (x1 - 1) default
    visStep s (match x.sync with
      | some r => s.items.getD r default
      | none => x) k

/-- An acquire at a scope by block b with the store x1 it read. -/
def acquireRead (b : Nat) (sc : Scope) (x1 : Nat) (s : State) : State :=
  let k := instOf s b sc
  match syncStep s x1 k with
  | some w => acquireFrom b k w s
  | none => s

/-! ### A thread's own items -/

def ownItem (b t : Nat) (x : Item) : Bool := x.thr = some (b, t)

/-- Every older store of a thread that is no PRIV store is visible in K (09 R184, R190); one that ended with 0x18 has no
step to wait for. -/
def storesVisible (s : State) (b t op : Nat) (k : Inst) (only : Option Nat) : Bool :=
  s.items.all fun x => !(ownItem b t x && x.gran.isSome && x.vis != [] && decide (x.op < op) && !x.priv &&
    (only.isNone || x.gran = only)) || (visStep s x k).isSome

def MemOp.isStore (o : MemOp) : Bool := o.kind = .store

def MemOp.isAtomic (o : MemOp) : Bool :=
  match o.kind with
  | .atomic _ => true
  | _ => false

/-- Entries that read: loads, copy reads and atomics. -/
def MemOp.reads (o : MemOp) : Bool :=
  match o.kind with
  | .load => true
  | .copyRead _ _ => true
  | .atomic _ => true
  | _ => false

/-- The entry empties its granule with its read (08 Table 08.5). -/
def OpTag.clears : OpTag → Bool
  | .clear => true
  | .take _ => true
  | _ => false

/-- The entry reads a FULL granule only (08 Table 08.5). -/
def OpTag.awaits : OpTag → Bool
  | .full _ => true
  | .take _ => true
  | _ => false

def MemOp.isFence (o : MemOp) : Bool :=
  match o.kind with
  | .fence _ _ => true
  | _ => false

def MemOp.isAccess (o : MemOp) : Bool := o.isStore || o.reads

/-- Whether the entry is an acquire for later entries (09 R185, R187). -/
def MemOp.acquires (o : MemOp) : Bool := o.acq.isSome

/-- The granule of an access. -/
def MemOp.gran (o : MemOp) : Nat := o.addr / 16

/-- How many granules the entry reaches: an access lies in one, a `FESET` names its count. -/
def MemOp.reach (o : MemOp) : Nat :=
  match o.kind with
  | .feset n _ => n
  | _ => if o.isAccess then 1 else 0

def sameGranule (o p : MemOp) : Bool :=
  o.scratch = p.scratch && decide (o.gran < p.gran + p.reach ∧ p.gran < o.gran + o.reach)

/-- What holds an entry behind an older one that has not taken its step (09 R182-R189). A `FENCE.acq` follows older loads, and no
older release event or fence (09 R187). -/
def blockedBy (o old : MemOp) : Bool :=
  old.acquires ||
  sameGranule o old ||
  (o.isStore && old.isFence && old.rel.isSome) ||
  (o.isAtomic && old.isFence && old.rel.isSome) ||
  (o.rel.isSome && old.isAccess && !(old.isStore && old.priv)) ||
  (o.isFence && o.acq.isSome && old.reads) ||
  (o.rel.isSome && old.rel.isSome) ||
  (o.rel.isSome && old.isFence) ||
  (o.taint && old.consume.isSome)

/-- The older entries of a thread's queue. -/
def olderOps (th : Thread) (o : MemOp) : List MemOp := th.ops.filter fun p => decide (p.id < o.id)

/-- The thread's own order lets an entry take its step. -/
def unheld (th : Thread) (o : MemOp) : Bool := !((olderOps th o).any (blockedBy o))

/-- Entries that come first: lower lanes of one atomic (09 R183; 08 R168; 18 R290), lower lanes of one scratch store to the
same granule (08 R168), and scratch entries of lower sub-cores of one cycle that their thread's order does not hold (01
R17), and so the global atomics of the core's lower sub-cores on its granule (18 R317). -/
def lanesBefore (s : State) (b t : Nat) (o : MemOp) : Bool :=
  let k := s.block b
  let l := s.launchOf b
  (o.isAtomic && !o.scratch && (List.range s.blocks.length).any fun b' =>
    let k' := s.block b'
    k'.status = .placed && k'.core = k.core && (tidsOf k').any fun t' =>
      (s.thread b' t').ops.any fun p =>
        p.isAtomic && !p.scratch && p.cyc = o.cyc && decide (p.sub < o.sub) && p.gran = o.gran && unheld (s.thread b' t') p) ||
  (tidsOf k).any fun t' => (s.thread b t').ops.any fun p =>
    (o.isAtomic && p.isAtomic && o.scratch = p.scratch && p.iss = o.iss && decide (homeLane l t' < homeLane l t)) ||
    (o.scratch && !o.reads && sameGranule o p && p.iss = o.iss && decide (homeLane l t' < homeLane l t) && p.kind = o.kind) ||
    (o.scratch && p.scratch && p.cyc = o.cyc && decide (p.sub < o.sub) && unheld (s.thread b t') p)

/-- A younger fence of the thread has taken its step in this cycle: two release events or fences of one cycle keep program order
(09 R195). -/
def fencePast (s : State) (b t : Nat) (o : MemOp) : Bool :=
  (o.rel.isSome || o.isFence) && (s.thread b t).fenced.any fun f => f.1 = s.coreCycle (s.block b).core && decide (o.id < f.2)

/-- An entry whose request the L1 of its core takes later: one of a lower sub-core issued in the same cycle (01 R17). -/
def l1Before (s : State) (b : Nat) (o : MemOp) : Bool :=
  let core := (s.block b).core
  (List.range s.blocks.length).any fun b' => (s.block b').status = .placed && (s.block b').core = core &&
    (tidsOf (s.block b')).any fun t' => (s.thread b' t').ops.any fun p =>
      p.cyc = o.cyc && decide (p.sub < o.sub) && !p.scratch && p.isAccess && p.fill = .idle

/-- An acquire that clears the L1 follows the requests of lower sub-cores of its cycle (01 R17). -/
def acquireLate (s : State) (b : Nat) (o : MemOp) : Bool := (o.acq.any fun sc => sc != .blk) && l1Before s b o

/-- The capture of an instance that a thread signed reads the granule of a later scratch entry first (09 R193). -/
def captureBefore (th : Thread) (o : MemOp) : Bool :=
  o.scratch && th.aBusy.any fun a => decide (a.mark ≤ o.id ∧ a.lo < o.gran + o.reach ∧ o.gran < a.hi)

/-- An entry may take its step (09 R182-R190; 04 R49 is judged at issue). -/
def canStep (s : State) (b t : Nat) (o : MemOp) : Bool :=
  let th := s.thread b t
  unheld th o && !lanesBefore s b t o && !captureBefore th o && !fencePast s b t o && !acquireLate s b o &&
  !((o.rel.isSome || o.isFence) && th.aBusy.any fun a => decide (a.mark ≤ o.id)) &&
  (match o.rel with
   | some sc => storesVisible s b t o.id (instOf s b sc) none
   | none => true) &&
  (match o.kind, o.acq with
   | .fence true true, some sc => storesVisible s b t o.id (instOf s b sc) none
   | _, _ => true) &&
  (!(o.isAtomic && !o.scratch && !o.priv) || storesVisible s b t o.id (instOf s b o.scp) (some o.gran))

/-- Takes an entry out of a thread's queue. -/
def dropOp (b t op : Nat) : State → State :=
  modThread b t fun th => { th with ops := th.ops.filter (·.id ≠ op) }

/-- The granule of an access as its thread notes it: those of scratch apart from the global ones. -/
def MemOp.mark (o : MemOp) : Nat := if o.scratch then o.gran + 2 ^ 80 else o.gran

/-- The last step at which the thread accessed a granule. -/
def noteGran (b t g : Nat) (s : State) : State :=
  modThread b t (fun th => { th with gran := (g, s.now) :: th.gran.filter (·.1 ≠ g) }) s

/-- The same of a granule of scratch. -/
def noteScratch (b t g : Nat) : State → State := noteGran b t (g + 2 ^ 80)

/-- Marks the items that a release at `.sys` of a thread covers (08 R162). -/
def coverSys (b t op : Nat) (s : State) : State :=
  let cover := fun (x : Item) => if ownItem b t x && decide (x.op ≤ op) && x.relSys.isNone then { x with relSys := some s.now } else x
  { s with items := s.items.map cover }

/-- A release event at a scope takes its step: an item of its own, visible in inst(s, t) (09 R184). -/
def releaseItem (b t op : Nat) (sc : Scope) (s : State) : State :=
  let s := { s with items := s.items ++ [⟨none, [], some (b, t), false, [(instOf s b sc, s.now)], none, op, none, true⟩] }
  if sc = .sys then coverSys b t op s else s

/-- The bytes of a value at an offset of its granule. -/
def granBytes (addr : Nat) (data : List Byte) : List (Nat × Byte) :=
  (List.range data.length).map fun i => (addr % 16 + i, data.getD i 0)

/-- The first perform step of a store: appended to co(g), visible in the instance, and the floor of its block. -/
def performStore (b t : Nat) (o : MemOp) (sc : Scope) (sync : Option Nat) (s : State) : State :=
  let x : Item := ⟨some o.gran, granBytes o.addr o.data, some (b, t), o.priv, [(instOf s b sc, s.now)], none, o.id, sync, false⟩
  let n := s.items.length + 1
  let s := { s with items := s.items ++ [x] }
  noteGran b t o.mark (setFloor b o.gran n s.now s)

/-- A write by the device at system scope: no thread, visible in `.sys` at once. `data` lies within one granule. -/
def sysWriteGran (key : Nat) (data : List Byte) (s : State) : State :=
  { s with items := s.items ++ [⟨some (key / 16), granBytes key data, none, false, [(.sys, s.now)], some s.now, 0, none, true⟩] }

/-- Bytes from a key, granule by granule. -/
def sysWriteFrom : Nat → Nat → List Byte → State → State
  | 0, _, _, s => s
  | fuel + 1, key, data, s =>
    if data = [] then s
    else
      let n := 16 - key % 16
      sysWriteFrom fuel (key + n) (data.drop n) (sysWriteGran key (data.take n) s)

/-- A device write of bytes at a virtual address of a context, at system scope. -/
def sysWrite (ctx va : Nat) (data : List Byte) (s : State) : State :=
  sysWriteFrom (data.length + 1) (ctx * 2 ^ 56 + va) data s

/-- A byte as the system instance sees it. -/
def sysByte (s : State) (key : Nat) : Byte :=
  (granValue s (key / 16) (newestIn s (key / 16) .sys s.now)).getD (key % 16) 0

/-- The alias that maps an address, if any: the writer's key (08 R162). -/
def aliasKey (s : State) (ctx va : Nat) : Option Nat :=
  match (s.ctx ctx).aliases.find? fun a => decide (a.1 ≤ va ∧ va < a.1 + a.2.1) with
  | some a => some (a.2.2.1 * 2 ^ 56 + (a.2.2.2 + (va - a.1)))
  | none => none

/-- A byte that a read-only alias shows to what reads at system scope by no acquire of a block: the newest that a release at `.sys` has
covered, a PRIV store where it has widened too (08 R162; DESIGN CHOICE, log 119). -/
def aliasByte (s : State) (key : Nat) : Byte :=
  let shown := fun (x : Item) => x.gran = some (key / 16) && x.relSys.isSome && (!x.priv || (visStep s x .sys).isSome)
  (granValue s (key / 16) (newestFrom shown 0 s.items 0)).getD (key % 16) 0

/-- A read of one byte at an address, through an alias where one maps it; else the byte of its key. -/
def byteAt (s : State) (ctx va : Nat) (plain : Nat → Byte) : Byte :=
  match aliasKey s ctx va with
  | some k => aliasByte s k
  | none => plain (ctx * 2 ^ 56 + va)

def sysRead (s : State) (ctx va n : Nat) : List Byte := (List.range n).map fun i => byteAt s ctx (va + i) (sysByte s)

/-- A byte as the device instance sees it (20 R360). -/
def devByte (s : State) (key : Nat) : Byte :=
  (granValue s (key / 16) (newestIn s (key / 16) .dev s.now)).getD (key % 16) 0

def devRead (s : State) (ctx va n : Nat) : List Byte := (List.range n).map fun i => byteAt s ctx (va + i) (devByte s)

/-- The current plain bytes: the newest store of each granule, whatever its visibility (the L2 image of a codec block,
and what a completed launch leaves). -/
def newestByte (s : State) (key : Nat) : Byte := (granValue s (key / 16) s.items.length).getD (key % 16) 0
def newestRead (s : State) (ctx va n : Nat) : List Byte :=
  (List.range n).map fun i => newestByte s (ctx * 2 ^ 56 + va + i)

end Sys2Proof.Machine
end

