-- ==== Sys2Proof/Machine/Lanes.lean ====
section
/-!
DEFINITION. One issue of a PC group (02 R35-R36, 04 R83-R108): translation and fetch, what makes a thread wait, the
shared execution of an instruction by its lanes, and the choice of a group.
-/

namespace Sys2Proof.Machine

open Sys2Proof

/-! ### Translation (08 R157, R158) -/

inductive WalkEnd where
  | leaf (l : Leaf)
  | absent
  | reserved (pa : Nat)
  deriving DecidableEq, Repr, Inhabited

/-- A device physical address names a byte of a target (08 R158): a die's HBM of 2 × 48 GiB, its LPDDR-6 of 4 × 96 GiB (01
Table 01.2), or the pool window. -/
def targetOk (pa : Nat) : Bool :=
  let t := bitsOf pa 55 48
  let off := bitsOf pa 47 0
  decide ((t < 4 ∧ off < 96 * 2 ^ 30) ∨ (4 ≤ t ∧ t < 8 ∧ off < 384 * 2 ^ 30) ∨ t = 0x10)

def cohOf (c : Nat) : Coh := if c = 0 then .priv else if c = 1 then .soft else if c = 2 then .hard else .pool

/-- The index of a level (1 to 5) into its table. -/
def walkIndex (level va : Nat) : Nat :=
  match level with
  | 1 => bitsOf va 55 48
  | 2 => bitsOf va 47 39
  | 3 => bitsOf va 38 30
  | 4 => bitsOf va 29 21
  | _ => bitsOf va 20 16

/-- A leaf entry of a level (08 Table 08.1). -/
def leafOf (level e at_ : Nat) : WalkEnd :=
  let size := bitsOf e 62 61
  if size + level ≠ 5 ∨ bitsOf e 49 48 ≠ 0 ∨ bitsOf e 7 0 ≠ 0 then .absent
  else
    let frame := bitsOf e 47 8 * 2 ^ 16
    if targetOk frame then
      .leaf ⟨level, cohOf (bitsOf e 60 59), bitOf e 58, bitOf e 57, bitsOf e 56 53, bitOf e 52, bitOf e 51, bitOf e 50, frame, at_⟩
    else .reserved frame

/-- The walk from a level with `fuel` levels left. -/
def walkFrom (pmem : Memory) : Nat → Nat → Nat → Nat → WalkEnd
  | 0, _, _, _ => .absent
  | fuel + 1, level, table, va =>
    let at_ := table + 8 * walkIndex level va
    let e := leNat (memRead pmem at_ 8)
    if !bitOf e 63 then .absent
    else if bitsOf e 62 61 = 3 then
      if level = 5 ∨ bitsOf e 60 56 ≠ 0 ∨ bitsOf e 7 0 ≠ 0 then .absent
      else
        let next := bitsOf e 55 8 * 2 ^ 8
        if targetOk next then walkFrom pmem fuel (level + 1) next va else .reserved next
    else leafOf level e at_

def walk (s : State) (ctx va : Nat) : WalkEnd := walkFrom s.pmem 5 1 (s.ctx ctx).spec.root va

/-- The entries that a walk reads from a level on. -/
def readsFrom (pmem : Memory) : Nat → Nat → Nat → Nat → List Nat
  | 0, _, _, _ => []
  | fuel + 1, level, table, va =>
    let at_ := table + 8 * walkIndex level va
    let e := leNat (memRead pmem at_ 8)
    let next := bitsOf e 55 8 * 2 ^ 8
    if bitOf e 63 ∧ bitsOf e 62 61 = 3 ∧ level ≠ 5 ∧ bitsOf e 60 56 = 0 ∧ bitsOf e 7 0 = 0 ∧ targetOk next then
      at_ :: readsFrom pmem fuel (level + 1) next va
    else [at_]

def walkReads (s : State) (ctx va : Nat) : List Nat := readsFrom s.pmem 5 1 (s.ctx ctx).spec.root va

/-- A walk reads an entry in a poisoned line (13 R246). -/
def walkBad (s : State) (ctx va : Nat) : Bool := (walkReads s ctx va).any fun a => s.plat.poison.contains (a / 128 * 128)

/-- The bytes of a leaf's page. -/
def pageSize (l : Leaf) : Nat := if l.level = 3 then 2 ^ 30 else if l.level = 4 then 2 ^ 21 else 2 ^ 16

/-- The device physical address of a virtual one under its leaf. -/
def physOf (l : Leaf) (va : Nat) : Nat := l.frame / pageSize l * pageSize l + va % pageSize l

def isPool (pa : Nat) : Bool := bitsOf pa 55 48 = 0x10

/-- The pool decoder that covers an offset of the window (15 R250). -/
def decoderAt (s : State) (off : Nat) : Option Decoder := s.decoders.find? fun d => decide (d.off ≤ off ∧ off < d.off + d.len)

/-- The pool decoder that covers an address of the window (15 R250). -/
def decoderOf (s : State) (pa : Nat) : Option Decoder := decoderAt s (bitsOf pa 47 0)

/-- The translation of an address; a pool offset that no decoder covers has none. -/
def translate (s : State) (ctx va : Nat) : WalkEnd :=
  match walk s ctx va with
  | .leaf l => if isPool l.frame && (decoderOf s (physOf l va)).isNone then .absent else .leaf l
  | r => r

def translated (s : State) (ctx va : Nat) : Bool :=
  match translate s ctx va with
  | .leaf _ => true
  | _ => false

/-- The fault of a page whose table cannot be read, that lacks a right or a translation (08 R161, R166; 13 R246). -/
def pageFault (s : State) (ctx va : Nat) (right : Right) : Option Nat :=
  if walkBad s ctx va then some 0x1A else
  match translate s ctx va with
  | .leaf l => if (match right with
      | .rd => l.rd
      | .w => l.w
      | .x => l.x) then none else some 0x0C
  | _ => some 0x0E

/-- The frame of n bytes holds a poisoned line: the MM has taken it out of allocation (13 R246). -/
def frameBad (s : State) (pa n : Nat) : Bool := s.plat.poison.any fun l => decide (l < pa + n ∧ pa < l + 128)

/-- A poisoned line lies among n bytes of a page; a page of a codec region has its errors in its slots. -/
def poisonedVa (s : State) (ctx va n : Nat) : Bool :=
  match walk s ctx va with
  | .leaf l => !l.cb && frameBad s (physOf l va) n
  | _ => false

/-! ### Fetch (04 R95, 03 R65) -/

inductive Fetched where
  | ok (i : Instr) (len : Nat)
  | bad (cause : Nat)
  deriving DecidableEq, Repr, Inhabited

/-- The pool region of a context that holds an address and is LOST (15 R257). -/
def lostAt (s : State) (ctx va : Nat) : Bool :=
  (s.ctx ctx).pools.any fun p => p.lost && decide (p.base ≤ va ∧ va < p.base + p.len)

/-- The port that the decoder of a pool region names. -/
def PoolRegion.portNow (s : State) (p : PoolRegion) : Nat :=
  match decoderAt s p.off with
  | some d => d.port
  | none => p.port

/-- The port behind an address of a context. -/
def portOf (s : State) (ctx va : Nat) : Nat :=
  match (s.ctx ctx).pools.find? fun p => decide (p.base ≤ va ∧ va < p.base + p.len) with
  | some p => p.portNow s
  | none => 0

/-- The link of a port is in L0. -/
def portUp (s : State) (p : Nat) : Bool := let x := s.ports.getD p default; x.up && !x.recovering && !x.lost

/-- What stops the fetch of one word. -/
def fetchFault (s : State) (l : Launch) (a : Nat) : Option Nat :=
  if a / 2 ^ 56 ≠ 0 ∨ a % 4 ≠ 0 then some 0x09
  else if !leaseOk l.ranges a 4 .x then some 0x0B
  else if lostAt s l.ctx a then some 0x18
  else (pageFault s l.ctx a .x).or (if poisonedVa s l.ctx a 4 then some 0x1A else none)

/-- The first fault of the words at a, a + 4, …. -/
def fetchFaults (s : State) (l : Launch) : Nat → Nat → Option Nat
  | 0, _ => none
  | n + 1, a => (fetchFault s l a).or (fetchFaults s l n (a + 4))

/-- The instruction at an address of a block: its later words first need their own fetch, then its encoding must be
legal (04 R108). The words are the newest visible at system scope (log 8). -/
def fetch (s : State) (b : Nat) (pc : DWord) : Fetched :=
  let l := s.launchOf b
  let a := pc.toNat
  match fetchFault s l a with
  | some c => .bad c
  | none =>
    let w0 := sysRead s l.ctx a 4
    let len := lenOf (BitVec.ofNat 32 (leNat w0))
    match fetchFaults s l (len / 4 - 1) (a + 4) with
    | some c => .bad c
    | none => match decode (w0 ++ sysRead s l.ctx (a + 4) (len - 4)) with
      | .ok i _ => .ok i len
      | .bad _ => .bad 0x01

/-! ### The descriptor of a tensor copy (07 R155, 20 R362) -/

def scratchBytes (s : State) (b : Nat) : Nat := (s.launchOf b).scratch

structure TDesc where
  base   : Nat
  esize  : Nat
  dir    : Nat
  dst    : Nat
  size   : List Nat
  stride : List Nat
  start  : List Int
  box    : List Nat
  deriving DecidableEq, Repr, Inhabited

def fieldN (d : List Byte) (off n : Nat) : Nat := leNat ((d.drop off).take n)

/-- The descriptor, where it keeps the rules of 07 Table 07.1. -/
def tdescOf (d : List Byte) : Option TDesc :=
  let rank := fieldN d 9 1
  let code := fieldN d 8 1
  let dims := List.range 7
  let size := dims.map fun i => fieldN d (0x10 + 4 * i) 4
  let stride := dims.map fun i => fieldN d (0x2C + 4 * i) 4
  let start := dims.map fun i => fieldN d (0x48 + 4 * i) 4
  let box := dims.map fun i => fieldN d (0x64 + 2 * i) 2
  let ok := decide (fieldN d 7 1 = 0 ∧ code ≤ 3 ∧ 1 ≤ rank ∧ rank ≤ 7 ∧ fieldN d 10 1 ≤ 1 ∧ fieldN d 11 1 = 0) &&
    fieldN d 0 8 % 2 ^ code = 0 && fieldN d 12 4 % 16 = 0 && fieldN d 0x72 14 = 0 &&
    dims.all fun i =>
      if i < rank then decide (1 ≤ box.getD i 0)
      else size.getD i 0 = 0 && stride.getD i 0 = 0 && start.getD i 0 = 0 && box.getD i 0 = 0
  if ok then
    some ⟨fieldN d 0 8, 2 ^ code, fieldN d 10 1, fieldN d 12 4, size.take rank, stride.take rank,
      (start.take rank).map (sextN · 32), box.take rank⟩
  else none

/-- The number of elements of the box. -/
def TDesc.count (d : TDesc) : Nat := d.box.foldl (· * ·) 1

/-- The address of element e of the box, dimension 0 fastest; none where a coordinate lies outside the tensor. -/
def elemFrom : Nat → Int → List Nat → List Nat → List Nat → List Int → Option Int
  | e, a, bx :: box, sz :: size, st :: stride, s0 :: start =>
    let c := s0 + (e % bx : Nat)
    if 0 ≤ c ∧ c < sz then elemFrom (e / bx) (a + c * st) box size stride start else none
  | _, a, _, _, _, _ => some a

def TDesc.elem (d : TDesc) (e : Nat) : Option Nat :=
  (elemFrom e d.base d.box d.size d.stride d.start).map Int.toNat

/-- The elements of the box that lie in the tensor, in order: number and address (07 R155). -/
def TDesc.elements (d : TDesc) : List (Nat × Nat) := (List.range d.count).filterMap fun e => (d.elem e).map fun va => (e, va)

/-- The first fault of the elements. -/
def elemFault (ranges : List Range) (d : TDesc) : Nat → Nat → Option (Nat × Nat)
  | 0, _ => none
  | n + 1, e =>
    match d.elem e with
    | some a => match globalFault ranges a d.esize d.esize [if d.dir = 0 then .rd else .w] with
      | some c => some (c, a)
      | none => elemFault ranges d n (e + 1)
    | none => elemFault ranges d n (e + 1)

/-- The fault of a thread's TCOPY as it issues: of the address of its descriptor, of the descriptor, of its box in scratch
and of its elements (20 R362; 07 R155). ADDR of the record is the descriptor's address for 0x01 and the box's for 0x0A (DESIGN
CHOICE, log 105). -/
def tcopyFault (f : EFields) (sh : Shape) (s : State) (b t : Nat) : Option (Nat × Nat) :=
  let a := opd f sh (s.thread b t).vals .ra
  match scratchFault (scratchBytes s b) a 128 16 with
  | some c => some (c, a)
  | none => match tdescOf (memRead (s.block b).scratch a 128) with
    | none => some (0x01, a)
    | some d =>
      if scratchBytes s b < d.dst + d.count * d.esize then some (0x0A, d.dst)
      else elemFault (s.launchOf b).ranges d d.count 0

/-! ### What a thread waits for (04 R87, R88; 02 Table 02.2) -/

/-- A write to an A register before its capture waits (06 R146). -/
def busyRegs (th : Thread) (ns : List Nat) : Bool :=
  th.aBusy.any fun a => ns.any fun n => decide (a.reg ≤ n ∧ n < a.reg + 8)

/-- Copies of a core in flight: lane transfers, tensor copies. -/
def copiesOn (s : State) (core : Nat) (tensor : Bool) : Nat :=
  (s.blocks.filter fun k => k.status = .placed && k.core = core).foldl
    (fun n k => n + (k.copies.filter fun c => (c.desc = []) != tensor).length) 0

/-- The packet before a launch that its gates concern: its state and, once it has started, its launch (03 R60). -/
def predOf (s : State) (l : Launch) : Option Packet := l.pred.bind fun n => (s.queue l.q).pkts[n]?

/-- The gate a `GATE` waits on is still closed (03 R60, 19 R318); a predecessor that has not started has closed gates. -/
def gateShut (s : State) (b g : Nat) : Bool :=
  match predOf s (s.launchOf b) with
  | some p => match p.launch with
    | some x => let l := s.launch x; l.stage != .done && !l.gates.getLsbD g
    | none => p.st != .rejected
  | none => false

/-- The spill area of an entry's context has room. -/
def spills (s : State) (e : SpawnEntry) : Bool := decide ((s.ctx (s.launch e.launch).ctx).spill.length < 16384)

/-- The die's spawn queue is full, and so is the spill area of every context with an entry in it (03 R68; log 85). -/
def spawnFull (s : State) (b : Nat) : Bool :=
  let q := (s.die ((s.block b).core / 40)).spawnQ
  decide (4096 ≤ q.length) && !q.any (spills s)

/-- A block of n threads fits an empty core (03 R70). -/
def fitsCore (l : Launch) (n : Nat) : Bool :=
  let w := l.wavesOf n
  decide (w ≤ 64 ∧ w * 32 * l.regs * 4 ≤ 2 ^ 20 ∧ l.scratch ≤ 2 ^ 19 ∧ l.tiles ≤ 24)

/-- Fault 0x24 of a `SPAWN` of n blocks of m threads (03 R67). -/
def spawnFault (l : Launch) (n m : Nat) : Bool :=
  n ≠ 0 && (decide (65536 < n ∨ (0 < l.span ∧ n % l.span ≠ 0) ∨ m < 1 ∨ 1024 < m ∨ 2 ^ 32 < l.next + n) || !fitsCore l m)

/-- A thread at a `SPAWN` with a true guard, its operands there, has no room for its entry. -/
def spawnHeld (s : State) (b t : Nat) (f : EFields) (sh : Shape) : Bool :=
  let v := (s.thread b t).vals
  guardOf f v && !srcWait f sh v && !dstWait f sh v && opd f sh v .ra ≠ 0 &&
    !spawnFault (s.launchOf b) (opd f sh v .ra) (opd f sh v .rb) && spawnFull s b

/-- An entry of scratch reaches a granule. -/
def touchesGran (o : MemOp) (g : Nat) : Bool := o.scratch && decide (o.gran ≤ g ∧ g < o.gran + o.reach)

/-- Scratch entries of lower sub-cores that were issued in this cycle come first (01 R17). -/
def scratchFirst (s : State) (b t : Nat) : Bool :=
  let k := s.block b
  (tidsOf k).any fun t' => (s.thread b t').ops.any fun o =>
    o.scratch && o.cyc = s.coreCycle k.core && decide (o.sub < subOf k (s.thread b t).pwave) && unheld (s.thread b t') o

/-- Requests of lower sub-cores that were issued in this cycle are still to reach the L1 (01 R17). -/
def l1Busy (s : State) (b t : Nat) : Bool :=
  let core := (s.block b).core
  (List.range s.blocks.length).any fun b' => (s.block b').status = .placed && (s.block b').core = core &&
    (tidsOf (s.block b')).any fun t' => (s.thread b' t').ops.any fun p =>
      p.cyc = s.coreCycle core && decide (p.sub < subOf (s.block b) (s.thread b t).pwave) && !p.scratch && p.isAccess && p.fill = .idle

/-- A read that empties the granule has issued and has not taken its step (08 Table 08.5). -/
def claimed (s : State) (b g : Nat) : Bool :=
  (tidsOf (s.block b)).any fun t => (s.thread b t).ops.any fun o => o.tag.clears && touchesGran o g

/-- An `LDS` that waits for the full/empty bit: the granule is EMPTY, or older entries are to decide its bit, of the thread
itself, of an `LDS.c` or `LDS.wc` that empties it, of lower sub-cores in this cycle (19 R327, R344; log 90). -/
def ldsHeld (s : State) (b t g : Nat) : Bool :=
  !(sget true g (s.block b).fe) || claimed s b g || (s.thread b t).ops.any (touchesGran · g) || scratchFirst s b t

/-- The descriptor of a `TCOPY` is read as it issues: older accesses of the thread to it come first (20 R362), an older `LDC`
where its address is tainted (09 R189), and those of lower sub-cores in this cycle. -/
def descHeld (s : State) (b t a : Nat) (taint : Bool) : Bool :=
  ((List.range 8).any fun i => (s.thread b t).ops.any fun o => o.acquires || touchesGran o (a / 16 + i)) ||
    (taint && (s.thread b t).ops.any fun o => o.consume.isSome) || scratchFirst s b t

/-- A producer that may set flags when it completes (05 R121). -/
def Prod.flags (p : Prod) : Bool := match p.val with
  | .sfu .. => true
  | _ => false

/-- Special functions in flight (05 R122). -/
def flagsPending (th : Thread) : Bool := th.prods.any Prod.flags

/-- A literal offset of a base form must be a multiple of 4 (04 R97). The record's ADDR is that offset (DESIGN CHOICE, log
96). -/
def literalFault (i : Instr) : Option (Nat × Nat) :=
  match i with
  | .ldsBaseLiteral _ _ l | .stsBaseLiteral _ _ l => if l.toNat % 4 = 0 then none else some (0x09, l.toNat)
  | _ => none

/-- A thread that has signed waits with a scratch store until the captures of its instances, once the store's address is
right (06 R146; 20 R358). -/
def signHolds (s : State) (b t : Nat) (i : Instr) (f : EFields) (sh : Shape) (unit size align : Nat) : Bool :=
  let th := s.thread b t
  th.aBusy != [] && (literalFault i).isNone && (scratchFault (scratchBytes s b) (scratchAddr f sh unit th.vals) size align).isNone

/-- Reads of a tile by threads of a home wave that have not completed (06 R150). -/
def aldPending (s : State) (b w tile : Nat) : Bool :=
  let l := s.launchOf b
  (tidsOf (s.block b)).any fun t => decide (homeWave l t = w) && (s.thread b t).prods.any fun p =>
    match p.val with
    | .tile x _ => x = tile
    | _ => false

/-- Waits of one instruction beyond its operands, for a thread with a true guard. What a scratch access checks comes before
its wait (18 R290, R308; 19 R327; 20 R358). -/
def extraWait (i : Instr) (s : State) (b : Nat) (tids : List Nat) (t : Nat) : Bool :=
  let k := s.block b
  let l := s.launchOf b
  let th := s.thread b t
  let (f, sh) := fieldsOf i
  match i with
  | .exit _ | .exitBase => th.vals.regs.any fun r => r.av = .empty
  | .lds _ =>
    let v := f.mod.toNat / 16
    let g := scratchAddr f sh (sizeOf f) th.vals / 16
    (v = 1 || v = 3) && (scratchFault (scratchBytes s b) (scratchAddr f sh (sizeOf f) th.vals) (sizeOf f) (sizeOf f)).isNone &&
      ldsHeld s b t g
  | .sts _ | .stsBase .. | .stsBaseLiteral .. | .atoms _ => signHolds s b t i f sh (sizeOf f) (sizeOf f) (sizeOf f)
  | .feset _ => signHolds s b t i f sh 16 (16 * opd f sh th.vals .re) 16
  | .acwait _ => ((k.waves.getD (homeWave l t) default).tagsS.getD f.mod.toNat 0) != 0
  | .mwait _ => th.signed.any fun x => x.1 = f.rd.toNat
  | .gate _ => gateShut s b f.rd.toNat || l1Busy s b t
  | .spawn _ => (tids.takeWhile fun x => decide (x ≠ t)).any (fun x => spawnHeld s b x f sh) || spawnHeld s b t f sh
  | .acp _ =>
    let n := (tids.filter fun t => let v := (s.thread b t).vals; guardOf f v && !srcWait f sh v).length
    scratchFirst s b t || decide (1024 < copiesOn s k.core false + n)
  | .tcopy _ =>
    let a := opd f sh th.vals .ra
    descHeld s b t a (runTaint (fieldRun f sh th.vals .ra))
  | .cctl _ => l1Busy s b t
  | .swrite _ => f.re = 0x11 && flagsPending th
  | .tkput _ => aldPending s b (homeWave l t) f.rd.toNat
  | _ => false

/-- The A run of a signer that its rank's latched row replaces: it is not read and has no FE (06 R147). -/
def latchCovers (k : Block) (cv : Nat) (t reg : Nat) : Bool :=
  let c := k.cvs.getD cv default
  match c.set with
  | some (first, n) => decide (first ≤ t ∧ t < first + n) && c.latch.any fun r => r.1 = t - first && r.2 = reg
  | none => false

/-- The shape of an instruction as one thread meets it: an `MMA` whose A row is latched reads no A registers. -/
def threadShape (i : Instr) (s : State) (b t : Nat) : EFields × Shape :=
  let (f, sh) := fieldsOf i
  match i with
  | .mma _ => if latchCovers (s.block b) f.rc.toNat t f.ra.toNat then ({ f with fe := f.fe &&& 0b1110 }, { sh with ra := .zero }) else (f, sh)
  | _ => (f, sh)

/-- Whether a thread at an instruction waits, its guard true. -/
def operandWait (i : Instr) (s : State) (b t : Nat) : Bool :=
  let th := s.thread b t
  let (f, sh) := threadShape i s b t
  srcWait f sh th.vals || dstWait f sh th.vals || busyRegs th (dstRegs f sh)

def threadGuard (i : Instr) (s : State) (b t : Nat) : Bool := guardOf (fieldsOf i).1 (s.thread b t).vals

def threadWaits (i : Instr) (s : State) (b : Nat) (tids : List Nat) (t : Nat) : Bool :=
  threadGuard i s b t && (operandWait i s b t || extraWait i s b tids t)

/-- Fault 0x08 of a thread with a true guard (04 R87). -/
def threadNotReady (i : Instr) (s : State) (b t : Nat) : Bool :=
  let (f, sh) := threadShape i s b t
  srcFault f sh (s.thread b t).vals

/-! ### The shared execution -/

/-- The instructions whose condition and target the shadow lanes compare (02 R49, 18 R281). -/
def isBranch : Instr → Bool
  | .bra _ | .braBase _ | .brx _ | .call _ | .callx _ | .ret _ => true
  | _ => false

/-- A branch whose guard differs between the lanes of a pair (02 R49). -/
def guardDiffers (i : Instr) (th : Thread) : Bool :=
  isBranch i && match th.shadow with
  | some v => guardOf (fieldsOf i).1 v != guardOf (fieldsOf i).1 th.vals
  | none => false

/-- A value the lanes of a pair compute differently. -/
def lanesDiffer (th : Thread) (f : Vals → List Nat) : Bool :=
  match th.shadow with
  | some v => f v != f th.vals
  | none => false

def stampThread (cycle : Nat) (th : Thread) : Thread := { th with stamp := cycle }

/-- A thread in one of these states belongs to a PC group (02 R35). -/
def TState.grouped : TState → Bool
  | .held => false
  | .exited => false
  | _ => true

/-- The bookkeeping of an issue (02 R36, 13 R234): the part that holds the lowest lane still in a group stays the current
group (of an issue that some threads of the group did not make, DESIGN CHOICE, log 79); YLD ends its run. -/
def noteIssue (yld : Bool) (s : State) : State :=
  let c := s.cur
  let cur := (c.tids.find? fun t => (s.thread c.block t).st.grouped).map fun t => (s.thread c.block t).pc
  modBlock c.block (fun k => { k with
    issues := k.issues + 1
    pwaves := modAt (fun w => { w with cur := cur, run := if yld then 64 else w.run + 1, lastIssue := some s.cur.cyc }) c.pwave k.pwaves }) s

/-- Raises the precise faults of an instruction; a shadow mismatch among them rolls the block back where its interval
allows it, and then nothing of the instruction has taken place (13 R244). -/
def issueFaults (b : Nat) (pc : DWord) (fs : List (Nat × Nat × Nat)) (s : State) : State :=
  let pairs := fs.filter fun f => f.2.1 = 0x1C
  if pairs ≠ [] ∧ canRollBack (s.block b) then rollBack b 0x1C (pairs.map Prod.fst) pc 0 s else raiseFaults b pc fs s

/-- The faults of the threads of the group, entry by entry: thread, cause, address. -/
def groupFaults (i : Instr) (faultOf : State → Nat → Nat → Option (Nat × Nat)) (s : State) : List (Nat × Nat × Nat) :=
  let b := s.cur.block
  s.cur.tids.filterMap fun t =>
    if guardDiffers i (s.thread b t) then some (t, 0x1C, 0)
    else if !threadGuard i s b t then none
    else if threadNotReady i s b t then some (t, 0x08, 0)
    else if threadWaits i s b s.cur.tids t then none
    else (faultOf s b t).map fun p => (t, p.1, p.2)

/-- One thread goes on: its pc passes the instruction, then the instruction acts, if its guard is true. -/
def goThread (i : Instr) (act : Nat → Nat → State → State) (s : State) (t : Nat) : State :=
  let b := s.cur.block
  let on := threadGuard i s b t
  let s' := modThread b t (fun th => stampThread s.cur.cyc (advancePc s.cur.len th)) s
  if on then act b t s' else s'

/-- THE SHARED EXECUTION OF AN INSTRUCTION by the lanes of the current group: fault 0x02 for the group (04 R83), the
faults of the threads, all of them without effect if any faults (13 R229), the waits, then the threads that go on in
ascending home lane, each by `go`. -/
def laneExecBy (i : Instr) (faultOf : State → Nat → Nat → Option (Nat × Nat)) (go : State → Nat → State) (s : State) :
    Result :=
  let b := s.cur.block
  let (f, sh) := fieldsOf i
  if !rangeOk f sh (s.launchOf b).regs then .next (raiseCause b 0x02 s.cur.tids s.cur.pc 0 s)
  else
    let fs := groupFaults i faultOf s
    if fs ≠ [] then .next (issueFaults b s.cur.pc fs s)
    else
      let ts := s.cur.tids.filter fun t => !threadWaits i s b s.cur.tids t
      if ts = [] then .next s
      else .next (noteIssue f.yld (ts.foldl go s))

/-- The usual form: every thread passes the instruction, and those with a true guard act. -/
def laneExec (i : Instr) (faultOf : State → Nat → Nat → Option (Nat × Nat)) (act : Nat → Nat → State → State) :
    State → Result := laneExecBy i faultOf (goThread i act)

def noFault : State → Nat → Nat → Option (Nat × Nat) := fun _ _ _ => none

/-! ### Results -/

/-- Writes the destination of one lane: registers, or a predicate (04 R104). -/
def writeDst (f : EFields) (sh : Shape) (v : Vals) (res : Nat) (taint : Bool) : Vals :=
  if sh.dst then v.write f.rd.toNat (wordsOf (useAt sh .rd).count res) taint
  else if sh.rd = .idx4 then v.setPred f.rd.toNat (res != 0) else v

/-- An operation of one lane: from the fields, the lane, the rounding mode and the sources to a result and flags. -/
abbrev AluOp := EFields → Vals → Nat → List Nat → Nat × Nat

def aluLane (f : EFields) (sh : Shape) (rm : Nat) (op : AluOp) (v : Vals) : Vals :=
  writeDst f sh v (op f v rm (opds f sh v)).1 (srcTaint f sh v)

/-- One thread of an arithmetic instruction: both lanes write, the flags merge (05 R121). -/
def aluThread (f : EFields) (sh : Shape) (op : AluOp) (th : Thread) : Thread :=
  let rm := rmOf f.rm th.rm
  let fl := (op f th.vals rm (opds f sh th.vals)).2
  { onLanes (aluLane f sh rm op) th with flags := mergeFlags th.flags (BitVec.ofNat 5 fl) }

/-- An arithmetic instruction at a fixed latency (04 R86). -/
def aluExec (i : Instr) (op : AluOp) (s : State) : Result :=
  let (f, sh) := fieldsOf i
  laneExec i noFault (fun b t => modThread b t (aluThread f sh op)) s

/-- An instruction that leaves its destination EMPTY and whose result is known as it issues (04 Table 04.1). -/
def producerThread (f : EFields) (sh : Shape) (pc : DWord) (val : ProdVal) (th : Thread) : Thread :=
  startProd ⟨th.nextId, dstRegs f sh, val, srcTaint f sh th.vals, false, pc⟩ th

/-! ### PC groups (02 R35, R36) -/

/-- The lanes of a physical wave in ascending home lane. -/
def waveTids (s : State) (b w : Nat) : List Nat :=
  let l := s.launchOf b
  sortBy (fun a c => decide (homeLane l a ≤ homeLane l c)) ((tidsOf (s.block b)).filter fun t => (s.thread b t).pwave = w)

/-- The threads of a PC group. -/
def groupTids (s : State) (b w : Nat) (pc : DWord) : List Nat :=
  (waveTids s b w).filter fun t => (s.thread b t).st.grouped && (s.thread b t).pc = pc

/-- Those of them that can issue: not waiting in an arrival. -/
def readyTids (s : State) (b w : Nat) (pc : DWord) : List Nat :=
  (groupTids s b w pc).filter fun t => (s.thread b t).st = .ready

/-- A thread that stands at its meeting address with `mt` set: the meeting is judged before anything issues (02 R31). -/
def atMeeting (th : Thread) : Bool := th.st = .ready && th.mt != 0 && th.mt = th.pc

/-- The group is held back after its last issue: the interlock and STALL (04 R86, R100; log 80). -/
def interlocked (s : State) (b w : Nat) (pc : DWord) : Bool :=
  let last := ((readyTids s b w pc).map fun t => (s.thread b t).stamp).foldl max 0
  last ≠ 0 && decide (s.coreCycle (s.block b).core ≤ last + (Config.issueGap b w last).toNat)

/-- The threads of a group for which its instruction can issue: a fault issues too. -/
def issuable (s : State) (b w : Nat) (pc : DWord) : List Nat :=
  let tids := readyTids s b w pc
  match fetch s b pc with
  | .bad _ => tids
  | .ok i _ =>
    let (f, sh) := fieldsOf i
    if rangeOk f sh (s.launchOf b).regs then tids.filter fun t =>
      (threadGuard i s b t && threadNotReady i s b t) || guardDiffers i (s.thread b t) || !threadWaits i s b tids t
    else tids

/-- Whether an instruction can issue for some thread. -/
def groupReady (s : State) (b w : Nat) (pc : DWord) : Bool :=
  let tids := readyTids s b w pc
  tids != [] && !interlocked s b w pc && (tids.any (fun t => atMeeting (s.thread b t)) || issuable s b w pc != [])

/-- The groups of a physical wave, by their pc, lowest lane first. -/
def groupPcs (s : State) (b w : Nat) : List DWord :=
  (((waveTids s b w).filter fun t => (s.thread b t).st.grouped).map fun t => (s.thread b t).pc).eraseDups

def readyPcs (s : State) (b w : Nat) : List DWord := (groupPcs s b w).filter (groupReady s b w)

/-- The oldest stamp of a ready group (02 R36): of its threads that can issue, so that one which waits at the pc does not make the
group old (02 R37); also of a group that the threads of a meeting slot form as they are released (DESIGN CHOICE, log 79). -/
def groupStamp (s : State) (b w : Nat) (pc : DWord) : Nat :=
  let ts := issuable s b w pc
  (minNat ((if ts = [] then groupTids s b w pc else ts).map fun t => (s.thread b t).stamp)).getD 0

/-- The group that issues: the current one while it is ready and its run is short, else the ready one whose last issue
is oldest; the lowest lane first among equals, and of equal lanes of different home waves the lower `TID` (DESIGN CHOICE,
log 79). -/
def pickGroup (s : State) (b w : Nat) : Option DWord :=
  let pw := (s.block b).pwaves.getD w default
  match pw.cur with
  | some pc => if groupReady s b w pc && decide (pw.run < 64) then some pc else leastBy (groupStamp s b w) (readyPcs s b w)
  | none => leastBy (groupStamp s b w) (readyPcs s b w)

def waveReady (s : State) (b w : Nat) : Bool := (readyPcs s b w) != []

/-- The context of a block may run: its partition's halt line is down and nothing stops it (13 R227). -/
def blockRuns (s : State) (b : Nat) : Bool :=
  let k := s.block b
  k.status = .placed && !(s.ctx (ctxOf s b)).halted && (k.method = .none || k.method = .drain) &&
    s.plat.winter = .running && match partOf s k.core with
    | some p => ((s.parts.getD p default).halt = none) && (s.parts.getD p default).ctx = some (ctxOf s b)
    | none => false

end Sys2Proof.Machine
end

