-- ==== Sys2Proof/Machine/Control.lean ====
section
/-!
DEFINITION. The control class: transfers, meetings, exit, barriers, traps, spawning, gates (02 R27-R36, R45; 03 R60,
R66-R69, R77; 18 R281, R291, R294, R296-R298, R303; 19 R318, R329, R331, R332; 20 R348, R349, R353, R366).
-/

namespace Sys2Proof.Machine

open Sys2Proof

/-! ### Lines that leave, and what the coherence classes ask of the caches (08 R164, Tables 08.3, 08.4; 03 R78) -/

/-- A line leaves the L1: its identity enters the victim tags, which replace their oldest (03 R78). -/
def addVictim (core : Nat) (l : Line) : State → State :=
  modCore core fun c =>
    let v := c.victims ++ [(l.ctx, l.addr, l.filler)]
    { c with victims := v.drop (v.length - 4096) }

/-- A line that leaves a remote-data cache takes the HARD and POOL copies of its die's L1s along (08 R164). -/
def underGone (lines : List Line) (gone : Line → Bool) (x : Line) : Bool :=
  (x.coh = .hard || x.coh = .pool) && match x.place with
    | .l1 c => lines.any fun y => y.place = .rdc (c / 40) && y.ctx = x.ctx && y.addr = x.addr && gone y
    | _ => false

/-- LINES LEAVE THEIR CACHES, by whatever cause. -/
def removeLines (gone : Line → Bool) (s : State) : State :=
  let out := fun (x : Line) => gone x || underGone s.lines gone x
  (s.lines.filter out).foldl (fun s l => match l.place with
    | .l1 c => addVictim c l s
    | _ => s) { s with lines := s.lines.filter fun x => !out x }

/-- The caches below the place of a scope that serve a core, for a line of a class: a POOL line's place at `.dev` and
`.pool` is the remote-data cache itself (08 Table 08.4). -/
def below (sc : Scope) (coh : Coh) (core : Nat) : Place → Bool
  | .l1 c => sc != .blk && c = core
  | .rdc d => (sc = .sys || (coh != .pool && (sc = .dev || sc = .pool))) && d = core / 40
  | .l2 _ => false

/-- The caches below the place of a scope, wherever they are. -/
def belowAny (sc : Scope) : Place → Bool
  | .l1 _ => sc != .blk
  | .rdc _ => sc = .dev || sc = .pool || sc = .sys
  | .l2 _ => false

def Place.isL2 : Place → Bool
  | .l2 _ => true
  | _ => false

/-- The copy of a line that takes what is written back from another: of an L1, that of its die's remote-data cache where it
has one, else that of an L2 (08 Table 08.2). -/
def takesFrom (s : State) (l x : Line) : Bool :=
  x.ctx = l.ctx && x.addr = l.addr && match l.place, x.place with
    | .l1 c, .rdc d => d = c / 40
    | .l1 c, .l2 _ => !s.lines.any fun y => y.place = .rdc (c / 40) && y.ctx = l.ctx && y.addr = l.addr
    | .rdc _, .l2 _ => true
    | _, _ => false

/-- A line is written back: it is clean, and the copy below it holds the data. -/
def writeBackLine (s : State) (l : Line) : State :=
  { s with lines := s.lines.map fun x =>
      if x.place = l.place && x.ctx = l.ctx && x.addr = l.addr then { x with dirty := false }
      else if takesFrom s l x then { x with dirty := true } else x }

/-- Dirty PRIV and SOFT lines above the L2 are written back, out of the L1s first. -/
def writeBackLines (p : Line → Bool) (s : State) : State :=
  let mine := fun (l1 : Bool) (l : Line) => l.dirty && (l.coh = .priv || l.coh = .soft) && p l && match l.place with
    | .l1 _ => l1
    | .rdc _ => !l1
    | .l2 _ => false
  let s := (s.lines.filter (mine true)).foldl writeBackLine s
  (s.lines.filter (mine false)).foldl writeBackLine s

/-- A release at a scope writes back every dirty SOFT line of the context below its place. -/
def cacheRelease (b : Nat) (sc : Scope) (s : State) : State :=
  let ctx := ctxOf s b
  writeBackLines (fun l => l.ctx = ctx && l.coh = .soft && belowAny sc l.place) s

/-- The line of an item: context and address. -/
def Item.inLine (ctx addr : Nat) (x : Item) : Bool := x.gran.any fun g => g / 8 = (ctx * 2 ^ 56 + addr) / 128

/-- The stores that a dirty POOL line holds reach the device. -/
def reachDevice (l : Line) (s : State) : State :=
  if l.coh = .pool && l.dirty then
    { s with items := modIf (Item.inLine l.ctx l.addr) (fun x => { x with written := true }) s.items }
  else s

/-- Lines leave their caches; what they hold for the pool reaches its device. -/
def recallLines (p : Line → Bool) (s : State) : State := removeLines p ((s.lines.filter p).foldl (fun s l => reachDevice l s) s)

/-- What a recall would take from a cache waits for the link of its port (15 R252, R262). -/
def recallHeld (s : State) (p : Line → Bool) : Bool := s.lines.any fun l => p l && l.coh = .pool && l.dirty && !portUp s (portOf s l.ctx l.addr)

/-- An acquire at a scope invalidates clean SOFT lines of the context below its place. -/
def cacheAcquire (b : Nat) (sc : Scope) (s : State) : State :=
  let ctx := ctxOf s b
  let core := (s.block b).core
  removeLines (fun l => l.ctx = ctx && l.coh = .soft && below sc l.coh core l.place && !l.dirty) s

/-- The copies of a HARD or POOL line that a store of a block which reaches a scope from .dev on invalidates: every other
sharer's. -/
def otherSharer (b : Nat) (sc : Scope) (ctx va : Nat) (s : State) (l : Line) : Bool :=
  let core := (s.block b).core
  let other := match l.place with
    | .l1 c => c != core
    | .rdc d => d != core / 40
    | .l2 _ => false
  decide (2 ≤ sc.rank) && l.ctx = ctx && l.addr = va / 128 * 128 && (l.coh = .hard || l.coh = .pool) && other

def dropSharers (b : Nat) (sc : Scope) (ctx va : Nat) (s : State) : State :=
  if sc.rank < 2 then s else recallLines (otherSharer b sc ctx va s) s

/-- The thread's later accesses follow this step. -/
def orderHere (b t : Nat) (s : State) : State := modThread b t (fun th => { th with orderPt := s.now }) s

/-- An acquire part has taken its step: at .sys it is the block's latest (08 R162). -/
def noteAcq (b t : Nat) (sc : Scope) (s : State) : State :=
  let s := cacheAcquire b sc (orderHere b t s)
  if sc = .sys then modBlock b (fun k => { k with sysAcq := s.now }) s else s

/-! ### Rollback intervals (13 R243) -/

/-- The log is performed: its stores, visible in the block already, widen from here on, in the order of the log (13
R242). -/
def Block.performLog (k : Block) : Block := { k with log := [], logBytes := 0, performed := k.performed ++ k.log }

/-- The interval becomes not rollbackable, after its log. -/
def endInterval (b : Nat) : State → State := modBlock b fun k => { k.performLog with rollable := false }

/-! ### Entries of the operation queue that are no accesses -/

/-- The sub-core that issues, for a block. -/
def curSub (s : State) (b : Nat) : Nat := subOf (s.block b) s.cur.pwave

def baseOp (th : Thread) (kind : OpKind) (pc : DWord) (iss cyc sub : Nat) : MemOp :=
  { id := th.nextId, kind := kind, scratch := false, addr := 0, va := 0, alias_ := false, size := 0, acq := none, rel := none, consume := none,
    scp := .blk, taint := false, data := [], sext := false, prod := none, tag := .none, fill := .done, priv := false,
    pc := pc, iss := iss, cyc := cyc, sub := sub, left := cyc }

def pushOp (o : MemOp) (th : Thread) : Thread := { th with ops := th.ops ++ [o], nextId := th.nextId + 1 }

/-- A release event of a thread enters its queue (09 Table 09.2). -/
def pushRelease (b t : Nat) (sc : Scope) (tag : OpTag) (s : State) : State :=
  modThread b t (fun th =>
    pushOp { baseOp th .release s.cur.pc (s.block b).issues s.cur.cyc (curSub s b) with rel := some sc, tag := tag } th) s

/-! ### Compaction (02 R45-R47): the device may permute the quads of a COMPACT block at a branch -/

def placeOf (th : Thread) : Nat := th.pwave * 8 + th.slot / 4

def swapPlaces (p q : Nat) (k : Block) : Block :=
  { k with threads := k.threads.map fun th =>
      if placeOf th = p then { th with pwave := q / 8, slot := q % 8 * 4 + th.slot % 4 }
      else if placeOf th = q then { th with pwave := p / 8, slot := p % 8 * 4 + th.slot % 4 }
      else th }

/-- One exchange for each place, its partner a free value (log 7). -/
def compactFrom (b : Nat) : Nat → State → State
  | 0, s => s
  | p + 1, s =>
    let (n, s) := s.fresh
    let places := 8 * (s.block b).pwaves.length
    compactFrom b p (modBlock b (swapPlaces p ((Config.freeWord n).toNat % places)) s)

def compactMove (s : State) : State :=
  let b := s.cur.block
  if (s.launchOf b).compact then compactFrom b (8 * (s.block b).pwaves.length) s else s

/-! ### Transfers (18 R281) -/

/-- The address after the current instruction. -/
def nextPc (s : State) : Nat := (s.cur.pc + BitVec.ofNat 64 s.cur.len).toNat

/-- Some thread executes the branch: nothing faults, and a true guard goes on (02 R45; 04 R99). -/
def branches (i : Instr) (faultOf : State → Nat → Nat → Option (Nat × Nat)) (s : State) : Bool :=
  let b := s.cur.block
  let (f, sh) := fieldsOf i
  rangeOk f sh (s.launchOf b).regs && groupFaults i faultOf s = [] &&
    s.cur.tids.any fun t => threadGuard i s b t && !threadWaits i s b s.cur.tids t

/-- A transfer of each thread to its target, with a return address for the calls. A bad target comes before a difference of
the pair's lanes (DESIGN CHOICE, log 91). -/
def transfer (i : Instr) (target : EFields → Shape → Vals → Nat) (s : State) : Result :=
  let (f, sh) := fieldsOf i
  let faultOf := fun (s : State) (b t : Nat) =>
    let th := s.thread b t
    let a := target f sh th.vals
    if !codeOk a then some (0x09, a) else if lanesDiffer th (fun v => [target f sh v]) then some (0x1C, 0) else none
  let act := fun (b t : Nat) (s : State) =>
    modThread b t (fun th => { onLanes (fun v => writeDst f sh v (nextPc s) (srcTaint f sh v)) th with
      pc := BitVec.ofNat 64 (target f sh th.vals) }) s
  match laneExec i faultOf act s with
  | .next s' => .next (if branches i faultOf s then compactMove s' else s')
  | r => r

def labelOf (s : State) : EFields → Shape → Vals → Nat := fun f _ _ => labelTarget f (nextPc s)
def registerOf : EFields → Shape → Vals → Nat := fun f sh v => opd f sh v .ra

def execBraBase (o : BitVec 24) (s : State) : Result := transfer (.braBase o) (labelOf s) s
def execBra (f : EFields) (s : State) : Result := transfer (.bra f) (labelOf s) s
def execBrx (f : EFields) (s : State) : Result := transfer (.brx f) registerOf s
def execCall (f : EFields) (s : State) : Result := transfer (.call f) (labelOf s) s
def execCallx (f : EFields) (s : State) : Result := transfer (.callx f) registerOf s
def execRet (f : EFields) (s : State) : Result := transfer (.ret f) registerOf s

/-! ### Meetings (02 R27-R34) -/

abbrev Slots := List (DWord × BitVec 32)

def slotBit (lane : Nat) : BitVec 32 := (1#32) <<< lane

def hasSlot (key : DWord) (sl : Slots) : Bool := sl.any fun e => e.1 = key
def hasFree (sl : Slots) : Bool := sl.any fun e => e.1 = 0

/-- Changes the first slot with a key. -/
def modSlot (key : DWord) (f : DWord × BitVec 32 → DWord × BitVec 32) : Slots → Slots
  | [] => []
  | e :: r => if e.1 = key then f e :: r else e :: modSlot key f r

/-- Enrols a lane: in the slot of the key, or in a free one (02 R29). -/
def enrol (key : DWord) (lane : Nat) (sl : Slots) : Slots :=
  if hasSlot key sl then modSlot key (fun e => (e.1, e.2 ||| slotBit lane)) sl
  else modSlot 0 (fun _ => (key, slotBit lane)) sl

def enrolled (key : DWord) (lane : Nat) (sl : Slots) : Bool := sl.any fun e => e.1 = key && e.2.getLsbD lane

/-- A lane leaves every mask, and an empty slot is freed (02 R34). -/
def leaveSlots (lane : Nat) (sl : Slots) : Slots :=
  sl.map fun e => let m := e.2 &&& ~~~slotBit lane; if m = 0 then (0, 0) else (e.1, m)

/-- The lanes of a slot are all held at its key or gone (02 R31). -/
def slotMet (s : State) (b w : Nat) (e : DWord × BitVec 32) : Bool :=
  let n := (s.launchOf b).lanes
  e.1 != 0 && (List.range n).all fun l => !e.2.getLsbD l ||
    (let th := s.thread b (w * n + l)
     th.st = .exited || (th.st = .held && th.pc = e.1))

/-- Releases the slot of a key: its threads resume with no meeting address. -/
def releaseSlot (b w : Nat) (e : DWord × BitVec 32) (s : State) : State :=
  let n := (s.launchOf b).lanes
  let s := modWave b w (fun v => { v with slots := modSlot e.1 (fun _ => (0, 0)) v.slots }) s
  (List.range n).foldl (fun s l =>
    if e.2.getLsbD l then modThread b (w * n + l) (fun th =>
      if th.st = .held then { th with st := .ready, mt := 0 } else th) s else s) s

/-- Judges every open slot of a home wave. -/
def releaseMet (b w : Nat) (s : State) : State :=
  ((s.block b).waves.getD w default).slots.foldl (fun s e => if slotMet s b w e then releaseSlot b w e s else s) s

/-- `MEET` (19 R331). -/
def execMeet (f : EFields) (s : State) : Result :=
  let sh := shapeOf (.meet f)
  let key := labelTarget f (nextPc s)
  let keyW : DWord := BitVec.ofNat 64 key
  let faultOf := fun (s : State) (b t : Nat) =>
    let sl := ((s.block b).waves.getD (homeWave (s.launchOf b) t) default).slots
    if key / 2 ^ 56 ≠ 0 then some (0x09, key)
    else if key ≠ 0 && !hasSlot keyW sl && !hasFree sl then some (0x07, 0) else none
  let act := fun (b t : Nat) (s : State) =>
    let l := s.launchOf b
    let s := if key = 0 then s else modWave b (homeWave l t) (fun v => { v with slots := enrol keyW (homeLane l t) v.slots }) s
    modThread b t (fun th => { onLanes (fun v => writeDst f sh v th.mt.toNat false) th with mt := keyW }) s
  laneExec (.meet f) faultOf act s

/-- `MEETX` (19 R332): 0 or a code address. -/
def execMeetx (f : EFields) (s : State) : Result :=
  let sh := shapeOf (.meetx f)
  laneExec (.meetx f)
    (fun s b t => let a := opd f sh (s.thread b t).vals .ra; if codeOk a then none else some (0x09, a))
    (fun b t => modThread b t fun th => { th with mt := BitVec.ofNat 64 (opd f sh th.vals .ra) }) s

/-- MEETING_ARRIVAL (02 R31, R32): the threads of physical wave w that fetch at their meeting address are held, or lose
an `mt` at which they are not enrolled; a group of which some are held is current no longer (02 R36); then every slot they
could complete is judged. -/
def execMeetingArrival (b w : Nat) (pc : DWord) (s : State) : Result :=
  let l := s.launchOf b
  let ts := (groupTids s b w pc).filter fun t => atMeeting (s.thread b t)
  let s' := ts.foldl (fun s t =>
    let sl := ((s.block b).waves.getD (homeWave l t) default).slots
    modThread b t (fun th => if enrolled pc (homeLane l t) sl then { th with st := .held } else { th with mt := 0 }) s) s
  let s' := if ts.any fun t => (s'.thread b t).st = .held then
      modPWave b w (fun p => if p.cur = some pc then { p with cur := none, run := 0 } else p) s'
    else s'
  .next ((ts.map (homeWave l)).eraseDups.foldl (fun s hw => releaseMet b hw s) s')

/-! ### Exit (18 R303) -/

/-- The tokens of a home wave return to the engine (06 R150). -/
def returnTokens (b w : Nat) : State → State :=
  modBlock b fun k => { k with tiles := k.tiles.map fun t =>
    { t with owner := if t.owner = some w then none else t.owner, reqs := t.reqs.filter (·.wave ≠ w) } }

/-- The victim tags of a wave lose their owner (03 R78). -/
def dropOwner (b w : Nat) (s : State) : State :=
  modCore (s.block b).core (fun c => { c with victims := c.victims.map fun v =>
    (v.1, v.2.1, if v.2.2 = some (b, w) then none else v.2.2) }) s

/-- At the end of a cycle the lanes that have exited leave the slots of their wave, and its open slots are judged: an
enrolment of that cycle comes first (02 R34, 19 R344). -/
def sweepSlots (b : Nat) (s : State) : State :=
  let n := (s.launchOf b).lanes
  (List.range (s.block b).waves.length).foldl (fun s w =>
    if ((s.block b).waves.getD w default).slots.all (fun e => e.1 = 0) then s
    else
      let gone := (List.range n).filter fun l => (s.thread b (w * n + l)).st = .exited
      releaseMet b w (modWave b w (fun v => { v with slots := gone.foldl (fun sl l => leaveSlots l sl) v.slots }) s)) s

def exitThread (b t : Nat) (s : State) : State :=
  let l := s.launchOf b
  let w := homeWave l t
  let s := modThread b t (fun th => { th with st := .exited, mt := 0 }) s
  let s := if laneMask s b w = 0 then dropOwner b w (returnTokens b w s) else s
  if (s.block b).threads.all (fun th => !th.alive) then endInterval b s else s

def execExitBase (s : State) : Result := laneExec .exitBase noFault exitThread s
def execExit (f : EFields) (s : State) : Result := laneExec (.exit f) noFault exitThread s

/-! ### Barriers (18 R291) -/

/-- Arrivals in the order of their cycle and `TID`. -/
def addArrival (a : Arrival) (l : List Arrival) : List Arrival :=
  insertBy (fun x y => decide (x.cycle < y.cycle ∨ (x.cycle = y.cycle ∧ x.tid ≤ y.tid))) a l

/-- SCP of a barrier: 000 means `.blk`. -/
def barScope (f : EFields) : Scope := (scopeOf f.scp).getD .blk

def arriveBar (f : EFields) (sh : Shape) (b t : Nat) (s : State) : State :=
  let th := s.thread b t
  let sc := barScope f
  let id := f.rd.toNat
  let s := if sc = .blk then s else endInterval b s
  let s := pushRelease b t sc (.bar id) s
  let s := modThread b t (fun th => { th with st := .barWait id s.cur.len, pc := s.cur.pc }) s
  let a : Arrival := ⟨s.cur.cyc, t, opd f sh th.vals .ra, sc, some th.nextId⟩
  modBlock b (fun k => { k with bars := modAt (addArrival a) id k.bars }) s

def barExec (i : Instr) (s : State) : Result :=
  let (f, sh) := fieldsOf i
  laneExec i (fun s b t => if (s.block b).ntid < opd f sh (s.thread b t).vals .ra then some (0x05, 0) else none)
    (arriveBar f sh) s

def execBarBase (id : BitVec 4) (s : State) : Result := barExec (.barBase id) s
def execBar (f : EFields) (s : State) : Result := barExec (.bar f) s

/-- The arrivals of the oldest phase, and those judged against its first and found wanting: every later one the phase
still has room for, and every other of the first's own cycle. The rest begin the next phase. -/
def phaseOf : List Arrival → List Arrival × List Arrival
  | [] => ([], [])
  | a :: r => r.foldl (fun p x =>
      let room := a.count = 0 || decide (p.1.length < a.count)
      if x.count = a.count then (if room then p.1 ++ [x] else p.1, p.2)
      else (p.1, if room || x.cycle = a.cycle then p.2 ++ [x] else p.2)) ([a], [])

/-- The step of an arrival's release event, once it has taken it; a block that started again may have used its number
before. -/
def relStep (s : State) (b t op : Nat) (k : Inst) : Option Nat :=
  match s.items.reverse.find? fun x => ownItem b t x && x.gran.isNone && x.op = op with
  | some x => visStep s x k
  | none => none

/-- The rollback checkpoint of a completed phase that every living thread has joined (13 R242). -/
def takeCheckpoint (b : Nat) (s : State) : State :=
  if (s.launchOf b).rollback then
    modBlock b (fun k => { k.performLog with
      ckpt := some ⟨k.threads, k.waves, k.scratch, k.fe, k.copies, k.cvs⟩, rollable := true, rolled := false }) s
  else s

/-- A phase is complete: its acquires, then every arrived thread goes on. -/
def completePhase (b id : Nat) (ph : List Arrival) (s : State) : State :=
  let whole := ((tidsOf (s.block b)).filter fun t => (s.thread b t).alive).all fun t => ph.any fun x => x.tid = t
  let s := ph.foldl (fun s a =>
    let k := instOf s b a.scope
    let w := (ph.filterMap fun x => relStep s b x.tid (x.rel.getD 0) k).foldl max 0
    noteAcq b a.tid a.scope (acquireFrom b k w s)) s
  let s := ph.foldl (fun s a => modThread b a.tid (fun th => match th.st with
    | .barWait _ len => { advancePc len th with st := .ready }
    | _ => th) s) s
  let s := modBlock b (fun k => { k with bars := modAt (fun l => l.filter fun x => !ph.contains x) id k.bars }) s
  let s := if whole then takeCheckpoint b s else s
  s.tickNow

/-- Fault 0x05 of the arrivals whose count differs: one record for those of one wave at one instruction. They arrive no
more; a halt sends their threads back to the barrier. -/
def refuseArrivals (b id : Nat) (bad : List Arrival) (s : State) : State :=
  let key := fun (s : State) (x : Arrival) => (homeWave (s.launchOf b) x.tid, (s.thread b x.tid).pc)
  let s := (bad.map (key s)).eraseDups.foldl (fun s q =>
    raiseCause b 0x05 ((bad.filter fun x => key s x = q).map Arrival.tid) q.2 0 s) s
  modBlock b (fun k => { k with bars := modAt (fun l => l.filter fun x => !bad.contains x) id k.bars }) s

/-- The oldest phase of one barrier: mismatched counts fault, and the phase goes on when it is complete. -/
def judgePhase (b id : Nat) (s : State) : State :=
  let (ph, bad) := phaseOf ((s.block b).bars.getD id [])
  match ph with
  | [] => s
  | a :: _ =>
    let s := if bad = [] then s else refuseArrivals b id bad s
    let alive := (tidsOf (s.block b)).filter fun t => (s.thread b t).alive
    let full := if a.count = 0 then alive.all (fun t => ph.any fun x => x.tid = t) else ph.length = a.count
    let released := ph.all fun x => !(s.thread b x.tid).ops.any fun o => some o.id = x.rel
    if full && released then completePhase b id ph s else s

/-- One barrier at the end of a cycle: each of its phases in turn, as many as its arrivals can make. -/
def judgeBar (b id : Nat) (s : State) : State :=
  (List.range ((s.block b).bars.getD id []).length).foldl (fun s _ => judgePhase b id s) s

/-! ### Traps (18 R296, 20 R366): the trap point is the next instruction -/

def trapExec (i : Instr) (cause addr : Nat) (s : State) : Result :=
  let b := s.cur.block
  let on := s.cur.tids.filter fun t => threadGuard i s b t
  let s' := noteIssue (fieldsOf i).1.yld (s.cur.tids.foldl (fun s t =>
    modThread b t (fun th => stampThread s.cur.cyc (advancePc s.cur.len th)) s) s)
  .next (raiseCause b cause on s.cur.pc addr s')

def execTrap (f : EFields) (s : State) : Result := trapExec (.trap f) 0x20 f.re.toNat s
def execBrk (f : EFields) (s : State) : Result := trapExec (.brk f) 0x21 0 s

/-! ### Instructions whose lanes are served one after another -/

/-- The lanes in ascending home lane, each on the state its predecessors left. A fault leaves the thread at the
instruction; with `stop`, the lanes after it, and those after one that must wait on the state its predecessors left, do
nothing (03 R67); without, each of them is judged on that state (06 R144). -/
def seqExec (i : Instr) (stop : Bool) (one : Nat → Nat → State → Option (Nat × Nat) × State) (s : State) : Result :=
  let b := s.cur.block
  let (f, sh) := fieldsOf i
  if !rangeOk f sh (s.launchOf b).regs then .next (raiseCause b 0x02 s.cur.tids s.cur.pc 0 s)
  else
    let ts := s.cur.tids.filter fun t =>
      threadGuard i s b t && threadNotReady i s b t || !threadWaits i s b s.cur.tids t
    if ts = [] then .next s
    else
      let pass := fun (s : State) (t : Nat) => modThread b t (fun th => stampThread s.cur.cyc (advancePc s.cur.len th)) s
      let r := ts.foldl (fun (a : State × List (Nat × Nat × Nat) × Bool) t =>
        if stop && (a.2.1 ≠ [] || a.2.2) then a
        else if !threadGuard i a.1 b t then (pass a.1 t, a.2)
        else if threadNotReady i a.1 b t then (a.1, a.2.1 ++ [(t, 0x08, 0)], a.2.2)
        else if threadWaits i a.1 b [t] t then (a.1, a.2.1, a.2.2 || stop)
        else match one b t a.1 with
          | (none, s') => (pass s' t, a.2)
          | (some p, s') => (s', a.2.1 ++ [(t, p.1, p.2)], a.2.2)) (s, [], false)
      let s' := noteIssue f.yld r.1
      .next (if r.2.1 = [] then s' else raiseFaults b s.cur.pc r.2.1 s')

/-! ### Spawning (03 R66-R68, 20 R353) -/


/-- A block that is not placed yet. -/
def newBlock (l index ntid : Nat) (entry arg : DWord) (cycle : Nat) (done : Option Nat) (from_ : Option (Nat × Nat × Nat)) :
    Block :=
  { launch := l, index := index, ntid := ntid, entry := entry, arg := arg, status := .unplaced, core := 0, f := 0,
    threads := [], waves := [], pwaves := [], scratch := [], fe := [], fullAt := [], storedAt := [], copies := [], landed := [],
    past := [], tiles := [], cvs := [], bars := List.replicate 16 [], issues := 0, spawned := false, released := false,
    ckpt := none, log := [], logBytes := 0, performed := [], rollable := false, rolled := false, method := .none, waiting := cycle,
    offered := none, sysAcq := 0, held := [], acqDone := done, acqFrom := from_ }

/-- The entry goes to the die's queue; FE makes room by moving the oldest entry whose context's spill area has room to
that area (03 R68; log 85). -/
def enqueueSpawn (die : Nat) (e : SpawnEntry) (s : State) : State :=
  let q := (s.die die).spawnQ
  if q.length < 4096 then modDie die (fun d => { d with spawnQ := d.spawnQ ++ [e] }) s
  else match q.find? (spills s) with
    | some x =>
      let s := modCtx (s.launch x.launch).ctx (fun c => { c with spill := c.spill ++ [x] }) s
      modDie die (fun d => { d with spawnQ := d.spawnQ.erase x ++ [e] }) s
    | none => s

def spawnOne (f : EFields) (b t : Nat) (s : State) : Option (Nat × Nat) × State :=
  let sh := shapeOf (.spawn f)
  let th := s.thread b t
  let k := s.block b
  let l := s.launchOf b
  let n := opd f sh th.vals .ra
  let m := opd f sh th.vals .rb
  let put := modThread b t (onLanes fun v => writeDst f sh v l.next (srcTaint f sh v))
  if n = 0 then (none, put s)
  else if spawnFault l n m then (some (0x24, 0), s)
  else
    let op := th.nextId
    let entry := BitVec.ofNat 64 (opd f sh th.vals .rc)
    let argp := BitVec.ofNat 64 (opd f sh th.vals .re)
    let s := put s
    let s := pushRelease b t .dev .none s
    let s := endInterval b s
    let s := modBlock b (fun k => { k with spawned := true }) s
    let s := modLaunch k.launch (fun l => { l with next := l.next + n, tree := l.tree + n }) s
    let new := (List.range n).map fun j => newBlock k.launch (l.next + j) m entry argp s.cycle none (some (b, t, op))
    let s := { s with blocks := s.blocks ++ new }
    (none, enqueueSpawn (k.core / 40) ⟨k.launch, l.next, n⟩ s)

def execSpawn (f : EFields) (s : State) : Result := seqExec (.spawn f) true (spawnOne f) s

/-! ### Gates (03 R60, 19 R318, 20 R348) -/

/-- The step a `GATE` acquires from: that of the `RELEASE` that opened the gate, or of the completion; of both where they
fell in one cycle (03 R82, 19 R344). -/
def gateStep (l : Launch) (g : Nat) : Nat :=
  match l.gateAt.find? (·.1 = g), l.doneAt with
  | some e, some d => if e.2.2 = l.doneIn then max e.2.1 d else e.2.1
  | some e, none => e.2.1
  | none, d => d.getD 0

/-- A `RELEASE` of this cycle has opened the gate, and the launch has not completed: a completion of this cycle is still to come. -/
def gateEarly (s : State) (l : Launch) (g : Nat) : Bool := l.doneAt.isNone && l.gateAt.any fun e => e.1 = g && e.2.2 = s.cycle

/-- `GATE` returns: an acquire at `.dev` with what opened the gate, and with the completion too where that comes later in its cycle
(03 R82; 19 R344). -/
def passGate (g b t : Nat) (s : State) : State :=
  match (predOf s (s.launchOf b)).bind Packet.launch with
  | none => s
  | some p =>
    let s := if gateEarly s (s.launch p) g then
        modLaunch p (fun x => { x with gated := (b, t, g, s.cycle) :: x.gated.filter fun e => e.2.2.2 = s.cycle }) s
      else s
    (noteAcq b t .dev (acquireFrom b .dev (gateStep (s.launch p) g) s)).tickNow

def execGate (f : EFields) (s : State) : Result := laneExec (.gate f) noFault (passGate f.rd.toNat) s

def execRelease (f : EFields) (s : State) : Result :=
  laneExec (.release f) noFault (fun b t s =>
    pushRelease b t .dev (.gate f.rd.toNat) (modBlock b (fun k => { k with released := true }) (endInterval b s))) s

/-! ### The declared lease (03 R77, 19 R329) -/

/-- The executing thread of the lowest home lane in a home wave: its guard is true and nothing holds it. -/
def leadOf (i : Instr) (s : State) (b w : Nat) : Option Nat :=
  s.cur.tids.find? fun t => threadGuard i s b t && !threadWaits i s b s.cur.tids t && homeWave (s.launchOf b) t = w

def execLease (f : EFields) (s : State) : Result :=
  let sh := shapeOf (.lease f)
  let s0 := s
  laneExec (.lease f) noFault (fun b t s =>
    let w := homeWave (s.launchOf b) t
    if leadOf (.lease f) s0 b w = some t then
      let v : Int := (opd f sh (s.thread b t).vals .ra : Int) + offsetOf f 1
      modWave b w (fun x => { x with declared := (min (max v 0) 2048).toNat }) s
    else s) s

end Sys2Proof.Machine
end

