-- ==== Sys2Proof/Machine/Memory.lean ====
section
/-!
DEFINITION. The memory class: loads, stores, atomics, fences, scratch and the copy engine, with the steps of the
visibility machine (08 R167-R169; 09; 10 R196-R200; 18 R282, R285, R286, R290, R299, R307, R308; 19 R324-R327, R341;
20 R355-R358, R362, R363; 07 R155).
-/

namespace Sys2Proof.Machine

open Sys2Proof

/-! ### Entering the operation queue -/

/-- The key a global address is kept under; an alias of a frame names its writer's bytes, apart (08 R162). -/
def keyOf (s : State) (b va : Nat) : Nat × Bool :=
  let c := ctxOf s b
  match aliasKey s c va with
  | some k => (k + 2 ^ 72, true)
  | none => (c * 2 ^ 56 + va, false)

/-- A global access of thread t at va. -/
def globalOp (s : State) (b t : Nat) (kind : OpKind) (va size : Nat) : MemOp :=
  let k := keyOf s b va
  { baseOp (s.thread b t) kind s.cur.pc (s.block b).issues s.cur.cyc (curSub s b) with
      addr := k.1, va := va, alias_ := k.2, size := size, fill := .idle }

/-- A scratch access. -/
def scratchOp (s : State) (b t : Nat) (kind : OpKind) (a size : Nat) : MemOp :=
  { baseOp (s.thread b t) kind s.cur.pc (s.block b).issues s.cur.cyc (curSub s b) with
      scratch := true, addr := a, va := a, size := size }

/-- An entry that answers a producer: the destination becomes EMPTY (04 Table 04.1). -/
def pushLoad (o : MemOp) (dst : List Nat) (taint : Bool) (th : Thread) : Thread :=
  let p := th.nextId
  let th := startProd ⟨p, dst, .waiting, taint, false, o.pc⟩ th
  pushOp { o with id := th.nextId, prod := some p } th

/-- Order and scope of an encoding: acquire and release parts (18 R290, 19 R324, 20 R355). -/
def scopeIf (c : Bool) (f : EFields) : Option Scope := if c then scopeOf f.scp else none

/-- SCP 001 on a scratch access. -/
def blkIf (f : EFields) : Option Scope := if f.scp = 1 then some .blk else none

/-! ### LD, LDC, ST (19 R324-R326, 20 R355-R357) -/

/-- The check of a global address of thread t. -/
def globalCheck (f : EFields) (sh : Shape) (size align : Nat) (rights : List Right) (s : State) (b t : Nat) :
    Option (Nat × Nat) :=
  let a := globalAddr f sh (sizeOf f) (s.thread b t).vals
  (globalFault (s.launchOf b).ranges a size align rights).map fun c => (c, a)

def loadExec (i : Instr) (consume : Bool) (s : State) : Result :=
  let (f, sh) := fieldsOf i
  laneExec i (globalCheck f sh (sizeOf f) (sizeOf f) [.rd]) (fun b t s =>
    let th := s.thread b t
    let o := { globalOp s b t .load (globalAddr f sh (sizeOf f) th.vals) (sizeOf f) with
      acq := scopeIf (decide (ordOf f = 1)) f, consume := scopeIf consume f, taint := addrTaint f sh th.vals,
      sext := f.mod.getLsbD 3 }
    modThread b t (pushLoad o (dstRegs f sh) consume) s) s

def execLd (f : EFields) (s : State) : Result := loadExec (.ld f) false s
def execLdc (f : EFields) (s : State) : Result := loadExec (.ldc f) true s

/-- A mismatch of the pair's lanes before a store or an atomic (02 R49). -/
def mismatch (th : Thread) (f : Vals → List Nat) : Option (Nat × Nat) :=
  if lanesDiffer th f then some (0x1C, 0) else none

/-- A release at .spn or wider ends a rollbackable interval (13 R243). -/
def endIfWide (b : Nat) (sc : Option Scope) (s : State) : State :=
  match sc with
  | some .blk => s
  | none => s
  | some _ => endInterval b s

def storeData (f : EFields) (sh : Shape) (v : Vals) (n : Nat) : List Byte := leBytes n (opd f sh v .rd)

/-- `ST`: a fault of the primary lane's address comes before the comparison of the pair's lanes (DESIGN CHOICE, log 91). -/
def execSt (f : EFields) (s : State) : Result :=
  let i := Instr.st f
  let sh := shapeOf i
  let n := sizeOf f
  laneExec i (fun s b t => (globalCheck f sh n n [.w] s b t).or
      (mismatch (s.thread b t) fun v => [globalAddr f sh n v, leNat (storeData f sh v n)])) (fun b t s =>
    let th := s.thread b t
    let rel := scopeIf (decide (ordOf f = 1)) f
    let o := { globalOp s b t .store (globalAddr f sh n th.vals) n with
      rel := rel, taint := addrTaint f sh th.vals, data := storeData f sh th.vals n }
    modThread b t (pushOp o) (endIfWide b rel s)) s

/-! ### LDS, STS, FESET (08 R167-R169; 19 R327; 20 R358; 18 R308) -/

def scratchCheck (f : EFields) (sh : Shape) (unit size align : Nat) (s : State) (b t : Nat) : Option (Nat × Nat) :=
  let a := scratchAddr f sh unit (s.thread b t).vals
  (scratchFault (scratchBytes s b) a size align).map fun c => (c, a)

/-- Sets the bits of granules; those made FULL note the step (09 Table 09.2). -/
def setBits (b : Nat) (gs : List Nat) (full : Bool) (s : State) : State :=
  modBlock b (fun k =>
    { k with
        fe := gs.foldl (fun m g => sset true g full m) k.fe
        fullAt := if full then gs.foldl (fun m g => sset 0 g s.now m) k.fullAt else k.fullAt }) s

/-- A datum as the words of its destination, extended (19 R325). -/
def loadWords (size : Nat) (signed : Bool) (data : List Byte) : List Word :=
  let n := max 1 (size / 4)
  wordsOf n (if signed then wrapN (sextN (leNat data) (8 * size)) (32 * n) else leNat data)

/-- What the variant of an `LDS` does at its step beside the read (19 R327). -/
def ldsTag (f : EFields) : OpTag :=
  match ordOf f with
  | 0 => .none
  | 1 => .full (f.scp = 1)
  | 2 => .clear
  | _ => .take (f.scp = 1)

/-- `LDS.w` and `.wc` acquire in any case; the others with SCP 001 (19 R327). -/
def ldsAcq (f : EFields) : Option Scope := if (ldsTag f).awaits then some .blk else blkIf f

def ldsExec (i : Instr) (s : State) : Result :=
  let (f, sh) := fieldsOf i
  let n := sizeOf f
  laneExec i (fun s b t => (literalFault i).or (scratchCheck f sh n n n s b t)) (fun b t s =>
    let th := s.thread b t
    let o := { scratchOp s b t .load (scratchAddr f sh n th.vals) n with
      tag := ldsTag f, acq := ldsAcq f, sext := f.mod.getLsbD 3, taint := addrTaint f sh th.vals }
    modThread b t (pushLoad o (dstRegs f sh) false) s) s

def execLds (f : EFields) (s : State) : Result := ldsExec (.lds f) s
def execLdsBase (k : BitVec 6) (a d : BitVec 9) (s : State) : Result := ldsExec (.ldsBase k a d) s
def execLdsBaseLiteral (a d : BitVec 9) (l : BitVec 32) (s : State) : Result := ldsExec (.ldsBaseLiteral a d l) s

/-- `STS`: a fault of the primary lane's address comes before the comparison of the pair's lanes (DESIGN CHOICE, log 91). -/
def stsExec (i : Instr) (s : State) : Result :=
  let (f, sh) := fieldsOf i
  let n := sizeOf f
  let full := decide (ordOf f = 1)
  laneExec i (fun s b t => ((literalFault i).or (scratchCheck f sh n n n s b t)).or
      (mismatch (s.thread b t) fun v => [scratchAddr f sh n v, leNat (storeData f sh v n)])) (fun b t s =>
    let th := s.thread b t
    let o := { scratchOp s b t .store (scratchAddr f sh n th.vals) n with
      rel := if full then some .blk else blkIf f, tag := if full then .setFull else .none,
      taint := addrTaint f sh th.vals, data := storeData f sh th.vals n }
    modThread b t (pushOp o) s) s

def execSts (f : EFields) (s : State) : Result := stsExec (.sts f) s
def execStsBase (k : BitVec 6) (a d : BitVec 9) (s : State) : Result := stsExec (.stsBase k a d) s
def execStsBaseLiteral (a d : BitVec 9) (l : BitVec 32) (s : State) : Result := stsExec (.stsBaseLiteral a d l) s

def execFeset (f : EFields) (s : State) : Result :=
  let i := Instr.feset f
  let sh := shapeOf i
  laneExec i (fun s b t =>
      let v := (s.thread b t).vals
      scratchCheck f sh 16 (16 * opd f sh v .re) 16 s b t) (fun b t s =>
    let th := s.thread b t
    let full := decide (ordOf f = 1)
    let n := opd f sh th.vals .re
    if n = 0 then s
    else
      let o := { scratchOp s b t (.feset n full) (scratchAddr f sh 16 th.vals) 0 with
        rel := if full then some .blk else none }
      modThread b t (pushOp o) s) s

/-! ### ATOM, ATOMS (18 R290, 09 R188) -/

/-- The bytes of the data run: `.cas` holds cmp and v. -/
def atomData (f : EFields) (sh : Shape) (v : Vals) : List Byte :=
  leBytes (if f.rb = 9 then 2 * sizeOf f else sizeOf f) (opd f sh v .re)

/-- The value of 18 Table 18.2; none where `.cas` fails. -/
def atomNew (op size old : Nat) (data : List Byte) : Option Nat :=
  let w := 8 * size
  let v := leNat (if op = 9 then data.drop size else data)
  let sg := fun (x : Nat) => sextN x w
  match op with
  | 0 => some ((old + v) % 2 ^ w)
  | 1 => some (if sg v < sg old then v else old)
  | 2 => some (if sg old < sg v then v else old)
  | 3 => some (min old v)
  | 4 => some (max old v)
  | 5 => some (old &&& v)
  | 6 => some (old ||| v)
  | 7 => some (old ^^^ v)
  | 8 => some v
  | _ => if old = leNat (data.take size) then some v else none

def atomAcq (f : EFields) : Bool := decide (ordOf f = 1 ∨ ordOf f = 2)
def atomRel (f : EFields) : Bool := decide (ordOf f = 2 ∨ ordOf f = 3)

/-- `ATOM`: its destination is tainted where a register source is, as that of any instruction that is no load (04 R90; log
56). A fault of the primary lane's address comes before the comparison of the pair's lanes (DESIGN CHOICE, log 91). -/
def execAtom (f : EFields) (s : State) : Result :=
  let i := Instr.atom f
  let sh := shapeOf i
  let n := sizeOf f
  laneExec i (fun s b t => (globalCheck f sh n n [.rd, .w] s b t).or
      (mismatch (s.thread b t) fun v => [globalAddr f sh n v, leNat (atomData f sh v)])) (fun b t s =>
    let th := s.thread b t
    let o := { globalOp s b t (.atomic (f.rb.setWidth 4)) (globalAddr f sh n th.vals) n with
      acq := scopeIf (atomAcq f) f, rel := scopeIf (atomRel f) f, scp := (scopeOf f.scp).getD .blk,
      taint := addrTaint f sh th.vals, data := atomData f sh th.vals }
    modThread b t (pushLoad o (dstRegs f sh) (srcTaint f sh th.vals)) (endInterval b s)) s

/-- `ATOMS`: the order of its faults is that of `ATOM` (DESIGN CHOICE, log 91). -/
def execAtoms (f : EFields) (s : State) : Result :=
  let i := Instr.atoms f
  let sh := shapeOf i
  let n := sizeOf f
  laneExec i (fun s b t => (scratchCheck f sh n n n s b t).or
      (mismatch (s.thread b t) fun v => [scratchAddr f sh n v, leNat (atomData f sh v)])) (fun b t s =>
    let th := s.thread b t
    let o := { scratchOp s b t (.atomic (f.rb.setWidth 4)) (scratchAddr f sh n th.vals) n with
      acq := if atomAcq f then some .blk else none, rel := if atomRel f then some .blk else none,
      taint := addrTaint f sh th.vals, data := atomData f sh th.vals }
    modThread b t (pushLoad o (dstRegs f sh) (srcTaint f sh th.vals)) s) s

/-! ### FENCE, CCTL, PFETCH (18 R299, R307; 19 R341) -/

def execFence (f : EFields) (s : State) : Result :=
  let acq := f.mod != 0x11
  let rel := f.mod != 0x10
  laneExec (.fence f) noFault (fun b t s =>
    let th := s.thread b t
    let sc := scopeOf f.scp
    let o := { baseOp th (.fence acq rel) s.cur.pc (s.block b).issues s.cur.cyc (curSub s b) with
      acq := if acq then sc else none, rel := if rel then sc else none }
    modThread b t (pushOp o) (endIfWide b o.rel s)) s

/-- Writes back the line of an address, wherever a copy below the place of the scope is dirty, and drops its clean copies in the
caches below that place that serve the thread (18 R299). Dirty data is never discarded. -/
def cctlLines (f : EFields) (core ctx va : Nat) (s : State) : State :=
  let sc := (scopeOf f.scp).getD .blk
  let hit := fun (l : Line) => decide (l.ctx = ctx ∧ l.addr = va / 128 * 128)
  let wb := f.mod != 1
  let inv := f.mod != 0
  let s := if wb then writeBackLines (fun l => hit l && belowAny sc l.place) s else s
  if inv then removeLines (fun l => hit l && below sc l.coh core l.place && !l.dirty) s else s

def execCctl (f : EFields) (s : State) : Result :=
  let i := Instr.cctl f
  let sh := shapeOf i
  laneExec i (fun s b t =>
      let a := globalAddr f sh 128 (s.thread b t).vals
      if a / 2 ^ 56 ≠ 0 then some (0x09, a) else none) (fun b t s =>
    cctlLines f (s.block b).core (ctxOf s b) (globalAddr f sh 128 (s.thread b t).vals) s) s

/-- Engine kind 5: the Viaduct port (13 Table 13.3). -/
def portSource (port : Nat) : Nat := sourceCode 5 4 port

/-- A dirty POOL line of a context whose port is up reaches the device; another waits (15 R262). -/
def pushPool (ctx : Nat) (p : Line → Bool) (s : State) : State :=
  let go := s.lines.filter fun l => l.ctx = ctx && p l && portUp s (portOf s ctx l.addr)
  let s := go.foldl (fun s l => reachDevice l s) s
  { s with lines := s.lines.map fun x =>
      if x.ctx = ctx && x.coh = .pool && x.dirty && p x then
        (if portUp s (portOf s ctx x.addr) then { x with dirty := false, wb := false } else { x with wb := true })
      else x }

/-- `PFETCH`: 0x09, and 0x0B where its lease check fails (03 R65), are its only faults, and the device drops the request, as it may
(19 R341; log 28). -/
def execPfetch (f : EFields) (s : State) : Result :=
  let i := Instr.pfetch f
  let sh := shapeOf i
  laneExec i (fun s b t =>
      let a := globalAddr f sh 128 (s.thread b t).vals
      (globalFault (s.launchOf b).ranges a 1 1 [.rd]).map fun c => (c, a)) (fun _ _ s => s) s

/-! ### ACP, ACWAIT (10 R196-R199) -/

/-- The pieces of a read of n bytes at a, one for each granule: offset, length. -/
def pieces (n : Nat) : List (Nat × Nat) := (List.range ((n + 15) / 16)).map fun i => (16 * i, min 16 (n - 16 * i))

/-- A new copy and its queued reads (09 R192): address and size of each. -/
def startCopy (b t : Nat) (c : Copy) (reads : List (Nat × Nat)) (taint : Bool) (s : State) : State :=
  let c := { c with id := (s.thread b t).nextId, tid := t, total := reads.length, taint := taint }
  let s := modThread b t (fun th => { th with nextId := th.nextId + 1 }) s
  let s := modBlock b (fun k => { k with copies := k.copies ++ [c] }) s
  let s := modWave b (homeWave (s.launchOf b) t) (fun w => { w with tags := modAt (· + 1) c.tag w.tags }) s
  (List.range reads.length).foldl (fun s e =>
    let r := reads.getD e (0, 0)
    let o := { globalOp s b t (.copyRead c.id e) r.1 r.2 with taint := taint, pc := c.pc, iss := c.issued }
    modThread b t (pushOp o) s) s

/-- The granules of n bytes at d. -/
def gransOf (d n : Nat) : List Nat := (List.range ((d % 16 + n + 15) / 16)).map fun i => d / 16 + i

def acpCount (f : EFields) (sh : Shape) (v : Vals) : Nat := min (opd f sh v .re) 32

/-- `ACP`: ADDR of a fault of its destination is the offset in scratch (DESIGN CHOICE, log 105); a fault of the primary lane's address
comes before the comparison of the pair's lanes (DESIGN CHOICE, log 91). -/
def execAcp (f : EFields) (s : State) : Result :=
  let i := Instr.acp f
  let sh := shapeOf i
  laneExec i (fun s b t =>
      let th := s.thread b t
      let d := opd f sh th.vals .rd
      let a := globalAddr f sh 32 th.vals
      let n := acpCount f sh th.vals
      (scratchFault (scratchBytes s b) d 32 32).map (fun c => (c, d))
        |>.or (if n = 0 then none else (globalFault (s.launchOf b).ranges a n 16 [.rd]).map fun c => (c, a))
        |>.or (mismatch th fun v => [opd f sh v .rd, globalAddr f sh 32 v, acpCount f sh v])) (fun b t s =>
    let v := (s.thread b t).vals
    let d := opd f sh v .rd
    let a := globalAddr f sh 32 v
    let n := acpCount f sh v
    let c : Copy := ⟨0, t, f.mod.toNat, s.cur.pc, [], d, a, n, [], 0, false, false, (s.block b).issues, false, false, none⟩
    startCopy b t c ((pieces n).map fun p => (a + p.1, p.2)) (addrTaint f sh v) (setBits b (gransOf d 32) false s)) s

/-- `ACWAIT` returns: an acquire at .blk with the completions of its tag (09 Table 09.2). -/
def execAcwait (f : EFields) (s : State) : Result :=
  laneExec (.acwait f) noFault (fun b t s =>
    let w := (((s.block b).waves.getD (homeWave (s.launchOf b) t) default).tagAt.getD f.mod.toNat 0)
    modThread b t (fun th => { th with orderPt := s.now }) (acquireFrom b (.blk b) w s)) s

/-! ### TCOPY (07 R155, 20 R362) -/

/-- A tensor copy starts: its granules are EMPTY, or the interval ends (13 R243). Its accesses are tainted where the register of
its descriptor's address is (DEDUCED, log 56). -/
def startTensor (b t : Nat) (desc : List Byte) (tag iss : Nat) (taint : Bool) (pc : DWord) (s : State) : State :=
  match tdescOf desc with
  | none => s
  | some d =>
    let n := d.count * d.esize
    let c : Copy := ⟨0, t, tag, pc, desc, d.dst, d.base, n, [], 0, false, false, iss, false, false, none⟩
    if d.dir = 0 then
      startCopy b t c (d.elements.map fun e => (e.2, d.esize)) taint (setBits b (gransOf d.dst n) false s)
    else startCopy b t c [] taint (endInterval b s)

/-- The sub-core from which a thread issued the `TCOPY` at which it waits. -/
def waitSub (th : Thread) : Nat :=
  match th.st with
  | .copyWait _ _ _ _ sub _ => sub
  | _ => 0

/-- The threads that wait to start their tensor copy, in the order of their issue: block, thread. -/
def copyWaiters (s : State) (core : Nat) : List (Nat × Nat) :=
  let bs := (List.range s.blocks.length).filter fun b => (s.block b).status = .placed && (s.block b).core = core
  let key := fun (x : Nat × Nat) => let th := s.thread x.1 x.2; (th.stamp * 4 + waitSub th) * 32 + homeLane (s.launchOf x.1) x.2
  sortBy (fun x y => decide (key x ≤ key y)) (bs.flatMap fun b => ((tidsOf (s.block b)).filter fun t => match (s.thread b t).st with
    | .copyWait .. => true
    | _ => false).map fun t => (b, t))

/-- `TCOPY`: its descriptor is read at the issue; a thread whose copy finds 16 in flight, or others that wait, waits. -/
def execTcopy (f : EFields) (s : State) : Result :=
  let i := Instr.tcopy f
  let sh := shapeOf i
  laneExec i (tcopyFault f sh) (fun b t s =>
    let v := (s.thread b t).vals
    let desc := memRead (s.block b).scratch (opd f sh v .ra) 128
    let tag := opd f sh v .rb % 8
    let core := (s.block b).core
    let taint := runTaint (fieldRun f sh v .ra)
    if copiesOn s core true < 16 ∧ copyWaiters s core = [] then startTensor b t desc tag (s.block b).issues taint s.cur.pc s
    else modThread b t (fun th => { th with
      st := .copyWait desc tag (s.block b).issues s.cur.len (curSub s b) taint, pc := s.cur.pc }) s) s

/-- The first that waits for a tensor copy on a core starts it, where there is room, and goes on. -/
def startWaiter (core : Nat) (s : State) : State :=
  match copyWaiters s core with
  | [] => s
  | (b, t) :: _ => match (s.thread b t).st with
    | .copyWait desc tag iss len _ taint =>
      if copiesOn s core true < 16 ∧ (s.ctx (ctxOf s b)).halted = false ∧ (s.block b).method ≠ .save then
        startTensor b t desc tag iss taint (s.thread b t).pc (modThread b t (fun th => { advancePc len th with st := .ready }) s)
      else s
    | _ => s

/-- The places that copies have left go to the threads that wait, in the order of their issue. -/
def startWaiters (core : Nat) (s : State) : State := (List.range 16).foldl (fun s _ => startWaiter core s) s

/-! ### Ends of entries that do not take their step -/

/-- An entry ends without its step: its destination is ABANDONED (04 R86), its copy never completes (10 R197). -/
def abandonOp (b t : Nat) (o : MemOp) (s : State) : State :=
  let s := match o.kind with
    | .copyRead c _ =>
      let s := modBlock b (fun k => { k with copies := modIf (fun x => x.id = c && x.tid = t) (fun x => { x with dead := true }) k.copies }) s
      modThread b t (fun th => { th with ops := th.ops.filter fun p => match p.kind with
        | .copyRead c' _ => c' != c
        | _ => true }) s
    | _ => dropOp b t o.id s
  match o.prod with
  | some p => modThread b t (abandonProd p) s
  | none => s

/-- The identity of a store, for a charge after it (11 R215). -/
def storeRecOf (s : State) (b t : Nat) (o : MemOp) : StoreRec :=
  let k := s.block b
  ⟨k.launch, k.index, homeWave (s.launchOf b) t, k.core, o.pc, o.va, s.now⟩

/-- The fault of an entry: deferred for what reads, imprecise for a store (13 Table 13.2). -/
def chargeOp (source cause b t : Nat) (o : MemOp) (extra : StopRec → StopRec) (s : State) : State :=
  if o.isStore then raiseStore source cause (ctxOf s b) (storeRecOf s b t o) o.va extra (abandonOp b t o s)
  else takeFault (extra { threadRec s b cause [t] o.pc o.va with source := source }) (abandonOp b t o s)

/-- The mark of a store that ended with 0x18: an item that is visible nowhere (15 R257). -/
def markLost (b t : Nat) (o : MemOp) (s : State) : State :=
  if o.isStore || o.isAtomic then
    { s with items := s.items ++ [⟨some o.gran, [], some (b, t), false, [], none, o.id, none, true⟩] }
  else s

/-- Fault 0x18: an access to a LOST region (15 R257). -/
def chargeLost (b t : Nat) (o : MemOp) (s : State) : State :=
  chargeOp (portSource (portOf s (ctxOf s b) o.va)) 0x18 b t o id (markLost b t o s)

def findOp (s : State) (b t op : Nat) : Option MemOp := (s.thread b t).ops.find? (·.id = op)

/-! ### What a store leaves in the caches: the record of a codec block (11 R215) and of a pool line (15 R262) -/

/-- The codec region of a context that holds an address. -/
def regionAt (s : State) (ctx va : Nat) : Option Region :=
  (s.ctx ctx).regions.find? fun r => decide (r.base ≤ va ∧ va < r.base + r.len)

/-- The unit of the L2 that holds a block (11 R203). -/
def unitOf (r : Region) (blk : Nat) : Nat := blk * r.pbs / max r.pbs 128

/-- The blocks that share the L2 lines of a block, itself among them. -/
def lineMates (r : Region) (blk : Nat) : List Nat :=
  let n := 128 / r.pbs
  if r.pbs < 128 then (List.range n).map (blk / n * n + ·) else [blk]

/-- A store writes a line: the line is dirty there, a HARD one that writes through in the home L2, and in a codec region its
L2 line, with every block in it, takes the record of the store (08 Table 08.3; 11 R203, R215). -/
def noteStore (b t : Nat) (o : MemOp) (s : State) : State :=
  let ctx := ctxOf s b
  let rec_ := storeRecOf s b t o
  let core := (s.block b).core
  let mine := fun (l : Line) => l.ctx = ctx && l.addr = o.va / 128 * 128
  let here := fun (l : Line) => mine l && (l.place = .l1 core || l.place = .rdc (core / 40) || l.place.isL2)
  let near := ([Place.l1 core, .rdc (core / 40), .l2 0, .l2 1, .l2 2, .l2 3]).find? fun p => s.lines.any fun l => mine l && l.place = p
  let dirt := fun (l : Line) => match l.coh with
    | .priv | .soft => some l.place = near
    | .hard => l.place.isL2
    | .pool => l.place = .rdc (core / 40)
  let s := { s with lines := modIf here (fun l => { l with dirty := l.dirty || dirt l, srec := some rec_ }) s.lines }
  match regionAt s ctx o.va with
  | none => s
  | some r =>
    let blk := (o.va - r.base) / r.pbs
    let blks := lineMates r blk
    let note := fun (u : CUnit) =>
      { u with dirty := (u.dirty ++ blks).eraseDups, recs := blks.map (fun k => (k, rec_)) ++ u.recs.filter fun e => !blks.contains e.1 }
    { s with units := modIf (fun u => u.ctx = ctx && u.region = r.idx && u.unit = unitOf r blk) note s.units }

/-! ### Performing (09 R181, R184, R187, R188, R190) -/

/-- The producer of a load holds its words. -/
def readyProd (b t p : Nat) (ws : List Word) : State → State :=
  modThread b t fun th => { th with prods := modIf (fun x => x.id = p) (fun x => { x with val := .ready ws }) th.prods }

/-- A rollbackable block logs a store; a full log ends the interval first (13 R242, R243). The size of an entry is the
implementation's (log 7). -/
def logStore (b size : Nat) (s : State) : State :=
  if (s.block b).rollable then
    let (n, s) := s.fresh
    let e := size + (Config.freeWord n).toNat % 129
    if 32768 < (s.block b).logBytes + e then endInterval b s
    else modBlock b (fun k => { k with log := k.log ++ [s.items.length], logBytes := k.logBytes + e }) s
  else s

/-- A global store takes its first perform step. A PRIV `.rel` is a release event and a store of the block (09 R190). -/
def performGlobal (b t : Nat) (o : MemOp) (s : State) : State :=
  let s := noteStore b t o s
  match o.rel with
  | some sc =>
    let s := cacheRelease b sc s
    if o.priv then
      let s := releaseItem b t o.id sc s
      performStore b t o .blk (some (s.items.length - 1)) (if sc = .blk then logStore b o.size s else s)
    else
      let s := dropSharers b sc (ctxOf s b) o.va s
      let s := performStore b t o sc none (if sc = .blk then logStore b o.size s else s)
      if sc = .sys then coverSys b t o.id s else s
  | none => performStore b t o .blk none (logStore b o.size s)

/-- Granules of scratch are about to be written: what they held stays known (09 R182). -/
def notePast (b : Nat) (gs : List Nat) (s : State) : State :=
  modBlock b (fun k => { k with past := gs.map (fun g => (g, s.now, memRead k.scratch (16 * g) 16)) ++ k.past }) s

/-- Bytes of scratch are written. -/
def writeScratch (b a : Nat) (data : List Byte) (s : State) : State :=
  modBlock b (fun k => { k with scratch := memWrite k.scratch a data, storedAt := sset 0 (a / 16) s.now k.storedAt })
    (notePast b [a / 16] s)

/-- What a granule of scratch held at a step: as the oldest write after it found it, else as it stands. -/
def granPast (k : Block) (g τ : Nat) : List Byte :=
  match (k.past.filter fun e => e.1 = g && decide (τ < e.2.1)).getLast? with
  | some e => e.2.2
  | none => memRead k.scratch (16 * g) 16

/-- The newest write of a granule of scratch up to a step, by its step; 0 before the first. -/
def writtenAt (k : Block) (g τ : Nat) : Nat :=
  if sget 0 g k.storedAt ≤ τ then sget 0 g k.storedAt
  else ((k.past.filter fun e => e.1 = g && decide (e.2.1 ≤ τ)).map fun e => e.2.1).foldl max 0

/-- The granules of scratch that a copy is to fill. -/
def Copy.target (c : Copy) : List Nat :=
  if c.desc = [] then gransOf c.dst 32
  else match tdescOf c.desc with
    | some d => if d.dir = 0 then gransOf c.dst c.n else []
    | none => []

/-- A later copy of the thread has made a granule EMPTY: in program order the entry came before (10 R197; 09 R192). -/
def emptiedAfter (s : State) (b t : Nat) (o : MemOp) (g : Nat) : Bool :=
  (s.block b).copies.any fun c => c.tid = t && decide (o.iss < c.issued) && c.target.contains g

/-- Granules that an entry makes FULL, but for those that a later copy of its thread has made EMPTY since. -/
def fillBits (b t : Nat) (o : MemOp) (gs : List Nat) (s : State) : State :=
  setBits b (gs.filter fun g => !emptiedAfter s b t o g) true s

def performScratch (b t : Nat) (o : MemOp) (s : State) : State :=
  let s := noteGran b t o.mark (writeScratch b o.addr o.data s)
  if o.tag = .setFull then fillBits b t o [o.gran] s else s

/-- A load of scratch read the store of a step (09 R187). -/
def readScratch (b t w : Nat) (s : State) : State := modThread b t (fun th => { th with sreads := max th.sreads w }) s

/-- A load read an item (09 R187). -/
def noteRead (b t x1 : Nat) (s : State) : State :=
  modThread b t (fun th => { th with reads := if th.reads.contains x1 then th.reads else th.reads ++ [x1] }) s

/-- The single step of an atomic on scratch. -/
def atomScratch (op : BitVec 4) (b t : Nat) (o : MemOp) (s : State) : State :=
  let k := s.block b
  let old := memRead k.scratch o.addr o.size
  let s := match atomNew op.toNat o.size (leNat old) o.data with
    | some v => writeScratch b o.addr (leBytes o.size v) s
    | none => s
  let s := if o.acq.isSome then noteAcq b t .blk (acquireFrom b (.blk b) (sget 0 o.gran k.storedAt) s) else s
  let s := readScratch b t (sget 0 o.gran k.storedAt) (noteGran b t o.mark s)
  readyProd b t (o.prod.getD 0) (loadWords o.size false old) s

/-- The single step of a global atomic (09 R188): it reads the newest store visible in its instance and appends its
own. -/
def atomGlobal (op : BitVec 4) (b t : Nat) (o : MemOp) (s : State) : State :=
  let sc := if o.priv then .blk else o.scp
  let x1 := newestIn s o.gran (instOf s b sc) s.now
  let old := ((granValue s o.gran x1).drop (o.addr % 16)).take o.size
  let s := match atomNew op.toNat o.size (leNat old) o.data with
    | some v =>
      let o' := { o with data := leBytes o.size v }
      if o.rel.isSome then performGlobal b t o' s
      else performStore b t o' sc none (dropSharers b sc (ctxOf s b) o.va (noteStore b t o' s))
    | none =>
      let s := noteGran b t o.mark (raiseFloor b o.gran x1 s)
      match o.rel with
      | some r => releaseItem b t o.id r (cacheRelease b r s)
      | none => s
  let s := match o.acq with
    | some a => noteAcq b t a (acquireRead b a x1 s)
    | none => s
  readyProd b t (o.prod.getD 0) (loadWords o.size false old) (noteRead b t x1 s)

/-- A fence takes its step (09 R187). -/
def fenceStep (acq rel : Bool) (b t : Nat) (o : MemOp) (s : State) : State :=
  let s := match o.rel with
    | some sc => releaseItem b t o.id sc (cacheRelease b sc s)
    | none => s
  let s := if o.rel.isNone then modThread b t (fun th => { th with fenced := some (s.coreCycle (s.block b).core, o.id) }) s else s
  let s := match o.acq with
    | some sc =>
      let s := (s.thread b t).reads.foldl (fun s x1 => acquireRead b sc x1 s) s
      noteAcq b t sc (if sc = .blk then acquireFrom b (.blk b) (s.thread b t).sreads s else s)
    | none => s
  match o.acq with
  | some sc => if acq && rel then raiseAll b (instOf s b sc) s else s
  | none => s

/-- What else takes place at a release event (03 R60). -/
def releaseTag (b : Nat) (tag : OpTag) (s : State) : State :=
  match tag with
  | .gate g =>
    let l := (s.block b).launch
    modLaunch l (fun x => { x with gates := x.gates ||| (1#16) <<< g,
                                   gateAt := if x.gates.getLsbD g then x.gateAt else x.gateAt ++ [(g, s.now, s.cycle)] }) s
  | _ => s

/-- A release at .pool or .sys by a thread with an older store to a LOST region that is not performed there (15 R257). -/
def releaseLost (s : State) (b t : Nat) (o : MemOp) : Bool :=
  match o.rel with
  | some sc => (sc = .pool || sc = .sys) && s.items.any fun x =>
      ownItem b t x && decide (x.op < o.id) && !x.priv && (visStep s x (instOf s b sc)).isNone &&
      (match x.gran with
       | some g => lostAt s (g * 16 / 2 ^ 56) (g * 16 % 2 ^ 56)
       | none => false)
  | none => false

/-- The unit of a codec block is installed in the L2 (12 R224). -/
def unitReady (s : State) (ctx : Nat) (r : Region) (va : Nat) : Bool :=
  let u := unitOf r ((va - r.base) / r.pbs)
  s.units.any fun x => x.ctx = ctx && x.region = r.idx && x.unit = u && x.installed

/-- An address is in no codec region, or its unit is there. -/
def codecReady (s : State) (ctx va : Nat) : Bool :=
  match regionAt s ctx va with
  | none => true
  | some r => unitReady s ctx r va

/-- An address is in no pool region, or its line is in the die's remote-data cache, with ownership for a store (15 R252). -/
def poolReady (s : State) (b : Nat) (o : MemOp) : Bool :=
  let ctx := ctxOf s b
  let d := (s.block b).core / 40
  !((s.ctx ctx).pools.any fun p => decide (p.base ≤ o.va ∧ o.va < p.base + p.len)) ||
    s.lines.any fun l => l.place = .rdc d && l.ctx = ctx && l.addr = o.va / 128 * 128 && (l.owned || !(o.isStore || o.isAtomic))

/-- A global access has its line: the fill is done and, in a codec region, the unit has not left the L2 since; a pool
line has not left its remote-data cache. -/
def lineThere (s : State) (b : Nat) (o : MemOp) : Bool :=
  o.fill = .done && (!o.isAccess || (codecReady s (ctxOf s b) o.va && poolReady s b o))

/-- The granule that an entry waits for is FULL, or was before a later copy of its thread made it EMPTY. -/
def bitThere (s : State) (b t : Nat) (o : MemOp) : Bool :=
  !o.tag.awaits || sget true o.gran (s.block b).fe || emptiedAfter s b t o o.gran

/-- An entry is ready for its step: its line is there, the order allows it, and a granule that it waits for is FULL. -/
def opReady (s : State) (b t : Nat) (o : MemOp) : Bool := (o.scratch || lineThere s b o) && canStep s b t o && bitThere s b t o

/-- A dirty line that holds a store of one of some blocks. -/
def wroteIn (s : State) (p : Nat → Bool) (l : Line) : Bool :=
  l.dirty && s.items.any fun x => !x.written && x.inLine l.ctx l.addr && x.thr.any fun t => p t.1

def wroteBy (s : State) (b : Nat) : Line → Bool := wroteIn s fun k => k = b

/-- A release at `.sys` sends the block's dirty pool lines to the device (08 Table 08.4). -/
def sendPool (b : Nat) (o : MemOp) (s : State) : State :=
  if o.rel = some .sys then pushPool (ctxOf s b) (wroteBy s b) s else s

/-- It waits for a line whose port is not up (15 R262): its own, one that its release sends, another die's copy of its line. -/
def poolHeld (s : State) (b : Nat) (o : MemOp) : Bool :=
  let ctx := ctxOf s b
  let own := o.isAccess && (s.ctx ctx).pools.any fun p => decide (p.base ≤ o.va ∧ o.va < p.base + p.len) && !portUp s (p.portNow s)
  (o.rel = some .sys && (own || s.lines.any fun l => l.ctx = ctx && l.wb && wroteBy s b l)) ||
    (o.isAccess && !o.scratch && recallHeld s (fun l => otherSharer b ((o.rel.or (if o.isAtomic then some o.scp else none)).getD .blk) ctx o.va s l))

/-- Bytes of element e. -/
def Copy.bytesOf (c : Copy) (e : Nat) : List Byte :=
  match c.got.find? (·.1 = e) with
  | some g => g.2
  | none => []

/-- What a transfer writes. -/
def acpBytes (c : Copy) : List Byte := takePad 32 0 ((List.range c.total).flatMap c.bytesOf)

/-- What a tensor copy writes: the box, zero outside the tensor. -/
def boxBytes (c : Copy) : List Byte :=
  match tdescOf c.desc with
  | none => []
  | some d =>
    let r := (List.range d.count).foldl (fun (a : Nat × List (List Byte)) e =>
      match d.elem e with
      | some _ => (a.1 + 1, c.bytesOf a.1 :: a.2)
      | none => (a.1, List.replicate d.esize 0 :: a.2)) (0, [])
    r.2.reverse.flatten

def Copy.bytes (c : Copy) : List Byte := if c.desc = [] then acpBytes c else boxBytes c

/-- `FESET` takes its step before the engine completions of its cycle, whose granules stay FULL (08 R178). -/
def fesetStep (b t : Nat) (o : MemOp) (n : Nat) (full : Bool) (s : State) : State :=
  let landed := (s.block b).landed.flatMap fun c => gransOf c.dst c.bytes.length
  let gs := (List.range n).map (o.gran + ·)
  if full then fillBits b t o gs s else setBits b (gs.filter fun x => !landed.contains x) false s

/-- What an entry that is no load does at its step. -/
def takeStep (b t : Nat) (o : MemOp) (s : State) : State :=
  match o.kind with
  | .store => if o.scratch then performScratch b t o s else performGlobal b t o s
  | .atomic a => if o.scratch then atomScratch a b t o s else atomGlobal a b t o s
  | .fence a r => fenceStep a r b t o s
  | .feset n full => fesetStep b t o n full s
  | .release => releaseTag b o.tag (match o.rel with
      | some sc => releaseItem b t o.id sc (cacheRelease b sc s)
      | none => s)
  | _ => s

/-- The lanes of one store instruction that name one granule of global memory: they step together, in ascending home lane
(09 R183). Any other entry steps alone. -/
def storeGroup (s : State) (b t : Nat) (o : MemOp) : List (Nat × MemOp) :=
  if o.isStore && !o.scratch then
    sortBy (fun x y => decide (homeLane (s.launchOf b) x.1 ≤ homeLane (s.launchOf b) y.1))
      ((tidsOf (s.block b)).flatMap fun t' =>
        ((s.thread b t').ops.filter fun p => p.isStore && !p.scratch && p.iss = o.iss && p.gran = o.gran && !releaseLost s b t' p).map
          fun p => (t', p))
  else [(t, o)]

/-- One entry takes its step and leaves its queue. -/
def performOp (b t : Nat) (o : MemOp) (s : State) : State :=
  (sendPool b o (dropOp b t o.id (takeStep b t o (sendPool b o s)))).tickNow

/-- STORE_PERFORM (09 R181): a store, an atomic, a release event or a fence takes its step. -/
def execStorePerform (b t op : Nat) (s : State) : Result :=
  match findOp s b t op with
  | none => .next s
  | some o =>
    let isLoad := o.reads && !o.isAtomic
    if isLoad then .next s
    else if o.isAccess && !o.scratch && lostAt s (ctxOf s b) o.va then .next (chargeLost b t o s)
    else if releaseLost s b t o then
      .next (takeFault (threadRec s b 0x18 [t] o.pc o.va) (abandonOp b t o s))
    else
      let g := storeGroup s b t o
      if !(g.all fun e => opReady s b e.1 e.2) then .next (if unheld (s.thread b t) o then sendPool b o s else s)
      else if poolHeld (sendPool b o s) b o then .next (sendPool b o s)
      else .next (g.foldl (fun s e => performOp b e.1 e.2 s) s)

/-! ### Satisfying a load (09 R181, R182, R185, R189; 08 R162) -/

/-- The granule whose stores an access reads. -/
def MemOp.source (o : MemOp) : Nat := if o.alias_ then o.gran - 2 ^ 68 else o.gran

/-- The store that a tainted load may not be older than: what each older LDC, as an acquire at its step, would have raised
the floor to (09 R189). -/
def consumeFloor (s : State) (b t : Nat) (o : MemOp) : Nat :=
  if o.taint then
    ((s.thread b t).consumes.filter fun c => decide (c.1 < o.id)).foldl (fun m c =>
      let k := instOf s b c.2.1
      match syncStep s c.2.2.1 k with
      | some w => if w ≤ c.2.2.2 then max m (newestBefore s o.source k w) else m
      | none => m) 0
  else 0

/-- The stores an alias may read: those a release at .sys covered before the reader's latest acquire there; a PRIV store of them
only where it had widened by then (09 R190). -/
def aliasSees (s : State) (b : Nat) (x : Item) : Bool :=
  match x.relSys with
  | some r => decide (r ≤ (s.block b).sysAcq) && (!x.priv || (visStep s x .sys).any fun v => decide (v ≤ (s.block b).sysAcq))
  | none => false

/-- The store of another module that a load may not be older than, from its perform step on (15 R254). -/
def peerFloor (s : State) (g τ : Nat) : Nat :=
  newestFrom (fun x => x.gran = some g && x.thr.isNone && x.vis.any fun v => v.1 = .pool && decide (v.2 ≤ τ)) 0 s.items 0

/-- The store with index x1 − 1 (0 is the initial one) may be returned at step τ. -/
def mayReturn (s : State) (b t : Nat) (o : MemOp) (x1 τ : Nat) : Bool :=
  let seen := fun (x : Item) => x.gran = some o.source && if o.alias_ then aliasSees s b x else visibleAt s x (.blk b) τ
  let low := if o.alias_ then newestFrom seen 0 (s.items.take (floorAt s b o.source (s.block b).sysAcq)) 0 else 0
  (x1 = 0 || (s.items[x1 - 1]?).any seen) && decide (floorAt s b o.gran τ ≤ x1) && decide (low ≤ x1) &&
    decide (consumeFloor s b t o ≤ x1) && decide (peerFloor s o.source τ ≤ x1) &&
    s.floors.all fun e => !(e.1 = b && e.2.1 = o.gran && decide (τ < e.2.2.2)) || decide (x1 ≤ e.2.2.1)

/-- A load may have taken its value at an earlier step: none of the thread's order lies between (09 R182), nor, for a
tainted address, an older LDC (09 R189). What acquires, or acts on the full/empty bit, takes it at its own step (09 R185). -/
def mayBeEarly (s : State) (b t : Nat) (o : MemOp) (τ : Nat) : Bool :=
  let th := s.thread b t
  decide (τ ≤ s.now) && (τ = s.now ||
    (!o.alias_ && !o.acquires && o.tag = .none && decide (th.orderPt ≤ τ) &&
      (!o.taint || (th.consumes.filter fun c => decide (c.1 < o.id)).all fun c => decide (c.2.2.2 ≤ τ)) &&
      th.gran.all fun g => g.1 ≠ o.mark || decide (g.2 ≤ τ)))

/-- The bytes of a load go to its producer or its copy. -/
def deliver (b t : Nat) (o : MemOp) (data : List Byte) (s : State) : State :=
  match o.kind with
  | .copyRead c e =>
    let take := fun (x : Copy) => { x with got := x.got.filter (·.1 ≠ e) ++ [(e, data)] }
    modBlock b (fun k => { k with copies := modIf (fun x => x.id = c && x.tid = t) take k.copies }) s
  | _ => readyProd b t (o.prod.getD 0) (loadWords o.size o.sext data) s

/-- The steps that an acquiring load of scratch synchronizes with (09 Table 09.2): of the event that made its granule FULL, of
the newest store to it. -/
def syncSteps (k : Block) (o : MemOp) : List Nat :=
  let full := sget 0 o.gran k.fullAt
  let stored := sget 0 o.gran k.storedAt
  match o.tag with
  | .full a | .take a => if a then [full, stored] else [full]
  | _ => [stored]

/-- The bytes that a load of scratch takes at a step. -/
def scratchData (k : Block) (o : MemOp) (τ : Nat) : List Byte := ((granPast k o.gran τ).drop (o.addr % 16)).take o.size

def satisfyScratch (b t : Nat) (o : MemOp) (τ : Nat) (s : State) : State :=
  let k := s.block b
  let s := if o.acquires then noteAcq b t .blk ((syncSteps k o).foldl (fun s w => acquireFrom b (.blk b) w s) s) else s
  deliver b t o (scratchData k o τ) (readScratch b t (writtenAt k o.gran τ) (noteGran b t o.mark s))

/-- The lanes of one `LDS.c` or `LDS.wc` that name one granule: all of them read it, and the bit is cleared once (08 R168). -/
def clearGroup (s : State) (b t : Nat) (o : MemOp) : List (Nat × MemOp) :=
  if o.tag.clears then
    (tidsOf (s.block b)).flatMap fun t' =>
      ((s.thread b t').ops.filter fun p => p.tag = o.tag && p.iss = o.iss && p.gran = o.gran).map fun p => (t', p)
  else [(t, o)]

/-- Scratch loads that read together take their step, with the values of a step. -/
def satisfyTogether (b : Nat) (g : List (Nat × MemOp)) (o : MemOp) (τ : Nat) (s : State) : State :=
  let s := g.foldl (fun s e => dropOp b e.1 e.2.id (satisfyScratch b e.1 e.2 τ s)) s
  if o.tag.clears then setBits b [o.gran] false s else s

def satisfyGlobal (b t : Nat) (o : MemOp) (x1 τ : Nat) (s : State) : State :=
  let data := ((granValue s o.source x1).drop (o.addr % 16)).take o.size
  let s := if floorAt s b o.gran τ < x1 then setFloor b o.gran x1 τ s else s
  let s := noteRead b t x1 (noteGran b t o.mark s)
  let s := modThread b t (fun th => { th with
    consumes := match o.consume with
      | some sc => th.consumes ++ [(o.id, sc, x1, τ)]
      | none => th.consumes }) s
  let s := match o.acq with
    | some sc => noteAcq b t sc (if (syncStep s x1 (instOf s b sc)).any (· ≤ τ) then acquireRead b sc x1 s else s)
    | none => s
  deliver b t o data s

/-- LOAD_SATISFY: a load, or a read of a copy, returns a store. -/
def execLoadSatisfy (b t op : Nat) (item : Option Nat) (early : Nat) (s : State) : Result :=
  match findOp s b t op with
  | none => .next s
  | some o =>
    let isLoad := o.reads && !o.isAtomic
    if !isLoad then .next s
    else if !o.scratch && lostAt s (ctxOf s b) o.va then .next (chargeLost b t o s)
    else if !opReady s b t o then .next s
    else if o.scratch then
      let g := clearGroup s b t o
      if mayBeEarly s b t o early && g.all fun e => opReady s b e.1 e.2 then .next (satisfyTogether b g o early s).tickNow else .next s
    else
      let x1 := match item with
        | some i => i + 1
        | none => 0
      if mayBeEarly s b t o early && mayReturn s b t o x1 early then
        .next (dropOp b t op (satisfyGlobal b t o x1 early s)).tickNow
      else .next s

/-! ### Advancing a frontier (09 R181, R190; 13 R242) -/

/-- The store is in the log of a block. -/
def logged (s : State) (i : Nat) : Bool := s.blocks.any fun k => k.log.contains i

/-- Earlier stores of a log that a performed log has before an item are not visible in an instance yet (13 R242). -/
def logHolds (s : State) (b i : Nat) (k : Inst) : Bool :=
  let done := (s.block b).performed
  done.contains i && (done.takeWhile (· ≠ i)).any fun j =>
    let y := s.items.getD j default
    !y.priv && y.vis != [] && (visStep s y k).isNone

/-- A byte of a context, by its key, lies in a pool region. -/
def inPools (s : State) (key : Nat) : Bool :=
  (s.ctx (key / 2 ^ 56)).pools.any fun p => decide (p.base ≤ key % 2 ^ 56 ∧ key % 2 ^ 56 < p.base + p.len)

/-- What the advance of a store does in the caches: at `.sys` its pool line goes to its device, from `.dev` on the copies of other
sharers go. -/
def reachWider (b item wider key : Nat) (s : State) : State :=
  let x := s.items.getD item default
  let s := if wider = 4 && inPools s key then pushPool (key / 2 ^ 56) (fun l => x.inLine l.ctx l.addr) s else s
  dropSharers b (scopeOfRank wider) (key / 2 ^ 56) (key % 2 ^ 56) s

/-- FRONTIER_ADVANCE: an item becomes visible in a wider instance. PRIV stores and logged stores do not,
nor do stores to a LOST region beyond the device (15 R257); at `.sys` a pool line is on its device (08 Table 08.4). -/
def execFrontierAdvance (item wider : Nat) (s : State) : Result :=
  match s.items[item]? with
  | none => .next s
  | some x => match x.thr with
    | none => .next s
    | some (b, _) =>
      let k := instOf s b (scopeOfRank wider)
      let held := fun (g : Nat) => (decide (3 ≤ wider) && lostAt s (g / 2 ^ 56) (g % 2 ^ 56)) ||
        recallHeld s (otherSharer b (scopeOfRank wider) (g / 2 ^ 56) (g % 2 ^ 56) s) ||
        (wider = 4 && inPools s g && !portUp s (portOf s (g / 2 ^ 56) (g % 2 ^ 56)))
      if x.priv || logged s item || x.vis = [] || (visStep s x k).isSome || logHolds s b item k || x.gran.any (fun g => held (g * 16)) then .next s
      else
        let s := match x.gran with
          | some g => reachWider b item wider (g * 16) s
          | none => s
        .next { s with items := modAt (fun x => { x with vis := x.vis ++ [(k, s.now)] }) item s.items }.tickNow

/-! ### Completion of copies (10 R197-R199, 20 R363) -/

def findCopy (s : State) (b id t : Nat) : Option Copy := (s.block b).copies.find? fun c => c.id = id && c.tid = t

/-- Its reads have all returned and nothing has ended it. -/
def Copy.readyToLand (c : Copy) : Bool := !c.cancelled && !c.dead && c.got.length = c.total

/-- Order of copies that complete in one cycle: the later issue, then the higher home lane, stays (10 R199). -/
def copyAfter (l : Launch) (c d : Copy) : Bool :=
  decide (d.issued < c.issued ∨ (d.issued = c.issued ∧ homeLane l d.tid < homeLane l c.tid))

/-- The counter of a tag falls; the step of the completion is kept (09 Table 09.2). -/
def lowerTag (b : Nat) (c : Copy) (s : State) : State :=
  modWave b (homeWave (s.launchOf b) c.tid) (fun w =>
    { w with tags := modAt (· - 1) c.tag w.tags, tagAt := modAt (fun _ => s.now) c.tag w.tagAt }) s

/-- A copy writes its bytes, but for those that a copy of a later issue has written in this cycle (10 R199). -/
def landScratch (b : Nat) (c : Copy) (s : State) : State :=
  let l := s.launchOf b
  let later := (s.block b).landed.filter fun d => copyAfter l d c
  let mine := fun (i : Nat) => !(later.any fun d => decide (d.dst ≤ c.dst + i ∧ c.dst + i < d.dst + d.bytes.length))
  let gs := gransOf c.dst c.bytes.length
  let s := ((List.range c.bytes.length).filter mine).foldl (fun s i =>
    modBlock b (fun k => { k with scratch := memSet k.scratch (c.dst + i) (c.bytes.getD i 0) }) s) (notePast b gs s)
  let s := modBlock b (fun k => { k with storedAt := gs.foldl (fun m g => sset 0 g s.now m) k.storedAt, landed := insertBy (fun x y => copyAfter l y x) c k.landed }) s
  setBits b gs true s

/-- The copy leaves the list. -/
def dropCopy (b : Nat) (c : Copy) : State → State :=
  modBlock b fun k => { k with copies := k.copies.filter fun x => !(x.id = c.id && x.tid = c.tid) }

def landCopy (b : Nat) (c : Copy) (s : State) : State := (lowerTag b c (landScratch b c (dropCopy b c s))).tickNow

/-- Entries of the issuing wave from before a copy, and its signs before it that are not captured, hold its completion,
which is a release at `.blk` and whose writes are stores of that wave (09 R184, R187, R192, R193, Table 09.2). -/
def landHeld (s : State) (b : Nat) (c : Copy) : Bool :=
  let l := s.launchOf b
  (tidsOf (s.block b)).any fun t => homeWave l t = homeWave l c.tid &&
    (((s.thread b t).ops.any fun o =>
        decide (o.iss < c.issued) && ((o.isAccess && !(o.isStore && o.priv)) || o.isFence || o.rel.isSome ||
          (gransOf c.dst (if c.desc = [] then 32 else c.n)).any (touchesGran o))) ||
      (s.thread b t).aBusy.any fun a => decide (a.iss < c.issued))

/-- ACP_TRANSFER_COMPLETE. The copy is named by its thread and number: id * 1024 + TID. -/
def execAcpTransferComplete (b id : Nat) (s : State) : Result :=
  match findCopy s b (id / 1024) (id % 1024) with
  | some c => if c.desc = [] && c.readyToLand && !landHeld s b c then .next (landCopy b c s) else .next s
  | none => .next s

end Sys2Proof.Machine
end

