-- ==== Sys2Proof/Machine/Cache.lean ====
section
/-!
DEFINITION. The path of a global access: caches, translation, walks, controllers, migration (08 R159-R178; 03 R78;
13 R246; 15 R250, R252).
-/

namespace Sys2Proof.Machine

open Sys2Proof

/-! ### Homes and interleave (08 R159, R173) -/

/-- The XOR of all bit pairs of a 35-bit granule number. -/
def foldPairs (g : Nat) : Nat := (List.range 18).foldl (fun h i => h ^^^ (g / 4 ^ i % 4)) 0

/-- The home of a granule that is not in the pool window. -/
def homeByMap (c : Context) (va : Nat) : Nat :=
  let g := va / 2 ^ 21
  match c.spec.homeMap.find? fun e => decide (e.1 ≤ g ∧ g < e.1 + e.2.1) with
  | some e => e.2.2
  | none => c.spec.num % 4 ^^^ foldPairs g

/-- The home die of an address, 4 for the hub. -/
def homeOf (s : State) (ctx va : Nat) : Nat :=
  match walk s ctx va with
  | .leaf l => if isPool l.frame then 4 else homeByMap (s.ctx ctx) va
  | _ => homeByMap (s.ctx ctx) va

/-- The HBM stack of a line within its die. -/
def stackOf (d : Die) (pa : Nat) : Nat :=
  (xor (pa.testBit 21) (parityN 56 (pa &&& (d.smask.toNat &&& 0x00FFFFFFFFC00000)))).toNat

/-- The pseudo-channel index of a line within its stack. -/
def pseudoChannel (d : Die) (pa : Nat) : Nat :=
  maskOf ((List.range 6).filter fun i =>
    xor (pa.testBit (7 + i)) (parityN 56 (pa &&& ((d.hmask.getD i 0).toNat &&& 0x00FFFFFFFFFFE000))))

/-- The controller that drives a device physical address: two for HBM and four for LPDDR-6 on each die, one for each package,
and the pool translator of the hub. Consecutive lines of a die's LPDDR-6 go to its packages in rotation (DEDUCED, log
15). -/
def ctlOf (s : State) (pa : Nat) : Nat :=
  let t := bitsOf pa 55 48
  if t < 4 then 6 * t + stackOf (s.die t) pa
  else if t < 8 then 6 * (t - 4) + 2 + pa / 128 % 4
  else 24

/-- The walker of a controller: die and group (08 R166). -/
def walkerOf (c : Nat) : Nat × Nat := if c = 24 then (4, 0) else (c / 6, if c % 6 < 2 then 0 else 1)

/-- Engine kind 4: a memory controller. -/
def ctlSource (c : Nat) : Nat := sourceCode 4 (c / 6) (c % 6)

/-! ### Lines -/

def lineAddr (va : Nat) : Nat := va / 128 * 128

def hasLine (s : State) (p : Place) (ctx va : Nat) : Option Line :=
  s.lines.find? fun l => l.place = p && l.ctx = ctx && l.addr = lineAddr va

/-- L2 lines that a unit of a codec region takes. -/
def unitLines (r : Region) : Nat := max r.pbs 128 / 128

/-- L2 lines of a die that codec units take. -/
def codecLines (s : State) (d : Nat) : Nat :=
  s.units.foldl (fun n u => n + (((s.ctx u.ctx).regions.filter fun r => r.idx = u.region && r.die = d).map unitLines).foldl (· + ·) 0) 0

/-- A line of a codec region in an L2: its unit holds the room. -/
def Line.inUnit (l : Line) : Bool := l.cb && match l.place with
  | .l2 _ => true
  | _ => false

/-- The L2 of a die, of 96 MiB, has room for n lines (01 Table 01.4). -/
def roomL2 (s : State) (d n : Nat) : Bool :=
  decide ((s.lines.filter fun l => l.place = .l2 d && !l.inUnit).length + codecLines s d + n ≤ 786432)

/-- The lines of a place that stand where a line would: its set of the L1. -/
def rivalLines (s : State) (p : Place) (ctx va : Nat) : List Line :=
  s.lines.filter fun l => l.place = p && match p with
    | .l1 _ => Config.l1Set l.ctx l.addr = Config.l1Set ctx (lineAddr va)
    | _ => true

/-- A place has room for a line: 16 ways of an L1's set, 32 MiB, 96 MiB (01 Tables 01.3, 01.4). -/
def roomIn (s : State) (p : Place) (ctx va : Nat) : Bool :=
  match p with
  | .l1 _ => decide ((s.lines.filter fun l => l.place = p).length < 16) || decide ((rivalLines s p ctx va).length < 16)
  | .rdc _ => decide ((rivalLines s p ctx va).length < 262144)
  | .l2 d => roomL2 s d 1

/-- One line leaves a place. -/
def dropLine (l : Line) (s : State) : State :=
  removeLines (fun x => x.place = l.place && x.ctx = l.ctx && x.addr = l.addr) s

/-- The places a fill passes through for a core: nearest first (08 Table 08.2). -/
def pathOf (core home : Nat) : List Place :=
  let d := core / 40
  if home = d then [.l1 core, .l2 d] else if home = 4 then [.l1 core, .rdc d] else [.l1 core, .rdc d, .l2 home]

/-- A line that the replacement may not take: a dirty pool line needs its link, a codec line of the L2 leaves with its
unit (11 R203). -/
def stays (s : State) (l : Line) : Bool := (l.coh = .pool && l.dirty && !portUp s (portOf s l.ctx l.addr)) || l.inUnit

/-- A place can hold a line: it has it, or room for it, or a line that gives way. -/
def mayHold (s : State) (p : Place) (ctx va : Nat) : Bool :=
  (hasLine s p ctx va).isSome || roomIn s p ctx va || (rivalLines s p ctx va).any fun l => !stays s l

/-- One line leaves its place for another: what is dirty goes to the copy below it, else to memory. -/
def evictLine (back : Line → State → State) (s : State) (l : Line) : State :=
  let s := if !l.dirty then s else if l.coh ≠ .pool ∧ s.lines.any (takesFrom s l) then writeBackLine s l else back l s
  dropLine l (reachDevice l s)

/-- The lines the replacement gives up for a fill, by their place in the list; a full place then gives up its oldest. `back`
is the request of a write-back to memory that an eviction forces (08 R174). -/
def evictLines (path : List Place) (ctx va : Nat) (evict : List Nat) (back : Line → State → State) (s : State) : State :=
  let ls := evict.filterMap fun i => s.lines[i]?
  let s := (ls.filter fun l => path.contains l.place && !stays s l).foldl (evictLine back) s
  path.foldl (fun s p =>
    if (hasLine s p ctx va).isSome || roomIn s p ctx va then s
    else match (rivalLines s p ctx va).find? fun l => !stays s l with
      | some l => evictLine back s l
      | none => s) s

/-- The L2 of a die gives up its oldest lines until it has room for n (11 R203). -/
def freeL2 (d n : Nat) (back : Line → State → State) (s : State) : State :=
  (List.range n).foldl (fun s _ =>
    if roomL2 s d n then s
    else match s.lines.find? fun l => l.place = .l2 d && !stays s l with
      | some l => evictLine back s l
      | none => s) s

/-! ### Entries in flight -/

def modOp (b t op : Nat) (f : MemOp → MemOp) : State → State :=
  modThread b t fun th => { th with ops := modIf (fun o => o.id = op) f th.ops }

/-- The rights an entry needs of its page or line. -/
def rightsOk (o : MemOp) (rd w : Bool) : Bool :=
  match o.kind with
  | .store => w
  | .atomic _ => rd && w
  | _ => rd

/-- The line is there: the entry may take its step, or lacks its right (08 R161). -/
def finishFill (b t : Nat) (o : MemOp) (l : Line) (s : State) : State :=
  if rightsOk o l.rd l.w then modOp b t o.id (fun o => { o with fill := .done, priv := l.coh = .priv }) s
  else chargeOp (coreSource (s.block b).core) 0x0C b t o id s

/-- A request leaves the core: a load that missed the L1 waits long (02 Table 02.2; an atomic does not), and a miss on an
own victim tag grows the lease (03 R78). -/
def noteMiss (b t : Nat) (o : MemOp) (s : State) : State :=
  let w := homeWave (s.launchOf b) t
  let ctx := ctxOf s b
  let core := (s.block b).core
  let tag := (ctx, lineAddr o.va, some (b, w))
  let s := modOp b t o.id (fun o => { o with left := s.cycle }) s
  let s := if o.isAtomic then s
    else modThread b t (fun th => { th with prods := modIf (fun p => some p.id = o.prod) (fun p => { p with missed := true }) th.prods }) s
  if (s.core core).victims.contains tag then
    modWave b w (fun v => { v with measured := min 2048 (v.measured + 1) })
      (modCore core (fun c => { c with victims := c.victims.erase tag }) s)
  else s

/-- A line of a leaf. -/
def lineOf (p : Place) (ctx va gen : Nat) (l : Leaf) (filler : Option (Nat × Nat)) : Line :=
  ⟨p, ctx, lineAddr va, l.x, l.w, l.rd, l.coh, l.cb, l.creg, gen, false, false, false, filler, none⟩

/-- Puts a line into the places of a path that lack it. -/
def installPath (path : List Place) (mk : Place → Line) (s : State) : State :=
  path.foldl (fun s p => let l := mk p; if (hasLine s p l.ctx l.addr).isSome then s else { s with lines := s.lines ++ [l] }) s

/-- Ownership of a pool line for one remote-data cache; what another held dirty reaches the device (15 R252). -/
def ownLine (die ctx va : Nat) (s : State) : State :=
  let mine := fun (l : Line) => l.ctx = ctx && l.addr = lineAddr va && l.coh = .pool
  let other := fun (l : Line) => mine l && match l.place with
    | .rdc d => d ≠ die
    | _ => false
  let s := (s.lines.filter other).foldl (fun s l => reachDevice l s) s
  let own := fun (l : Line) => if !mine l then l else if l.place = .rdc die then { l with owned := true }
    else if other l then { l with owned := false, dirty := false, wb := false } else l
  { s with lines := s.lines.map own }

/-- Ownership before a store, asked of the device over its link. -/
def takeOwnership (die ctx va : Nat) (o : MemOp) (s : State) : State :=
  if (o.isStore || o.isAtomic) && portUp s (portOf s ctx va) then ownLine die ctx va s else s

/-! ### TLBs and walks (08 R166) -/

def tlbHit (c : Controller) (ctx va : Nat) : Option Leaf :=
  (c.tlb.find? fun e => e.1 = ctx && decide (e.2.1 ≤ va ∧ va < e.2.1 + pageSize e.2.2)).map fun e => e.2.2

/-- A leaf translates an address: a pool offset that no decoder covers has no translation (15 R250). -/
def leafCovers (s : State) (l : Leaf) (va : Nat) : Bool := !isPool l.frame || (decoderOf s (physOf l va)).isSome

/-- A translation enters a TLB of 32,768 entries, whose oldest leaves (DESIGN CHOICE, log 108). -/
def addTlb (ctx va : Nat) (l : Leaf) (c : Controller) : Controller :=
  let t := c.tlb ++ [(ctx, va / pageSize l * pageSize l, l)]
  { c with tlb := t.drop (t.length - 32768) }

/-- An invalidation by the MM (08 R166). -/
def dropTlb (ctx base len : Nat) (s : State) : State :=
  let hit := fun (e : Nat × Nat × Leaf) => e.1 = ctx && decide (e.2.1 < base + len ∧ base < e.2.1 + pageSize e.2.2)
  { s with ctls := s.ctls.map fun c => { c with tlb := c.tlb.filter fun e => !hit e } }

/-- The controller a request goes to; the first of the home die where there is no translation. -/
def ctlFor (s : State) (ctx va : Nat) : Nat :=
  match walk s ctx va with
  | .leaf l => ctlOf s (physOf l va)
  | _ => 6 * homeByMap (s.ctx ctx) va

/-- The TLB of an address's controller translates it. -/
def tlbLook (s : State) (ctx va : Nat) : Option Leaf :=
  (tlbHit (s.ctl (ctlFor s ctx va)) ctx va).filter fun l => leafCovers s l va

/-- The relative deadline of a context and class in cycles (08 R174): 4 ns are 9 cycles; none set never passes. -/
def deadlineOf (s : State) (ctx cls : Nat) : Nat :=
  match (s.ctx ctx).deadlines[cls]? with
  | some u => if u = 0 then 2 ^ 64 else 9 * u
  | none => 2 ^ 64

/-- A request arrives at a controller; beyond its class's reservation it is served at class 2 (08 R175, R178). The stages
that held it since it left its requester have taken their time off its relative deadline (08 R174). `page` is the 64 KiB
page of its context that it reaches, `walk` the walk whose read it is. -/
def arriveFor (walk : Option WalkKey) (thr : Option (Nat × Nat × Nat)) (ctx cls pa who ctl left : Nat) (page : Option Nat)
    (s : State) : State :=
  let now := s.cycle
  let due := left + deadlineOf s ctx cls
  modCtl ctl (fun c =>
    let late := (cls = 0 && decide (c.budget < 10 * (c.used0 + 128))) || (cls = 1 && decide (3 * c.budget < 10 * (c.used1 + 128)))
    let c := if cls = 0 then { c with used0 := c.used0 + 128 } else if cls = 1 then { c with used1 := c.used1 + 128 } else c
    { c with reqs := c.reqs ++ [⟨thr, ctx, if late then 2 else cls, cls, due, now, pa, page, who, walk⟩] }) s

/-- A request that reaches data. -/
def arrive (thr : Option (Nat × Nat × Nat)) (ctx cls pa who ctl left : Nat) (page : Option Nat) (s : State) : State :=
  arriveFor none thr ctx cls pa who ctl left page s

/-- A translation that a walk has found enters the TLBs of the walker's controllers (08 R166); that it is those of all of them is
a DESIGN CHOICE (log 108). -/
def fillTlb (group : Nat × Nat) (ctx va : Nat) (l : Leaf) (s : State) : State :=
  let put := fun (i : Nat) => let c := s.ctl i; if walkerOf i = group then addTlb ctx va l c else c
  { s with ctls := (List.range s.ctls.length).map put }

/-- The running walks of a group (08 R166). -/
def walksOf (s : State) (group : Nat × Nat) : List Walk := s.walks.filter fun w => w.die = group.1 && w.group = group.2 && w.runs

/-- The page of an address, in units of 64 KiB: of the size that its entry gives. -/
def pageOf (s : State) (ctx va : Nat) : Nat :=
  match walk s ctx va with
  | .leaf l => va / pageSize l * pageSize l / 2 ^ 16
  | _ => va / 2 ^ 16

def Walk.key (w : Walk) : WalkKey := (w.die, w.group, w.ctx, w.page)

/-- The walk that a miss on an address joins or opens. -/
def walkKey (s : State) (ctx va : Nat) : WalkKey :=
  let g := walkerOf (ctlFor s ctx va)
  (g.1, g.2, ctx, pageOf s ctx va)

/-- The requests for the entries that a walk reads, of the requester and at the class of the request that caused it (08 R174). -/
def askReads (k : WalkKey) (who cls : Nat) (s : State) : State :=
  (walkReads s k.2.2.1 (k.2.2.2 * 2 ^ 16)).foldl (fun s a => arriveFor (some k) none k.2.2.1 cls a who (ctlOf s a) s.cycle none s) s

/-- The walk has read its entries: none of its requests is out. -/
def walkRead (s : State) (k : WalkKey) : Bool := !s.ctls.any fun c => c.reqs.any fun r => r.walk = some k

/-- A request with its translation goes to its controller. -/
def landAsk (ctx : Nat) (l : Leaf) (a : Ask) (s : State) : State :=
  let pa := physOf l a.va + a.off
  arrive none ctx a.cls pa a.who (ctlOf s pa) a.left (some ((a.va + a.off) / 2 ^ 16)) s

/-- A request of a requester without an entry misses the TLB: it joins the walk of its page, or opens one, which waits where 64
of its group run (08 R166). -/
def walkAsk (ctx : Nat) (a : Ask) (s : State) : State :=
  let k := walkKey s ctx a.va
  if s.walks.any fun w => w.key = k then
    { s with walks := modIf (fun w => w.key = k) (fun w => { w with asks := w.asks ++ [a] }) s.walks }
  else
    let run := decide ((walksOf s (k.1, k.2.1)).length < 64)
    let s := { s with walks := s.walks ++ [⟨k.1, k.2.1, ctx, k.2.2.2, [], [a], run⟩] }
    if run then askReads k a.who a.cls s else s

/-- A request of a requester without an entry: its translation out of the TLB, or by a walk (08 R166, R174). -/
def askAt (who cls ctx va off : Nat) (s : State) : State :=
  let a : Ask := ⟨who, cls, va, off, s.cycle⟩
  match tlbLook s ctx va with
  | some l => landAsk ctx l a s
  | none => walkAsk ctx a s

/-- One request for each line of a range, of a requester without an entry (08 R174). -/
def askRange (who cls ctx va n : Nat) (s : State) : State :=
  ((List.range ((va % 128 + n + 127) / 128)).map fun i => va / 128 * 128 + 128 * i).foldl (fun s a => askAt who cls ctx a 0 s) s

/-- Requests of a context to a range are outstanding, at a controller or in a walk (08 R165). -/
def rangeBusy (s : State) (ctx base len : Nat) : Bool :=
  let here := fun (p : Nat) => decide (base < (p + 1) * 2 ^ 16 ∧ p * 2 ^ 16 < base + len)
  (s.ctls.any fun c => c.reqs.any fun r => r.ctx = ctx && r.page.any here) ||
    s.walks.any fun w => w.ctx = ctx && ((w.asks.any fun a => here ((a.va + a.off) / 2 ^ 16)) || (w.ops != [] && here w.page))

/-- Requests of a requester without entries are out, to some page of a context. -/
def askPendingAt (s : State) (who ctx va : Nat) : Bool :=
  (s.ctls.any fun c => c.reqs.any fun r => r.who = who && r.thr.isNone && r.ctx = ctx && r.page = some (va / 2 ^ 16)) ||
    s.walks.any fun w => w.ctx = ctx && w.asks.any fun a => a.who = who && a.va / 2 ^ 16 = va / 2 ^ 16

/-- A requester waits for some of its requests. -/
def askPending (s : State) (who : Nat) : Bool :=
  (s.ctls.any fun c => c.reqs.any fun r => r.who = who) || s.walks.any fun w => w.asks.any fun a => a.who = who

/-- The requester of an entry (08 R176). -/
def requester (s : State) (b : Nat) (o : MemOp) : Nat :=
  match o.kind with
  | .copyRead _ _ => 256 + (s.block b).core
  | _ => (s.block b).core

/-- An entry with a translation waits at its controller. -/
def queueOp (b t : Nat) (o : MemOp) (l : Leaf) (s : State) : State :=
  let pa := physOf l o.va
  let s := arrive (some (b, t, o.id)) (ctxOf s b) (s.launchOf b).cls pa (requester s b o) (ctlOf s pa) o.left (some (o.va / 2 ^ 16)) s
  modOp b t o.id (fun o => { o with fill := .queued }) s

/-- A miss joins the walk of its page, or opens one of at most 64 of its group; else it waits. -/
def joinWalk (b t : Nat) (o : MemOp) (s : State) : State :=
  let ctx := ctxOf s b
  let k := walkKey s ctx o.va
  let walking := modOp b t o.id (fun o => { o with fill := .walking })
  if s.walks.any fun w => w.key = k then
    walking { s with walks := modIf (fun w => w.key = k) (fun w => { w with ops := w.ops ++ [(b, t, o.id)] }) s.walks }
  else if (walksOf s (k.1, k.2.1)).length < 64 then
    askReads k (requester s b o) (s.launchOf b).cls
      (walking { s with walks := s.walks ++ [⟨k.1, k.2.1, ctx, k.2.2.2, [(b, t, o.id)], [], true⟩] })
  else s

/-- The accesses of a walk end without a translation: its opener is charged, and the others that merged end ABANDONED (08 R166;
log 25). -/
def endOps (charge : Nat → Nat → MemOp → State → State) (ops : List (Nat × Nat × Nat)) (s : State) : State :=
  let one := fun (first : Bool) (s : State) (r : Nat × Nat × Nat) =>
    match findOp s r.1 r.2.1 r.2.2 with
    | none => s
    | some o => if first then charge r.1 r.2.1 o s else abandonOp r.1 r.2.1 o s
  match ops with
  | [] => s
  | r :: rest => rest.foldl (one false) (one true s r)

/-- Fault 0x0E. -/
def noTranslation (source : Nat) : List (Nat × Nat × Nat) → State → State :=
  endOps fun b t o => chargeOp source 0x0E b t o id

/-- An uncorrectable error consumed by an entry: rollback where it can, else fault 0x1A, deferred, of the thread even for
a store (13 R244, Table 13.2). -/
def memoryError (source b t : Nat) (o : MemOp) (s : State) : State :=
  if canRollBack (s.block b) then rollBack b 0x1A [t] o.pc o.va s
  else takeFault { threadRec s b 0x1A [t] o.pc o.va with source := source } (abandonOp b t o s)

/-- A walker that is free takes the oldest walk of its group that waits. -/
def startWalk (group : Nat × Nat) (s : State) : State :=
  match s.walks.find? fun w => w.die = group.1 && w.group = group.2 && !w.runs with
  | some w =>
    let a := w.asks.headD default
    if (walksOf s group).length < 64 then
      askReads w.key a.who a.cls { s with walks := modIf (fun x => x.key = w.key) (fun x => { x with runs := true }) s.walks }
    else s
  | none => s

/-- The walk has found its leaf: it enters the TLBs, and every request merged into the walk goes on, but for those whose address
no decoder covers, which have no translation (15 R250). -/
def endWalkAt (w : Walk) (l : Leaf) (s : State) : State :=
  let covered := fun (s : State) (r : Nat × Nat × Nat) => (findOp s r.1 r.2.1 r.2.2).all fun o => leafCovers s l o.va
  let bare := w.ops.filter fun r => !covered s r
  let s := noTranslation (ctlSource (6 * w.die)) bare (fillTlb (w.die, w.group) w.ctx (w.page * 2 ^ 16) l s)
  let s := (w.ops.filter fun r => !bare.contains r).foldl (fun s r => match findOp s r.1 r.2.1 r.2.2 with
    | some o => queueOp r.1 r.2.1 o l s
    | none => s) s
  (w.asks.filter fun a => leafCovers s l (a.va + a.off)).foldl (fun s a => landAsk w.ctx l a s) s

/-- PAGE_WALK: the walk of a page, whose reads of the tables have been served, ends for every request merged into it. -/
def execPageWalk (die group ctx va : Nat) (s : State) : Result :=
  match s.walks.find? fun w => w.key = (die, group, ctx, va / 2 ^ 16) with
  | none => .next s
  | some w =>
    if !w.runs || !walkRead s w.key then .next s
    else
      let s1 := { s with walks := s.walks.erase w }
      let out := startWalk (die, group)
      if walkBad s ctx va then .next (out (endOps (memoryError (ctlSource (6 * die))) w.ops s1))
      else match walk s ctx va with
        | .reserved pa => .fault (.reservedTarget pa)
        | .absent => .next (out (noTranslation (ctlSource (6 * die)) w.ops s1))
        | .leaf l => .next (out (endWalkAt w l s1))

/-! ### The fill of a line (08 R160, R161) -/

/-- Blocks per unit. -/
def perUnit (r : Region) : Nat := max r.pbs 128 / r.pbs

/-- The blocks of a unit. -/
def blksOf (r : Region) (unit : Nat) : List Nat := (List.range (perUnit r)).map (unit * perUnit r + ·)

/-- Fills of a unit are in progress. -/
def filling (s : State) (ctx : Nat) (r : Region) (unit : Nat) : Bool :=
  s.fills.any fun f => f.ctx = ctx && f.region = r.idx && unitOf r f.blk = unit

/-- An access that has missed the caches on a unit and waits for it. -/
def missesOn (r : Region) (unit : Nat) (o : MemOp) : Bool :=
  !o.scratch && o.isAccess && (o.fill = .walking || o.fill = .queued || o.fill = .served) &&
    decide (r.base ≤ o.va ∧ o.va < r.base + r.len) && unitOf r ((o.va - r.base) / r.pbs) = unit

/-- The opener of a unit's fills: of the accesses that wait for it, the one that missed first; of one cycle, that of the
lower core, then of the lower sub-core, then of the lower home lane (11 R212). -/
def openerOf (s : State) (ctx : Nat) (r : Region) (unit : Nat) : Opener :=
  let es := (List.range s.blocks.length).flatMap fun b =>
    if ctxOf s b = ctx then (tidsOf (s.block b)).flatMap fun t => ((s.thread b t).ops.filter (missesOn r unit)).map fun o => (b, t, o) else []
  let key := fun (e : Nat × Nat × MemOp) =>
    ((e.2.2.left * 160 + (s.block e.1).core) * 4 + e.2.2.sub) * 32 + homeLane (s.launchOf e.1) e.2.1
  ⟨(leastBy key es).map fun e => (e.1, e.2.1, e.2.2.id)⟩

/-- Opens the fills of the blocks of a unit that are not filled, for its opener, where the L2 has the room (12 R224). -/
def openUnit (ctx : Nat) (r : Region) (unit : Nat) (back : Line → State → State) (s : State) : State :=
  let op := openerOf s ctx r unit
  let fills := fun (have_ : List Nat) => ((blksOf r unit).filter fun k => !have_.contains k).map fun k => (⟨ctx, r.idx, k, 1, op⟩ : CFill)
  match s.units.find? fun x => x.ctx = ctx && x.region = r.idx && x.unit = unit with
  | some u => if u.installed || filling s ctx r unit then s else { s with fills := s.fills ++ fills u.filled }
  | none =>
    let s := freeL2 r.die (unitLines r) back s
    if roomL2 s r.die (unitLines r) then
      { s with units := s.units ++ [⟨ctx, r.idx, unit, false, [], [], [], [], [], []⟩], fills := s.fills ++ fills [] }
    else s

/-- The request of the write-back that a fill of an entry forces (08 R174). -/
def backOf (s : State) (b : Nat) : Line → State → State := fun x => askRange (s.block b).core (s.launchOf b).cls x.ctx x.addr 128

/-- The generation a line carries: that of the slot its block was filled from (08 R161, 11 R217). -/
def genAt (s : State) (ctx va : Nat) : Nat :=
  match regionAt s ctx va with
  | none => 0
  | some r =>
    let blk := (va - r.base) / r.pbs
    let u := s.units.find? fun x => x.ctx = ctx && x.region = r.idx && x.unit = unitOf r blk
    ((u.bind fun u => u.gens.find? (·.1 = blk)).map Prod.snd).getD r.cur

/-- Delivers a translated line of a codec generation to the core. -/
def deliverLine (b t : Nat) (o : MemOp) (l : Leaf) (gen : Nat) (evict : List Nat) (s : State) : State :=
  let ctx := ctxOf s b
  let core := (s.block b).core
  let path := pathOf core (homeOf s ctx o.va)
  let s := evictLines path ctx o.va evict (backOf s b) s
  let mk := fun p => lineOf p ctx o.va gen l (some (b, homeWave (s.launchOf b) t))
  if path.all (fun p => (hasLine s p ctx o.va).isSome || (mk p).inUnit || roomIn s p ctx o.va) then
    let s := takeOwnership (core / 40) ctx o.va o (installPath path mk s)
    finishFill b t o (mk (.l1 core)) s
  else s

/-- The first lookup of an entry: L1, then the rest of its path, then the TLB. -/
def lookUp (b t : Nat) (o : MemOp) (evict : List Nat) (s : State) : State :=
  let ctx := ctxOf s b
  let core := (s.block b).core
  match hasLine s (.l1 core) ctx o.va with
  | some l => finishFill b t o l (takeOwnership (core / 40) ctx o.va o s)
  | none =>
    let s := noteMiss b t o s
    let o := { o with left := s.cycle }
    let path := pathOf core (homeOf s ctx o.va)
    match path.findSome? fun p => hasLine s p ctx o.va with
    | some l =>
      deliverLine b t o ⟨0, l.coh, false, l.cb, l.creg, l.x, l.w, l.rd, 0, 0⟩ l.gen evict s
    | none => match tlbLook s ctx o.va with
      | some l => queueOp b t o l s
      | none => joinWalk b t o s

/-- LINE_FILL: an entry's request takes its next stop (08 Table 08.2); a line of a codec region waits for its unit. -/
def execLineFill (b t op : Nat) (evict : List Nat) (s : State) : Result :=
  match findOp s b t op with
  | none => .next s
  | some o =>
    let ctx := ctxOf s b
    if o.scratch || !o.isAccess || lineThere s b o || (o.fill = .idle && l1Before s b o) then .next s
    else if lostAt s ctx o.va then .next (chargeLost b t o s)
    else match o.fill with
      | .idle | .done => .next (lookUp b t o evict s)
      | .served => match walk s ctx o.va with
        | .leaf l => match (if l.cb then regionAt s ctx o.va else none) with
          | some r =>
            if unitReady s ctx r o.va then .next (deliverLine b t o l (genAt s ctx o.va) evict s)
            else .next (openUnit ctx r (unitOf r ((o.va - r.base) / r.pbs)) (backOf s b) s)
          | none => .next (deliverLine b t o l 0 evict s)
        | _ => .next (modOp b t op (fun o => { o with fill := .idle }) s)
      | _ => .next s

/-! ### Controllers (08 R174-R177, 13 R246) -/

/-- Requests that a controller may serve now: classes 2 and 3 wait for budget and stop in an emergency; a
pool request waits for its link. -/
def mayServe (s : State) (ctl : Nat) (r : Req) : Bool :=
  let c := s.ctl ctl
  (ctl < 24 || (decoderOf s r.pa).all fun d => portUp s d.port) &&
  (r.cls < 2 || (decide (c.used + 128 ≤ c.budget) && !(ctl < 24 && (s.die (ctl / 6)).emergency)))

/-- Class first, then the earliest deadline, then the earlier arrival. -/
def reqBefore (x y : Req) : Bool :=
  decide (x.cls < y.cls ∨ (x.cls = y.cls ∧ (x.deadline < y.deadline ∨ (x.deadline = y.deadline ∧ x.arrival ≤ y.arrival))))

def nextRequest (s : State) (ctl : Nat) : Option Req := (sortBy reqBefore ((s.ctl ctl).reqs.filter (mayServe s ctl))).head?

/-- A request that completes after its deadline counts for its requester and class (08 R176). -/
def noteDeadline (r : Req) (s : State) : State :=
  if r.deadline < s.cycle ∧ r.who < 4096 then
    let k := r.who * 4 + r.own
    { s with missed := sset 0 k (min (2 ^ 32 - 1) (sget 0 k s.missed + 1)) s.missed }
  else s

/-- The tracker counts an access per 64 KiB page (08 R170). -/
def noteHot (die ctx page : Nat) : State → State :=
  modDie die fun d =>
    if d.hot.any fun h => h.1 = ctx && h.2.1 = page then
      { d with hot := modIf (fun h => h.1 = ctx && h.2.1 = page) (fun h => (h.1, h.2.1, h.2.2 + 1)) d.hot }
    else { d with hot := d.hot ++ [(ctx, page, 1)] }

def modRemap (st : Nat) (f : RemapTable → RemapTable) : State → State := modPlat fun p => { p with remap := modAt f st p.remap }

/-- What a remap error does (13 R246): the controller switches to the copy in service, or the bank group is retired. -/
def remapStep (r : RemapEvent) (s : State) : State :=
  let src := fun (st : Nat) => ctlSource (6 * (st / 2) + st % 2)
  match r with
  | .ok => s
  | .failover st =>
    if 8 ≤ st || (s.plat.remap.getD st default).failed then s
    else logEvent (src st) .remap [st] (modRemap st (fun t => { t with mirror := !t.mirror, failed := true }) s)
  | .retire st e ls =>
    if 8 ≤ st ∨ 4096 ≤ e then s
    else logEvent (src st) .remap [st, e, ls.length] (modPlat (fun p => { p with
      poison := (p.poison ++ ls.map lineAddr).eraseDups }) (modRemap st (fun t => { t with retired := (t.retired ++ [e]).eraseDups }) s))

/-- What the active copy of a table holds. -/
def RemapTable.active (t : RemapTable) : Sparse DWord := t.copies.getD t.mirror.toNat []

/-- The MG rewrites a failed copy from the good one; it is in service again where it reads back correct, which is free (log
7). -/
def repairRemap (s : State) (st : Nat) : State :=
  if (s.plat.remap.getD st default).failed then
    let (n, s) := s.fresh
    modRemap st (fun t => { t with copies := [t.active, t.active], failed := !(Config.freeWord n).getLsbD 0 }) s
  else s

/-- CONTROLLER_SERVE: the next request is served. -/
def execControllerServe (ctl : Nat) (remap : RemapEvent) (s : State) : Result :=
  let s := remapStep remap s
  match nextRequest s ctl with
  | none => .next s
  | some r =>
    let s := modCtl ctl (fun c => { c with reqs := c.reqs.erase r, used := c.used + 128 }) s
    let s := noteDeadline r s
    let s := match r.page with
      | some p => if ctl < 24 then noteHot (ctl / 6) r.ctx p s else s
      | none => s
    match r.thr with
    | none => .next s
    | some (b, t, op) => match findOp s b t op with
      | none => .next s
      | some o =>
        if s.plat.poison.contains (lineAddr r.pa) && (regionAt s r.ctx o.va).isNone then .next (memoryError (ctlSource ctl) b t o s)
        else .next (modOp b t op (fun o => { o with fill := .served }) s)

/-- BUDGET_WINDOW: a window of 1 ms begins (08 R175). -/
def execBudgetWindow (ctl : Nat) (s : State) : Result :=
  .next (modCtl ctl (fun c => { c with used := 0, used0 := 0, used1 := 0 }) s)

/-! ### The mappings of a page table (08 R157) -/

/-- The entries of a table of n that are not zero: index and value. -/
def tableEntries (pmem : Memory) (table n : Nat) : List (Nat × Nat) :=
  (((pmem.filter fun c => decide (table ≤ c.1 ∧ c.1 < table + 8 * n)).map fun c => (c.1 - table) / 8).eraseDups).map fun i =>
    (i, leNat (memRead pmem (table + 8 * i) 8))

/-- Entries of a table of a level, and the bytes that one of them covers. -/
def tableSize (level : Nat) : Nat := if level = 1 then 256 else if level = 5 then 32 else 512
def entrySpan (level : Nat) : Nat :=
  match level with
  | 1 => 2 ^ 48
  | 2 => 2 ^ 39
  | 3 => 2 ^ 30
  | 4 => 2 ^ 21
  | _ => 2 ^ 16

/-- What the valid entries from a table on end in: address, leaf or the malformed entry. -/
def endsFrom (pmem : Memory) : Nat → Nat → Nat → Nat → List (Nat × WalkEnd)
  | 0, _, _, _ => []
  | fuel + 1, level, table, va => (tableEntries pmem table (tableSize level)).flatMap fun e =>
    let a := va + e.1 * entrySpan level
    if !bitOf e.2 63 then []
    else if bitsOf e.2 62 61 = 3 then
      let next := bitsOf e.2 55 8 * 2 ^ 8
      if level = 5 ∨ bitsOf e.2 60 56 ≠ 0 ∨ bitsOf e.2 7 0 ≠ 0 then [(a, .absent)]
      else if targetOk next then endsFrom pmem fuel (level + 1) next a else [(a, .reserved next)]
    else [(a, leafOf level e.2 (table + 8 * e.1))]

def endsOf (s : State) (ctx : Nat) : List (Nat × WalkEnd) := endsFrom s.pmem 5 1 (s.ctx ctx).spec.root 0

/-- The first byte of a leaf's page. -/
def Leaf.first (l : Leaf) : Nat := l.frame / pageSize l * pageSize l

/-- Every mapping of every context: context, address, leaf. -/
def allLeaves (s : State) : List (Nat × Nat × Leaf) :=
  s.ctxs.flatMap fun c => (endsOf s c.spec.num).filterMap fun e => match e.2 with
    | .leaf l => some (c.spec.num, e.1, l)
    | _ => none

/-! ### Migration (08 R170, R171) -/

/-- The bytes of an entry of a page table. -/
def writePte (e : Nat × BitVec 64) (s : State) : State := { s with pmem := memWrite s.pmem e.1 (leBytes 8 e.2.toNat) }
def writePtes (l : List (Nat × BitVec 64)) (s : State) : State := l.foldl (fun s e => writePte e s) s

/-! ### Host memory (03 R51) -/

/-- The key of a byte that a function reaches. -/
def hostKey (fn a : Nat) : Nat := fn * 2 ^ 64 + a
def hostWrite (fn a : Nat) (bytes : List Byte) (s : State) : State := { s with hmem := memWrite s.hmem (hostKey fn a) bytes }
def hostRead (s : State) (fn a n : Nat) : List Byte := memRead s.hmem (hostKey fn a) n

/-- A leaf entry (08 Table 08.1). -/
def pteOf (l : Leaf) : Nat :=
  let coh := match l.coh with
    | .priv => 0
    | .soft => 1
    | .hard => 2
    | .pool => 3
  2 ^ 63 + (5 - l.level) * 2 ^ 61 + coh * 2 ^ 59 + l.pin.toNat * 2 ^ 58 + l.cb.toNat * 2 ^ 57 + l.creg * 2 ^ 53 +
    l.x.toNat * 2 ^ 52 + l.w.toNat * 2 ^ 51 + l.rd.toNat * 2 ^ 50 + l.frame / 2 ^ 16 * 2 ^ 8

def Launch.live (l : Launch) : Bool := l.stage != .done

/-- A running launch leases an address of its context (03 R64). -/
def launchLeased (s : State) (ctx base len : Nat) : Bool :=
  s.launches.any fun l => l.live && l.ctx = ctx && l.ranges.any fun r => decide (r.base < base + len ∧ base < r.base + r.len)

/-- A running launch or COPY holds an address of its context (03 R64). -/
def leased (s : State) (ctx base len : Nat) : Bool :=
  launchLeased s ctx base len ||
  (s.xfers.any fun x => !x.done && x.ctx = ctx &&
    (decide (x.src < base + len ∧ base < x.src + x.len) || decide (x.dst < base + len ∧ base < x.dst + x.len)))

/-- The page was last mapped under TIER 00: by the newest MAP with a range that holds it. -/
def anyTier (s : State) (ctx va : Nat) : Bool :=
  ((s.ctx ctx).maps.find? fun r => decide (r.base ≤ va ∧ va < r.base + r.len)).any fun r => r.tier = 0

def overlaps (a n b m : Nat) : Bool := decide (a < b + m ∧ b < a + n)

/-- The mappings of other places that map a part of a page's frame. -/
def sharers (l : List (Nat × Nat × Leaf)) (e : Nat × Nat × Leaf) : List (Nat × Nat × Leaf) :=
  l.filter fun x => !(x.1 = e.1 && x.2.1 = e.2.1) && overlaps x.2.2.first (pageSize x.2.2) e.2.2.first (pageSize e.2.2)

/-- The page lies in the salvage area of a pool region (15 R258). -/
def salvagePage (s : State) (ctx va : Nat) : Bool := (s.ctx ctx).pools.any fun p => overlaps p.salvage (2 ^ 21) va (2 ^ 16)

/-- A 64 KiB mapping may follow its frame: nothing pins, leases or keeps it (08 R170, R171; 15 R258). -/
def pageMoves (s : State) (e : Nat × Nat × Leaf) : Bool :=
  e.2.2.level = 5 && !e.2.2.pin && !leased s e.1 e.2.1 (2 ^ 16) && !salvagePage s e.1 e.2.1

/-- A mapping gets another frame, and its TLB entries go. -/
def moveLeaf (frame : Nat) (s : State) (e : Nat × Nat × Leaf) : State :=
  dropTlb e.1 e.2.1 (2 ^ 16) (writePte (e.2.2.at_, BitVec.ofNat 64 (pteOf { e.2.2 with frame := frame })) s)

/-- Some context maps a part of a frame. -/
def frameMapped (s : State) (pa n : Nat) : Bool :=
  (allLeaves s).any fun e => decide (pa < e.2.2.first + pageSize e.2.2 ∧ e.2.2.first < pa + n)

/-- PAGE_MIGRATION of a 64 KiB page to a free frame of the other tier of the die, as one step, with requests of class 3 that
read the page and write it, which a die in an emergency does not serve (17 R266); every mapping of the frame follows it (08 R162,
R172). A pinned page is logged. -/
def execPageMigration (die ctx va frame : Nat) (s : State) : Result :=
  let page := va / 2 ^ 16 * 2 ^ 16
  match walk s ctx page with
  | .leaf l =>
    let old := bitsOf l.frame 55 48
    let new := bitsOf frame 55 48
    if l.level ≠ 5 ∨ old % 4 ≠ die ∨ 8 ≤ old ∨ new % 4 ≠ die ∨ 8 ≤ new ∨ new = old ∨ frame % 2 ^ 16 ≠ 0 ∨ frameBad s frame (2 ^ 16) ∨ !targetOk frame ∨ frameMapped s frame (2 ^ 16) ∨ (s.die die).emergency then .next s
    else if l.pin then .next (logEvent (ctlSource (6 * die)) .pinnedHot [ctx, page, die] s)
    else
      let all := (ctx, page, l) :: sharers (allLeaves s) (ctx, page, l)
      if anyTier s ctx page && all.all (pageMoves s) then
        let s := askRange 4096 3 ctx page (2 ^ 16) s
        .next (askRange 4096 3 ctx page (2 ^ 16) (all.foldl (moveLeaf frame) s))
      else .next s
  | _ => .next s

end Sys2Proof.Machine
end

