-- ==== Sys2Proof/Machine/Fitas.lean ====
section
/-!
DEFINITION. The Fitas machine: one instruction of one run (11 R206-R209; 20 R370-R381).
-/

namespace Sys2Proof.Machine

open Sys2Proof

/-- What an instruction does to its run: the run and the offset of a taken branch, or the end of the run. -/
abbrev XOp := XRun → Except XEnd (XRun × Option Int)

def XRun.reg (r : XRun) (n : BitVec 3) : Word := r.k.getD n.toNat 0
def XRun.setReg (n : BitVec 3) (v : Word) (r : XRun) : XRun := { r with k := modAt (fun _ => v) n.toNat r.k }

/-- The operand s (20 R370). -/
def XRun.opnd (f : XFields) (r : XRun) : Word := if f.i then f.imm.signExtend 32 else r.reg f.kc

/-- Ends the run before or after an instruction, or moves on (20 R370). -/
def xApply (cost : XRun → Nat) (op : XOp) (r : XRun) : XRun :=
  if r.fin.isSome then r
  else if r.bound < r.count + cost r then { r with fin := some .over }
  else
    let r := { r with count := r.count + cost r }
    match op r with
    | .error e => { r with fin := some e }
    | .ok (r', br) =>
      let next : Int := (r'.pc : Int) + 1 + br.getD 0
      if next < 0 ∨ (r'.insns.length : Int) ≤ next then { r' with fin := some .malformed } else { r' with pc := next.toNat }

def oneStep : XRun → Nat := fun _ => 1

/-! ### The operations -/

def xSet (n : BitVec 3) (v : XRun → Word) : XOp := fun r => .ok (r.setReg n (v r), none)

/-- kA := kB op s (20 R372). -/
def xArith (g : Word → Word → Word) (f : XFields) : XOp := xSet f.ka fun r => g (r.reg f.kb) (r.opnd f)

def xAmount (s : Word) : Nat := s.toNat % 32

def xBranch (c : Word → Word → Bool) (a b : BitVec 3) (o : BitVec 16) : XOp := fun r =>
  .ok (r, if c (r.reg a) (r.reg b) then some o.toInt else none)

/-- The index of 20 R379. -/
def xIndex (f : XFields) (r : XRun) : Nat := (r.reg f.kb + r.opnd f).toNat

def xLoad (src : XRun → List Word) (lim : XRun → Nat) (f : XFields) : XOp := fun r =>
  if lim r ≤ xIndex f r then .error .malformed else .ok (r.setReg f.ka ((src r).getD (xIndex f r) 0), none)

def xStore (f : XFields) : XOp := fun r =>
  if 64 ≤ xIndex f r then .error .malformed
  else .ok ({ r with work := modAt (fun _ => r.reg f.ka) (xIndex f r) r.work }, none)

/-- Stream bit c (11 R206). -/
def streamBit (l : List Byte) (c : Nat) : Bool := (l.getD (c / 8) 0).getLsbD (c % 8)

def bitsAt (l : List Byte) (c : Nat) : Nat → Nat
  | 0 => 0
  | n + 1 => (streamBit l c).toNat + 2 * bitsAt l (c + 1) n

/-- Puts one bit into a stream. -/
def putBit (c : Nat) (v : Bool) (l : List Byte) : List Byte :=
  modAt (fun b => (b &&& ~~~((1#8) <<< (c % 8))) ||| (if v then (1#8) <<< (c % 8) else 0#8)) (c / 8) l

def putBits : Nat → Nat → Nat → List Byte → List Byte
  | _, _, 0, l => l
  | c, x, n + 1, l => putBits (c + 1) (x / 2) n (putBit c (x % 2 = 1) l)

def xGet (f : XFields) : XOp := fun r =>
  let n := (r.opnd f).toNat
  if 32 < n then .error .malformed
  else if 8 * r.inp.length < r.inCur + n then .error .pastInput
  else .ok ({ r.setReg f.ka (BitVec.ofNat 32 (bitsAt r.inp r.inCur n)) with inCur := r.inCur + n }, none)

def xPut (f : XFields) : XOp := fun r =>
  let n := (r.opnd f).toNat
  if 32 < n then .error .malformed
  else if 8 * r.out.length < r.outCur + n then .error .pastOutput
  else .ok ({ r with out := putBits r.outCur (r.reg f.ka).toNat n r.out, outCur := r.outCur + n }, none)

/-- The bytes of an `X.COPY`, one after another. -/
def copyBytes (dist : Nat) : Nat → XRun → Except XEnd XRun
  | 0, r => .ok r
  | n + 1, r =>
    let c := r.outCur / 8
    if r.out.length ≤ c then .error .pastOutput
    else copyBytes dist n { r with out := modAt (fun _ => r.out.getD (c - dist) 0) c r.out, outCur := r.outCur + 8 }

def xCopyCost (f : XFields) (r : XRun) : Nat := 1 + ((r.opnd f).toNat + 15) / 16

def xCopyOp (f : XFields) : XOp := fun r =>
  let dist := (r.reg f.ka).toNat
  if r.outCur % 8 ≠ 0 ∨ dist = 0 ∨ r.outCur / 8 < dist then .error .malformed
  else (copyBytes dist (r.opnd f).toNat r).map fun r => (r, none)

/-- 20 R377. -/
def xInfoOp (f : XFields) : XOp := fun r =>
  let put := fun (v : Nat) => (.ok (r.setReg f.ka (BitVec.ofNat 32 v), none) : Except XEnd (XRun × Option Int))
  match (r.opnd f).toNat with
  | 0 => put r.inp.length
  | 1 => put r.out.length
  | 2 => put r.pbs
  | 3 => put r.sbs
  | 4 => put r.blk
  | 5 => put r.encode.toNat
  | _ => .error .malformed

def zigzag (x : Word) : Word := (x <<< 1) ^^^ x.sshiftRight 31
def unzigzag (x : Word) : Word := (x >>> 1) ^^^ (0 - (x &&& 1))

/-- The cost and the operation of every Fitas instruction. -/
def xOpOf : Instr → Option ((XRun → Nat) × XOp)
  | .xEnd => some (oneStep, fun _ => .error .ended)
  | .xFail => some (oneStep, fun _ => .error .malformed)
  | .xMovi a i => some (oneStep, xSet a fun _ => i.signExtend 32)
  | .xMovh a i => some (oneStep, xSet a fun r => (i.zeroExtend 32 <<< 16) ||| (r.reg a &&& 0xFFFF#32))
  | .xAdd f => some (oneStep, xArith (· + ·) f)
  | .xSub f => some (oneStep, xArith (· - ·) f)
  | .xAnd f => some (oneStep, xArith (· &&& ·) f)
  | .xOr f => some (oneStep, xArith (· ||| ·) f)
  | .xXor f => some (oneStep, xArith (· ^^^ ·) f)
  | .xShl f => some (oneStep, xArith (fun a s => a <<< xAmount s) f)
  | .xShr f => some (oneStep, xArith (fun a s => a >>> xAmount s) f)
  | .xSar f => some (oneStep, xArith (fun a s => a.sshiftRight (xAmount s)) f)
  | .xZze a b => some (oneStep, xSet a fun r => zigzag (r.reg b))
  | .xZzd a b => some (oneStep, xSet a fun r => unzigzag (r.reg b))
  | .xGetb f => some (oneStep, xGet f)
  | .xPutb f => some (oneStep, xPut f)
  | .xLdt f => some (oneStep, xLoad XRun.table (fun r => r.table.length) f)
  | .xLdw f => some (oneStep, xLoad XRun.work (fun _ => 64) f)
  | .xStw f => some (oneStep, xStore f)
  | .xLdp f => some (oneStep, xLoad XRun.params (fun _ => 8) f)
  | .xCopy f => some (xCopyCost f, xCopyOp f)
  | .xBeq a b o => some (oneStep, xBranch (· == ·) a b o)
  | .xBne a b o => some (oneStep, xBranch (· != ·) a b o)
  | .xBlt a b o => some (oneStep, xBranch (fun x y => decide (x.toInt < y.toInt)) a b o)
  | .xJ o => some (oneStep, fun r => .ok (r, some o.toInt))
  | .xInfo f => some (oneStep, xInfoOp f)
  | _ => none

/-- One instruction of a run. -/
def xStep (i : Instr) (r : XRun) : XRun :=
  match xOpOf i with
  | some (c, op) => xApply c op r
  | none => r

/-- A word that is no legal instruction: it costs its steps, then the run is malformed (20 R370). -/
def xBad (w : Word) (r : XRun) : XRun :=
  let f : XFields := ⟨0, 0, w.extractLsb' 17 3, w.getLsbD 16, w.extractLsb' 0 16⟩
  xApply (if w.extractLsb' 26 6 = 0x13#6 then xCopyCost f else oneStep) (fun _ => .error .malformed) r

/-- The word at the pc of a run, and what it does. -/
def xNext (r : XRun) : XRun :=
  let w := r.insns.getD r.pc 0
  match decodeX w with
  | some i => xStep i r
  | none => xBad w r

/-- A whole run; every instruction costs a step, so `bound + 1` instructions end it. -/
def xRunFor : Nat → XRun → XRun
  | 0, r => r
  | n + 1, r => if r.fin.isSome then r else xRunFor n (xNext r)

def xRunAll (r : XRun) : XRun := xRunFor (r.bound + 1) r

/-! ### One instruction of the run that is current -/

def modRun (n : Nat) (f : XRun → XRun) (s : State) : State := { s with runs := modAt f n s.runs }

def fitasExec (i : Instr) (s : State) : Result := .next (modRun s.cur.run (xStep i) s)

def execXEnd (s : State) : Result := fitasExec .xEnd s
def execXFail (s : State) : Result := fitasExec .xFail s
def execXMovi (a : BitVec 3) (i : BitVec 16) (s : State) : Result := fitasExec (.xMovi a i) s
def execXMovh (a : BitVec 3) (i : BitVec 16) (s : State) : Result := fitasExec (.xMovh a i) s
def execXAdd (f : XFields) (s : State) : Result := fitasExec (.xAdd f) s
def execXSub (f : XFields) (s : State) : Result := fitasExec (.xSub f) s
def execXAnd (f : XFields) (s : State) : Result := fitasExec (.xAnd f) s
def execXOr (f : XFields) (s : State) : Result := fitasExec (.xOr f) s
def execXXor (f : XFields) (s : State) : Result := fitasExec (.xXor f) s
def execXShl (f : XFields) (s : State) : Result := fitasExec (.xShl f) s
def execXShr (f : XFields) (s : State) : Result := fitasExec (.xShr f) s
def execXSar (f : XFields) (s : State) : Result := fitasExec (.xSar f) s
def execXZze (a b : BitVec 3) (s : State) : Result := fitasExec (.xZze a b) s
def execXZzd (a b : BitVec 3) (s : State) : Result := fitasExec (.xZzd a b) s
def execXGetb (f : XFields) (s : State) : Result := fitasExec (.xGetb f) s
def execXPutb (f : XFields) (s : State) : Result := fitasExec (.xPutb f) s
def execXLdt (f : XFields) (s : State) : Result := fitasExec (.xLdt f) s
def execXLdw (f : XFields) (s : State) : Result := fitasExec (.xLdw f) s
def execXStw (f : XFields) (s : State) : Result := fitasExec (.xStw f) s
def execXLdp (f : XFields) (s : State) : Result := fitasExec (.xLdp f) s
def execXCopy (f : XFields) (s : State) : Result := fitasExec (.xCopy f) s
def execXBeq (a b : BitVec 3) (o : BitVec 16) (s : State) : Result := fitasExec (.xBeq a b o) s
def execXBne (a b : BitVec 3) (o : BitVec 16) (s : State) : Result := fitasExec (.xBne a b o) s
def execXBlt (a b : BitVec 3) (o : BitVec 16) (s : State) : Result := fitasExec (.xBlt a b o) s
def execXJ (o : BitVec 16) (s : State) : Result := fitasExec (.xJ o) s
def execXInfo (f : XFields) (s : State) : Result := fitasExec (.xInfo f) s

/-- STEP_BOUND_EXCEEDED: a run whose next instruction would pass its bound ends, without executing it (11 R209). -/
def execStepBoundExceeded (run : Nat) (s : State) : Result :=
  match s.runs[run]? with
  | none => .next s
  | some r =>
    let r' := xNext r
    if r.fin.isNone && r'.fin = some .over then .next (modRun run (fun _ => r') s) else .next s

end Sys2Proof.Machine
end

