-- ==== Sys2Proof/Machine/Packet.lean ====
section
/-!
DEFINITION. The packets of a queue (03 R54-R56, R63; 11 R204): their fields, the checks made when they are parsed, and
when a packet may start (03 R58-R62).
-/

namespace Sys2Proof.Machine

open Sys2Proof

/-! ### Fields -/

/-- A packet's field at an offset, n bytes wide. -/
def pf (raw : List Byte) (off n : Nat) : Nat := fieldN raw off n

/-- Bytes lo .. hi − 1 are zero. -/
def zeroIn (raw : List Byte) (lo hi : Nat) : Bool := (takePad hi 0 raw).drop lo |>.all (· = 0)

def Packet.type (p : Packet) : Nat := pf p.raw 0 1
def Packet.flags (p : Packet) : Nat := pf p.raw 1 1
/-- The class, raised to the floor of the queue (03 Table 03.3). -/
def Packet.cls (p : Packet) (q : Queue) : Nat := max (p.flags / 64) q.spec.floor
def Packet.isLaunch (p : Packet) : Bool := p.type = 1
def Packet.scoreboard (p : Packet) : Bool := p.isLaunch && p.flags.testBit 5
def Packet.early (p : Packet) : Bool := p.isLaunch && p.flags.testBit 0

/-- A launch as its packet states it (03 Table 03.2), without what its dispatch adds. -/
def launchOfPacket (q n ctx cls : Nat) (raw : List Byte) : Launch :=
  { q := q, pkt := n, ctx := ctx, flags := BitVec.ofNat 8 (pf raw 1 1), cls := cls, threads := pf raw 2 2,
    regs := pf raw 4 2, span := pf raw 6 1, tiles := pf raw 7 1, scratch := pf raw 8 4,
    tag := BitVec.ofNat 32 (pf raw 0xC 4), entry := BitVec.ofNat 64 (pf raw 0x10 8),
    arg := BitVec.ofNat 64 (pf raw 0x18 8), setMask := BitVec.ofNat 64 (pf raw 0x28 8), ranges := [],
    record := pf raw 0x38 8, next := 1, tree := 1, gates := 0, gateAt := [], doneAt := none, doneIn := 0, gated := [], after := none, retired := 0,
    counts := [], cause := 0, causeBy := (0, 0), killed := false, stage := .running, pred := none }

/-! ### The checks at the parse: a reason of 03 R54 -/

def badIf (c : Bool) (reason : Nat) : Option Nat := if c then some reason else none

/-- An address of 56 bits, aligned. -/
def addrOk (a align : Nat) : Bool := decide (a < 2 ^ 56 ∧ a % align = 0)

/-- 03 R55. -/
def checkLaunch (raw : List Byte) : Option Nat :=
  let l := launchOfPacket 0 0 0 0 raw
  let ok := decide (1 ≤ l.threads ∧ l.threads ≤ 1024 ∧ 32 ≤ l.regs ∧ l.regs ≤ 512 ∧ l.regs % 32 = 0 ∧ l.span ≤ 16 ∧
    l.tiles ≤ 24 ∧ l.scratch ≤ 2 ^ 19 ∧ l.scratch % 4096 = 0 ∧ 1 ≤ pf raw 0x30 2 ∧ pf raw 0x30 2 ≤ 4095 ∧ l.record % 32 = 0) &&
    addrOk l.entry.toNat 4 && addrOk l.arg.toNat 1
  (badIf (!ok) 2).or ((badIf (!zeroIn raw 0x32 0x38) 3).or (badIf (!fitsCore l l.threads) 6))

/-- Byte 1 of the other packets carries only CLASS. -/
def classOnly (raw : List Byte) : Bool := pf raw 1 1 % 64 = 0

/-- COPY (03 R56). -/
def checkCopy (raw : List Byte) : Option Nat :=
  let n := pf raw 8 8
  let src := pf raw 0x10 8
  let dst := pf raw 0x18 8
  let ok := decide (16 ≤ n ∧ n ≤ 2 ^ 40 ∧ n % 16 = 0 ∧ src % 16 = 0 ∧ dst % 16 = 0 ∧ (src + n ≤ dst ∨ dst + n ≤ src)) &&
    pf raw 0x38 8 % 32 = 0
  (badIf (!ok) 2).or (badIf (!(classOnly raw && zeroIn raw 2 8 && zeroIn raw 0x20 0x28 && zeroIn raw 0x30 0x38)) 3)

/-- SIGNAL (03 R56). Bits 7:1 of byte 2, of which Table 03.4 lists bit 0 alone, are taken as reserved (DESIGN CHOICE, log 88). -/
def checkSignal (raw : List Byte) : Option Nat :=
  (badIf (decide (pf raw 8 8 % 8 ≠ 0)) 2).or
    (badIf (!(classOnly raw && decide (pf raw 2 1 ≤ 1) && zeroIn raw 3 4 && zeroIn raw 6 8 && zeroIn raw 0x18 64)) 3)

/-- TOKCLR (03 R62). -/
def checkTokclr (raw : List Byte) : Option Nat := badIf (!(classOnly raw && zeroIn raw 2 8 && zeroIn raw 0x10 64)) 3

/-- MAP (03 R63); a range-array address of 2⁵⁶ or more is rejected with 0x02 as a misaligned one is (DESIGN CHOICE, log 113). -/
def checkMap (raw : List Byte) : Option Nat :=
  let ok := decide (1 ≤ pf raw 2 2 ∧ pf raw 2 2 ≤ 4095 ∧ 1 ≤ pf raw 4 1 ∧ pf raw 4 1 ≤ 64) && addrOk (pf raw 8 8) 16
  (badIf (!ok) 2).or (badIf (!(classOnly raw && zeroIn raw 5 8 && zeroIn raw 0x10 64)) 3)

/-- BIND (11 Table 11.2). -/
def checkBind (raw : List Byte) : Option Nat :=
  let svc := pf raw 2 1
  let ok := decide (1 ≤ svc ∧ svc ≤ 4) && addrOk (pf raw 0x18 8) 8 && (svc ≠ 4 || addrOk (pf raw 0x10 8) 32)
  (badIf (!ok) 2).or (badIf (!(classOnly raw && zeroIn raw 3 8 && zeroIn raw 0x20 64)) 3)

/-- The check of a packet by its type; 0x01 for an unknown one (03 Table 03.1). -/
def checkPacket (raw : List Byte) : Option Nat :=
  match pf raw 0 1 with
  | 1 => checkLaunch raw
  | 2 => checkCopy raw
  | 3 => checkSignal raw
  | 4 => checkTokclr raw
  | 5 => checkBind raw
  | 6 => checkMap raw
  | _ => some 1

/-! ### Order (03 R58-R62) -/

/-- The packet has started. -/
def Packet.begun (p : Packet) : Bool := p.st = .started || p.st = .completed || p.st = .rejected
/-- It has completed; a rejected one counts (03 R54). -/
def Packet.over (p : Packet) : Bool := p.st = .completed || p.st = .rejected

/-- Packet n of a queue may start. A LAUNCH with EARLY under SCOREBOARD follows the scoreboard's rule alone (DESIGN CHOICE, log
89). -/
def mayStart (q : Queue) (n : Nat) : Bool :=
  match q.pkts[n]? with
  | none => false
  | some p =>
    let older := q.pkts.take n
    q.state = .active &&
    if p.scoreboard then
      decide (n < q.head + 32) && BitVec.ofNat 64 (pf p.raw 0x20 8) &&& ~~~q.tokens = 0 &&
        older.all fun x => x.scoreboard || x.begun
    else if p.type = 4 then older.all Packet.over
    else older.all Packet.begun && match older.getLast? with
      | none => true
      | some x => x.over || (p.early && x.isLaunch)

/-- The first packet that has not been parsed. -/
def nextFetched (q : Queue) : Option Packet := q.pkts.find? fun p => p.st = .fetched

/-! ### Lease sets (03 R63, 08 R163) -/

/-- A range entry and the reason that rejects it; one whose end passes 2^56 is out of range (DESIGN CHOICE, log 81). -/
def rangeOf (e : List Byte) : Except Nat Range :=
  let lo := leNat (e.take 8)
  let hi := leNat ((e.drop 8).take 8)
  let len := bitsOf hi 39 0
  let tier := BitVec.ofNat 2 (bitsOf hi 46 45)
  let coh := cohOf (bitsOf hi 44 43)
  if lo % 2 ^ 16 ≠ 0 ∨ 2 ^ 56 ≤ lo ∨ len = 0 ∨ 2 ^ 56 < lo + len * 2 ^ 16 ∨ (tier = 3 ∧ coh ≠ .pool) then .error 2
  else if hi / 2 ^ 47 ≠ 0 then .error 3
  else .ok ⟨lo, len * 2 ^ 16, tier, coh, bitOf hi 42, bitOf hi 41, bitOf hi 40⟩

def rangesOf : List (List Byte) → Except Nat (List Range)
  | [] => .ok []
  | e :: r => match rangeOf e with
    | .error x => .error x
    | .ok a => match rangesOf r with
      | .error x => .error x
      | .ok l => .ok (a :: l)

def disjoint (a b : Range) : Bool := decide (a.base + a.len ≤ b.base ∨ b.base + b.len ≤ a.base)

def apart : List Range → Bool
  | [] => true
  | a :: r => r.all (disjoint a) && apart r

/-- The definition of a lease set now. -/
def setOf (c : Context) (id : Nat) : Option (List Range) := (c.sets.find? (·.1 = id)).map Prod.snd

/-- A pending launch names a set that holds an address of a context; one that has not been parsed is not pending yet (DEDUCED, log
93). -/
def pendingLease (s : State) (ctx base len : Nat) : Bool :=
  s.queues.any fun q => q.spec.ctx = ctx && q.pkts.any fun p =>
    p.isLaunch && p.st = .pending &&
      ((setOf (s.ctx ctx) (pf p.raw 0x30 2)).getD []).any fun r => decide (r.base < base + len ∧ base < r.base + r.len)

end Sys2Proof.Machine
end

