-- ==== Sys2Proof/Machine/Codec.lean ====
section
/-!
DEFINITION. Memory-port codecs: slots, decode runs and fills, encode runs, escapes, verification, the library programs
and tensor copies to memory (11 R201-R223; 12 R224, R225; 09 R194; 20 R362, R363).
-/

namespace Sys2Proof.Machine

open Sys2Proof

/-! ### Regions, blocks, slots -/

def modRegion (ctx idx : Nat) (f : Region → Region) : State → State :=
  modCtx ctx fun c => { c with regions := modIf (fun r => r.idx = idx) f c.regions }

def findRegion (s : State) (ctx idx : Nat) : Option Region := (s.ctx ctx).regions.find? (·.idx = idx)

def Region.blocks (r : Region) : Nat := (r.len + r.pbs - 1) / r.pbs
def Region.vaOf (r : Region) (blk : Nat) : Nat := r.base + blk * r.pbs
def Region.unitOfBlk (r : Region) (blk : Nat) : Nat := blk / perUnit r

def sat32 (n : Nat) : Nat := min n (2 ^ 32 - 1)

/-- The ZERO slot of a generation (11 R205). -/
def zeroSlot (r : Region) (g : Nat) : List Byte := BitVec.ofNat 8 (8 + g) :: List.replicate (r.sbs - 1) 0

/-- The primary slot of a block; every slot starts as the ZERO slot of generation 0. -/
def Region.slot (r : Region) (blk : Nat) : List Byte :=
  match r.slots.find? (·.1 = blk) with
  | some e => e.2
  | none => zeroSlot r 0

def setSlot (blk : Nat) (b : List Byte) (r : Region) : Region := { r with slots := (blk, b) :: r.slots.filter (·.1 ≠ blk) }

/-- The replica slot, in the tenant's memory. -/
def replicaSlot (s : State) (ctx : Nat) (r : Region) (blk : Nat) : List Byte := newestRead s ctx (r.rbase + blk * r.sbs) r.sbs

/-- The frame of a byte that a context maps, or of a slot: the slot array lies at the region's first frame (log 11). -/
def paOf (s : State) (ctx va : Nat) : Option Nat :=
  match walk s ctx va with
  | .leaf l => some (physOf l va)
  | _ => none

/-- The slot that attempt n of a fill reaches: the page it is found through, the offset from there. -/
def slotAt (r : Region) (blk n : Nat) : Nat × Nat := if n < 3 then (r.base, blk * r.sbs) else (r.rbase + blk * r.sbs, 0)

/-- A request of a transducer engine of a region's die for the slot of a block: which engine runs is free (log 7; 08 R174,
R176). -/
def askEngine (ctx : Nat) (r : Region) (cls blk n : Nat) (s : State) : State :=
  let (m, s) := s.fresh
  let (va, off) := slotAt r blk n
  askAt (512 + 512 * r.die + (Config.freeWord m).toNat % 512) cls ctx va off s

/-- The requests of an engine for n bytes of the escape pool or of the replica, one for each line (08 R174). -/
def askSide (ctx : Nat) (r : Region) (cls va n : Nat) (s : State) : State :=
  let (m, s) := s.fresh
  askRange (512 + 512 * r.die + (Config.freeWord m).toNat % 512) cls ctx va n s

/-- Writes a slot, and its replica with REPL set (11 R213), each with its request of a class (08 R174). -/
def writeSlot (ctx : Nat) (r : Region) (cls blk : Nat) (b : List Byte) (s : State) : State :=
  let s := modRegion ctx r.idx (setSlot blk b) (askEngine ctx r cls blk 1 s)
  if r.repl then sysWrite ctx (r.rbase + blk * r.sbs) b (askSide ctx r cls (r.rbase + blk * r.sbs) r.sbs s) else s

/-- An uncorrectable error in the slot that an attempt reads; the slot array lies at the region's first frame (log 11). -/
def slotBad (s : State) (ctx : Nat) (r : Region) (blk : Nat) (replica : Bool) : Bool :=
  if replica then poisonedVa s ctx (r.rbase + blk * r.sbs) r.sbs
  else (paOf s ctx r.base).any fun pa => frameBad s (pa + blk * r.sbs) r.sbs

/-- The current plain bytes of a block. -/
def plainOf (s : State) (ctx : Nat) (r : Region) (blk : Nat) : List Byte := newestRead s ctx (r.vaOf blk) r.pbs

/-- Puts plain bytes in place: every granule that differs takes a store by no thread, visible in `.sys` at once
(09 R194). -/
def setPlain (ctx : Nat) (r : Region) (blk : Nat) (out : List Byte) (s : State) : State :=
  (List.range (r.pbs / 16)).foldl (fun s g =>
    let va := r.vaOf blk + 16 * g
    let new := (out.drop (16 * g)).take 16
    if newestRead s ctx va 16 = new then s else sysWriteGran (ctx * 2 ^ 56 + va) new s) s

/-! ### Library programs (11 R220-R222) -/

def wordsLe (b : List Byte) (n : Nat) : List Word := (List.range n).map fun i => BitVec.ofNat 32 (leNat ((b.drop (4 * i)).take 4))
def bytesOfWords (ws : List Word) : List Byte := ws.flatMap fun w => leBytes 4 w.toNat

/-- Bit b of every word, word i at bit i. -/
def planeOf (z : List Word) (b : Nat) : Word :=
  BitVec.ofNat 32 (maskOf ((List.range 32).filter fun i => (z.getD i 0).getLsbD b))

/-- q[31] := plane[31]; q[b] := plane[b] XOR plane[b + 1]. -/
def bplaneEncode (x : List Byte) : List Byte :=
  let w := wordsLe x 32
  let z := (List.range 32).map fun i => zigzag (if i = 0 then w.getD 0 0 else w.getD i 0 - w.getD (i - 1) 0)
  let q := (List.range 32).map fun b => if b = 31 then planeOf z 31 else planeOf z b ^^^ planeOf z (b + 1)
  let map := maskOf ((List.range 32).filter fun b => q.getD b 0 != 0)
  leBytes 4 map ++ bytesOfWords (q.filter fun v => v != 0)

/-- The q words of the map's bits, from `b` on; none where the input ends before them. -/
def takeQ (map : Nat) : Nat → List Byte → Option (List Word)
  | 0, _ => some []
  | n + 1, l =>
    let b := 31 - n
    if map.testBit b then
      if l.length < 4 then none else (takeQ map n (l.drop 4)).map (BitVec.ofNat 32 (leNat (l.take 4)) :: ·)
    else (takeQ map n l).map (0 :: ·)

/-- Running XOR from plane 31 down. -/
def planesOf (q : List Word) : List Word :=
  ((List.range 32).foldl (fun (a : Word × List Word) i => let p := a.1 ^^^ q.getD (31 - i) 0; (p, p :: a.2)) (0, [])).2

def bplaneDecode (inp : List Byte) : Option (List Byte) :=
  if inp.length < 4 then none
  else (takeQ (leNat (inp.take 4)) 32 (inp.drop 4)).map fun q =>
    let z := (List.range 32).map fun i => planeOf (planesOf q) i
    bytesOfWords ((z.foldl (fun (a : Word × List Word) v => let w := a.1 + unzigzag v; (w, a.2 ++ [w])) (0, [])).2)

/-- Element n of a block of BF16: exponent field. -/
def bfAt (x : List Byte) (n : Nat) : Nat := leNat ((x.drop (2 * n)).take 2)
def bfExp (v : Nat) : Nat := bitsOf v 14 7

/-- The largest exponent field of a group. -/
def groupMax (x : List Byte) (g : Nat) : Nat := ((List.range 64).map fun i => bfExp (bfAt x (64 * g + i))).foldl max 0

def expCode (e v : Nat) : Nat :=
  let f := bfExp v
  let sign := v / 2 ^ 15 * 2 ^ 11
  if f = 0 ∨ f + 15 ≤ e then sign + 15 * 2 ^ 7 else sign + (e - f) * 2 ^ 7 + v % 2 ^ 7

def expDecode (e c : Nat) : Nat :=
  let sign := c / 2 ^ 11 * 2 ^ 15
  let o := bitsOf c 10 7
  if o = 15 then sign
  else sign + (if o ≤ e then e - o else (Config.exp12Below e o).toNat) * 2 ^ 7 + c % 2 ^ 7

/-- None: the encoder refuses the block. -/
def exp12Encode (x : List Byte) : Option (List Byte) :=
  if (List.range 128).any fun n => bfExp (bfAt x n) = 255 then none
  else
    let codes := (List.range 128).foldl (fun a n => a + expCode (groupMax x (n / 64)) (bfAt x n) * 2 ^ (12 * n)) 0
    some (leBytes 2 (groupMax x 0 + 256 * groupMax x 1) ++ leBytes 192 codes)

def exp12Decode (inp : List Byte) : Option (List Byte) :=
  if inp.length < 194 then none
  else
    let codes := leNat ((inp.drop 2).take 192)
    some ((List.range 128).flatMap fun n =>
      leBytes 2 (expDecode (inp.getD (n / 64) 0).toNat (codes / 2 ^ (12 * n) % 2 ^ 12)))

/-- Steps per block of a library program. -/
def libSteps (id : Nat) : Nat := if id = 0xF0 then 72 else if id = 0xF1 then 160 else if id = 0xF2 then 140 else 280

/-! ### Ends of runs (11 R210, R213) -/

inductive DecEnd where
  | done (out : List Byte) (steps : Nat)
  | fail (cause steps : Nat)
  deriving DecidableEq, Repr, Inhabited

inductive EncEnd where
  | done (out : List Byte) (steps : Nat)
  /-- Expansion or refusal. -/
  | refused (steps : Nat)
  /-- ESB was passed. -/
  | over (steps : Nat)
  deriving DecidableEq, Repr, Inhabited

def decEnd (x : XRun) : DecEnd :=
  match x.fin with
  | some .ended => if x.outCur = 8 * x.pbs then .done x.out x.count else .fail 0x13 x.count
  | some .over => .fail 0x10 x.count
  | some .malformed => .fail 0x12 x.count
  | _ => .fail 0x13 x.count

def encEnd (x : XRun) : EncEnd :=
  match x.fin with
  | some .ended => .done (x.out.take ((x.outCur + 7) / 8)) x.count
  | some .over => .over x.count
  | _ => .refused x.count

/-- A run at its start (11 Table 11.4). -/
def mkRun (s : State) (ctx : Nat) (r : Region) (blk : Nat) (g : Gen) (encode : Bool) (inp : List Byte) : XRun :=
  let prog := ((s.ctx ctx).programs.find? (·.id = if encode then g.enc else g.dec)).getD default
  { ctx := ctx, region := r.idx, blk := blk, gen := g.num, encode := encode, pbs := r.pbs, sbs := r.sbs,
    bound := if encode then g.esb else g.dsb, insns := prog.insns, table := prog.table, params := g.params,
    k := List.replicate 8 0, work := List.replicate 64 0, inp := inp,
    out := List.replicate (if encode then r.sbs - 1 else r.pbs) 0, inCur := 0, outCur := 0, pc := 0, count := 0,
    fin := none, taken := false }

def isLib (id : Nat) : Bool := decide (0xF0 ≤ id)

def libDecode (id : Nat) (inp : List Byte) : DecEnd :=
  match (if id = 0xF0 then bplaneDecode inp else exp12Decode inp) with
  | some o => .done o (libSteps id)
  | none => .fail 0x13 (libSteps id)

def libEncode (id : Nat) (room : Nat) (x : List Byte) : EncEnd :=
  match (if id = 0xF1 then some (bplaneEncode x) else exp12Encode x) with
  | some o => if room < o.length then .refused (libSteps id) else .done o (libSteps id)
  | none => .refused (libSteps id)

/-- A whole decode run of a slot's input. -/
def decodeRun (s : State) (ctx : Nat) (r : Region) (blk : Nat) (g : Gen) (inp : List Byte) : DecEnd :=
  if isLib g.dec then libDecode g.dec inp else decEnd (xRunAll (mkRun s ctx r blk g false inp))

/-- A whole encode run of a block. -/
def encodeRun (s : State) (ctx : Nat) (r : Region) (blk : Nat) (g : Gen) (x : List Byte) : EncEnd :=
  if isLib g.enc then libEncode g.enc (r.sbs - 1) x else encEnd (xRunAll (mkRun s ctx r blk g true x))

/-! ### Decode (11 R205, R210, R211) -/

inductive Stage where
  | fail (cause : Nat)
  | plain (out : List Byte)
  | run (g : Gen) (inp : List Byte)
  deriving DecidableEq, Repr, Inhabited

/-- The slot keeps the rules of its header and escape index. -/
def slotOk (r : Region) (slot : List Byte) : Bool :=
  let b0 := (slot.headD 0).toNat
  let zero := b0.testBit 3
  let esc := b0.testBit 2
  decide (b0 < 16) && !(zero && esc) && (!zero || slot.tail.all (· = 0)) &&
    (!esc || (decide (leNat ((slot.drop 4).take 4) < r.ecount) && ((slot.drop 1).take 3).all (· = 0) && (slot.drop 8).all (· = 0)))

def slotGen (slot : List Byte) : Nat := (slot.headD 0).toNat % 4
def slotZero (slot : List Byte) : Bool := (slot.headD 0).getLsbD 3
def slotEsc (slot : List Byte) : Bool := (slot.headD 0).getLsbD 2
def slotEntry (slot : List Byte) : Nat := leNat ((slot.drop 4).take 4)

/-- The stages of a decode up to the program run, in their order. -/
def stageOf (s : State) (ctx : Nat) (r : Region) (slot : List Byte) (bad : Bool) : Stage :=
  if bad then .fail 0x1A
  else if !slotOk r slot then .fail 0x12
  else match r.gens.find? (·.num = slotGen slot) with
    | none => .fail 0x16
    | some g =>
      if slotZero slot then .plain (List.replicate r.pbs 0)
      else if slotEsc slot then
        let va := r.ebase + slotEntry slot * r.pbs
        if poisonedVa s ctx va r.pbs then .fail 0x1A else .plain (newestRead s ctx va r.pbs)
      else .run g (slot.drop 1)

/-- What attempt n reads. -/
def attemptSlot (s : State) (ctx : Nat) (r : Region) (blk n : Nat) : List Byte :=
  if n < 3 then r.slot blk else replicaSlot s ctx r blk

/-- An attempt that finds an ESC slot reads its escape entry too: the request for it. -/
def askEntry (ctx : Nat) (r : Region) (cls blk n : Nat) (s : State) : State :=
  let slot := attemptSlot s ctx r blk n
  if !slotBad s ctx r blk (decide (3 ≤ n)) && slotOk r slot && slotEsc slot && r.gens.any (fun g => g.num = slotGen slot) then
    askSide ctx r cls (r.ebase + slotEntry slot * r.pbs) r.pbs s
  else s

/-- One whole attempt. -/
def attempt (s : State) (ctx : Nat) (r : Region) (blk n : Nat) : DecEnd :=
  match stageOf s ctx r (attemptSlot s ctx r blk n) (slotBad s ctx r blk (decide (3 ≤ n))) with
  | .fail c => .fail c 0
  | .plain o => .done o 0
  | .run g inp => decodeRun s ctx r blk g inp

/-- The attempts a fill makes. -/
def attempts (r : Region) : Nat := if r.repl then 3 else 2

/-- Attempt n has succeeded: a third one repairs the primary slot, with a request of the fill's class; the block is filled. -/
def filledBy (cls ctx : Nat) (r : Region) (blk n : Nat) (out : List Byte) (s : State) : State :=
  let s :=
    if n = 3 then
      let slot := replicaSlot s ctx r blk
      logEvent (sourceCode 3 r.die 0) .repair [ctx, r.idx, blk] (modRegion ctx r.idx (fun r => { setSlot blk slot r with rep := sat32 (r.rep + 1) })
        (askEngine ctx r cls blk 1 s))
    else s
  setPlain ctx r blk out s

/-- How a whole fill fails: cause, steps and attempts, with the state that its requests leave. -/
abbrev FillFail := (Nat × Nat × Nat) × State

/-- A whole fill from attempt n on, each attempt with its requests of a class (08 R174): the state after it, or its failure. -/
def fillFrom (cls ctx : Nat) (r : Region) (blk : Nat) : Nat → Nat → State → Except FillFail State
  | 0, n, s =>
    let asked := askEntry ctx r cls blk n (askEngine ctx r cls blk n s)
    match attempt s ctx r blk n with
    | .done o _ => .ok (filledBy cls ctx r blk n o asked)
    | .fail c k => .error ((c, k, n), asked)
  | m + 1, n, s =>
    let asked := askEntry ctx r cls blk n (askEngine ctx r cls blk n s)
    match attempt s ctx r blk n with
    | .done o _ => .ok (filledBy cls ctx r blk n o asked)
    | .fail _ _ => fillFrom cls ctx r blk m (n + 1) asked

/-- A run of a die goes on. -/
def runsOn (s : State) (die : Nat) (x : XRun) : Bool :=
  x.fin.isNone && !x.taken && (s.ctx x.ctx).regions.any fun r => r.idx = x.region && r.die = die

/-- A transducer engine of a die is free (01 R9). -/
def engineFree (s : State) (die : Nat) : Bool := decide ((s.runs.filter (runsOn s die)).length < 512)

/-- What runs at once takes an engine of its die: where none is free, one goes to its end first. -/
def freeEngine (die : Nat) (s : State) : State :=
  if engineFree s die then s
  else match s.runs.findIdx? (runsOn s die) with
    | some n => modRun n xRunAll s
    | none => s

/-- A whole fill, on an engine. -/
def fillNow (cls ctx : Nat) (r : Region) (blk : Nat) (s : State) : Except FillFail State :=
  fillFrom cls ctx r blk (attempts r - 1) 1 (freeEngine r.die s)

/-! ### Faults of the transducer engines -/

/-- Engine kind 3: which of a die's engines ran is free (log 7). -/
def engineSource (die : Nat) (s : State) : Nat × State :=
  let (n, s) := s.fresh
  (sourceCode 3 die ((Config.freeWord n).toNat % 256), s)

def codecExtra (r : Region) (blk step attempt : Nat) (x : StopRec) : StopRec :=
  { x with region := r.idx, cblock := blk, step := step, attempt := attempt }

/-- An encode fault, charged to the closing store or to the context (11 R215). -/
def encodeFault (ctx : Nat) (r : Region) (blk cause step : Nat) (closing : Option StoreRec) (s : State) : State :=
  let (src, s) := engineSource r.die s
  match closing with
  | some c => raiseStore src cause ctx c c.addr (codecExtra r blk step 0) s
  | none => raiseContext src cause ctx (r.vaOf blk) (codecExtra r blk step 0) s

/-- A decode fault, charged to the opener; nobody is charged for a fill of the recode walker (11 R212). -/
def decodeFault (r : Region) (blk cause step attempt : Nat) (op : Opener) (s : State) : State :=
  match op.thr with
  | none => s
  | some (b, t, o) => match findOp s b t o with
    | none => s
    | some o =>
      let (src, s) := engineSource r.die s
      if cause = 0x1A && canRollBack (s.block b) then rollBack b 0x1A [t] o.pc o.va s
      else takeFault (codecExtra r blk step attempt { threadRec s b cause [t] o.pc o.va with source := src }) (abandonOp b t o s)

/-! ### Encode (11 R213-R216, R223) -/

def modUnit (ctx region unit : Nat) (f : CUnit → CUnit) (s : State) : State :=
  { s with units := modIf (fun u => u.ctx = ctx && u.region = region && u.unit = unit) f s.units }

def findUnit (s : State) (ctx region unit : Nat) : Option CUnit :=
  s.units.find? fun u => u.ctx = ctx && u.region = region && u.unit = unit

/-- The free entry with the lowest index. -/
def freeEntry (r : Region) : Option Nat :=
  ((List.range (min r.ecount (r.escs.length + 1))).filter fun e => !r.escs.any fun x => x.1 = e).head?

/-- The slot of an escaped block (11 R205). -/
def escSlot (r : Region) (g entry : Nat) : List Byte :=
  takePad r.sbs 0 (BitVec.ofNat 8 (4 + g) :: [0, 0, 0] ++ leBytes 4 entry)

/-- Stores a block escaped, with requests of a class; false where no entry is free (11 R214). -/
def escape (cls ctx : Nat) (r : Region) (blk g : Nat) (x : List Byte) (s : State) : Bool × State :=
  let r := (findRegion s ctx r.idx).getD r
  match ((r.escs.find? fun e => e.2 = blk).map Prod.fst).or (freeEntry r) with
  | none => (false, s)
  | some e =>
    let s := sysWrite ctx (r.ebase + e * r.pbs) x (askSide ctx r cls (r.ebase + e * r.pbs) r.pbs s)
    let s := writeSlot ctx r cls blk (escSlot r g e) s
    (true, modRegion ctx r.idx (fun r =>
      { r with escs := (e, blk) :: r.escs.filter (·.2 ≠ blk), esc := sat32 (r.esc + 1) }) s)

/-- An encode that does not escape frees the block's entry. -/
def storeSlot (cls ctx : Nat) (r : Region) (blk : Nat) (slot : List Byte) (s : State) : State :=
  modRegion ctx r.idx (fun r => { r with escs := r.escs.filter (·.2 ≠ blk) }) (writeSlot ctx r cls blk slot s)

/-- The rule that VFY checks (11 R216). The re-encode of a LOSSY block runs ENC on whatever the slot decodes to, zeros too (DESIGN
CHOICE, log 114). -/
def vfyOk (s : State) (ctx : Nat) (r : Region) (blk : Nat) (g : Gen) (x slot : List Byte) : Bool :=
  match decodeRun s ctx r blk g (slot.drop 1) with
  | .fail _ _ => false
  | .done y _ =>
    if r.lossy then match encodeRun s ctx r blk g y with
      | .done o _ => takePad (r.sbs - 1) 0 o = slot.drop 1
      | _ => false
    else y = x

/-- What a LOSSY block of plain bytes x reads as after its encode (09 R194); a block that a store has changed since the
encode began is dirty again and keeps its bytes until its next encode (09 R195). -/
def settleLossy (ctx : Nat) (r : Region) (blk : Nat) (g : Gen) (x slot : List Byte) (s : State) : State :=
  if r.lossy ∧ plainOf s ctx r blk = x then match decodeRun s ctx r blk g (slot.drop 1) with
    | .done y _ => setPlain ctx r blk y s
    | .fail _ _ => s
  else s

/-- The generation of the slot that a block is filled from goes with it (08 R161). -/
def CUnit.noteGen (s : State) (ctx : Nat) (r : Region) (blks : List Nat) (u : CUnit) : CUnit :=
  let r := (findRegion s ctx r.idx).getD r
  { u with gens := blks.map (fun k => (k, slotGen (r.slot k))) ++ u.gens.filter fun e => !blks.contains e.1 }

/-- The block leaves the L2 clean, or stays dirty and pinned with its closing store (11 R214); of a block whose unit is not there,
a unit comes where the L2 has room for it (01 R18). -/
def leaveBlock (ctx : Nat) (r : Region) (blk : Nat) (ok : Bool) (closing : Option StoreRec) (s : State) : State :=
  let u := r.unitOfBlk blk
  let drop := fun (x : CUnit) => { x with leaving := x.leaving.filter (·.1 ≠ blk) }
  if ok then modUnit ctx r.idx u drop s
  else
    let s := if (findUnit s ctx r.idx u).isSome then s
      else
        let s := freeL2 r.die (unitLines r) (fun x => askRange 4096 3 x.ctx x.addr 128) s
        if roomL2 s r.die (unitLines r) then
          { s with units := s.units ++ [CUnit.noteGen s ctx r [blk] ⟨ctx, r.idx, u, false, [], [], [], [], [], []⟩] }
        else s
    modUnit ctx r.idx u (fun x => let x := drop x; let filled := if x.filled.contains blk then x.filled else x.filled ++ [blk]; { x with
      filled := filled
      installed := x.installed || decide (filled.length = perUnit r)
      dirty := if x.dirty.contains blk then x.dirty else x.dirty ++ [blk]
      pinned := if x.pinned.contains blk then x.pinned else x.pinned ++ [blk]
      recs := if x.recs.any (·.1 = blk) then x.recs else match closing with
        | some c => (blk, c) :: x.recs
        | none => x.recs }) s

/-- The class of an encode's requests: that of the launch of its closing store, else that of the recode walker (log 92). -/
def encodeClass (s : State) (closing : Option StoreRec) : Nat :=
  match closing with
  | some c => (s.launch c.launch).cls
  | none => 3

/-- The end of an encode of plain bytes x under generation g, with requests of a class for what it writes. -/
def finishEncode (cls ctx : Nat) (r : Region) (blk : Nat) (g : Gen) (x : List Byte) (e : EncEnd) (closing : Option StoreRec)
    (s : State) : State :=
  let esc := fun (cause : Option Nat) (n : Nat) (s : State) =>
    let (ok, s') := escape cls ctx r blk g.num x s
    let charge := fun (c : Nat) (s : State) => encodeFault ctx r blk c n closing s
    if ok then leaveBlock ctx r blk true closing (match cause with
      | some c => charge c s'
      | none => s')
    else leaveBlock ctx r blk false closing (charge 0x14 (if cause = some 0x11 then charge 0x11 s' else s'))
  match e with
  | .over n => esc (some 0x11) n s
  | .refused n => esc none n s
  | .done out n =>
    let slot := takePad r.sbs 0 (BitVec.ofNat 8 g.num :: out)
    if r.vfy && !vfyOk s ctx r blk g x slot then
      esc (some 0x15) n (modRegion ctx r.idx (fun r => { r with inv := sat32 (r.inv + 1) }) s)
    else leaveBlock ctx r blk true closing (settleLossy ctx r blk g x slot (storeSlot cls ctx r blk slot s))

/-- A block of zeros is a ZERO slot, without a run. -/
def encodeZero (cls ctx : Nat) (r : Region) (blk g : Nat) (closing : Option StoreRec) (s : State) : State :=
  leaveBlock ctx r blk true closing (storeSlot cls ctx r blk (zeroSlot r g) s)

/-- The generation an encode takes that is queued now: the one current at the start of the cycle (11 R217, R223). -/
def curGen (s : State) (r : Region) : Gen :=
  (r.gens.find? (·.num = if r.since = s.cycle then r.prev else r.cur)).getD default

/-- A whole encode of a block as it stands, with requests of a class. -/
def encodeNow (cls ctx idx blk : Nat) (closing : Option StoreRec) (s : State) : State :=
  match findRegion s ctx idx with
  | none => s
  | some r =>
    let x := plainOf s ctx r blk
    let g := curGen s r
    if x.all (· = 0) then encodeZero cls ctx r blk g.num closing s
    else let s := freeEngine r.die s; finishEncode cls ctx r blk g x (encodeRun s ctx r blk g x) closing s

/-- The store that closes a block, as its unit records it. -/
def closingOf (u : CUnit) (blk : Nat) : Option StoreRec := (u.recs.find? (·.1 = blk)).map Prod.snd

/-- The block is on its way out: no longer dirty, its record kept by the encode. -/
def startLeaving (ctx : Nat) (r : Region) (blk : Nat) (s : State) : State :=
  modUnit ctx r.idx (r.unitOfBlk blk) (fun u => { u with
    dirty := u.dirty.filter (· ≠ blk), recs := u.recs.filter (·.1 ≠ blk),
    leaving := (blk, (curGen s r).num, closingOf u blk) :: u.leaving.filter (·.1 ≠ blk) }) s

/-- A unit whose blocks are all clean leaves the L2, and its lines the caches. -/
def dropUnit (ctx : Nat) (r : Region) (unit : Nat) (s : State) : State :=
  let lo := r.base + unit * perUnit r * r.pbs
  let hi := lo + perUnit r * r.pbs
  removeLines (fun l => l.ctx = ctx && decide (lo < l.addr + 128 ∧ l.addr < hi))
    { s with units := s.units.filter fun u => !(u.ctx = ctx && u.region = r.idx && u.unit = unit) }

def settleUnit (ctx : Nat) (r : Region) (unit : Nat) (s : State) : State :=
  match findUnit s ctx r.idx unit with
  | some u => if !filling s ctx r unit && u.dirty = [] && u.leaving = [] && u.pinned = [] then dropUnit ctx r unit s else s
  | none => s

/-- The L2 holds a block. -/
def CUnit.holds (u : CUnit) (blk : Nat) : Bool := u.installed || u.filled.contains blk

/-- A unit gives up its blocks but for the pinned ones, and leaves the L2 without any (11 R214). -/
def unfill (full : CUnit → Bool) (p : CUnit → Bool) (s : State) : State :=
  { s with units := s.units.filterMap fun u =>
      if !p u then some u else if u.pinned = [] then none else some { u with installed := full u, filled := u.pinned } }

/-- The run of a block in a direction whose outcome is not taken. -/
def runOf (s : State) (ctx region blk : Nat) (encode : Bool) : Option Nat :=
  s.runs.findIdx? fun x => x.ctx = ctx && x.region = region && x.blk = blk && x.encode = encode && !x.taken

def takeRun (n : Nat) : State → State := modRun n fun x => { x with taken := true }

/-- Whether a block that leaves is encoded: a dirty one is; a clean one of a LOSSY region is where the machine takes the step
that 09 R194 allows it, which is free (log 7); any other clean one is not (11 R203). -/
def encodes (r : Region) (u : CUnit) (blk : Nat) (s : State) : Bool × State :=
  if u.dirty.contains blk then (true, s)
  else if r.lossy then let (n, s) := s.fresh; ((Config.freeWord n).getLsbD 0, s) else (false, s)

/-- The traffic of a class stops at the controllers of a region's die (17 R266). -/
def trafficStops (s : State) (r : Region) (cls : Nat) : Bool := decide (2 ≤ cls) && (s.die r.die).emergency

/-- BLOCK_ENCODE: a block that is not pinned starts to leave the L2, or a run of it that has ended is taken. A block that is
not encoded leaves with the rest of its unit (11 R203). A run waits for an engine, and for the end of an emergency where its class
stops in one. -/
def execBlockEncode (ctx region blk : Nat) (s : State) : Result :=
  match findRegion s ctx region with
  | none => .next s
  | some r =>
    let unit := r.unitOfBlk blk
    match runOf s ctx region blk true with
    | some n =>
      let x := s.runs.getD n default
      if x.fin.isNone then .next s
      else
        let out := ((findUnit s ctx region unit).bind fun u => u.leaving.find? (·.1 = blk)).getD (blk, x.gen, none)
        let g := (r.gens.find? (·.num = x.gen)).getD default
        let cls := encodeClass s out.2.2
        if trafficStops s r cls then .next s else
        .next (settleUnit ctx r unit (finishEncode cls ctx r blk g x.inp (encEnd x) out.2.2 (takeRun n s))).tickNow
    | none => match findUnit s ctx region unit with
      | none => .next s
      | some u =>
        if !u.holds blk || u.pinned.contains blk || u.leaving.any (·.1 = blk) || r.blocks ≤ blk then .next s
        else if !engineFree s r.die || trafficStops s r (encodeClass s (closingOf u blk)) then .next s
        else
          let (enc, s) := encodes r u blk s
          if !enc then .next (settleUnit ctx r unit s) else
          let x := plainOf s ctx r blk
          let closing := closingOf u blk
          let cls := encodeClass s closing
          let g := curGen s r
          let s := startLeaving ctx r blk s
          if x.all (· = 0) then .next (settleUnit ctx r unit (encodeZero cls ctx r blk g.num closing s)).tickNow
          else if isLib g.enc then
            .next (settleUnit ctx r unit (finishEncode cls ctx r blk g x (encodeRun s ctx r blk g x) closing s)).tickNow
          else .next { s with runs := s.runs ++ [mkRun s ctx r blk g true x] }

/-- The class of an encode that something else forces: what forces it names one, or it is the encode's own. -/
def forcedClass (forced : Option Nat) (s : State) (closing : Option StoreRec) : Nat := forced.getD (encodeClass s closing)

/-- A whole encode of a block in progress or waiting to leave. -/
def encodeDirty (forced : Option Nat) (ctx : Nat) (r : Region) (blk : Nat) (s : State) : State :=
  let u := (findUnit s ctx r.idx (r.unitOfBlk blk)).getD default
  match runOf s ctx r.idx blk true with
  | some n =>
    let x := xRunAll (s.runs.getD n default)
    let out := (u.leaving.find? (·.1 = blk)).getD (blk, x.gen, none)
    finishEncode (forcedClass forced s out.2.2) ctx r blk ((r.gens.find? (·.num = x.gen)).getD default) x.inp (encEnd x) out.2.2 (takeRun n s)
  | none => s

def encodeFresh (forced : Option Nat) (ctx : Nat) (r : Region) (blk : Nat) (s : State) : State :=
  let u := (findUnit s ctx r.idx (r.unitOfBlk blk)).getD default
  if u.dirty.contains blk && !u.pinned.contains blk then
    encodeNow (forcedClass forced s (closingOf u blk)) ctx r.idx blk (closingOf u blk) (startLeaving ctx r blk s)
  else s

/-- Writes back a unit: encodes in progress end, then every dirty block that is not pinned is encoded, at the class of what forces
it (08 R174; log 92). -/
def writeBackUnit (forced : Option Nat) (ctx : Nat) (r : Region) (unit : Nat) (s : State) : State :=
  settleUnit ctx r unit ((blksOf r unit).foldl (fun s k => encodeFresh forced ctx r k (encodeDirty forced ctx r k s)) s)

/-- Writes back the units of a context that a test names, in ascending order. -/
def writeBackUnits (forced : Option Nat) (ctx : Nat) (p : Region → CUnit → Bool) (s : State) : State :=
  (s.ctx ctx).regions.foldl (fun s r =>
    let us := (s.units.filter fun u => u.ctx = ctx && u.region = r.idx && p r u).map CUnit.unit
    (sortBy (fun a b => decide (a ≤ b)) us).foldl (fun s u => writeBackUnit forced ctx r u s) s) s

/-- Those write-backs stop: the die of a region is in an emergency in which the class of an encode of it stops (17 R266). -/
def writeBacksStop (forced : Option Nat) (s : State) (ctx : Nat) (p : Region → CUnit → Bool) : Bool :=
  (s.ctx ctx).regions.any fun r => s.units.any fun u => u.ctx = ctx && u.region = r.idx && p r u &&
    ((u.dirty.filter fun k => !u.pinned.contains k).any (fun k => trafficStops s r (forcedClass forced s (closingOf u k))) ||
      u.leaving.any fun e => trafficStops s r (forcedClass forced s e.2.2))

/-! ### Fills (11 R211, R212; 12 R224) -/

/-- Every entry of a context that waits on a unit ends; none is charged. A store among them, which has no destination, leaves without
taking its step (DESIGN CHOICE, log 115). -/
def endWaiters (ctx : Nat) (r : Region) (unit : Nat) (s : State) : State :=
  (List.range s.blocks.length).foldl (fun s b =>
    if ctxOf s b = ctx then (tidsOf (s.block b)).foldl (fun s t =>
      ((s.thread b t).ops.filter (missesOn r unit)).foldl (fun s o => abandonOp b t o s) s) s
    else s) s

/-- The fills of a unit are over. -/
def endFills (ctx : Nat) (r : Region) (unit : Nat) (s : State) : State :=
  let mine := fun (f : CFill) => f.ctx = ctx && f.region = r.idx && r.unitOfBlk f.blk = unit
  let runs := modIf (fun x => x.ctx = ctx && x.region = r.idx && r.unitOfBlk x.blk = unit && !x.encode) (fun x => { x with taken := true }) s.runs
  { s with fills := s.fills.filter fun f => !mine f, runs := runs }

/-- A block of a unit failed: the unit is not installed, its opener is charged, the others end. -/
def failUnit (ctx : Nat) (r : Region) (blk : Nat) (f : CFill) (cause steps : Nat) (s : State) : State :=
  let unit := r.unitOfBlk blk
  let s := endFills ctx r unit s
  let s := unfill (fun _ => false) (fun u => u.ctx = ctx && u.region = r.idx && u.unit = unit && !u.installed) s
  endWaiters ctx r unit (decodeFault r blk cause steps f.attempt f.opener s)

/-- The class of a fill's requests (08 R174). -/
def openerClass (s : State) (op : Opener) : Nat :=
  match op.thr with
  | some (b, _, _) => (s.launchOf b).cls
  | none => 3

/-- A block is filled; the last one installs the unit. -/
def blockFilled (ctx : Nat) (r : Region) (f : CFill) (out : List Byte) (s : State) : State :=
  let unit := r.unitOfBlk f.blk
  let s := filledBy (openerClass s f.opener) ctx r f.blk f.attempt out s
  let s := { s with fills := s.fills.erase f }
  modUnit ctx r.idx unit (fun u =>
    let filled := u.filled ++ [f.blk]
    { CUnit.noteGen s ctx r [f.blk] u with filled := filled, installed := decide (filled.length = perUnit r) }) s

/-- An attempt of a fill ends; the next one is a request of its own. -/
def attemptEnds (ctx : Nat) (r : Region) (f : CFill) (e : DecEnd) (s : State) : State :=
  match e with
  | .done o _ => blockFilled ctx r f o s
  | .fail c k =>
    if f.attempt < attempts r then
      askEngine ctx r (openerClass s f.opener) f.blk (f.attempt + 1)
        { s with fills := s.fills.map fun x => if x = f then { f with attempt := f.attempt + 1 } else x }
    else failUnit ctx r f.blk f c k s

/-- BLOCK_FILL: the next attempt of a fill reads its slot and starts its run, where its class may, or a run that has ended is taken. -/
def execBlockFill (ctx region blk : Nat) (s : State) : Result :=
  match findRegion s ctx region, s.fills.find? fun f => f.ctx = ctx && f.region = region && f.blk = blk with
  | some r, some f =>
    if (s.ctx ctx).halted then .next s
    else match runOf s ctx region blk false with
      | some n =>
        let x := s.runs.getD n default
        if x.fin.isNone then .next s else .next (attemptEnds ctx r f (decEnd x) (takeRun n s)).tickNow
      | none => if trafficStops s r (openerClass s f.opener) then .next s else
        let asked := askEntry ctx r (openerClass s f.opener) blk f.attempt s
        match stageOf s ctx r (attemptSlot s ctx r blk f.attempt) (slotBad s ctx r blk (decide (3 ≤ f.attempt))) with
        | .fail c => .next (attemptEnds ctx r f (.fail c 0) asked).tickNow
        | .plain o => .next (attemptEnds ctx r f (.done o 0) asked).tickNow
        | .run g inp =>
          if !engineFree s r.die then .next s
          else if isLib g.dec then .next (attemptEnds ctx r f (libDecode g.dec inp) s).tickNow
          else .next { s with runs := s.runs ++ [mkRun s ctx r blk g false inp] }
  | _, _ => .next s

/-- A halt cancels the decodes in progress of its context (11 R209, R212). -/
def cancelDecodes (ctx : Nat) (s : State) : State :=
  unfill (fun _ => false) (fun u => u.ctx = ctx && !u.installed) { s with
      fills := s.fills.filter fun f => f.ctx ≠ ctx
      runs := modIf (fun x => x.ctx = ctx && !x.encode) (fun x => { x with taken := true }) s.runs }

/-! ### Access of a device agent to a codec region: the unit is filled whole -/

/-- The error of a fill: cause, steps, attempts, block. -/
abbrev FillErr := Nat × Nat × Nat × Nat

/-- Fills the blocks of a unit that are not filled, one after another, each with its requests (08 R174). A failure goes with the
state that the requests made so far leave. -/
def fillBlocks (cls ctx : Nat) (r : Region) : List Nat → State → Except (FillErr × State) State
  | [], s => .ok s
  | k :: rest, s => match fillNow cls ctx r k s with
    | .ok s' => fillBlocks cls ctx r rest s'
    | .error e => .error ((e.1.1, e.1.2.1, e.1.2.2, k), e.2)

/-- The units of a die that may leave its L2, each with its region: no fill of theirs is in progress. -/
def oldUnits (s : State) (die : Nat) : List (CUnit × Region) :=
  s.units.filterMap fun u => (findRegion s u.ctx u.region).bind fun q =>
    if q.die = die && !filling s u.ctx q u.unit then some (u, q) else none

/-- The first units that free a number of L2 lines between them. -/
def firstUnits : Nat → List (CUnit × Region) → List (CUnit × Region)
  | _, [] => []
  | need, e :: rest => if need = 0 then [] else e :: firstUnits (need - unitLines e.2) rest

/-- The L2 of a region's die makes room for a unit: its oldest lines leave, then as many of its oldest units as that takes, the lower
index first (11 R203, R214), then others for those whose blocks stay pinned. Their encodes have the class of the fill that forces
them (08 R174). -/
def makeRoom (cls : Nat) (r : Region) (s : State) : State :=
  let s := freeL2 r.die (unitLines r) (fun x => askRange 4096 cls x.ctx x.addr 128) s
  if roomL2 s r.die (unitLines r) then s
  else
    let key := fun (e : CUnit × Region) => [e.1.ctx, e.1.region, e.1.unit]
    let held := (s.lines.filter fun l => l.place = .l2 r.die && !l.inUnit).length + codecLines s r.die
    let go := firstUnits (held + unitLines r - 786432) ((oldUnits s r.die).filter fun e => e.1.pinned = [])
    let s := (sortBy (fun a b => decide (key a ≤ key b)) go).foldl (fun s e => writeBackUnit (some cls) e.1.ctx e.2 e.1.unit s) s
    (oldUnits s r.die).foldl (fun s e =>
      if roomL2 s r.die (unitLines r) then s else writeBackUnit (some cls) e.1.ctx e.2 e.1.unit s) s

/-- A unit is filled and installed at once, with the blocks that it holds already as they are; where pinned blocks leave the
L2 no room for it, it is not installed. -/
def touchUnit (cls ctx : Nat) (r : Region) (unit : Nat) (s : State) : Except (FillErr × State) State :=
  let u := findUnit s ctx r.idx unit
  let have_ := (u.map fun u => if u.installed then blksOf r unit else u.filled).getD []
  let new := (blksOf r unit).filter fun k => !have_.contains k
  match fillBlocks cls ctx r new (if u.isSome then s else makeRoom cls r s) with
  | .error e => .error e
  | .ok s =>
    let s := endFills ctx r unit s
    let s := if u.isSome || !roomL2 s r.die (unitLines r) then s
      else { s with units := s.units ++ [⟨ctx, r.idx, unit, true, [], [], [], [], [], []⟩] }
    .ok (modUnit ctx r.idx unit (fun u => { CUnit.noteGen s ctx r new u with installed := true, filled := blksOf r unit }) s)

def touchUnits (cls ctx : Nat) (r : Region) : List Nat → State → Except (FillErr × State) State
  | [], s => .ok s
  | u :: rest, s => match touchUnit cls ctx r u s with
    | .ok s' => touchUnits cls ctx r rest s'
    | .error e => .error e

/-- The part of a region among n bytes at va: its first and last block. -/
def blocksAt (r : Region) (va n : Nat) : List Nat :=
  let lo := max va r.base
  let hi := min (va + n) (r.base + r.len)
  if lo < hi then (List.range ((hi - 1 - r.base) / r.pbs - (lo - r.base) / r.pbs + 1)).map (· + (lo - r.base) / r.pbs) else []

/-- The units of every region among n bytes at va are installed. -/
def codecThere (s : State) (ctx va n : Nat) : Bool :=
  (s.ctx ctx).regions.all fun r => (blocksAt r va n).all fun k => (findUnit s ctx r.idx (r.unitOfBlk k)).any CUnit.installed

/-- The units of every region among n bytes at va are in the L2, filled at a class; no error is named where pinned blocks leave the
L2 no room for them (01 R18). A fill that fails is named with the state that its requests leave. -/
def touchRange (cls ctx va n : Nat) (s : State) : Except (Option (Region × FillErr × State)) State :=
  let one := fun (a : Except (Option (Region × FillErr × State)) State) (r : Region) => a.bind fun s =>
    (touchUnits cls ctx r ((blocksAt r va n).map r.unitOfBlk).eraseDups s).mapError fun e => some (r, e)
  ((s.ctx ctx).regions.foldl one (.ok s)).bind fun s' => if codecThere s' ctx va n then .ok s' else .error none

/-- The fills that an access of a class needs stop: the die of their region is in an emergency (17 R266). -/
def fillsStop (s : State) (cls ctx va n : Nat) : Bool :=
  decide (2 ≤ cls) && (s.ctx ctx).regions.any fun r => (s.die r.die).emergency &&
    !((blocksAt r va n).all fun k => (findUnit s ctx r.idx (r.unitOfBlk k)).any CUnit.installed)

/-- The fill that a device agent's access joins, of a unit for which an access of a thread missed before it: its failure is
charged to its opener (11 R212, 12 R224). -/
def joinedFill (s : State) (ctx : Nat) (r : Region) (blk : Nat) : Option CFill :=
  let op := openerOf s ctx r (r.unitOfBlk blk)
  (s.fills.find? fun f => f.ctx = ctx && f.region = r.idx && f.blk = blk && f.opener.thr.isSome).or
    (if op.thr.isSome then some ⟨ctx, r.idx, blk, attempts r, op⟩ else none)

/-- Blocks that a device agent has written are dirty, each with the others of its lines, with no closing store. -/
def dirtyRange (ctx va n : Nat) (s : State) : State :=
  (s.ctx ctx).regions.foldl (fun s r => ((blocksAt r va n).flatMap (lineMates r)).eraseDups.foldl (fun s k =>
    modUnit ctx r.idx (r.unitOfBlk k) (fun u => { u with dirty := if u.dirty.contains k then u.dirty else u.dirty ++ [k] }) s) s) s

/-- A write at system scope by an agent that is no core: the other copies of a HARD or POOL line go first, and the home L2
has the data (08 R163, Table 08.4). -/
def agentWrite (ctx va : Nat) (data : List Byte) (s : State) : State :=
  let here := fun (l : Line) => l.ctx = ctx && decide (va < l.addr + 128 ∧ l.addr < va + data.length)
  let s := recallLines (fun l => here l && (l.coh = .hard || l.coh = .pool) && !l.place.isL2) s
  sysWrite ctx va data { s with lines := modIf (fun l => here l && l.place.isL2) (fun l => { l with dirty := true }) s.lines }

def pagesOf (base len : Nat) : List Nat := (List.range ((base % 2 ^ 16 + len + 2 ^ 16 - 1) / 2 ^ 16)).map fun i => base / 2 ^ 16 * 2 ^ 16 + i * 2 ^ 16

/-- The first of n bytes whose page table or whose line is poisoned. -/
def deviceBad (s : State) (ctx va n : Nat) : Option Nat :=
  ((pagesOf va n).map (max va)).find? fun a => walkBad s ctx a || poisonedVa s ctx a (min (a / 2 ^ 16 * 2 ^ 16 + 2 ^ 16) (va + n) - a)

/-- Fault 0x1A of an access of the device itself, charged to the context (13 R246; 17 R272). -/
def raiseDevice (ctx a : Nat) (s : State) : State := raiseContext (ctlSource (ctlFor s ctx a)) 0x1A ctx a id s

/-- Requests of class 3 to some of n bytes stop: the die of their controller is in an emergency (17 R266). -/
def requestsStop (s : State) (ctx va n : Nat) : Bool :=
  (List.range ((va % 128 + n + 127) / 128)).any fun i =>
    let c := ctlFor s ctx (va / 128 * 128 + 128 * i)
    decide (c < 24) && (s.die (c / 6)).emergency

/-- An access of the device to n bytes waits: its requests or the fills that it needs stop, or their units have no room, or what it
recalls from a cache waits for its link (15 R252). -/
def deviceHeld (s : State) (ctx va n : Nat) : Bool :=
  requestsStop s ctx va n || fillsStop s 3 ctx va n || recallHeld s (fun l => l.ctx = ctx && decide (va < l.addr + 128 ∧ l.addr < va + n)) || match touchRange 3 ctx va n s with
    | .error none => true
    | _ => false

/-- The units that an access of the device needs, where they can be filled. Its requests, and their fills, are of class 3 (log
92). A block that cannot be filled raises nothing, and a read of it finds its plain bytes as they last stood (DESIGN CHOICE,
log 116). -/
def deviceTouch (ctx va n : Nat) (s : State) : State :=
  let s := askRange 4096 3 ctx va n s
  match touchRange 3 ctx va n s with
  | .ok s' => s'
  | .error (some (_, _, s')) => s'
  | .error none => s

/-- A device write at system scope, into a codec region through its unit. A block that cannot be filled keeps its slot, and the
bytes stand as plain data (log 12); to a poisoned line nothing is written. -/
def deviceWrite (ctx va : Nat) (data : List Byte) (s : State) : State :=
  match deviceBad s ctx va data.length with
  | some a => raiseDevice ctx a s
  | none => dirtyRange ctx va data.length (agentWrite ctx va data (deviceTouch ctx va data.length s))

/-! ### The recode walker (11 R218) -/

/-- The slots name no generation but the current one. -/
def allCurrent (r : Region) : Bool := (List.range r.blocks).all fun k => slotGen (r.slot k) = r.cur

/-- The walk ends: older generations are retired where no slot names them. -/
def endWalk (ctx region : Nat) : State → State :=
  modRegion ctx region fun r =>
    { r with walker := none, gens := if allCurrent r then r.gens.filter (·.num = r.cur) else r.gens }

/-- The walker stops at a fault, which is logged. -/
def stopWalk (ctx region blk cause : Nat) (s : State) : State :=
  logEvent (fwSource .mm) .walkerFault [ctx, region, blk, cause] (modRegion ctx region (fun r => { r with walker := none }) s)

/-- The header of a ZERO or ESC slot takes the current generation. -/
def regen (r : Region) (slot : List Byte) : List Byte :=
  match slot with
  | [] => []
  | b :: t => BitVec.ofNat 8 (b.toNat / 4 * 4 + r.cur) :: t

/-- RECODE_WALK: the walker visits the next slot of a region, from the cycle after the rebinding on. A block that the L2
holds is recoded at its eviction, and the walker waits for it, as for a demand fill, and for the room of its unit (01 R18). It reads
every slot. Of a ZERO or ESC slot it rewrites only the GEN. Its class stops while the die is in an
emergency (17 R266). -/
def execRecodeWalk (ctx region : Nat) (s : State) : Result :=
  match findRegion s ctx region with
  | none => .next s
  | some r => match r.walker with
    | none => .next s
    | some k =>
      let next := modRegion ctx region fun r => { r with walker := some (k + 1) }
      let unit := r.unitOfBlk k
      if r.since = s.cycle || (s.die r.die).emergency then .next s
      else if r.blocks ≤ k then .next (endWalk ctx region s)
      else if slotGen (r.slot k) = r.cur then
        let s := askEngine ctx r 3 k 1 s
        .next (if slotBad s ctx r k false then stopWalk ctx region k 0x1A s else next s)
      else if filling s ctx r unit then .next s
      else if (findUnit s ctx region unit).any fun u => u.holds k then
        .next (modUnit ctx region unit (fun u => { u with
          dirty := if !u.dirty.contains k && !u.leaving.any (·.1 = k) then u.dirty ++ [k] else u.dirty }) s)
      else
      if slotZero (r.slot k) || slotEsc (r.slot k) then
        let s := askEngine ctx r 3 k 1 s
        if slotBad s ctx r k false then .next (stopWalk ctx region k 0x1A s)
        else if !slotOk r (r.slot k) then .next (stopWalk ctx region k 0x12 s)
        else .next (next (writeSlot ctx r 3 k (regen r (r.slot k)) s))
      else
      let room := if (findUnit s ctx region unit).isNone then makeRoom 3 r s else s
      if (findUnit s ctx region unit).isNone && !roomL2 room r.die (unitLines r) then .next s
      else match fillNow 3 ctx r k room with
        | .error e => .next (stopWalk ctx region k e.1.1 e.2)
        | .ok s' =>
          let s'' := encodeNow 3 ctx region k none s'
          let faults := s''.ring.drop s'.ring.length
          .next (match faults with
            | [] => next s''
            | f :: _ => stopWalk ctx region k f.cause s'')

/-! ### Slot injection (12 R225) -/

/-- SLOT_INJECTION: the event that MM logs is caused by the message to MG, which waits where the MG does (17 R264); the write-backs
that it forces wait for the end of an emergency (17 R266). -/
def execSlotInjection (ctx region blk off : Nat) (bytes : List Byte) (s : State) : Result :=
  if mgWaits s then .next s else
  let (m, s) := mgRequest s
  match findRegion s ctx region with
  | none => .next s
  | some r =>
    if !(s.ctx ctx).spec.injection || bytes = [] || 16 < bytes.length || r.sbs < off + bytes.length || r.blocks ≤ blk ||
        leased s ctx r.base r.len || writeBacksStop none s ctx (fun x _ => x.idx = region) then .next s
    else
      let s := writeBackUnits none ctx (fun x _ => x.idx = region) s
      let mine := fun (u : CUnit) => u.ctx = ctx && u.region = region
      let s := (s.units.filter mine).foldl (fun s u => endFills ctx r u.unit s) s
      let s := unfill (fun u => decide (u.pinned.length = perUnit r)) mine s
      let s := removeLines (fun l => l.ctx = ctx && decide (r.base < l.addr + 128 ∧ l.addr < r.base + r.len)) s
      let put := fun (r : Region) =>
        let old := r.slot blk
        setSlot blk (old.take off ++ bytes ++ old.drop (off + bytes.length)) r
      let (q, s) := nextSeq s (fwSource .mm)
      .next (logAs (fwSource .mm) q m .injection [ctx, region, blk, off, bytes.length] (modRegion ctx region put s)).tickNow

/-! ### Tensor copies to global memory (09 R192; 20 R362, R363) -/

/-- A store to a pool line finds its line in the remote-data cache of the die, owned (15 R252); the store makes it dirty. -/
def poolLine (die ctx va : Nat) (l : Leaf) (back : Line → State → State) (s : State) : State :=
  if l.coh ≠ .pool then s
  else
    let s := evictLines [.rdc die] ctx va [] back s
    let s := if roomIn s (.rdc die) ctx va then installPath [.rdc die] (fun p => lineOf p ctx va 0 l none) s else s
    ownLine die ctx va s

/-- A copy has met a fault: it never completes (10 R197). -/
def killCopy (b : Nat) (c : Copy) : State → State :=
  modBlock b fun k => { k with copies := modIf (fun x => x.id = c.id && x.tid = c.tid) (fun x => { x with dead := true }) k.copies }

def modCopy (b : Nat) (c : Copy) (f : Copy → Copy) : State → State :=
  modBlock b fun k => { k with copies := modIf (fun x => x.id = c.id && x.tid = c.tid) f k.copies }

/-- The store of one element of a tensor copy to global memory, with the place in its thread's order that the `TCOPY` has (09 R192). -/
def scatterOp (s : State) (b : Nat) (c : Copy) (d : TDesc) (e va : Nat) : MemOp :=
  { globalOp s b c.tid .store va d.esize with
    id := c.id, iss := c.issued, pc := c.pc, fill := .done, data := ((c.box.getD []).drop (e * d.esize)).take d.esize }

/-- One element of a tensor copy to global memory, as a relaxed store of the issuing thread (09 R192), or its fault, which
ends the copy; the stores before it stay. It waits for the order of its thread, for the link and the place of a pool line, for the
room of a unit; then its request leaves, and it goes on when that has been served (08 R174). `now` is an entry of Winter, which
waits for neither a request nor the end of an emergency (17 R268). -/
def scatterOne (now : Bool) (b : Nat) (c : Copy) (d : TDesc) (e va : Nat) (s : State) : State :=
  let ctx := ctxOf s b
  let core := (s.block b).core
  let cls := (s.launchOf b).cls
  let o := scatterOp s b c d e va
  let charge := fun (src cause : Nat) (extra : StopRec → StopRec) (s : State) =>
    takeFault (extra { threadRec s b cause [c.tid] c.pc va with source := src }) (killCopy b c s)
  let bad := fun (s : State) =>
    if canRollBack (s.block b) then rollBack b 0x1A [c.tid] c.pc va s else charge (ctlSource (ctlFor s ctx va)) 0x1A id s
  match (if lostAt s ctx va then some 0x18 else pageFault s ctx va .w), walk s ctx va with
  | some cause, _ => if cause = 0x1A then bad s else charge (sourceCode 2 (core / 40) (core % 40)) cause id s
  | none, .leaf l =>
    if l.coh = .pool && !(portUp s (portOf s ctx va) && mayHold s (.rdc (core / 40)) ctx va) ||
        !canStep s b c.tid { o with priv := l.coh = .priv } || (!now && fillsStop s cls ctx va d.esize) then s
    else if !now && !c.asked then askRange (256 + core) cls ctx va d.esize (modCopy b c (fun x => { x with asked := true }) s)
    else if !now && askPendingAt s (256 + core) ctx va then s
    else if poisonedVa s ctx va d.esize then bad s
    else match touchRange cls ctx va d.esize s with
    | .error none => s
    | .error (some (r, x, s')) => match joinedFill s ctx r x.2.2.2 with
      | some f => failUnit ctx r f.blk f x.1 x.2.1 (killCopy b c s')
      | none =>
        let (src, s') := engineSource r.die s'
        charge src x.1 (codecExtra r x.2.2.2 x.2.1 x.2.2.1) s'
    | .ok s' =>
      let s := poolLine (core / 40) ctx va l (fun x => askRange (256 + core) cls x.ctx x.addr 128) s'
      let s := performGlobal b c.tid { o with priv := l.coh = .priv } s
      (modCopy b c (fun x => { x with got := x.got ++ [(e, [])], asked := false }) s).tickNow
  | none, _ => s

/-- A copy to global memory with its box as it stands in scratch, which it reads once, whole, as its completion begins (09 R192). -/
def withBox (s : State) (b : Nat) (c : Copy) : Copy := { c with box := c.box.or (some (memRead (s.block b).scratch c.dst c.n)) }

/-- A tensor copy goes on: one to scratch lands whole when its reads have returned; one to global memory reads its box once no
entry before it holds it, then stores its elements one by one, and completes after the last (09 R192; 20 R362, R363). -/
def copyStep (now : Bool) (b : Nat) (c : Copy) (d : TDesc) (s : State) : State :=
  if d.dir = 0 then (if c.readyToLand && !landHeld s b c then landCopy b c s else s)
  else if c.cancelled || c.dead || (s.ctx (ctxOf s b)).halted || (c.box.isNone && landHeld s b c) then s
  else
    let c := withBox s b c
    let s := modCopy b c (fun x => { x with box := c.box }) s
    match d.elements[c.got.length]? with
    | some e => scatterOne now b c d e.1 e.2 s
    | none => (lowerTag b c (dropCopy b c s)).tickNow

/-- TCOPY_COMPLETE. -/
def execTcopyComplete (b id : Nat) (s : State) : Result :=
  match findCopy s b (id / 1024) (id % 1024) with
  | none => .next s
  | some c => match tdescOf c.desc with
    | none => .next s
    | some d => .next (copyStep false b c d s)

end Sys2Proof.Machine
end

