-- ==== Sys2Proof/Machine/CrossLane.lean ====
section
/-!
DEFINITION. The cross-lane class: arrival, the set that fires, and what each thread of it receives (02 R39-R42;
20 R345-R347, R352, R367, R368).
-/

namespace Sys2Proof.Machine

open Sys2Proof

/-- A thread of the group arrives, whatever its guard, and waits at the instruction (20 R346). -/
def arriveLane (i : Instr) (s : State) (t : Nat) : State :=
  let b := s.cur.block
  let on := threadGuard i s b t
  modThread b t (fun th => { stampThread s.cur.cyc th with st := .laneWait on i s.cur.len }) s

def crossExec (i : Instr) : State → Result := laneExecBy i noFault (arriveLane i)

def execShfl (f : EFields) (s : State) : Result := crossExec (.shfl f) s
def execVote (f : EFields) (s : State) : Result := crossExec (.vote f) s
def execWred (f : EFields) (s : State) : Result := crossExec (.wred f) s
def execQxch (f : EFields) (s : State) : Result := crossExec (.qxch f) s
def execQbc (f : EFields) (s : State) : Result := crossExec (.qbc f) s

/-! ### Members and the fired set (02 R39, R40) -/

def isQuad : Instr → Bool
  | .qxch _ | .qbc _ => true
  | _ => false

/-- The guard of an arrival, its instruction and length. -/
def arrivalOf (th : Thread) : Option (Bool × Instr × Nat) :=
  match th.st with
  | .laneWait on i len => some (on, i, len)
  | _ => none

/-- The operand that holds the member mask. -/
def maskPos : Instr → Pos
  | .shfl _ => .rc
  | _ => .rb

/-- The lanes a thread names, itself included, in ascending order; a false guard names only itself. In a REDUNDANT wave the
upper 16 are absent lanes (02 R48). -/
def namedLanes (lane : Nat) (th : Thread) : List Nat :=
  match arrivalOf th with
  | some (true, i, _) =>
    let (f, sh) := fieldsOf i
    let m := opd f sh th.vals (maskPos i)
    (List.range 32).filter fun x => x = lane || (m.testBit x && (!isQuad i || x / 4 = lane / 4))
  | _ => [lane]

/-- The thread of a home lane: none for a lane that is no thread. -/
def laneThread (s : State) (b w lane : Nat) : Option Thread :=
  if lane < (s.launchOf b).lanes then (s.block b).threads[w * (s.launchOf b).lanes + lane]? else none

/-- Every living member a lane names is in a set. -/
def closedFor (s : State) (b w : Nat) (set : List Nat) (lane : Nat) : Bool :=
  match laneThread s b w lane with
  | some th => (namedLanes lane th).all fun m =>
      set.contains m || !((laneThread s b w m).any Thread.alive)
  | none => false

/-- Drops the lanes whose members are missing, until none is. -/
def shrink (s : State) (b w : Nat) : Nat → List Nat → List Nat
  | 0, set => set
  | fuel + 1, set => shrink s b w fuel (set.filter (closedFor s b w set))

/-- The home lanes of a wave that have arrived at an address. -/
def arrivedLanes (s : State) (b w : Nat) (pc : DWord) : List Nat :=
  (List.range (s.launchOf b).lanes).filter fun l => (laneThread s b w l).any fun th => (arrivalOf th).isSome && th.pc = pc

/-- The set F of 02 R40. -/
def firedSet (s : State) (b w : Nat) (pc : DWord) : List Nat := shrink s b w 32 (arrivedLanes s b w pc)

/-! ### What a lane contributes (20 R346) -/

/-- The source value of a thread: the register RA, or the predicate of a `VOTE`. -/
def laneSource (th : Thread) (i : Instr) : Nat :=
  let (f, sh) := fieldsOf i
  match i with
  | .vote _ => (th.vals.predField f.ra.toNat).toNat
  | _ => opd f sh th.vals .ra

/-- Value, presence and taint of lane m for a thread whose instruction is i. -/
def contrib (s : State) (b w : Nat) (set : List Nat) (i : Instr) (m : Nat) : Nat × Bool × Bool :=
  match laneThread s b w m with
  | none => (0, false, false)
  | some th => match arrivalOf th with
    | some (on, im, _) =>
      if set.contains m && on then (laneSource th im, true, srcTaint (fieldsOf im).1 (fieldsOf im).2 th.vals)
      else (0, false, false)
    | none =>
      if th.st = .exited && isQuad i then
        let r := th.vals.get (fieldsOf i).1.ra.toNat
        if r.av = .abandoned then (0, false, false) else (r.val.toNat, false, r.taint)
      else (0, false, false)

/-- Own value, or the contribution of a named lane; any other lane is absent. -/
def contribFor (s : State) (b w : Nat) (set : List Nat) (i : Instr) (th : Thread) (lane : Nat) (named : List Nat) (m : Nat) :
    Nat × Bool × Bool :=
  if m = lane then (laneSource th i, true, false)
  else if named.contains m then contrib s b w set i m else (0, false, false)

/-- The lane `SHFL` selects (20 R352); none outside 0 to 31. -/
def shflSource (f : EFields) (n lane b : Nat) : Option Nat :=
  let wrap := f.mod.getLsbD 2
  match f.mod.toNat % 4 with
  | 0 => some (b % 32)
  | 1 => if wrap then some ((lane + n - b % n) % n) else if lane < b then none else some (lane - b)
  | 2 => if wrap then some ((lane + b % n) % n) else if 31 < lane + b then none else some (lane + b)
  | _ => some (lane ^^^ (b % 32))

/-- Minimum or maximum of 32-bit values. -/
def pickInt (signed mx : Bool) (a b : Nat) : Nat :=
  let x := if signed then sextN a 32 else (a : Int)
  let y := if signed then sextN b 32 else (b : Int)
  if (if mx then decide (x ≤ y) else decide (y ≤ x)) then b else a

/-- The reduction of `WRED` (20 R368). -/
def wredOf (f : EFields) : List Nat → Nat
  | [] => 0
  | a :: r => r.foldl (fun x y => match fmtOf f with
      | 0 => (x + y) % 2 ^ 32
      | 1 => pickInt (f.mod.getLsbD 3) false x y
      | 2 => pickInt (f.mod.getLsbD 3) true x y
      | 3 => x &&& y
      | 4 => x ||| y
      | _ => x ^^^ y) a

/-- The result of `VOTE` over contributions by lane (20 R367). -/
def voteOf (f : EFields) (cs : List (Nat × Nat)) : Nat :=
  match f.mod.toNat % 4 with
  | 0 => (cs.all fun c => c.2 != 0).toNat
  | 1 => (cs.any fun c => c.2 != 0).toNat
  | 2 => (cs.all fun c => c.2 = (cs.headD (0, 0)).2).toNat
  | _ => maskOf ((cs.filter fun c => c.2 != 0).map Prod.fst)

/-- What a thread of F with a true guard receives: value, result predicate, taint of the contributions. -/
def crossResult (s : State) (b w : Nat) (set : List Nat) (i : Instr) (th : Thread) (lane : Nat) : Nat × Bool × Bool :=
  let n := (s.launchOf b).lanes
  let (f, sh) := fieldsOf i
  let named := namedLanes lane th
  let get := contribFor s b w set i th lane named
  let all := named.map fun m => (m, get m)
  let present := all.all fun c => c.2.2.1
  match i with
  | .shfl _ => match shflSource f n lane (opd f sh th.vals .rb) with
    | some m => get m
    | none => (0, false, false)
  | .qbc _ => get (lane / 4 * 4 + f.mod.toNat % 4)
  | .qxch _ => get (lane ^^^ (f.mod.toNat % 4))
  | .vote _ => (voteOf f (all.map fun c => (c.1, c.2.1)), present, false)
  | _ => (wredOf f (all.map fun c => c.2.1), present, all.any fun c => c.2.2.2)

/-- One thread of F completes. -/
def completeLane (s : State) (b w : Nat) (set : List Nat) (lane : Nat) (th : Thread) : Thread :=
  match arrivalOf th with
  | none => th
  | some (on, i, len) =>
    let (f, sh) := fieldsOf i
    let th' := { advancePc len th with st := .ready }
    if !on then th'
    else
      let r := crossResult s b w set i th lane
      onLanes (fun v => (writeDst f sh v r.1 (srcTaint f sh th.vals || r.2.2)).setPred f.re.toNat r.2.1) th'

/-- CROSS_LANE_FIRE (02 R40, R41): the largest set at one address of a home wave reads its sources as they stand now
and completes together. -/
def execCrossLaneFire (b w : Nat) (pc : DWord) (s : State) : Result :=
  let set := firedSet s b w pc
  .next (set.foldl (fun s' lane =>
    modThread b (w * (s.launchOf b).lanes + lane) (completeLane s b w set lane) s') s)

/-! ### Convergence deadlock (02 R42) -/

/-- The living threads of a home wave. -/
def livingTids (s : State) (b w : Nat) : List Nat :=
  (tidsOf (s.block b)).filter fun t => decide (homeWave (s.launchOf b) t = w) && (s.thread b t).alive

/-- Held or waiting in a cross-lane instruction. -/
def stuckThread (th : Thread) : Bool := th.st = .held || (arrivalOf th).isSome

/-- Addresses at which threads of a home wave have arrived. -/
def arrivalPcs (s : State) (b w : Nat) : List DWord :=
  (((livingTids s b w).filter fun t => (arrivalOf (s.thread b t)).isSome).map fun t => (s.thread b t).pc).eraseDups

def deadlocked (s : State) (b w : Nat) : Bool :=
  livingTids s b w != [] && (livingTids s b w).all (fun t => stuckThread (s.thread b t)) &&
    !(((s.block b).waves.getD w default).slots.any (slotMet s b w)) &&
    (arrivalPcs s b w).all fun pc => firedSet s b w pc = []

/-- CONVERGENCE_DEADLOCK: fault 0x06 for the home wave. -/
def execConvergenceDeadlock (b w : Nat) (s : State) : Result :=
  if deadlocked s b w then
    let ts := livingTids s b w
    .next (raiseCause b 0x06 ts (s.thread b (ts.headD 0)).pc 0 s)
  else .next s

end Sys2Proof.Machine
end

