-- ==== Sys2Proof/Machine/Float.lean ====
section
/-!
DEFINITION. The float class (05 R115-R128; 18 R279, R302, R304-R306, R309-R315).
-/

namespace Sys2Proof.Machine

open Sys2Proof

/-! ### Elements (05 R115) -/

/-- The element format and whether it is packed. -/
def fmtTable (c : Nat) : Fmt × Bool :=
  match c with
  | 0 => (f32, false)
  | 1 => (f16, false)
  | 2 => (bf16, false)
  | 3 => (f16, true)
  | _ => (bf16, true)

/-- Element e of a register. -/
def element (f : Fmt) (x e : Nat) : Nat := x / 2 ^ (16 * e) % 2 ^ f.width

/-- How a source is prepared (18 R279): flush, absolute value, negate. -/
def prepare (f : Fmt) (ftzi abs neg : Bool) (x : Nat) : FV :=
  let v := unpackF f (flushIn f ftzi x)
  let v := if abs then v.abs else v
  if neg then v.negate else v

/-- An operation on the prepared elements, each of the same format, giving a pattern and flags. -/
abbrev ElemOp := Fmt → Nat → Bool → List FV → Nat × Nat

/-- Applies an operation to each element and merges the flags. `hasC`: the entry has a third float source, so MOD[5]
negates it; otherwise MOD[5] takes the absolute value of the last float source. `n`: the float sources. -/
def floatOp (n : Nat) (op : ElemOp) : AluOp := fun f _ rm l =>
  let (fm, packed) := fmtTable (fmtOf f)
  let one := fun (e : Nat) => op fm rm f.ftzo ((List.range n).map fun i =>
    prepare fm f.ftzi (n < 3 && i + 1 = n && f.mod.getLsbD 5)
      ((i = 0 && f.mod.getLsbD 3) || (i = 1 && f.mod.getLsbD 4) || (i = 2 && f.mod.getLsbD 5)) (element fm (l.getD i 0) e))
  if packed then
    let r0 := one 0
    let r1 := one 1
    (r0.1 + 2 ^ 16 * r1.1, r0.2 ||| r1.2)
  else one 0

def opV (l : List FV) (i : Nat) : FV := l.getD i (.fin false 0 0)

def elemAdd : ElemOp := fun f rm z l => sumOfProducts f rm z [] [opV l 0, opV l 1]
def elemMul : ElemOp := fun f rm z l =>
  let p := mulFV (opV l 0) (opV l 1)
  orFlags (sigFlags l ||| p.2) (finishF f rm z p.1)
def elemFma : ElemOp := fun f rm z l => sumOfProducts f rm z [(opV l 0, opV l 1)] [opV l 2]

/-- FTZO of a result that is not rounded (18 R311). -/
def flushOut (f : Fmt) (ftzo : Bool) (r : Nat × Nat) : Nat × Nat :=
  if ftzo && isSubnormal f r.1 then (f.sign (r.1.testBit (f.eb + f.fb)), r.2 ||| fUF ||| fNX) else r

def elemMinMax (mx : Bool) : ElemOp := fun f _ z l =>
  flushOut f z (orFlags (sigFlags l) (finishF f rmRNE false (minMaxFV mx (opV l 0) (opV l 1))))

def elemRnd : ElemOp := fun f rm z l => frndFV f rm z (opV l 0)

/-- 18 R314: k is clamped to ±1,024; the packed elements share it. -/
def opScl : AluOp := fun f v rm l =>
  let k : Int := max (-1024) (min 1024 (sextN (l.getD 1 0) 32))
  let op : ElemOp := fun fm rm z a => match opV a 0 with
    | .fin n 0 _ => (fm.sign n, 0)
    | .fin n m e => roundF fm rm z n m (e + k)
    | x => orFlags (sigFlags [x]) (finishF fm rm z x)
  floatOp 1 op f v rm l

/-- 18 R306. -/
def opDp2 : AluOp := fun f _ rm l =>
  let (fm, _) := fmtTable (fmtOf f)
  let a := fun (e : Nat) => prepare fm f.ftzi false (f.mod.getLsbD 3) (element fm (l.getD 0 0) e)
  let b := fun (e : Nat) => prepare fm f.ftzi false (f.mod.getLsbD 4) (element fm (l.getD 1 0) e)
  let c := prepare f32 f.ftzi false (f.mod.getLsbD 5) (l.getD 2 0)
  sumOfProducts f32 rm f.ftzo [(a 0, b 0), (a 1, b 1)] [c]

/-- 04 Table 04.8, floats; 05 R124. -/
def opFset : AluOp := fun f _ _ l =>
  let a := prepare f32 f.ftzi false false (l.getD 0 0)
  let b := prepare f32 f.ftzi false false (l.getD 1 0)
  let un := a.isNan || b.isNan
  let r := match fmtOf f with
    | 0 => eqFV a b
    | 1 => !un && !eqFV a b
    | 2 => !un && ltFV a b
    | 3 => !un && (ltFV a b || eqFV a b)
    | 4 => !un && ltFV b a
    | 5 => !un && (ltFV b a || eqFV a b)
    | 6 => !un
    | _ => un
  (if r || (f.mod.getLsbD 3 && un) then 1 else 0, sigFlags [a, b])

def opFcls : AluOp := fun f _ _ l =>
  let (fm, _) := fmtTable (fmtOf f)
  (if (l.getD 1 0).testBit (classOf fm (flushIn fm f.ftzi (l.getD 0 0))) then 1 else 0, 0)

/-! ### Conversions (18 R302) -/

/-- The exact value of a source element of a format code. -/
def cvtSource (f : EFields) (code x e : Nat) : FV :=
  match code with
  | 0 => prepare f32 f.ftzi false false x
  | 1 => prepare f16 f.ftzi false false (x % 2 ^ 16)
  | 2 => prepare bf16 f.ftzi false false (x % 2 ^ 16)
  | 3 => prepare f16 f.ftzi false false (element f16 x e)
  | 4 => prepare bf16 f.ftzi false false (element bf16 x e)
  | 5 => ds8FV (x % 256)
  | 6 => let v := sextN x 32; .fin (decide (v < 0)) v.natAbs 0
  | _ => .fin false (x % 2 ^ 32) 0

/-- The value a conversion to a float format rounds: an exact zero is +0 (05 R119, its last case). -/
def cvtValue : FV → FV
  | .fin _ 0 e => .fin false 0 e
  | x => x

def cvtElement (f : EFields) (code rm : Nat) (x : FV) : Nat × Nat :=
  let y := cvtValue x
  match code with
  | 6 => toInteger 32 true rm x
  | 7 => toInteger 32 false rm x
  | 5 => toDs8 x
  | 0 => orFlags (sigFlags [x]) (finishF f32 rm f.ftzo y)
  | 1 => orFlags (sigFlags [x]) (finishF f16 rm f.ftzo y)
  | 2 => orFlags (sigFlags [x]) (finishF bf16 rm f.ftzo y)
  | 3 => orFlags (sigFlags [x]) (finishF f16 rm f.ftzo y)
  | _ => orFlags (sigFlags [x]) (finishF bf16 rm f.ftzo y)

def opCvt : AluOp := fun f _ rm l =>
  let d := fmtOf f
  let sc := f.mod.toNat / 8
  let a := l.getD 0 0
  if d = 3 ∨ d = 4 then
    let y := if sc = 0 then l.getD 1 0 else a
    let r0 := cvtElement f d rm (cvtSource f sc a 0)
    let r1 := cvtElement f d rm (cvtSource f sc y 1)
    (r0.1 + 2 ^ 16 * r1.1, r0.2 ||| r1.2)
  else if sc = 3 ∨ sc = 4 then
    let r0 := cvtElement f d rm (cvtSource f sc a 0)
    let r1 := cvtElement f d rm (cvtSource f sc a 1)
    (r0.1 + 2 ^ 32 * r1.1, r0.2 ||| r1.2)
  else cvtElement f d rm (cvtSource f sc a 0)

/-! ### Special functions (18 R309): the result comes from the special-function unit -/

def sfuExec (i : Instr) (fn : Nat → Bool → FV → Nat × Nat) (s : State) : Result :=
  let (f, sh) := fieldsOf i
  laneExec i noFault (fun b t s =>
    modThread b t (fun th =>
      let rm := rmOf f.rm th.rm
      let r := fun (v : Vals) => fn rm f.ftzo (prepare f32 f.ftzi (f.mod.getLsbD 5) (f.mod.getLsbD 3) (opd f sh v .ra))
      let w := fun (v : Vals) => BitVec.ofNat 32 (r v).1
      producerThread f sh s.cur.pc (.sfu (w th.vals) (w (th.shadow.getD th.vals)) (BitVec.ofNat 5 (r th.vals).2)) th) s) s

/-! ### Meanings -/

def execFadd (f : EFields) (s : State) : Result := aluExec (.fadd f) (floatOp 2 elemAdd) s
def execFmul (f : EFields) (s : State) : Result := aluExec (.fmul f) (floatOp 2 elemMul) s
def execFfma (f : EFields) (s : State) : Result := aluExec (.ffma f) (floatOp 3 elemFma) s
def execFmin (f : EFields) (s : State) : Result := aluExec (.fmin f) (floatOp 2 (elemMinMax false)) s
def execFmax (f : EFields) (s : State) : Result := aluExec (.fmax f) (floatOp 2 (elemMinMax true)) s
def execFset (f : EFields) (s : State) : Result := aluExec (.fset f) opFset s
def execFcls (f : EFields) (s : State) : Result := aluExec (.fcls f) opFcls s
def execFrnd (f : EFields) (s : State) : Result := aluExec (.frnd f) (floatOp 1 elemRnd) s
def execFscl (f : EFields) (s : State) : Result := aluExec (.fscl f) opScl s
def execFdp2 (f : EFields) (s : State) : Result := aluExec (.fdp2 f) opDp2 s
def execCvt (f : EFields) (s : State) : Result := aluExec (.cvt f) opCvt s
def execFrcp (f : EFields) (s : State) : Result := sfuExec (.frcp f) frcpFV s
def execFsqrt (f : EFields) (s : State) : Result := sfuExec (.fsqrt f) fsqrtFV s
def execFrsq (f : EFields) (s : State) : Result := sfuExec (.frsq f) frsqFV s
def execFex2 (f : EFields) (s : State) : Result := sfuExec (.fex2 f) fex2FV s
def execFlg2 (f : EFields) (s : State) : Result := sfuExec (.flg2 f) flg2FV s

end Sys2Proof.Machine
end

