-- ==== Sys2Proof/Machine/Integer.lean ====
section
/-!
DEFINITION. The integer and predicate classes (05 R131-R133; 18 R288, R292, R293, R295, R300, R316; 19 R319-R323, R328,
R330, R334, R335, R338-R340, R342, R343; 20 R350, R351, R369) and their base forms (04 R96, R97).
-/

namespace Sys2Proof.Machine

open Sys2Proof

/-! ### Exact integers (19 R319) -/

/-- The width of the operands. -/
def widthOf (f : EFields) : Nat := if f.mod.getLsbD 1 then 64 else 32

/-- A source as an integer of its signedness. -/
def srcInt (signed : Bool) (w x : Nat) : Int := if signed then sextN x w else ((x % 2 ^ w : Nat) : Int)

/-- Wraps, or clamps under saturation (05 R131). -/
def narrow (f : EFields) (w : Nat) (e : Int) : Nat :=
  if f.mod.getLsbD 2 then
    let lo : Int := if f.mod.getLsbD 0 then -(2 ^ (w - 1)) else 0
    let hi : Int := if f.mod.getLsbD 0 then 2 ^ (w - 1) - 1 else 2 ^ w - 1
    wrapN (min (max e lo) hi) w
  else wrapN e w

def arg (l : List Nat) (i : Nat) : Nat := l.getD i 0

/-- An instruction of 19 Table 19.1. -/
def exactOp (e : List Int → Int) : AluOp := fun f _ _ l =>
  let w := widthOf f
  (narrow f w (e (l.map (srcInt (f.mod.getLsbD 0) w))), 0)

def argI (l : List Int) (i : Nat) : Int := l.getD i 0

def opAdd : AluOp := exactOp fun l => argI l 0 + argI l 1
def opSub : AluOp := exactOp fun l => argI l 0 - argI l 1
def opAdd3 : AluOp := exactOp fun l => argI l 0 + argI l 1 + argI l 2
def opMul : AluOp := exactOp fun l => argI l 0 * argI l 1
def opMad : AluOp := exactOp fun l => argI l 0 * argI l 1 + argI l 2
def opAbs : AluOp := exactOp fun l => ((argI l 0).natAbs : Int)

/-- ⌊a·b / 2^w⌋. -/
def opMulH : AluOp := fun f _ _ l =>
  let w := widthOf f
  let s := f.mod.getLsbD 0
  (wrapN (srcInt s w (arg l 0) * srcInt s w (arg l 1) / (2 ^ w : Nat)) w, 0)

/-- a and b of 32 bits, c and d of 64. -/
def opMadW : AluOp := fun f _ _ l =>
  let s := f.mod.getLsbD 0
  (narrow f 64 (srcInt s 32 (arg l 0) * srcInt s 32 (arg l 1) + srcInt s 64 (arg l 2)), 0)

def opMinMax (mx : Bool) : AluOp := fun f _ _ l =>
  let w := widthOf f
  let s := f.mod.getLsbD 0
  let a := srcInt s w (arg l 0)
  let b := srcInt s w (arg l 1)
  (wrapN (if mx then max a b else min a b) w, 0)

/-- 05 R132, 00 R8. -/
def opAddMin : AluOp := fun _ _ _ l =>
  let t := max (sextN (arg l 0) 32 + sextN (arg l 1) 32) (-(2 ^ 31))
  (wrapN (min t (sextN (arg l 2) 32)) 32, 0)

/-- 05 R133. -/
def opDp4 : AluOp := fun f _ _ l =>
  let s := f.mod.getLsbD 0
  let byte := fun (x i : Nat) => srcInt s 8 (x / 2 ^ (8 * i) % 256)
  (wrapN ((arg l 2 : Int) + ((List.range 4).map fun i => byte (arg l 0) i * byte (arg l 1) i).sum) 32, 0)

/-- 04 Table 04.8, integers. -/
def condInt (c : Nat) (a b : Int) : Bool :=
  match c with
  | 0 => a == b
  | 1 => a != b
  | 2 => decide (a < b)
  | 3 => decide (a ≤ b)
  | 4 => decide (b < a)
  | _ => decide (b ≤ a)

def opIset : AluOp := fun f _ _ l =>
  let w := if f.mod.getLsbD 4 then 64 else 32
  let s := f.mod.getLsbD 3
  (if condInt (fmtOf f) (srcInt s w (arg l 0)) (srcInt s w (arg l 1)) then 1 else 0, 0)

def opSel : AluOp := fun f v _ l => (if v.predField f.re.toNat then arg l 0 else arg l 1, 0)

def opMov : AluOp := fun _ _ _ l => (arg l 0, 0)

/-- The immediate of the E-form without a literal (19 R335); with one, the literal is read. -/
def opMovi : AluOp := fun f _ _ _ =>
  match f.lit with
  | some l => (if f.mod.getLsbD 1 then l.toNat else l.toNat % 2 ^ 32, 0)
  | none => (wrapN (sextN (f.ra.toNat + 2 ^ 9 * f.rb.toNat + 2 ^ 18 * f.rc.toNat) 27) 64, 0)

def opLea : AluOp := fun f _ _ l =>
  (wrapN ((arg l 0 : Int) + srcInt (f.mod.getLsbD 0) 32 (arg l 1) * (2 ^ (f.mod.toNat / 16) : Nat)) 64, 0)

/-! ### Bits -/

def opBits (g : Nat → Nat → Nat) : AluOp := fun _ _ _ l => (g (arg l 0) (arg l 1), 0)
def opAnd : AluOp := opBits (· &&& ·)
def opOr : AluOp := opBits (· ||| ·)
def opXor : AluOp := opBits (· ^^^ ·)

/-- The number with the bits of a list, least significant first. -/
def ofBits : List Bool → Nat
  | [] => 0
  | b :: r => (if b then 1 else 0) + 2 * ofBits r

def opLop3 : AluOp := fun f _ _ l =>
  let lut := f.re.toNat
  let bit := fun (x i : Nat) => if x.testBit i then 1 else 0
  (ofBits ((List.range (widthOf f)).map fun i =>
    lut.testBit (4 * bit (arg l 2) i + 2 * bit (arg l 1) i + bit (arg l 0) i)), 0)

def opShl : AluOp := fun f _ _ l =>
  let w := widthOf f
  (if w ≤ arg l 1 then 0 else (arg l 0 <<< arg l 1) % 2 ^ w, 0)

def opShr : AluOp := fun f _ _ l => (if widthOf f ≤ arg l 1 then 0 else arg l 0 >>> arg l 1, 0)

def opSar : AluOp := fun f _ _ l =>
  let w := widthOf f
  (wrapN (sextN (arg l 0) w / (2 ^ min (arg l 1) (w - 1) : Nat)) w, 0)

def opFsh : AluOp := fun f _ _ l =>
  let x := arg l 1 * 2 ^ 32 + arg l 0
  let k := arg l 2 % 32
  (if f.mod.toNat / 16 = 0 then (x >>> k) % 2 ^ 32 else ((x <<< k) >>> 32) % 2 ^ 32, 0)

def opBfx : AluOp := fun f _ _ l =>
  let w := widthOf f
  let pos := min (arg l 1 % 256) w
  let len := min (arg l 2 % 256) (w - pos)
  let x := (arg l 0 >>> pos) % 2 ^ len
  (if f.mod.getLsbD 0 && len != 0 then wrapN (sextN x len) w else x, 0)

def opBfi : AluOp := fun f _ _ l =>
  let w := widthOf f
  let pos := min (arg l 2 % 256) w
  let len := min (arg l 3 % 256) (w - pos)
  let m := (2 ^ len - 1) <<< pos
  ((arg l 1 &&& (2 ^ w - 1 - m)) ||| ((arg l 0 <<< pos) &&& m), 0)

def opPopc : AluOp := fun f _ _ l => ((List.range (widthOf f)).countP fun i => (arg l 0).testBit i, 0)

def opClz : AluOp := fun f _ _ l => (if arg l 0 = 0 then widthOf f else widthOf f - 1 - (arg l 0).log2, 0)

def opBrev : AluOp := fun f _ _ l =>
  let w := widthOf f
  (ofBits ((List.range w).map fun i => (arg l 0).testBit (w - 1 - i)), 0)

def opPerm : AluOp := fun _ _ _ l =>
  let x := arg l 1 * 2 ^ 32 + arg l 0
  (((List.range 4).map fun i =>
    let n := arg l 2 / 2 ^ (4 * i) % 16
    let y := x / 2 ^ (8 * (n % 8)) % 256
    (if 8 ≤ n then (if 128 ≤ y then 255 else 0) else y) * 2 ^ (8 * i)).sum, 0)

/-! ### Predicates -/

def opPlop : AluOp := fun f v _ _ =>
  let bit := fun (x : BitVec 9) => if v.pred x.toNat then 1 else 0
  (if f.re.toNat.testBit (4 * bit f.rc + 2 * bit f.rb + bit f.ra) then 1 else 0, 0)

def opP2v : AluOp := fun _ v _ _ => (ofBits ((List.range 16).map v.pred), 0)

/-- `V2P` of one lane (19 R339). -/
def v2pLane (f : EFields) (sh : Shape) (v : Vals) : Vals :=
  let a := opd f sh v .ra
  let m := opd f sh v .rb
  (List.range 16).foldl (fun v i => if i ≠ 0 && m.testBit i then v.setPred i (a.testBit i) else v) v

/-! ### Meanings: base forms -/

def execNopBase (s : State) : Result := laneExec .nopBase noFault (fun _ _ s => s) s
def execMovBase (a d : BitVec 9) (s : State) : Result := aluExec (.movBase a d) opMov s
def execIaddBase (i : BitVec 6) (a d : BitVec 9) (s : State) : Result := aluExec (.iaddBase i a d) opAdd s
def execShlBase (n : BitVec 5) (a d : BitVec 9) (s : State) : Result := aluExec (.shlBase n a d) opShl s
def execShrBase (n : BitVec 5) (a d : BitVec 9) (s : State) : Result := aluExec (.shrBase n a d) opShr s
def execAndBase (i : BitVec 6) (a d : BitVec 9) (s : State) : Result := aluExec (.andBase i a d) opAnd s
def execMoviBase (i : BitVec 15) (d : BitVec 9) (s : State) : Result := aluExec (.moviBase i d) opMovi s
def execMoviBaseLiteral (d : BitVec 9) (l : BitVec 32) (s : State) : Result := aluExec (.moviBaseLiteral d l) opMovi s
def execIaddBaseLiteral (a d : BitVec 9) (l : BitVec 32) (s : State) : Result := aluExec (.iaddBaseLiteral a d l) opAdd s
def execAndBaseLiteral (a d : BitVec 9) (l : BitVec 32) (s : State) : Result := aluExec (.andBaseLiteral a d l) opAnd s

/-! ### Meanings: integer class -/

def execIadd (f : EFields) (s : State) : Result := aluExec (.iadd f) opAdd s
def execIsub (f : EFields) (s : State) : Result := aluExec (.isub f) opSub s
def execIadd3 (f : EFields) (s : State) : Result := aluExec (.iadd3 f) opAdd3 s
def execImul (f : EFields) (s : State) : Result := aluExec (.imul f) opMul s
def execImulh (f : EFields) (s : State) : Result := aluExec (.imulh f) opMulH s
def execImad (f : EFields) (s : State) : Result := aluExec (.imad f) opMad s
def execImadw (f : EFields) (s : State) : Result := aluExec (.imadw f) opMadW s
def execImin (f : EFields) (s : State) : Result := aluExec (.imin f) (opMinMax false) s
def execImax (f : EFields) (s : State) : Result := aluExec (.imax f) (opMinMax true) s
def execIaddmin (f : EFields) (s : State) : Result := aluExec (.iaddmin f) opAddMin s
def execIabs (f : EFields) (s : State) : Result := aluExec (.iabs f) opAbs s
def execIdp4 (f : EFields) (s : State) : Result := aluExec (.idp4 f) opDp4 s
def execIset (f : EFields) (s : State) : Result := aluExec (.iset f) opIset s
def execSel (f : EFields) (s : State) : Result := aluExec (.sel f) opSel s
def execMov (f : EFields) (s : State) : Result := aluExec (.mov f) opMov s
def execMovi (f : EFields) (s : State) : Result := aluExec (.movi f) opMovi s
def execLea (f : EFields) (s : State) : Result := aluExec (.lea f) opLea s
def execAnd (f : EFields) (s : State) : Result := aluExec (.and f) opAnd s
def execOr (f : EFields) (s : State) : Result := aluExec (.or f) opOr s
def execXor (f : EFields) (s : State) : Result := aluExec (.xor f) opXor s
def execLop3 (f : EFields) (s : State) : Result := aluExec (.lop3 f) opLop3 s
def execShl (f : EFields) (s : State) : Result := aluExec (.shl f) opShl s
def execShr (f : EFields) (s : State) : Result := aluExec (.shr f) opShr s
def execSar (f : EFields) (s : State) : Result := aluExec (.sar f) opSar s
def execFsh (f : EFields) (s : State) : Result := aluExec (.fsh f) opFsh s
def execBfx (f : EFields) (s : State) : Result := aluExec (.bfx f) opBfx s
def execBfi (f : EFields) (s : State) : Result := aluExec (.bfi f) opBfi s
def execPopc (f : EFields) (s : State) : Result := aluExec (.popc f) opPopc s
def execClz (f : EFields) (s : State) : Result := aluExec (.clz f) opClz s
def execBrev (f : EFields) (s : State) : Result := aluExec (.brev f) opBrev s
def execPerm (f : EFields) (s : State) : Result := aluExec (.perm f) opPerm s

/-! ### Meanings: predicate class -/

def execPlop (f : EFields) (s : State) : Result := aluExec (.plop f) opPlop s
def execP2v (f : EFields) (s : State) : Result := aluExec (.p2v f) opP2v s

def execV2p (f : EFields) (s : State) : Result :=
  laneExec (.v2p f) noFault (fun b t => modThread b t (onLanes (v2pLane f (shapeOf (.v2p f))))) s

/-- The elected thread is the first of the group whose guard is true; the shadow takes its primary's predicate. -/
def execElect (f : EFields) (s : State) : Result :=
  let chosen := s.cur.tids.find? fun t => threadGuard (.elect f) s s.cur.block t
  laneExec (.elect f) noFault (fun b t => modThread b t (onLanes fun v => v.setPred f.rd.toNat (some t == chosen))) s

def execNop (f : EFields) (s : State) : Result := laneExec (.nop f) noFault (fun _ _ s => s) s

end Sys2Proof.Machine
end

