-- ==== Sys2Proof/Machine/Matrix.lean ====
section
/-!
DEFINITION. The matrix class: signer sets, signing, capture, execution, windows, tokens and the accumulator store
(06; 18 R283, R284, R287, R289; 18 R301; 19 R333, R336; 20 R364, R365).
-/

namespace Sys2Proof.Machine

open Sys2Proof

/-! ### The accumulator store (06 R137, R152) -/

/-- A cell of a tile: row within the tile, column. -/
def cellOf (row col : Nat) : Nat := row % 64 * 128 + col

def tileOf (s : State) (b t : Nat) : Tile := (s.block b).tiles.getD t default

def modTile (b t : Nat) (f : Tile → Tile) : State → State := modBlock b fun k => { k with tiles := modAt f t k.tiles }

def waveOf (s : State) (b t : Nat) : Nat := homeWave (s.launchOf b) t

def windowOf (s : State) (b w : Nat) : Nat × Nat :=
  let v := (s.block b).waves.getD w default
  (v.accBase.toNat, v.accLim.toNat)

/-- The checks of `ALD` and `AST` in their order (18 R287). -/
def cellFault (f : EFields) (sh : Shape) (s : State) (b t : Nat) : Option (Nat × Nat) :=
  let v := (s.thread b t).vals
  let row := opd f sh v .ra
  let w := waveOf s b t
  let win := windowOf s b w
  if (s.block b).tiles.length ≤ row / 64 then some (0x03, 0)
  else if (tileOf s b (row / 64)).owner ≠ some w then some (0x04, 0)
  else if row < win.1 ∨ win.2 ≤ row ∨ 127 < opd f sh v .rb then some (0x03, 0) else none

def execAld (f : EFields) (s : State) : Result :=
  let sh := shapeOf (.ald f)
  laneExec (.ald f) (cellFault f sh) (fun b t s =>
    let v := (s.thread b t).vals
    let row := opd f sh v .ra
    let x := sget 0 (cellOf row (opd f sh v .rb)) (tileOf s b (row / 64)).cells
    modThread b t (producerThread f sh s.cur.pc (.tile (row / 64) x)) s) s

def execAst (f : EFields) (s : State) : Result :=
  let sh := shapeOf (.ast f)
  laneExec (.ast f) (cellFault f sh) (fun b t s =>
    let v := (s.thread b t).vals
    let row := opd f sh v .ra
    let x : Word := BitVec.ofNat 32 (opd f sh v .rc)
    modTile b (row / 64) (fun c => { c with cells := sset 0 (cellOf row (opd f sh v .rb)) x c.cells }) (endInterval b s)) s

/-- The checks of `ACLR` (18 R284). -/
def aclrFault (t : Nat) (s : State) (b tid : Nat) : Option (Nat × Nat) :=
  let w := waveOf s b tid
  let win := windowOf s b w
  if (s.block b).tiles.length ≤ t then some (0x03, 0)
  else if (tileOf s b t).owner ≠ some w then some (0x04, 0)
  else if 64 * t < win.1 ∨ win.2 < 64 * t + 64 then some (0x03, 0) else none

def execAclr (f : EFields) (s : State) : Result :=
  laneExec (.aclr f) (aclrFault f.rd.toNat) (fun b _ s =>
    modTile b f.rd.toNat (fun c => { c with cells := [] }) (endInterval b s)) s

/-! ### Windows (06 R148, 18 R283) -/

def execAccwin (f : EFields) (s : State) : Result :=
  let sh := shapeOf (.accwin f)
  laneExec (.accwin f) (fun s b t =>
      let v := (s.thread b t).vals
      let lim := opd f sh v .rc
      if t ≠ 0 then some (0x0D, 0)
      else if (s.block b).waves.length ≤ opd f sh v .ra ∨ lim < opd f sh v .rb ∨ 64 * (s.block b).tiles.length < lim then
        some (0x03, 0)
      else none) (fun b t s =>
    let v := (s.thread b t).vals
    modWave b (opd f sh v .ra) (fun w =>
      { w with accBase := BitVec.ofNat 32 (opd f sh v .rb), accLim := BitVec.ofNat 32 (opd f sh v .rc) }) s) s

/-! ### Signer sets (06 R142, R154) -/

def modCv (b c : Nat) (f : Cv → Cv) : State → State := modBlock b fun k => { k with cvs := modAt f c k.cvs }
def cvOf (s : State) (b c : Nat) : Cv := (s.block b).cvs.getD c default

/-- `CVSET`: the checks that do not depend on the signs of the cycle; the set takes effect at the end of the cycle. -/
def execCvset (f : EFields) (s : State) : Result :=
  let sh := shapeOf (.cvset f)
  let on := s.cur.tids.filter fun t => threadGuard (.cvset f) s s.cur.block t
  laneExec (.cvset f) (fun s b t =>
      let v := (s.thread b t).vals
      let n := opd f sh v .ra
      if 1 < on.length ∨ n = 0 ∨ 64 < n ∨ (s.block b).ntid < opd f sh v .rb + n then some (0x05, 0) else none) (fun b t s =>
    let v := (s.thread b t).vals
    modCv b f.rd.toNat (fun c => { c with pend := c.pend ++ [(t, s.cur.pc, opd f sh v .ra, opd f sh v .rb)] }) s) s

/-- The end of the cycle of its `CVSET`s, in the order of their issue: after the signs of the cycle, a PARTIAL cv faults,
and any other takes the set and releases its latch. -/
def settleCv (b c : Nat) (s : State) : State :=
  let cv := cvOf s b c
  cv.pend.foldl (fun s p =>
    if cv.sigs = [] then modCv b c (fun x => { x with set := some (p.2.2.2, p.2.2.1), latch := [] }) s
    else raiseCause b 0x05 [p.1] p.2.1 0 (modThread b p.1 (fun th => { th with pc := p.2.1 }) s))
    (modCv b c (fun x => { x with pend := [] }) s)

/-! ### Signing (06 R143, R144; 05 R135) -/

/-- The bytes of B. -/
def bBytes (bt : BitVec 2) : Nat := if bt = 2 then 2048 else 4096

/-- The non-A operands that a close compares; the cv is one for all. -/
def sameOps (x y : Sig) : Bool :=
  x.tile = y.tile && x.vb = y.vb && x.at_ = y.at_ && x.bt = y.bt && x.zc = y.zc && x.ret = y.ret && x.rm = y.rm &&
    x.ftzi = y.ftzi && x.ftzo = y.ftzo

def sigOf (f : EFields) (sh : Shape) (s : State) (b t rank : Nat) : Sig :=
  let th := s.thread b t
  { tid := t, rank := rank, tile := f.rd.toNat, vb := opd f sh th.vals .rb, at_ := f.mod.getLsbD 0,
    bt := f.mod.extractLsb' 1 2, zc := f.mod.getLsbD 4, ret := f.ret, rm := BitVec.ofNat 3 (rmOf f.rm th.rm),
    ftzi := f.ftzi, ftzo := f.ftzo, aIdx := f.ra.toNat, latched := latchCovers (s.block b) f.rc.toNat t f.ra.toNat,
    opMark := th.nextId, taint := runTaint (fieldRun f sh th.vals .rb) }

/-- The first check that fails (06 R143). -/
def signFault (s : State) (b t : Nat) (cv : Cv) (g : Sig) : Option Nat :=
  let w := (s.block b).waves.getD (waveOf s b t) default
  match cv.set with
  | none => some 0x05
  | some (first, n) =>
    if t < first ∨ first + n ≤ t ∨ (cv.sigs.any fun x => x.tid = t) then some 0x05
    else if (s.block b).tiles.length ≤ g.tile ∨ 64 * g.tile < w.accBaseS.toNat ∨ w.accLimS.toNat < 64 * g.tile + 64 then some 0x03
    else if g.vb % 256 ≠ 0 then some 0x09
    else if (s.launchOf b).scratch < g.vb + bBytes g.bt then some 0x0A else none

/-- Instances in close order: a close goes before the first of its cycle that has a higher cv, else to the end (06 R141); one that was
restored in between counts as of an earlier cycle. Of two blocks of a core that close one cv number in one cycle, the one that
closes first in the core's order of sub-cores (DESIGN CHOICE, log 97). -/
def addInst (i : MInst) (q : List MInst) : List MInst :=
  let n := q.findIdx fun y => decide (y.closed = i.closed ∧ i.cv < y.cv)
  q.take n ++ i :: q.drop n

/-- The set is complete: the instance joins the core's queue and the cv is OPEN again. -/
def closeSet (b c : Nat) (sigs : List Sig) (g : Sig) (s : State) : State :=
  let cv := cvOf s b c
  let i : MInst := ⟨cv.inst, b, c, g.tile, sigs.length, sigs, s.cur.cyc, s.cur.pc, none, 0⟩
  let s := modCore (s.block b).core (fun k => { k with mq := addInst i k.mq }) (endInterval b s)
  modCv b c (fun x => { x with sigs := [], inst := x.inst + 1,
                               latch := if g.ret = 1 then sigs.map fun y => (y.rank, y.aIdx) else [] }) s

/-- One sign, or its fault. Of a close whose operands differ and whose tile the engine does not hold, the cause is 0x05 alone (DESIGN
CHOICE, log 91). -/
def signOne (f : EFields) (b t : Nat) (s : State) : Option (Nat × Nat) × State :=
  let sh := shapeOf (.mma f)
  let c := f.rc.toNat
  let cv := cvOf s b c
  let first := (cv.set.getD (0, 0)).1
  let g := sigOf f sh s b t (t - first)
  match signFault s b t cv g with
  | some x => (some (x, if x = 0x09 ∨ x = 0x0A then g.vb else 0), s)
  | none =>
    let sigs := cv.sigs ++ [g]
    let closing := decide (sigs.length = (cv.set.getD (0, 0)).2)
    if closing && !(sigs.all (sameOps g)) then (some (0x05, 0), s)
    else if closing && (tileOf s b g.tile).ownerS.isSome then (some (0x04, 0), s)
    else
      let reg := if g.latched || g.aIdx = 0 then 512 else g.aIdx
      let busy : ABusy := ⟨instKey c cv.inst, reg, g.opMark, (s.block b).issues, g.vb / 16, (g.vb + bBytes g.bt) / 16⟩
      let s := modThread b t (fun th => { th with aBusy := th.aBusy ++ [busy],
                                                  signed := th.signed ++ [(c, cv.inst)] }) s
      (none, if closing then closeSet b c sigs g s else modCv b c (fun x => { x with sigs := sigs }) s)

def execMma (f : EFields) (s : State) : Result := seqExec (.mma f) false (signOne f) s

def execMwait (f : EFields) (s : State) : Result := laneExec (.mwait f) noFault (fun _ _ s => s) s

/-! ### Capture (06 R145-R147, 09 R193) -/

/-- Elements of a row: element k is half (k mod 2) of register k / 2 (06 R140). -/
def halves (ws : List Word) : List Nat := ws.flatMap fun w => [w.toNat % 2 ^ 16, w.toNat / 2 ^ 16]

/-- The A row of a signer: from the latch, or its registers as they stand. -/
def rowOf (s : State) (b : Nat) (cv : Cv) (g : Sig) : List Word :=
  if g.latched then (match cv.rows.find? (·.1 = g.rank) with
    | some r => r.2
    | none => [])
  else ((s.thread b g.tid).vals.run g.aIdx 8).map Reg.val

/-- The signer's older entries that a scratch load of B queued at its sign would wait for. -/
def captureHeld (s : State) (b : Nat) (i : MInst) (g : Sig) : Bool :=
  (s.thread b g.tid).ops.any fun o => decide (o.id < g.opMark) &&
    (o.acquires || (g.taint && o.consume.isSome) || (o.scratch && decide (o.gran < (g.vb + bBytes g.bt) / 16 ∧ g.vb / 16 < o.gran + o.reach) && i.block = b))

/-- The granules of an instance's B are FULL. -/
def operandsFull (s : State) (i : MInst) : Bool :=
  let g := i.sigs.headD default
  (List.range (bBytes g.bt / 16)).all fun n => sget true (g.vb / 16 + n) (s.block i.block).fe

/-- The first uncaptured instance of a core, when it may be captured. -/
def capturable (s : State) (core : Nat) : Option MInst :=
  let q := (s.core core).mq
  match q.find? fun i => i.cap.isNone with
  | none => none
  | some i =>
    if (q.filter fun j => j.cap.isSome).length < 4 && decide (i.closed < s.coreCycle core) && operandsFull s i &&
        !(s.ctx (ctxOf s i.block)).halted && !(i.sigs.any (captureHeld s i.block i)) then some i else none

/-- The newest store that a capture reads of B, by its step (09 Table 09.2). -/
def newestOfB (k : Block) (g : Sig) : Nat :=
  ((List.range (bBytes g.bt / 16)).map fun n => sget 0 (g.vb / 16 + n) k.storedAt).foldl max 0

/-- The operands of an instance are captured: a scratch load of B by each signer (09 R187, R193). The signers' A registers
stay held until the end of the cycle (06 R154). -/
def captureInst (core : Nat) (i : MInst) (s : State) : State :=
  let b := i.block
  let g := i.sigs.headD default
  let rows := i.sigs.map fun x => (x.rank, rowOf s b (cvOf s b i.cv) x)
  let data := memRead (s.block b).scratch g.vb (bBytes g.bt)
  let put := fun (j : MInst) => if j.id = i.id && j.block = b && j.cv = i.cv then { j with cap := some (rows, data), capAt := s.coreCycle core } else j
  let s := modCore core (fun k => { k with mq := k.mq.map put }) s
  let w := newestOfB (s.block b) g
  let gs := (List.range ((bBytes g.bt + 15) / 16)).map (g.vb / 16 + ·)
  let s := i.sigs.foldl (fun s x => gs.foldl (fun s g => noteScratch b x.tid g s)
    (modThread b x.tid (fun th => { th with sreads := max th.sreads w }) s)) s
  modCv b i.cv (fun c => { c with rows := if g.ret = 1 then rows else [] }) s

/-- The A registers of the signers of a captured instance are free. -/
def freeSigners (i : MInst) (s : State) : State :=
  i.sigs.foldl (fun s x =>
    modThread i.block x.tid (fun th => { th with aBusy := th.aBusy.filter fun a => a.inst != instKey i.cv i.id }) s) s

/-- MMA_CAPTURE. -/
def execMmaCapture (core : Nat) (s : State) : Result :=
  match capturable s core with
  | none => .next s
  | some i => .next (captureInst core i s).tickNow

/-- A save keeps the closed instances of a block with their operands captured, so far as its granules are FULL, and their
signers find the captures done (06 R153; log 95). -/
def captureSaved (core b : Nat) (s : State) : State :=
  let mine := (s.core core).mq.filter fun i => i.block = b
  let s := ((mine.filter fun i => i.cap.isNone).takeWhile (operandsFull s)).foldl (fun s i => captureInst core i s) s
  ((s.core core).mq.filter fun i => i.block = b && i.cap.isSome).foldl (fun s i => freeSigners i s) s

/-- The captures of a core's cycle are complete at its end (06 R154). -/
def settleCaptures (core : Nat) (s : State) : State :=
  ((s.core core).mq.filter fun i => i.cap.isSome && decide (i.capAt = s.coreCycle core)).foldl (fun s i => freeSigners i s) s

/-! ### Execution (05 R134-R136, 06 R140) -/

/-- Column j of B: its element in each of the 16 rows. -/
def colOf (bt : BitVec 2) (data : List Byte) (j : Nat) : List Nat :=
  (List.range 16).map fun k =>
    if bt = 2 then (data.getD (k * 128 + j) 0).toNat
    else (data.getD (2 * (k * 128 + j)) 0).toNat + 256 * (data.getD (2 * (k * 128 + j) + 1) 0).toNat

/-- One element of the tile after the instance, with its flags. -/
def elemOf (g : Sig) (count : Nat) (rows : List (Nat × List Word)) (cols : List (List Nat)) (old : Nat) (i j : Nat) : Nat × Nat :=
  if count ≤ i then (if g.zc then 0 else old, 0)
  else
    let row := halves (match rows.find? (·.1 = i) with
      | some r => r.2
      | none => [])
    mmaSum g.at_ g.bt.toNat g.rm.toNat g.ftzi g.ftzo (if g.zc then none else some old) row (cols.getD j [])

/-- The cells of the tile after the instance, and the flags of all elements. -/
def runInst (i : MInst) (cells : Sparse Word) : Sparse Word × Nat :=
  match i.cap with
  | none => (cells, 0)
  | some (rows, data) =>
    let g := i.sigs.headD default
    let cols := (List.range 128).map (colOf g.bt data)
    let es := (List.range 8192).map fun n =>
      (n, elemOf g i.count rows cols (sget 0 n cells).toNat (n / 128) (n % 128))
    (es.filterMap fun e => let w : Word := BitVec.ofNat 32 e.2.1; if w = 0 then none else some (e.1, w),
     es.foldl (fun fl e => fl ||| e.2.2) 0)

/-- An instance writes its tile, merges its flags into its signers and leaves the queue. -/
def completeInst (core : Nat) (i : MInst) (s : State) : State :=
  let b := i.block
  let res := runInst i (tileOf s b i.tile).cells
  let s := modCore core (fun k => { k with mq := k.mq.erase i }) s
  let s := modTile b i.tile (fun c => { c with cells := res.1 }) s
  i.sigs.foldl (fun s g => modThread b g.tid (fun th =>
    { th with flags := mergeFlags th.flags (BitVec.ofNat 5 res.2), signed := th.signed.filter (· != (i.cv, i.id)) }) s) s

/-- MMA_COMPLETION: the instance at the head of the queue, captured in an earlier cycle, completes. -/
def execMmaCompletion (core : Nat) (s : State) : Result :=
  match (s.core core).mq with
  | [] => .next s
  | i :: _ =>
    if i.cap.isNone || s.coreCycle core ≤ i.capAt || (s.ctx (ctxOf s i.block)).halted then .next s else .next (completeInst core i s)

/-! ### Tokens (06 R149, R150; 20 R364, R365) -/

/-- `TKGET`: one request for each home wave of the issue; its threads wait. -/
def requestToken (f : EFields) (b t : Nat) (s : State) : State :=
  let w := waveOf s b t
  let tile := f.rd.toNat
  let s := modThread b t (fun th => { th with st := .tokWait tile s.cur.len, pc := s.cur.pc }) s
  modTile b tile (fun c =>
    let mine := fun (r : TokReq) => r.wave = w && r.cycle = s.cur.cyc
    { c with reqs := if c.reqs.any mine then modIf mine (fun r => { r with tids := r.tids ++ [t] }) c.reqs
                     else c.reqs ++ [⟨w, [t], s.cur.cyc⟩] }) s

def execTkget (f : EFields) (s : State) : Result :=
  laneExec (.tkget f) (fun s b _ => if (s.block b).tiles.length ≤ f.rd.toNat then some (0x03, 0) else none) (requestToken f) s

/-- The instances a request waits for have completed: those on the tile that closed up to its cycle (06 R154). -/
def instsDone (s : State) (b tile : Nat) (r : TokReq) : Bool :=
  decide (r.cycle < s.coreCycle (s.block b).core) &&
    (s.core (s.block b).core).mq.all fun i => !(i.block = b && i.tile = tile && decide (i.closed ≤ r.cycle))

/-- The request served next: one of the wave that holds the token, else the first in issue order, the lower home wave
first within a cycle. -/
def nextReq (s : State) (b tile : Nat) : Option TokReq :=
  let c := tileOf s b tile
  match c.reqs.find? fun r => c.owner = some r.wave && instsDone s b tile r with
  | some r => some r
  | none =>
    if c.owner.isSome then none
    else (sortBy (fun x y => decide (x.cycle < y.cycle ∨ (x.cycle = y.cycle ∧ x.wave ≤ y.wave))) c.reqs).head?.filter (instsDone s b tile)

/-- TOKEN_GRANT. -/
def execTokenGrant (b tile : Nat) (s : State) : Result :=
  match nextReq s b tile with
  | none => .next s
  | some r =>
    let s := modTile b tile (fun c => { c with owner := some r.wave, reqs := c.reqs.erase r }) s
    .next (r.tids.foldl (fun s t => modThread b t (fun th => match th.st with
      | .tokWait _ len => { advancePc len th with st := .ready }
      | _ => th) s) s)

/-- Returns the token of a tile, if the wave holds it. -/
def returnToken (b w tile : Nat) : State → State :=
  modTile b tile fun c => { c with owner := if c.owner = some w then none else c.owner }

/-- `TKPUT`. In a COMPACT block every thread that reaches it waits for its home wave, whatever its guard (20 R365). -/
def putOne (f : EFields) (s : State) (t : Nat) : State :=
  let b := s.cur.block
  let i := Instr.tkput f
  let tile := f.rd.toNat
  let on := threadGuard i s b t
  if (s.launchOf b).compact then
    modThread b t (fun th => { stampThread s.cur.cyc th with st := .putWait on tile s.cur.len }) s
  else goThread i (fun b t s => returnToken b (waveOf s b t) tile s) s t

def execTkput (f : EFields) (s : State) : Result :=
  laneExecBy (.tkput f) (fun s b t =>
    if (s.block b).tiles.length ≤ f.rd.toNat then some (0x03, 0)
    else if (tileOf s b f.rd.toNat).owner ≠ some (waveOf s b t) then some (0x04, 0) else none) (putOne f) s

/-- TOKEN_RETURN: every living thread of a home wave of a COMPACT block has reached the `TKPUT`; where a guard of them was true the token
returns, once no read of the tile by one of them is in flight (06 R150, 20 R365). -/
def execTokenReturn (b w tile : Nat) (s : State) : Result :=
  let ts := (tidsOf (s.block b)).filter fun t => waveOf s b t = w && (s.thread b t).alive
  let there := fun (t : Nat) => match (s.thread b t).st with
    | .putWait _ x _ => x = tile && (s.thread b t).pc = (s.thread b (ts.headD 0)).pc
    | _ => false
  let on := fun (t : Nat) => match (s.thread b t).st with
    | .putWait g _ _ => g
    | _ => false
  if ts ≠ [] ∧ ts.all there ∧ (ts.any on → aldPending s b w tile = false) then
    .next (ts.foldl (fun s t => modThread b t (fun th => match th.st with
      | .putWait _ _ len => { advancePc len th with st := .ready }
      | _ => th) s) (if ts.any on then returnToken b w tile s else s))
  else .next s

end Sys2Proof.Machine
end

