-- ==== Sys2Proof/Machine/Queue.lean ====
section
/-!
DEFINITION. Queues and their packets, the dispatch and the completion of launches, COPY transfers (03 R51-R66; 08 R162,
R163, R165; 13 R237; 15 R250, R251, R257, R258).
-/

namespace Sys2Proof.Machine

open Sys2Proof

/-! ### Errors and the head (03 R52, R54) -/

/-- A word that the device writes for a queue: in memory of its context, or in host memory that its function reaches
(03 R51). -/
def queueWrite (x : QueueSpec) (host : Bool) (a : Nat) (bytes : List Byte) (s : State) : State :=
  if host then hostWrite x.fn a bytes s else deviceWrite x.ctx a bytes s

def modPkt (q n : Nat) (f : Packet → Packet) : State → State := modQueue q fun x => { x with pkts := modAt f n x.pkts }

/-- The head passes over the longest run of consumed packets; its word is written at system scope. -/
def advanceHead (q : Nat) (s : State) : State :=
  let x := s.queue q
  let h := x.head + ((x.pkts.drop x.head).takeWhile Packet.used).length
  if h = x.head then s
  else queueWrite x.spec x.spec.hostHead x.spec.head (leBytes 8 h) (modQueue q (fun x => { x with head := h }) s)

/-- The FE waits with what it does for a queue: a write of its head or of an error record waits (17 R266). -/
def queueHeld (s : State) (x : Queue) : Bool :=
  (!x.spec.hostHead && deviceHeld s x.spec.ctx x.spec.head 8) || (!x.spec.hostErr && deviceHeld s x.spec.ctx x.spec.err 16)

/-- So does the completion of a packet of it, with its record of 32 bytes. -/
def recordHeld (s : State) (q ctx record : Nat) : Bool := deviceHeld s ctx record 32 || queueHeld s (s.queue q)

/-- The queue enters ERROR and its 16-byte record is written; the error is posted to the FE (01 R20, 17 R264; log 86). -/
def queueError (q count type reason : Nat) (s : State) : State :=
  let x := s.queue q
  notify [.fe] feSource (queueWrite x.spec x.spec.hostErr x.spec.err
    (leBytes 8 count ++ [BitVec.ofNat 8 type, BitVec.ofNat 8 reason, 0, 0, 0, 0, 0, 0])
    (modQueue q (fun x => { x with state := .error }) s))

/-- A packet is rejected: it counts as consumed and as completed. -/
def rejectPacket (q n reason : Nat) (s : State) : State :=
  let p := (s.queue q).pkts.getD n default
  advanceHead q (queueError q n p.type reason (modPkt q n (fun p => { p with st := .rejected, used := true }) s))

/-- A rejection waits for the room of its message to the FE (17 R264). -/
def tryReject (q n reason : Nat) (s : State) : Option State :=
  if mailRoom s .fe feSource 1 then some (rejectPacket q n reason s) else none

/-- An event of a queue goes on, or waits. -/
def orWait (s : State) : Option State → Result
  | some s' => .next s'.tickNow
  | none => .next s

/-- A packet is consumed as it starts. -/
def startPacket (q n : Nat) (s : State) : State := advanceHead q (modPkt q n (fun p => { p with st := .started, used := true }) s)

def completePacket (q n : Nat) (doneAt : Option Nat) (s : State) : State :=
  advanceHead q (modPkt q n (fun p => { p with st := .completed, used := true, doneAt := doneAt }) s)

/-! ### Doorbells, creation, resumption (03 R51-R54) -/

/-- The address of packet c. -/
def Queue.pktAt (x : Queue) (c : Nat) : Nat := x.spec.base + c % x.spec.size * 64

/-- The bytes of packet c, as they stand when the tail value that covers it has arrived. -/
def readPacket (s : State) (x : Queue) (c : Nat) : List Byte :=
  let a := x.pktAt c
  if x.spec.hostRing then hostRead s x.spec.fn a 64 else sysRead s x.spec.ctx a 64

/-- The reads of packets through the device's own access. -/
def touchRing (x : Queue) (cs : List Nat) (s : State) : State :=
  if x.spec.hostRing then s else cs.foldl (fun s c => deviceTouch x.spec.ctx (x.pktAt c) 64 s) s

/-- A packet that cannot be read: its address. -/
def ringBad (s : State) (x : Queue) (cs : List Nat) : Option Nat :=
  if x.spec.hostRing then none else cs.findSome? fun c => deviceBad s x.spec.ctx (x.pktAt c) 64

def ringHeld (s : State) (x : Queue) (cs : List Nat) : Bool := !x.spec.hostRing && cs.any fun c => deviceHeld s x.spec.ctx (x.pktAt c) 64

/-- The filter posts a tail write of a queue that is not resident to the FE, which it wakes (03 R53, 17 R264). -/
def postTail (q : Nat) (s : State) : State :=
  if (s.queue q).resident then s
  else notify [.fe] feSource s

/-- FE makes a queue resident; of 256 the one idle longest leaves. A queue has been idle since its creation or its last
tail write (DESIGN CHOICE, log 82). -/
def makeResident (q : Nat) (s : State) : State :=
  let s := if (s.queue q).resident || (s.queues.filter Queue.resident).length < 256 then s
    else match leastBy (fun i => (s.queue i).idle) ((List.range s.queues.length).filter fun i => (s.queue i).resident) with
      | some v => modQueue v (fun x => { x with resident := false }) s
      | none => s
  modQueue q (fun x => { x with resident := true, idle := s.cycle }) s

/-- TAIL_DOORBELL. It waits for the room of what it posts (17 R264) and for the fills that its reads need; a poisoned packet raises
0x1A against the context, and the tail is not taken (13 R246). -/
def execTailDoorbell (q : Nat) (tail : BitVec 64) (s : State) : Result :=
  match s.queues[q]? with
  | none => .next s
  | some x =>
    let t := tail.toNat
    let cs := (List.range (t - x.tail)).map (x.tail + ·)
    let bad := decide (t < x.tail ∨ t < x.head ∨ x.head + x.spec.size < t)
    if !((x.resident && !bad) || mailRoom s .fe feSource 2) || (if bad then queueHeld s x else ringHeld s x cs) then .next s
    else if bad then .next (queueError q t 0 4 (makeResident q (postTail q s))).tickNow
    else match ringBad s x cs with
      | some a => .next (raiseDevice x.spec.ctx a s)
      | none =>
        let s := touchRing x cs (makeResident q (postTail q s))
        let new := cs.map fun c => (⟨c, readPacket s x c, .fetched, false, none, none⟩ : Packet)
        .next (modQueue q (fun x => { x with tail := t, pkts := x.pkts ++ new }) s).tickNow

/-- What the supervisor asks of a queue (03 R51); its function is the physical one, 0, or one of 384 virtual ones (01 R14). -/
def queueSpecOk (s : State) (x : QueueSpec) : Bool :=
  ([16, 32, 64, 128, 256, 512, 1024, 2048, 4096, 8192, 16384, 32768, 65536].contains x.size) &&
    decide (x.base % (64 * x.size) = 0 ∧ x.head % 8 = 0 ∧ x.err % 16 = 0 ∧ x.floor < 4 ∧ x.fn ≤ 384 ∧ s.queues.length < 4096) &&
    (s.ctx? x.ctx).isSome

/-- QUEUE_CREATE. A queue of a halted context is STOPPED (03 R54). -/
def execQueueCreate (spec : QueueSpec) (s : State) : Result :=
  if queueSpecOk s spec then
    let st := if (s.ctx spec.ctx).halted then QState.stopped else .active
    .next { s with queues := s.queues ++ [⟨spec, 0, 0, st, 0, [], false, s.cycle⟩] }
  else .next s

/-- QUEUE_RESUME. -/
def execQueueResume (q : Nat) (s : State) : Result :=
  .next (modQueue q (fun x => if x.state = .error then
    { x with state := if (s.ctx x.spec.ctx).halted then .stopped else .active } else x) s)

/-! ### The next packet of a type -/

/-- The packet that comes next, where it has the type or none that is known. Older launches may still be pending: a packet
is rejected as it is parsed, before they start (DESIGN CHOICE, log 82). -/
def nextOf (s : State) (q type : Nat) : Option Packet :=
  let x := s.queue q
  if x.state = .active && !queueHeld s x then (nextFetched x).filter fun p => p.type = type || p.type = 0 || 6 < p.type else none

/-- A packet that starts as it is parsed: its checks, then what it does; none where it waits. -/
def runPacket (q type : Nat) (act : Packet → State → Option State) (s : State) : Result :=
  match nextOf s q type with
  | none => .next s
  | some p => match checkPacket p.raw with
    | some r => orWait s (tryReject q p.n r s)
    | none => if mayStart (s.queue q) p.n && s.plat.winter = .running then orWait s (act p s) else .next s

/-- LAUNCH: the packet is rejected or becomes pending. -/
def execLaunch (q : Nat) (s : State) : Result :=
  match nextOf s q 1 with
  | none => .next s
  | some p => match checkPacket p.raw with
    | some r => orWait s (tryReject q p.n r s)
    | none => .next (modPkt q p.n (fun p => { p with st := .pending }) s)

/-! ### Pages and classes -/

def leafAt (s : State) (ctx va : Nat) : Option Leaf :=
  match walk s ctx va with
  | .leaf l => some l
  | _ => none

/-- Every page of a range is mapped with a right; no page above 2^56 is. -/
def mappedWith (s : State) (ctx base len : Nat) (right : Right) : Bool :=
  decide (base + len ≤ 2 ^ 56) && (pagesOf base len).all fun p => (leafAt s ctx p).any fun l => match right with
    | .rd => l.rd
    | .w => l.w
    | .x => l.x

/-- The pages that running launches and COPYs lease: context, page (03 R64). -/
def heldPages (s : State) : List (Nat × Nat) :=
  (s.launches.filter Launch.live).flatMap (fun l => l.ranges.flatMap fun r => (pagesOf r.base r.len).map fun p => (l.ctx, p)) ++
    (s.xfers.filter fun x => !x.done).flatMap fun x => (pagesOf x.src x.len ++ pagesOf x.dst x.len).map fun p => (x.ctx, p)

/-- The pages of ranges of contexts with their leaves: context, page, leaf. -/
def leavesOf (s : State) (rs : List (Nat × Range)) : List (Nat × Nat × Leaf) :=
  rs.flatMap fun e => (pagesOf e.2.base e.2.len).filterMap fun p => (leafAt s e.1 p).map fun l => (e.1, p, l)

/-- Granules of a range. -/
def granulesOf (base len : Nat) : List Nat := (List.range ((base % 2 ^ 21 + len + 2 ^ 21 - 1) / 2 ^ 21)).map fun i => (base / 2 ^ 21 + i) * 2 ^ 21

/-- A frame outside the pool lies on the home die of every granule of its page (08 R159). -/
def frameHome (s : State) (ctx p : Nat) (l : Leaf) : Bool :=
  isPool l.frame || (granulesOf (p / pageSize l * pageSize l) (pageSize l)).all fun g => bitsOf l.frame 55 48 % 4 = homeByMap (s.ctx ctx) g

/-- Two places map one frame where the rules allow one: a second writable mapping, a second mapping of a codec-region or
pool frame (08 R162; 15 R251). -/
def tablesClash (s : State) : Bool :=
  let l := allLeaves s
  l.any fun e =>
    let o := sharers l e
    (e.2.2.w && o.any fun x => x.2.2.w) || (o != [] && (e.2.2.cb || isPool e.2.2.frame))

/-- A frame of a range is mapped at another place too. -/
def rangeShared (s : State) (ctx base len : Nat) : Bool :=
  let l := allLeaves s
  l.any fun e => e.1 = ctx && overlaps e.2.1 (pageSize e.2.2) base len && sharers l e != []

/-- The read-only aliases that the page tables give a context (08 R162): address, length, the writer's context and address. -/
def aliasesOf (l : List (Nat × Nat × Leaf)) (ctx : Nat) : List (Nat × Nat × Nat × Nat) :=
  (l.filter fun e => e.1 = ctx && !e.2.2.w).flatMap fun e => ((sharers l e).filter fun x => x.2.2.w).map fun x =>
    let lo := max e.2.2.first x.2.2.first
    let hi := min (e.2.2.first + pageSize e.2.2) (x.2.2.first + pageSize x.2.2)
    (e.2.1 + (lo - e.2.2.first), hi - lo, x.1, x.2.1 + (lo - x.2.2.first))

def refreshAliases (s : State) : State :=
  let l := allLeaves s
  { s with ctxs := s.ctxs.map fun c => { c with aliases := aliasesOf l c.spec.num } }

/-- Two entries translate alike, wherever they stand. -/
def sameLeaf (a b : Leaf) : Bool := decide ({ a with at_ := b.at_ } = b)

/-- An entry that the MM may write (08 R157, R158): not valid, or of the layout, naming a target and no bit below its page. -/
def entryOk (v : Nat) : Bool :=
  let size := bitsOf v 62 61
  let frame := bitsOf v 47 8 * 2 ^ 16
  !bitOf v 63 || (if size = 3 then bitsOf v 60 56 = 0 && bitsOf v 7 0 = 0 && targetOk (bitsOf v 55 8 * 2 ^ 8)
    else bitsOf v 49 48 = 0 && bitsOf v 7 0 = 0 && targetOk frame && frame % (if size = 0 then 2 ^ 16 else if size = 1 then 2 ^ 21 else 2 ^ 30) = 0)

/-- What a mapping that is new may be: on its home die (08 R159), without a poisoned line (13 R246), POOL on a pool frame only
(08 R163), of the class of the page that it takes the place of, which no plain write changes (08 R165). -/
def newLeafOk (old : List (Nat × Nat × Leaf)) (s' : State) (e : Nat × Nat × Leaf) : Bool :=
  frameHome s' e.1 e.2.1 e.2.2 && !frameBad s' e.2.2.first (pageSize e.2.2) && (e.2.2.coh != .pool || isPool e.2.2.frame) &&
    old.all fun o => !(o.1 = e.1 && overlaps o.2.1 (pageSize o.2.2) e.2.1 (pageSize e.2.2)) || o.2.2.coh = e.2.2.coh

/-- Every part of a page of a context that is still mapped has the frame it had. -/
def pinKept (s' : State) (e : Nat × Nat × Leaf) : Bool :=
  (allLeaves s').all fun x => !(x.1 = e.1 && overlaps x.2.1 (pageSize x.2.2) e.2.1 (pageSize e.2.2)) ||
    (let a := max x.2.1 e.2.1; decide (physOf x.2.2 a = physOf e.2.2 a))

/-- An address still has the frame it had, where it is mapped. -/
def framesKept (s' : State) (ctx va : Nat) (l : Leaf) : Bool := (leafAt s' ctx va).all fun l' => physOf l' va = physOf l va

/-- The pages of pool regions keep their frames, and their salvage areas stay in HBM, with RD and without W (15 R251, R258,
R259). -/
def poolKept (s s' : State) : Bool :=
  s.ctxs.all fun c => c.pools.all fun p =>
    ((pagesOf p.base p.len).all fun a => (leafAt s c.spec.num a).all fun l => (leafAt s' c.spec.num a).isSome && framesKept s' c.spec.num a l) &&
    (pagesOf p.salvage (2 ^ 21)).all fun a => (leafAt s c.spec.num a).all fun l =>
      framesKept s' c.spec.num a l && (leafAt s' c.spec.num a).any fun l => l.rd && !l.w

/-- WHAT THE MM MAY MAKE OF ITS TABLES. Every entry of them is well formed (08 R157, R158). A page of a running launch or
COPY keeps its translation (03 R64), a pinned frame does not move (08 R171), nor does what a pool region holds. A mapping that
is new is one that the rules allow; no two come to clash (08 R162), but where a MAP or a BIND would be rejected for it.
Entries that break this are not written (log 87). -/
def tablesOk (loose : Bool) (s s' : State) : Bool :=
  let old := allLeaves s
  (s'.ctxs.all fun c => (endsOf s' c.spec.num).all fun e => match e.2 with
    | .leaf _ => true
    | _ => false) &&
  ((heldPages s).all fun e => (leafAt s e.1 e.2).all fun l => (leafAt s' e.1 e.2).any (sameLeaf l)) &&
  ((old.filter fun e => e.2.2.pin).all (pinKept s')) &&
  poolKept s s' &&
  ((allLeaves s').all fun e => (old.any fun o => o.1 = e.1 && o.2.1 = e.2.1 && sameLeaf o.2.2 e.2.2) || newLeafOk old s' e) &&
  (loose || !tablesClash s' || tablesClash s)

/-- The TLBs lose the translations that no table gives any more (08 R166). -/
def dropStale (s : State) : State :=
  let there := fun (e : Nat × Nat × Leaf) => (leafAt s e.1 e.2.1) = some e.2.2
  { s with ctls := s.ctls.map fun c => { c with tlb := c.tlb.filter there } }

/-- THE MM WRITES ENTRIES OF ITS PAGE TABLES. -/
def mmWrite (loose : Bool) (ptes : List (Nat × BitVec 64)) (s : State) : State :=
  if ptes = [] then s
  else
    let s' := writePtes ptes s
    if (ptes.all fun e => e.1 % 8 = 0 && entryOk e.2.toNat) && tablesOk loose s s' then refreshAliases (dropStale s') else s

/-- A page lies in the tier its range names, where it names one (03 Table 03.6; 08 R170). -/
def tierOk (s : State) (ctx : Nat) (r : Range) : Bool :=
  (pagesOf r.base r.len).all fun p => (leafAt s ctx p).all fun l =>
    let t := bitsOf l.frame 55 48
    if r.tier = 1 then decide (t < 4) else if r.tier = 2 then decide (4 ≤ t ∧ t < 8) else true

/-- Rewrites the leaf of a page. -/
def editLeaf (ctx va : Nat) (f : Leaf → Leaf) (s : State) : State :=
  match leafAt s ctx va with
  | some l => writePte (l.at_, BitVec.ofNat 64 (pteOf (f l))) s
  | none => s

def inRange (base len a : Nat) : Bool := decide (base < a + 128 ∧ a < base + len)

/-- A write of a range to the pool device is still in progress (15 R262). -/
def rangeWaits (s : State) (ctx base len : Nat) : Bool := s.lines.any fun l => l.wb && l.ctx = ctx && inRange base len l.addr

/-- A unit lies in a range, in part at least. -/
def unitIn (base len : Nat) (r : Region) (u : CUnit) : Bool :=
  decide (base < r.base + (u.unit + 1) * perUnit r * r.pbs ∧ r.base + u.unit * perUnit r * r.pbs < base + len)

/-- The encodes that the write-back of a range forces stop (17 R266). -/
def flushStops (s : State) (cls ctx base len : Nat) : Bool := writeBacksStop (some cls) s ctx (unitIn base len)

/-- Writes back and invalidates every line of a context in a range (08 R165 step 2), with requests of a class for what goes to
memory; a line whose write to the pool device is in progress stays until it ends (15 R262). -/
def flushRange (cls ctx base len : Nat) (s : State) : State :=
  let out := s.lines.filter fun l => l.ctx = ctx && inRange base len l.addr && l.dirty && l.coh != .pool && !l.cb
  let s := ((out.map Line.addr).eraseDups).foldl (fun s a => askRange 4096 cls ctx a 128 s) s
  let s := writeBackUnits (some cls) ctx (unitIn base len) s
  removeLines (fun l => l.ctx = ctx && inRange base len l.addr && !l.wb) (pushPool ctx (fun l => inRange base len l.addr) s)

/-- The range has pages of another class. -/
def needsClass (s : State) (ctx : Nat) (r : Range) : Bool :=
  (pagesOf r.base r.len).any fun p => (leafAt s ctx p).any fun l => l.coh != r.coh

/-- The range with the whole of the pages that it begins and ends in: a leaf entry gives one class to all of its page. -/
def wholeRange (s : State) (ctx : Nat) (r : Range) : Range :=
  let size := fun (a : Nat) => ((leafAt s ctx a).map pageSize).getD (2 ^ 16)
  let last := r.base + r.len - 1
  let lo := r.base / size r.base * size r.base
  { r with base := lo, len := last / size last * size last + size last - lo }

/-- A range of another class has pages that something leases. -/
def classLeased (s : State) (ctx : Nat) (r : Range) : Bool :=
  needsClass s ctx r && let w := wholeRange s ctx r; leased s ctx w.base w.len

/-- CLASS_TRANSITION (08 R165). It waits for the requests to the pages, and goes on when the writes that it forces have
ended. -/
def classTransition (cls ctx : Nat) (r : Range) (s : State) : State :=
  let w := wholeRange s ctx r
  if needsClass s ctx r && !rangeBusy s ctx w.base w.len && !flushStops s cls ctx w.base w.len then
    let s := flushRange cls ctx w.base w.len s
    if rangeWaits s ctx w.base w.len || rangeBusy s ctx w.base w.len then s
    else
      let s := (pagesOf r.base r.len).foldl (fun s p => editLeaf ctx p (fun l => { l with coh := r.coh }) s) s
      dropTlb ctx w.base w.len s
  else s

/-! ### Completion (03 R57) -/

/-- The completion record of 03 Table 03.5, with a fresh sequence number of the FE. -/
def writeCompletion (ctx record status cause tag retired : Nat) (s : State) : State :=
  let (n, s) := nextSeq s feSource
  deviceWrite ctx record (leBytes 2 status ++ leBytes 1 cause ++ [0] ++ leBytes 4 tag ++ leBytes 8 retired ++
    leBytes 2 feSource ++ leBytes 6 0 ++ leBytes 8 n) s

def statusOf (cause : Nat) (killed : Bool) : Nat := if cause ≠ 0 then 1 else if killed then 2 else 0

def setTokens (q : Nat) (mask : BitVec 64) : State → State := modQueue q fun x => { x with tokens := x.tokens ||| mask }

/-- The `GATE`s that a `RELEASE` of this cycle let pass synchronize with the completion too (03 R82; 19 R344). -/
def lateGates (l : Nat) (s : State) : State :=
  ((s.launch l).gated.filter fun e => e.2.2.2 = s.cycle && (s.block e.1).status = .placed).foldl
    (fun s e => noteAcq e.1 e.2.1 .dev (acquireFrom e.1 .dev s.now s)) s

/-- Steps 2 to 4 of a launch, after the step of the machine that did the first: its completion acquires from what that made
visible (03 R57, R82; 09 R186). -/
def finishLaunch (l status : Nat) (s : State) : State :=
  let s := lateGates l s.tickNow
  let x := s.launch l
  let at_ := s.now
  let s := setTokens x.q x.setMask s
  let s := modLaunch l (fun x => { x with gates := 0xFFFF#16, doneAt := some at_, doneIn := s.cycle, stage := .done }) s
  let s := writeCompletion x.ctx x.record status (if status = 3 then 0 else x.cause) x.tag.toNat x.retired s
  completePacket x.q x.pkt (some at_) s

/-- Blocks of a launch. -/
def blocksOf (s : State) (l : Nat) : List Nat := (List.range s.blocks.length).filter fun b => (s.block b).launch = l

/-- Every store of a launch is visible at system scope. -/
def widenStores (l : Nat) (s : State) : State :=
  let mine := fun (x : Item) => match x.thr with
    | some (b, _) => (s.block b).launch = l && x.vis != [] && (visStep s x .sys).isNone
    | none => false
  { s with items := s.items.map fun x => if mine x then { x with vis := x.vis ++ [(.sys, s.now)] } else x }

/-- Pages whose lines a launch's completion writes back. -/
def Coh.privOrSoft : Coh → Bool
  | .priv | .soft => true
  | _ => false

/-- A unit of PRIV or SOFT pages that a launch has written (03 R57). -/
def unitWroteBy (s : State) (l : Nat) (r : Region) (u : CUnit) : Bool :=
  (leafAt s (s.launch l).ctx (r.base + u.unit * perUnit r * r.pbs)).any (fun f => f.coh.privOrSoft) && u.recs.any fun e => e.2.launch = l

/-- The encodes that a launch's completion forces stop (17 R266). -/
def widenStops (s : State) (l : Nat) : Bool := writeBacksStop none s (s.launch l).ctx (unitWroteBy s l)

/-- Step 1 and the stale copies of 08 R165. -/
def widenLaunch (l : Nat) (s : State) : State :=
  let x := s.launch l
  let s := widenStores l s
  let s := writeBackUnits none x.ctx (unitWroteBy s l) s
  let wrote := wroteIn s fun b => (s.block b).launch = l
  let s := writeBackLines (fun y => y.ctx = x.ctx && wrote y) s
  let s := pushPool x.ctx (wroteIn s fun b => (s.block b).launch = l) s
  let stale := fun (y : Line) => y.ctx = x.ctx && y.coh.privOrSoft && !y.dirty && !y.place.isL2 && x.ranges.any fun r => r.w && inRange r.base r.len y.addr
  let s := removeLines stale s
  modLaunch l (fun x => { x with stage := .widened }) s

/-- A write of the launch to the pool device is still in progress. -/
def poolWaits (s : State) (l : Nat) : Bool := s.lines.any fun x => x.wb && wroteIn s (fun b => (s.block b).launch = l) x

/-- LAUNCH_COMPLETION. The encodes of step 1 wait for the end of an emergency that stops them (17 R266). A fault of step 1 halts the context; the rest follows when the EH has acted (13 R233). -/
def execLaunchCompletion (l : Nat) (s : State) : Result :=
  match s.launches[l]? with
  | none => .next s
  | some x =>
    if x.stage = .done || x.tree ≠ 0 || ((s.ctx x.ctx).halted && !x.killed) || recordHeld s x.q x.ctx x.record ||
        (x.stage = .running && widenStops s l) then .next s
    else
      let s1 := if x.stage = .running then widenLaunch l s else pushPool x.ctx (wroteIn s fun b => (s.block b).launch = l) s
      let y := s1.launch l
      if ((s1.ctx x.ctx).halted && !x.killed) || poolWaits s1 l then .next s1.tickNow
      else .next (finishLaunch l (statusOf y.cause y.killed) s1).tickNow

/-! ### Dispatch (03 R58-R66) -/

/-- A LOST region lies in a range (15 R257). -/
def holdsLost (s : State) (ctx base len : Nat) : Bool :=
  (s.ctx ctx).pools.any fun p => p.lost && decide (p.base < base + len ∧ base < p.base + p.len)

/-- Every page of a range is mapped, and the reverse map has an entry for every pool page (03 R64, 15 R251). -/
def mapped (s : State) (ctx : Nat) (r : Range) : Bool :=
  ((pagesOf r.base r.len).all fun p => (leafAt s ctx p).isSome) && (r.coh != .pool || (pagesOf r.base r.len).all fun p => s.rmap.any fun e => e.2.1 = ctx && decide (e.2.2.1 ≤ p ∧ p < e.2.2.1 + e.2.2.2))

/-- The launch with its seed block (03 R66). -/
def seedLaunch (q : Nat) (p : Packet) (ranges : List Range) (s : State) : State :=
  let x := s.queue q
  let prev := if p.n = 0 then none else x.pkts[p.n - 1]?
  let l := { launchOfPacket q p.n x.spec.ctx (p.cls x) p.raw with
    ranges := ranges
    after := prev.bind Packet.doneAt
    pred := if prev.any fun y => y.isLaunch && !y.over then some (p.n - 1) else none }
  let id := s.launches.length
  let s := { s with
    launches := s.launches ++ [l]
    blocks := s.blocks ++ [newBlock id 0 l.threads l.entry l.arg s.cycle l.after none] }
  startPacket q p.n (modPkt q p.n (fun p => { p with launch := some id }) s)

/-- A launch whose set cannot be made resident completes at once, with status 0x0003. -/
def failLaunch (q : Nat) (p : Packet) (ranges : List Range) (s : State) : State :=
  let x := s.queue q
  let l := { launchOfPacket q p.n x.spec.ctx (p.cls x) p.raw with ranges := ranges, tree := 0 }
  let id := s.launches.length
  let s := startPacket q p.n (modPkt q p.n (fun p => { p with launch := some id }) { s with launches := s.launches ++ [l] })
  finishLaunch id 3 (widenLaunch id s)

/-- LAUNCH_DISPATCH. -/
def execLaunchDispatch (q n : Nat) (plan : MmPlan) (s : State) : Result :=
  let x := s.queue q
  let ctx := x.spec.ctx
  match x.pkts[n]? with
  | none => .next s
  | some p =>
    if p.st ≠ .pending || !mayStart x n || s.plat.winter ≠ .running || (s.ctx ctx).killed || recordHeld s q ctx (pf p.raw 0x38 8) then .next s
    else match setOf (s.ctx ctx) (pf p.raw 0x30 2) with
      | none => orWait s (tryReject q n 5 s)
      | some rs =>
        if !leaseOk rs (pf p.raw 0x38 8) 32 .w then orWait s (tryReject q n 7 s)
        else
          let s := mmWrite false plan.ptes s
          if !plan.resident || rs.any (fun r => holdsLost s ctx r.base r.len || !mapped s ctx r || !tierOk s ctx r) then
            .next (failLaunch q p rs s).tickNow
          else if rs.any (classLeased s ctx) then .next s
          else
            let s := rs.foldl (fun s r => classTransition (p.cls x) ctx r s) s
            if (s.ctx ctx).halted || rs.any (needsClass s ctx) then .next s else .next (seedLaunch q p rs s).tickNow

/-! ### COPY (03 R56; 13 R237) -/

/-- Steps 2 to 4 of a COPY. Its packet has no launch tag: the record's is 0 (DESIGN CHOICE, log 83). -/
def finishCopy (c status : Nat) (s : State) : State :=
  let s := s.tickNow
  let x := s.xfers.getD c default
  let at_ := s.now
  let s := setTokens x.q x.setMask s
  let s := { s with xfers := modAt (fun x => { x with done := true }) c s.xfers }
  let s := writeCompletion x.ctx x.record status (if status = 1 then x.cause else 0) 0 0 s
  completePacket x.q x.pkt (some at_) s

/-- COPY starts: its ranges are resident with their rights, or it completes with status 0x0003. -/
def startCopyPacket (q : Nat) (plan : MmPlan) (p : Packet) (s : State) : State :=
  let ctx := (s.queue q).spec.ctx
  let n := pf p.raw 8 8
  let src := pf p.raw 0x10 8
  let dst := pf p.raw 0x18 8
  let cls := p.cls (s.queue q)
  let s := mmWrite false plan.ptes (startPacket q p.n s)
  let c := s.xfers.length
  let s := { s with xfers := s.xfers ++
    [⟨q, p.n, ctx, src, dst, n, 0, BitVec.ofNat 64 (pf p.raw 0x28 8), pf p.raw 0x38 8, 0, false, false, cls, false⟩] }
  if plan.resident && mappedWith s ctx src n .rd && mappedWith s ctx dst n .w && !holdsLost s ctx src n && !holdsLost s ctx dst n then s
  else finishCopy c 3 s

/-- COPY. -/
def execCopy (q : Nat) (plan : MmPlan) (s : State) : Result :=
  runPacket q 2 (fun p s => if recordHeld s q (s.queue q).spec.ctx (pf p.raw 0x38 8) then none else some (startCopyPacket q plan p s)) s

/-- A COPY runs while its context is resident, not halted and not being pre-empted. -/
def copyRuns (s : State) (x : Xfer) : Bool :=
  !x.done && !x.killed && !(s.ctx x.ctx).halted && s.plat.winter = .running &&
    s.parts.any fun p => p.ctx = some x.ctx && p.preempt = none

/-- A fault of a COPY: charged to the context by the FE (13 R237). -/
def copyFault (c cause addr causeSeq : Nat) (s : State) : State :=
  let x := s.xfers.getD c default
  let s := { s with xfers := modAt (fun x => { x with cause := if x.cause = 0 then cause else x.cause }) c s.xfers }
  raiseContext feSource cause x.ctx addr (fun r => { r with causeSeq := causeSeq }) s

/-- What stops an access of a COPY to n bytes. -/
def copyBlocked (s : State) (ctx va n : Nat) : Option (Nat × Nat) :=
  (pagesOf va n).findSome? fun p =>
    let a := max p va
    let m := min (p + 2 ^ 16) (va + n) - a
    if lostAt s ctx a then some (0x18, a)
    else if walkBad s ctx a then some (0x1A, a)
    else if !translated s ctx a then some (0x0E, a)
    else if (regionAt s ctx a).isNone && poisonedVa s ctx a m then some (0x1A, a) else none

/-- The end of a COPY: step 1, with the encodes and the writes to the pool device it forces, then the rest. The encodes wait for the
end of an emergency that stops them (17 R266). -/
def endCopy (c : Nat) (s : State) : State :=
  let x := s.xfers.getD c default
  if flushStops s x.cls x.ctx x.dst x.len then s else
  let before := s.ring.length
  let s := flushRange x.cls x.ctx x.dst x.len s
  match (s.ring.drop before).head? with
  | some r => copyFault c r.cause r.addr r.seq s
  | none => if rangeWaits s x.ctx x.dst x.len then s else finishCopy c (statusOf x.cause x.killed) s

/-- The requester of a COPY. -/
def copyWho (c : Nat) : Nat := 4097 + c

def modXfer (c : Nat) (f : Xfer → Xfer) (s : State) : State := { s with xfers := modAt f c s.xfers }

/-- A COPY cannot fill a block: its own fault, or that of the access whose failing fill it joined (12 R224). Its chunk ends with it:
the COPY asks again when its context goes on. -/
def copyUnfilled (c : Nat) (r : Region) (e : FillErr) (s : State) : State :=
  let x := s.xfers.getD c default
  let s' := modXfer c (fun x => { x with asked := false }) s
  match joinedFill s x.ctx r e.2.2.2 with
  | some f => failUnit x.ctx r f.blk f e.1 e.2.1 s'
  | none => copyFault c e.1 (r.vaOf e.2.2.2) 0 s'

/-- The link of a pool page among n bytes is down. -/
def linkDown (s : State) (ctx va n : Nat) : Bool :=
  (pagesOf va n).any fun p => (s.ctx ctx).pools.any fun r => overlaps r.base r.len p (2 ^ 16) && !portUp s (r.portNow s)

/-- An access of a COPY waits: for the link of a pool line (15 R262), for fills that stop (17 R266). -/
def copyWaits (s : State) (cls ctx va n : Nat) : Bool := fillsStop s cls ctx va n || linkDown s ctx va n

/-- The next chunk of a COPY: source, destination, bytes. -/
def Xfer.chunk (x : Xfer) : Nat × Nat × Nat :=
  let d := x.dst + x.next
  (x.src + x.next, d, min (x.len - x.next) (4096 - d % 4096))

/-- A chunk whose reads have been served is written whole, with requests of the COPY's class; it waits for the room of its
units. -/
def writeChunk (c : Nat) (s : State) : State :=
  let x := s.xfers.getD c default
  let (a, d, n) := x.chunk
  match touchRange x.cls x.ctx a n s with
  | .error none => s
  | .error (some (r, e, s')) => copyUnfilled c r e s'
  | .ok s1 => match touchRange x.cls x.ctx d n s1 with
    | .error none => s
    | .error (some (r, e, s')) => copyUnfilled c r e s'
    | .ok s =>
      let s := dirtyRange x.ctx d n (agentWrite x.ctx d (sysRead s x.ctx a n) s)
      askRange (copyWho c) x.cls x.ctx d n (modXfer c (fun x => { x with next := x.next + n, asked := false }) s)

/-- COPY_CHUNK: one 4 KiB chunk, aligned to the destination, is read whole and then written whole. Its reads are requests
of the COPY's class and are served first; then it writes (03 R56, 08 R174). A chunk whose reads have left is still written when the
COPY stops (13 R237). -/
def execCopyChunk (c : Nat) (s : State) : Result :=
  match s.xfers[c]? with
  | none => .next s
  | some x =>
    let held := recordHeld s x.q x.ctx x.record
    if x.killed && !x.done && s.plat.winter = .running then .next (if held then s else (endCopy c s).tickNow)
    else if !(copyRuns s x || (x.asked && !x.done && !x.killed && s.plat.winter = .running)) then .next s
    else if x.len ≤ x.next then .next (if held then s else (endCopy c s).tickNow)
    else
      let (a, d, n) := x.chunk
      match (copyBlocked s x.ctx a n).or (copyBlocked s x.ctx d n) with
      | some (k, va) => .next (copyFault c k va 0 (modXfer c (fun x => { x with asked := false }) s))
      | none =>
        if copyWaits s x.cls x.ctx a n || copyWaits s x.cls x.ctx d n then .next s
        else if !x.asked then .next (askRange (copyWho c) x.cls x.ctx a n (modXfer c (fun x => { x with asked := true }) s))
        else if askPending s (copyWho c) then .next s
        else
          let s' := writeChunk c s
          let y := s'.xfers.getD c default
          .next (if y.len ≤ y.next && copyRuns s' y && !held then (endCopy c s').tickNow
            else if y.next ≠ x.next then s'.tickNow else s')

/-! ### SIGNAL, TOKCLR, MAP -/

def reply (r : Reply) : State → State := modPlat fun p => { p with out := p.out ++ [r] }

/-- SIGNAL; one whose page the MM cannot make resident is rejected as one without the mapping (DESIGN CHOICE, log 101). -/
def execSignal (q : Nat) (plan : MmPlan) (s : State) : Result :=
  runPacket q 3 (fun p s =>
    let x := s.queue q
    let a := pf p.raw 8 8
    if deviceHeld s x.spec.ctx a 8 then none else
    let s := mmWrite false plan.ptes s
    if !(plan.resident && mappedWith s x.spec.ctx a 8 .w) then tryReject q p.n 7 s
    else
      let s := deviceWrite x.spec.ctx a ((p.raw.drop 0x10).take 8) s
      let s := if (pf p.raw 2 1).testBit 0 then reply (.irq x.spec.fn (pf p.raw 4 2)) s else s
      some (completePacket q p.n none s)) s

/-- TOKCLR. -/
def execTokclr (q : Nat) (s : State) : Result :=
  runPacket q 4 (fun p s =>
    some (completePacket q p.n none (modQueue q (fun x => { x with tokens := x.tokens &&& ~~~BitVec.ofNat 64 (pf p.raw 8 8) }) s))) s

/-- A pool decoder of an HDM-H range that its supervisor has not marked unshared, or that another context leases (15
R250). -/
def decoderShared (s : State) (ctx : Nat) (d : Decoder) : Bool :=
  d.hdmH && (!d.unshared || s.ctxs.any fun c => c.spec.num ≠ ctx && c.pools.any fun p => decide (d.off ≤ p.off ∧ p.off < d.off + d.len))

/-- The mapping rules that reject a MAP with reason 0x02 (08 R162, R163; 15 R250, R251). So does a pool range that no decoder covers
(DESIGN CHOICE, log 120). -/
def mapBreaks (s : State) (ctx : Nat) (rs : List Range) : Bool :=
  tablesClash s || rs.any fun r =>
    let ps := leavesOf s [(ctx, r)]
    let decs := (ps.map fun e => decoderOf s (physOf e.2.2 e.2.1)).eraseDups
    (r.coh = .pool && (ps.length ≠ (pagesOf r.base r.len).length || ps.any (fun e => !isPool e.2.2.frame) ||
      1 < decs.length || decs.any fun d => d.all (decoderShared s ctx))) ||
    ps.any fun e => !frameHome s ctx e.2.1 e.2.2

/-- The reverse-map entry of the pool page at an address: host physical page, context, virtual page, its bytes (15 R251). -/
def mapEntry (s : State) (ctx va : Nat) : Option (Nat × Nat × Nat × Nat) :=
  (leafAt s ctx va).bind fun l => (decoderOf s (physOf l va)).map fun d =>
    (d.hpa + bitsOf l.first 47 0 - d.off, ctx, va / pageSize l * pageSize l, pageSize l)

/-- The context and virtual address of a host physical address behind a port: the reverse map (15 R250, R251). -/
def reverseMap (s : State) (port hpa : Nat) : Option (Nat × Nat) :=
  if s.decoders.any fun d => d.port = port && decide (d.hpa ≤ hpa ∧ hpa < d.hpa + d.len) then
    (s.rmap.find? fun e => decide (e.1 ≤ hpa ∧ hpa < e.1 + e.2.2.2)).map fun e => (e.2.1, e.2.2.1 + (hpa - e.1))
  else none

/-- Bytes that the pool device holds, by their keys, are stores of no thread, visible at `.pool` and `.sys` (15 R254). -/
def peerItems (bs : List (Nat × Byte)) (s : State) : State :=
  ((bs.map fun e => e.1 / 16).eraseDups).foldl (fun s g =>
    let mine := (bs.filter fun e => e.1 / 16 = g).map fun e => (e.1 % 16, e.2)
    { s with items := s.items ++ [⟨some g, mine, none, false, [(.pool, s.now), (.sys, s.now)], some s.now, 0, none, true⟩] }) s

/-- The device holds bytes of pages that this module does not map: port, host physical address, byte. -/
def keepPeers (bs : List (Nat × Nat × Byte)) (s : State) : State :=
  { s with peers := bs ++ s.peers.filter fun e => !bs.any fun x => x.1 = e.1 && x.2.1 = e.2.1 }

/-- What the device holds of pages that come to be mapped is there to be read (15 R254). -/
def claimPeers (s : State) : State :=
  let there := s.peers.filterMap fun e => (reverseMap s e.1 e.2.1).map fun a => (a.1 * 2 ^ 56 + a.2, e.2.2)
  peerItems there { s with peers := s.peers.filter fun e => (reverseMap s e.1 e.2.1).isNone }

/-- What the device comes to hold of a page whose mapping goes: every granule of it that has a store. -/
def pageBytes (s : State) (e : Nat × Nat × Nat × Nat) : List (Nat × Nat × Byte) :=
  match s.decoders.find? fun d => decide (d.hpa ≤ e.1 ∧ e.1 < d.hpa + d.len) with
  | none => []
  | some d =>
    let lo := e.2.1 * 2 ^ 56 + e.2.2.1
    ((itemGrans s).filter fun g => decide (lo ≤ 16 * g ∧ 16 * g < lo + e.2.2.2)).flatMap fun g =>
      (List.range 16).map fun i => (d.port, e.1 + (16 * g - lo) + i, newestByte s (16 * g + i))

/-- Pool regions and reverse-map entries of a new set: none where the map has no room (15 R251, R258). -/
def addPool (ctx : Nat) (salvage : List (Nat × Nat)) (r : Range) (s : State) : State :=
  if r.coh ≠ .pool then s
  else
    let es := (pagesOf r.base r.len).filterMap (mapEntry s ctx)
    let new := es.eraseDups.filter fun e => !s.rmap.contains e
    let s := if s.rmap.length + new.length ≤ 262144 then { s with rmap := s.rmap ++ new } else s
    let d := (leafAt s ctx r.base).bind fun l => (decoderOf s (physOf l r.base)).map fun d => (bitsOf (physOf l r.base) 47 0, d.port)
    let area := ((salvage.find? fun e => e.1 = r.base).map Prod.snd).getD 0
    if (s.ctx ctx).pools.any fun p => p.base = r.base && p.len = r.len then s
    else modCtx ctx (fun c => { c with pools := c.pools ++ [⟨r.base, r.len, (d.getD (0, 0)).1, (d.getD (0, 0)).2, area, false⟩] }) s

/-- The salvage area of a new pool region: 2 MiB of the context's HBM, mapped read-only with RD, of no other region and of no
other place (15 R258). -/
def areaOk (s : State) (ctx : Nat) (salvage : List (Nat × Nat)) (r : Range) : Bool :=
  r.coh ≠ .pool || ((s.ctx ctx).pools.any fun p => p.base = r.base && p.len = r.len) ||
    (salvage.find? fun e => e.1 = r.base).any fun a =>
      ((pagesOf a.2 (2 ^ 21)).all fun p => (leafAt s ctx p).any fun l => l.rd && !l.w && bitsOf l.frame 55 48 < 4) &&
      !rangeShared s ctx a.2 (2 ^ 21) && (salvage.all fun e => e.1 = r.base || !overlaps e.2 (2 ^ 21) a.2 (2 ^ 21)) &&
      !(s.ctx ctx).pools.any fun p => overlaps p.salvage (2 ^ 21) a.2 (2 ^ 21)

/-- Pool regions that no set names any more, and no launch leases, are unmapped with their reverse-map entries, and their lines
leave the caches (15 R254), while their device keeps what it holds; one with dirty lines behind a link that is down stays. -/
def dropPools (ctx : Nat) (s : State) : State :=
  let lines := fun (p : PoolRegion) (l : Line) => l.ctx = ctx && inRange p.base p.len l.addr
  let named := fun (p : PoolRegion) => (s.ctx ctx).sets.any (fun e => e.2.any fun r => r.coh = .pool && r.base = p.base && r.len = p.len) ||
    leased s ctx p.base p.len || recallHeld s (lines p)
  let gone := (s.ctx ctx).pools.filter fun p => !named p
  let kept := (s.ctx ctx).pools.filter named
  let s := modCtx ctx (fun c => { c with pools := kept }) (recallLines (fun l => gone.any fun p => lines p l) s)
  let holds := fun (e : Nat × Nat × Nat × Nat) (p : PoolRegion) => overlaps p.base p.len e.2.2.1 e.2.2.2
  let goes := fun (e : Nat × Nat × Nat × Nat) => e.2.1 = ctx && gone.any (holds e) && !kept.any (holds e)
  let s := keepPeers ((s.rmap.filter goes).flatMap (pageBytes s)) s
  { s with rmap := s.rmap.filter fun e => !goes e }

/-- MAP, which is posted to the CV and the MM (01 R20; log 86): defines a lease set. The MM allocates the salvage area of every
new pool region as it accepts it (15 R258); until it has, the packet waits. One that would be the context's 257th is rejected with 0x02 (DESIGN CHOICE, log 81).
It waits too for the room of what it posts (17 R264) and for the fills that its reads need; a poisoned array raises 0x1A against the
context (13 R246). A range array in unmapped memory reads as memory does there (DESIGN CHOICE, log 102). -/
def execMap (q : Nat) (salvage : List (Nat × Nat)) (ptes : List (Nat × BitVec 64)) (s : State) : Result :=
  runPacket q 6 (fun p s =>
    let ctx := (s.queue q).spec.ctx
    let id := pf p.raw 2 2
    let count := pf p.raw 4 1
    let at_ := pf p.raw 8 8
    if deviceHeld s ctx at_ (16 * count) || !(mailRoom s .cv feSource 1 && mailRoom s .mm feSource 1 && mailRoom s .fe feSource 1) then none
    else match deviceBad s ctx at_ (16 * count) with
    | some a => some (raiseDevice ctx a s)
    | none =>
      let s := deviceTouch ctx at_ (16 * count) s
      let raw := sysRead s ctx at_ (16 * count)
      match rangesOf ((List.range count).map fun i => (raw.drop (16 * i)).take 16) with
      | .error r => some (rejectPacket q p.n r (notify [.cv, .mm] feSource s))
      | .ok rs =>
        let full := (setOf (s.ctx ctx) id).isNone && decide (256 ≤ (s.ctx ctx).sets.length)
        let s' := mmWrite true ptes s
        if !apart rs || full || mapBreaks s' ctx rs then some (rejectPacket q p.n 2 (notify [.cv, .mm] feSource s))
        else if !rs.all (areaOk s' ctx salvage) then none
        else
          let s := modCtx ctx (fun c => { c with sets := (id, rs) :: c.sets.filter (·.1 ≠ id), maps := rs ++ c.maps }) (notify [.cv, .mm] feSource s')
          let s := claimPeers (rs.foldl (fun s r => addPool ctx salvage r s) (dropPools ctx s))
          some (completePacket q p.n none (refreshAliases s))) s

end Sys2Proof.Machine
end

