-- ==== Sys2Proof/Machine/System.lean ====
section
/-!
DEFINITION. The system class: special registers (04 R91-R93; 20 R354, R361), the request of a service (20 R359, R360),
the completion of producers (04 R86) and the wave timer (04 R93).
-/

namespace Sys2Proof.Machine

open Sys2Proof

/-- The value of a special register of a thread (04 Table 04.2), as a number. -/
def specialVal (s : State) (b t idx : Nat) : Nat :=
  let k := s.block b
  let l := s.launchOf b
  let th := s.thread b t
  let w := homeWave l t
  let wv := k.waves.getD w default
  match idx with
  | 0x00 => homeLane l t
  | 0x01 => homeLane l t / 4
  | 0x02 => w
  | 0x03 => th.slot
  | 0x04 => th.pwave
  | 0x05 => t
  | 0x06 => k.index
  | 0x07 => k.ntid
  | 0x08 => spanOf l k.index
  | 0x09 => sposOf l k.index
  | 0x0A => k.launch
  | 0x0B => k.core
  | 0x0C => k.core / 40
  | 0x0D => s.dev
  | 0x0E => l.ctx
  | 0x10 => th.rm.toNat
  | 0x11 => th.flags.toNat
  | 0x12 => (s.ctx l.ctx).cyc
  | 0x13 => (s.ctx l.ctx).cyc / 2 ^ 32
  | 0x14 => wv.wtim.toNat
  | 0x15 => wv.wtlim.toNat
  | 0x16 => k.arg.toNat
  | 0x17 => k.arg.toNat / 2 ^ 32
  | 0x18 => laneMask s b w
  | 0x19 => wv.accBase.toNat
  | 0x1A => wv.accLim.toNat
  | 0x1B => wv.lease
  | 0x1C => sget 0 (coreSource k.core) s.seqs % 2 ^ 32
  | _ => 0

/-- Registers whose value `SREAD` takes as it issues: those that 04 Table 04.2 says so of, and those that a younger
instruction writes, which does not reach one that has issued (04 R93; 05 R117): MODE, WTLIM, the window, SEQ (log 57). LEASE is
taken as it stands at the read (03 R77, 20 R354). -/
def takenAtIssue (idx : Nat) : Bool := [0x03, 0x04, 0x10, 0x15, 0x19, 0x1A, 0x1C].contains idx

/-- `SREAD`: the destination is EMPTY until the read; it is untainted. -/
def execSread (f : EFields) (s : State) : Result :=
  let sh := shapeOf (.sread f)
  let idx := f.re.toNat
  laneExec (.sread f) noFault (fun b t s =>
    let n := if f.mod.getLsbD 1 then 2 else 1
    let val := if takenAtIssue idx then ProdVal.ready (wordsOf n (specialVal s b t idx))
      else if idx = 0x11 then .flagsAt (s.thread b t).flags else .special idx (f.mod.getLsbD 1)
    modThread b t (fun th => startProd ⟨th.nextId, dstRegs f sh, val, false, false, s.cur.pc⟩ th) s) s

/-- `SWRITE`: MODE, FLAGS or WTLIM. -/
def execSwrite (f : EFields) (s : State) : Result :=
  let i := Instr.swrite f
  let sh := shapeOf i
  let s0 := s
  laneExec i (fun s b t =>
      let m := opd f sh (s.thread b t).vals .ra % 8
      if f.re = 0x10 ∧ (m = 0 ∨ 5 < m) then some (0x01, 0) else none) (fun b t s =>
    let x := opd f sh (s.thread b t).vals .ra
    if f.re = 0x10 then modThread b t (fun th => { th with rm := BitVec.ofNat 3 x }) s
    else if f.re = 0x11 then modThread b t (fun th => { th with flags := BitVec.ofNat 5 x }) s
    else
      let w := homeWave (s.launchOf b) t
      if leadOf i s0 b w = some t then modWave b w (fun v => { v with wtlim := BitVec.ofNat 32 x }) s else s) s

/-- `SVC`: the thread asks and waits (20 R359). -/
def execSvc (f : EFields) (s : State) : Result :=
  let i := Instr.svc f
  let sh := shapeOf i
  laneExec i noFault (fun b t s =>
    let v := (s.thread b t).vals
    let a := opd f sh v .ra
    let c := opd f sh v .rb
    modThread b t (fun th =>
      { startProd ⟨th.nextId, dstRegs f sh, .waiting, srcTaint f sh v, false, s.cur.pc⟩ th with
          st := .svcWait f.mod.toNat a c th.nextId (s.block b).issues s.cur.len, pc := s.cur.pc }) (endInterval b s)) s

/-! ### Producers (04 R86, R90; 05 R121, R122) -/

/-- Flag-setting producers older than one. -/
def olderFlags (th : Thread) (p : Prod) : Bool := th.prods.any fun q => decide (q.id < p.id) && q.flags

/-- The words of a producer whose data is there, and its flags. -/
def prodWords (s : State) (b t : Nat) (p : Prod) : Option (List Word × BitVec 5) :=
  match p.val with
  | .ready ws => some (ws, 0)
  | .sfu w _ fl => some ([w], fl)
  | .tile _ w => some ([w], 0)
  | .special idx wide => some (wordsOf (if wide then 2 else 1) (specialVal s b t idx), 0)
  | .flagsAt fl => if olderFlags (s.thread b t) p then none else some ([fl.setWidth 32], 0)
  | .waiting => none

/-- Flags that merge reach the younger reads of FLAGS too (05 R122). -/
def flagsReach (id : Nat) (fl : BitVec 5) (q : Prod) : Prod :=
  match q.val with
  | .flagsAt x => if id < q.id then { q with val := .flagsAt (mergeFlags x fl) } else q
  | _ => q

/-- What the shadow lane receives: the same loaded values and special registers, its own special function (02 R48). -/
def shadowWords (p : Prod) (ws : List Word) : List Word := match p.val with
  | .sfu _ w _ => [w]
  | _ => ws

/-- A producer completes: the destination becomes FULL, as a whole, and the flags merge. -/
def finishProd (p : Prod) (ws : List Word) (fl : BitVec 5) (th : Thread) : Thread :=
  { th with
      vals := fillRegs p.dst ws p.taint th.vals, shadow := th.shadow.map (fillRegs p.dst (shadowWords p ws) p.taint),
      prods := (th.prods.filter (·.id ≠ p.id)).map (flagsReach p.id fl), flags := mergeFlags th.flags fl }

/-- PRODUCER_COMPLETION. -/
def execProducerCompletion (b t p : Nat) (s : State) : Result :=
  match (s.thread b t).prods.find? (·.id = p) with
  | none => .next s
  | some x => match prodWords s b t x with
    | none => .next s
    | some (ws, fl) => .next (modThread b t (finishProd x ws fl) s)

/-! ### The wave timer (04 R93, 13 R241) -/

/-- WTIM has reached a limit that is not zero. -/
def timerDue (s : State) (b w : Nat) : Bool :=
  let v := (s.block b).waves.getD w default
  (s.block b).status = .placed && v.hit && laneMask s b w != 0

/-- WAVE_TIMER_EXPIRY: fault 0x22 for every living lane, at the trap point of the lowest. -/
def execWaveTimerExpiry (b w : Nat) (s : State) : Result :=
  if timerDue s b w then
    let ts := livingTids s b w
    .next (raiseCause b 0x22 ts (s.thread b (ts.headD 0)).pc 0 (modWave b w (fun v => { v with hit := false }) s))
  else .next s

end Sys2Proof.Machine
end

