-- ==== Sys2Proof/Machine/Place.lean ====
section
/-!
DEFINITION. Placing blocks and spans, and their retirement (03 R68-R73; 04 R94; 02 R25, R44, R48).
-/

namespace Sys2Proof.Machine

open Sys2Proof

/-! ### A block at its placement (04 R94) -/

def initReg (w : Word) : Reg := ⟨w, .full, false⟩

/-- Registers of a thread: argument pointer, `TID`, `BLOCK`, `NTID`, zero elsewhere. -/
def initVals (k : Block) (regs t : Nat) : Vals :=
  let at_ := fun (n : Nat) => match n with
    | 2 => k.arg.setWidth 32
    | 3 => (k.arg >>> 32).setWidth 32
    | 4 => BitVec.ofNat 32 t
    | 5 => BitVec.ofNat 32 k.index
    | 6 => BitVec.ofNat 32 k.ntid
    | _ => (0 : Word)
  ⟨(List.range regs).map fun n => initReg (at_ n), 0⟩

def initThread (l : Launch) (k : Block) (t : Nat) : Thread :=
  let v := initVals k l.regs t
  { vals := v, shadow := if l.redundant then some v else none, pc := k.entry, mt := 0, rm := 1, flags := 0, st := .ready,
    pwave := homeWave l t, slot := homeLane l t, stamp := 0, prods := [], nextId := 1, ops := [], gran := [], orderPt := 0,
    reads := [], sreads := 0, consumes := [], aBusy := [], signed := [], fenced := none }

def initWave : Wave :=
  { slots := List.replicate 8 (0, 0), accBase := 0, accLim := 0, accBaseS := 0, accLimS := 0, wtim := 0, wtlim := 0,
    hit := false, declared := 0, measured := 0, leaseS := 0, tags := List.replicate 8 0, tagsS := List.replicate 8 0, tagAt := List.replicate 8 0 }

/-- A wave that enters the pending set. -/
def initPWave (cycle : Nat) : PWave := ⟨false, cycle, 0, none, 0, 0, none, 0⟩

def initCv : Cv := ⟨none, [], 0, [], [], []⟩

/-- The block on its core, all its waves pending (03 R73): up to 16 of a sub-core, more than the 8 slots that 01 Table 01.3
gives the pending set (DESIGN CHOICE, log 78). Threads, waves, scratch of zeros that is FULL, tiles of +0 with their tokens at the engine. -/
def placeBlock (l : Launch) (core f cycle : Nat) (k : Block) : Block :=
  let w := l.wavesOf k.ntid
  { k with
      status := .placed, core := core, f := f, threads := (List.range k.ntid).map (initThread l k),
      waves := List.replicate w initWave, pwaves := List.replicate w (initPWave cycle), scratch := [], fe := [],
      fullAt := [], storedAt := [], copies := [], landed := [], past := [], tiles := List.replicate l.tiles ⟨[], none, none, []⟩,
      cvs := List.replicate 16 initCv, bars := List.replicate 16 [], issues := 0, ckpt := none, log := [], logBytes := 0, performed := [],
      rollable := false, rolled := false, method := .none, offered := none }

/-! ### What a core has left (03 R70) -/

def wavesOn (s : State) (b : Nat) : Nat := (s.block b).pwaves.length

def placedOn (s : State) (core : Nat) : List Nat :=
  (List.range s.blocks.length).filter fun b => (s.block b).status = .placed && (s.block b).core = core

/-- What a core holds: waves of each sub-core, register bytes, scratch, tiles. -/
abbrev Load := List Nat × Nat × Nat × Nat

def addLoad (l : Launch) (w f : Nat) (x : Load) : Load :=
  ((List.range 4).map fun i => x.1.getD i 0 + ((List.range w).filter fun h => (f + h) % 4 = i).length,
   x.2.1 + w * 32 * l.regs * 4, x.2.2.1 + l.scratch, x.2.2.2 + l.tiles)

def loadOk (x : Load) : Bool := x.1.all (· ≤ 16) && decide (x.2.1 ≤ 2 ^ 20 ∧ x.2.2.1 ≤ 2 ^ 19 ∧ x.2.2.2 ≤ 24)

def emptyLoad : Load := ([0, 0, 0, 0], 0, 0, 0)

def coreLoad (s : State) (core : Nat) : Load :=
  (placedOn s core).foldl (fun x b => addLoad (s.launchOf b) (wavesOn s b) (s.block b).f x) emptyLoad

/-- n blocks of w waves fit the wave slots that a core has left, with the best choice of an f for each: every sub-core takes w / 4
of each block, and w % 4 sub-cores in a row, one more. Of two in a row one is even and one odd; three leave out one. -/
def wavesFit (w n : Nat) (free : List Nat) : Bool :=
  let d := fun (i : Nat) => free.getD i 0 - n * (w / 4)
  (free.all fun x => n * (w / 4) ≤ x) && match w % 4 with
    | 0 => true
    | 1 => decide (n ≤ d 0 + d 1 + d 2 + d 3)
    | 2 => decide (n ≤ d 0 + d 2 ∧ n ≤ d 1 + d 3)
    | _ => decide ((n - d 0) + (n - d 1) + (n - d 2) + (n - d 3) ≤ n)

/-- How many blocks of w waves a load still takes, up to a number. -/
def roomFor (l : Launch) (w max : Nat) (x : Load) : Nat :=
  if loadOk x then
    ((List.range max).filter fun i =>
      let n := i + 1
      wavesFit w n (x.1.map (16 - ·)) &&
        decide (x.2.1 + n * (w * 32 * l.regs * 4) ≤ 2 ^ 20 ∧ x.2.2.1 + n * l.scratch ≤ 2 ^ 19 ∧ x.2.2.2 + n * l.tiles ≤ 24)).length
  else 0

/-! ### Spans (02 R26) and order (03 R71, R72) -/

/-- The blocks of a span, by the place of its first. A block that has retired is none of them. -/
def spanBlocks (s : State) (b : Nat) : List Nat :=
  let k := s.block b
  let l := s.launchOf b
  (List.range s.blocks.length).filter fun c =>
    (s.block c).launch = k.launch && spanOf l (s.block c).index = spanOf l k.index && (s.block c).status != .retired

/-- The cores of the partitions that run a context, outside a pre-emption. -/
def coresFor (s : State) (ctx : Nat) : List Nat :=
  (s.parts.filter fun p => p.ctx = some ctx && p.preempt = none && p.halt = none).flatMap Partition.cores

/-- The cores of a die could take a span: as they stand, or empty. -/
def dieTakes (s : State) (b die : Nat) (empty : Bool) : Bool :=
  let l := s.launchOf b
  let n := (spanBlocks s b).length
  let cores := (coresFor s l.ctx).filter fun c => c / 40 = die
  decide (n ≤ (cores.map fun c => roomFor l (l.wavesOf (s.block b).ntid) n (if empty then emptyLoad else coreLoad s c)).foldl (· + ·) 0)

/-- Order of placement: by launch, then by index. -/
def placedFirst (s : State) (a b : Nat) : Bool :=
  decide ((s.block a).launch < (s.block b).launch ∨ ((s.block a).launch = (s.block b).launch ∧ (s.block a).index < (s.block b).index))

/-- The `SPAWN` that a block comes from has released its stores. -/
def spawnDone (s : State) (b : Nat) : Bool :=
  match (s.block b).acqFrom with
  | some (b', t, op) => (relStep s b' t op .dev).isSome
  | none => true

/-- A block waits to be placed. -/
def awaits (s : State) (b : Nat) : Bool :=
  (s.block b).status = .unplaced && !(s.launchOf b).killed && (s.launchOf b).stage = .running && !(s.ctx (ctxOf s b)).halted && spawnDone s b

/-- A die is reserved for another block that is older. -/
def reserved (s : State) (b die : Nat) : Bool :=
  (List.range s.blocks.length).any fun c =>
    (s.block c).status = .unplaced && (s.block c).offered = some die && placedFirst s c b && !(spanBlocks s b).contains c

/-- The span of a block is the next of its launch: no block of the launch with a lower index is left. -/
def nextOfLaunch (s : State) (b : Nat) : Bool :=
  (List.range s.blocks.length).all fun c =>
    (s.block c).launch ≠ (s.block b).launch || !placedFirst s c b || (spanBlocks s b).contains c || (s.block c).status != .unplaced

/-- A span could be placed now, as the next of its launch, on a die that is not reserved against it. -/
def placeable (s : State) (b : Nat) : Bool :=
  (spanBlocks s b).all (awaits s) && nextOfLaunch s b && (List.range 4).any fun d => dieTakes s b d false && !reserved s b d

/-- A span may be placed before the others: it is the next of its launch, and no older launch of the context has one that is
placeable. -/
def inTurn (s : State) (b : Nat) : Bool :=
  nextOfLaunch s b && (List.range s.blocks.length).all fun c =>
    decide ((s.block b).launch ≤ (s.block c).launch) || ctxOf s c != ctxOf s b || !placeable s c

/-- The places named hold the blocks. -/
def placesFit (s : State) (bs : List Nat) (places : List (Nat × Nat)) : Bool :=
  let cores := (places.map Prod.fst).eraseDups
  cores.all fun c =>
    loadOk ((bs.zip places).foldl (fun x e => if e.2.1 = c then addLoad (s.launchOf e.1) ((s.launchOf e.1).wavesOf (s.block e.1).ntid) (e.2.2 % 4) x else x) (coreLoad s c))

/-- The places are cores of one die of the context. -/
def placesOk (s : State) (ctx : Nat) (places : List (Nat × Nat)) : Bool :=
  (places.all fun p => (coresFor s ctx).contains p.1) && (places.all fun p => p.1 / 40 = (places.headD (0, 0)).1 / 40)

/-- The entries of the spawn queue and the spill area whose blocks have all been placed leave (03 R68). -/
def trimSpawn (s : State) : State :=
  let live := fun (e : SpawnEntry) => s.blocks.any fun k =>
    k.launch = e.launch && decide (e.first ≤ k.index ∧ k.index < e.first + e.n) && k.status = .unplaced
  { s with
      dies := s.dies.map fun d => { d with spawnQ := d.spawnQ.filter live }
      ctxs := s.ctxs.map fun c => { c with spill := c.spill.filter live } }

/-- What the first instruction of a block acquires from (09 Table 09.2): no load of it takes its value from before. -/
def firstAcquire (b : Nat) (s : State) : State :=
  let k := s.block b
  let s := (tidsOf k).foldl (fun s t => orderHere b t s) s
  let s := if k.acqDone.isSome || k.acqFrom.isSome then cacheAcquire b .dev s else s
  let s := match k.acqDone with
    | some w => acquireFrom b .dev w s
    | none => s
  match k.acqFrom with
  | some (b', t, op) => match relStep s b' t op .dev with
    | some w => acquireFrom b .dev w s
    | none => s
  | none => s

/-- BLOCK_PLACEMENT: a block, or a whole span, is placed, with a core and an f for each block in index order. -/
def execBlockPlacement (b : Nat) (places : List (Nat × Nat)) (s : State) : Result :=
  let bs := spanBlocks s b
  let ctx := ctxOf s b
  let die := (places.headD (0, 0)).1 / 40
  if decide (bs.length = places.length) && bs.head? = some b && bs.all (awaits s) && s.plat.winter = .running &&
      placesOk s ctx places && placesFit s bs places && !reserved s b die && inTurn s b then
    let s := (bs.zip places).foldl (fun s e =>
      firstAcquire e.1 (modBlock e.1 (placeBlock (s.launchOf e.1) e.2.1 (e.2.2 % 4) (s.coreCycle e.2.1)) s)) s
    .next (trimSpawn s).tickNow
  else .next s

/-! ### Reservation (03 R72) -/

/-- The die offered to it: the lowest whose cores of the partition, all empty, would hold it. -/
def offerFor (s : State) (b : Nat) : Option Nat := (List.range 4).find? fun d => dieTakes s b d true

/-- A block, or the first of a span, has waited 2,250,000 cycles, and a die could hold it. A block that is placed nowhere
waits in periods of 2.25 GHz (DESIGN CHOICE, log 98). -/
def longWait (s : State) (b : Nat) : Bool :=
  awaits s b && (spanBlocks s b).head? = some b && (s.block b).offered = none &&
    decide ((s.block b).waiting + 2250000 ≤ s.cycle) && (offerFor s b).isSome

/-- PLACEMENT_RESERVATION. -/
def execPlacementReservation (b : Nat) (s : State) : Result :=
  if longWait s b then .next (modBlock b (fun k => { k with offered := offerFor s b }) s) else .next s

/-! ### Retirement (03 R69) -/

/-- Every store of a block is performed at device scope, but for PRIV stores. -/
def storesDone (s : State) (b : Nat) : Bool :=
  s.items.all fun x => match x.thr with
    | some (b', _) => b' ≠ b || x.priv || x.vis = [] || (visStep s x .dev).isSome
    | none => true

def mayRetire (s : State) (b : Nat) : Bool :=
  let k := s.block b
  k.status = .placed && k.threads.all (fun th => !th.alive && th.ops = [] && th.signed = []) && k.copies = [] &&
    (s.core k.core).mq.all (fun i => i.block ≠ b) && k.log = [] && storesDone s b && !(s.ctx (ctxOf s b)).halted

/-- The block has retired and the spawn-tree counter falls by one. -/
def retire (b : Nat) (s : State) : State :=
  let k := s.block b
  let s := modBlock b (fun k => { k with status := .retired }) s
  modLaunch k.launch (fun l => { l with tree := l.tree - 1, retired := l.retired + 1, counts := l.counts ++ [k.issues] }) s

/-- BLOCK_RETIREMENT. -/
def execBlockRetirement (b : Nat) (s : State) : Result := if mayRetire s b then .next (retire b s) else .next s

end Sys2Proof.Machine
end

