-- ==== Sys2Proof/Machine/Shake.lean ====
section
/-!
DEFINITION. SHAKE256, by which the SE measures images (17 R274). The function is that of FIPS 202, which the spec names
and does not print: PRESUMED (log 20).
-/

namespace Sys2Proof.Machine

open Sys2Proof

/-- The 25 lanes of the permutation's state; lane (x, y) stands at x + 5y. -/
abbrev Lanes := List DWord

def laneAt (a : Lanes) (x y : Nat) : DWord := a.getD (x % 5 + 5 * (y % 5)) 0

def mkLanes (f : Nat → Nat → DWord) : Lanes := (List.range 25).map fun i => f (i % 5) (i / 5)

def column (a : Lanes) (x : Nat) : DWord := (List.range 5).foldl (fun c y => c ^^^ laneAt a x y) 0

/-- The rotation of each lane. -/
def laneRot : List Nat := [0, 1, 62, 28, 27, 36, 44, 6, 55, 20, 3, 10, 43, 25, 39, 41, 45, 15, 21, 8, 18, 2, 61, 56, 14]

/-- The constants of the 24 rounds. -/
def roundKeys : List DWord :=
  [0x1, 0x8082, 0x800000000000808A, 0x8000000080008000, 0x808B, 0x80000001, 0x8000000080008081, 0x8000000000008009] ++
  [0x8A, 0x88, 0x80008009, 0x8000000A, 0x8000808B, 0x800000000000008B, 0x8000000000008089, 0x8000000000008003] ++
  [0x8000000000008002, 0x8000000000000080, 0x800A, 0x800000008000000A, 0x8000000080008081, 0x8000000000008080,
    0x80000001, 0x8000000080008008]

/-- One round: parity of columns, rotation and transposition of lanes, the row function, the round's constant. -/
def keccakRound (a : Lanes) (k : DWord) : Lanes :=
  let cs := (List.range 5).map (column a)
  let d := fun (x : Nat) => cs.getD ((x + 4) % 5) 0 ^^^ (cs.getD ((x + 1) % 5) 0).rotateLeft 1
  let a := mkLanes fun x y => laneAt a x y ^^^ d x
  -- lane (x, y) moves to (y, 2x + 3y), so lane (u, v) comes from (u + 3v, u)
  let b := mkLanes fun u v => let x := (u + 3 * v) % 5; (laneAt a x u).rotateLeft (laneRot.getD (x + 5 * u) 0)
  let c := mkLanes fun x y => laneAt b x y ^^^ (~~~laneAt b (x + 1) y &&& laneAt b (x + 2) y)
  modAt (· ^^^ k) 0 c

def keccak (a : Lanes) : Lanes := roundKeys.foldl keccakRound a

/-- A block of 136 bytes enters the state. -/
def absorb (a : Lanes) (block : List Byte) : Lanes :=
  keccak ((List.range 25).map fun i => a.getD i 0 ^^^ BitVec.ofNat 64 (leNat ((block.drop (8 * i)).take 8)))

/-- The message with its suffix and padding: a whole number of blocks. -/
def padShake (m : List Byte) : List Byte :=
  let z := (136 - (m.length + 1) % 136) % 136
  let body := m ++ (0x1F : Byte) :: List.replicate z 0
  modAt (· ||| 0x80) (body.length - 1) body

/-- 64 bytes of SHAKE256. -/
def shake256 (m : List Byte) : List Byte :=
  let p := padShake m
  let a := (List.range (p.length / 136)).foldl (fun a i => absorb a ((p.drop (136 * i)).take 136)) (List.replicate 25 0)
  (a.flatMap fun w => leBytes 8 w.toNat).take 64

end Sys2Proof.Machine
end

