-- ==== Sys2Proof/Machine/Sched.lean ====
section
/-!
DEFINITION. The wave scheduler (03 R73-R82; 02 R36, R38, R46): active and pending sets, admission, swaps, rotation.
-/

namespace Sys2Proof.Machine

open Sys2Proof

/-- A physical wave of a core: block, wave. -/
abbrev WaveId := Nat × Nat

def pwaveOf (s : State) (x : WaveId) : PWave := (s.block x.1).pwaves.getD x.2 default
def waveAlive (s : State) (x : WaveId) : Bool := (waveTids s x.1 x.2).any fun t => (s.thread x.1 t).alive

/-- The waves of a sub-core that have a living thread. -/
def subWaves (s : State) (core sub : Nat) : List WaveId :=
  (placedOn s core).flatMap fun b => ((List.range (wavesOn s b)).filter fun w => subOf (s.block b) w = sub && waveAlive s (b, w)).map fun w => (b, w)

def coreWaves (s : State) (core : Nat) : List WaveId := (List.range 4).flatMap (subWaves s core)

def activeOf (s : State) (l : List WaveId) : List WaveId := l.filter fun x => (pwaveOf s x).active
def pendingOf (s : State) (l : List WaveId) : List WaveId := l.filter fun x => !(pwaveOf s x).active

/-- The lease of a physical wave at the start of the cycle: the largest of the home waves with a living quad in it (02 R43,
R46; 03 R82). -/
def pwaveLease (s : State) (x : WaveId) : Nat :=
  let l := s.launchOf x.1
  ((((waveTids s x.1 x.2).filter fun t => (s.thread x.1 t).alive).map (homeWave l)).eraseDups.map fun w => ((s.block x.1).waves.getD w default).leaseS).foldl max 0

/-- Admission (03 R76), with a wave taken out of the sum. -/
def admits (s : State) (core : Nat) (x : WaveId) (out : Option WaveId) : Bool :=
  let act := (activeOf s (coreWaves s core)).filter fun a => some a ≠ out
  let cap := (s.core core).lcap
  let sum := (act.map (pwaveLease s)).foldl (· + ·) 0
  if cap < pwaveLease s x then act = [] else decide (sum + pwaveLease s x ≤ cap) && act.all fun a => pwaveLease s a ≤ cap

/-- Pending waves that are ready, oldest first; of equal age, the lower block, then the lower wave (DESIGN CHOICE,
log 79). A wave that entered the set in this cycle is tested from the next (13 R248; log 78). -/
def readyPending (s : State) (core sub : Nat) : List WaveId :=
  sortBy (fun a b => decide ((pwaveOf s a).since ≤ (pwaveOf s b).since))
    ((pendingOf s (subWaves s core sub)).filter fun x => decide ((pwaveOf s x).since < s.coreCycle core) && blockRuns s x.1 && waveReady s x.1 x.2)

/-- A sub-core has made no move in this cycle, and no higher one has (01 R17, 03 R75, R76). -/
def mayMove (s : State) (core sub : Nat) : Bool :=
  (List.range 4).all fun i => i < sub || ((s.core core).subs.getD i default).moved ≠ some (s.coreCycle core)

def modSub (core sub : Nat) (f : Sub → Sub) : State → State := modCore core fun c => { c with subs := modAt f sub c.subs }

/-- A wave becomes active; activations are ordered by cycle and sub-core. -/
def activate (core sub : Nat) (x : WaveId) (s : State) : State :=
  modSub core sub (fun u => { u with moved := some (s.coreCycle core) })
    (modPWave x.1 x.2 (fun w => { w with active := true, actSeq := s.coreCycle core * 4 + sub, ll := 0 }) s)

/-- A wave returns to the pending set with a fresh age. -/
def deactivate (x : WaveId) (s : State) : State :=
  modPWave x.1 x.2 (fun w => { w with active := false, since := s.coreCycle (s.block x.1).core, ll := 0 }) s

/-- The wave that a free slot of a sub-core takes in this cycle (03 R73). -/
def activationOf (s : State) (core sub : Nat) : Option WaveId :=
  if mayMove s core sub && decide ((activeOf s (subWaves s core sub)).length < 8) then
    (readyPending s core sub).head?.filter fun x => admits s core x none
  else none

/-- WAVE_ACTIVATION. -/
def execWaveActivation (core sub : Nat) (s : State) : Result :=
  match activationOf s core sub with
  | some x => .next (activate core sub x s)
  | none => .next s

/-! ### Long-latency blocking (02 R38) and swaps (03 R75) -/

/-- A wait of an instruction that 02 Table 02.2 marks long-latency; `EXIT` counts as a read of every register (18 R303). -/
def longWaitAt (i : Instr) (s : State) (b t : Nat) : Bool :=
  let th := s.thread b t
  let (f, sh) := threadShape i s b t
  let srcs := (sh.srcs.flatMap fun p => fieldRegs f sh p) ++ dstRegs f sh
  let all := match i with
    | .exit _ | .exitBase => true
    | _ => false
  let missed := th.prods.any fun p => p.missed && p.dst.any fun n => (all || srcs.contains n) && (th.vals.get n).av = .empty
  threadGuard i s b t && (missed || busyRegs th (dstRegs f sh) || match i with
    | .acwait _ | .mwait _ => extraWait i s b [t] t
    | .gate _ => gateShut s b f.rd.toNat
    | .sts _ | .stsBase .. | .stsBaseLiteral .. | .feset _ | .atoms _ => !srcWait f sh th.vals && extraWait i s b [t] t
    | .lds _ => (ldsTag f).awaits && !srcWait f sh th.vals && !(sget true (scratchAddr f sh (sizeOf f) th.vals / 16) (s.block b).fe)
    | _ => false)

/-- A thread in a long-latency wait. -/
def longThread (s : State) (b t : Nat) : Bool :=
  let th := s.thread b t
  match th.st with
  | .barWait .. | .svcWait .. | .tokWait .. => true
  | .ready => match fetch s b th.pc with
    | .ok i _ => longWaitAt i s b t
    | .bad _ => false
  | _ => false

def longBlocked (s : State) (x : WaveId) : Bool := !waveReady s x.1 x.2 && (waveTids s x.1 x.2).any (longThread s x.1)

/-- The candidate of the cycle: blocked for 16 cycles and for the most, then the earlier activation. -/
def swapCandidate (s : State) (core sub : Nat) : Option WaveId :=
  let c := (activeOf s (subWaves s core sub)).filter fun x => decide (16 ≤ (pwaveOf s x).ll) && longBlocked s x
  (sortBy (fun a b => decide ((pwaveOf s b).ll < (pwaveOf s a).ll ∨
    ((pwaveOf s a).ll = (pwaveOf s b).ll ∧ (pwaveOf s a).actSeq ≤ (pwaveOf s b).actSeq))) c).head?

/-- The swap of the cycle: out, in. -/
def swapOf (s : State) (core sub : Nat) : Option (WaveId × WaveId) :=
  if mayMove s core sub then
    (swapCandidate s core sub).bind fun o => ((readyPending s core sub).find? fun x => admits s core x (some o)).map fun i => (o, i)
  else none

/-- WAVE_SWAP. -/
def execWaveSwap (core sub : Nat) (s : State) : Result :=
  match swapOf s core sub with
  | some (o, i) => .next (activate core sub i (deactivate o s))
  | none => .next s

/-! ### The starvation bound (03 R80) -/

/-- Its 1,000,000 cycles count from the wave's entry to the pending set (DESIGN CHOICE, log 111). -/
def starved (s : State) (core sub : Nat) : Option WaveId :=
  if mayMove s core sub then
    (readyPending s core sub).head?.filter fun x => decide ((pwaveOf s x).since + 1000000 ≤ s.coreCycle core)
  else none

/-- The youngest active wave of a sub-core. -/
def youngest (s : State) (core sub : Nat) : Option WaveId :=
  (sortBy (fun a b => decide ((pwaveOf s b).actSeq ≤ (pwaveOf s a).actSeq)) (activeOf s (subWaves s core sub))).head?

/-- STARVATION_ADMISSION. -/
def execStarvationAdmission (core sub : Nat) (s : State) : Result :=
  match starved s core sub with
  | none => .next s
  | some x =>
    let s := if (activeOf s (subWaves s core sub)).length < 8 then s
      else match youngest s core sub with
        | some y => deactivate y s
        | none => s
    .next (activate core sub x s)

/-! ### Which wave issues (03 R74), and which group (02 R36) -/

/-- A wave that became active in this cycle: its sub-core issues from its other waves (03 R75). -/
def justMoved (s : State) (x : WaveId) : Bool :=
  let sub := subOf (s.block x.1) x.2
  let core := (s.block x.1).core
  decide (((s.core core).subs.getD sub default).moved = some (s.coreCycle core) ∧ (pwaveOf s x).actSeq = s.coreCycle core * 4 + sub)

/-- An active wave that can issue now. -/
def canIssue (s : State) (x : WaveId) : Bool :=
  (pwaveOf s x).active && !justMoved s x && blockRuns s x.1 && waveReady s x.1 x.2

def readyActive (s : State) (core sub : Nat) : List WaveId := (activeOf s (subWaves s core sub)).filter (canIssue s)

/-- The wave that issued last has issued in 256 consecutive cycles, the last of them the cycle before, while another was
ready. -/
def rotationDue (s : State) (core sub : Nat) : Bool :=
  let u := (s.core core).subs.getD sub default
  decide (256 ≤ u.consec ∧ (u.issued.any fun c => c + 1 = s.coreCycle core)) && (readyActive s core sub).any fun x => some x ≠ u.last

/-- ISSUE_ROTATION: the ready wave, other than that one, whose last issue is oldest; one that has not issued counts as
oldest, and ties go to the older activation. -/
def execIssueRotation (core sub : Nat) (s : State) : Result :=
  if rotationDue s core sub then
    let u := (s.core core).subs.getD sub default
    let key : WaveId → Nat := fun x => match (pwaveOf s x).lastIssue with
      | some c => c + 1
      | none => 0
    let l := (readyActive s core sub).filter fun x => some x ≠ u.last
    let best := (sortBy (fun (a b : WaveId) => decide (key a < key b ∨ (key a = key b ∧ (pwaveOf s a).actSeq ≤ (pwaveOf s b).actSeq))) l).head?
    .next (modSub core sub (fun u => { u with last := best, consec := 0 }) s)
  else .next s

/-- The ready waves that have stayed ready so long without an issue that the 2,048 cycles of 02 R50 and 03 R74 are about to pass,
with room for each of the eight of a sub-core. -/
def overdue (s : State) (l : List WaveId) : List WaveId := l.filter fun x => decide (2040 ≤ (pwaveOf s x).unserved)

/-- The wave a sub-core issues from: the one that issued last while it is ready, else the oldest activation; before them one
whose 2,048 cycles are about to pass, the longest first (DESIGN CHOICE, log 107). -/
def pickWave (s : State) (core sub : Nat) : Option WaveId :=
  let l := readyActive s core sub
  let late := overdue s l
  if late ≠ [] then leastBy (fun y => (2 ^ 64 - (pwaveOf s y).unserved) * 2 ^ 64 + (pwaveOf s y).actSeq) late
  else match (s.core core).subs.getD sub default |>.last with
    | some x => if l.contains x then some x else leastBy (fun y => (pwaveOf s y).actSeq) l
    | none => leastBy (fun y => (pwaveOf s y).actSeq) l

/-- The current group of the wave that would issue has issued 64 instructions in a row. -/
def groupLimitDue (s : State) (core sub : Nat) : Option WaveId :=
  (pickWave s core sub).filter fun x => match (pwaveOf s x).cur with
    | some pc => decide (64 ≤ (pwaveOf s x).run) && groupReady s x.1 x.2 pc
    | none => false

/-- GROUP_ISSUE_LIMIT: the ready group whose last issue is oldest becomes current, as 02 R36 gives it to a group that another has
joined. -/
def execGroupIssueLimit (core sub : Nat) (s : State) : Result :=
  match groupLimitDue s core sub with
  | none => .next s
  | some x => .next (modPWave x.1 x.2 (fun w => { w with cur := leastBy (groupStamp s x.1 x.2) (readyPcs s x.1 x.2), run := 0 }) s)

/-! ### Halving (03 R79) -/

def halvingDue (s : State) (core : Nat) : Bool :=
  decide (s.coreCycle core % 65536 = 0 ∧ s.coreCycle core ≠ 0 ∧ (s.core core).halved ≠ s.coreCycle core)

def halveWave (w : Wave) : Wave := { w with measured := w.measured / 2, leaseS := max w.declared (w.measured / 2) }

/-- LEASE_HALVING: the measured lease of every resident wave of the core; the tests of the cycle see it (03 R79). -/
def execLeaseHalving (core : Nat) (s : State) : Result :=
  if halvingDue s core then
    let s := (placedOn s core).foldl (fun s b =>
      modBlock b (fun k => { k with waves := k.waves.map halveWave }) s) s
    .next (modCore core (fun c => { c with halved := s.coreCycle core }) s)
  else .next s

end Sys2Proof.Machine
end

