-- ==== Sys2Proof/Machine/Service.lean ====
section
/-!
DEFINITION. The codec services of the CV: load, bind, unbind, region information (11 R201, R202, R204, R207, R217, R219,
R222; 20 R359, R360).
-/

namespace Sys2Proof.Machine

open Sys2Proof

/-- How a service ends: a 32-bit result with the record it wrote, a rejection with its reason, no reply, an argument in poisoned
memory at an address; or it waits. -/
inductive SvcEnd where
  | ok (result : Nat) (record : Option Nat) (s : State)
  | reject (reason : Nat)
  | stuck (s : State)
  | poison (addr : Nat)
  | held

/-- How the one who asks sees memory: state, context, address, bytes. -/
abbrev SvcView := State → Nat → Nat → Nat → List Byte

/-- A service of a context: its two arguments, how it sees memory, the state. -/
abbrev Service := Nat → Nat → Nat → SvcView → State → SvcEnd

/-- A service reads n bytes through the device's own access, and goes on with them. -/
def svcRead (view : SvcView) (ctx va n : Nat) (s : State) (go : List Byte → State → SvcEnd) : SvcEnd :=
  match deviceBad s ctx va n with
  | some a => .poison a
  | none => if deviceHeld s ctx va n then .held else let s := deviceTouch ctx va n s; go (view s ctx va n) s

/-- A reply to a packet: a 32-bit result and 32 zero bits (11 R204). -/
def replyPacket (q : Nat) (p : Packet) (result : Nat) (s : State) : State :=
  completePacket q p.n none (deviceWrite (s.queue q).spec.ctx (pf p.raw 0x18 8) (leBytes 8 result) s)

/-- The service that a BIND packet asks for, which is posted to the CV (01 R20, 17 R264; log 86). It waits for the room of what it
posts; an argument in poisoned memory raises 0x1A against the context (13 R246). -/
def serveQueue (q svc : Nat) (work : Service) (s : State) : Result :=
  match nextOf s q 5 with
  | none => .next s
  | some p => match checkPacket p.raw with
    | some r => orWait s (tryReject q p.n r s)
    | none =>
      let ctx := (s.queue q).spec.ctx
      if pf p.raw 2 1 ≠ svc || !mayStart (s.queue q) p.n || s.plat.winter ≠ .running ||
          !(mailRoom s .cv feSource 1 && mailRoom s .fe feSource 1) || deviceHeld s ctx (pf p.raw 0x18 8) 8 then .next s
      else
        let s' := notify [.cv] feSource s
        match work ctx (pf p.raw 8 8) (pf p.raw 0x10 8) sysRead s' with
        | .ok r _ s' => .next (replyPacket q p r s').tickNow
        | .reject r => .next (rejectPacket q p.n r s').tickNow
        | .stuck s' => .next s'
        | .poison a => .next (raiseDevice ctx a s')
        | .held => .next s

/-- A lower home lane of the same `SVC` has not been served: requests are made in ascending home lane (20 R359). -/
def askedBefore (s : State) (b t iss : Nat) : Bool :=
  let l := s.launchOf b
  (tidsOf (s.block b)).any fun t' => decide (homeLane l t' < homeLane l t) && match (s.thread b t').st with
    | .svcWait _ _ _ _ iss' _ => iss' = iss
    | _ => false

/-- Every older store of a thread is visible in the device instance, its PRIV stores too (20 R360; log 99). -/
def allVisible (s : State) (b t op : Nat) : Bool :=
  s.items.all fun x => !(ownItem b t x && x.gran.isSome && x.vis != [] && decide (x.op < op)) || (visStep s x .dev).isSome

/-- The request of a thread may leave: every older store is visible in the device instance (20 R360). -/
def svcReady (s : State) (b t prod iss : Nat) : Bool :=
  !askedBefore s b t iss && (s.block b).status = .placed && !(s.ctx (ctxOf s b)).halted && s.plat.winter = .running && allVisible s b t prod &&
    !((s.thread b t).ops.any fun o => decide (o.id < prod) && (o.isStore || o.isAtomic) && !o.scratch)

/-- The floors of the issuing block rise to the bytes the CV wrote. -/
def raiseToRecord (b ctx va : Nat) (s : State) : State :=
  (List.range 2).foldl (fun s i => let g := granOf ctx va + i; raiseFloor b g (newestIn s g .sys s.now) s) s

/-- The reply arrives: the destination becomes FULL with it (04 Table 04.1). -/
def fillNowProd (b t prod : Nat) (ws : List Word) (s : State) : State :=
  modThread b t (fun th => match th.prods.find? (·.id = prod) with
    | some p => { onLanes (fillRegs p.dst ws p.taint) th with prods := th.prods.filter (·.id ≠ prod) }
    | none => th) s

/-- The service that a thread asks for; a rejection is fault 0x23, an argument in poisoned memory 0x1A (13 R246), with the
destination ABANDONED. -/
def serveThread (b t svc : Nat) (work : Service) (s : State) : Result :=
  let th := s.thread b t
  match th.st with
  | .svcWait n a c prod iss len =>
    if n ≠ svc || !svcReady s b t prod iss then .next s
    else
      let ctx := ctxOf s b
      let fault := fun (source cause addr : Nat) =>
        let s := modThread b t (fun th => { abandonProd prod th with st := .ready }) s
        takeFault { threadRec s b cause [t] th.pc addr with source := source } s
      match work ctx a c devRead s with
      | .ok r rec_ s =>
        let s := fillNowProd b t prod [BitVec.ofNat 32 r] s
        let s := modThread b t (fun th => { advancePc len th with st := .ready }) s
        .next (match rec_ with
          | some va => raiseToRecord b ctx va s
          | none => s).tickNow
      | .reject _ => .next (fault (coreSource (s.block b).core) 0x23 0)
      | .stuck s => .next s
      | .poison a => .next (fault (ctlSource (ctlFor s ctx a)) 0x1A a)
      | .held => .next s
  | _ => .next s

def serve (src : SvcSource) (svc : Nat) (work : Service) (s : State) : Result :=
  match src with
  | .queue q => serveQueue q svc work s
  | .thread b t => serveThread b t svc work s

/-! ### CODEC_LOAD (11 R207) -/

/-- The image's header: counts and direction, or the reason that rejects it. -/
def imageHeader (w0 w1 : Nat) : Except Nat (Nat × Nat × Bool) :=
  let n := bitsOf w0 15 0
  let t := bitsOf w0 24 16
  if n = 0 ∨ 256 < n ∨ 256 < t then .error 2
  else if w0 / 2 ^ 26 ≠ 0 ∨ w1 ≠ 0 then .error 3
  else .ok (n, t, bitOf w0 25)

/-- The lowest free id of 240 (log 36); a context that has them all is rejected with 0x02 (DESIGN CHOICE, log 36). -/
def codecLoadWork : Service := fun ctx a _ view s =>
  if a % 8 ≠ 0 ∨ 2 ^ 56 ≤ a then .reject 2
  else svcRead view ctx a 8 s fun head s => match imageHeader (leNat (head.take 4)) (leNat (head.drop 4)) with
    | .error r => .reject r
    | .ok (n, t, enc) =>
      match (List.range 240).find? fun i => !(s.ctx ctx).programs.any fun p => p.id = i with
      | none => .reject 2
      | some id => svcRead view ctx (a + 8) (4 * (n + t)) s fun body s =>
        let ws := wordsLe body (n + t)
        .ok id none (modCtx ctx (fun c => { c with programs := c.programs ++ [⟨id, enc, ws.take n, ws.drop n⟩] }) s)

def execCodecLoad (src : SvcSource) (s : State) : Result := serve src 1 codecLoadWork s

/-! ### CODEC_BIND (11 R201, R202, R217, R222) -/

/-- The region a binding record asks for, as a first binding (11 Table 11.1). -/
def regionOfRecord (raw : List Byte) : Region :=
  let flags := pf raw 0x16 1
  { idx := pf raw 0xC 1, base := pf raw 0 8, len := pf raw 8 4 * 2 ^ 16, pbs := 64 * 2 ^ pf raw 0xD 1, sbs := pf raw 0xE 2,
    vfy := flags.testBit 0, lossy := flags.testBit 1, repl := flags.testBit 2, ebase := pf raw 0x18 8,
    ecount := pf raw 0x20 4, rbase := pf raw 0x30 8,
    gens := [⟨0, pf raw 0x14 1, pf raw 0x15 1, pf raw 0x10 2, pf raw 0x12 2, wordsLe (raw.drop 0x40) 8⟩],
    cur := 0, since := 0, prev := 0, die := 0, slots := [], escs := [], inv := 0, esc := 0, rep := 0, walker := none }

/-- The fields of a record are in range. -/
def recordOk (raw : List Byte) : Bool :=
  let r := regionOfRecord raw
  let g := r.gens.headD default
  decide (r.base % 2 ^ 16 = 0 ∧ r.base + r.len ≤ 2 ^ 56 ∧ 1 ≤ pf raw 8 4 ∧ r.idx < 16 ∧ pf raw 0xD 1 < 4 ∧ r.sbs % 16 = 0 ∧
    16 ≤ r.sbs ∧ r.sbs ≤ r.pbs ∧ 1 ≤ g.dsb ∧ g.dsb ≤ 4096 ∧ 1 ≤ g.esb ∧ g.esb ≤ 8192 ∧ r.ebase < 2 ^ 56 ∧ 1 ≤ r.ecount ∧
    r.ecount ≤ 2 ^ 24 ∧ r.rbase < 2 ^ 56) && (r.repl || r.rbase = 0)

def recordZeros (raw : List Byte) : Bool := pf raw 0x16 1 / 8 = 0 && pf raw 0x17 1 = 0 && zeroIn raw 0x24 0x30 && zeroIn raw 0x38 0x40

/-- A program may stand in a role: a loaded one of the direction, or the library's, with its sizes and counts. -/
def programOk (c : Context) (r : Region) (id bound : Nat) (enc : Bool) : Bool :=
  if isLib id then
    decide (id ≤ 0xF3) && decide (id % 2 = enc.toNat) && decide (libSteps id ≤ bound) &&
      (if id ≤ 0xF1 then r.pbs = 128 else r.pbs = 256 && r.sbs = 208)
  else c.programs.any fun p => p.id = id && p.encode = enc

/-- The programs resident on a die: those of the live generations of its regions; the library is not counted. -/
def residents (s : State) (die : Nat) (extra : List (Nat × Nat)) : Nat :=
  let mine := s.ctxs.flatMap fun c => (c.regions.filter (·.die = die)).flatMap fun r => r.gens.flatMap fun g =>
    [(c.spec.num, g.dec), (c.spec.num, g.enc)]
  ((mine ++ extra).filter fun e => !isLib e.2).eraseDups.length

/-- The home die of a range, when its granules have one (11 R201). -/
def oneHome (c : Context) (base len : Nat) : Option Nat :=
  let gs := (List.range ((base % 2 ^ 21 + len + 2 ^ 21 - 1) / 2 ^ 21)).map fun i => homeByMap c (base / 2 ^ 21 * 2 ^ 21 + i * 2 ^ 21)
  match gs with
  | [] => none
  | d :: r => if r.all (· = d) then some d else none

/-- The pages of a range have frames in the HBM or LPDDR-6 of a die. -/
def backedOn (s : State) (die ctx base len : Nat) : Bool :=
  (pagesOf base len).all fun p => (leafAt s ctx p).any fun l => bitsOf l.frame 55 48 < 8 && bitsOf l.frame 55 48 % 4 = die

/-- The range with its slot array, the escape pool and the replica have their frames on the region's die (11 R201); a binding
for which they have not is rejected (log 93). -/
def sideBacked (s : State) (ctx : Nat) (r : Region) (die : Nat) : Bool :=
  backedOn s die ctx r.base r.len && backedOn s die ctx r.ebase (r.ecount * r.pbs) && (!r.repl || backedOn s die ctx r.rbase (r.blocks * r.sbs))

/-- The conditions of a new binding; the region's frames have no other place (08 R162). -/
def newBindingOk (s : State) (ctx : Nat) (r : Region) : Bool :=
  !((s.ctx ctx).regions.any fun x => overlaps x.base x.len r.base r.len) && !launchLeased s ctx r.base r.len &&
    !pendingLease s ctx r.base r.len && !((pagesOf r.base r.len).any fun p => (leafAt s ctx p).any fun l => isPool l.frame) &&
    (oneHome (s.ctx ctx) r.base r.len).any (sideBacked s ctx r) &&
    !rangeShared s ctx r.base r.len

/-- The pages of the escape pool and the replica lose W. -/
def readOnlyPages (ctx base len : Nat) (s : State) : State :=
  (pagesOf base len).foldl (fun s p => editLeaf ctx p (fun l => { l with w := false }) s) s

/-- A first binding: the slot array, CB and CREG, the read-only pages. -/
def firstBinding (ctx : Nat) (r : Region) (s : State) : State :=
  let r := { r with die := (oneHome (s.ctx ctx) r.base r.len).getD 0 }
  let s := removeLines (fun l => l.ctx = ctx && inRange r.base r.len l.addr) s
  let s := (pagesOf r.base r.len).foldl (fun s p => editLeaf ctx p (fun l => { l with cb := true, creg := r.idx }) s) s
  let s := readOnlyPages ctx r.ebase (r.ecount * r.pbs) s
  let s := if r.repl then
      (List.range r.blocks).foldl (fun s k => sysWrite ctx (r.rbase + k * r.sbs) (zeroSlot r 0) s)
        (readOnlyPages ctx r.rbase (r.blocks * r.sbs) s)
    else s
  let s := dropTlb ctx r.base r.len (dropTlb ctx r.ebase (r.ecount * r.pbs) (dropTlb ctx r.rbase (r.blocks * r.sbs) s))
  refreshAliases (modCtx ctx (fun c => { c with regions := c.regions ++ [r] }) s)

/-- The lowest generation that is not live. -/
def freeGen (r : Region) : Option Nat := (List.range 4).find? fun n => !r.gens.any fun g => g.num = n

/-- A rebinding names the region it rebinds (11 R217); its escape pool may be larger (11 R214). -/
def sameBinding (old new : Region) : Bool :=
  old.base = new.base && old.len = new.len && old.pbs = new.pbs && old.sbs = new.sbs && old.ebase = new.ebase &&
    decide (old.ecount ≤ new.ecount) && old.repl = new.repl && old.rbase = new.rbase

/-- A rebinding installs a generation and starts the recode walker; a larger escape pool, whose pages lose W, frees the pinned
blocks (11 R201, R214). -/
def rebind (ctx n : Nat) (new : Region) (s : State) : State :=
  let g := { new.gens.headD default with num := n }
  let larger := (findRegion s ctx new.idx).any fun r => decide (r.ecount < new.ecount)
  let pool := new.ecount * new.pbs
  let s := if larger then refreshAliases (dropTlb ctx new.ebase pool (readOnlyPages ctx new.ebase pool s)) else s
  let s := modRegion ctx new.idx (fun r =>
    { r with
        gens := r.gens ++ [g], prev := if r.since = s.cycle then r.prev else r.cur, cur := n, since := s.cycle,
        ecount := new.ecount, vfy := new.vfy, lossy := new.lossy, walker := some 0 }) s
  { s with units := modIf (fun u => larger && u.ctx = ctx && u.region = new.idx) (fun u => { u with pinned := [] }) s.units }

def codecBindWork (ptes : List (Nat × BitVec 64)) : Service := fun ctx a _ view s =>
  if a % 16 ≠ 0 ∨ 2 ^ 56 ≤ a then .reject 2
  else svcRead view ctx a 96 s fun raw s =>
    let r := regionOfRecord raw
    let g := r.gens.headD default
    let c := s.ctx ctx
    let fits := fun (die : Nat) => decide (residents s die [(ctx, g.dec), (ctx, g.enc)] ≤ 64)
    if !recordOk raw then .reject 2
    else if !recordZeros raw then .reject 3
    else if !(programOk c r g.dec g.dsb false && programOk c r g.enc g.esb true) then .reject 2
    else match findRegion s ctx r.idx with
      | some old => match freeGen old with
        | none => .reject 2
        | some n =>
          let s' := mmWrite true ptes s
          if sameBinding old r && fits old.die && !tablesClash s' && backedOn s' old.die ctx r.ebase (r.ecount * r.pbs) then
            .ok r.idx none (rebind ctx n r s')
          else .reject 2
      | none =>
        let s' := mmWrite true ptes s
        if !tablesClash s' && newBindingOk s' ctx r && fits ((oneHome c r.base r.len).getD 0) then .ok r.idx none (firstBinding ctx r s') else .reject 2

def execCodecBind (src : SvcSource) (ptes : List (Nat × BitVec 64)) (s : State) : Result := serve src 2 (codecBindWork ptes) s

/-! ### CODEC_UNBIND (11 R219) -/

/-- Decodes blocks one after another, at class 3; the first that fails raises its fault against the context. -/
def decodeAll (ctx : Nat) (r : Region) : List Nat → State → Except State State
  | [], s => .ok s
  | k :: rest, s =>
    if (findUnit s ctx r.idx (r.unitOfBlk k)).any fun u => u.holds k then decodeAll ctx r rest s
    else match fillNow 3 ctx r k s with
      | .ok s' => decodeAll ctx r rest s'
      | .error e =>
        let (src, s) := engineSource r.die e.2
        .error (raiseContext src e.1.1 ctx (r.vaOf k) (codecExtra r k e.1.2.1 e.1.2.2) s)

/-- An index that names no bound region is rejected with 0x02 (DESIGN CHOICE, log 36). The decodes stop while the die of the region is
in an emergency (17 R266). -/
def codecUnbindWork (ptes : List (Nat × BitVec 64)) : Service := fun ctx a _ _ s =>
  if a / 16 ≠ 0 then .reject 3
  else match findRegion s ctx a with
    | none => .reject 2
    | some r =>
      if launchLeased s ctx r.base r.len then .reject 2
      else if (s.die r.die).emergency then .held
      else
      let s := writeBackUnits none ctx (fun x _ => x.idx = r.idx) s
      match decodeAll ctx ((findRegion s ctx a).getD r) (List.range r.blocks) s with
        | .error s' => .stuck s'
        | .ok s' =>
          let mine := fun (u : CUnit) => u.ctx = ctx && u.region = r.idx
          let s' := (s'.units.filter mine).foldl (fun s u => endFills ctx r u.unit s) s'
          let s' := removeLines (fun l => l.ctx = ctx && inRange r.base r.len l.addr) { s' with units := s'.units.filter fun u => !mine u }
          let s' := (pagesOf r.base r.len).foldl (fun s p => editLeaf ctx p (fun l => { l with cb := false, creg := 0 }) s) (mmWrite false ptes s')
          .ok 0 none (refreshAliases <| modCtx ctx (fun c => { c with regions := c.regions.filter (·.idx ≠ r.idx) }) (dropTlb ctx r.base r.len s'))

def execCodecUnbind (src : SvcSource) (ptes : List (Nat × BitVec 64)) (s : State) : Result := serve src 3 (codecUnbindWork ptes) s

/-! ### REGION_INFO (11 Table 11.3) -/

def infoRecord (r : Region) : List Byte :=
  leBytes 1 r.cur ++ leBytes 1 (maskOf (r.gens.map Gen.num)) ++ leBytes 2 0 ++ leBytes 4 r.escs.length ++ leBytes 4 r.inv ++
    leBytes 4 r.esc ++ leBytes 4 r.rep ++ List.replicate 12 0

/-- An index that names no bound region is rejected with 0x02 (DESIGN CHOICE, log 36). -/
def regionInfoWork : Service := fun ctx a va _ s =>
  if a / 16 ≠ 0 then .reject 3
  else match findRegion s ctx a with
    | none => .reject 2
    | some r => if va % 32 ≠ 0 ∨ 2 ^ 56 ≤ va then .reject 2
      else if deviceHeld s ctx va 32 then .held
      else match deviceBad s ctx va 32 with
        | some a => .poison a
        | none => .ok 0 (some va) (deviceWrite ctx va (infoRecord r) s)

def execRegionInfo (src : SvcSource) (s : State) : Result := serve src 4 regionInfoWork s

end Sys2Proof.Machine
end

