-- ==== Sys2Proof/Machine/Recovery.lean ====
section
/-!
DEFINITION. The stop of a halted partition, what the EH does, pre-emption, save records and restoring (13 R226-R245;
06 R153; 10 R200; 14 R247, R248).
-/

namespace Sys2Proof.Machine

open Sys2Proof

/-! ### What had issued takes its steps (13 R228) -/

/-- The thread's older stores become visible in an instance, HARD and POOL ones without another sharer (08 R163). -/
def widenOwn (b t op : Nat) (sc : Scope) (s : State) : State :=
  let k := instOf s b sc
  let mine := fun (x : Item) => ownItem b t x && decide (x.op < op) && !x.priv && x.vis != [] && (visStep s x k).isNone
  let gs := ((s.items.filter mine).filterMap Item.gran).eraseDups
  let s := gs.foldl (fun s g => dropSharers b sc (g * 16 / 2 ^ 56) (g * 16 % 2 ^ 56) s) s
  { s with items := s.items.map fun x => if mine x then { x with vis := x.vis ++ [(k, s.now)] } else x }

/-- An entry needs a pool line that only its link can bring: the line itself, for a store with its ownership. -/
def lineWaits (s : State) (b : Nat) (o : MemOp) : Bool :=
  o.isAccess && !o.scratch && !lostAt s (ctxOf s b) o.va && !poolReady s b o && !portUp s (portOf s (ctxOf s b) o.va)

/-- A dirty pool line in another die's cache that an item or an entry of a block reaches, which its link must bring home before
what it holds is recalled for a scope (15 R252). -/
def sharerHeld (s : State) (b : Nat) (sc : Scope) : Bool :=
  recallHeld s fun l => otherSharer b sc (ctxOf s b) l.addr s l &&
    ((s.items.any fun x => x.inLine l.ctx l.addr && x.thr.any fun t => t.1 = b) ||
      (s.block b).threads.any fun th => th.ops.any fun p => !p.scratch && lineAddr p.va = l.addr)

/-- An entry of a stop cannot take its step before its link is back or lost: a store without ownership or without a place for its
line, a release at `.sys` with dirty pool lines, a release from `.dev` on with another die's (15 R252, R262; DESIGN CHOICE, log
103). -/
def linkHeld (s : State) (b : Nat) (o : MemOp) : Bool :=
  let ctx := ctxOf s b
  let pool := (s.ctx ctx).pools.any fun p => decide (p.base ≤ o.va ∧ o.va < p.base + p.len)
  ((o.isStore || o.isAtomic) && !o.scratch && (lineWaits s b o || (pool && !mayHold s (.rdc ((s.block b).core / 40)) ctx o.va))) ||
    (o.rel = some .sys && s.lines.any fun l => l.ctx = ctx && l.coh = .pool && wroteBy s b l && !portUp s (portOf s l.ctx l.addr)) ||
    (o.rel.or (if o.isAtomic then some o.scp else none)).any (sharerHeld s b)

/-- A store of a stop waits for its unit: its fills stop, or pinned blocks leave it no room (17 R266; 01 R18; DESIGN CHOICE, log
103). -/
def unitHeld (s : State) (b : Nat) (o : MemOp) : Bool :=
  (o.isStore || o.isAtomic) && !o.scratch && (fillsStop s (s.launchOf b).cls (ctxOf s b) o.va 1 ||
    match touchRange (s.launchOf b).cls (ctxOf s b) o.va 1 s with
    | .error none => true
    | _ => false)

/-- A global access gets its line at once, or its fault; a load whose link is down, or whose fills stop but for an entry of Winter
(`now`), is cancelled. -/
def forceLine (now : Bool) (b t : Nat) (o : MemOp) (s : State) : Except State (MemOp × State) :=
  let ctx := ctxOf s b
  let walks := o.fill ≠ .done && (tlbLook s ctx o.va).isNone
  if lostAt s ctx o.va then .error (chargeLost b t o s)
  else if walks && walkBad s ctx o.va then .error (memoryError (ctlSource (ctlFor s ctx o.va)) b t o s)
  else match translate s ctx o.va with
    | .leaf l =>
      if !rightsOk o l.rd l.w then .error (chargeOp (coreSource (s.block b).core) 0x0C b t o id s)
      else if lineWaits s b o then .error (abandonOp b t o s)
      else if o.fill ≠ .done && poisonedVa s ctx (lineAddr o.va) 128 then .error (memoryError (ctlSource (ctlFor s ctx o.va)) b t o s)
      else if !now && !(o.isStore || o.isAtomic) && fillsStop s (s.launchOf b).cls ctx o.va 1 then .error (abandonOp b t o s)
      else match touchRange (s.launchOf b).cls ctx o.va 1 s with
        | .error none => if o.isStore || o.isAtomic then .ok ({ o with fill := .done, priv := l.coh = .priv }, s) else .error (abandonOp b t o s)
        | .error (some (r, e, s')) => .error (match joinedFill s ctx r e.2.2.2 with
          | some f => abandonOp b t o (failUnit ctx r f.blk f e.1 e.2.1 s')
          | none => decodeFault r e.2.2.2 e.1 e.2.1 e.2.2.1 ⟨some (b, t, o.id)⟩ s')
        | .ok s =>
          let s := if o.isStore || o.isAtomic then poolLine ((s.block b).core / 40) ctx o.va l (fun _ s => s) s else s
          .ok ({ o with fill := .done, priv := l.coh = .priv }, s)
    | _ => .error (chargeOp (ctlSource (ctlFor s ctx o.va)) 0x0E b t o id s)

/-- One entry takes its step, after what its order requires. -/
def forceStep (b t : Nat) (o : MemOp) (s : State) : State :=
  let s := match o.rel with
    | some sc => widenOwn b t o.id sc (sendPool b o s)
    | none => s
  match o.kind with
  | .atomic a => if o.scratch then atomScratch a b t o s else atomGlobal a b t o (widenOwn b t o.id o.scp s)
  | .load | .copyRead _ _ =>
    let seen := fun (x : Item) => x.gran = some o.source && aliasSees s b x
    if o.scratch then satisfyScratch b t o s.now s
    else if o.alias_ then satisfyGlobal b t o (max (newestFrom seen 0 s.items 0) (floorAt s b o.gran s.now)) s.now s
    else satisfyGlobal b t o (max (newestIn s o.source (.blk b) s.now) (floorAt s b o.gran s.now)) s.now s
  | _ => takeStep b t o s

/-- An entry at the stop: a load completes where the plan says so, or is cancelled, as an `LDS.w` or `LDS.wc` of an EMPTY granule
is; everything else takes its step. -/
def stopEntry (now : Bool) (plan : StopPlan) (e : Nat × Nat × Nat) (s : State) : State :=
  let (b, t, op) := e
  match findOp s b t op with
  | none => s
  | some o =>
    let read := o.kind = .load || match o.kind with
      | .copyRead _ _ => true
      | _ => false
    match o.tag with
    | .bar _ => dropOp b t op s
    | _ =>
      if releaseLost s b t o then takeFault (threadRec s b 0x18 [t] o.pc o.va) (abandonOp b t o s) else
      if read && !plan.loads.contains e then
        (match o.kind with
         | .copyRead _ _ => dropOp b t op s
         | _ => abandonOp b t o s)
      else if o.scratch && o.kind = .load && o.tag != .none then
        (if bitThere s b t o then
          (satisfyTogether b ((clearGroup s b t o).filter fun x => plan.loads.contains (b, x.1, x.2.id)) o s.now s).tickNow
         else abandonOp b t o s)
      else if o.scratch || !o.isAccess then (dropOp b t op (forceStep b t o s)).tickNow
      else match forceLine now b t o s with
        | .error s => s
        | .ok (o, s) => (dropOp b t op (forceStep b t o s)).tickNow

/-- The entries of blocks in the order of their issue: by cycle, sub-core, issue of the block, home lane, number (01 R17; 18
R317). -/
def entriesIn (s : State) (bs : List Nat) : List (Nat × Nat × Nat) :=
  let key := fun (e : Nat × Nat × MemOp) => [e.2.2.cyc, e.2.2.sub, e.2.2.iss, homeLane (s.launchOf e.1) e.2.1, e.2.2.id]
  let es := bs.flatMap fun b => (tidsOf (s.block b)).flatMap fun t => (s.thread b t).ops.map fun o => (b, t, o)
  (sortBy (fun x y => decide (key x ≤ key y)) es).map fun e => (e.1, e.2.1, e.2.2.id)

def entriesOf (s : State) (b : Nat) : List (Nat × Nat × Nat) := entriesIn s [b]

/-- Each producer in turn completes, or its destination is ABANDONED: no register stays EMPTY. -/
def settleProds (b t : Nat) (s : State) : State :=
  ((s.thread b t).prods.map Prod.id).foldl (fun s id => match (s.thread b t).prods.find? (·.id = id) with
  | none => s
  | some p => match prodWords s b t p with
    | some (ws, fl) => modThread b t (finishProd p ws fl) s
    | none => modThread b t (abandonProd p.id) s) s

/-- Arrivals at barriers, cross-lane instructions, tokens and services are discarded: the threads stand at their
instruction and arrive again (13 R228). So is a `TCOPY` that the limit of 16 copies holds: it reads its descriptor again when it
issues again (DESIGN CHOICE, log 110). -/
def discardArrivals (b : Nat) (s : State) : State :=
  sweepSlots b s |> modBlock b fun k => { k with
    bars := k.bars.map fun _ => []
    tiles := k.tiles.map fun t => { t with reqs := [] }
    threads := k.threads.map fun th => match th.st with
      | .held => th
      | .exited => th
      | _ => { th with st := .ready, ops := th.ops.filter fun o => match o.tag with
          | .bar _ => false
          | _ => true } }

/-! ### The copy engine (10 R200) -/

/-- Completes the copies whose reads have returned, and cancels the others, one whose read faulted among them: their
granules stay EMPTY, their counts raised. -/
def stopCopies (b : Nat) (s : State) : State :=
  (s.block b).copies.foldl (fun s c =>
    let toScratch := c.desc = [] || (tdescOf c.desc).any fun d => d.dir = 0
    if c.readyToLand && toScratch then landCopy b c s
    else modBlock b (fun k => { k with copies := modIf (fun x => x.id = c.id && x.tid = c.tid) (fun x => { x with cancelled := true, dead := false, got := [], asked := false }) k.copies }) s) s

/-- The reads of a copy: address and size of each. -/
def copyReads (c : Copy) : List (Nat × Nat) :=
  if c.desc = [] then (pieces c.n).map fun p => (c.src + p.1, p.2)
  else match tdescOf c.desc with
    | some d => if d.dir = 0 then d.elements.map fun e => (e.2, d.esize) else []
    | none => []

/-- A cancelled copy is issued again (10 R200), its reads with the taint of its address (09 R192). -/
def reissueCopy (b : Nat) (c : Copy) (s : State) : State :=
  let s := modBlock b (fun k => { k with copies := modIf (fun x => x.id = c.id && x.tid = c.tid) (fun x => { x with cancelled := false, got := [], box := none }) k.copies }) s
  let rs := copyReads c
  (List.range rs.length).foldl (fun s e =>
    let r := rs.getD e (0, 0)
    let k := s.block b
    let o := { globalOp s b c.tid (.copyRead c.id e) r.1 r.2 with
      pc := c.pc, taint := c.taint, cyc := s.coreCycle k.core, sub := subOf k (s.thread b c.tid).pwave }
    modThread b c.tid (pushOp o) s) s

def reissueCopies (b : Nat) (s : State) : State :=
  ((s.block b).copies.filter Copy.cancelled).foldl (fun s c => reissueCopy b c s) s

/-! ### PARTITION_STOP (13 R226-R232) -/

/-- The placed blocks of a context on the cores of a partition. -/
def partBlocks (s : State) (p : Partition) : List Nat :=
  (List.range s.blocks.length).filter fun b =>
    (s.block b).status = .placed && p.cores.contains (s.block b).core && p.ctx = some (ctxOf s b)

/-- The engines of a partition that hold work of its context: cores, matrix engines, copy engines. -/
def busyEngines (s : State) (p : Partition) : List Nat :=
  let bs := partBlocks s p
  p.cores.flatMap fun c =>
    let here := bs.filter fun b => (s.block b).core = c
    let src := fun (kind : Nat) => sourceCode kind (c / 40) (c % 40)
    (if here = [] then [] else [src 0]) ++
    (if (s.core c).mq.any (fun i => here.contains i.block) then [src 1] else []) ++
    (if here.any (fun b => (s.block b).copies != []) then [src 2] else [])

/-- Records of a stop: cause 0x00, naming the record that raised the halt. -/
def stopRecords (ctx : Nat) (srcs : List Nat) (seq from_ : Nat) (s : State) : State :=
  (srcs.filter (· ≠ from_)).foldl (fun s src =>
    (writeRecord { StopRec.base with source := src, ctx := ctx, causeSeq := seq } s).2) s

/-- The matrix engine's current instance completes, or aborts with its tile unchanged. -/
def stopMatrix (plan : StopPlan) (core : Nat) (s : State) : State :=
  if plan.cores.contains core then
    match (s.core core).mq with
    | i :: _ => if i.cap.isSome then completeInst core i s else s
    | [] => s
  else s

/-- The stop waits for a link or for a unit (log 103). -/
def stopHeld (s : State) (bs : List Nat) : Bool :=
  bs.any fun b => (entriesOf s b).any fun e => (findOp s e.1 e.2.1 e.2.2).any fun o => linkHeld s b o || unitHeld s b o

/-- PARTITION_STOP. -/
def execPartitionStop (p : Nat) (plan : StopPlan) (s : State) : Result :=
  match s.parts[p]? with
  | none => .next s
  | some x => match x.halt, x.ctx with
    | some (_, seq, src), some ctx =>
      if x.stopped || stopHeld s (partBlocks s x) then .next s
      else
        let bs := partBlocks s x
        let engines := busyEngines s x
        let s := (entriesIn s bs).foldl (fun s e => stopEntry false plan e s) s
        let s := x.cores.foldl (fun s c => stopMatrix plan c s) s
        let s := bs.foldl (fun s b => stopCopies b s) s
        let s := bs.foldl (fun s b => discardArrivals b ((tidsOf (s.block b)).foldl (fun s t => settleProds b t s) s)) s
        let s := cancelDecodes ctx s
        .next (stopRecords ctx engines seq src (modPart p (fun y => { y with stopped := true }) s)).tickNow
    | _, _ => .next s

/-! ### The EH (13 R228, R229) -/

/-- The context is halted and every partition that runs it has stopped. -/
def atEh (s : State) (ctx : Nat) : Bool :=
  (s.ctx ctx).halted && s.parts.all fun p => p.ctx ≠ some ctx || p.stopped

/-- A live launch of the context was charged with 0x0B: it is never resumed (03 R65). -/
def leaseBroken (s : State) (ctx : Nat) : Bool :=
  (recordsOf s ctx).any fun r => fieldN r 2 1 = 0x0B && !(fieldN r 3 1).testBit 2 && (s.launch (fieldN r 0x18 4)).live

/-- EH_RESUME_CONTEXT. -/
def execEhResumeContext (ctx : Nat) (s : State) : Result :=
  if atEh s ctx && !(s.ctx ctx).killed && !leaseBroken s ctx then
    let s := resumeCtx ctx s
    .next ((List.range s.blocks.length).foldl (fun s b =>
      if (s.block b).status = .placed && ctxOf s b = ctx then reissueCopies b s else s) s)
  else .next s

/-- The blocks of a launch end: none of them counts as retired. -/
def endBlocks (l : Nat) (s : State) : State :=
  let bs := blocksOf s l
  let s := bs.foldl (fun s b => modBlock b (fun k => { k with
    status := .retired, copies := [], log := [], held := [], threads := k.threads.map fun th => { th with st := .exited, ops := [], prods := [] } }) s) s
  { s with
      cores := s.cores.map fun c => { c with mq := c.mq.filter fun i => !bs.contains i.block }
      ctxs := s.ctxs.map fun c => { c with saves := c.saves.filter fun e => !bs.contains e.1 } }

/-- A launch is killed and writes its completion record (13 R228). -/
def killLaunch (l : Nat) (s : State) : State :=
  if (s.launch l).live && decide (l < s.launches.length) then
    let s := modLaunch l (fun x => { x with killed := true, tree := 0 }) (trimSpawn (endBlocks l s))
    if (s.launch l).stage = .running && widenStops s l then s else
    let s := if (s.launch l).stage = .running then widenLaunch l s else s
    if poolWaits s l || recordHeld s (s.launch l).q (s.launch l).ctx (s.launch l).record then s else (finishLaunch l (statusOf (s.launch l).cause true) s).tickNow
  else s

/-- EH_KILL_LAUNCH. -/
def execEhKillLaunch (l : Nat) (s : State) : Result :=
  if atEh s (s.launch l).ctx then .next (killLaunch l s) else .next s

/-- EH_KILL_CONTEXT: its unfinished launches and COPY packets are killed, its pinned codec blocks leave the L2. -/
def execEhKillContext (ctx : Nat) (s : State) : Result :=
  if atEh s ctx && !(s.ctx ctx).killed then
    let s := modCtx ctx (fun c => { c with killed := true }) s
    let s := (List.range s.launches.length).foldl (fun s l => if (s.launch l).ctx = ctx then killLaunch l s else s) s
    let s := (List.range s.xfers.length).foldl (fun s c =>
      let x := s.xfers.getD c default
      if x.ctx = ctx && !x.done then
        let s := modXfer c (fun x => { x with killed := true }) s
        if recordHeld s x.q x.ctx x.record then s else endCopy c s
      else s) s
    .next { s with units := s.units.filter fun u => u.ctx ≠ ctx || u.pinned = [] }
  else .next s

/-! ### Pre-emption (13 R234-R236; 14 R247, R248) -/

/-- `.expect`: the header word before a block's own entry (04 R113). -/
def expectOf (s : State) (b : Nat) : Nat := leNat (sysRead s (ctxOf s b) ((s.block b).entry.toNat - 8) 4)

/-- P needs the header word of a block: where the MM does not know the issues of blocks that have retired (13 R234). -/
def needsHead (s : State) (b : Nat) : Bool := (s.launchOf b).counts = []

/-- The address of the header word. -/
def headAt (s : State) (b : Nat) : Nat := (s.block b).entry.toNat - 8

/-- P, as numerator and denominator. -/
def progress (s : State) (b : Nat) : Nat × Nat :=
  let n := (s.block b).issues
  let done := (s.launchOf b).counts
  if done ≠ [] then (n * done.length, done.foldl (· + ·) 0)
  else if expectOf s b ≠ 0 then (n, expectOf s b) else (0, 1)

/-- The method of one block, for thresholds in units of 1/256. -/
def methodOf (s : State) (d f b : Nat) : PMethod :=
  let (n, m) := progress s b
  if d * m ≤ 256 * n then .drain
  else if (s.launchOf b).idem && decide (256 * n ≤ f * m) && !(s.block b).spawned && !(s.block b).released then .flush
  else .save

/-- The method of a span: the one its members share, else save. -/
def spanMethod (s : State) (d f : Nat) (bs : List Nat) : PMethod :=
  if bs.all fun b => methodOf s d f b = .drain then .drain
  else if bs.all fun b => methodOf s d f b = .flush then .flush else .save

/-- A flushed block returns to the front end as not yet placed; what it has performed is older than all that it will do. -/
def flushBlock (b : Nat) (s : State) : State :=
  let k := s.block b
  let s := (List.range k.waves.length).foldl (fun s w => dropOwner b w s) s
  let s := modCore k.core (fun c => { c with mq := c.mq.filter fun i => i.block ≠ b }) s
  let s := { s with items := modIf (fun x => x.thr.any fun t => t.1 = b) (fun x => { x with op := 0 }) s.items }
  let s := dropRequests b s
  modBlock b (fun k =>
    { newBlock k.launch k.index k.ntid k.entry k.arg s.cycle k.acqDone k.acqFrom with sysAcq := k.sysAcq }) s

def preemptSpan (d f : Nat) (bs : List Nat) (s : State) : State :=
  match spanMethod s d f bs with
  | .flush => bs.foldl (fun s b => flushBlock b s) s
  | m => bs.foldl (fun s b => modBlock b (fun k => { k with method := m }) s) s

/-- PREEMPTION_REQUEST, with thresholds D and F in units of 1/256. A retirement in the same cycle wins (03 R82). A header word in
poisoned memory raises 0x1A against the context, and the request does nothing more (13 R246; DESIGN CHOICE, log 118). -/
def execPreemptionRequest (p d f : Nat) (s : State) : Result :=
  match s.parts[p]? with
  | none => .next s
  | some x =>
    if x.halt.isSome || x.preempt.isSome || x.ctx.isNone || 256 < d || 256 < f then .next s
    else
      let s := (partBlocks s x).foldl (fun s b => if mayRetire s b then retire b s else s) s
      let heads := (partBlocks s x).filter (needsHead s)
      if heads.any fun b => deviceHeld s (ctxOf s b) (headAt s b) 4 then .next s
      else match heads.findSome? fun b => deviceBad s (ctxOf s b) (headAt s b) 4 with
      | some a => .next (raiseDevice (x.ctx.getD 0) a s)
      | none =>
      let s := heads.foldl (fun s b => deviceTouch (ctxOf s b) (headAt s b) 4 s) s
      let spans := ((partBlocks s x).map fun b => spanBlocks s b).eraseDups
      .next (spans.foldl (fun s bs => preemptSpan d f bs s) (modPart p (fun y => { y with preempt := some (d, f, s.cycle) }) s))

/-- A drain has not ended 200 µs (450,000 cycles) after its request. -/
def drainDue (s : State) (p : Nat) : Bool :=
  match s.parts[p]? with
  | none => false
  | some x => match x.preempt with
    | none => false
    | some (_, _, c) => decide (c + 450000 ≤ s.cycle) && (partBlocks s x).any fun b => (s.block b).method = .drain

/-- DRAIN_TIMEOUT: what has not retired is saved, as the span's remnant. -/
def execDrainTimeout (p : Nat) (s : State) : Result :=
  if drainDue s p then
    let x := s.parts.getD p default
    .next ((partBlocks s x).foldl (fun s b => modBlock b (fun k => { k with method := if k.method = .drain then .save else k.method }) s) s)
  else .next s

/-! ### The save record (13 R238, R239) -/

/-- Pads to a multiple of 64 bytes. -/
def pad64 (l : List Byte) : List Byte := l ++ List.replicate ((64 - l.length % 64) % 64) 0

/-- The thread of a home lane, for lanes that are threads. -/
def laneOf (s : State) (b w i : Nat) : Option Thread :=
  if i < (s.launchOf b).lanes then laneThread s b w i else none

/-- 0 issuable or waiting, 1 held, 2 helper, 3 absent. -/
def laneState (s : State) (b w i : Nat) : Nat :=
  let living := fun (j : Nat) => (laneOf s b w j).any Thread.alive
  match (laneOf s b w i).filter Thread.alive with
  | some th => if th.st = .held then 1 else 0
  | none => if (List.range 4).any fun j => living (i / 4 * 4 + j) then 2 else 3

def waveControl (s : State) (b w : Nat) : List Byte :=
  let lanes := List.range 32
  let v := (s.block b).waves.getD w default
  let on := fun (g : Thread → Nat) (i : Nat) => if laneState s b w i = 3 then 0 else match laneOf s b w i with
    | some th => g th
    | none => 0
  let body :=
    (lanes.flatMap fun i => leBytes 8 (on (fun th => th.pc.toNat) i)) ++
    (lanes.flatMap fun i => leBytes 8 (on (fun th => th.mt.toNat) i)) ++
    (v.slots.flatMap fun e => leBytes 8 e.1.toNat ++ leBytes 4 e.2.toNat ++ leBytes 4 0) ++
    (lanes.flatMap fun i => leBytes 2 (on (fun th => th.vals.preds.toNat / 2 * 2) i)) ++
    (lanes.flatMap fun i => leBytes 1 (on (fun th => th.flags.toNat * 8 + th.rm.toNat) i)) ++
    (lanes.flatMap fun i => leBytes 1 (laneState s b w i)) ++
    leBytes 4 v.accBase.toNat ++ leBytes 4 v.accLim.toNat ++ leBytes 4 v.wtim.toNat ++ leBytes 4 v.wtlim.toNat ++
    leBytes 2 v.declared ++ leBytes 2 v.measured ++ leBytes 4 0 ++ (v.tags.flatMap fun t => leBytes 2 t.toNat)
  takePad 1024 0 body

/-- A register of a home wave: value, ABANDONED and taint of each of 32 lanes; absent lanes are zero. -/
def regLanes (s : State) (b w n : Nat) : List Reg :=
  (List.range 32).map fun i => if laneState s b w i = 3 then initReg 0 else match laneOf s b w i with
    | some th => th.vals.get n
    | none => initReg 0

/-- One entry of the compressor: the first kind whose test every lane passes. -/
def regEntry (l : List Reg) : List Byte :=
  let vs := l.map Reg.val
  let v := fun (i : Nat) => vs.getD i 0
  let all := fun (p : Nat → Bool) => (List.range 32).all p
  let step := v 1 - v 0
  let (kind, payload) :=
    if all fun i => v i = v 0 then (0, leBytes 4 (v 0).toNat)
    else if all fun i => v i = v 0 + BitVec.ofNat 32 i * step then (1, leBytes 4 (v 0).toNat ++ leBytes 4 step.toNat)
    else if all fun i => ((v i).setWidth 8).signExtend 32 = v i then (2, vs.flatMap fun x => leBytes 1 x.toNat)
    else if all fun i => ((v i).setWidth 16).signExtend 32 = v i then (3, vs.flatMap fun x => leBytes 2 x.toNat)
    else (4, vs.flatMap fun x => leBytes 4 x.toNat)
  let gone := maskOf ((List.range 32).filter fun i => (l.getD i default).av = .abandoned)
  let taint := maskOf ((List.range 32).filter fun i => (l.getD i default).taint)
  if (l.all fun r => r.av = .full) && (taint = 0 || taint = 2 ^ 32 - 1) then
    leBytes 1 (kind + if taint = 0 then 0 else 16) ++ payload
  else leBytes 1 (kind + 8) ++ payload ++ leBytes 4 gone ++ leBytes 4 taint

def regSection (s : State) (b w : Nat) : List Byte :=
  pad64 ((List.range ((s.launchOf b).regs - 1)).flatMap fun n => regEntry (regLanes s b w (n + 1)))

def scratchSection (s : State) (b : Nat) : List Byte :=
  let n := (s.launchOf b).scratch
  let bits := (List.range (n / 128)).map fun i =>
    BitVec.ofNat 8 (maskOf ((List.range 8).filter fun j => sget true (8 * i + j) (s.block b).fe))
  pad64 (memRead (s.block b).scratch 0 n ++ bits)

def accSection (s : State) (b : Nat) : List Byte :=
  let ts := (s.block b).tiles
  (ts.flatMap fun t => (List.range 8192).flatMap fun c => leBytes 4 (sget 0 c t.cells).toNat) ++
  takePad 64 0 (ts.map fun t => BitVec.ofNat 8 (t.owner.getD 0xFF))

/-- The sections whose layout is not stated: free bytes (log 7). A cancelled lane transfer takes 16 bytes, a tensor copy
its descriptor and 16 more. -/
def freeSections (s : State) (b : Nat) : List Byte × State :=
  let (n, s) := s.fresh
  let (m, s) := s.fresh
  let cs := (s.block b).copies.filter Copy.cancelled
  (pad64 (Config.saveSection n) ++
    pad64 ((List.range cs.length).flatMap fun i =>
      let c := cs.getD i default
      c.desc ++ takePad 16 0 ((Config.saveSection m).drop (16 * i))), s)

def saveHeader (s : State) (b total : Nat) : List Byte :=
  let k := s.block b
  let l := s.launchOf b
  let flags := (if l.compact then 1 else 0) + (if l.redundant then 2 else 0) + (if k.ckpt.isSome then 4 else 0)
  takePad 64 0 (leBytes 2 1 ++ leBytes 2 l.ctx ++ leBytes 4 k.launch ++ leBytes 4 k.index ++ leBytes 1 l.span ++
    leBytes 1 (sposOf l k.index) ++ leBytes 2 k.ntid ++ leBytes 2 l.regs ++ leBytes 1 k.waves.length ++ leBytes 1 flags ++ leBytes 4 total)

def saveRecord (s : State) (b : Nat) : List Byte × State :=
  let ws := List.range (s.block b).waves.length
  let (free, s) := freeSections s b
  let body := ws.flatMap (waveControl s b) ++ ws.flatMap (regSection s b) ++ scratchSection s b ++ accSection s b ++ free
  (saveHeader s b (64 + body.length) ++ body, s)

/-- The save area's first address past the records in it (log 13). -/
def saveAddr (c : Context) : Nat := (c.saves.map fun e => e.2.1 + e.2.2.length).foldl max c.spec.saveArea

/-- The block is written to the save area and leaves its core. -/
def saveBlock (b : Nat) (s : State) : State :=
  let ctx := ctxOf s b
  let core := (s.block b).core
  let s := captureSaved core b s
  let (bytes, s) := saveRecord s b
  let at_ := saveAddr (s.ctx ctx)
  let s := { s with pmem := memWrite s.pmem at_ bytes }
  let s := modCtx ctx (fun c => { c with saves := c.saves ++ [(b, at_, bytes)] }) s
  let mine := (s.core core).mq.filter fun i => i.block = b
  let s := modCore core (fun c => { c with mq := c.mq.filter fun i => i.block ≠ b }) s
  modBlock b (fun k => { k with status := .saved, method := .none, held := mine }) s

/-- A stopped block whose work in flight has ended. -/
def maySave (s : State) (b : Nat) : Bool :=
  let k := s.block b
  k.status = .placed && k.method = .save && k.copies = [] && !(s.ctx (ctxOf s b)).halted &&
    k.threads.all fun th => th.ops.all (fun o => match o.tag with
      | .bar _ => true
      | _ => false) && th.prods = []

/-- BLOCK_SAVE. -/
def execBlockSave (b : Nat) (s : State) : Result :=
  if maySave s b then .next (saveBlock b (discardArrivals b s)) else .next s

/-! ### Restoring (13 R240, R241) -/

/-- A saved block on its new core: places are the home positions again, the waves are pending. -/
def restoreBlock (core f cycle : Nat) (l : Launch) (k : Block) : Block :=
  { k with
      status := .placed, core := core, f := f % 4, method := .none, held := [],
      pwaves := List.replicate k.waves.length (initPWave cycle),
      threads := (List.range k.threads.length).map fun t =>
        let th := k.threads.getD t default
        { th with pwave := homeWave l t, slot := homeLane l t, shadow := th.shadow.map fun _ => th.vals, stamp := 0 },
      waves := k.waves.map fun w => { w with hit := w.wtlim ≠ 0 && w.wtim = w.wtlim } }

/-- One block returns, with its closed instances; its cancelled copies are issued again, those of a halted context when the EH
resumes it (10 R200). -/
def restoreOne (b core f : Nat) (s : State) : State :=
  let held := (s.block b).held
  let s := modBlock b (restoreBlock core f (s.coreCycle core) (s.launchOf b)) s
  let s := modCore core (fun c => { c with mq := c.mq ++ held.map fun i => { i with closed := 0, capAt := 0 } }) s
  let s := modCtx (ctxOf s b) (fun c => { c with saves := c.saves.filter fun e => e.1 ≠ b }) s
  if (s.ctx (ctxOf s b)).halted then s else reissueCopies b s

/-- A poisoned line that holds the save record of a block (13 R246). -/
def recordBad (s : State) (b : Nat) : Option Nat :=
  ((s.ctx (ctxOf s b)).saves.find? fun e => e.1 = b).bind fun e =>
    ((List.range ((e.2.1 % 128 + e.2.2.length + 127) / 128)).map fun i => e.2.1 / 128 * 128 + 128 * i).find? fun a => s.plat.poison.contains a

/-- Fault 0x1A of the read of a save record at a physical address, charged to the context; the block stays saved (DESIGN CHOICE,
log 118). -/
def raiseRecord (b a : Nat) (s : State) : State := raiseContext (ctlSource (ctlOf s a)) 0x1A (ctxOf s b) a id s

/-- CONTEXT_RESTORE: a saved span, or the remnant of one, returns whole to one die. It is held neither to a reserved die nor to an
order of indexes (DESIGN CHOICE, log 112). -/
def execContextRestore (b : Nat) (places : List (Nat × Nat)) (s : State) : Result :=
  let bs := spanBlocks s b
  let ctx := ctxOf s b
  if decide (bs.length = places.length) && bs.head? = some b && bs.all (fun c => (s.block c).status = .saved) &&
      !(s.ctx ctx).halted && s.plat.winter = .running && placesOk s ctx places && placesFit s bs places then
    .next (match bs.find? fun c => (recordBad s c).isSome with
      | some c => raiseRecord c ((recordBad s c).getD 0) s
      | none => (bs.zip places).foldl (fun s e => restoreOne e.1 e.2.1 e.2.2 s) s)
  else .next s

/-! ### Timing detectors (13 R245) -/

/-- TIMING_REPLAY: the replay is counted. -/
def execTimingReplay (core : Nat) (s : State) : Result := .next (modCore core (fun c => { c with replays := c.replays + 1 }) s)

end Sys2Proof.Machine
end

