-- ==== Sys2Proof/Machine/Pool.lean ====
section
/-!
DEFINITION. The pool tier: back-invalidation, link loss and salvage, revalidation, attaching (15 R249-R262).
-/

namespace Sys2Proof.Machine

open Sys2Proof

/-! ### Back-invalidation (15 R253, R254) -/

/-- One die's remote-data cache acts on a line. -/
def snoopDie (op : SnoopOp) (ctx va : Nat) (s : State) (d : Nat) : State :=
  match hasLine s (.rdc d) ctx va with
  | none => s
  | some l =>
    let s := reachDevice l s
    let clean := { l with dirty := false, wb := false }
    let put := fun (l' : Line) => { s with lines := s.lines.map fun x => if x = l then l' else x }
    match op with
    | .inv => dropLine clean (put clean)
    | .data => put { clean with owned := false }
    | .cur => put clean

def snoopLine (op : SnoopOp) (port : Nat) (s : State) (hpa : Nat) : State :=
  match reverseMap s port hpa with
  | none => s
  | some (ctx, va) => (List.range 4).foldl (snoopDie op ctx va) s

/-- The bytes of a peer's store that lie in the lines it asked for: offset, byte. -/
def snoopBytes (sn : Snoop) : List (Nat × Byte) := sn.store.filter fun e => decide ((sn.hpa + e.1) / 128 < sn.hpa / 128 + sn.lines)

/-- Those in mapped pages: key, byte. -/
def peerBytes (s : State) (sn : Snoop) : List (Nat × Byte) :=
  (snoopBytes sn).filterMap fun e => (reverseMap s sn.port (sn.hpa + e.1)).map fun a => (a.1 * 2 ^ 56 + a.2, e.2)

/-- A peer's store takes its perform step at `.pool`, and with it at `.sys`: the device has it, in pages that this module does not map
too (15 R254). -/
def peerStore (sn : Snoop) (s : State) : State :=
  let other := ((snoopBytes sn).filter fun e => (reverseMap s sn.port (sn.hpa + e.1)).isNone).map fun e => (sn.port, sn.hpa + e.1, e.2)
  peerItems (peerBytes s sn) (keepPeers other s)

/-- BACK_INVALIDATION_SNOOP: every line is done, then the BIRsp is sent, then the peer's store that asked for `BISnpInv`
performs. -/
def execBackInvalidationSnoop (sn : Snoop) (s : State) : Result :=
  if portUp s sn.port then
    let s := ((List.range sn.lines).map fun i => sn.hpa / 128 * 128 + 128 * i).foldl (snoopLine sn.op sn.port) s
    let s := reply (.birsp sn.port sn.hpa) s
    .next (if sn.op = .inv then peerStore sn s else s).tickNow
  else .next s

/-! ### Link loss (15 R255-R258, R260, R262) -/

def modPort (p : Nat) (f : Port → Port) (s : State) : State := { s with ports := modAt f p s.ports }

def inPool (p : PoolRegion) (va : Nat) : Bool := decide (p.base ≤ va ∧ va < p.base + p.len)

/-- The regions that a loss of the port affects, those whose decoder names it: context, region. A region that was LOST already
keeps its record. -/
def regionsBehind (s : State) (port : Nat) : List (Nat × PoolRegion) :=
  s.ctxs.flatMap fun c => (c.pools.filter fun p => p.portNow s = port && !p.lost).map fun p => (c.spec.num, p)

/-- The dirty lines of a region in the remote-data caches, in ascending virtual address. -/
def dirtyPool (s : State) (ctx : Nat) (p : PoolRegion) : List Line :=
  let mine := s.lines.filter fun l => l.ctx = ctx && inPool p l.addr && l.dirty && match l.place with
    | .rdc _ => true
    | _ => false
  sortBy (fun a b => decide (a.addr ≤ b.addr)) mine

/-- The entries of a context that reach into a region: block, thread, entry. -/
def flightsTo (s : State) (ctx : Nat) (p : PoolRegion) : List (Nat × Nat × MemOp) :=
  (List.range s.blocks.length).flatMap fun b =>
    if ctxOf s b = ctx then (tidsOf (s.block b)).flatMap fun t =>
      ((s.thread b t).ops.filter fun o => o.isAccess && !o.scratch && inPool p o.va).map fun o => (b, t, o)
    else []

/-- A salvage entry (15 Table 15.2): address and STATE. -/
def salvageEntry (fs : List (Nat × Nat × MemOp)) (l : Line) : List Byte :=
  let stored := fs.any fun f => f.2.2.isStore && lineAddr f.2.2.va = l.addr
  leBytes 8 l.addr ++ leBytes 4 (l.owned.toNat + 2 * stored.toNat) ++ leBytes 4 0

/-- Step 3: the dirty lines go to the salvage area, at most 8,192, and every copy leaves the caches. A line whose write
to the device was in progress raises 0x18 against its record (15 R262). With the number of the lines. -/
def salvage (port ctx : Nat) (p : PoolRegion) (s : State) : Nat × State :=
  let ls := dirtyPool s ctx p
  let kept := ls.take 8192
  let fs := flightsTo s ctx p
  let entries := kept.flatMap (salvageEntry fs)
  let data := kept.flatMap fun l => newestRead s ctx l.addr 128
  let s := sysWrite ctx (p.salvage + 0x20040) data (sysWrite ctx (p.salvage + 0x40) entries s)
  let s := removeLines (fun l => l.ctx = ctx && inPool p l.addr) s
  (ls.length, (ls.filter Line.wb).foldl (fun s l => match l.srec with
    | some r => raiseStore (portSource port) 0x18 ctx r r.addr id s
    | none => s) s)

/-- The loss record of a region (15 Table 15.2). -/
def lossRecord (port ctx : Nat) (p : PoolRegion) (dirty seq : Nat) : List Byte :=
  leBytes 2 port ++ leBytes 2 ctx ++ leBytes 4 (min dirty 8192) ++ leBytes 8 p.base ++ leBytes 8 (p.len / 2 ^ 16) ++
    leBytes 4 (dirty - 8192) ++ leBytes 4 0 ++ leBytes 8 seq ++ List.replicate 24 0

/-- Step 5 for one context: the records of its regions, then its loss event. -/
def loseContext (port : Nat) (rs : List (Nat × PoolRegion × Nat)) (s : State) (ctx : Nat) : State :=
  let (seq, s) := nextSeq s (portSource port)
  let s := (rs.filter fun r => r.1 = ctx).foldl (fun s r => sysWrite ctx r.2.1.salvage (lossRecord port ctx r.2.1 r.2.2 seq) s) s
  logAs (portSource port) seq 0 .loss [ctx, port] s

/-- A port declares its link lost. Where regions overlap, a line goes to the first of them (DESIGN CHOICE, log 79). -/
def loseLink (port : Nat) (s : State) : State :=
  let rs := regionsBehind s port
  let s := modPort port (fun p => { p with up := false, recovering := false, lost := true }) s
  let mark := fun (p : PoolRegion) => if p.portNow s = port then { p with lost := true } else p
  let s := { s with ctxs := s.ctxs.map fun c => { c with pools := c.pools.map mark } }
  let (counts, s) := rs.foldl (fun (a : List (Nat × PoolRegion × Nat) × State) r =>
    let x := salvage port r.1 r.2 a.2
    (a.1 ++ [(r.1, r.2, x.1)], x.2)) ([], s)
  let s := rs.foldl (fun s r => (flightsTo s r.1 r.2).foldl (fun s f => match findOp s f.1 f.2.1 f.2.2.id with
    | some o => chargeLost f.1 f.2.1 o s
    | none => s) s) s
  let s := modCtl 24 (fun c => { c with reqs := c.reqs.filter fun r => !(decoderOf s r.pa).any fun d => d.port = port }) s
  ((counts.map Prod.fst).eraseDups).foldl (loseContext port counts) s

/-- LINK_EXIT_L0: recovery starts. -/
def execLinkExitL0 (port : Nat) (s : State) : Result :=
  .next (modPort port (fun p => if p.up then { p with up := false, recovering := true } else p) s)

/-- LINK_RETURN_TO_L0: LOST regions stay LOST (15 R259). -/
def execLinkReturnToL0 (port : Nat) (s : State) : Result :=
  .next (modPort port (fun p => if p.attached then { p with up := true, recovering := false, lost := false } else p) s)

/-- LINK_RECOVERY_TIMEOUT: the link has not come back within 1 ms. -/
def execLinkRecoveryTimeout (port : Nat) (s : State) : Result :=
  .next (if (s.ports.getD port default).recovering then (loseLink port s).tickNow else s)

/-- A CXL.mem request is outstanding on a port: a queued request, a write-back in progress, a store that waits for the
ownership of its line. -/
def poolBusy (s : State) (port : Nat) : Bool :=
  ((s.ctl 24).reqs.any fun r => (decoderOf s r.pa).any fun d => d.port = port) ||
  (s.lines.any fun l => l.wb && portOf s l.ctx l.addr = port) ||
  s.ctxs.any fun c => c.pools.any fun p => p.portNow s = port && (flightsTo s c.spec.num p).any fun f =>
    (f.2.2.isStore || f.2.2.isAtomic) && f.2.2.fill = .done && !poolReady s f.1 f.2.2

/-- POOL_REQUEST_TIMEOUT: a request has not completed within 100 µs. -/
def execPoolRequestTimeout (port : Nat) (s : State) : Result :=
  let p := s.ports.getD port default
  .next (if p.attached && !p.lost && poolBusy s port then (loseLink port s).tickNow else s)

/-- PORT_RETURN_TIMEOUT: a port has not come back within 1 s of Thaw (17 R269). -/
def execPortReturnTimeout (port : Nat) (s : State) : Result :=
  let p := s.ports.getD port default
  .next (if p.attached && !p.up && !p.lost then (loseLink port s).tickNow else s)

/-- A store whose line was lost before it reached the device: it is no store any more (15 R259). -/
def lostStore (ctx : Nat) (p : PoolRegion) (x : Item) : Bool :=
  !x.written && x.gran.any fun g => g * 16 / 2 ^ 56 = ctx && inPool p (g * 16 % 2 ^ 56)

/-- What the device holds is all there is of a region. -/
def forgetLost (ctx : Nat) (p : PoolRegion) (s : State) : State :=
  let floor := fun (e : Nat × Nat × Nat × Nat) =>
    if inPool p (e.2.1 * 16 % 2 ^ 56) && e.2.1 * 16 / 2 ^ 56 = ctx then
      (e.1, e.2.1, newestFrom (fun x => x.gran = some e.2.1 && !lostStore ctx p x) 0 (s.items.take e.2.2.1) 0, e.2.2.2)
    else e
  { s with
      items := modIf (lostStore ctx p) (fun x => { x with gran := none, bytes := [] }) s.items
      floors := s.floors.map floor }

/-- REGION_REVALIDATE: pool region i of a context, once its link is back. -/
def execRegionRevalidate (ctx i : Nat) (s : State) : Result :=
  match (s.ctx ctx).pools[i]? with
  | none => .next s
  | some p =>
    if p.lost && portUp s (p.portNow s) then
      .next (forgetLost ctx p (modCtx ctx (fun c => { c with pools := modAt (fun p => { p with lost := false }) i c.pools }) s))
    else .next s

/-- POOL_ATTACH of a CXL device of a type: Types 1 and 2 are not accepted (15 R249). The value does not change while a
context is resident (15 R261). -/
def execPoolAttach (port : Nat) (dev : PoolDevice) (s : State) : Result :=
  let free := s.parts.all fun p => p.ctx.isNone
  if dev.type = 3 ∧ 1 ≤ dev.num ∧ dev.num ≤ 4095 ∧ port < 2 ∧ (dev.num = s.dev ∨ free) then
    .next { modPort port (fun _ => ⟨true, true, false, false⟩) s with dev := dev.num }
  else .next s

end Sys2Proof.Machine
end

