-- ==== Sys2Proof/Machine/Winter.lean ====
section
/-!
DEFINITION. Entering Winter and Thaw (17 R267-R270).
-/

namespace Sys2Proof.Machine

open Sys2Proof

/-! ### Entry, step 1: every placed block is saved -/

/-- The next step of a copy, as it stands by now. -/
def copyAgain (b : Nat) (c : Copy) (d : TDesc) (s : State) : State :=
  match findCopy s b c.id c.tid with
  | some c => copyStep true b c d s
  | none => s

/-- Ends every copy of a block whose reads have returned. -/
def landCopies (b : Nat) (s : State) : State :=
  (s.block b).copies.foldl (fun s c =>
    if c.cancelled || c.dead then s
    else match (if c.desc = [] then none else tdescOf c.desc) with
      | some d => if d.dir = 0 then landCopy b c s else (List.range (d.count + 1)).foldl (fun s _ => copyAgain b c d s) s
      | none => landCopy b c s) s

/-- A service that has not replied: the thread stands at its `SVC` as if it had not asked, and no register is ABANDONED by
the save (13 R236). -/
def unaskService (b t : Nat) : State → State :=
  modThread b t fun th => match th.st with
    | .svcWait _ _ _ p _ _ =>
      let dst := (th.prods.filter (·.id = p)).flatMap Prod.dst
      { onLanes (fun v => v.setAv dst .full) th with prods := th.prods.filter (·.id ≠ p) }
    | _ => th

/-- The work in flight of a block whose entries have taken their steps ends: its copies, producers and arrivals (13 R236). -/
def quiesceBlock (s : State) (b : Nat) : State :=
  let s := stopCopies b (landCopies b s)
  discardArrivals b ((tidsOf (s.block b)).foldl (fun s t => settleProds b t (unaskService b t s)) s)

/-- The chunks of COPYs whose reads are out are written, but for those of a killed context (13 R237). -/
def quiesceCopies (s : State) : State :=
  (List.range s.xfers.length).foldl (fun s c =>
    let x := s.xfers.getD c default
    let (a, d, n) := x.chunk
    if x.done || x.killed || !x.asked then s
    else if ((copyBlocked s x.ctx a n).or (copyBlocked s x.ctx d n)).isSome || linkDown s x.ctx a n || linkDown s x.ctx d n then
      modXfer c (fun x => { x with asked := false }) s
    else writeChunk c s) s

/-- The work in flight of blocks ends: loads complete and stores take their steps, those of all the blocks in one order (01 R17; 18
R317), then the rest of each. -/
def quiesceBlocks (bs : List Nat) (s : State) : State :=
  let es := entriesIn s bs
  bs.foldl quiesceBlock (es.foldl (fun s e => stopEntry true ⟨es, []⟩ e s) s)

/-- A halted partition stops as 13 R227 says; another ends its work in flight. -/
def quiescePart (s : State) (p : Nat) : State :=
  let x := s.parts.getD p default
  let s := if x.halt.isNone then quiesceBlocks (partBlocks s x) s else s
  match execPartitionStop p ⟨[], []⟩ s with
  | .next s' => s'
  | _ => s

/-- A block that Thaw will restore is saved with the mark `save`. -/
def winterSave (s : State) (b : Nat) : State := modBlock b (fun k => { k with method := .save }) (saveBlock b s)

def saveAll (s : State) : State :=
  let s := quiesceCopies ((List.range s.parts.length).foldl quiescePart s)
  ((List.range s.blocks.length).filter fun b => (s.block b).status = .placed).foldl winterSave s

/-! ### Entry, step 2: every dirty line is written back (17 R268, 15 R260, R262) -/

/-- Dirty lines of a port whose link is not up, or accesses that wait for it: the link is lost now (log 14). -/
def losePort (s : State) (port : Nat) : State :=
  let waits := (s.lines.any fun l => l.coh = .pool && l.dirty && portOf s l.ctx l.addr = port) ||
    (regionsBehind s port).any fun r => (flightsTo s r.1 r.2).any fun f => lineWaits s f.1 f.2.2
  if waits && !portUp s port && !(s.ports.getD port default).lost then loseLink port s else s

/-- Every dirty pool line is on its way to its device: one whose link is down is in progress when the link is declared lost (15
R262). -/
def pushAll (s : State) : State := (s.ctxs.map fun c => c.spec.num).foldl (fun s c => pushPool c (fun _ => true) s) s

/-- The pinned blocks of a unit go to the spill area of their home die. -/
def spillUnit (s : State) (u : CUnit) : State :=
  match findRegion s u.ctx u.region with
  | none => s
  | some r => u.pinned.foldl (fun s k =>
      modDie (homeByMap (s.ctx u.ctx) (r.vaOf k)) (fun d => { d with spill := d.spill ++ [(u.ctx, r.idx, k, plainOf s u.ctx r k, closingOf u k)] }) s) s

def writeBackAll (s : State) : State :=
  let s := (s.ctxs.map fun c => c.spec.num).foldl (fun s c => writeBackUnits none c (fun _ _ => true) s) s
  let s := [0, 1].foldl losePort (pushAll s)
  let clean := fun (l : Line) => { l with dirty := false }
  let s := { s with lines := s.lines.map clean }
  s.units.foldl spillUnit s

/-- Steps 1 to 5: the ports and every firmware core lose their power or enter retention. -/
def enterWinter (way : Winter) (s : State) : State :=
  let s := writeBackAll (saveAll ([0, 1].foldl losePort (pushAll s)))
  let off := fun (p : Port) => { p with up := false, recovering := false }
  let s := { s with ports := s.ports.map off }
  logEvent (fwSource .pw) .winter [] (modPlat (fun p => { p with
    winter := way, wake := false, cooled := false, thawed := 0, asleep := [.fe, .ls, .mm, .eh, .pw, .se, .mg, .cv] }) s)

/-! ### Thaw (17 R268, R269) -/

/-- Every SRAM is wiped: caches, register files, scratchpads, accumulators, TLBs. Every block has been saved. -/
def wipeSram (s : State) : State :=
  let run := fun (x : XRun) => { x with taken := true }
  let ctl := fun (c : Controller) => { c with tlb := [], reqs := [] }
  let core := fun (c : Core) => { c with subs := List.replicate 4 Sub.init, victims := [], mq := [] }
  let die := fun (d : Die) => { d with hot := [] }
  { s with
      lines := [], units := [], fills := [], walks := [], runs := s.runs.map run, ctls := s.ctls.map ctl
      cores := s.cores.map core, dies := s.dies.map die }

/-- A spilled block returns to its home L2, dirty and pinned, with its closing store. -/
def unspill (s : State) (e : Nat × Nat × Nat × List Byte × Option StoreRec) : State :=
  let (ctx, idx, blk, bytes, closing) := e
  match findRegion s ctx idx with
  | none => s
  | some r => leaveBlock ctx r blk false closing (setPlain ctx r blk bytes s)

def unspillDie (s : State) (d : Nat) : State := modDie d (fun x => { x with spill := [] }) ((s.die d).spill.foldl unspill s)

/-- A block that the entry saved returns to its core, but for a partition that is being switched: the switch has
finished as a save (17 R270), or whose record lies in poisoned memory. -/
def thawBlock (s : State) (b : Nat) : State :=
  let k := s.block b
  if k.status = .saved && k.method = .save then
    let back := s.parts.any fun p => p.ctx = some (ctxOf s b) && p.preempt.isNone && p.cores.contains k.core
    if back then match recordBad s b with
      | some a => raiseRecord b a (modBlock b (fun k => { k with method := .none }) s)
      | none => restoreOne b k.core k.f s
    else modBlock b (fun k => { k with method := .none }) s
  else s

/-- Step 2: the memories are back, and every context is restored. -/
def thawContexts (s : State) : State :=
  (List.range s.blocks.length).foldl thawBlock ((List.range s.dies.length).foldl unspillDie s)

/-- Step 4, with which Winter is over: the links of the ports recover. -/
def thawPorts (s : State) : State :=
  let on := fun (p : Port) => { p with recovering := p.attached && !p.lost }
  logEvent (fwSource .pw) .thaw [] (modPlat (fun p => { p with
    winter := .running, wake := false, cooled := false, thawed := 0, winters := (p.winters + 1) % 2 ^ 32 }) { s with ports := s.ports.map on })

/-- THE FOUR STEPS OF THAW (17 R269), one at a time, so that PWRWARN# may come between them (17 R270). The leases of step 3
stand in the launches that hold them. -/
def thawStep (s : State) : State :=
  match s.plat.thawed with
  | 0 => modPlat (fun p => { p with thawed := 1 }) (wipeSram s)
  | 1 => modPlat (fun p => { p with thawed := 2 }) (thawContexts s)
  | 2 => modPlat (fun p => { p with thawed := 3 }) s
  | _ => thawPorts s

/-- The condition of the way Winter was entered holds, and PWRWARN# is deasserted. -/
def mayThaw (s : State) : Bool :=
  let p := s.plat
  !p.pwrwarn && match p.winter with
    | .running => false
    | .pwrwarn => true
    | .thermal _ => p.cooled
    | .request => p.wake

/-- A Thaw has begun. -/
def thawing (s : State) : Bool := s.plat.winter ≠ .running && s.plat.thawed ≠ 0

/-- THAW begins where every rail reports good, and PWRWARN# has been deasserted for 10 ms where the entry asks for it (log
10), or takes its next step. -/
def execThaw (s : State) : Result := .next (if mayThaw s || thawing s then (thawStep s).tickNow else s)

/-- PWRWARN_ASSERT: Winter is entered; a Thaw stops after the step it has taken, and the entry starts again (17 R270). -/
def execPwrwarnAssert (s : State) : Result :=
  let s := modPlat (fun p => { p with pwrwarn := true }) s
  .next (if s.plat.winter = .running || thawing s then (enterWinter .pwrwarn s).tickNow else s)

/-- PWRWARN_DEASSERT. -/
def execPwrwarnDeassert (s : State) : Result := .next (modPlat (fun p => { p with pwrwarn := false }) s)

/-- WINTER_REQUEST. -/
def execWinterRequest (s : State) : Result :=
  .next (if s.plat.winter = .running then (enterWinter .request s).tickNow else s)

/-- WAKE_REQUEST. -/
def execWakeRequest (s : State) : Result :=
  .next (if s.plat.winter = .request then modPlat (fun p => { p with wake := true }) s else s)

/-- The readings of a die's 64 sensors. -/
def setReadings (die : Nat) (rs : List Int) : State → State := modDie die fun d => { d with readings := takePad 64 0 rs }

def allBelow (s : State) (die : Nat) (t : Int) : Bool := (s.die die).readings.all fun r => decide (r < t)

/-- WINTER_SENSOR_SAMPLE: the tripped die has stayed below the warning threshold for 100 ms where the sample says so
(log 10). -/
def execWinterSensorSample (die : Nat) (readings : List Int) (s : State) : Result :=
  .next (if s.plat.winter = .thermal die then
    let s := setReadings die readings s
    modPlat (fun p => { p with cooled := allBelow s die 95 }) s
  else s)

end Sys2Proof.Machine
end

