-- ==== Sys2Proof/Machine/Platform.lean ====
section
/-!
DEFINITION. Firmware, power and management: mailboxes, the arbiter, thermal events, reset and life cycle, updates,
attestation, scrubbing, management reads, configuration registers, host accesses, creation of contexts (17 R264-R276;
03 R76; 08 R157, R159, R171, R173, R174, R176; 13 R226; 15 R250).
-/

namespace Sys2Proof.Machine

open Sys2Proof

/-! ### Mailboxes (17 R264) -/

/-- MAILBOX_MESSAGE: its source numbers it, it is posted and the core woken; the sender of a message to a full mailbox waits
(17 R264, R271). -/
def execMailboxMessage (core : FwCore) (msg : Message) (s : State) : Result :=
  let (q, s) := nextSeq s msg.source.toNat
  .next (modPlat (Platform.post core { msg with seq := BitVec.ofNat 64 q }) s)

/-! ### The arbiter and the thermal thresholds (17 R265, R266) -/

/-- ARBITER_WINDOW: a cap per die, a budget per controller, a clock from 8 to 16 per die. A die that warned gets a lower
cap. -/
def execArbiterWindow (caps budgets clocks : List Nat) (s : State) : Result :=
  let die := fun (i : Nat) =>
    let d := s.die i
    let cap := caps.getD i d.cap
    let k := clocks.getD i d.clock
    { d with
        cap := if d.warned then min cap (d.cap - 1) else cap
        clock := if 8 ≤ k ∧ k ≤ 16 then k else d.clock, warned := false }
  .next { s with
    dies := (List.range s.dies.length).map die
    ctls := (List.range s.ctls.length).map fun i => let c := s.ctl i; { c with budget := budgets.getD i c.budget } }

/-- THERMAL_SAMPLE: warning at 95 °C, emergency at 105 °C, trip at 115 °C. -/
def execThermalSample (die : Nat) (readings : List Int) (s : State) : Result :=
  let s := setReadings die readings s
  let above := fun (t : Int) => !allBelow s die t
  let s1 := if above 95 then logEvent (fwSource .mg) .warning [die] (modDie die (fun d => { d with warned := true }) s) else s
  let s2 := if above 105 then modDie die (fun d => { d with emergency := true }) s1 else s1
  .next (if above 115 && s2.plat.winter = .running then (enterWinter (.thermal die) s2).tickNow else s2)

/-- EMERGENCY_END: every sensor of the die has read below 100 °C for 10 ms (log 10). -/
def execEmergencyEnd (die : Nat) (s : State) : Result :=
  .next (if allBelow s die 100 then modDie die (fun d => { d with emergency := false }) s else s)

/-! ### Reset, life cycle, update (17 R271, R273-R275) -/

/-- Every memory of the module is wiped; registers, counters of events and the platform's own state stay. -/
def wipeMemories (s : State) : State :=
  let core := fun (c : Core) => { Core.init with lcap := c.lcap, replays := c.replays, halved := c.halved }
  let die := fun (d : Die) => { d with spawnQ := [], hot := [], spill := [] }
  let ctl := fun (c : Controller) => { c with tlb := [], reqs := [] }
  { State.reset with
      hmem := s.hmem, agenda := s.agenda, cycle := s.cycle, now := s.now, free := s.free, seqs := s.seqs, ports := s.ports
      decoders := s.decoders, dev := s.dev, missed := s.missed, cores := s.cores.map core, dies := s.dies.map die
      ctls := s.ctls.map ctl, plat := { s.plat with poison := [], mail := Platform.init.mail, waiting := [] } }

/-- The image that runs after a reset: the one an update chose, or the other once an image has failed three times. -/
def bootFlash (failed : Bool) (f : Flash) : Flash :=
  let fails := if failed then f.failures + 1 else 0
  let run := if 3 ≤ fails ∧ f.next = f.running then !f.running else f.next
  { f with running := run, next := run, failures := if run = f.running then fails else 0 }

/-- RESET: memories are wiped, event counts restart, the boot count rises; the event log and the Winter count survive. A
reset that ends a Winter lost its memories, which is logged. -/
def execReset (failed : Bool) (s : State) : Result :=
  let p := s.plat
  let plat := { Platform.init with
    pwrwarn := p.pwrwarn, winters := p.winters, life := p.life, identity := p.identity, cert := p.cert, boots := p.boots + 1
    flash := bootFlash failed p.flash, out := p.out, log := p.log }
  let s' := { State.reset with agenda := s.agenda, free := s.free, hmem := s.hmem, plat := plat }
  .next (if p.winter = .running then s' else logEvent (fwSource .se) .resetLoss [] s')

/-- The state that follows a life-cycle state. -/
def nextLife : LifeCycle → Option LifeCycle
  | .manufacture => some .provisioned
  | .provisioned => some .deployed
  | .deployed => some .return_
  | .return_ => none

/-- LIFE_CYCLE_TRANSITION: the next state only, and signed. The identity key pair and its certificate are made in PROVISIONED
and erased by RETURN. -/
def execLifeCycleTransition (target : LifeCycle) (signed : Bool) (s : State) : Result :=
  let (n, s) := s.fresh
  .next (if signed && nextLife s.plat.life = some target then
    modPlat (fun p => { p with
      life := target, identity := target ≠ .return_
      cert := if target = .provisioned then Config.identityCert n else if target = .return_ then [] else p.cert }) (wipeMemories s)
  else s)

/-- A request to MG: it waits where the MG does (17 R264). -/
def askMg (s : State) (serve : State → Result) : Result := if mgWaits s then .next s else serve (mgRequest s).2

/-- FIRMWARE_UPDATE, a request to MG: the image that is not running is written; it runs after the next reset if its signature,
which the SE checks, and its rollback counter hold. -/
def execFirmwareUpdate (image : List Byte) (counter : Nat) (signed : Bool) (s : State) : Result :=
  askMg s fun s => .next (modPlat (fun p =>
    let f := p.flash
    let f := if f.running then { f with imageA := image } else { f with imageB := image }
    { p with flash := { f with next := if signed && decide (f.counter ≤ counter) then !f.running else f.running } }) s)

/-! ### Attestation (17 R274) -/

/-- A program's image (11 R207). -/
def imageOf (p : Program) : List Byte :=
  leBytes 4 (p.insns.length + p.table.length * 2 ^ 16 + p.encode.toNat * 2 ^ 25) ++ leBytes 4 0 ++ bytesOfWords (p.insns ++ p.table)

/-- The codec programs that a live generation of a region uses. -/
def residentPrograms (s : State) : List Program :=
  s.ctxs.flatMap fun c => c.programs.filter fun p => c.regions.any fun r => r.gens.any fun g => g.dec = p.id || g.enc = p.id

/-- ATTESTATION_REQUEST, over DOE of the host port (0) or of Viaduct port 0 or 1 (1, 2): the certificate and signed
measurements. Without an identity key there is no report. -/
def execAttestationRequest (port : Nat) (nonce : BitVec 256) (s : State) : Result :=
  let (n, s) := s.fresh
  let f := s.plat.flash
  let parts := [f.imageA, f.imageB, Config.supervisorConfig n] ++ (residentPrograms s).map imageOf
  let ms := parts.map shake256
  .next (if s.plat.identity && decide (port < 3) then reply (.report s.plat.cert (Config.sign s.plat.cert) ms (Config.sign (leBytes 1 port ++ leBytes 32 nonce.toNat ++ ms.flatten))) s else s)

/-! ### Scrubbing and management reads (17 R272, R276; 08 R176) -/

/-- The first line of the device behind controller i of the dies. -/
def scrubPa (i : Nat) : Nat := if i % 6 < 2 then i / 6 * 2 ^ 48 + i % 6 * 2 ^ 21 else (4 + i / 6) * 2 ^ 48 + (i % 6 - 2) * 128

/-- The scrubber's requests of class 3, one for each controller (log 92), where a die is in no emergency (17 R266). -/
def askScrub (s : State) : State :=
  (List.range 24).foldl (fun s i => if (s.die (i / 6)).emergency then s else arrive none 0 3 (scrubPa i) 4096 i s.cycle none s) s

/-- A line of an HBM or LPDDR-6 device that a pass reads. -/
def scrubbed (s : State) (pa : Nat) : Bool := decide (bitsOf pa 55 48 < 8) && targetOk pa && !(s.die (bitsOf pa 55 48 % 4)).emergency

/-- PATROL_SCRUB: a pass, at class 3; an uncorrectable word poisons its line, and the MG rewrites the failed remap tables (13
R246). -/
def execPatrolScrub (corrected : Nat) (bad : List Nat) (s : State) : Result :=
  let s := (List.range s.plat.remap.length).foldl repairRemap (askScrub s)
  let bad := bad.filter (scrubbed s)
  .next (logEvent (fwSource .mg) .scrub [corrected, bad.length] (modPlat (fun p =>
    { p with corrected := p.corrected + corrected, poison := (p.poison ++ bad.map lineAddr).eraseDups }) s))

/-- SENSOR_READ, a request to MG as those that follow: the thermal sensors of each die, and the rails. -/
def execSensorRead (s : State) : Result :=
  askMg s fun s =>
    let (n, s) := s.fresh
    .next (reply (.sensors (s.dies.map Die.readings ++ [Config.railReadings n])) s)

/-- EVENT_LOG_READ. -/
def execEventLogRead (s : State) : Result := askMg s fun s => .next (reply (.events s.plat.log) s)

/-- DEADLINE_COUNTERS_READ. -/
def execDeadlineCountersRead (s : State) : Result := askMg s fun s => .next { reply (.counters s.missed) s with missed := [] }

/-- WINTER_COUNT_READ. -/
def execWinterCountRead (s : State) : Result := askMg s fun s => .next (reply (.winters s.plat.winters) s)

/-! ### Configuration registers -/

def maskField : DWord := 0x00FFFFFFFFFFE000

/-- The page tables from a table on: address, bytes. -/
def tablesFrom (pmem : Memory) : Nat → Nat → Nat → List (Nat × Nat)
  | 0, _, _ => []
  | fuel + 1, level, table => (table, 8 * tableSize level) :: (tableEntries pmem table (tableSize level)).flatMap fun e =>
    if bitOf e.2 63 && bitsOf e.2 62 61 = 3 && level < 5 then tablesFrom pmem fuel (level + 1) (bitsOf e.2 55 8 * 2 ^ 8) else []

/-- A die's HBM holds an allocated frame: a page that a context maps, its tables or its save area (08 R173; log 15). -/
def hbmInUse (s : State) (die : Nat) : Bool :=
  let here := fun (pa : Nat) => bitsOf pa 55 48 = die
  (s.ctxs.any fun c => here c.spec.saveArea || (tablesFrom s.pmem 5 1 c.spec.root).any fun t => here t.1) || (allLeaves s).any fun e => here e.2.2.frame

/-- HMASK and SMASK of a die change only while its HBM holds no allocated frame (08 R173). -/
def writeMask (die : Nat) (f : Die → Die) (s : State) : State := if hbmInUse s die then s else modDie die f s

/-- The channel of a line within its LPDDR-6 package, of a number of channels that the spec does not state: consecutive lines
of the package in rotation (08 R173). -/
def lpddrChannel (channels pa : Nat) : Nat := pa / 512 % channels

def homeMapOk (m : List (Nat × Nat × Nat)) : Bool := decide (m.length ≤ 64) && m.all fun e => decide (e.2.2 < 4)

/-- What must keep its home: what launches and COPYs lease, and bound codec regions (08 R159). -/
def fixedHomes (s : State) (ctx : Nat) : List (Nat × Nat) :=
  ((s.launches.filter fun l => l.live && l.ctx = ctx).flatMap fun l => l.ranges.map fun r => (r.base, r.len)) ++
  ((s.xfers.filter fun x => !x.done && x.ctx = ctx).flatMap fun x => [(x.src, x.len), (x.dst, x.len)]) ++
  (s.ctx ctx).regions.map fun r => (r.base, r.len)

/-- The home map changes where nothing that must keep its home is moved, nor a granule away from its frames (08 R159). -/
def writeHomeMap (ctx : Nat) (m : List (Nat × Nat × Nat)) (s : State) : State :=
  let c := s.ctx ctx
  let c' := { c with spec := { c.spec with homeMap := m } }
  let keeps := (fixedHomes s ctx).all fun r => (granulesOf r.1 r.2).all fun va => homeByMap c va = homeByMap c' va
  let s' := modCtx ctx (fun _ => c') s
  let stay := ((allLeaves s).filter fun e => e.1 = ctx).all fun e => frameHome s' ctx e.2.1 e.2.2 || !frameHome s ctx e.2.1 e.2.2
  if homeMapOk m && keeps && stay then modCtx ctx (fun c => { c with spec := { c.spec with homeMap := m } }) s else s

/-- The reverse map follows the decoders: each entry keeps its page. -/
def refreshMap (s : State) : State := { s with rmap := s.rmap.map fun e => (mapEntry s e.2.1 e.2.2.1).getD e }

/-- The TLBs lose the translations of pool pages that no decoder covers any more (15 R250). -/
def dropUncovered (s : State) : State :=
  let there := fun (e : Nat × Nat × Leaf) => (granulesOf 0 (pageSize e.2.2)).any fun g => leafCovers s e.2.2 (e.2.1 + g)
  { s with ctls := s.ctls.map fun c => { c with tlb := c.tlb.filter there } }

/-- A decoder takes a range of the window that no other has, and one of host physical addresses (15 R250). -/
def writeDecoder (i : Nat) (d : Decoder) (s : State) : State :=
  let others := (List.range s.decoders.length).filter (· ≠ i)
  let apart := others.all fun j =>
    let e := s.decoders.getD j default
    !overlaps d.off d.len e.off e.len && !overlaps d.hpa d.len e.hpa e.len
  let mib := fun (x : Nat) => x % 2 ^ 21 = 0
  if decide (i < 16 ∧ d.port < 2 ∧ d.off + d.len ≤ 2 ^ 48) && mib d.off && mib d.len && mib d.hpa && apart then
    let l := takePad (max s.decoders.length (i + 1)) ⟨0, 0, 0, 0, false, false⟩ s.decoders
    claimPeers (dropUncovered (refreshMap { s with decoders := modAt (fun _ => d) i l }))
  else s

def emptyPartition : Partition := ⟨[], none, none, false, none⟩

/-- A COPY of a context has a chunk in flight (13 R237). -/
def copyInFlight (s : State) (ctx : Nat) : Bool := s.xfers.any fun x => x.ctx = ctx && x.asked && !x.done && !x.killed

/-- A partition gets its cores and the context it runs, once nothing of the last one is placed there and no chunk of its COPYs is in
flight (13 R226, R236). -/
def writePartition (p : Nat) (cores : List Nat) (ctx : Option Nat) (s : State) : State :=
  let old := s.parts.getD p emptyPartition
  let taken := ((List.range s.parts.length).filter (· ≠ p)).any fun q => cores.any (s.parts.getD q default).cores.contains
  let runs := match ctx with
    | none => true
    | some c => (s.ctx? c).any fun x => !x.halted
  if decide (p < 80 ∧ 2 ≤ cores.length ∧ cores.eraseDups.length = cores.length) && cores.all (· < 160) && !taken && runs &&
      partBlocks s old = [] && !(old.ctx.any (copyInFlight s)) then
    let l := takePad (max s.parts.length (p + 1)) emptyPartition s.parts
    { s with parts := modAt (fun _ => ⟨cores, ctx, none, false, none⟩) p l }
  else s

/-- REGISTER_WRITE; a value that the register's rule forbids is not written. -/
def execRegisterWrite (w : RegWrite) (s : State) : Result :=
  .next (match w with
  | .lcap c n => if 64 ≤ n ∧ n ≤ 2048 then modCore c (fun x => { x with lcap := n }) s else s
  | .deadline c k u => modCtx c (fun x => { x with deadlines := modAt (fun _ => u) k x.deadlines }) s
  | .smask d v => writeMask d (fun x => { x with smask := v &&& maskField }) s
  | .hmask d i v => writeMask d (fun x => { x with hmask := modAt (fun _ => v &&& maskField) i x.hmask }) s
  | .homeMap c m => writeHomeMap c m s
  | .decoder i off len hpa port h u => writeDecoder i ⟨off, len, hpa, port, h, u⟩ s
  | .partition p cs c => writePartition p cs c s
  | .ptes l => mmWrite false l s
  | .scrubPeriod h => if 1 ≤ h ∧ h ≤ 168 then modPlat (fun p => { p with scrub := h }) s else s)

/-! ### Host accesses and contexts -/

/-- Every page of a range has a translation, and no LOST region lies in it. -/
def hostReaches (s : State) (ctx va n : Nat) : Bool :=
  ((pagesOf va n).all fun p => translated s ctx (max p va)) && !holdsLost s ctx va n

/-- HOST_MEMORY_ACCESS at system scope. An access that cannot be served returns no bytes and stores none; one to a poisoned line
raises 0x1A (13 R246). It waits for the fills that it needs (17 R266). -/
def execHostMemoryAccess (a : HostAccess) (s : State) : Result :=
  match a with
  | .read ctx va n =>
    if deviceHeld s ctx va n then .next s
    else if !hostReaches s ctx va n then .next (reply (.bytes []) s)
    else match deviceBad s ctx va n with
      | some a => .next (reply (.bytes []) (raiseDevice ctx a s))
      | none => let s := deviceTouch ctx va n s; .next (reply (.bytes (sysRead s ctx va n)) s).tickNow
  | .write ctx va bytes =>
    if deviceHeld s ctx va bytes.length then .next s
    else .next (if hostReaches s ctx va bytes.length then (deviceWrite ctx va bytes s).tickNow else s)

/-- A context as it is created. -/
def newContext (spec : ContextSpec) : Context := ⟨spec, [], [], false, false, [], 0, List.replicate 4 0, [], [], [], [], [], []⟩

/-- The tables that a root names are of no other context. -/
def tablesApart (s : State) (root : Nat) : Bool :=
  let mine := tablesFrom s.pmem 5 1 root
  s.ctxs.all fun c => (tablesFrom s.pmem 5 1 c.spec.root).all fun t => mine.all fun u => !overlaps t.1 t.2 u.1 u.2

/-- CONTEXT_CREATE: one context for each number and for each of the 384 virtual functions (01 R14); it is posted to the MM and the
LS (01 R20; log 86), for whose room it waits (17 R264). The tables that its root names already keep the rules of the MM's writes, and
are no other context's (08 R157, R159, R162; log 87). -/
def execContextCreate (spec : ContextSpec) (s : State) : Result :=
  let s' := { s with ctxs := s.ctxs ++ [newContext spec] }
  .next (if decide (spec.num < 1024 ∧ spec.root % 256 = 0 ∧ spec.fn ≤ 384) && homeMapOk spec.homeMap &&
      (s.ctxs.all fun c => c.spec.num ≠ spec.num && (c.spec.fn ≠ spec.fn || spec.fn = 0)) &&
      tablesApart s spec.root && tablesOk false s s' && mailRoom s .mm feSource 1 && mailRoom s .ls feSource 1 then
    notify [.mm, .ls] feSource (refreshAliases s')
  else s)

/-! ### What has power in Winter (17 R267, R269) -/

/-- PW and SE serve in retention; nothing else of the module runs. -/
def servedInWinter : Instr → Bool
  | .pwrwarnAssert | .pwrwarnDeassert | .wakeRequest | .winterSensorSample _ _ | .thaw | .reset _ => true
  | .mailboxMessage .pw _ | .mailboxMessage .se _ => true
  | _ => false

def powered (i : Instr) (s : State) : Bool := s.plat.winter = .running || servedInWinter i

end Sys2Proof.Machine
end

