-- ==== Sys2Proof/Machine/Dispatch.lean ====
section
/-!
DEFINITION. One arm per row of the opcode table.
-/

namespace Sys2Proof.Machine

open Sys2Proof

def exec (i : Instr) (s : State) : Host.Outcome State Fault Refusal :=
  match i with
  | .tailDoorbell q tail => Sys2Proof.Machine.execTailDoorbell q tail s
  | .queueCreate spec => Sys2Proof.Machine.execQueueCreate spec s
  | .queueResume q => Sys2Proof.Machine.execQueueResume q s
  | .launch q => Sys2Proof.Machine.execLaunch q s
  | .launchDispatch q n plan => Sys2Proof.Machine.execLaunchDispatch q n plan s
  | .copy q plan => Sys2Proof.Machine.execCopy q plan s
  | .copyChunk c => Sys2Proof.Machine.execCopyChunk c s
  | .signal q plan => Sys2Proof.Machine.execSignal q plan s
  | .tokclr q => Sys2Proof.Machine.execTokclr q s
  | .map q salvage ptes => Sys2Proof.Machine.execMap q salvage ptes s
  | .launchCompletion l => Sys2Proof.Machine.execLaunchCompletion l s
  | .blockPlacement b places => Sys2Proof.Machine.execBlockPlacement b places s
  | .placementReservation b => Sys2Proof.Machine.execPlacementReservation b s
  | .blockRetirement b => Sys2Proof.Machine.execBlockRetirement b s
  | .waveActivation core sub => Sys2Proof.Machine.execWaveActivation core sub s
  | .waveSwap core sub => Sys2Proof.Machine.execWaveSwap core sub s
  | .starvationAdmission core sub => Sys2Proof.Machine.execStarvationAdmission core sub s
  | .issueRotation core sub => Sys2Proof.Machine.execIssueRotation core sub s
  | .groupIssueLimit core sub => Sys2Proof.Machine.execGroupIssueLimit core sub s
  | .leaseHalving core => Sys2Proof.Machine.execLeaseHalving core s
  | .meetingArrival b w pc => Sys2Proof.Machine.execMeetingArrival b w pc s
  | .convergenceDeadlock b w => Sys2Proof.Machine.execConvergenceDeadlock b w s
  | .crossLaneFire b w pc => Sys2Proof.Machine.execCrossLaneFire b w pc s
  | .producerCompletion b t p => Sys2Proof.Machine.execProducerCompletion b t p s
  | .waveTimerExpiry b w => Sys2Proof.Machine.execWaveTimerExpiry b w s
  | .mmaCapture core => Sys2Proof.Machine.execMmaCapture core s
  | .mmaCompletion core => Sys2Proof.Machine.execMmaCompletion core s
  | .tokenGrant b tile => Sys2Proof.Machine.execTokenGrant b tile s
  | .tokenReturn b w tile => Sys2Proof.Machine.execTokenReturn b w tile s
  | .acpTransferComplete b id => Sys2Proof.Machine.execAcpTransferComplete b id s
  | .tcopyComplete b id => Sys2Proof.Machine.execTcopyComplete b id s
  | .storePerform b t op => Sys2Proof.Machine.execStorePerform b t op s
  | .loadSatisfy b t op item early => Sys2Proof.Machine.execLoadSatisfy b t op item early s
  | .frontierAdvance item wider => Sys2Proof.Machine.execFrontierAdvance item wider s
  | .lineFill b t op evict => Sys2Proof.Machine.execLineFill b t op evict s
  | .pageWalk die group ctx va => Sys2Proof.Machine.execPageWalk die group ctx va s
  | .pageMigration die ctx va frame => Sys2Proof.Machine.execPageMigration die ctx va frame s
  | .controllerServe ctl remap => Sys2Proof.Machine.execControllerServe ctl remap s
  | .budgetWindow ctl => Sys2Proof.Machine.execBudgetWindow ctl s
  | .blockFill ctx region blk => Sys2Proof.Machine.execBlockFill ctx region blk s
  | .blockEncode ctx region blk => Sys2Proof.Machine.execBlockEncode ctx region blk s
  | .stepBoundExceeded run => Sys2Proof.Machine.execStepBoundExceeded run s
  | .recodeWalk ctx region => Sys2Proof.Machine.execRecodeWalk ctx region s
  | .codecLoad src => Sys2Proof.Machine.execCodecLoad src s
  | .codecBind src ptes => Sys2Proof.Machine.execCodecBind src ptes s
  | .codecUnbind src ptes => Sys2Proof.Machine.execCodecUnbind src ptes s
  | .regionInfo src => Sys2Proof.Machine.execRegionInfo src s
  | .slotInjection ctx region blk off bytes => Sys2Proof.Machine.execSlotInjection ctx region blk off bytes s
  | .partitionStop p plan => Sys2Proof.Machine.execPartitionStop p plan s
  | .ehKillLaunch l => Sys2Proof.Machine.execEhKillLaunch l s
  | .ehKillContext ctx => Sys2Proof.Machine.execEhKillContext ctx s
  | .ehResumeContext ctx => Sys2Proof.Machine.execEhResumeContext ctx s
  | .preemptionRequest p d f => Sys2Proof.Machine.execPreemptionRequest p d f s
  | .drainTimeout p => Sys2Proof.Machine.execDrainTimeout p s
  | .blockSave b => Sys2Proof.Machine.execBlockSave b s
  | .contextRestore b places => Sys2Proof.Machine.execContextRestore b places s
  | .timingReplay core => Sys2Proof.Machine.execTimingReplay core s
  | .backInvalidationSnoop sn => Sys2Proof.Machine.execBackInvalidationSnoop sn s
  | .linkExitL0 port => Sys2Proof.Machine.execLinkExitL0 port s
  | .linkRecoveryTimeout port => Sys2Proof.Machine.execLinkRecoveryTimeout port s
  | .poolRequestTimeout port => Sys2Proof.Machine.execPoolRequestTimeout port s
  | .regionRevalidate ctx n => Sys2Proof.Machine.execRegionRevalidate ctx n s
  | .poolAttach port dev => Sys2Proof.Machine.execPoolAttach port dev s
  | .mailboxMessage core msg => Sys2Proof.Machine.execMailboxMessage core msg s
  | .arbiterWindow caps budgets clocks => Sys2Proof.Machine.execArbiterWindow caps budgets clocks s
  | .thermalSample die readings => Sys2Proof.Machine.execThermalSample die readings s
  | .emergencyEnd die => Sys2Proof.Machine.execEmergencyEnd die s
  | .pwrwarnAssert => Sys2Proof.Machine.execPwrwarnAssert s
  | .winterRequest => Sys2Proof.Machine.execWinterRequest s
  | .pwrwarnDeassert => Sys2Proof.Machine.execPwrwarnDeassert s
  | .wakeRequest => Sys2Proof.Machine.execWakeRequest s
  | .winterSensorSample die readings => Sys2Proof.Machine.execWinterSensorSample die readings s
  | .thaw => Sys2Proof.Machine.execThaw s
  | .reset failed => Sys2Proof.Machine.execReset failed s
  | .lifeCycleTransition target signed => Sys2Proof.Machine.execLifeCycleTransition target signed s
  | .firmwareUpdate image counter signed => Sys2Proof.Machine.execFirmwareUpdate image counter signed s
  | .attestationRequest port nonce => Sys2Proof.Machine.execAttestationRequest port nonce s
  | .patrolScrub corrected bad => Sys2Proof.Machine.execPatrolScrub corrected bad s
  | .sensorRead => Sys2Proof.Machine.execSensorRead s
  | .eventLogRead => Sys2Proof.Machine.execEventLogRead s
  | .deadlineCountersRead => Sys2Proof.Machine.execDeadlineCountersRead s
  | .winterCountRead => Sys2Proof.Machine.execWinterCountRead s
  | .registerWrite w => Sys2Proof.Machine.execRegisterWrite w s
  | .nopBase => Sys2Proof.Machine.execNopBase s
  | .movBase a d => Sys2Proof.Machine.execMovBase a d s
  | .iaddBase k a d => Sys2Proof.Machine.execIaddBase k a d s
  | .shlBase n a d => Sys2Proof.Machine.execShlBase n a d s
  | .shrBase n a d => Sys2Proof.Machine.execShrBase n a d s
  | .andBase k a d => Sys2Proof.Machine.execAndBase k a d s
  | .moviBase k d => Sys2Proof.Machine.execMoviBase k d s
  | .braBase o => Sys2Proof.Machine.execBraBase o s
  | .ldsBase k a d => Sys2Proof.Machine.execLdsBase k a d s
  | .stsBase k a d => Sys2Proof.Machine.execStsBase k a d s
  | .exitBase => Sys2Proof.Machine.execExitBase s
  | .barBase id => Sys2Proof.Machine.execBarBase id s
  | .moviBaseLiteral d l => Sys2Proof.Machine.execMoviBaseLiteral d l s
  | .iaddBaseLiteral a d l => Sys2Proof.Machine.execIaddBaseLiteral a d l s
  | .andBaseLiteral a d l => Sys2Proof.Machine.execAndBaseLiteral a d l s
  | .ldsBaseLiteral a d l => Sys2Proof.Machine.execLdsBaseLiteral a d l s
  | .stsBaseLiteral a d l => Sys2Proof.Machine.execStsBaseLiteral a d l s
  | .nop f => Sys2Proof.Machine.execNop f s
  | .bra f => Sys2Proof.Machine.execBra f s
  | .brx f => Sys2Proof.Machine.execBrx f s
  | .call f => Sys2Proof.Machine.execCall f s
  | .callx f => Sys2Proof.Machine.execCallx f s
  | .ret f => Sys2Proof.Machine.execRet f s
  | .meet f => Sys2Proof.Machine.execMeet f s
  | .meetx f => Sys2Proof.Machine.execMeetx f s
  | .exit f => Sys2Proof.Machine.execExit f s
  | .bar f => Sys2Proof.Machine.execBar f s
  | .trap f => Sys2Proof.Machine.execTrap f s
  | .brk f => Sys2Proof.Machine.execBrk f s
  | .spawn f => Sys2Proof.Machine.execSpawn f s
  | .gate f => Sys2Proof.Machine.execGate f s
  | .release f => Sys2Proof.Machine.execRelease f s
  | .svc f => Sys2Proof.Machine.execSvc f s
  | .iadd f => Sys2Proof.Machine.execIadd f s
  | .isub f => Sys2Proof.Machine.execIsub f s
  | .iadd3 f => Sys2Proof.Machine.execIadd3 f s
  | .imul f => Sys2Proof.Machine.execImul f s
  | .imulh f => Sys2Proof.Machine.execImulh f s
  | .imad f => Sys2Proof.Machine.execImad f s
  | .imadw f => Sys2Proof.Machine.execImadw f s
  | .imin f => Sys2Proof.Machine.execImin f s
  | .imax f => Sys2Proof.Machine.execImax f s
  | .iaddmin f => Sys2Proof.Machine.execIaddmin f s
  | .iabs f => Sys2Proof.Machine.execIabs f s
  | .idp4 f => Sys2Proof.Machine.execIdp4 f s
  | .iset f => Sys2Proof.Machine.execIset f s
  | .sel f => Sys2Proof.Machine.execSel f s
  | .mov f => Sys2Proof.Machine.execMov f s
  | .movi f => Sys2Proof.Machine.execMovi f s
  | .lea f => Sys2Proof.Machine.execLea f s
  | .and f => Sys2Proof.Machine.execAnd f s
  | .or f => Sys2Proof.Machine.execOr f s
  | .xor f => Sys2Proof.Machine.execXor f s
  | .lop3 f => Sys2Proof.Machine.execLop3 f s
  | .shl f => Sys2Proof.Machine.execShl f s
  | .shr f => Sys2Proof.Machine.execShr f s
  | .sar f => Sys2Proof.Machine.execSar f s
  | .fsh f => Sys2Proof.Machine.execFsh f s
  | .bfx f => Sys2Proof.Machine.execBfx f s
  | .bfi f => Sys2Proof.Machine.execBfi f s
  | .popc f => Sys2Proof.Machine.execPopc f s
  | .clz f => Sys2Proof.Machine.execClz f s
  | .brev f => Sys2Proof.Machine.execBrev f s
  | .perm f => Sys2Proof.Machine.execPerm f s
  | .plop f => Sys2Proof.Machine.execPlop f s
  | .p2v f => Sys2Proof.Machine.execP2v f s
  | .v2p f => Sys2Proof.Machine.execV2p f s
  | .elect f => Sys2Proof.Machine.execElect f s
  | .fadd f => Sys2Proof.Machine.execFadd f s
  | .fmul f => Sys2Proof.Machine.execFmul f s
  | .ffma f => Sys2Proof.Machine.execFfma f s
  | .fmin f => Sys2Proof.Machine.execFmin f s
  | .fmax f => Sys2Proof.Machine.execFmax f s
  | .fset f => Sys2Proof.Machine.execFset f s
  | .fcls f => Sys2Proof.Machine.execFcls f s
  | .frnd f => Sys2Proof.Machine.execFrnd f s
  | .frcp f => Sys2Proof.Machine.execFrcp f s
  | .fsqrt f => Sys2Proof.Machine.execFsqrt f s
  | .frsq f => Sys2Proof.Machine.execFrsq f s
  | .fex2 f => Sys2Proof.Machine.execFex2 f s
  | .flg2 f => Sys2Proof.Machine.execFlg2 f s
  | .fscl f => Sys2Proof.Machine.execFscl f s
  | .fdp2 f => Sys2Proof.Machine.execFdp2 f s
  | .cvt f => Sys2Proof.Machine.execCvt f s
  | .shfl f => Sys2Proof.Machine.execShfl f s
  | .vote f => Sys2Proof.Machine.execVote f s
  | .wred f => Sys2Proof.Machine.execWred f s
  | .qxch f => Sys2Proof.Machine.execQxch f s
  | .qbc f => Sys2Proof.Machine.execQbc f s
  | .ld f => Sys2Proof.Machine.execLd f s
  | .ldc f => Sys2Proof.Machine.execLdc f s
  | .st f => Sys2Proof.Machine.execSt f s
  | .lds f => Sys2Proof.Machine.execLds f s
  | .sts f => Sys2Proof.Machine.execSts f s
  | .feset f => Sys2Proof.Machine.execFeset f s
  | .atom f => Sys2Proof.Machine.execAtom f s
  | .atoms f => Sys2Proof.Machine.execAtoms f s
  | .fence f => Sys2Proof.Machine.execFence f s
  | .cctl f => Sys2Proof.Machine.execCctl f s
  | .pfetch f => Sys2Proof.Machine.execPfetch f s
  | .lease f => Sys2Proof.Machine.execLease f s
  | .acp f => Sys2Proof.Machine.execAcp f s
  | .acwait f => Sys2Proof.Machine.execAcwait f s
  | .tcopy f => Sys2Proof.Machine.execTcopy f s
  | .mma f => Sys2Proof.Machine.execMma f s
  | .cvset f => Sys2Proof.Machine.execCvset f s
  | .mwait f => Sys2Proof.Machine.execMwait f s
  | .accwin f => Sys2Proof.Machine.execAccwin f s
  | .ald f => Sys2Proof.Machine.execAld f s
  | .ast f => Sys2Proof.Machine.execAst f s
  | .aclr f => Sys2Proof.Machine.execAclr f s
  | .tkget f => Sys2Proof.Machine.execTkget f s
  | .tkput f => Sys2Proof.Machine.execTkput f s
  | .sread f => Sys2Proof.Machine.execSread f s
  | .swrite f => Sys2Proof.Machine.execSwrite f s
  | .xEnd => Sys2Proof.Machine.execXEnd s
  | .xFail => Sys2Proof.Machine.execXFail s
  | .xMovi a k => Sys2Proof.Machine.execXMovi a k s
  | .xMovh a k => Sys2Proof.Machine.execXMovh a k s
  | .xAdd f => Sys2Proof.Machine.execXAdd f s
  | .xSub f => Sys2Proof.Machine.execXSub f s
  | .xAnd f => Sys2Proof.Machine.execXAnd f s
  | .xOr f => Sys2Proof.Machine.execXOr f s
  | .xXor f => Sys2Proof.Machine.execXXor f s
  | .xShl f => Sys2Proof.Machine.execXShl f s
  | .xShr f => Sys2Proof.Machine.execXShr f s
  | .xSar f => Sys2Proof.Machine.execXSar f s
  | .xZze a b => Sys2Proof.Machine.execXZze a b s
  | .xGetb f => Sys2Proof.Machine.execXGetb f s
  | .xPutb f => Sys2Proof.Machine.execXPutb f s
  | .xLdt f => Sys2Proof.Machine.execXLdt f s
  | .xLdw f => Sys2Proof.Machine.execXLdw f s
  | .xStw f => Sys2Proof.Machine.execXStw f s
  | .xLdp f => Sys2Proof.Machine.execXLdp f s
  | .xCopy f => Sys2Proof.Machine.execXCopy f s
  | .xBeq a b o => Sys2Proof.Machine.execXBeq a b o s
  | .xBne a b o => Sys2Proof.Machine.execXBne a b o s
  | .xBlt a b o => Sys2Proof.Machine.execXBlt a b o s
  | .xJ o => Sys2Proof.Machine.execXJ o s
  | .xInfo f => Sys2Proof.Machine.execXInfo f s
  | .xZzd a b => Sys2Proof.Machine.execXZzd a b s
  | .linkReturnToL0 port => Sys2Proof.Machine.execLinkReturnToL0 port s
  | .portReturnTimeout port => Sys2Proof.Machine.execPortReturnTimeout port s
  | .hostMemoryAccess a => Sys2Proof.Machine.execHostMemoryAccess a s
  | .contextCreate spec => Sys2Proof.Machine.execContextCreate spec s

end Sys2Proof.Machine
end

