-- ==== Sys2Proof/Machine/Turns.lean ====
section
/-!
DEFINITION. What a turn of the agenda does: the events of the cycle that are due before it, the issue of a sub-core, the
end of a cycle, one instruction of a Fitas run; and the turn taken when the agenda is empty (log 1, 2).
-/

namespace Sys2Proof.Machine

open Sys2Proof

/-! ### Events that are due -/

/-- The first candidate that passes a test. -/
def pickEvent (l : List (Bool × Instr)) : Option Instr := (l.find? Prod.fst).map Prod.snd

/-- The placed blocks. -/
def livePlaced (s : State) : List Nat := (List.range s.blocks.length).filter fun b => (s.block b).status = .placed

/-- A home wave's own events: its timer, a deadlock. -/
def homeDue (s : State) (b w : Nat) : Option Instr :=
  if timerDue s b w then some (.waveTimerExpiry b w)
  else if blockRuns s b && deadlocked s b w then some (.convergenceDeadlock b w) else none

/-- A set of lanes of a home wave that fires as the cycle ends, when all that arrive in it have arrived (02 R40). -/
def fireDue (s : State) (b w : Nat) : Option Instr :=
  if blockRuns s b then ((arrivalPcs s b w).find? fun pc => firedSet s b w pc != []).map fun pc => .crossLaneFire b w pc else none

/-- A thread of a physical wave stands at its meeting address. -/
def meetingDue (s : State) (x : WaveId) : Option Instr :=
  if !blockRuns s x.1 then none
  else ((groupPcs s x.1 x.2).find? fun pc => (groupTids s x.1 x.2 pc).any fun t => atMeeting (s.thread x.1 t)).map fun pc =>
    .meetingArrival x.1 x.2 pc

/-- A halving comes before everything else of its cycle (03 R79). -/
def halvingsDue (s : State) (cores : List Nat) : Option Instr := pickEvent (cores.map fun c => (halvingDue s c, .leaseHalving c))

/-- The move of a sub-core that is due: an admission by starvation, else a swap, else an activation (the order where more
than one is possible is the model's: DESIGN CHOICE, log 79). -/
def moveDue (s : State) (core sub : Nat) : Option Instr := pickEvent
  [((starved s core sub).isSome, .starvationAdmission core sub),
   ((swapOf s core sub).isSome, .waveSwap core sub),
   ((activationOf s core sub).isSome, .waveActivation core sub)]

/-- The moves of the sub-cores of a core come in ascending order (01 R17, 03 R76). -/
def movesDue (s : State) (core subs : Nat) : Option Instr := (List.range subs).findSome? (moveDue s core)

/-- What is due on a sub-core before it issues. -/
def subDue (s : State) (core sub : Nat) : Option Instr :=
  let ws := subWaves s core sub
  let homes := (placedOn s core).flatMap fun b => ((List.range (s.block b).waves.length).filter fun w => subOf (s.block b) w = sub).map fun w => (b, w)
  (halvingsDue s [core]).or ((homes.findSome? fun x => homeDue s x.1 x.2).or ((ws.findSome? (meetingDue s)).or
    ((movesDue s core (sub + 1)).or (pickEvent
      [(rotationDue s core sub, .issueRotation core sub),
       ((groupLimitDue s core sub).isSome, .groupIssueLimit core sub)]))))

/-- The cores that hold blocks. -/
def liveCores (s : State) : List Nat := ((livePlaced s).map fun b => (s.block b).core).eraseDups

/-- The cores that hold blocks and whose cycle ends with the next period. -/
def tickCores (s : State) : List Nat := (liveCores s).filter fun c => (s.die (c / 40)).ticks

/-- What is due before a cycle ends: halvings, the events of every home wave, the moves of every sub-core, drains,
reservations. -/
def cycleDue (s : State) : Option Instr :=
  let homes := (livePlaced s).flatMap fun b => if !(tickCores s).contains (s.block b).core then [] else (List.range (s.block b).waves.length).map fun w => (b, w)
  (halvingsDue s (tickCores s)).or ((homes.findSome? fun x => (homeDue s x.1 x.2).or (fireDue s x.1 x.2)).or
    (((tickCores s).findSome? fun c => movesDue s c 4).or (pickEvent
      ((List.range s.parts.length).map (fun p => (drainDue s p, Instr.drainTimeout p)) ++
       (List.range s.blocks.length).map (fun b => (longWait s b, Instr.placementReservation b))))))

/-- The event that comes before a turn; PWRWARN# comes as a cycle ends (17 R270). -/
def dueBefore (t : Turn) (s : State) : Option Instr :=
  if s.plat.winter ≠ .running then none
  else match t with
    | .issue c u => subDue s c u
    | .tick => cycleDue s
    | .fitas _ => none
    | .event .pwrwarnAssert => cycleDue s
    | .event (.starvationAdmission c u) | .event (.waveSwap c u) | .event (.waveActivation c u) =>
      (halvingsDue s (liveCores s)).or (movesDue s c (u + 1))
    | _ => halvingsDue s (liveCores s)

/-! ### Issue -/

/-- A higher sub-core of the core has issued in this cycle, or this one has (01 R17). -/
def issuedPast (s : State) (core sub : Nat) : Bool :=
  (List.range 4).any fun i => decide (sub ≤ i) && ((s.core core).subs.getD i default).issued = some (s.coreCycle core)

/-- What an issue slot finds: the wave, its group, its fetch. -/
def slotOf (s : State) (core sub : Nat) : Option (WaveId × DWord) :=
  if issuedPast s core sub then none
  else (pickWave s core sub).bind fun x => (pickGroup s x.1 x.2).map fun pc => (x, pc)

/-- The sub-core notes which wave issues (03 R74), and the wave which group, all of whose threads take its stamp (02 R36). -/
def noteSlot (core sub : Nat) (x : WaveId) (pc : DWord) (s : State) : State :=
  let rivals := (readyActive s core sub).any fun y => decide (y ≠ x)
  let s := modSub core sub (fun u =>
    let run := u.last = some x && u.issued = some (s.coreCycle core - 1)
    { u with last := some x, issued := some (s.coreCycle core), consec := if !rivals then 0 else if run then u.consec + 1 else 1 }) s
  let s := (groupTids s x.1 x.2 pc).foldl (fun s t => modThread x.1 t (stampThread (s.coreCycle core)) s) s
  modPWave x.1 x.2 (fun w => if w.cur = some pc then w else { w with cur := some pc, run := 0 }) s

/-- The group that an issue slot takes, as what is being executed. -/
def curOf (s : State) (x : WaveId) (pc : DWord) (len : Nat) : Cur :=
  { s.cur with block := x.1, pwave := x.2, pc := pc, len := len, tids := readyTids s x.1 x.2 pc, cyc := s.coreCycle (s.block x.1).core }

/-- A fetch that faults is a fault of the group (03 R65, 04 R108); an uncorrectable error may roll the block back (13 R244,
R246). -/
def fetchFaulted (x : WaveId) (pc : DWord) (cause : Nat) (s : State) : State :=
  (if cause = 0x1A then errorOrRollBack else raiseCause) x.1 cause (readyTids s x.1 x.2 pc) pc pc.toNat s

/-- The address of a fault 0x01 is zero; that of a fetch is the pc. -/
def issueFault (x : WaveId) (pc : DWord) (cause : Nat) (s : State) : State :=
  if cause = 0x01 then raiseCause x.1 cause (readyTids s x.1 x.2 pc) pc 0 s else fetchFaulted x pc cause s

/-- One issue slot: the instruction at the group's pc runs, or its fetch faults; without a ready wave nothing happens. -/
def issueTurn (core sub : Nat) (s : State) : Result :=
  match slotOf s core sub with
  | none => .next s
  | some (x, pc) => match fetch s x.1 pc with
    | .bad c => .next (issueFault x pc c (noteSlot core sub x pc s))
    | .ok i len => exec i { noteSlot core sub x pc s with cur := curOf s x pc len }

/-! ### One instruction of a Fitas run (11 R209) -/

/-- A run goes on while nothing has ended it; a decode of a halted context has been taken. -/
def runLive (s : State) (n : Nat) : Bool := (s.runs[n]?).any fun r => r.fin.isNone && !r.taken

def fitasTurn (n : Nat) (s : State) : Result :=
  if runLive s n && s.plat.winter = .running then
    let r := s.runs.getD n default
    let s := { s with cur := { s.cur with run := n } }
    if (xNext r).fin = some .over then exec (.stepBoundExceeded n) s
    else match decodeX (r.insns.getD r.pc 0) with
      | some i => exec i s
      | none => .next (modRun n (xBad (r.insns.getD r.pc 0)) s)
  else .next s

/-! ### The turn that moves (03 R74; the order of the events of one cycle) -/

/-- The first sub-core of a core, below a number, that has an instruction to issue in this cycle. -/
def readySub (s : State) (core subs : Nat) : Option Turn :=
  ((List.range subs).find? fun u => (slotOf s core u).isSome).map (.issue core)

/-- The issue that comes before a turn: in each cycle every sub-core with a ready wave issues (03 R74), the lower sub-cores
of a core first (01 R17). -/
def issueFirst (s : State) (t : Turn) : Option Turn :=
  if s.plat.winter ≠ .running then none
  else match t with
    | .issue c u => readySub s c u
    | .tick | .event .pwrwarnAssert => (tickCores s).findSome? fun c => readySub s c 4
    | _ => none

/-! ### Events that meet in one cycle -/

/-- The codec block that an entry of a thread reaches: context, region, block. -/
def codecBlockOf (s : State) (b t op : Nat) : Option (Nat × Nat × Nat) :=
  (findOp s b t op).bind fun o => if o.scratch then none
    else (regionAt s (ctxOf s b) o.va).map fun r => (ctxOf s b, r.idx, (o.va - r.base) / r.pbs)

/-- Bytes of a context: context, address, number. -/
abbrev Span := Nat × Nat × Nat

/-- The context of a request for a service, and its second argument. -/
def svcCtx (s : State) : SvcSource → Nat
  | .queue q => (s.queue q).spec.ctx
  | .thread b _ => ctxOf s b

def svcArg (s : State) : SvcSource → Nat
  | .queue q => ((nextOf s q 5).map fun p => pf p.raw 0x10 8).getD 0
  | .thread b t => match (s.thread b t).st with
    | .svcWait _ _ c _ _ _ => c
    | _ => 0

/-- The next element that a tensor copy stores. -/
def nextElem (s : State) (b id : Nat) : List Span :=
  ((findCopy s b (id / 1024) (id % 1024)).bind fun c => (tdescOf c.desc).bind fun d =>
    if d.dir = 0 then none
    else (((List.range d.count).filterMap d.elem)[c.got.length]?).map fun va => (ctxOf s b, va, d.esize)).toList

/-- The bytes that an event which is no step of an entry writes: an element of a tensor copy, a chunk of a COPY, a write of the host,
a SIGNAL, a region's information, a completion record. -/
def eventWrites (s : State) (x : Instr) : List Span :=
  match x with
  | .tcopyComplete b id => nextElem s b id
  | .copyChunk c => match s.xfers[c]? with
    | some x => [(x.ctx, x.chunk.2.1, x.chunk.2.2), (x.ctx, x.record, 32)]
    | none => []
  | .hostMemoryAccess (.write c va bytes) => [(c, va, bytes.length)]
  | .signal q _ => ((nextOf s q 3).map fun p => ((s.queue q).spec.ctx, pf p.raw 8 8, 8)).toList
  | .regionInfo src => [(svcCtx s src, svcArg s src, 32)]
  | .launchCompletion l => [((s.launch l).ctx, (s.launch l).record, 32)]
  | _ => []

/-- An event writes a block of a codec region. -/
def writesBlock (s : State) (x : Instr) (ctx r k : Nat) : Bool :=
  (match x with
    | .storePerform b t op => codecBlockOf s b t op = some (ctx, r, k)
    | _ => false) ||
  (eventWrites s x).any fun e => e.1 = ctx && (findRegion s ctx r).any fun g => (blocksAt g e.2.1 e.2.2).contains k

/-- The state that an event leaves. -/
def afterEvent (s : State) (y : Instr) : State :=
  match exec y s with
  | .next s' => s'
  | _ => s

/-- The blocks of a unit that are encoded, or leave the L2, between two states. -/
def leftOf (s s' : State) (u : CUnit) : List Nat :=
  match findUnit s' u.ctx u.region u.unit with
  | none => ((findRegion s u.ctx u.region).map fun r => blksOf r u.unit).getD []
  | some u' => (u.dirty ++ u.leaving.map Prod.fst).filter fun k =>
      !(u'.dirty.contains k || u'.leaving.any fun e => e.1 = k) || (u'.pinned.contains k && !u.pinned.contains k)

/-- The blocks that an event encodes or takes out of the L2: the one that it names or that the walker has come to, and whatever it
writes back or evicts. -/
def encodedBy (s : State) (y : Instr) : List (Nat × Nat × Nat) :=
  (match y with
    | .blockEncode ctx r k => [(ctx, r, k)]
    | .recodeWalk ctx r => (((findRegion s ctx r).bind Region.walker).map fun k => (ctx, r, k)).toList
    | _ => []) ++
  (if s.units = [] then [] else
    let s' := afterEvent s y
    s.units.flatMap fun u => (leftOf s s' u).map fun k => (u.ctx, u.region, k))

/-- The translations that the requests of an event look up: of those that it leaves at the controllers, of those that it leaves in
walks. -/
def askedBy (s s' : State) : List Span :=
  let old := s.ctls.flatMap Controller.reqs
  let asks := s.walks.flatMap fun w => w.asks.map fun a => (w.ctx, a)
  (((s'.ctls.flatMap Controller.reqs).filter fun r => !old.contains r).filterMap fun r => r.page.map fun p => (r.ctx, p * 2 ^ 16, 2 ^ 16)) ++
    ((s'.walks.flatMap fun w => w.asks.map fun a => (w.ctx, a)).filter fun a => !asks.contains a).map fun a => (a.1, a.2.va, 1)

/-- The translations that an event looks up: of its entry, its walk, its bytes, the slots of its region, and of whatever requests it
makes. -/
def looksUp (s : State) (y : Instr) : List Span :=
  let slots := fun (ctx r : Nat) => ((findRegion s ctx r).map fun g => (ctx, g.base, 1)).toList
  (match y with
    | .lineFill b t op _ => ((findOp s b t op).map fun o => (ctxOf s b, o.va, 1)).toList
    | .pageWalk _ _ ctx va => [(ctx, va, 1)]
    | .copyChunk c => match s.xfers[c]? with
      | some x => [(x.ctx, x.chunk.1, x.chunk.2.2), (x.ctx, x.chunk.2.1, x.chunk.2.2)]
      | none => []
    | .hostMemoryAccess (.read c va n) => [(c, va, n)]
    | .blockFill ctx r _ | .blockEncode ctx r _ | .recodeWalk ctx r => slots ctx r
    | _ => eventWrites s y) ++ askedBy s (afterEvent s y)

/-- An event that changes translations. -/
def changesPages : Instr → Bool
  | .codecBind .. | .codecUnbind .. | .map .. | .signal .. | .launchDispatch .. | .copy .. | .registerWrite (.ptes _) | .pageMigration .. => true
  | _ => false

/-- An event invalidates or moves a translation among some bytes: a binding, an unbinding, a MAP, what brings entries with it, a
migration. -/
def changesPage (s : State) (x : Instr) (e : Span) : Bool :=
  match x with
  | .codecBind src _ | .codecUnbind src _ => svcCtx s src = e.1
  | .map q _ _ | .signal q _ | .launchDispatch q _ _ | .copy q _ => (s.queue q).spec.ctx = e.1
  | .registerWrite (.ptes _) => true
  | .pageMigration _ ctx va _ => ctx = e.1 && (pagesOf e.2.1 e.2.2).contains (va / 2 ^ 16 * 2 ^ 16)
  | _ => false

/-- An invalidation or a migration comes before a lookup of its page (08 R178); of two events that both do both, neither does. -/
def changedFirst (s : State) (x y : Instr) : Bool :=
  changesPages x && (looksUp s y).any (changesPage s x) && !(changesPages y && (looksUp s x).any (changesPage s y))

/-- The lowest block of a region among some. -/
def lowestOf (es : List (Nat × Nat × Nat)) (ctx r : Nat) : Option Nat :=
  minNat ((es.filter fun e => e.1 = ctx && e.2.1 = r).map fun e => e.2.2)

/-- Of two events that encode blocks of one region, the one with the lower block comes first (11 R214). -/
def lowerFirst (s : State) (x y : Instr) : Bool :=
  let xs := encodedBy s x
  let ys := encodedBy s y
  xs.any fun e => match lowestOf xs e.1 e.2.1, lowestOf ys e.1 e.2.1 with
    | some i, some j => decide (i < j)
    | _, _ => false

/-- The port that an event declares lost. -/
def lossOf : Instr → Option Nat
  | .linkRecoveryTimeout p | .poolRequestTimeout p | .portReturnTimeout p => some p
  | _ => none

/-- A loss of a port, before what meets it: the loss of a higher one, a snoop of it, the fill or the load of an entry behind it, what
may enter Winter. -/
def lossFirst (s : State) (p : Nat) (y : Instr) : Bool :=
  let behind := fun (b t op : Nat) => (findOp s b t op).any fun o => !o.scratch && portOf s (ctxOf s b) o.va = p &&
    (s.ctx (ctxOf s b)).pools.any fun r => decide (r.base ≤ o.va ∧ o.va < r.base + r.len)
  match y with
  | .backInvalidationSnoop sn => sn.port = p
  | .lineFill b t op _ | .loadSatisfy b t op _ _ => behind b t op
  | .winterRequest | .thermalSample .. | .pwrwarnAssert => true
  | _ => (lossOf y).any fun q => decide (p < q)

/-- An event that raises a stop record. -/
def records (s : State) (x : Instr) : Bool :=
  match exec x s with
  | .next s' => decide (s.ring.length < s'.ring.length)
  | _ => false

/-- AN EVENT THAT COUNTS AS COMING BEFORE ANOTHER OF ITS CYCLE: a window before all that it counts (08 R175), an invalidation
or a migration before the lookups of its pages (08 R178), a demand fill before the recode walker and before the encode of its
block, a write of a block before its encode (09 R195; 11 R223), the lower of two blocks that escape (11 R214), port 0 before
port 1, a loss before a snoop, a fill or a load of its port, or an entry of Winter, a snoop before an unmapping or a transition (15
R260), a fault before PWRWARN# (17 R270). -/
def precedes (s : State) (x y : Instr) : Bool :=
  x ≠ y && ((match x, y with
    | .budgetWindow i, .budgetWindow j => decide (i < j)
    | .budgetWindow _, _ => true
    | .lineFill b t op _, .recodeWalk ctx r => (codecBlockOf s b t op).any fun e => e.1 = ctx && e.2.1 = r
    | .lineFill b t op _, _ => (codecBlockOf s b t op).any (encodedBy s y).contains
    | .backInvalidationSnoop _, .map .. | .backInvalidationSnoop _, .launchDispatch .. => true
    | _, .pwrwarnAssert => records s x
    | _, _ => false) ||
  changedFirst s x y || lowerFirst s x y ||
  ((encodedBy s y).any fun e => writesBlock s x e.1 e.2.1 e.2.2) ||
  (lossOf x).any fun p => lossFirst s p y)

/-! ### The end of a cycle -/

/-- The physical waves of a block count the cycles of a long-latency wait (03 R75), and those for which an active one has stayed
ready without an issue (02 R50). -/
def countWaits (s : State) (b : Nat) : State :=
  (List.range (s.block b).pwaves.length).foldl (fun s w =>
    let long := (pwaveOf s (b, w)).active && blockRuns s b && longBlocked s (b, w)
    let served := (pwaveOf s (b, w)).lastIssue = some (s.coreCycle (s.block b).core)
    let stays := canIssue s (b, w) && !served
    modPWave b w (fun p => { p with ll := if long then p.ll + 1 else 0, unserved := if stays then p.unserved + 1 else 0 }) s) s

/-- A wave's timer advances, and its snapshots for the next cycle are taken (04 Table 04.2; 06 R143; 03 R82). -/
def tickWave (v : Wave) : Wave :=
  let t := v.wtim + 1
  { v with wtim := t, tagsS := v.tags, hit := v.hit || (t = v.wtlim && v.wtlim != 0), accBaseS := v.accBase, accLimS := v.accLim, leaseS := v.lease }

def tickTile (t : Tile) : Tile := { t with ownerS := t.owner }

def tickBlock (s : State) (b : Nat) : State :=
  let s := (List.range 16).foldl (fun s i => settleCv b i (judgeBar b i s)) (sweepSlots b s)
  let s := countWaits s b
  modBlock b (fun k => { k with waves := k.waves.map tickWave, tiles := k.tiles.map tickTile, landed := [] }) s

/-- A context that a partition runs counts the cycles of its dies (13 R241, 01 R21). -/
def tickCtx (s : State) (c : Context) : Context :=
  if s.parts.any fun p => p.ctx = some c.spec.num && p.cores.any fun i => (s.die (i / 40)).ticks then { c with cyc := c.cyc + 1 } else c

/-- A current group that is blocked as a cycle begins is current no longer (02 R36). -/
def dropBlocked (s : State) (b : Nat) : State :=
  (List.range (s.block b).pwaves.length).foldl (fun s w =>
    match (pwaveOf s (b, w)).cur with
    | some pc => if blockRuns s b && !groupReady s b w pc then modPWave b w (fun p => { p with cur := none, run := 0 }) s else s
    | none => s) s

/-- The next period: every die whose clock has come round ends its cycle; in Winter the core clock stands still. -/
def tickTurn (s : State) : State :=
  if s.plat.winter ≠ .running then s
  else
    let cores := tickCores s
    let bs := (livePlaced s).filter fun b => cores.contains (s.block b).core
    let s := cores.foldl (fun s c => startWaiters c (settleCaptures c s)) (bs.foldl tickBlock s)
    bs.foldl dropBlocked { s with cycle := s.cycle + 1, ctxs := s.ctxs.map (tickCtx s), dies := s.dies.map Die.tick }

/-! ### An uncorrectable SRAM error (13 Table 13.2, R244) -/

/-- Threads of a placed block have consumed it at the instruction `pc`: rollback where it can, else fault 0x1B. -/
def sramErrorTurn (b : Nat) (tids : List Nat) (pc : DWord) (s : State) : State :=
  let ts := (tidsOf (s.block b)).filter tids.contains
  if ts ≠ [] ∧ (s.block b).status = .placed ∧ s.plat.winter = .running then errorOrRollBack b 0x1B ts pc 0 s else s

/-! ### The firmware cores and the host (17 R264, 03 R51) -/

/-- A firmware core that runs takes its oldest message, the EH with it the oldest record of the ring; without a message it
goes to sleep. One whose own message waits for another's room waits with it. The EH takes the records of a cycle after it, when all of
them have arrived (13 R232). In Winter only the PW and the SE run. -/
def firmwareTurn (c : FwCore) (s : State) : State :=
  if (c = .eh ∧ (nextRecord s.ring).any fun r => r.at_ = s.cycle) ∨ (s.plat.winter ≠ .running ∧ c ≠ .pw ∧ c ≠ .se) ∨ (s.plat.waiting.any fun e => e.1 ≠ c && e.2.source.toNat = fwSource c) then s
  else if s.plat.inbox c = [] then modPlat (fun p => if p.asleep.contains c then p else { p with asleep := p.asleep ++ [c] }) s
  else modPlat (Platform.takeMessage c) (if c = .eh then receiveRecord s else s)

/-! ### Taking a turn -/

def takeTurn (t : Turn) (s : State) : Result :=
  match t with
  | .issue c u => issueTurn c u s
  | .fitas n => fitasTurn n s
  | .event i => if i.isTorile || i.isFitas || !powered i s then .next s else exec i s
  | .sramError b tids pc => .next (sramErrorTurn b tids pc s)
  | .firmware c => .next (firmwareTurn c s)
  | .hostStore fn addr bytes => .next (hostWrite fn addr bytes s)
  | .tick => .next (tickTurn s)

/-! ### The turn of an empty agenda (log 2) -/

/-- Everything resident, no page table to write. -/
def plainPlan : MmPlan := ⟨true, []⟩

def opEvents (s : State) (b t : Nat) (o : MemOp) : List Instr :=
  let x := newestIn s o.source (.blk b) s.now
  [.lineFill b t o.id [], .loadSatisfy b t o.id (if x = 0 then none else some (x - 1)) s.now, .storePerform b t o.id]

def threadEvents (s : State) (b t : Nat) : List Instr :=
  let th := s.thread b t
  (th.prods.map fun p => Instr.producerCompletion b t p.id) ++ th.ops.flatMap (opEvents s b t) ++
    match th.st with
    | .svcWait 1 .. => [.codecLoad (.thread b t)]
    | .svcWait 2 .. => [.codecBind (.thread b t) []]
    | .svcWait 3 .. => [.codecUnbind (.thread b t) []]
    | .svcWait 4 .. => [.regionInfo (.thread b t)]
    | _ => []

def blockEvents (s : State) (b : Nat) : List Instr :=
  let k := s.block b
  let n := k.tiles.length
  (tidsOf k).flatMap (threadEvents s b) ++
    k.copies.flatMap (fun c => [Instr.acpTransferComplete b (c.id * 1024 + c.tid), .tcopyComplete b (c.id * 1024 + c.tid)]) ++
    (List.range n).map (fun i => Instr.tokenGrant b i) ++
    (List.range n).flatMap (fun i => (List.range k.waves.length).map fun w => Instr.tokenReturn b w i) ++
    [.mmaCapture k.core, .mmaCompletion k.core, .blockRetirement b, .blockSave b]

def queueEvents (q : Nat) (x : Queue) : List Instr :=
  [.launch q, .copy q plainPlan, .signal q plainPlan, .tokclr q, .map q [] [], .codecLoad (.queue q), .codecBind (.queue q) [],
   .codecUnbind (.queue q) [], .regionInfo (.queue q)] ++
    (x.pkts.filter fun p => p.st = .pending).map fun p => .launchDispatch q p.n plainPlan

/-- A span goes to the first core that takes it whole. -/
def placeEvents (s : State) (b : Nat) : List Instr :=
  if (s.block b).status = .unplaced ∧ (spanBlocks s b).head? = some b then
    (coresFor s (ctxOf s b)).map fun c => .blockPlacement b ((List.range (spanBlocks s b).length).map fun i => (c, i))
  else []

/-- What the machine could do of itself, with the plainest choices. -/
def ownEvents (s : State) : List Instr :=
  (livePlaced s).flatMap (blockEvents s) ++
    s.walks.map (fun w => Instr.pageWalk w.die w.group w.ctx (w.page * 2 ^ 16)) ++
    (List.range s.ctls.length).flatMap (fun c => if (s.ctl c).reqs = [] then [] else [Instr.controllerServe c .ok]) ++
    s.fills.map (fun f => Instr.blockFill f.ctx f.region f.blk) ++
    (List.range s.parts.length).map (fun p => Instr.partitionStop p ⟨(livePlaced s).flatMap (entriesOf s), []⟩) ++
    (List.range s.items.length).map (fun i => Instr.frontierAdvance i 4) ++
    (List.range s.queues.length).flatMap (fun q => queueEvents q (s.queue q)) ++
    (List.range s.blocks.length).flatMap (placeEvents s) ++
    (List.range s.xfers.length).map (fun c => Instr.copyChunk c) ++
    (List.range s.launches.length).map (fun l => Instr.launchCompletion l)

/-- The slots of the cores that hold blocks. -/
def slotTurns (s : State) : List Turn :=
  (liveCores s).flatMap fun c => (List.range 4).map fun u => .issue c u

/-- The turn changes the state. -/
def changes (s : State) (t : Turn) : Bool :=
  match takeTurn t s with
  | .next s' => decide (s' ≠ s)
  | _ => true

/-- The launch whose gate the `GATE` of an issue slot passes. -/
def gateOf (s : State) (core sub : Nat) : Option Nat :=
  (slotOf s core sub).bind fun e => match fetch s e.1.1 e.2 with
    | .ok (.gate _) _ => (predOf s (s.launchOf e.1.1)).bind Packet.launch
    | _ => none

/-- A signer of the instance at the head of a core's queue stands at the `MWAIT` of its cv. -/
def mwaitMet (s : State) (core : Nat) : Bool :=
  (s.core core).mq.head?.any fun i => i.sigs.any fun g =>
    (s.thread i.block g.tid).st = .ready && match fetch s i.block (s.thread i.block g.tid).pc with
      | .ok (.mwait f) _ => f.rd.toNat = i.cv
      | _ => false

/-- The events of a cycle take place, each in its turn: whether after one of them a wave is in no long-latency wait, and the state at
their end. -/
def readiedBy (x : WaveId) (l : List Instr) (s : State) : Bool × State :=
  l.foldl (fun (a : Bool × State) y => match takeTurn (.event y) a.2 with
    | .next s' => (a.1 || !longBlocked s' x, s')
    | _ => a) (false, s)

/-- So in one of a number of rounds of them. -/
def readiesIn (x : WaveId) (l : List Instr) : Nat → State → Bool
  | 0, _ => false
  | n + 1, s => let r := readiedBy x l s; r.1 || (decide (r.2 ≠ s) && readiesIn x l n r.2)

/-- Among the events of the cycle, one that does something and that none of the others that do something comes before. -/
def firstEvent (s : State) : Nat → Instr → List Instr → Instr
  | 0, x, _ => x
  | fuel + 1, x, l => match l.find? fun y => precedes s y x && changes s (.event y) with
    | some y => firstEvent s fuel y l
    | none => x

/-- An event of a cycle that comes before an issue of it: the completion of the launch whose gate a `GATE` passes, the completion of
the instance that an `MWAIT` waits for (19 R344); or before a swap whose candidate the events of the cycle, in a number of rounds,
ready: the first of them that does something (03 R82). -/
def eventBefore (rounds : Nat) (s : State) (t : Turn) (events : List Instr) : Option Instr :=
  let out := match dueBefore t s with
    | some (.waveSwap c u) => (swapOf s c u).map Prod.fst
    | _ => none
  let readied := out.any fun x => readiesIn x events rounds s
  let meets := fun (y : Instr) => readied || match t, y with
    | .issue c u, .launchCompletion l => gateOf s c u = some l
    | .issue c _, .mmaCompletion c' => c = c' && mwaitMet s c
    | _, _ => false
  (events.find? fun y => meets y && changes s (.event y)).map fun y => firstEvent s events.length y events

/-- A slot that has an event due or an instruction to issue; else the first turn that does something; else the end of the
cycle. -/
def ownTurn (s : State) : Turn :=
  let slots := (slotTurns s).filter fun t => (dueBefore t s).isSome || changes s t
  let events := ownEvents s
  match slots.head? with
  | some t => ((eventBefore events.length s t events).map Turn.event).getD t
  | none =>
    let runs := (List.range s.runs.length).filterMap fun n => if runLive s n then some (Turn.fitas n) else none
    match (runs ++ events.map Turn.event).find? (changes s) with
    | some (.event y) => .event (firstEvent s events.length y events)
    | some t => t
    | none => .tick

/-! ### Which turn of an agenda is taken -/

/-- The events of the cycle that are still to come in an agenda. -/
def eventsOf (rest : List Turn) : List Instr :=
  (rest.takeWhile (· ≠ .tick)).filterMap fun t => match t with
    | .event y => some y
    | _ => none

/-- The turn that moves next, and what is left of the agenda. -/
def pickTurn (s : State) (t : Turn) (rest : List Turn) : Turn × List Turn :=
  match eventBefore 1 s ((issueFirst s t).getD t) (eventsOf rest) with
  | some y => (.event y, (t :: rest).erase (.event y))
  | none => match issueFirst s t, t with
    | some u, _ => (u, t :: rest)
    | none, .event x =>
      let y := Turn.event (firstEvent s rest.length x (eventsOf rest))
      (y, (t :: rest).erase y)
    | none, _ => (t, rest)

end Sys2Proof.Machine
end

