-- ==== Sys2Proof/Machine/Load.lean ====
section
/-!
DEFINITION. A program placed from outside: one instruction at the pc of a one-thread block that issues next, or as the
program of a Fitas run (log 3).
-/

namespace Sys2Proof.Machine

open Sys2Proof

/-- The context of the placed block. Its five-level table (08 R157) starts at physical address 0 and maps two pages. -/
def loadSpec : ContextSpec := ⟨0, 0, 0, [], 0x1000000, false⟩

def loadLeaf (frame : Nat) : Leaf := ⟨5, .hard, false, false, 0, true, true, true, frame, 0⟩

/-- Entry and address: four pointers, then the leaves of a data page at 0 and of the code page at 0x10000. -/
def loadPtes : List (Nat × BitVec 64) :=
  ((List.range 4).map fun i => (0x1000 * i, BitVec.ofNat 64 (2 ^ 63 + 3 * 2 ^ 61 + 0x1000 * (i + 1)))) ++
    [(0x4000, BitVec.ofNat 64 (pteOf (loadLeaf 0x10000))), (0x4008, BitVec.ofNat 64 (pteOf (loadLeaf 0x20000)))]

def loadLaunch : Launch :=
  { launchOfPacket 0 0 0 1 [] with
      threads := 1, regs := 512, tiles := 24, scratch := 4096, entry := 0x10000#64
      ranges := [⟨0, 0x20000, 0, .hard, true, true, true⟩] }

/-- The block in its place: core 0, sub-core 0, its wave active. -/
def loadBlock (l time cycle : Nat) : Block :=
  let k := placeBlock loadLaunch 0 0 cycle (newBlock l 0 1 0x10000#64 0 time none none)
  { k with pwaves := k.pwaves.map fun w => { w with active := true } }

def loadCore (b cycle : Nat) : Core :=
  { Core.init with halved := cycle, subs := modAt (fun u => { u with last := some (b, 0) }) 0 Core.init.subs }

/-- A Torile instruction's bytes at the pc of a thread whose sub-core issues next. -/
def placeCode (bytes : List Byte) (s : State) : State :=
  let l := s.launches.length
  let b := s.blocks.length
  let c : Context := ⟨loadSpec, [], [], false, false, [], 0, List.replicate 4 0, [], [], [], [], [], []⟩
  let s := writePtes loadPtes s
  let s := { s with
    ctxs := s.ctxs.filter (fun x => x.spec.num ≠ 0) ++ [c]
    parts := s.parts.filter (fun p => !p.cores.contains 0 && !p.cores.contains 1 && p.ctx ≠ some 0) ++ [⟨[0, 1], some 0, none, false, none⟩]
    launches := s.launches ++ [loadLaunch], blocks := s.blocks ++ [loadBlock l s.cycle (s.coreCycle 0)]
    cores := modAt (fun _ => loadCore b (s.coreCycle 0)) 0 s.cores, agenda := [.issue 0 0] }
  modPlat (fun p => { p with winter := .running }) (sysWrite 0 0x10000 bytes s)

/-- A run of the program `w`, X.END. -/
def loadRun (w : Word) : XRun :=
  { ctx := 0, region := 0, blk := 0, gen := 0, encode := false, pbs := 128, sbs := 128, bound := 4096, insns := [w, 0]
    table := [], params := List.replicate 8 0, k := List.replicate 8 0, work := List.replicate 64 0
    inp := List.replicate 127 0, out := List.replicate 128 0, inCur := 0, outCur := 0, pc := 0, count := 0, fin := none
    taken := false }

def placeRun (w : Word) (s : State) : State :=
  modPlat (fun p => { p with winter := .running }) { s with runs := s.runs ++ [loadRun w], agenda := [.fitas s.runs.length] }

/-- The instruction that `decodeTableWord` reads: Torile where Torile has it, else Fitas. -/
def placeWord (nbits w : Nat) (s : State) : State :=
  match decode (tableBytes nbits w) with
  | .ok _ _ => placeCode (tableBytes nbits w) s
  | .bad _ => placeRun (BitVec.ofNat 32 (w % 2 ^ nbits)) s

end Sys2Proof.Machine
end

