-- ==== Sys2Proof/Machine/Step.lean ====
section
/-!
DEFINITION. One step of the machine: the next turn of the agenda, or the event that is due before it.
-/

namespace Sys2Proof.Machine

open Sys2Proof

/-- The turn that moves next, and what is left of the agenda. -/
def nextTurn (s : State) : Turn × List Turn :=
  match s.agenda with
  | [] => (ownTurn s, [])
  | t :: rest => pickTurn s t rest

/-- An event of the cycle that is due comes first, and the turn waits (log 1). -/
def step (s : State) : Host.Outcome State Fault Refusal :=
  match dueBefore (nextTurn s).1 s with
  | some i => exec i s
  | none => takeTurn (nextTurn s).1 { s with agenda := (nextTurn s).2 }

/-- The instruction that the opcode table numbers as `w`, placed where the next step fetches. -/
def State.withFetchWord (s : State) (nbits w : Nat) : State := placeWord nbits w s

end Sys2Proof.Machine
end

