-- ==== Sys2Proof/Safety.lean ====
section
/-!
DEFINITION. The words in which claims about the machine are made: when nothing stops or holds a PC group, what an
instruction changes and what it leaves, and the invariant of the memories.
-/

namespace Sys2Proof.Machine

open Sys2Proof

/-! ### Memory -/

/-- The scratch of a block and the bits of its granules, those its checkpoint keeps, and the cells of its tiles are in canonical form. -/
structure BlockCanonical (k : Block) : Prop where
  scratch : Memory.wf k.scratch
  fe : SparseWf true k.fe
  ckpt : ∀ c ∈ k.ckpt, Memory.wf c.scratch ∧ SparseWf true c.fe
  tiles : ∀ x ∈ k.tiles, SparseWf 0 x.cells

/-- Every memory of the machine is in canonical form: virtual, device physical and the host's, and the scratch and the
accumulator store of every block. -/
structure Canonical (s : State) : Prop where
  mem : Memory.wf s.mem
  pmem : Memory.wf s.pmem
  hmem : Memory.wf s.hmem
  blocks : ∀ k ∈ s.blocks, BlockCanonical k

/-- Every byte of memory reads as before: global memory, by its newest store and as the system sees it, the device
physical memory, and the scratch of every block. -/
structure MemorySame (s t : State) : Prop where
  newest : ∀ key, newestByte t key = newestByte s key
  system : ∀ key, sysByte t key = sysByte s key
  device : ∀ a, memGet t.pmem a = memGet s.pmem a
  scratch : ∀ b a, memGet (t.block b).scratch a = memGet (s.block b).scratch a

/-! ### A PC group -/

/-- The current group is one of a block: its threads are there, each once, with their home waves. -/
abbrev GroupOk (s : State) : Prop :=
  s.cur.block < s.blocks.length ∧ s.cur.tids ≠ [] ∧ s.cur.tids.Nodup ∧
    ∀ t ∈ s.cur.tids, t < (s.block s.cur.block).threads.length ∧
      homeWave (s.launchOf s.cur.block) t < (s.block s.cur.block).waves.length

/-- Nothing of 04 R83-R88 and 02 R49 stops or holds a thread of the group: the register fields lie in the file, the
lanes of a pair agree on the guard of a branch, and a thread whose guard is true finds its sources and its destination
FULL and no other wait. -/
abbrev Unhindered (i : Instr) (s : State) : Prop :=
  GroupOk s ∧ rangeOk (fieldsOf i).1 (fieldsOf i).2 (s.launchOf s.cur.block).regs = true ∧
    ∀ t ∈ s.cur.tids, guardDiffers i (s.thread s.cur.block t) = false ∧
      (threadGuard i s s.cur.block t = true →
        threadNotReady i s s.cur.block t = false ∧ threadWaits i s s.cur.block s.cur.tids t = false)

/-- The threads of the group whose guard is true. -/
def onTids (i : Instr) (s : State) : List Nat := s.cur.tids.filter fun t => threadGuard i s s.cur.block t

/-- Every thread of the group with a true guard passes a check. -/
abbrev OnAll (i : Instr) (s : State) (p : Nat → Prop) : Prop :=
  ∀ t ∈ s.cur.tids, threadGuard i s s.cur.block t = true → p t

/-- A thread that passes an instruction: its pc and its stamp. -/
def passed (s : State) (t : Nat) : Thread := stampThread s.cur.cyc (advancePc s.cur.len (s.thread s.cur.block t))

/-- THE FRAME OF A LANE INSTRUCTION. Each thread of the group becomes `g tid`; every other thread, block and part of the
machine is as before, but for the bookkeeping of the issue (the wave's current group, the block's count of issues) and
what `h` does to the block. -/
structure GroupStep (g : Nat → Thread) (h : Block → Block) (s t : State) : Prop where
  rest : t = { s with blocks := t.blocks }
  count : t.blocks.length = s.blocks.length
  others : ∀ b, b ≠ s.cur.block → t.block b = s.block b
  own : ∃ ths pws, t.block s.cur.block =
    { h (s.block s.cur.block) with threads := ths, pwaves := pws, issues := (s.block s.cur.block).issues + 1 }
  group : ∀ tid ∈ s.cur.tids, t.thread s.cur.block tid = g tid
  threads : ∀ tid, tid ∉ s.cur.tids → t.thread s.cur.block tid = s.thread s.cur.block tid

/-- The group as an instruction leaves it: a thread with a false guard passes, one with a true guard passes and becomes
what `f` makes of it. -/
def guarded (i : Instr) (f : Nat → Thread → Thread) (s : State) (t : Nat) : Thread :=
  if threadGuard i s s.cur.block t then f t (passed s t) else passed s t

/-- The usual lane instruction: only threads change. -/
abbrev LaneStep (i : Instr) (f : Nat → Thread → Thread) (s t : State) : Prop := GroupStep (guarded i f s) id s t

/-- What ending a rollback interval does to a block, if some guard is true (13 R243). -/
def endedIf (c : Bool) (k : Block) : Block := if c then { k.performLog with rollable := false } else k

/-! ### The arithmetic instructions -/

/-- The operation of every instruction at a fixed latency that computes a result of its own lane (04 R86). -/
def aluOf : Instr → Option AluOp
  | .movBase .. => some opMov
  | .iaddBase .. => some opAdd
  | .shlBase .. => some opShl
  | .shrBase .. => some opShr
  | .andBase .. => some opAnd
  | .moviBase .. => some opMovi
  | .moviBaseLiteral .. => some opMovi
  | .iaddBaseLiteral .. => some opAdd
  | .andBaseLiteral .. => some opAnd
  | .iadd _ => some opAdd
  | .isub _ => some opSub
  | .iadd3 _ => some opAdd3
  | .imul _ => some opMul
  | .imulh _ => some opMulH
  | .imad _ => some opMad
  | .imadw _ => some opMadW
  | .imin _ => some (opMinMax false)
  | .imax _ => some (opMinMax true)
  | .iaddmin _ => some opAddMin
  | .iabs _ => some opAbs
  | .idp4 _ => some opDp4
  | .iset _ => some opIset
  | .sel _ => some opSel
  | .mov _ => some opMov
  | .movi _ => some opMovi
  | .lea _ => some opLea
  | .and _ => some opAnd
  | .or _ => some opOr
  | .xor _ => some opXor
  | .lop3 _ => some opLop3
  | .shl _ => some opShl
  | .shr _ => some opShr
  | .sar _ => some opSar
  | .fsh _ => some opFsh
  | .bfx _ => some opBfx
  | .bfi _ => some opBfi
  | .popc _ => some opPopc
  | .clz _ => some opClz
  | .brev _ => some opBrev
  | .perm _ => some opPerm
  | .plop _ => some opPlop
  | .p2v _ => some opP2v
  | .fadd _ => some (floatOp 2 elemAdd)
  | .fmul _ => some (floatOp 2 elemMul)
  | .ffma _ => some (floatOp 3 elemFma)
  | .fmin _ => some (floatOp 2 (elemMinMax false))
  | .fmax _ => some (floatOp 2 (elemMinMax true))
  | .fset _ => some opFset
  | .fcls _ => some opFcls
  | .frnd _ => some (floatOp 1 elemRnd)
  | .fscl _ => some opScl
  | .fdp2 _ => some opDp2
  | .cvt _ => some opCvt
  | _ => none

/-- Those that leave FLAGS alone: every one but the float class (05 R121). -/
def aluQuiet : Instr → Bool
  | .fadd _ | .fmul _ | .ffma _ | .fmin _ | .fmax _ | .fset _ | .fcls _ | .frnd _ | .fscl _ | .fdp2 _ | .cvt _ => false
  | i => (aluOf i).isSome

/-- One thread of an arithmetic instruction. -/
def aluStep (i : Instr) (op : AluOp) (th : Thread) : Thread := aluThread (fieldsOf i).1 (fieldsOf i).2 op th

/-- The result of an arithmetic instruction in one thread, before its registers cut it to their width. -/
def aluResult (i : Instr) (th : Thread) : Nat :=
  let f := (fieldsOf i).1
  (((aluOf i).getD opMov) f th.vals (rmOf f.rm th.rm) (opds f (fieldsOf i).2 th.vals)).1

/-- The functions of the special-function unit (18 R309). -/
def sfuOf : Instr → Option (Nat → Bool → FV → Nat × Nat)
  | .frcp _ => some frcpFV
  | .fsqrt _ => some fsqrtFV
  | .frsq _ => some frsqFV
  | .fex2 _ => some fex2FV
  | .flg2 _ => some flg2FV
  | _ => none

/-! ### The one rounding (05 R118-R120), on exact values -/

/-- The real that a finite value stands for. -/
def FV.rat : FV → Rat
  | .fin n m e => (signedM n m : Rat) * (2 : Rat) ^ e
  | _ => 0

def FV.isFin : FV → Bool
  | .fin .. => true
  | _ => false

/-- Which of its neighbours on a grid of spacing q a value goes to. -/
def onGrid (rm : Nat) (q v : Rat) : Rat :=
  let n := (v / q).floor
  let lo : Rat := n * q
  let hi := lo + q
  if v = lo then lo
  else if rm = rmRNE then (if v - lo < hi - v then lo else if hi - v < v - lo then hi else if n % 2 = 0 then lo else hi)
  else if rm = rmRNA then (if v - lo < hi - v then lo else if hi - v < v - lo then hi else if lo.abs < hi.abs then hi else lo)
  else if rm = rmRTZ then (if lo.abs < hi.abs then lo else hi)
  else if rm = rmRDN then lo
  else hi

/-- The largest finite value of a format. -/
def Fmt.maxf (f : Fmt) : Rat := (unpackF f (f.infBits - 1)).rat

/-- `round_fmt` of an exact value other than zero, then FTZO, gives a pattern and flags; a zero has the sign of the value
(log 104). -/
def RoundsTo (f : Fmt) (rm : Nat) (ftzo : Bool) (v : Rat) (r : Nat × Nat) : Prop :=
  ∃ k : Int, (2 : Rat) ^ k ≤ v.abs ∧ v.abs < (2 : Rat) ^ (k + 1) ∧
    let x := onGrid rm ((2 : Rat) ^ (max k f.emin - f.fb)) v
    let away := rm = rmRNE ∨ rm = rmRNA ∨ (rm = rmRUP ∧ 0 < v) ∨ (rm = rmRDN ∧ v < 0)
    let tiny := ftzo = true ∧ x ≠ 0 ∧ x.abs < (2 : Rat) ^ f.emin
    (f.maxf < x.abs → r = (f.sign (decide (v < 0)) + (if away then f.infBits else f.infBits - 1), fOF ||| fNX)) ∧
    (x.abs ≤ f.maxf → r.1 < 2 ^ f.width ∧ (unpackF f r.1).isFin = true ∧
      (unpackF f r.1).rat = (if tiny then 0 else x) ∧ r.1.testBit (f.eb + f.fb) = decide (v < 0) ∧
      r.2 = (if x ≠ v ∨ tiny then fNX else 0) ||| (if (v.abs < (2 : Rat) ^ f.emin ∧ x ≠ v) ∨ tiny then fUF else 0))

/-- a is less than b, as extended reals; no NaN is. -/
def FV.Less : FV → FV → Prop
  | .nan _, _ => False
  | _, .nan _ => False
  | .inf n, .inf m => n = true ∧ m = false
  | .inf n, .fin .. => n = true
  | .fin .., .inf m => m = false
  | .fin n m e, .fin n' m' e' => (FV.fin n m e).rat < (FV.fin n' m' e').rat

/-- A product whose factors are an infinity and no zero is a term of its sign. -/
def infiniteTerm (n : Bool) (p : FV × FV) : Prop :=
  p.1.isNan = false ∧ p.2.isNan = false ∧ (p.1.isInf = true ∧ p.2.isZero = false ∨ p.2.isInf = true ∧ p.1.isZero = false) ∧
    xor p.1.neg? p.2.neg? = n

/-- The sum of products `ps` and of single terms `ts`, formed exactly and rounded once, with the sign of an exact zero and the cases
that override the sum (05 R118, R119, R134). -/
def SumRounds (f : Fmt) (rm : Nat) (z : Bool) (ps : List (FV × FV)) (ts : List FV) (r : Nat × Nat) : Prop :=
  let S : Rat := (ps.map fun p => p.1.rat * p.2.rat).sum + (ts.map FV.rat).sum
  let all := (ps.map Prod.fst ++ ps.map Prod.snd) ++ ts
  let isInf := fun n => (∃ p ∈ ps, infiniteTerm n p) ∨ FV.inf n ∈ ts
  let bad := (∃ p ∈ ps, (p.1.isInf = true ∧ p.2.isZero = true) ∨ (p.1.isZero = true ∧ p.2.isInf = true)) ∨ (isInf true ∧ isInf false)
  let zeros := (∀ p ∈ ps, p.1.isZero = true ∨ p.2.isZero = true) ∧ ∀ t ∈ ts, t.isZero = true
  let negative := (∀ p ∈ ps, xor p.1.neg? p.2.neg? = true) ∧ ∀ t ∈ ts, t.neg? = true
  ((∀ x ∈ all, x.isFin = true) →
    (S ≠ 0 → RoundsTo f rm z S r) ∧
    (S = 0 → ((zeros ∧ negative) ∨ (¬zeros ∧ rm = rmRDN) → r = (f.sign true, 0)) ∧
      (¬((zeros ∧ negative) ∨ (¬zeros ∧ rm = rmRDN)) → r = (0, 0)))) ∧
  (bad ∨ (∃ x ∈ all, x.signaling = true) → r = (f.nanBits, fNV)) ∧
  (¬bad → (∃ x ∈ all, x.isNan = true) → (∀ x ∈ all, x.signaling = false) → r = (f.nanBits, 0)) ∧
  (∀ n, ¬bad → (∀ x ∈ all, x.isNan = false) → isInf n → r = (f.sign n + f.infBits, 0))

/-! ### Transfers -/

/-- The instructions that send each thread to its target, and the target (18 R281). -/
def targetOf (i : Instr) (s : State) : Option (Vals → Nat) :=
  let (f, sh) := fieldsOf i
  match i with
  | .braBase _ | .bra _ | .call _ => some fun _ => labelTarget f (nextPc s)
  | .brx _ | .callx _ | .ret _ => some fun v => opd f sh v .ra
  | _ => none

/-- The thread at its target; `CALL` and `CALLX` write the address of the next instruction. -/
def transferred (i : Instr) (s : State) (target : Vals → Nat) (th : Thread) : Thread :=
  let (f, sh) := fieldsOf i
  { onLanes (fun v => writeDst f sh v (nextPc s) (srcTaint f sh v)) th with pc := BitVec.ofNat 64 (target th.vals) }

/-! ### Entries of the operation queue -/

def isGlobalLoad : Instr → Bool
  | .ld _ | .ldc _ => true
  | _ => false

/-- Scratch loads. -/
def isScratchLoad : Instr → Bool
  | .lds _ | .ldsBase .. | .ldsBaseLiteral .. => true
  | _ => false

def isScratchStore : Instr → Bool
  | .sts _ | .stsBase .. | .stsBaseLiteral .. => true
  | _ => false

/-- The global address a thread names, and its scratch address. -/
def globalAt (i : Instr) (s : State) (t : Nat) : Nat :=
  let (f, sh) := fieldsOf i
  globalAddr f sh (sizeOf f) (s.thread s.cur.block t).vals
def scratchAt (i : Instr) (s : State) (t : Nat) : Nat :=
  let (f, sh) := fieldsOf i
  scratchAddr f sh (sizeOf f) (s.thread s.cur.block t).vals

/-- The address of a thread's access has the rights it needs: form, alignment and lease (18 R282, 03 R65); in scratch, it
keeps form, alignment and bound, the literal offset of a base form among them (04 R97, 08 R167). -/
def globalOk (i : Instr) (rights : List Right) (s : State) (t : Nat) : Prop :=
  globalFault (s.launchOf s.cur.block).ranges (globalAt i s t) (sizeOf (fieldsOf i).1) (sizeOf (fieldsOf i).1) rights = none
def scratchOk (i : Instr) (s : State) (t : Nat) : Prop :=
  literalFault i = none ∧ scratchFault (s.launchOf s.cur.block).scratch (scratchAt i s t) (sizeOf (fieldsOf i).1) (sizeOf (fieldsOf i).1) = none

/-- The lanes of a pair agree on values (02 R49). -/
def pairAgrees (s : State) (t : Nat) (f : Vals → List Nat) : Prop := lanesDiffer (s.thread s.cur.block t) f = false

/-- The entry of a load: where, how many bytes, what it acquires, and the variant of an `LDS` (19 R324, R325, R327; 20 R355). -/
def loadEntry (i : Instr) (s : State) (t : Nat) : MemOp :=
  let (f, sh) := fieldsOf i
  let v := (s.thread s.cur.block t).vals
  let o := if isGlobalLoad i then globalOp s s.cur.block t .load (globalAt i s t) (sizeOf f)
    else scratchOp s s.cur.block t .load (scratchAt i s t) (sizeOf f)
  { o with
      acq := if isGlobalLoad i then scopeIf (decide (ordOf f = 1)) f else if ordOf f = 1 ∨ ordOf f = 3 then some .blk else blkIf f
      consume := match i with
        | .ldc _ => scopeOf f.scp
        | _ => none
      tag := if isGlobalLoad i ∨ ordOf f = 0 then .none else if ordOf f = 1 then .full (f.scp = 1)
        else if ordOf f = 2 then .clear else .take (f.scp = 1)
      sext := f.mod.getLsbD 3, taint := addrTaint f sh v }

/-- The entry of a store: where, and the bytes of its data (19 R326, R327). -/
def storeEntry (i : Instr) (s : State) (t : Nat) : MemOp :=
  let (f, sh) := fieldsOf i
  let v := (s.thread s.cur.block t).vals
  let global := match i with
    | .st _ => true
    | _ => false
  let o := if global then globalOp s s.cur.block t .store (globalAt i s t) (sizeOf f)
    else scratchOp s s.cur.block t .store (scratchAt i s t) (sizeOf f)
  { o with
      rel := if global then scopeIf (decide (ordOf f = 1)) f else if ordOf f = 1 then some .blk else blkIf f
      tag := if !global && decide (ordOf f = 1) then .setFull else .none
      taint := addrTaint f sh v, data := leBytes (sizeOf f) (opd f sh v .rd) }

/-- The entry of an atomic (18 R290). -/
def atomEntry (i : Instr) (s : State) (t : Nat) : MemOp :=
  let (f, sh) := fieldsOf i
  let v := (s.thread s.cur.block t).vals
  let global := match i with
    | .atom _ => true
    | _ => false
  let o := if global then globalOp s s.cur.block t (.atomic (f.rb.setWidth 4)) (globalAt i s t) (sizeOf f)
    else scratchOp s s.cur.block t (.atomic (f.rb.setWidth 4)) (scratchAt i s t) (sizeOf f)
  { o with
      acq := if global then scopeIf (atomAcq f) f else if atomAcq f then some .blk else none
      rel := if global then scopeIf (atomRel f) f else if atomRel f then some .blk else none
      scp := if global then (scopeOf f.scp).getD .blk else .blk
      taint := addrTaint f sh v, data := atomData f sh v }

/-- A release at a scope that is wider than the block ends a rollback interval (13 R243). -/
def widerThanBlock : Option Scope → Bool
  | none => false
  | some .blk => false
  | some _ => true

/-- A signer set that waits for the end of the cycle: thread, pc, count, first (06 R142, R154). -/
def withSet (c : Nat) (p : Nat × DWord × Nat × Nat) (k : Block) : Block :=
  let f := fun (x : Cv) => { x with pend := x.pend ++ [p] }
  { k with cvs := modAt f c k.cvs }

/-- The accumulator window of a home wave (06 R148). -/
def withWindow (w : Nat) (base lim : Word) (k : Block) : Block :=
  let f := fun (x : Wave) => { x with accBase := base, accLim := lim }
  { k with waves := modAt f w k.waves }

/-! ### Running an event -/

/-- A copy has landed in the scratch of its block: its bytes stand there, its tag counts one copy less. -/
structure CopyLanded (b : Nat) (c : Copy) (s r : State) : Prop where
  now : r.now = s.now + 1
  scratch : ∀ a, memGet (r.block b).scratch a =
    if c.dst ≤ a ∧ a < c.dst + c.bytes.length then c.bytes.getD (a - c.dst) 0 else memGet (s.block b).scratch a
  global : ∀ key, newestByte r key = newestByte s key
  tags : ((r.block b).waves.getD (homeWave (s.launchOf b) c.tid) default).tags =
    modAt (· - 1) c.tag ((s.block b).waves.getD (homeWave (s.launchOf b) c.tid) default).tags
  others : ∀ k, k ≠ b → r.block k = s.block k

/-- The services by their number (20 R359). -/
def serviceOf (src : SvcSource) (ptes : List (Nat × BitVec 64)) (n : Nat) : Option (Instr × Service) :=
  match n with
  | 1 => some (.codecLoad src, codecLoadWork)
  | 2 => some (.codecBind src ptes, codecBindWork ptes)
  | 3 => some (.codecUnbind src ptes, codecUnbindWork ptes)
  | 4 => some (.regionInfo src, regionInfoWork)
  | _ => none

end Sys2Proof.Machine
end

