-- ==== Sys2Proof/Certificates/Slice0/Obligations.lean ====
section
/-!
DEFINITION. What is claimed of the machine: one statement for each definition, the rule of the spec it formalises in its
docstring.
-/

open Sys2Proof Sys2Proof.Machine

/-! ### Lane instructions -/

/-- Every arithmetic instruction of a lane completes at its issue: each thread of the group whose guard is true writes
its result, the others pass, and nothing else of the machine changes, no byte of memory among it. -/
def Obligations.ArithmeticCompletes : Prop :=
  ∀ i op s, aluOf i = some op → Unhindered i s →
    ∃ t, exec i s = .next t ∧ LaneStep i (fun _ => aluStep i op) s t ∧ MemorySame s t

/-- One thread of an arithmetic instruction: the run at RD holds the result, FULL, tainted if a source is; every other
register, every predicate but a predicate destination, the pc and the modes are as before, and FLAGS only grow. -/
def Obligations.ArithmeticThread : Prop :=
  ∀ i op (th : Thread), aluOf i = some op →
    let f := (fieldsOf i).1
    let sh := (fieldsOf i).2
    let th' := aluStep i op th
    let r := op f th.vals (rmOf f.rm th.rm) (opds f sh th.vals)
    (∀ n, n ∉ dstRegs f sh → th'.vals.get n = th.vals.get n) ∧
    (∀ k, sh.dst = true → f.rd ≠ 0 → f.rd.toNat + (useAt sh .rd).count ≤ th.vals.regs.length →
      k < (useAt sh .rd).count →
      th'.vals.get (f.rd.toNat + k) = ⟨BitVec.ofNat 32 (r.1 / 2 ^ (32 * k)), .full, srcTaint f sh th.vals⟩) ∧
    (∀ p, ¬(sh.dst = false ∧ sh.rd = .idx4 ∧ p = f.rd.toNat) → th'.vals.pred p = th.vals.pred p) ∧
    (sh.dst = false → sh.rd = .idx4 → f.rd ≠ 0 → f.rd.toNat < 16 → th'.vals.pred f.rd.toNat = (r.1 != 0)) ∧
    th'.flags = th.flags ||| BitVec.ofNat 5 r.2 ∧ (aluQuiet i = true → th'.flags = th.flags) ∧
    th' = { th with vals := th'.vals, shadow := th'.shadow, flags := th'.flags }

/-- VALUE REGISTERS (04 R83): `v0` reads as zero and ignores writes; a launch has 32 to 512 registers for each thread, a
multiple of 32; an instruction with a register field that reaches the count or beyond raises fault 0x02 for the group,
whatever the guards are. -/
def Obligations.RegisterRules : Prop :=
  (∀ v : Vals, v.get 0 = Reg.zero ∧ ∀ r, v.put 0 r = v) ∧
  (∀ raw, pf raw 0 1 = 1 → checkPacket raw = none → 32 ≤ pf raw 4 2 ∧ pf raw 4 2 ≤ 512 ∧ pf raw 4 2 % 32 = 0) ∧
  (∀ i s p, i.isTorile = true → namesLit (fieldsOf i).1 (fieldsOf i).2 p = false →
    (useAt (fieldsOf i).2 p).count ≠ 0 →
    (s.launchOf s.cur.block).regs < (fieldAt (fieldsOf i).1 p).toNat + (useAt (fieldsOf i).2 p).count →
    exec i s = .next (raiseCause s.cur.block 0x02 s.cur.tids s.cur.pc 0 s))

/-- INTEGER VALUES. The instructions of exact arithmetic wrap their exact result or, with MOD[2], clamp it to the range of
their signedness; the others compute what their entries say: `IMULH`, `IMIN`, `IMAX`, `IADDMIN`, `IDP4`, `ISET`, `SEL`, the
moves, `LEA`, the bitwise functions, the shifts, the bit fields, `PERM`, `PLOP`, `P2V`; the base forms as their E-forms. -/
def Obligations.IntegerValues : Prop :=
  ∀ (f : EFields) (th : Thread),
    let w := widthOf f
    let sgn := f.mod.getLsbD 0
    let x := fun (i : Instr) (p : Pos) => opd f (shapeOf i) th.vals p
    let z := fun (i : Instr) (p : Pos) => srcInt sgn w (x i p)
    let r := fun (i : Instr) => aluResult i th
    let reg := fun (a : BitVec 9) => (th.vals.get a.toNat).val
    (∀ i e W, (W = w ∧ (i = .iadd f ∧ e = z i .ra + z i .rb ∨ i = .isub f ∧ e = z i .ra - z i .rb ∨
          i = .imul f ∧ e = z i .ra * z i .rb ∨ i = .iadd3 f ∧ e = z i .ra + z i .rb + z i .rc ∨
          i = .imad f ∧ e = z i .ra * z i .rb + z i .rc ∨ i = .iabs f ∧ e = ((z i .ra).natAbs : Int))) ∨
        (W = 64 ∧ i = .imadw f ∧ e = srcInt sgn 32 (x i .ra) * srcInt sgn 32 (x i .rb) + srcInt sgn 64 (x i .rc)) →
      r i < 2 ^ W ∧ (f.mod.getLsbD 2 = false → (r i : Int) = e % 2 ^ W) ∧
      (f.mod.getLsbD 2 = true → sgn = true → sextN (r i) W = max (-2 ^ (W - 1)) (min (2 ^ (W - 1) - 1) e)) ∧
      (f.mod.getLsbD 2 = true → sgn = false → (r i : Int) = max 0 (min (2 ^ W - 1) e))) ∧
    (r (.imulh f) : Int) = z (.imulh f) .ra * z (.imulh f) .rb / 2 ^ w % 2 ^ w ∧
    (r (.imin f) < 2 ^ w ∧ srcInt sgn w (r (.imin f)) = min (z (.imin f) .ra) (z (.imin f) .rb)) ∧
    (r (.imax f) < 2 ^ w ∧ srcInt sgn w (r (.imax f)) = max (z (.imax f) .ra) (z (.imax f) .rb)) ∧
    (let s := fun p => sextN (x (.iaddmin f) p) 32
     r (.iaddmin f) < 2 ^ 32 ∧ sextN (r (.iaddmin f)) 32 = min (max (s .ra + s .rb) (-2 ^ 31)) (s .rc)) ∧
    (let byte := fun (n k : Nat) =>
       if sgn then (BitVec.ofNat 8 (n / 2 ^ (8 * k))).toInt else ((BitVec.ofNat 8 (n / 2 ^ (8 * k))).toNat : Int)
     let a := x (.idp4 f) .ra
     let b := x (.idp4 f) .rb
     (r (.idp4 f) : Int) =
       (x (.idp4 f) .rc + (byte a 0 * byte b 0 + byte a 1 * byte b 1 + byte a 2 * byte b 2 + byte a 3 * byte b 3)) % 2 ^ 32) ∧
    (let W := if f.mod.getLsbD 4 then 64 else 32
     let a := srcInt (f.mod.getLsbD 3) W (x (.iset f) .ra)
     let b := srcInt (f.mod.getLsbD 3) W (x (.iset f) .rb)
     let holds := fun (c : Prop) => (r (.iset f) = 1 ∧ c) ∨ (r (.iset f) = 0 ∧ ¬c)
     (fmtOf f = 0 → holds (a = b)) ∧ (fmtOf f = 1 → holds (a ≠ b)) ∧ (fmtOf f = 2 → holds (a < b)) ∧
       (fmtOf f = 3 → holds (a ≤ b)) ∧ (fmtOf f = 4 → holds (a > b)) ∧ (fmtOf f = 5 → holds (a ≥ b))) ∧
    r (.sel f) = (if th.vals.predField f.re.toNat then x (.sel f) .ra else x (.sel f) .rb) ∧
    r (.mov f) = x (.mov f) .ra ∧
    (f.lit = none → (r (.movi f) : Int) = sextN (f.ra.toNat + 2 ^ 9 * f.rb.toNat + 2 ^ 18 * f.rc.toNat) 27 % 2 ^ 64) ∧
    (∀ l, f.lit = some l → r (.movi f) = if f.mod.getLsbD 1 then l.toNat else l.toNat % 2 ^ 32) ∧
    (r (.lea f) : Int) = (x (.lea f) .ra + srcInt sgn 32 (x (.lea f) .rb) * 2 ^ (f.mod.toNat / 16)) % 2 ^ 64 ∧
    r (.and f) = x (.and f) .ra &&& x (.and f) .rb ∧ r (.or f) = x (.or f) .ra ||| x (.or f) .rb ∧
    r (.xor f) = x (.xor f) .ra ^^^ x (.xor f) .rb ∧
    (let bit := fun p k => ((x (.lop3 f) p).testBit k).toNat
     r (.lop3 f) < 2 ^ w ∧ ∀ k, k < w →
       (r (.lop3 f)).testBit k = f.re.toNat.testBit (4 * bit .rc k + 2 * bit .rb k + bit .ra k)) ∧
    (let k := x (.shl f) .rb
     (w ≤ k → r (.shl f) = 0) ∧ (k < w → r (.shl f) = x (.shl f) .ra * 2 ^ k % 2 ^ w)) ∧
    (let k := x (.shr f) .rb
     (w ≤ k → r (.shr f) = 0) ∧ (k < w → r (.shr f) = x (.shr f) .ra / 2 ^ k)) ∧
    (r (.sar f) < 2 ^ w ∧ sextN (r (.sar f)) w = sextN (x (.sar f) .ra) w / 2 ^ min (x (.sar f) .rb) (w - 1)) ∧
    (let v := x (.fsh f) .rb * 2 ^ 32 + x (.fsh f) .ra
     let k := x (.fsh f) .rc % 32
     r (.fsh f) = if f.mod.toNat / 16 = 0 then v / 2 ^ k % 2 ^ 32 else v * 2 ^ k / 2 ^ 32 % 2 ^ 32) ∧
    (let pos := min (x (.bfx f) .rb % 256) w
     let len := min (x (.bfx f) .rc % 256) (w - pos)
     let a := x (.bfx f) .ra
     r (.bfx f) < 2 ^ w ∧ ∀ k, k < w → (r (.bfx f)).testBit k =
       if k < len then a.testBit (pos + k) else sgn && decide (0 < len) && a.testBit (pos + len - 1)) ∧
    (let pos := min (x (.bfi f) .rc % 256) w
     let len := min (x (.bfi f) .re % 256) (w - pos)
     r (.bfi f) < 2 ^ w ∧ ∀ k, k < w → (r (.bfi f)).testBit k =
       if pos ≤ k ∧ k < pos + len then (x (.bfi f) .ra).testBit (k - pos) else (x (.bfi f) .rb).testBit k) ∧
    (r (.brev f) < 2 ^ w ∧ ∀ k, k < w → (r (.brev f)).testBit k = (x (.brev f) .ra).testBit (w - 1 - k)) ∧
    (let v := x (.perm f) .rb * 2 ^ 32 + x (.perm f) .ra
     r (.perm f) < 2 ^ 32 ∧ ∀ k, k < 4 →
       let n := x (.perm f) .rc / 2 ^ (4 * k) % 16
       let y := v / 2 ^ (8 * (n % 8)) % 256
       r (.perm f) / 2 ^ (8 * k) % 256 = if n < 8 then y else if y < 128 then 0 else 255) ∧
    (let bit := fun (p : BitVec 9) => (th.vals.pred p.toNat).toNat
     f.rd.toNat < 16 → (aluStep (.plop f) opPlop th).vals.pred f.rd.toNat =
       (decide (f.rd = 0) || f.re.toNat.testBit (4 * bit f.rc + 2 * bit f.rb + bit f.ra))) ∧
    (r (.p2v f) < 2 ^ 16 ∧ ∀ k, k < 16 → (r (.p2v f)).testBit k = th.vals.pred k) ∧
    r (.popc f) = ((List.range w).filter fun k => (x (.popc f) .ra).testBit k).length ∧
    (x (.clz f) .ra = 0 → r (.clz f) = w) ∧
    (x (.clz f) .ra ≠ 0 → r (.clz f) < w ∧ (x (.clz f) .ra).testBit (w - 1 - r (.clz f)) = true ∧
      ∀ k, w - 1 - r (.clz f) < k → (x (.clz f) .ra).testBit k = false) ∧
    (∀ a d (k : BitVec 6) (n : BitVec 5) (l : Word), r (.movBase a d) = (reg a).toNat ∧
      r (.iaddBase k a d) = (reg a + k.signExtend 32).toNat ∧ r (.iaddBaseLiteral a d l) = (reg a + l).toNat ∧
      r (.andBase k a d) = (reg a &&& k.signExtend 32).toNat ∧ r (.andBaseLiteral a d l) = (reg a &&& l).toNat ∧
      r (.shlBase n a d) = (reg a <<< n.toNat).toNat ∧ r (.shrBase n a d) = (reg a >>> n.toNat).toNat ∧
      r (.moviBaseLiteral d l) = l.toNat) ∧
    (∀ d (k : BitVec 15), r (.moviBase k d) = (k.signExtend 32).toNat)

/-- FLOAT VALUES. The exact sum, product, fused sum and converted value of finite operands is rounded once, by `round_fmt` of
05 R118 and FTZO (the sign of a value that rounds to zero: log 104), and an exact zero has the sign of R119; `FRND` gives the
integral value. A NaN operand gives the canonical NaN, and a signaling one sets NV; ∞ − ∞ and 0 × ∞ give it and set NV; the
minimum and the maximum with one NaN is the other operand, of two the canonical NaN; the special functions of Table 05.2.
`FSET` compares as extended reals by Table 04.8, and a signaling NaN sets NV; `FCLS` tests the class bit; `FSCL` rounds a·2ᵏ
once, of each element; `FDP2` rounds its exact sum once; `CVT` to an integer rounds to an integral value and clamps, to DS8 it
gives the nearest value, of two the smaller in magnitude, in the canonical encoding of each form of value: zero, ±2, a single
power, a sum of two, a difference of two that is no sum. -/
def Obligations.FloatValues : Prop :=
  (∀ f ∈ [f32, f16, bf16], ∀ rm z, 1 ≤ rm → rm ≤ 5 →
    (∀ n m e, m ≠ 0 → RoundsTo f rm z (FV.fin n m e).rat (roundF f rm z n m e)) ∧
    (∀ a b, a.isFin = true → b.isFin = true →
      (a.rat + b.rat ≠ 0 → RoundsTo f rm z (a.rat + b.rat) (elemAdd f rm z [a, b])) ∧
      (a.rat + b.rat = 0 → elemAdd f rm z [a, b] =
        (f.sign (if a.isZero then a.neg? && b.neg? else decide (rm = rmRDN)), 0)) ∧
      (a.rat * b.rat ≠ 0 → RoundsTo f rm z (a.rat * b.rat) (elemMul f rm z [a, b])) ∧
      (a.rat * b.rat = 0 → elemMul f rm z [a, b] = (f.sign (xor a.neg? b.neg?), 0)) ∧
      (∀ c, c.isFin = true →
        (a.rat * b.rat + c.rat ≠ 0 → RoundsTo f rm z (a.rat * b.rat + c.rat) (elemFma f rm z [a, b, c])) ∧
        (a.rat * b.rat + c.rat = 0 → elemFma f rm z [a, b, c] =
          (f.sign (if c.isZero then xor a.neg? b.neg? && c.neg? else decide (rm = rmRDN)), 0)))) ∧
    (∀ fl code a, EFields.ftzo fl = z → (code, f) ∈ [(0, f32), (1, f16), (2, bf16), (3, f16), (4, bf16)] → a.isFin = true →
      (a.rat ≠ 0 → RoundsTo f rm z a.rat (cvtElement fl code rm a)) ∧ (a.rat = 0 → cvtElement fl code rm a = (0, 0))) ∧
    (∀ x, (unpackF f x).isFin = true →
      let a := unpackF f x
      let r := elemRnd f rm z [a]
      (unpackF f r.1).isFin = true ∧ (unpackF f r.1).rat = onGrid rm 1 a.rat ∧ r.1.testBit (f.eb + f.fb) = a.neg? ∧
        r.2 = if onGrid rm 1 a.rat = a.rat then 0 else fNX) ∧
    (∀ mx x y, x < 2 ^ f.width → y < 2 ^ f.width →
      let a := unpackF f x
      let b := unpackF f y
      let r := elemMinMax mx f rm false [a, b]
      r.2 = (if a.signaling || b.signaling then fNV else 0) ∧
      (a.isNan = true → b.isNan = true → r.1 = f.nanBits) ∧ (a.isNan = true → b.isNan = false → r.1 = y) ∧
      (a.isNan = false → b.isNan = true → r.1 = x) ∧
      (a.isNan = false → b.isNan = false → r.1 = x ∨ r.1 = y) ∧
      (a.isFin = true → b.isFin = true → (unpackF f r.1).rat = if a.rat < b.rat ↔ mx = false then a.rat else b.rat) ∧
      (a.isZero = true → b.isZero = true → r.1.testBit (f.eb + f.fb) = if mx then a.neg? && b.neg? else a.neg? || b.neg?))) ∧
  (∀ fm rm z a b c,
    (a.isNan = true ∨ b.isNan = true →
      elemAdd fm rm z [a, b] = (fm.nanBits, if a.signaling || b.signaling then fNV else 0) ∧
      elemMul fm rm z [a, b] = (fm.nanBits, if a.signaling || b.signaling then fNV else 0)) ∧
    (a.isNan = true ∨ b.isNan = true ∨ c.isNan = true → (elemFma fm rm z [a, b, c]).1 = fm.nanBits) ∧
    (a.signaling = true ∨ b.signaling = true ∨ c.signaling = true →
      (elemFma fm rm z [a, b, c]).2 &&& fNV = fNV)) ∧
  (∀ fm rm z n, elemAdd fm rm z [.inf n, .inf !n] = (fm.nanBits, fNV)) ∧
  (∀ fm rm z n m e, elemMul fm rm z [.inf n, .fin m 0 e] = (fm.nanBits, fNV)) ∧
  (∀ rm z n e, frcpFV rm z (.fin n 0 e) = (f32.sign n + f32.infBits, fDZ) ∧
    frcpFV rm z (.inf n) = (f32.sign n, 0) ∧ fsqrtFV rm z (.fin n 0 e) = (f32.sign n, 0) ∧
    fsqrtFV rm z (.inf false) = (f32.infBits, 0) ∧ fsqrtFV rm z (.inf true) = (f32.nanBits, fNV) ∧
    frsqFV rm z (.fin n 0 e) = (f32.sign n + f32.infBits, fDZ) ∧ frsqFV rm z (.inf false) = (0, 0) ∧
    frsqFV rm z (.inf true) = (f32.nanBits, fNV) ∧ fex2FV rm z (.fin n 0 e) = (0x3F800000, 0) ∧
    fex2FV rm z (.inf false) = (f32.infBits, 0) ∧ fex2FV rm z (.inf true) = (0, 0) ∧
    flg2FV rm z (.fin n 0 e) = (f32.sign true + f32.infBits, fDZ) ∧ flg2FV rm z (.inf false) = (f32.infBits, 0) ∧
    flg2FV rm z (.inf true) = (f32.nanBits, fNV)) ∧
  (∀ rm z m e, m ≠ 0 → fsqrtFV rm z (.fin true m e) = (f32.nanBits, fNV) ∧
    frsqFV rm z (.fin true m e) = (f32.nanBits, fNV) ∧ flg2FV rm z (.fin true m e) = (f32.nanBits, fNV)) ∧
  (∀ rm z, let one := unpackF f32 0x3F800000
    frcpFV rm z one = (0x3F800000, 0) ∧ fsqrtFV rm z one = (0x3F800000, 0) ∧ frsqFV rm z one = (0x3F800000, 0) ∧
    fex2FV rm z one = (0x40000000, 0) ∧ flg2FV rm z one = (0, 0)) ∧
  (∀ fn ∈ [frcpFV, fsqrtFV, frsqFV, fex2FV, flg2FV], ∀ rm z s, fn rm z (.nan s) = (f32.nanBits, if s then fNV else 0)) ∧
  (∀ (f : EFields) v rm x y,
    let a := prepare f32 f.ftzi false false x
    let b := prepare f32 f.ftzi false false y
    let r := opFset f v rm [x, y]
    let un := a.isNan = true ∨ b.isNan = true
    let same := (a.isFin = true ∧ b.isFin = true ∧ a.rat = b.rat) ∨ ∃ n, a = .inf n ∧ b = .inf n
    let holds := fun (c : Prop) => (r.1 = 1 ∧ c) ∨ (r.1 = 0 ∧ ¬c)
    let orUn := fun (c : Prop) => holds ((¬un ∧ c) ∨ (f.mod.getLsbD 3 = true ∧ un))
    (fmtOf f = 0 → orUn same) ∧ (fmtOf f = 1 → orUn ¬same) ∧ (fmtOf f = 2 → orUn (a.Less b)) ∧
      (fmtOf f = 3 → orUn (a.Less b ∨ same)) ∧ (fmtOf f = 4 → orUn (b.Less a)) ∧ (fmtOf f = 5 → orUn (b.Less a ∨ same)) ∧
      (f.mod.getLsbD 3 = false → (fmtOf f = 6 → holds ¬un) ∧ (fmtOf f = 7 → holds un)) ∧
      r.2 = if a.signaling || b.signaling then fNV else 0) ∧
  (∀ (f : EFields) v rm x m,
    let fm := (fmtTable (fmtOf f)).1
    let a := unpackF fm (flushIn fm f.ftzi x)
    let r := opFcls f v rm [x, m]
    let bit := fun k => r = (if m.testBit k then 1 else 0, 0)
    (∀ n, a = .inf n → bit (if n then 0 else 7)) ∧ (∀ s, a = .nan s → bit (if s then 8 else 9)) ∧
      (a.isFin = true → (a.isZero = true → bit (if a.neg? then 3 else 4)) ∧
        (a.isZero = false → a.rat.abs < (2 : Rat) ^ fm.emin → bit (if a.neg? then 2 else 5)) ∧
        ((2 : Rat) ^ fm.emin ≤ a.rat.abs → bit (if a.neg? then 1 else 6)))) ∧
  (∀ (f : EFields) v rm x y, 1 ≤ rm → rm ≤ 5 →
    let fm := (fmtTable (fmtOf f)).1
    let r := opScl f v rm [x, y]
    let k : Int := max (-1024) (min 1024 (sextN y 32))
    let scaled := fun (e : Nat) (q : Nat × Nat) =>
      let a := prepare fm f.ftzi (f.mod.getLsbD 5) (f.mod.getLsbD 3) (element fm x e)
      (a.isFin = true → a.rat ≠ 0 → RoundsTo fm rm f.ftzo (a.rat * (2 : Rat) ^ k) q) ∧
      (a.isZero = true → q = (fm.sign a.neg?, 0)) ∧ (∀ n, a = .inf n → q = (fm.sign n + fm.infBits, 0)) ∧
      (∀ s, a = .nan s → q = (fm.nanBits, if s then fNV else 0))
    ((fmtTable (fmtOf f)).2 = false → scaled 0 r) ∧
    ((fmtTable (fmtOf f)).2 = true → ∃ q0 q1, scaled 0 q0 ∧ scaled 1 q1 ∧ r = (q0.1 + 2 ^ 16 * q1.1, q0.2 ||| q1.2))) ∧
  (∀ (f : EFields) v rm x y c, 1 ≤ rm → rm ≤ 5 →
    let fm := (fmtTable (fmtOf f)).1
    let a := fun e => prepare fm f.ftzi false (f.mod.getLsbD 3) (element fm x e)
    let b := fun e => prepare fm f.ftzi false (f.mod.getLsbD 4) (element fm y e)
    SumRounds f32 rm f.ftzo [(a 0, b 0), (a 1, b 1)] [prepare f32 f.ftzi false (f.mod.getLsbD 5) c] (opDp2 f v rm [x, y, c])) ∧
  (∀ (fl : EFields) code signed rm a, (code, signed) ∈ [(6, true), (7, false)] → 1 ≤ rm → rm ≤ 5 →
    let r := cvtElement fl code rm a
    let hi : Int := if signed then 2 ^ 31 - 1 else 2 ^ 32 - 1
    let lo : Int := if signed then -2 ^ 31 else 0
    (a.isNan = true → r = (0, fNV)) ∧ (∀ n, a = .inf n → r = (wrapN (if n then lo else hi) 32, fNV)) ∧
    (a.isFin = true → ((hi : Rat) < onGrid rm 1 a.rat → r = (wrapN hi 32, fNV)) ∧
      (onGrid rm 1 a.rat < (lo : Rat) → r = (wrapN lo 32, fNV)) ∧
      ((lo : Rat) ≤ onGrid rm 1 a.rat → onGrid rm 1 a.rat ≤ (hi : Rat) → r.1 < 2 ^ 32 ∧
        ((srcInt signed 32 r.1 : Int) : Rat) = onGrid rm 1 a.rat ∧ r.2 = if onGrid rm 1 a.rat = a.rat then 0 else fNX))) ∧
  (∀ (fl : EFields) rm a,
    let r := cvtElement fl 5 rm a
    let val : Nat → Rat := fun w => (if w.testBit 7 then -1 else 1) * (2 : Rat) ^ (-((w / 16 % 8 : Nat) : Int)) +
      (if w % 8 = 7 then 0 else (if w.testBit 3 then -1 else 1) * (2 : Rat) ^ (-((w % 8 : Nat) : Int)))
    (a.isNan = true → r = (0x08, fNV)) ∧ (∀ n, a = .inf n → r = (if n then 0x88 else 0x00, fOF ||| fNX)) ∧
    (a.isFin = true → (2 < a.rat.abs → r = (if a.rat < 0 then 0x88 else 0x00, fOF ||| fNX)) ∧
      (a.rat = 0 → r = (0x08, 0)) ∧
      (a.rat ≠ 0 → a.rat.abs ≤ 2 → r.1 < 256 ∧
        (∀ w, w < 256 → (a.rat - val r.1).abs < (a.rat - val w).abs ∨
          ((a.rat - val r.1).abs = (a.rat - val w).abs ∧ (val r.1).abs ≤ (val w).abs)) ∧
        (val r.1 = 0 → r = (0x08, fUF ||| fNX)) ∧ (val r.1 ≠ 0 → r.2 = if val r.1 = a.rat then 0 else fNX) ∧
        (∀ k, k < 8 → (val r.1).abs = (2 : Rat) ^ (-(k : Int)) → r.1 = (if a.rat < 0 then 128 else 0) + 16 * k + 7) ∧
        (∀ i j, i < j → j < 8 → (val r.1).abs = (2 : Rat) ^ (-(i : Int)) + (2 : Rat) ^ (-(j : Int)) →
          r.1 = (if a.rat < 0 then 136 else 0) + if j = 7 then 112 + i else 16 * i + j) ∧
        (∀ i j, i + 3 ≤ j → j < 8 → (val r.1).abs = (2 : Rat) ^ (-(i : Int)) - (2 : Rat) ^ (-(j : Int)) →
          r.1 = if j = 7 then (if a.rat < 0 then 8 else 128) + 112 + i else (if a.rat < 0 then 128 else 8) + 16 * i + j))))

/-- `NOP`, `V2P` and `ELECT` complete; `V2P` copies the bits of RA that RB selects into the predicates, `p0` apart,
and `ELECT` sets its predicate in the first thread of the group with a true guard and clears it in the others. -/
def Obligations.PredicatesComplete : Prop :=
  (∀ i s, (i = .nopBase ∨ ∃ f, i = .nop f) → Unhindered i s →
    ∃ t, exec i s = .next t ∧ LaneStep i (fun _ th => th) s t ∧ MemorySame s t) ∧
  (∀ f s, Unhindered (.v2p f) s →
    ∃ t, exec (.v2p f) s = .next t ∧ LaneStep (.v2p f) (fun _ => onLanes (v2pLane f (shapeOf (.v2p f)))) s t ∧
      MemorySame s t) ∧
  (∀ (f : EFields) (v : Vals) (p : Nat), p < 16 →
    let sh := shapeOf (.v2p f)
    (v2pLane f sh v).pred p =
      if p ≠ 0 ∧ (opd f sh v .rb).testBit p then (opd f sh v .ra).testBit p else v.pred p) ∧
  (∀ f s, Unhindered (.elect f) s →
    ∃ t, exec (.elect f) s = .next t ∧ MemorySame s t ∧
      LaneStep (.elect f) (fun tid => onLanes fun v =>
        v.setPred f.rd.toNat (some tid == (onTids (.elect f) s).head?)) s t)

/-- The special functions and `SREAD` complete at their issue by making their destination EMPTY as a whole: a producer
holds the result, that of the shadow lane from its own registers, and the flags; `SREAD` of a register that is taken at the
issue (SLOT, PWAVE and SEQ by R354; MODE, WTLIM and the window by the model's choice, log 57) holds the value read
now, of FLAGS the flags that stand now, any other is read later. PRODUCER_COMPLETION: a producer whose words are there writes
them: its registers become FULL as a whole, its flags merge, into the younger reads of FLAGS too, and nothing else of the
machine changes. -/
def Obligations.ProducersComplete : Prop :=
  (∀ i fn s, sfuOf i = some fn → Unhindered i s →
    ∃ t, exec i s = .next t ∧ MemorySame s t ∧
      LaneStep i (fun _ th =>
        let f := (fieldsOf i).1
        let sh := (fieldsOf i).2
        let r := fun v =>
          fn (rmOf f.rm th.rm) f.ftzo (prepare f32 f.ftzi (f.mod.getLsbD 5) (f.mod.getLsbD 3) (opd f sh v .ra))
        startProd ⟨th.nextId, dstRegs f sh,
          .sfu (BitVec.ofNat 32 (r th.vals).1) (BitVec.ofNat 32 (r (th.shadow.getD th.vals)).1) (BitVec.ofNat 5 (r th.vals).2),
          srcTaint f sh th.vals, false, s.cur.pc⟩ th) s t) ∧
  (∀ f s, Unhindered (.sread f) s →
    ∃ t, exec (.sread f) s = .next t ∧ MemorySame s t ∧
      LaneStep (.sread f) (fun tid th =>
        let n := if f.mod.getLsbD 1 then 2 else 1
        startProd ⟨th.nextId, dstRegs f (shapeOf (.sread f)),
          if f.re ∈ [0x03#9, 0x04#9, 0x10#9, 0x15#9, 0x19#9, 0x1A#9, 0x1C#9] then
            .ready (wordsOf n (specialVal s s.cur.block tid f.re.toNat))
          else if f.re = 0x11 then .flagsAt th.flags else .special f.re.toNat (f.mod.getLsbD 1),
          false, false, s.cur.pc⟩ th) s t) ∧
  (∀ b t p s x ws fl, b < s.blocks.length → t < (s.block b).threads.length →
     (s.thread b t).prods.find? (fun y => y.id = p) = some x → prodWords s b t x = some (ws, fl) →
     (∀ w, x.val = .ready w → ws = w ∧ fl = 0) ∧ (∀ w sh fl', x.val = .sfu w sh fl' → ws = [w] ∧ fl = fl') ∧
     (∀ i wide, x.val = .special i wide → ws = wordsOf (if wide then 2 else 1) (specialVal s b t i) ∧ fl = 0) ∧
     ∃ r, exec (.producerCompletion b t p) s = .next r ∧
       r.thread b t = { s.thread b t with
         vals := fillRegs x.dst ws x.taint (s.thread b t).vals
         shadow := (s.thread b t).shadow.map (fillRegs x.dst (shadowWords x ws) x.taint)
         prods := ((s.thread b t).prods.filter (fun y => y.id ≠ p)).map (flagsReach p fl)
         flags := (s.thread b t).flags ||| fl } ∧
       (∀ u, u ≠ t → r.thread b u = s.thread b u) ∧ (∀ c, c ≠ b → r.block c = s.block c) ∧
       r = { s with blocks := r.blocks } ∧ MemorySame s r)

/-- `BRA`, `BRX`, `CALL`, `CALLX`, `RET` complete: every thread with a true guard stands at its target, a call has
written the address of the next instruction, the others stand behind the instruction; then, if some thread executed it, the
device may permute the quads of a COMPACT block. The move of a COMPACT block changes nothing but the physical wave and slot of its threads
and the count of free values; a block that is not COMPACT does not move. -/
def Obligations.TransfersComplete : Prop :=
  (∀ i target s, targetOf i s = some target → Unhindered i s →
     OnAll i s (fun t => codeOk (target (s.thread s.cur.block t).vals) = true ∧
       pairAgrees s t (fun v => [target v])) →
     ∃ m, exec i s = .next (if onTids i s = [] then m else compactMove m) ∧ LaneStep i (fun _ => transferred i s target) s m ∧ MemorySame s m) ∧
  (∀ s, ((s.launchOf s.cur.block).compact = false → compactMove s = s) ∧
     compactMove s = { s with blocks := (compactMove s).blocks, free := (compactMove s).free } ∧
     (∀ b, b ≠ s.cur.block → (compactMove s).block b = s.block b) ∧
     (∀ t, ∃ w l, (compactMove s).thread s.cur.block t = { s.thread s.cur.block t with pwave := w, slot := l }) ∧
     (∃ ths, (compactMove s).block s.cur.block = { s.block s.cur.block with threads := ths }))

/-- `MEET` and `MEETX` complete. `MEETX` sets the meeting address of each thread. `MEET` enrols every lane at its key
and sets the meeting address, and its destination receives the old one; a zero key enrols nobody (the model's reading, log
18). MEETING_ARRIVAL: a thread that stands at its meeting address and is not enrolled there goes on without a meeting address;
one that is enrolled is held, until every lane of its slot is held at the address or has exited: then the slot is free and its
threads go on without a meeting address; a thread that was neither there nor held does not change. -/
def Obligations.MeetingsComplete : Prop :=
  (∀ f s, Unhindered (.meetx f) s →
    OnAll (.meetx f) s (fun t => codeOk (opd f (shapeOf (.meetx f)) (s.thread s.cur.block t).vals .ra) = true) →
    ∃ t, exec (.meetx f) s = .next t ∧ MemorySame s t ∧
      LaneStep (.meetx f) (fun _ th => { th with mt := BitVec.ofNat 64 (opd f (shapeOf (.meetx f)) th.vals .ra) }) s t) ∧
  (∀ f s, Unhindered (.meet f) s →
    let key := labelTarget f (nextPc s)
    let slotsOf := fun (s : State) t =>
      ((s.block s.cur.block).waves.getD (homeWave (s.launchOf s.cur.block) t) default).slots
    key < 2 ^ 56 →
    OnAll (.meet f) s (fun t => key = 0 ∨ hasSlot (BitVec.ofNat 64 key) (slotsOf s t) ∨ hasFree (slotsOf s t)) →
    ∃ t, exec (.meet f) s = .next t ∧ MemorySame s t ∧
      (∀ tid ∈ s.cur.tids, t.thread s.cur.block tid = guarded (.meet f) (fun _ th =>
        { onLanes (fun v => writeDst f (shapeOf (.meet f)) v th.mt.toNat false) th with mt := BitVec.ofNat 64 key }) s tid) ∧
      (∀ tid, tid ∉ s.cur.tids → t.thread s.cur.block tid = s.thread s.cur.block tid) ∧
      OnAll (.meet f) s (fun tid => key ≠ 0 →
        enrolled (BitVec.ofNat 64 key) (homeLane (s.launchOf s.cur.block) tid) (slotsOf t tid) = true) ∧
      (key = 0 → (t.block s.cur.block).waves = (s.block s.cur.block).waves) ∧
      (∀ b, b ≠ s.cur.block → t.block b = s.block b) ∧ t = { s with blocks := t.blocks }) ∧
  (∀ b w pc s, b < s.blocks.length →
     let l := s.launchOf b
     let there := fun t => t ∈ groupTids s b w pc ∧ atMeeting (s.thread b t) = true
     let slots := fun w' => ((s.block b).waves.getD w' default).slots
     let joined := fun t => enrolled pc (homeLane l t) (slots (homeWave l t)) = true
     let stands := fun t => (there t ∧ joined t) ∨ (s.thread b t).st = .held
     let met := fun w' => ∃ e ∈ slots w', e.1 = pc ∧ ∀ lane, lane < l.lanes → e.2.getLsbD lane = true →
       let u := w' * l.lanes + lane
       (s.thread b u).st = .exited ∨ (stands u ∧ (s.thread b u).pc = pc)
     (∀ w', (((slots w').map Prod.fst).filter (· ≠ 0)).Nodup) →
     ∃ r, exec (.meetingArrival b w pc) s = .next r ∧ MemorySame s r ∧
       (∀ t, there t → ¬joined t → r.thread b t = { s.thread b t with mt := 0 }) ∧
       (∀ t, there t → joined t → ¬met (homeWave l t) → r.thread b t = { s.thread b t with st := .held }) ∧
       (∀ t, there t → joined t → met (homeWave l t) → r.thread b t = { s.thread b t with st := .ready, mt := 0 } ∧
         hasSlot pc ((r.block b).waves.getD (homeWave l t) default).slots = false ∧
         ∀ u, homeWave l u = homeWave l t → (s.thread b u).st = .held → (s.thread b u).pc = pc → joined u →
           r.thread b u = { s.thread b u with st := .ready, mt := 0 }) ∧
       (∀ t, ¬there t → (s.thread b t).st ≠ .held → r.thread b t = s.thread b t) ∧
       (∀ c, c ≠ b → r.block c = s.block c) ∧ r = { s with blocks := r.blocks })

/-- `EXIT` completes: a thread with a true guard has exited and stands nowhere, one with a false guard passes; no
register and no byte of memory changes. -/
def Obligations.ExitCompletes : Prop :=
  ∀ i s, (i = .exitBase ∨ ∃ f, i = .exit f) → Unhindered i s →
    ∃ t, exec i s = .next t ∧ MemorySame s t ∧
      (∀ tid ∈ s.cur.tids, (t.thread s.cur.block tid).pc = (passed s tid).pc) ∧
      OnAll i s (fun tid => (t.thread s.cur.block tid).st = .exited ∧ (t.thread s.cur.block tid).mt = 0) ∧
      (∀ tid, tid ∉ onTids i s → ((t.thread s.cur.block tid).st = .exited ↔ (s.thread s.cur.block tid).st = .exited)) ∧
      (∀ tid, (t.thread s.cur.block tid).vals = (s.thread s.cur.block tid).vals ∧
        (t.thread s.cur.block tid).flags = (s.thread s.cur.block tid).flags) ∧
      (∀ b, b ≠ s.cur.block → t.block b = s.block b) ∧ t = { s with blocks := t.blocks, cores := t.cores }

/-- `BAR` completes as an arrival: each thread with a true guard waits at the barrier, its release event queued at the
scope of the instruction, and the barrier holds its arrival with the cycle and the count it named, in the order of cycle and TID.
A phase completes, once the release events of its threads have taken their steps: with c = 0 when every living thread of the block
has arrived, with c > 0 when c have, the first by cycle and TID; the rest begin the next phase. Then each of its threads resumes at
the next instruction, with an acquire at its scope that synchronizes with the release events of all, and nothing else changes
but what an acquire does to the caches and the order of the thread, and the checkpoint; while too few have arrived, nothing
happens. -/
def Obligations.BarrierArrives : Prop :=
  (∀ i s, ((∃ id, i = .barBase id) ∨ ∃ f, i = .bar f) → Unhindered i s →
    let f := (fieldsOf i).1
    let sh := (fieldsOf i).2
    let b := s.cur.block
    f.rd.toNat < (s.block b).bars.length →
    OnAll i s (fun t => opd f sh (s.thread b t).vals .ra ≤ (s.block b).ntid) →
    ∃ t, exec i s = .next t ∧ MemorySame s t ∧
      (∀ tid ∈ s.cur.tids, t.thread b tid = guarded i (fun _ th =>
        { pushOp { baseOp th .release s.cur.pc (s.block b).issues s.cur.cyc (curSub s b) with
            rel := some (barScope f), tag := .bar f.rd.toNat } th with
          st := .barWait f.rd.toNat s.cur.len, pc := s.cur.pc }) s tid) ∧
      (∀ tid, tid ∉ s.cur.tids → t.thread b tid = s.thread b tid) ∧
      OnAll i s (fun tid => ∃ a ∈ (t.block b).bars.getD f.rd.toNat [],
        a.cycle = s.cur.cyc ∧ a.tid = tid ∧ a.count = opd f sh (s.thread b tid).vals .ra ∧ a.scope = barScope f ∧
          a.rel = some (s.thread b tid).nextId) ∧
      (let ordered := fun (k : Block) => (k.bars.getD f.rd.toNat []).Pairwise fun x y =>
         x.cycle < y.cycle ∨ (x.cycle = y.cycle ∧ x.tid ≤ y.tid)
       ordered (s.block b) → ordered (t.block b)) ∧
      (∀ id, id ≠ f.rd.toNat → (t.block b).bars.getD id [] = (s.block b).bars.getD id []) ∧
      (∀ c, c ≠ b → t.block c = s.block c) ∧ t = { s with blocks := t.blocks }) ∧
  (∀ b id c ph rest s, b < s.blocks.length → id < (s.block b).bars.length → (s.block b).bars.getD id [] = ph ++ rest →
    (ph ++ rest).Nodup → (∀ x ∈ ph ++ rest, x.count = c) →
    let arrived := fun t => ∃ x ∈ ph, x.tid = t
    let whole := ∀ t, t < (s.block b).threads.length → (s.thread b t).alive = true → arrived t
    let go := (c = 0 ∧ ph ≠ [] ∧ rest = [] ∧ whole) ∨ (0 < c ∧ ph.length = c ∧ rest.length < c)
    let short := (c = 0 ∧ rest = [] ∧ ¬whole) ∨ (0 < c ∧ rest = [] ∧ ph.length < c)
    (short → judgeBar b id s = s) ∧
    (go → (∀ x ∈ ph, (∀ o ∈ (s.thread b x.tid).ops, some o.id ≠ x.rel) ∧ ∃ len, (s.thread b x.tid).st = .barWait id len) →
      let r := judgeBar b id s
      (r.block b).bars.getD id [] = rest ∧
      (∀ x ∈ ph, ∀ len, (s.thread b x.tid).st = .barWait id len →
        (r.thread b x.tid).st = .ready ∧ (r.thread b x.tid).pc = (s.thread b x.tid).pc + BitVec.ofNat 64 len ∧
        (r.thread b x.tid).vals = (s.thread b x.tid).vals) ∧
      (∀ t, ¬arrived t → r.thread b t = s.thread b t) ∧
      (∀ x ∈ ph, ∀ y ∈ ph, ∀ w g, relStep s b y.tid (y.rel.getD 0) (instOf s b x.scope) = some w →
        newestBefore s g (instOf s b x.scope) w ≤ floorAt r b g s.now) ∧
      (∀ j, j ≠ id → (r.block b).bars.getD j [] = (s.block b).bars.getD j []) ∧
      (∀ key, newestByte r key = newestByte s key) ∧ (∀ k a, memGet (r.block k).scratch a = memGet (s.block k).scratch a) ∧
      (∀ k, k ≠ b → r.block k = s.block k) ∧
      r = { s with blocks := r.blocks, floors := r.floors, lines := r.lines, cores := r.cores, now := r.now }))

/-- `TRAP` and `BRK` take their exception, cause 0x20 with the trap number as its address, and cause 0x21: every
thread of the group has passed the instruction first. CONVERGENCE_DEADLOCK and WAVE_TIMER_EXPIRY take their exception,
0x06 and 0x22, for every living thread of the home wave, at the pc of the lowest. -/
def Obligations.TrapsTakeTheirException : Prop :=
  (∀ f s, GroupOk s → ∃ m, LaneStep (.trap f) (fun _ th => th) s m ∧
    exec (.trap f) s = .next (raiseCause s.cur.block 0x20 (onTids (.trap f) s) s.cur.pc f.re.toNat m)) ∧
  (∀ f s, GroupOk s → ∃ m, LaneStep (.brk f) (fun _ th => th) s m ∧
    exec (.brk f) s = .next (raiseCause s.cur.block 0x21 (onTids (.brk f) s) s.cur.pc 0 m)) ∧
  (∀ b w s, deadlocked s b w = true →
    exec (.convergenceDeadlock b w) s =
      .next (raiseCause b 0x06 (livingTids s b w) (s.thread b ((livingTids s b w).headD 0)).pc 0 s)) ∧
  (∀ b w s, timerDue s b w = true →
    exec (.waveTimerExpiry b w) s =
      .next (raiseCause b 0x22 (livingTids s b w) (s.thread b ((livingTids s b w).headD 0)).pc 0
        (modWave b w (fun v => { v with hit := false }) s)))

/-- `SPAWN` completes: where the die's spawn queue has room, the launch's next index and its spawn-tree counter grow by all
the blocks its threads asked for, and so does the number of blocks; every thread passes; memory does not change. Where the
queue is full and a spill area has room, the oldest entry that goes there makes room. -/
def Obligations.SpawnCompletes : Prop :=
  ∀ f s, Unhindered (.spawn f) s →
    let b := s.cur.block
    let sh := shapeOf (.spawn f)
    let l := s.launchOf b
    let n := fun t => opd f sh (s.thread b t).vals .ra
    let m := fun t => opd f sh (s.thread b t).vals .rb
    let total := ((onTids (.spawn f) s).map n).sum
    (s.block b).launch < s.launches.length →
    OnAll (.spawn f) s (fun t => n t ≤ 65536 ∧ (n t ≠ 0 → (l.span = 0 ∨ n t % l.span = 0) ∧
      1 ≤ m t ∧ m t ≤ 1024 ∧ fitsCore l (m t) = true)) → l.next + total ≤ 2 ^ 32 →
    (s.die ((s.block b).core / 40)).spawnQ.length + s.cur.tids.length ≤ 4096 →
    ∃ t, exec (.spawn f) s = .next t ∧ MemorySame s t ∧
      (t.launchOf b).next = l.next + total ∧ (t.launchOf b).tree = l.tree + total ∧
      t.blocks.length = s.blocks.length + total ∧
      (∀ tid ∈ s.cur.tids, (t.thread b tid).pc = (passed s tid).pc) ∧
      (∀ tid, tid ∉ onTids (.spawn f) s → (t.thread b tid).vals = (s.thread b tid).vals) ∧
      (∀ c, c ≠ b → c < s.blocks.length → t.block c = s.block c) ∧
      (∀ d e x, 4096 ≤ (s.die d).spawnQ.length → d < s.dies.length → (s.die d).spawnQ.find? (spills s) = some x →
        ((enqueueSpawn d e s).die d).spawnQ = (s.die d).spawnQ.erase x ++ [e])

/-- `RELEASE` and `SVC` complete: the release event of a gate is queued at .dev; a service is asked for, with its
destination EMPTY and its thread waiting at the instruction. Both end the rollback interval of the block. -/
def Obligations.RequestsComplete : Prop :=
  (∀ f s, Unhindered (.release f) s →
    ∃ t, exec (.release f) s = .next t ∧ MemorySame s t ∧
      GroupStep (guarded (.release f) (fun _ th =>
          pushOp { baseOp th .release s.cur.pc (s.block s.cur.block).issues s.cur.cyc (curSub s s.cur.block) with
            rel := some .dev, tag := .gate f.rd.toNat } th) s)
        (fun k => if onTids (.release f) s = [] then k
          else { k.performLog with rollable := false, released := true }) s t) ∧
  (∀ f s, Unhindered (.svc f) s →
    ∃ t, exec (.svc f) s = .next t ∧ MemorySame s t ∧
      GroupStep (guarded (.svc f) (fun _ th =>
          { startProd ⟨th.nextId, dstRegs f (shapeOf (.svc f)), .waiting, srcTaint f (shapeOf (.svc f)) th.vals, false,
              s.cur.pc⟩ th with
            st := .svcWait f.mod.toNat (opd f (shapeOf (.svc f)) th.vals .ra) (opd f (shapeOf (.svc f)) th.vals .rb)
              th.nextId (s.block s.cur.block).issues s.cur.len, pc := s.cur.pc }) s)
        (endedIf (onTids (.svc f) s != [])) s t)

/-- `GATE`, `ACWAIT` and `LEASE` complete. `GATE` and `ACWAIT` let their threads pass when what they wait for is there
(else they are hindered), as an acquire that orders later accesses behind it, at the step at which the thread passes (the
model's reading, log 58): `GATE`, of a launch with a predecessor that ran, acquires at .dev from the step of what opened the
gate, one thread a step; `ACWAIT` at .blk from the completions of its tag; `LEASE` declares, for each home wave, the clamped
sum of its first thread. -/
def Obligations.WaitsComplete : Prop :=
  (∀ f s, Unhindered (.gate f) s → ∃ t, exec (.gate f) s = .next t ∧
    (let b := s.cur.block
     let on := onTids (.gate f) s
     ((predOf s (s.launchOf b)).bind Packet.launch = none → LaneStep (.gate f) (fun _ th => th) s t) ∧
     ∀ p, (predOf s (s.launchOf b)).bind Packet.launch = some p →
      t.now = s.now + on.length ∧
      (∀ pre tid post, on = pre ++ tid :: post → t.thread b tid = { passed s tid with orderPt := s.now + pre.length }) ∧
      (∀ tid ∈ s.cur.tids, tid ∉ on → t.thread b tid = passed s tid) ∧
      (on ≠ [] → ∀ g, newestBefore s g .dev (gateStep (s.launch p) f.rd.toNat) ≤ floorAt t b g (t.now - 1)) ∧
      (∀ c g τ, c ≠ b → floorAt t c g τ = floorAt s c g τ)) ∧
    (∀ l g, gateStep l g = match l.gateAt.find? (fun e => e.1 = g), l.doneAt with
      | some e, some d => if e.2.2 = l.doneIn then max e.2.1 d else e.2.1
      | some e, none => e.2.1
      | none, some d => d
      | none, none => 0) ∧
    (∀ tid, tid ∉ s.cur.tids → t.thread s.cur.block tid = s.thread s.cur.block tid) ∧
    (∀ b, b ≠ s.cur.block → t.block b = s.block b) ∧ (∀ x ∈ t.lines, x ∈ s.lines) ∧
    (∀ c, ∃ v, t.core c = { s.core c with victims := v }) ∧ (∀ l, ∃ g, t.launch l = { s.launch l with gated := g }) ∧
    (∀ key, newestByte t key = newestByte s key) ∧ (∀ b a, memGet (t.block b).scratch a = memGet (s.block b).scratch a) ∧
    t = { s with blocks := t.blocks, floors := t.floors, lines := t.lines, cores := t.cores, launches := t.launches, now := t.now }) ∧
  (∀ l s, ∀ e ∈ (s.launch l).gated, e.2.2.2 = s.cycle → (s.block e.1).status = .placed → ∀ g,
    newestBefore s g .dev s.now ≤ floorAt (lateGates l s) e.1 g s.now) ∧
  (∀ f s, Unhindered (.acwait f) s → ∃ t, exec (.acwait f) s = .next t ∧ MemorySame s t ∧
    (∀ tid ∈ s.cur.tids, t.thread s.cur.block tid = guarded (.acwait f) (fun _ th => { th with orderPt := s.now }) s tid) ∧
    (∀ g, floorAt s s.cur.block g s.now ≤ floorAt t s.cur.block g s.now ∧ ∀ tid ∈ onTids (.acwait f) s,
      newestBefore s g (.blk s.cur.block)
        (((s.block s.cur.block).waves.getD (homeWave (s.launchOf s.cur.block) tid) default).tagAt.getD f.mod.toNat 0)
        ≤ floorAt t s.cur.block g s.now) ∧
    (∀ tid, tid ∉ s.cur.tids → t.thread s.cur.block tid = s.thread s.cur.block tid) ∧
    (∀ b, b ≠ s.cur.block → t.block b = s.block b) ∧ t = { s with blocks := t.blocks, floors := t.floors }) ∧
  (∀ f s, Unhindered (.lease f) s → ∃ t, exec (.lease f) s = .next t ∧ MemorySame s t ∧
    (∀ tid ∈ s.cur.tids, t.thread s.cur.block tid = passed s tid) ∧
    (∀ tid, tid ∉ s.cur.tids → t.thread s.cur.block tid = s.thread s.cur.block tid) ∧
    (∀ w, w < (s.block s.cur.block).waves.length →
      (t.block s.cur.block).waves.getD w default =
        match leadOf (.lease f) s s.cur.block w with
        | none => (s.block s.cur.block).waves.getD w default
        | some tid =>
          let v : Int := (opd f (shapeOf (.lease f)) (s.thread s.cur.block tid).vals .ra : Int) + offsetOf f 1
          { (s.block s.cur.block).waves.getD w default with declared := (min (max v 0) 2048).toNat }) ∧
    (∀ b, b ≠ s.cur.block → t.block b = s.block b) ∧ t = { s with blocks := t.blocks })

/-- The cross-lane instructions arrive: every thread of the group, whatever its guard, waits at the instruction.
CROSS_LANE_FIRE: the threads of the fired set complete together, each with what it receives from the values as they
stand now, and pass the instruction; no other thread changes. The fired set is the largest set of arrived lanes at the address
in which each lane's living members are. What a lane contributes, and what `SHFL`, `QBC`, `QXCH`, `VOTE` and `WRED` make of
the contributions. -/
def Obligations.CrossLaneCompletes : Prop :=
  (∀ i s, ((∃ f, i = .shfl f) ∨ (∃ f, i = .vote f) ∨ (∃ f, i = .wred f) ∨ (∃ f, i = .qxch f) ∨ (∃ f, i = .qbc f)) →
     Unhindered i s →
     ∃ t, exec i s = .next t ∧ MemorySame s t ∧
       GroupStep (fun tid => { stampThread s.cur.cyc (s.thread s.cur.block tid) with
         st := .laneWait (threadGuard i s s.cur.block tid) i s.cur.len }) id s t) ∧
  (∀ b w pc s, b < s.blocks.length → firedSet s b w pc ≠ [] →
     let n := (s.launchOf b).lanes
     ∃ t, exec (.crossLaneFire b w pc) s = .next t ∧ MemorySame s t ∧
       (∀ lane ∈ firedSet s b w pc, ∃ on i len,
         (s.thread b (w * n + lane)).st = .laneWait on i len ∧
         (t.thread b (w * n + lane)).pc = pc + BitVec.ofNat 64 len ∧ (t.thread b (w * n + lane)).st = .ready ∧
         (t.thread b (w * n + lane)).vals =
           if on then
             (writeDst (fieldsOf i).1 (fieldsOf i).2 (s.thread b (w * n + lane)).vals
               (crossResult s b w (firedSet s b w pc) i (s.thread b (w * n + lane)) lane).1
               (srcTaint (fieldsOf i).1 (fieldsOf i).2 (s.thread b (w * n + lane)).vals ||
                 (crossResult s b w (firedSet s b w pc) i (s.thread b (w * n + lane)) lane).2.2)).setPred
               (fieldsOf i).1.re.toNat (crossResult s b w (firedSet s b w pc) i (s.thread b (w * n + lane)) lane).2.1
           else (s.thread b (w * n + lane)).vals) ∧
       (∀ u, (∀ lane ∈ firedSet s b w pc, u ≠ w * n + lane) → t.thread b u = s.thread b u) ∧
       (∀ c, c ≠ b → t.block c = s.block c) ∧ t = { s with blocks := t.blocks }) ∧
  (∀ s b w pc,
     let good := fun (set : List Nat) => ∀ l ∈ set, ∃ y, laneThread s b w l = some y ∧ y.pc = pc ∧
       (arrivalOf y).isSome = true ∧
       ∀ m ∈ namedLanes l y, ∀ z, laneThread s b w m = some z → z.st ≠ .exited → m ∈ set
     good (firedSet s b w pc) ∧ ∀ set, good set → ∀ l ∈ set, l ∈ firedSet s b w pc) ∧
  (∀ (y : Thread) on i len lane m, y.st = .laneWait on i len → lane < 32 → (m ∈ namedLanes lane y ↔
     m = lane ∨ (on = true ∧ m < 32 ∧ (opd (fieldsOf i).1 (fieldsOf i).2 y.vals (maskPos i)).testBit m = true ∧
       (isQuad i = true → m / 4 = lane / 4)))) ∧
  (∀ s b w set i y lane m,
     let named := namedLanes lane y
     let c := contribFor s b w set i y lane named m
     (m = lane → c = (laneSource y i, true, false)) ∧ (m ≠ lane → m ∉ named → c = (0, false, false)) ∧
     (m ≠ lane → m ∈ named → (laneThread s b w m = none → c = (0, false, false)) ∧
       ∀ z, laneThread s b w m = some z →
         (∀ j len, z.st = .laneWait true j len → m ∈ set → c.1 = laneSource z j ∧ c.2.1 = true) ∧
         (∀ on j len, z.st = .laneWait on j len → on = false ∨ m ∉ set → c = (0, false, false)) ∧
         (z.st = .exited → isQuad i = false → c = (0, false, false)) ∧
         (z.st = .exited → isQuad i = true → c.2.1 = false ∧
           (let r := z.vals.get (fieldsOf i).1.ra.toNat
            c.1 = if r.av = .abandoned then 0 else r.val.toNat)) ∧
         (z.st ≠ .exited → (∀ on j len, z.st ≠ .laneWait on j len) → c = (0, false, false)))) ∧
  (∀ s b w set (f : EFields) y lane, lane < (s.launchOf b).lanes →
     let n := (s.launchOf b).lanes
     let named := namedLanes lane y
     let from_ := fun i m => contribFor s b w set i y lane named m
     let get := fun i => crossResult s b w set i y lane
     let k := opd f (shapeOf (.shfl f)) y.vals .rb
     let mode := f.mod.toNat % 4
     (mode = 0 → get (.shfl f) = from_ (.shfl f) (k % 32)) ∧
     (mode = 1 → f.mod.getLsbD 2 = false →
       get (.shfl f) = if lane < k then (0, false, false) else from_ (.shfl f) (lane - k)) ∧
     (mode = 2 → f.mod.getLsbD 2 = false →
       get (.shfl f) = if 31 < lane + k then (0, false, false) else from_ (.shfl f) (lane + k)) ∧
     (mode = 1 → f.mod.getLsbD 2 = true → ∀ m, m < n → (m + k) % n = lane → get (.shfl f) = from_ (.shfl f) m) ∧
     (mode = 2 → f.mod.getLsbD 2 = true → get (.shfl f) = from_ (.shfl f) ((lane + k) % n)) ∧
     (mode = 3 → get (.shfl f) = from_ (.shfl f) (lane ^^^ (k % 32))) ∧
     get (.qbc f) = from_ (.qbc f) (lane / 4 * 4 + mode) ∧ get (.qxch f) = from_ (.qxch f) (lane ^^^ mode) ∧
     (let v := fun m => (from_ (.vote f) m).1
      let r := get (.vote f)
      let holds := fun (p : Prop) => (r.1 = 1 ∧ p) ∨ (r.1 = 0 ∧ ¬p)
      (mode = 0 → holds (∀ m ∈ named, v m ≠ 0)) ∧ (mode = 1 → holds (∃ m ∈ named, v m ≠ 0)) ∧
      (mode = 2 → holds (∀ m ∈ named, ∀ m' ∈ named, v m = v m')) ∧
      (mode = 3 → ∀ m, r.1.testBit m = true ↔ m ∈ named ∧ v m ≠ 0) ∧
      (r.2.1 = true ↔ ∀ m ∈ named, (from_ (.vote f) m).2.1 = true)) ∧
     (let v := fun m => (from_ (.wred f) m).1
      let r := get (.wred f)
      let key : Nat → Int := fun x => if f.mod.getLsbD 3 then sextN x 32 else (x : Int)
      (fmtOf f = 0 → r.1 % 2 ^ 32 = (named.map v).sum % 2 ^ 32) ∧
      (fmtOf f = 1 → (∃ m ∈ named, r.1 = v m) ∧ ∀ m ∈ named, key r.1 ≤ key (v m)) ∧
      (fmtOf f = 2 → (∃ m ∈ named, r.1 = v m) ∧ ∀ m ∈ named, key (v m) ≤ key r.1) ∧
      (fmtOf f = 3 → ∀ j, r.1.testBit j = true ↔ ∀ m ∈ named, (v m).testBit j = true) ∧
      (fmtOf f = 4 → ∀ j, r.1.testBit j = true ↔ ∃ m ∈ named, (v m).testBit j = true) ∧
      (fmtOf f = 5 → ∀ j, r.1.testBit j = decide ((named.filter fun m => (v m).testBit j).length % 2 = 1)) ∧
      (r.2.1 = true ↔ ∀ m ∈ named, (from_ (.wred f) m).2.1 = true)))

/-! ### The memory class -/

/-- Loads complete at their issue by queueing one entry that answers a producer: the destination is EMPTY until the
entry takes its step. No byte of memory changes. The entry of an `LDS` names its variant, and `.w` and `.wc` acquire at the block
(that these wait for the FULL granule at the entry's own step, as every load of scratch reads at its, is log 90). -/
def Obligations.LoadsQueue : Prop :=
  (∀ i s, isGlobalLoad i = true → Unhindered i s → OnAll i s (globalOk i [.rd] s) →
    ∃ t, exec i s = .next t ∧ MemorySame s t ∧
      LaneStep i (fun tid => pushLoad (loadEntry i s tid) (dstRegs (fieldsOf i).1 (fieldsOf i).2)
        (match i with
         | .ldc _ => true
         | _ => false)) s t) ∧
  (∀ i s, isScratchLoad i = true → Unhindered i s → OnAll i s (scratchOk i s) →
    ∃ t, exec i s = .next t ∧ MemorySame s t ∧
      LaneStep i (fun tid => pushLoad (loadEntry i s tid) (dstRegs (fieldsOf i).1 (fieldsOf i).2) false) s t)

/-- Stores complete at their issue by queueing one entry with the bytes of their data: memory does not change until
the entry takes its step (STORE_PERFORM). Atomics complete at their issue by queueing one entry that answers a
producer, tainted where a register source is (log 56); a global one ends the rollback interval of its block at its issue, as a
fence or a `.rel` store at a scope wider than the block does (the model's reading of the moment, log 59). `FENCE` and `FESET` complete at their issue by
queueing one entry; a `FESET` of no granules queues none; a fence with a release part at a scope wider than the block
ends the rollback interval. -/
def Obligations.StoresAtomicsFencesQueue : Prop :=
  (∀ f s, Unhindered (.st f) s → OnAll (.st f) s (globalOk (.st f) [.w] s) →
    OnAll (.st f) s (fun t => pairAgrees s t fun v =>
      [globalAddr f (shapeOf (.st f)) (Machine.sizeOf f) v, leNat (storeData f (shapeOf (.st f)) v (Machine.sizeOf f))]) →
    ∃ t, exec (.st f) s = .next t ∧ MemorySame s t ∧
      GroupStep (guarded (.st f) (fun tid => pushOp (storeEntry (.st f) s tid)) s)
        (endedIf (onTids (.st f) s != [] && widerThanBlock (scopeIf (decide (ordOf f = 1)) f))) s t) ∧
  (∀ i s, isScratchStore i = true → Unhindered i s → OnAll i s (scratchOk i s) →
    OnAll i s (fun t => pairAgrees s t fun v =>
      [scratchAddr (fieldsOf i).1 (fieldsOf i).2 (Machine.sizeOf (fieldsOf i).1) v,
       leNat (storeData (fieldsOf i).1 (fieldsOf i).2 v (Machine.sizeOf (fieldsOf i).1))]) →
    ∃ t, exec i s = .next t ∧ MemorySame s t ∧ LaneStep i (fun tid => pushOp (storeEntry i s tid)) s t) ∧
  (∀ f s, Unhindered (.atom f) s → OnAll (.atom f) s (globalOk (.atom f) [.rd, .w] s) →
    OnAll (.atom f) s (fun t => pairAgrees s t fun v =>
      [globalAddr f (shapeOf (.atom f)) (Machine.sizeOf f) v, leNat (atomData f (shapeOf (.atom f)) v)]) →
    ∃ t, exec (.atom f) s = .next t ∧ MemorySame s t ∧
      GroupStep (guarded (.atom f) (fun tid =>
          fun th => pushLoad (atomEntry (.atom f) s tid) (dstRegs f (shapeOf (.atom f))) (srcTaint f (shapeOf (.atom f)) th.vals) th) s)
        (endedIf (onTids (.atom f) s != [])) s t) ∧
  (∀ f s, Unhindered (.atoms f) s → OnAll (.atoms f) s (scratchOk (.atoms f) s) →
    OnAll (.atoms f) s (fun t => pairAgrees s t fun v =>
      [scratchAddr f (shapeOf (.atoms f)) (Machine.sizeOf f) v, leNat (atomData f (shapeOf (.atoms f)) v)]) →
    ∃ t, exec (.atoms f) s = .next t ∧ MemorySame s t ∧
      LaneStep (.atoms f) (fun tid th => pushLoad (atomEntry (.atoms f) s tid) (dstRegs f (shapeOf (.atoms f)))
        (srcTaint f (shapeOf (.atoms f)) th.vals) th) s t) ∧
  (∀ f s, Unhindered (.fence f) s →
    let rel := if f.mod ≠ 0x10 then scopeOf f.scp else none
    ∃ t, exec (.fence f) s = .next t ∧ MemorySame s t ∧
      GroupStep (guarded (.fence f) (fun _ th =>
          pushOp { baseOp th (.fence (f.mod != 0x11) (f.mod != 0x10)) s.cur.pc (s.block s.cur.block).issues s.cur.cyc
              (curSub s s.cur.block) with
            acq := if f.mod ≠ 0x11 then scopeOf f.scp else none, rel := rel } th) s)
        (endedIf (onTids (.fence f) s != [] && widerThanBlock rel)) s t) ∧
  (∀ f s, Unhindered (.feset f) s →
    let sh := shapeOf (.feset f)
    let n := fun t => opd f sh (s.thread s.cur.block t).vals .re
    let a := fun t => scratchAddr f sh 16 (s.thread s.cur.block t).vals
    OnAll (.feset f) s (fun t => scratchFault (s.launchOf s.cur.block).scratch (a t) (16 * n t) 16 = none) →
    ∃ t, exec (.feset f) s = .next t ∧ MemorySame s t ∧
      LaneStep (.feset f) (fun tid th => if n tid = 0 then th
        else pushOp { scratchOp s s.cur.block tid (.feset (n tid) (decide (ordOf f = 1))) (a tid) 0 with
          rel := if ordOf f = 1 then some .blk else none } th) s t)

/-- `CCTL` and `PFETCH` complete: every thread passes and no byte of memory changes; `CCTL` changes only which lines
the caches hold, the victim tags with them, of the lines that its threads name, and loses no dirty data: `.inv` leaves every dirty
line, and what `.wb` and `.wbinv` write back is dirty in a copy that stays, or no L2 holds the line and it is in memory; `PFETCH` that its lease
lets read changes nothing more (the device drops the request, as it may: log 28). -/
def Obligations.CacheHintsComplete : Prop :=
  (∀ f s, Unhindered (.cctl f) s →
    OnAll (.cctl f) s (fun t => globalAddr f (shapeOf (.cctl f)) 128 (s.thread s.cur.block t).vals < 2 ^ 56) →
    ∃ t, exec (.cctl f) s = .next t ∧ MemorySame s t ∧
      (∀ tid ∈ s.cur.tids, t.thread s.cur.block tid = passed s tid) ∧
      (∀ tid, tid ∉ s.cur.tids → t.thread s.cur.block tid = s.thread s.cur.block tid) ∧
      (∀ b, b ≠ s.cur.block → t.block b = s.block b) ∧
      t = { s with blocks := t.blocks, lines := t.lines, cores := t.cores } ∧
      (∀ c, ∃ v, t.core c = { s.core c with victims := v }) ∧ (∀ x ∈ t.lines, ∃ y ∈ s.lines, x = { y with dirty := x.dirty }) ∧
      (∀ y ∈ s.lines, (∀ tid ∈ onTids (.cctl f) s, ¬(y.ctx = ctxOf s s.cur.block ∧
        y.addr = globalAddr f (shapeOf (.cctl f)) 128 (s.thread s.cur.block tid).vals / 128 * 128)) → y ∈ t.lines) ∧
      (∀ y ∈ s.lines, y.dirty = true → (y.coh = .priv ∨ y.coh = .soft ∨ ∀ c, y.place ≠ .l1 c) →
        (f.mod = 1 → y ∈ t.lines) ∧
        ((∃ x ∈ t.lines, x.ctx = y.ctx ∧ x.addr = y.addr ∧ x.dirty = true) ∨
          (∀ z ∈ s.lines, z.ctx = y.ctx → z.addr = y.addr → z.place.isL2 = false)))) ∧
  (∀ f s, Unhindered (.pfetch f) s →
    let a := fun t => globalAddr f (shapeOf (.pfetch f)) 128 (s.thread s.cur.block t).vals
    OnAll (.pfetch f) s (fun t => globalFault (s.launchOf s.cur.block).ranges (a t) 1 1 [.rd] = none) →
    ∃ t, exec (.pfetch f) s = .next t ∧ MemorySame s t ∧ LaneStep (.pfetch f) (fun _ th => th) s t)

/-- `ACP` and `TCOPY` complete at their issue by starting a copy: the block holds it, the granules of its destination in
scratch are EMPTY, the tag counter of the home wave rises by one, every thread passes, and no byte of memory changes until it
completes. Where 16 tensor copies of the core are in flight, a lane of `TCOPY` waits with the descriptor it has read (log
106). -/
def Obligations.CopiesStart : Prop :=
  (∀ f s, Unhindered (.acp f) s →
    let sh := shapeOf (.acp f)
    let b := s.cur.block
    let d := fun t => opd f sh (s.thread b t).vals .rd
    let a := fun t => globalAddr f sh 32 (s.thread b t).vals
    let n := fun t => min (opd f sh (s.thread b t).vals .re) 32
    let tags := fun (r : State) w => ((r.block b).waves.getD w default).tags
    OnAll (.acp f) s (fun t => scratchFault (s.launchOf b).scratch (d t) 32 32 = none ∧
      (n t = 0 ∨ globalFault (s.launchOf b).ranges (a t) (n t) 16 [.rd] = none) ∧
      pairAgrees s t fun v => [opd f sh v .rd, globalAddr f sh 32 v, acpCount f sh v]) →
    ∃ t, exec (.acp f) s = .next t ∧ MemorySame s t ∧
      (∀ tid ∈ s.cur.tids, (t.thread b tid).pc = (passed s tid).pc ∧ (t.thread b tid).vals = (s.thread b tid).vals) ∧
      (∀ tid, tid ∉ s.cur.tids → t.thread b tid = s.thread b tid) ∧
      OnAll (.acp f) s (fun tid => (∃ c ∈ (t.block b).copies,
          c.tid = tid ∧ c.tag = f.mod.toNat ∧ c.desc = [] ∧ c.dst = d tid ∧ c.src = a tid ∧ c.n = n tid ∧ c.got = []) ∧
        sget true (d tid / 16) (t.block b).fe = false ∧ sget true (d tid / 16 + 1) (t.block b).fe = false) ∧
      (∀ g, (∀ tid ∈ onTids (.acp f) s, g ≠ d tid / 16 ∧ g ≠ d tid / 16 + 1) →
        sget true g (t.block b).fe = sget true g (s.block b).fe) ∧
      (∀ w k, k < (tags s w).length → (tags t w).getD k 0 = (tags s w).getD k 0 +
        ((onTids (.acp f) s).filter fun tid => homeWave (s.launchOf b) tid = w && f.mod.toNat = k).length) ∧
      (∀ c, c ≠ b → t.block c = s.block c) ∧ t = { s with blocks := t.blocks }) ∧
  (∀ f s, Unhindered (.tcopy f) s →
    let sh := shapeOf (.tcopy f)
    let b := s.cur.block
    let core := (s.block b).core
    let on := onTids (.tcopy f) s
    let starts := if copyWaiters s core = [] then on.take (16 - copiesOn s core true) else []
    let desc := fun tid => memRead (s.block b).scratch (opd f sh (s.thread b tid).vals .ra) 128
    let tag := fun tid => opd f sh (s.thread b tid).vals .rb % 8
    let tags := fun (r : State) w => ((r.block b).waves.getD w default).tags
    OnAll (.tcopy f) s (fun t => tcopyFault f sh s b t = none) → (s.block b).status = .placed →
    ∃ t, exec (.tcopy f) s = .next t ∧ MemorySame s t ∧
      (∀ tid ∈ s.cur.tids, (t.thread b tid).vals = (s.thread b tid).vals) ∧
      (∀ tid ∈ s.cur.tids, tid ∉ on ∨ tid ∈ starts → (t.thread b tid).pc = (passed s tid).pc) ∧
      (∀ tid, tid ∉ s.cur.tids → t.thread b tid = s.thread b tid) ∧
      (∀ tid ∈ starts, (∃ c ∈ (t.block b).copies, c.tid = tid ∧ c.tag = tag tid ∧ c.got = [] ∧ c.desc = desc tid) ∧
        ∀ d a, tdescOf (desc tid) = some d → d.dir = 0 → d.dst ≤ a → a < d.dst + d.count * d.esize →
          sget true (a / 16) (t.block b).fe = false) ∧
      (∀ tid ∈ on, tid ∉ starts → (t.thread b tid).st =
          .copyWait (desc tid) (tag tid) (s.block b).issues s.cur.len (curSub s b) (runTaint (fieldRun f sh (s.thread b tid).vals .ra)) ∧
        (t.thread b tid).pc = s.cur.pc) ∧
      (∀ w k, k < (tags s w).length → (tags t w).getD k 0 = (tags s w).getD k 0 +
        (starts.filter fun tid => homeWave (s.launchOf b) tid = w && tag tid = k).length) ∧
      (∀ c, c ≠ b → t.block c = s.block c) ∧ t = { s with blocks := t.blocks })

/-! ### The matrix class -/

/-- `MMA` signs: where the set has room for every thread that signs and no close, each thread's signature joins the
set in lane order, and the thread's A registers are busy until the capture. `MMA` closes: the last signature of a set,
with the operands of the others and the token at the engine, puts the instance into the core's queue and leaves the cv
OPEN for the next one. -/
def Obligations.MmaSignsAndCloses : Prop :=
  (∀ f s first n, Unhindered (.mma f) s →
     let sh := shapeOf (.mma f)
     let b := s.cur.block
     let c := f.rc.toNat
     let cv := cvOf s b c
     let on := onTids (.mma f) s
     c < (s.block b).cvs.length → cv.set = some (first, n) → cv.sigs.length + on.length < n →
     OnAll (.mma f) s (fun t => signFault s b t cv (sigOf f sh s b t (t - first)) = none) →
     ∃ t, exec (.mma f) s = .next t ∧ MemorySame s t ∧
       (cvOf t b c).sigs = cv.sigs ++ on.map (fun tid => sigOf f sh s b tid (tid - first)) ∧
       (cvOf t b c).set = cv.set ∧ (∀ c', c' ≠ c → cvOf t b c' = cvOf s b c') ∧
       OnAll (.mma f) s (fun tid => (c, cv.inst) ∈ (t.thread b tid).signed ∧
         (let g := sigOf f sh s b tid (tid - first)
          (t.thread b tid).aBusy = (s.thread b tid).aBusy ++ [⟨instKey c cv.inst,
            if latchCovers (s.block b) c tid f.ra.toNat ∨ f.ra = 0 then 512 else f.ra.toNat, (s.thread b tid).nextId,
            (s.block b).issues, g.vb / 16, (g.vb + bBytes g.bt) / 16⟩])) ∧
       (∀ tid ∈ s.cur.tids, (t.thread b tid).pc = (passed s tid).pc ∧ (t.thread b tid).vals = (s.thread b tid).vals) ∧
       (∀ tid, tid ∉ s.cur.tids → t.thread b tid = s.thread b tid) ∧
       (∀ k, k ≠ b → t.block k = s.block k) ∧ t = { s with blocks := t.blocks }) ∧
  (∀ f s first n tid, Unhindered (.mma f) s →
     let sh := shapeOf (.mma f)
     let b := s.cur.block
     let c := f.rc.toNat
     let cv := cvOf s b c
     let g := sigOf f sh s b tid (tid - first)
     c < (s.block b).cvs.length → (s.block b).core < s.cores.length →
     onTids (.mma f) s = [tid] → cv.set = some (first, n) → cv.sigs.length + 1 = n →
     signFault s b tid cv g = none → (∀ x ∈ cv.sigs, sameOps g x = true) → (tileOf s b g.tile).ownerS = none →
     ∃ t, exec (.mma f) s = .next t ∧ MemorySame s t ∧
       (∃ i ∈ (t.core (s.block b).core).mq, i.id = cv.inst ∧ i.block = b ∧ i.cv = c ∧ i.tile = f.rd.toNat ∧
         i.sigs = cv.sigs ++ [g] ∧ i.closed = s.cur.cyc ∧ i.cap = none) ∧
       (cvOf t b c).sigs = [] ∧ (cvOf t b c).inst = cv.inst + 1 ∧ (cvOf t b c).set = cv.set ∧
       (t.thread b tid).pc = (passed s tid).pc ∧ (∀ k, k ≠ b → t.block k = s.block k))

/-- `CVSET`, `MWAIT`, `ACCWIN`, `ALD`, `AST` and `ACLR` complete: the set takes effect at the end of the cycle (log 19), the
window at once; `ALD` holds the cell's pattern in a producer, `AST` writes its cell, `ACLR` every cell of its tile. -/
def Obligations.MatrixCompletes : Prop :=
  (∀ f s tid, Unhindered (.cvset f) s →
    let sh := shapeOf (.cvset f)
    let v := (s.thread s.cur.block tid).vals
    onTids (.cvset f) s = [tid] → opd f sh v .ra ≠ 0 → opd f sh v .ra ≤ 64 →
    opd f sh v .rb + opd f sh v .ra ≤ (s.block s.cur.block).ntid →
    f.rd.toNat < (s.block s.cur.block).cvs.length →
    ∃ t, exec (.cvset f) s = .next t ∧ MemorySame s t ∧
      GroupStep (passed s) (withSet f.rd.toNat (tid, s.cur.pc, opd f sh v .ra, opd f sh v .rb)) s t) ∧
  (∀ f s, Unhindered (.mwait f) s →
    ∃ t, exec (.mwait f) s = .next t ∧ MemorySame s t ∧ LaneStep (.mwait f) (fun _ th => th) s t) ∧
  (∀ f s, Unhindered (.accwin f) s →
    let sh := shapeOf (.accwin f)
    let v := (s.thread s.cur.block 0).vals
    onTids (.accwin f) s = [0] → opd f sh v .ra < (s.block s.cur.block).waves.length →
    opd f sh v .rb ≤ opd f sh v .rc → opd f sh v .rc ≤ 64 * (s.block s.cur.block).tiles.length →
    ∃ t, exec (.accwin f) s = .next t ∧ MemorySame s t ∧
      GroupStep (passed s) (withWindow (opd f sh v .ra) (BitVec.ofNat 32 (opd f sh v .rb)) (BitVec.ofNat 32 (opd f sh v .rc)))
        s t) ∧
  (∀ f s, Unhindered (.ald f) s →
    let sh := shapeOf (.ald f)
    OnAll (.ald f) s (fun t => cellFault f sh s s.cur.block t = none) →
    ∃ t, exec (.ald f) s = .next t ∧ MemorySame s t ∧ LaneStep (.ald f) (fun _ th =>
      let row := opd f sh th.vals .ra
      startProd ⟨th.nextId, dstRegs f sh, .tile (row / 64)
        (sget 0 (cellOf row (opd f sh th.vals .rb)) (tileOf s s.cur.block (row / 64)).cells),
        srcTaint f sh th.vals, false, s.cur.pc⟩ th) s t) ∧
  (∀ f s, Unhindered (.ast f) s →
    let sh := shapeOf (.ast f)
    let b := s.cur.block
    let row := fun t => opd f sh (s.thread b t).vals .ra
    let col := fun t => opd f sh (s.thread b t).vals .rb
    Canonical s → OnAll (.ast f) s (fun t => cellFault f sh s b t = none) →
    ∃ t, exec (.ast f) s = .next t ∧ MemorySame s t ∧
      (∀ pre tid post, onTids (.ast f) s = pre ++ tid :: post →
        (∀ u ∈ post, ¬(row u / 64 = row tid / 64 ∧ cellOf (row u) (col u) = cellOf (row tid) (col tid))) →
        sget 0 (cellOf (row tid) (col tid)) (tileOf t b (row tid / 64)).cells =
          BitVec.ofNat 32 (opd f sh (s.thread b tid).vals .rc)) ∧
      (∀ tile x, (∀ u ∈ onTids (.ast f) s, ¬(row u / 64 = tile ∧ cellOf (row u) (col u) = x)) →
        sget 0 x (tileOf t b tile).cells = sget 0 x (tileOf s b tile).cells) ∧
      (∀ tid ∈ s.cur.tids, t.thread b tid = passed s tid) ∧
      (∀ tid, tid ∉ s.cur.tids → t.thread b tid = s.thread b tid) ∧
      (∀ c, c ≠ b → t.block c = s.block c) ∧ t = { s with blocks := t.blocks }) ∧
  (∀ f s, Unhindered (.aclr f) s →
    let b := s.cur.block
    OnAll (.aclr f) s (fun t => aclrFault f.rd.toNat s b t = none) →
    ∃ t, exec (.aclr f) s = .next t ∧ MemorySame s t ∧
      (onTids (.aclr f) s ≠ [] → ∀ x, sget 0 x (tileOf t b f.rd.toNat).cells = 0) ∧
      (∀ tile, tile ≠ f.rd.toNat ∨ onTids (.aclr f) s = [] → tileOf t b tile = tileOf s b tile) ∧
      (∀ tid ∈ s.cur.tids, t.thread b tid = passed s tid) ∧
      (∀ tid, tid ∉ s.cur.tids → t.thread b tid = s.thread b tid) ∧
      (∀ c, c ≠ b → t.block c = s.block c) ∧ t = { s with blocks := t.blocks })

/-- `TKGET` and `TKPUT` complete, and with them TOKEN_GRANT and TOKEN_RETURN: a request joins those of its tile and
its threads wait; the grant hands the token to the wave and lets them pass; `TKPUT` of a block that is not COMPACT
returns the token at once, of a COMPACT block every thread, whatever its guard, waits until the living threads of the home wave are
there and, where a guard of them was true, no read of the tile by one of them is in flight: then they pass, and the token is
returned where a guard was true. -/
def Obligations.TokensComplete : Prop :=
  (∀ f s, Unhindered (.tkget f) s →
    let b := s.cur.block
    f.rd.toNat < (s.block b).tiles.length →
    ∃ t, exec (.tkget f) s = .next t ∧ MemorySame s t ∧
      (∀ tid ∈ s.cur.tids, t.thread b tid =
        guarded (.tkget f) (fun _ th => { th with st := .tokWait f.rd.toNat s.cur.len, pc := s.cur.pc }) s tid) ∧
      (∀ tid, tid ∉ s.cur.tids → t.thread b tid = s.thread b tid) ∧
      OnAll (.tkget f) s (fun tid => ∃ r ∈ (tileOf t b f.rd.toNat).reqs,
        r.wave = homeWave (s.launchOf b) tid ∧ r.cycle = s.cur.cyc ∧ tid ∈ r.tids) ∧
      (∀ tile, (tileOf t b tile).owner = (tileOf s b tile).owner ∧ (tileOf t b tile).cells = (tileOf s b tile).cells) ∧
      (∀ c, c ≠ b → t.block c = s.block c) ∧ t = { s with blocks := t.blocks }) ∧
  (∀ f s, Unhindered (.tkput f) s →
    let b := s.cur.block
    f.rd.toNat < (s.block b).tiles.length →
    OnAll (.tkput f) s (fun t => (tileOf s b f.rd.toNat).owner = some (homeWave (s.launchOf b) t)) →
    ∃ t, exec (.tkput f) s = .next t ∧ MemorySame s t ∧
      (∀ tid, tid ∉ s.cur.tids → t.thread b tid = s.thread b tid) ∧
      ((s.launchOf b).compact = false →
        (∀ tid ∈ s.cur.tids, t.thread b tid = passed s tid) ∧
        (onTids (.tkput f) s ≠ [] → (tileOf t b f.rd.toNat).owner = none)) ∧
      ((s.launchOf b).compact = true →
        (∀ tid ∈ s.cur.tids, t.thread b tid = { stampThread s.cur.cyc (s.thread b tid) with
          st := .putWait (threadGuard (.tkput f) s b tid) f.rd.toNat s.cur.len }) ∧
        (∀ tile, tileOf t b tile = tileOf s b tile)) ∧
      (∀ c, c ≠ b → t.block c = s.block c) ∧ t = { s with blocks := t.blocks }) ∧
  (∀ b tile s r, b < s.blocks.length → tile < (s.block b).tiles.length → nextReq s b tile = some r →
    ∃ t, exec (.tokenGrant b tile) s = .next t ∧ MemorySame s t ∧ (tileOf t b tile).owner = some r.wave ∧
      (∀ tid ∈ r.tids, ∀ x len, (s.thread b tid).st = .tokWait x len →
        (t.thread b tid).st = .ready ∧ (t.thread b tid).pc = (s.thread b tid).pc + BitVec.ofNat 64 len) ∧
      (∀ tid, tid ∉ r.tids → t.thread b tid = s.thread b tid) ∧
      (∀ c, c ≠ b → t.block c = s.block c) ∧ t = { s with blocks := t.blocks }) ∧
  (∀ b w tile s, b < s.blocks.length → tile < (s.block b).tiles.length →
    let ts := (tidsOf (s.block b)).filter fun t => waveOf s b t = w && (s.thread b t).alive
    ts ≠ [] → (tileOf s b tile).owner = some w →
    (∀ tid ∈ ts, (s.thread b tid).pc = (s.thread b (ts.headD 0)).pc ∧ ∃ on len, (s.thread b tid).st = .putWait on tile len) →
    ((∃ tid ∈ ts, ∃ len, (s.thread b tid).st = .putWait true tile len) → aldPending s b w tile = false) →
    ∃ t, exec (.tokenReturn b w tile) s = .next t ∧ MemorySame s t ∧
      ((∃ tid ∈ ts, ∃ len, (s.thread b tid).st = .putWait true tile len) → (tileOf t b tile).owner = none) ∧
      ((∀ tid ∈ ts, ∀ len, (s.thread b tid).st ≠ .putWait true tile len) → tileOf t b tile = tileOf s b tile) ∧
      (∀ x, x ≠ tile → tileOf t b x = tileOf s b x) ∧
      (∀ tid ∈ ts, ∀ on len, (s.thread b tid).st = .putWait on tile len →
        (t.thread b tid).st = .ready ∧ (t.thread b tid).pc = (s.thread b tid).pc + BitVec.ofNat 64 len) ∧
      (∀ tid, tid ∉ ts → t.thread b tid = s.thread b tid) ∧
      (∀ c, c ≠ b → t.block c = s.block c) ∧ t = { s with blocks := t.blocks })

/-- `SWRITE` completes: MODE takes the low three bits, FLAGS the low five; WTLIM of a home wave takes the value of its
first thread with a true guard. -/
def Obligations.SwriteCompletes : Prop :=
  ∀ f s, Unhindered (.swrite f) s →
    let b := s.cur.block
    let x := fun t => opd f (shapeOf (.swrite f)) (s.thread b t).vals .ra
    OnAll (.swrite f) s (fun t => f.re = 0x10 → x t % 8 ≠ 0 ∧ x t % 8 ≤ 5) →
    ∃ t, exec (.swrite f) s = .next t ∧ MemorySame s t ∧
      (f.re = 0x10 → LaneStep (.swrite f) (fun tid th => { th with rm := BitVec.ofNat 3 (x tid) }) s t) ∧
      (f.re = 0x11 → LaneStep (.swrite f) (fun tid th => { th with flags := BitVec.ofNat 5 (x tid) }) s t) ∧
      (f.re ≠ 0x10 → f.re ≠ 0x11 →
        (∀ tid ∈ s.cur.tids, t.thread b tid = passed s tid) ∧
        (∀ w, w < (s.block b).waves.length → (t.block b).waves.getD w default =
          match leadOf (.swrite f) s b w with
          | none => (s.block b).waves.getD w default
          | some tid => { (s.block b).waves.getD w default with wtlim := BitVec.ofNat 32 (x tid) })) ∧
      (∀ tid, tid ∉ s.cur.tids → t.thread b tid = s.thread b tid) ∧
      (∀ c, c ≠ b → t.block c = s.block c) ∧ t = { s with blocks := t.blocks }

/-! ### The steps of the visibility machine -/

/-- STORE_PERFORM of a store: the bytes of its data stand at its address, every other byte of memory is as before, and
the entry has left the queue. The lanes of one global store instruction that name one granule step together, one after
another in ascending home lane. A global store is visible in the instance of its block from its step on, a `.rel` store in that of
its scope (of a PRIV page its block's); `STS.f` makes its granule FULL, but one that a later copy of its thread has emptied. Of the
other entries: `FESET` makes its granules FULL (as `STS.f`) or EMPTY, but those that a copy of the cycle has filled; a release event or a
fence with a release part is visible in the instance of its scope at its step, and opens the gate of a `RELEASE`; a fence
with an acquire part raises the floors to what was visible before each event it synchronizes with, `FENCE.ar` to the newest
store visible at its scope. What holds an entry: an older one of its thread on its granule; a release, an older access or an older
store not visible at its scope yet, PRIV stores apart; a store, an older fence with a release part; any, an older acquire;
an acquire fence, an older load; `FENCE.ar`, an older store not visible at its scope. -/
def Obligations.StorePerforms : Prop :=
  (∀ b t op o s, Canonical s → b < s.blocks.length → t < (s.block b).threads.length → findOp s b t op = some o →
    o.kind = .store → (o.scratch = true ∨ lostAt s (ctxOf s b) o.va = false) → releaseLost s b t o = false →
    let g := storeGroup s b t o
    (∀ e ∈ g, e.2.addr % 16 + e.2.data.length ≤ 16 ∧ opReady s b e.1 e.2 = true) →
    poolHeld (sendPool b o s) b o = false →
    ∃ r, exec (.storePerform b t op) s = .next r ∧ (t, o) ∈ g ∧ (o.scratch = true → g = [(t, o)]) ∧
      (∀ e ∈ g, findOp r b e.1 e.2.id = none) ∧ r.now = s.now + g.length ∧
      (∀ a, memGet r.pmem a = memGet s.pmem a) ∧
      (o.scratch = true →
        (∀ a, memGet (r.block b).scratch a =
          if o.addr ≤ a ∧ a < o.addr + o.data.length then o.data.getD (a - o.addr) 0 else memGet (s.block b).scratch a) ∧
        (∀ c a, c ≠ b → memGet (r.block c).scratch a = memGet (s.block c).scratch a) ∧
        (∀ x, sget true x (r.block b).fe =
          (sget true x (s.block b).fe || (decide (o.tag = .setFull ∧ x = o.gran) && !emptiedAfter s b t o x))) ∧
        (∀ key, newestByte r key = newestByte s key)) ∧
      (o.scratch = false →
        (∀ key, newestByte r key = g.foldl (fun v e =>
          if e.2.addr ≤ key ∧ key < e.2.addr + e.2.data.length then e.2.data.getD (key - e.2.addr) 0 else v) (newestByte s key)) ∧
        (∀ c a, memGet (r.block c).scratch a = memGet (s.block c).scratch a) ∧
        (∀ e ∈ g, e.2.rel = none → ∃ x ∈ r.items, x.gran = some (e.2.addr / 16) ∧ x.thr = some (b, e.1) ∧ x.op = e.2.id ∧
          ∃ τ, s.now ≤ τ ∧ τ < r.now ∧ x.vis = [(.blk b, τ)]) ∧
        (∀ e ∈ g, ∀ sc, e.2.rel = some sc → ∃ x ∈ r.items, x.gran = some (e.2.addr / 16) ∧ x.thr = some (b, e.1) ∧ x.op = e.2.id ∧
          ∃ τ, s.now ≤ τ ∧ τ < r.now ∧ x.vis = [(instOf s b (if e.2.priv then .blk else sc), τ)]))) ∧
  (∀ b t op o s, Canonical s → b < s.blocks.length → t < (s.block b).threads.length → findOp s b t op = some o → o.isAccess = false →
    releaseLost s b t o = false → opReady s b t o = true → poolHeld (sendPool b o s) b o = false →
    ∃ r, exec (.storePerform b t op) s = .next r ∧ findOp r b t op = none ∧ r.now = s.now + 1 ∧
      (∀ key, newestByte r key = newestByte s key) ∧ (∀ c a, memGet (r.block c).scratch a = memGet (s.block c).scratch a) ∧
      (∀ n full, o.kind = .feset n full → ∀ x,
        let old := sget true x (s.block b).fe
        sget true x (r.block b).fe = if o.gran ≤ x ∧ x < o.gran + n then
          (if full then old || !emptiedAfter s b t o x
           else old && (s.block b).landed.any fun c => (gransOf c.dst c.bytes.length).contains x) else old) ∧
      (∀ sc, o.rel = some sc → (o.kind = .release ∨ o.isFence = true) →
        ∃ x ∈ r.items, x.gran = none ∧ x.thr = some (b, t) ∧ x.op = o.id ∧ x.vis = [(instOf s b sc, s.now)]) ∧
      (∀ g, o.kind = .release → o.tag = .gate g → (s.block b).launch < s.launches.length →
        (r.launchOf b).gates = (s.launchOf b).gates ||| (1#16) <<< g ∧
        ((s.launchOf b).gates.getLsbD g = false → (g, s.now, s.cycle) ∈ (r.launchOf b).gateAt)) ∧
      (∀ acq rel sc, o.kind = .fence acq rel → o.acq = some sc →
        let k := instOf s b sc
        (∀ x ∈ (s.thread b t).reads, ∀ w g, syncStep s x k = some w → newestBefore s g k w ≤ floorAt r b g s.now) ∧
        (sc = .blk → ∀ g, newestBefore s g (.blk b) (s.thread b t).sreads ≤ floorAt r b g s.now) ∧
        (acq = true → rel = true → ∀ g, newestIn s g k s.now ≤ floorAt r b g s.now))) ∧
  (∀ s b t o,
    (∀ p ∈ (s.thread b t).ops, p.id < o.id →
      (p.scratch = o.scratch ∧ o.gran < p.gran + p.reach ∧ p.gran < o.gran + o.reach) ∨
        (o.rel.isSome = true ∧ p.isAccess = true ∧ (p.isStore = false ∨ p.priv = false)) ∨
        (p.isFence = true ∧ p.rel.isSome = true ∧ (o.isStore = true ∨ o.isAtomic = true)) ∨ p.acq.isSome = true ∨
        (o.isFence = true ∧ o.acq.isSome = true ∧ p.reads = true) → canStep s b t o = false) ∧
    (∀ x ∈ s.items, x.thr = some (b, t) → x.gran.isSome = true → x.op < o.id → x.priv = false → x.vis ≠ [] → ∀ sc,
      o.rel = some sc ∨ (o.kind = .fence true true ∧ o.acq = some sc) → visStep s x (instOf s b sc) = none →
      canStep s b t o = false))

/-- STORE_PERFORM of an atomic, on scratch and on global memory: its producer holds the old value, and the bytes hold the new one,
if there is one; no other byte changes. The old value of a global one is that of the newest store visible in the instance of its scope
(the block's, of a PRIV page), where the new one is visible from the same step on, newest of its granule. The new value of an
atomic on the old one and its operand, by its operation. -/
def Obligations.ScratchAtomicPerforms : Prop :=
  (∀ b t op o a s, Canonical s → b < s.blocks.length → t < (s.block b).threads.length → findOp s b t op = some o →
     o.kind = .atomic a → o.scratch = true → releaseLost s b t o = false → opReady s b t o = true →
     poolHeld (sendPool b o s) b o = false →
     let old := memRead (s.block b).scratch o.addr o.size
     ∃ r, exec (.storePerform b t op) s = .next r ∧ findOp r b t op = none ∧
       (r.thread b t).prods = modIf (fun x => x.id = o.prod.getD 0)
         (fun x => { x with val := .ready (loadWords o.size false old) }) (s.thread b t).prods ∧
       (∀ x, memGet (r.block b).scratch x =
         match atomNew a.toNat o.size (leNat old) o.data with
         | some v => if o.addr ≤ x ∧ x < o.addr + o.size then (leBytes o.size v).getD (x - o.addr) 0
           else memGet (s.block b).scratch x
         | none => memGet (s.block b).scratch x) ∧
       (∀ key, newestByte r key = newestByte s key)) ∧
  (∀ b t op o a s, b < s.blocks.length → t < (s.block b).threads.length → findOp s b t op = some o →
     o.kind = .atomic a → o.scratch = false → lostAt s (ctxOf s b) o.va = false → releaseLost s b t o = false →
     opReady s b t o = true → poolHeld (sendPool b o s) b o = false → o.addr % 16 + o.size ≤ 16 →
     let k := instOf s b (if o.priv then .blk else o.scp)
     let old := ((granValue s o.gran (newestIn s o.gran k s.now)).drop (o.addr % 16)).take o.size
     ∃ r, exec (.storePerform b t op) s = .next r ∧ findOp r b t op = none ∧ r.now = s.now + 1 ∧
       (r.thread b t).prods = modIf (fun x => x.id = o.prod.getD 0)
         (fun x => { x with val := .ready (loadWords o.size false old) }) (s.thread b t).prods ∧
       (∀ key, newestByte r key =
         match atomNew a.toNat o.size (leNat old) o.data with
         | some v => if o.addr ≤ key ∧ key < o.addr + o.size then (leBytes o.size v).getD (key - o.addr) 0 else newestByte s key
         | none => newestByte s key) ∧
       (∀ v, atomNew a.toNat o.size (leNat old) o.data = some v → ∃ x ∈ r.items, x.gran = some o.gran ∧ x.thr = some (b, t) ∧
         x.op = o.id ∧ x.bytes = granBytes o.addr (leBytes o.size v) ∧
         (o.rel = none ∨ o.rel = some o.scp → x.vis = [(k, s.now)])) ∧
       (∀ c x, memGet (r.block c).scratch x = memGet (s.block c).scratch x)) ∧
  (∀ size old (data : List Byte), 0 < size →
     let v := leNat data
     let w := 8 * size
     atomNew 0 size old data = some ((old + v) % 2 ^ w) ∧
     (∃ x, atomNew 1 size old data = some x ∧ (x = old ∨ x = v) ∧ sextN x w ≤ sextN old w ∧ sextN x w ≤ sextN v w) ∧
     (∃ x, atomNew 2 size old data = some x ∧ (x = old ∨ x = v) ∧ sextN old w ≤ sextN x w ∧ sextN v w ≤ sextN x w) ∧
     atomNew 3 size old data = some (min old v) ∧ atomNew 4 size old data = some (max old v) ∧
     atomNew 5 size old data = some (old &&& v) ∧ atomNew 6 size old data = some (old ||| v) ∧
     atomNew 7 size old data = some (old ^^^ v) ∧ atomNew 8 size old data = some v ∧
     atomNew 9 size old data =
       if old = leNat (data.take size) then some (leNat (data.drop size)) else none)

/-- LOAD_SATISFY of an entry that may take its step completes: the producer of a load holds the bytes read, extended to its registers: those of scratch as they
stood at the step whose value it takes, or those of the store that may be returned and of the stores before it. No byte of memory
changes. The lanes of one `LDS.c` or `LDS.wc` that name one granule read together: the producer of each holds its bytes, the entry
of each leaves its queue, and the bit of the granule is cleared. A read of a copy gives its bytes to the copy. -/
def Obligations.LoadSatisfies : Prop :=
  (∀ b t op o s, b < s.blocks.length → t < (s.block b).threads.length → findOp s b t op = some o → o.kind = .load →
    opReady s b t o = true →
    (o.scratch = true → ∀ item early, mayBeEarly s b t o early = true →
      let g := clearGroup s b t o
      (∀ e ∈ g, e.2.kind = .load ∧ opReady s b e.1 e.2 = true ∧ ∀ e' ∈ g, e.1 = e'.1 → e = e') →
      ∃ r, exec (.loadSatisfy b t op item early) s = .next r ∧ (t, o) ∈ g ∧ (o.tag.clears = false → g = [(t, o)]) ∧
      (∀ e ∈ g, findOp r b e.1 e.2.id = none ∧
        (r.thread b e.1).prods = modIf (fun x => x.id = e.2.prod.getD 0) (fun x =>
          { x with val := .ready (loadWords e.2.size e.2.sext (scratchData (s.block b) e.2 early)) }) (s.thread b e.1).prods ∧
        (e.2.addr % 16 + e.2.size ≤ 16 → (∀ p ∈ (s.block b).past, p.1 = e.2.gran → p.2.1 ≤ early) →
          scratchData (s.block b) e.2 early = memRead (s.block b).scratch e.2.addr e.2.size)) ∧
      (o.tag.clears = true → sget true o.gran (r.block b).fe = false) ∧
      (∀ x, o.tag.clears = false ∨ x ≠ o.gran → sget true x (r.block b).fe = sget true x (s.block b).fe) ∧
      (∀ u, (∀ e ∈ g, e.1 ≠ u) → r.thread b u = s.thread b u) ∧
      (∀ key, newestByte r key = newestByte s key) ∧ (∀ c a, memGet (r.block c).scratch a = memGet (s.block c).scratch a)) ∧
    (o.scratch = false → lostAt s (ctxOf s b) o.va = false → ∀ (item : Option Nat) (early : Nat),
      let x1 := match item with
        | some i => i + 1
        | none => 0
      mayBeEarly s b t o early = true → mayReturn s b t o x1 early = true →
      ∃ r, exec (.loadSatisfy b t op item early) s = .next r ∧ findOp r b t op = none ∧
        (r.thread b t).prods = modIf (fun x => x.id = o.prod.getD 0) (fun x =>
          { x with val := .ready (loadWords o.size o.sext (((granValue s o.source x1).drop (o.addr % 16)).take o.size)) })
          (s.thread b t).prods ∧
        (∀ key, newestByte r key = newestByte s key) ∧ (∀ c a, memGet (r.block c).scratch a = memGet (s.block c).scratch a))) ∧
  (∀ b t op o c e early x1 s, b < s.blocks.length → t < (s.block b).threads.length → findOp s b t op = some o →
    o.kind = .copyRead c e → o.scratch = false → opReady s b t o = true → lostAt s (ctxOf s b) o.va = false →
    mayBeEarly s b t o early = true → mayReturn s b t o x1 early = true →
    ∃ r, exec (.loadSatisfy b t op (if x1 = 0 then none else some (x1 - 1)) early) s = .next r ∧ findOp r b t op = none ∧
      (r.block b).copies = modIf (fun x => x.id = c && x.tid = t) (fun x => { x with got := x.got.filter (·.1 ≠ e) ++
        [(e, ((granValue s o.source x1).drop (o.addr % 16)).take o.size)] }) (s.block b).copies ∧
      (∀ key, newestByte r key = newestByte s key) ∧ (∀ k a, memGet (r.block k).scratch a = memGet (s.block k).scratch a))

/-- FRONTIER_ADVANCE: an item that is neither PRIV nor logged, nor of a LOST region beyond the device, nor at `.sys` of a
pool region whose link is down, nor of a line that another die holds dirty behind such a link, nor behind an earlier store of a
performed log, becomes visible in the wider instance from
this step on; no newest byte changes, nor any other item but for whether the pool device has it. An acquire raises every floor of its block to the newest
store that was visible before the event it synchronizes with, and lowers none. -/
def Obligations.FrontiersAndFloors : Prop :=
  (∀ (item wider b u : Nat) (x : Item) s, s.items[item]? = some x → x.thr = some (b, u) → x.priv = false →
     logged s item = false → x.vis ≠ [] →
     let k := instOf s b (scopeOfRank wider)
     let g := x.gran.getD 0 * 16
     logHolds s b item k = false → visStep s x k = none →
     (3 ≤ wider → x.gran.isSome = true → lostAt s (g / 2 ^ 56) (g % 2 ^ 56) = false) →
     (wider = 4 → x.gran.isSome = true → (∃ p ∈ (s.ctx (g / 2 ^ 56)).pools, p.base ≤ g % 2 ^ 56 ∧ g % 2 ^ 56 < p.base + p.len) →
       portUp s (portOf s (g / 2 ^ 56) (g % 2 ^ 56)) = true) →
     (x.gran.isSome = true → recallHeld s (otherSharer b (scopeOfRank wider) (g / 2 ^ 56) (g % 2 ^ 56) s) = false) →
     ∃ r v, exec (.frontierAdvance item wider) s = .next r ∧
       r.items[item]? = some { x with vis := x.vis ++ [(k, s.now)], written := v } ∧
       visStep r { x with vis := x.vis ++ [(k, s.now)], written := v } k = some s.now ∧
       (∀ j, j ≠ item → ∃ w, r.items[j]? = (s.items[j]?).map fun y => { y with written := w }) ∧
       (∀ key, newestByte r key = newestByte s key) ∧
       r = { s with items := r.items, lines := r.lines, cores := r.cores, now := s.now + 1 }) ∧
  (∀ s b k w g,
     newestBefore s g k w ≤ floorAt (acquireFrom b k w s) b g s.now ∧
     floorAt s b g s.now ≤ floorAt (acquireFrom b k w s) b g s.now ∧
     (∀ c, c ≠ b → floorAt (acquireFrom b k w s) c g s.now = floorAt s c g s.now) ∧
     acquireFrom b k w s = { s with floors := (acquireFrom b k w s).floors })

/-- ACP_TRANSFER_COMPLETE and TCOPY_COMPLETE into scratch: a copy whose reads have all returned writes its bytes,
leaves the list and lowers the counter of its tag; every other byte of scratch and all of global memory is as before. TCOPY_COMPLETE
to global memory, once no older entry of its wave holds it: the copy takes its box as scratch holds it, whole, when it begins; the
request of its next element inside the tensor leaves; once that has been served, and where nothing stops or holds it, the element is stored
from the box, each byte of it and no other, as a store of the issuing thread; after the last the copy leaves the list and lowers the
counter (of a context without codec regions, and of no POOL page, whose lines and units have their own conditions). -/
def Obligations.CopyLands : Prop :=
  (∀ b id c s, Canonical s → b < s.blocks.length → findCopy s b (id / 1024) (id % 1024) = some c →
    c.readyToLand = true → landHeld s b c = false → (∀ d ∈ (s.block b).landed, copyAfter (s.launchOf b) d c = false) →
    homeWave (s.launchOf b) c.tid < (s.block b).waves.length →
    (c.desc = [] → ∃ r, exec (.acpTransferComplete b id) s = .next r ∧ CopyLanded b c s r ∧
      findCopy r b (id / 1024) (id % 1024) = none) ∧
    (∀ d, tdescOf c.desc = some d → d.dir = 0 → ∃ r, exec (.tcopyComplete b id) s = .next r ∧ CopyLanded b c s r ∧
      findCopy r b (id / 1024) (id % 1024) = none)) ∧
  (∀ b id c d s, b < s.blocks.length → findCopy s b (id / 1024) (id % 1024) = some c → tdescOf c.desc = some d → d.dir ≠ 0 →
    c.cancelled = false → c.dead = false → (s.ctx (ctxOf s b)).halted = false → (c.box = none → landHeld s b c = false) →
    homeWave (s.launchOf b) c.tid < (s.block b).waves.length →
    let ctx := ctxOf s b
    let core := (s.block b).core
    let c' := withBox s b c
    let tags := fun (r : State) => ((r.block b).waves.getD (homeWave (s.launchOf b) c.tid) default).tags
    (∀ x, c.box = some x → c'.box = some x) ∧ (c.box = none → c'.box = some (memRead (s.block b).scratch c.dst c.n)) ∧
    (d.elements.length ≤ c.got.length → ∃ r, exec (.tcopyComplete b id) s = .next r ∧ findCopy r b (id / 1024) (id % 1024) = none ∧
      tags r = modAt (· - 1) c.tag (tags s) ∧ MemorySame s r ∧ (∀ k, k ≠ b → r.block k = s.block k) ∧
      r = { s with blocks := r.blocks, now := s.now + 1 }) ∧
    (∀ e va l, d.elements[c.got.length]? = some (e, va) → (s.ctx ctx).regions = [] → lostAt s ctx va = false →
      pageFault s ctx va .w = none → walk s ctx va = .leaf l → l.coh ≠ .pool →
      let o := { scatterOp s b c' d e va with priv := l.coh = .priv }
      canStep s b c.tid o = true →
      (c.asked = false → ∃ r, exec (.tcopyComplete b id) s = .next r ∧
        findCopy r b (id / 1024) (id % 1024) = some { c' with asked := true } ∧ MemorySame s r ∧ tags r = tags s ∧
        r = { s with blocks := r.blocks, ctls := r.ctls, walks := r.walks }) ∧
      (c.asked = true → askPendingAt s (256 + core) ctx va = false → poisonedVa s ctx va d.esize = false →
        o.addr % 16 + o.data.length ≤ 16 → ∃ r, exec (.tcopyComplete b id) s = .next r ∧ r.now = s.now + 1 ∧
        findCopy r b (id / 1024) (id % 1024) = some { c' with got := c.got ++ [(e, [])], asked := false } ∧ tags r = tags s ∧
        o.data = ((c'.box.getD []).drop (e * d.esize)).take d.esize ∧
        (∀ key, newestByte r key = if o.addr ≤ key ∧ key < o.addr + o.data.length then o.data.getD (key - o.addr) 0
          else newestByte s key) ∧
        (∃ x ∈ r.items, x.gran = some (o.addr / 16) ∧ x.thr = some (b, c.tid) ∧ x.op = c.id ∧ x.vis = [(.blk b, s.now)]) ∧
        (∀ k a, memGet (r.block k).scratch a = memGet (s.block k).scratch a) ∧ (∀ k, k ≠ b → r.block k = s.block k))))

/-! ### The path of an access -/

/-- LINE_FILL hits: an access whose line stands in the L1 of its core with the right it needs, no request of a lower
sub-core before it, is done, in the class of the line; nothing but the thread's queue, the ownership of a pool line and
what its device has changes. PAGE_WALK, of a walk that runs and whose reads of the tables have been served: it is gone, and its
walker takes the oldest that waits; one that finds no translation charges its first access with 0x0E, one that consumes an
uncorrectable error with 0x1A (log 25: the others merged end without a fault); one that finds a leaf puts the translation into the
TLB of every controller of its walker (all of them: log 108), and its accesses go to their controllers, but those whose address no
decoder covers, which leave. PAGE_MIGRATION, on a die in no
emergency: an unleased, unpinned page of TIER 00 outside the salvage areas takes the new frame, which no context maps, and with it
every mapping of the old frame; their leaves are rewritten with nothing but the frame changed, and no TLB keeps their translation. CONTROLLER_SERVE serves the
request that comes next by class, deadline and arrival, and no other; the entry it came from goes on. BUDGET_WINDOW
begins a window with nothing used. -/
def Obligations.AccessPath : Prop :=
  (∀ b t op o l s, b < s.blocks.length → t < (s.block b).threads.length → findOp s b t op = some o → o.scratch = false →
     o.isAccess = true → lostAt s (ctxOf s b) o.va = false → o.fill = .idle → l1Before s b o = false →
     (∀ evict, hasLine s (.l1 (s.block b).core) (ctxOf s b) o.va = some l → rightsOk o l.rd l.w = true →
       ∃ r, exec (.lineFill b t op evict) s = .next r ∧ MemorySame s r ∧
         findOp r b t op = some { o with fill := .done, priv := l.coh = .priv } ∧
         (∀ u, u ≠ t → r.thread b u = s.thread b u) ∧ (∀ c, c ≠ b → r.block c = s.block c) ∧
         r = { s with blocks := r.blocks, lines := r.lines, items := r.items })) ∧
  (∀ die group ctx va w s,
     s.walks.find? (fun x => x.key = (die, group, ctx, va / 2 ^ 16)) = some w → w.runs = true → walkRead s w.key = true →
     let s1 := { s with walks := s.walks.erase w }
     (walkBad s ctx va = true → exec (.pageWalk die group ctx va) s =
       .next (startWalk (die, group) (endOps (memoryError (ctlSource (6 * die))) w.ops s1))) ∧
     (walkBad s ctx va = false →
      (walk s ctx va = .absent → exec (.pageWalk die group ctx va) s =
        .next (startWalk (die, group) (endOps (fun b t o => chargeOp (ctlSource (6 * die)) 0x0E b t o id) w.ops s1))) ∧
      (∀ l, walk s ctx va = .leaf l → ∃ r, exec (.pageWalk die group ctx va) s = .next r ∧
        r.walks.length = s.walks.length - 1 ∧ MemorySame s r ∧
        (∀ i, i < s.ctls.length → walkerOf i = (die, group) →
          ∃ c, (r.ctl i).tlb = (addTlb ctx va l c).tlb ∧ c.tlb = (s.ctl i).tlb) ∧
        (∀ i, walkerOf i ≠ (die, group) → (r.ctl i).tlb = (s.ctl i).tlb) ∧
        (∀ e ∈ w.ops, ∀ o, findOp s e.1 e.2.1 e.2.2 = some o →
          (leafCovers s l o.va = true → (∀ x ∈ w.ops, ∀ p, findOp s x.1 x.2.1 x.2.2 = some p → leafCovers s l p.va = true) →
            findOp r e.1 e.2.1 e.2.2 = some { o with fill := .queued }) ∧
          (leafCovers s l o.va = false → findOp r e.1 e.2.1 e.2.2 = none))) ∧
      (∀ pa, walk s ctx va = .reserved pa → exec (.pageWalk die group ctx va) s = .fault (.reservedTarget pa)))) ∧
  (∀ (group : Nat × Nat) s w, s.walks.find? (fun x => x.die = group.1 && x.group = group.2 && !x.runs) = some w →
     (walksOf s group).length < 64 → ∃ x ∈ (startWalk group s).walks, x = { w with runs := true }) ∧
  (∀ die ctx va frame l s, Canonical s → walk s ctx (va / 2 ^ 16 * 2 ^ 16) = .leaf l → l.level = 5 → l.pin = false →
     bitsOf l.frame 55 48 % 4 = die → bitsOf l.frame 55 48 < 8 → bitsOf frame 55 48 % 4 = die → bitsOf frame 55 48 < 8 →
     bitsOf frame 55 48 ≠ bitsOf l.frame 55 48 → frame % 2 ^ 16 = 0 → anyTier s ctx (va / 2 ^ 16 * 2 ^ 16) = true →
     frameBad s frame (2 ^ 16) = false → targetOk frame = true →
     frameMapped s frame (2 ^ 16) = false → (s.die die).emergency = false →
     let e0 := (ctx, va / 2 ^ 16 * 2 ^ 16, l)
     let all := e0 :: sharers (allLeaves s) e0
     (∀ e ∈ all, e.2.2.level = 5 ∧ e.2.2.pin = false ∧ leased s e.1 e.2.1 (2 ^ 16) = false ∧ salvagePage s e.1 e.2.1 = false) →
     ∃ r, exec (.pageMigration die ctx va frame) s = .next r ∧
       (∀ e ∈ all, memRead r.pmem e.2.2.at_ 8 = leBytes 8 (BitVec.ofNat 64 (pteOf { e.2.2 with frame := frame })).toNat) ∧
       (∀ a, (∀ e ∈ all, ¬(e.2.2.at_ ≤ a ∧ a < e.2.2.at_ + 8)) → memGet r.pmem a = memGet s.pmem a) ∧
       (∀ c ∈ r.ctls, ∀ x ∈ c.tlb, ∀ e ∈ all, x.1 = e.1 → ¬(x.2.1 < e.2.1 + 2 ^ 16 ∧ e.2.1 < x.2.1 + pageSize x.2.2)) ∧
       r = { s with pmem := r.pmem, ctls := r.ctls, walks := r.walks }) ∧
  (∀ ctl r b t op o s, ctl < s.ctls.length → nextRequest s ctl = some r → r.thr = some (b, t, op) →
    findOp s b t op = some o → s.plat.poison = [] → b < s.blocks.length → t < (s.block b).threads.length →
    ∃ q, exec (.controllerServe ctl .ok) s = .next q ∧ MemorySame s q ∧
      (∀ p, r.page = some p → ctl < 24 → ctl / 6 < s.dies.length → ∃ n, (r.ctx, p, n + 1) ∈ (q.die (ctl / 6)).hot) ∧
      (q.ctl ctl).reqs = (s.ctl ctl).reqs.erase r ∧ (q.ctl ctl).used = (s.ctl ctl).used + 128 ∧
      (∀ c, c ≠ ctl → q.ctl c = s.ctl c) ∧ findOp q b t op = some { o with fill := .served }) ∧
  (∀ ctl s, ctl < s.ctls.length → ∃ q, exec (.budgetWindow ctl) s = .next q ∧ MemorySame s q ∧
    q.ctl ctl = { s.ctl ctl with used := 0, used0 := 0, used1 := 0 } ∧ (∀ c, c ≠ ctl → q.ctl c = s.ctl c) ∧
    q = { s with ctls := q.ctls })

/-! ### Placing, scheduling, retiring -/

/-- BLOCK_PLACEMENT: the blocks of the span stand on the cores they were given, placed, each with the threads,
registers and waves of a block at its start, whose accesses follow the step of the placement (the model's reading of the moment of
the block's first acquire, logs 58 and 22); no other block changes. PLACEMENT_RESERVATION offers a die to a block
that has waited, and BLOCK_RETIREMENT retires a block whose threads have exited and whose stores are done: the spawn
tree of its launch falls by one. -/
def Obligations.BlocksArePlacedAndRetire : Prop :=
  (∀ b places s,
     let bs := spanBlocks s b
     bs.length = places.length → bs.head? = some b → bs.all (awaits s) = true → s.plat.winter = .running →
     placesOk s (ctxOf s b) places = true → placesFit s bs places = true →
     reserved s b ((places.headD (0, 0)).1 / 40) = false → inTurn s b = true →
     ∃ r, exec (.blockPlacement b places) s = .next r ∧ r.now = s.now + 1 ∧
       (∀ e ∈ bs.zip places,
         let k := placeBlock (s.launchOf e.1) e.2.1 (e.2.2 % 4) (s.coreCycle e.2.1) (s.block e.1)
         r.block e.1 = { k with threads := k.threads.map fun th => { th with orderPt := s.now } }) ∧
       (∀ c, c ∉ bs → r.block c = s.block c) ∧ (∀ key, newestByte r key = newestByte s key)) ∧
  (∀ b s, b < s.blocks.length → longWait s b = true →
    ∃ r, exec (.placementReservation b) s = .next r ∧ MemorySame s r ∧
      r.block b = { s.block b with offered := offerFor s b } ∧ (∀ c, c ≠ b → r.block c = s.block c) ∧
      r = { s with blocks := r.blocks }) ∧
  (∀ b s, b < s.blocks.length → (s.block b).launch < s.launches.length → mayRetire s b = true →
    ∃ r, exec (.blockRetirement b) s = .next r ∧ MemorySame s r ∧
      r.block b = { s.block b with status := .retired } ∧ (∀ c, c ≠ b → r.block c = s.block c) ∧
      (r.launchOf b).tree = (s.launchOf b).tree - 1 ∧ (r.launchOf b).retired = (s.launchOf b).retired + 1 ∧
      r = { s with blocks := r.blocks, launches := r.launches })

/-- A block at its start (04 R94): every thread is ready at the entry with RM 1, FLAGS 0, no meeting address and false
predicates; v2 and v3 hold the argument pointer, v4 `TID`, v5 `BLOCK`, v6 `NTID`, every other register zero, all FULL and
untainted; the shadow lane starts as its primary, a helper lane reads zero in every register. Each wave has WTIM, WTLIM,
both leases and every copy-tag counter at 0, every rejoin slot free and an empty window; the convergence registers are
idle and the tokens at the engine. Scratch reads zero and every granule is FULL (08 R167). -/
def Obligations.PlacedBlockState : Prop :=
  ∀ (l : Launch) core f cycle (k : Block), 32 ≤ l.regs →
    let k' := placeBlock l core f cycle k
    k'.threads.length = k.ntid ∧
    (∀ t, t < k.ntid →
      let th := k'.threads.getD t default
      th.pc = k.entry ∧ th.mt = 0 ∧ th.rm = 1 ∧ th.flags = 0 ∧ th.st = .ready ∧ th.ops = [] ∧ th.prods = [] ∧
      (∀ n, n < l.regs → th.vals.get n = ⟨if n = 2 then k.arg.setWidth 32 else if n = 3 then (k.arg >>> 32).setWidth 32
        else if n = 4 then BitVec.ofNat 32 t else if n = 5 then BitVec.ofNat 32 k.index
        else if n = 6 then BitVec.ofNat 32 k.ntid else 0, .full, false⟩) ∧
      (∀ p, th.vals.pred p = decide (p = 0)) ∧ (th.shadow = if l.redundant then some th.vals else none)) ∧
    (∀ t n, k.ntid ≤ t → (k'.threads.getD t default).vals.get n = Reg.zero) ∧
    (∀ w ∈ k'.waves, w.wtim = 0 ∧ w.wtlim = 0 ∧ w.declared = 0 ∧ w.measured = 0 ∧ w.accBase = w.accLim ∧
      w.tags = List.replicate 8 0 ∧ w.tagsS = List.replicate 8 0 ∧ w.slots.length = 8 ∧ ∀ x ∈ w.slots, x.2 = 0) ∧
    k'.waves.length = l.wavesOf k.ntid ∧
    (∀ c ∈ k'.cvs, c.set = none ∧ c.sigs = []) ∧ k'.cvs.length = 16 ∧
    (∀ x ∈ k'.tiles, x.owner = none) ∧ k'.tiles.length = l.tiles ∧
    (∀ a, memGet k'.scratch a = 0) ∧ (∀ g, sget true g k'.fe = true)

/-- The events of a sub-core's scheduler: activation, swap, starvation admission, issue rotation, group limit and
lease halving change the active set, the wave and the group that issue, and the measured leases, and nothing else: every thread
is as before, and every home wave but for the leases. -/
def Obligations.SchedulerActs : Prop :=
  let only := fun (s r : State) => (∀ b, ∃ w, r.block b = { s.block b with pwaves := w }) ∧ ∀ c, ∃ u, r.core c = { s.core c with subs := u }
  (∀ core sub x s, activationOf s core sub = some x → x.1 < s.blocks.length → x.2 < (s.block x.1).pwaves.length →
    ∃ r, exec (.waveActivation core sub) s = .next r ∧ MemorySame s r ∧
      pwaveOf r x = { pwaveOf s x with active := true, actSeq := s.coreCycle core * 4 + sub, ll := 0 } ∧
      (∀ y, y ≠ x → pwaveOf r y = pwaveOf s y) ∧ only s r ∧ r = { s with blocks := r.blocks, cores := r.cores }) ∧
  (∀ core sub x y s, swapOf s core sub = some (x, y) → x ≠ y → x.1 < s.blocks.length → y.1 < s.blocks.length →
    x.2 < (s.block x.1).pwaves.length → y.2 < (s.block y.1).pwaves.length →
    ∃ r, exec (.waveSwap core sub) s = .next r ∧ MemorySame s r ∧
      pwaveOf r x = { pwaveOf s x with active := false, since := s.coreCycle core, ll := 0 } ∧
      pwaveOf r y = { pwaveOf s y with active := true, actSeq := s.coreCycle core * 4 + sub, ll := 0 } ∧
      (∀ z, z ≠ x → z ≠ y → pwaveOf r z = pwaveOf s z) ∧ only s r ∧ r = { s with blocks := r.blocks, cores := r.cores }) ∧
  (∀ core sub x s, starved s core sub = some x → x.1 < s.blocks.length → x.2 < (s.block x.1).pwaves.length →
    ∃ r, exec (.starvationAdmission core sub) s = .next r ∧ MemorySame s r ∧
      (pwaveOf r x).active = true ∧ (∀ y, y ≠ x → some y ≠ youngest s core sub → pwaveOf r y = pwaveOf s y) ∧ only s r ∧
      r = { s with blocks := r.blocks, cores := r.cores }) ∧
  (∀ core sub s, core < s.cores.length → sub < (s.core core).subs.length → rotationDue s core sub = true →
    ∃ r x, exec (.issueRotation core sub) s = .next r ∧ x ∈ readyActive s core sub ∧
      some x ≠ ((s.core core).subs.getD sub default).last ∧
      (r.core core).subs.getD sub default = { (s.core core).subs.getD sub default with last := some x, consec := 0 } ∧
      only s r ∧ (∀ c, c ≠ core → r.core c = s.core c) ∧ r = { s with cores := r.cores }) ∧
  (∀ core sub x s, groupLimitDue s core sub = some x → x.1 < s.blocks.length → x.2 < (s.block x.1).pwaves.length →
    ∃ r, exec (.groupIssueLimit core sub) s = .next r ∧ MemorySame s r ∧
      pwaveOf r x = { pwaveOf s x with cur := leastBy (groupStamp s x.1 x.2) (readyPcs s x.1 x.2), run := 0 } ∧
      (∀ y, y ≠ x → pwaveOf r y = pwaveOf s y) ∧ only s r ∧ r = { s with blocks := r.blocks }) ∧
  (∀ core s, halvingDue s core = true → core < s.cores.length →
    ∃ r, exec (.leaseHalving core) s = .next r ∧ MemorySame s r ∧
      (∀ b, b ∈ placedOn s core → ∀ w, w < (s.block b).waves.length →
        (r.block b).waves.getD w default =
          { (s.block b).waves.getD w default with
            measured := ((s.block b).waves.getD w default).measured / 2
            leaseS := max ((s.block b).waves.getD w default).declared (((s.block b).waves.getD w default).measured / 2) }) ∧
      (∀ b, ∃ w, r.block b = { s.block b with waves := w }) ∧ (∀ b, b ∉ placedOn s core → r.block b = s.block b) ∧
      r.core core = { s.core core with halved := s.coreCycle core } ∧ (∀ c, c ≠ core → r.core c = s.core c) ∧
      r = { s with blocks := r.blocks, cores := r.cores })

/-- MMA_CAPTURE and MMA_COMPLETION: the capture takes the rows of the signers and the bytes of B as they stand, and the end
of its cycle frees the A registers; the completion, in a later cycle, writes the tile, merges the flags of the instance into each signer and takes the
instance out of the queue. The matrix sum: each element of a signed row is C plus the products of the row of A and the column of B,
formed exactly and rounded once, C absent under ZC; a row without a signer keeps C, or is zero under ZC; the flags are those of all
elements. A DS8 element is two exact terms. -/
def Obligations.InstancesRun : Prop :=
  (∀ core i s, core < s.cores.length → capturable s core = some i →
    let b := i.block
    let g := i.sigs.headD default
    ∃ r, exec (.mmaCapture core) s = .next r ∧ r.now = s.now + 1 ∧
      { i with cap := some (i.sigs.map (fun x => (x.rank, rowOf s b (cvOf s b i.cv) x)),
          memRead (s.block b).scratch g.vb (bBytes g.bt)), capAt := s.coreCycle core } ∈ (r.core core).mq ∧
      (∀ key, newestByte r key = newestByte s key) ∧
      (∀ c a, memGet (r.block c).scratch a = memGet (s.block c).scratch a) ∧
      (∀ x ∈ i.sigs, ∀ a ∈ ((settleCaptures core r).thread b x.tid).aBusy, a.inst ≠ instKey i.cv i.id) ∧ (∀ c, c ≠ b → r.block c = s.block c)) ∧
  (∀ core i rest s, core < s.cores.length → (s.core core).mq = i :: rest → i.cap.isSome = true → i.capAt < s.coreCycle core →
    (s.ctx (ctxOf s i.block)).halted = false → i.block < s.blocks.length → i.tile < (s.block i.block).tiles.length →
    (∀ x ∈ i.sigs, x.tid < (s.block i.block).threads.length) →
    let res := runInst i (tileOf s i.block i.tile).cells
    ∃ r, exec (.mmaCompletion core) s = .next r ∧ MemorySame s r ∧ (r.core core).mq = rest ∧
      (tileOf r i.block i.tile).cells = res.1 ∧ (∀ x, x ≠ i.tile → tileOf r i.block x = tileOf s i.block x) ∧
      (∀ x ∈ i.sigs, (r.thread i.block x.tid).flags = (s.thread i.block x.tid).flags ||| BitVec.ofNat 5 res.2 ∧
        (i.cv, i.id) ∉ (r.thread i.block x.tid).signed ∧ (r.thread i.block x.tid).vals = (s.thread i.block x.tid).vals) ∧
      (∀ c, c ≠ i.block → r.block c = s.block c)) ∧
  (∀ (i : MInst) rows data cells, i.cap = some (rows, data) → (∀ e ∈ rows, e.2.length = 8) →
    let g := i.sigs.headD default
    let old := fun n => (sget (0 : Word) n cells).toNat
    let a := fun (m k : Nat) =>
      ((((rows.find? (·.1 = m)).map Prod.snd).getD []).getD (k / 2) (0 : Word)).toNat / 2 ^ (16 * (k % 2)) % 2 ^ 16
    let byte := fun j => (data.getD j 0).toNat
    let b := fun k j => if g.bt = 2 then byte (k * 128 + j) else byte (2 * (k * 128 + j)) + 256 * byte (2 * (k * 128 + j) + 1)
    let cell := fun n => mmaSum g.at_ g.bt.toNat g.rm.toNat g.ftzi g.ftzo (if g.zc then none else some (old n))
      ((List.range 16).map (a (n / 128))) ((List.range 16).map fun k => b k (n % 128))
    (∀ n, n < 8192 → (∃ e ∈ rows, e.1 = n / 128) → n / 128 < i.count → sget 0 n (runInst i cells).1 = BitVec.ofNat 32 (cell n).1) ∧
    (∀ n, n < 8192 → i.count ≤ n / 128 → sget 0 n (runInst i cells).1 = BitVec.ofNat 32 (if g.zc then 0 else old n)) ∧
    ((∀ m, m < i.count → ∃ e ∈ rows, e.1 = m) → ∀ j, (runInst i cells).2.testBit j = true ↔
      ∃ n, n < 8192 ∧ n / 128 < i.count ∧ (cell n).2.testBit j = true)) ∧
  (∀ at_ bt rm zi zo (c : Option Nat) row col, 1 ≤ rm → rm ≤ 5 →
    let fa := if at_ then f16 else bf16
    SumRounds f32 rm zo ((row.zip col).flatMap fun p => mmaTerms bt zi (prepare fa zi false false p.1) p.2)
      (c.toList.map fun x => prepare f32 zi false false x) (mmaSum at_ bt rm zi zo c row col)) ∧
  (∀ bt zi a w,
    (bt ≠ 2 → mmaTerms bt zi a w = [(a, prepare (if bt = 1 then f16 else bf16) zi false false w)]) ∧
    (bt = 2 → ∃ x y, mmaTerms bt zi a w = [(a, x), (a, y)] ∧ x.isFin = true ∧ y.isFin = true ∧
      x.rat = (if w.testBit 7 then -1 else 1) * (2 : Rat) ^ (-((w / 16 % 8 : Nat) : Int)) ∧
      y.rat = if w % 8 = 7 then 0 else (if w.testBit 3 then -1 else 1) * (2 : Rat) ^ (-((w % 8 : Nat) : Int))))

/-! ### The Fitas machine -/

/-- Every Fitas instruction completes: the current run takes the instruction's effect, and nothing else of the machine
changes. STEP_BOUND_EXCEEDED ends a run whose next instruction would pass its bound, without executing it. -/
def Obligations.FitasCompletes : Prop :=
  (∀ i p s, xOpOf i = some p → ∃ t, exec i s = .next t ∧
    t.runs = modAt (xApply p.1 p.2) s.cur.run s.runs ∧ t = { s with runs := t.runs }) ∧
  (∀ n r s, s.runs[n]? = some r → r.fin = none → (xNext r).fin = some .over →
    ∃ t, exec (.stepBoundExceeded n) s = .next t ∧ t.runs[n]? = some { r with fin := some .over } ∧
      (∀ m, m ≠ n → t.runs[m]? = s.runs[m]?) ∧ t = { s with runs := t.runs })

/-- What the Fitas instructions do, in a run that has not ended and whose bound holds one more step: moves, arithmetic and
loads write KA, a store and the streams move what they name within their bounds, `X.COPY` repeats bytes, and a branch
moves the pc by its offset from the next instruction. A run that would go on outside its program, by the last instruction or by
a branch, is malformed; so is one whose index, bit count, selector or copy distance is out of range. A run that reads or
writes past a stream ends so. A cost beyond the bound ends the run before the instruction. -/
def Obligations.FitasValues : Prop :=
  (∀ i p (r : XRun), xOpOf i = some p → r.fin = none → r.bound < r.count + p.1 r → xStep i r = { r with fin := some .over }) ∧
  ∀ (r : XRun) (f : XFields), r.fin = none → r.count < r.bound →
    let stop := fun (e : XEnd) => { r with count := r.count + 1, fin := some e }
    let go := fun (x : XRun) => if r.pc + 1 < r.insns.length then { x with count := r.count + 1, pc := r.pc + 1 }
      else { x with count := r.count + 1, fin := some .malformed }
    let jump := fun (o : BitVec 16) => { r with count := r.count + 1, pc := ((r.pc : Int) + 1 + o.toInt).toNat }
    let inside := fun (o : BitVec 16) => 0 ≤ (r.pc : Int) + 1 + o.toInt ∧ (r.pc : Int) + 1 + o.toInt < r.insns.length
    let s := r.opnd f
    (∀ a (k : BitVec 16), xStep (.xMovi a k) r = go (r.setReg a (k.signExtend 32)) ∧
      xStep (.xMovh a k) r = go (r.setReg a (k ++ (r.reg a).setWidth 16))) ∧
    xStep (.xAdd f) r = go (r.setReg f.ka (r.reg f.kb + s)) ∧
    xStep (.xSub f) r = go (r.setReg f.ka (r.reg f.kb - s)) ∧
    xStep (.xAnd f) r = go (r.setReg f.ka (r.reg f.kb &&& s)) ∧
    xStep (.xOr f) r = go (r.setReg f.ka (r.reg f.kb ||| s)) ∧
    xStep (.xXor f) r = go (r.setReg f.ka (r.reg f.kb ^^^ s)) ∧
    xStep (.xShl f) r = go (r.setReg f.ka (r.reg f.kb <<< (s.toNat % 32))) ∧
    xStep (.xShr f) r = go (r.setReg f.ka (r.reg f.kb >>> (s.toNat % 32))) ∧
    xStep (.xSar f) r = go (r.setReg f.ka ((r.reg f.kb).sshiftRight (s.toNat % 32))) ∧
    (xIndex f r < 64 → xStep (.xLdw f) r = go (r.setReg f.ka (r.work.getD (xIndex f r) 0)) ∧
      xStep (.xStw f) r = go { r with work := modAt (fun _ => r.reg f.ka) (xIndex f r) r.work }) ∧
    (64 ≤ xIndex f r → xStep (.xLdw f) r = stop .malformed ∧ xStep (.xStw f) r = stop .malformed) ∧
    (8 ≤ xIndex f r → xStep (.xLdp f) r = stop .malformed) ∧
    (r.table.length ≤ xIndex f r → xStep (.xLdt f) r = stop .malformed) ∧
    (32 < s.toNat → xStep (.xGetb f) r = stop .malformed ∧ xStep (.xPutb f) r = stop .malformed) ∧
    (xIndex f r < 8 → xStep (.xLdp f) r = go (r.setReg f.ka (r.params.getD (xIndex f r) 0))) ∧
    (xIndex f r < r.table.length → xStep (.xLdt f) r = go (r.setReg f.ka (r.table.getD (xIndex f r) 0))) ∧
    (s.toNat ≤ 32 → r.inCur + s.toNat ≤ 8 * r.inp.length →
      xStep (.xGetb f) r = go { r.setReg f.ka (BitVec.ofNat 32 (bitsAt r.inp r.inCur s.toNat)) with inCur := r.inCur + s.toNat }) ∧
    (s.toNat ≤ 32 → 8 * r.inp.length < r.inCur + s.toNat → xStep (.xGetb f) r = stop .pastInput) ∧
    (s.toNat ≤ 32 → 8 * r.out.length < r.outCur + s.toNat → xStep (.xPutb f) r = stop .pastOutput) ∧
    (s.toNat ≤ 32 → r.outCur + s.toNat ≤ 8 * r.out.length →
      ∃ out, xStep (.xPutb f) r = go { r with out := out, outCur := r.outCur + s.toNat } ∧
        ∀ c, streamBit out c = if r.outCur ≤ c ∧ c < r.outCur + s.toNat then (r.reg f.ka).getLsbD (c - r.outCur)
          else streamBit r.out c) ∧
    (let dist := (r.reg f.ka).toNat
     let c := r.outCur / 8
     let n := r.count + (1 + (s.toNat + 15) / 16)
     let good := r.outCur % 8 = 0 ∧ 0 < dist ∧ dist ≤ c
     n ≤ r.bound →
      (¬good → xStep (.xCopy f) r = { r with count := n, fin := some .malformed }) ∧
      (good → 0 < s.toNat → r.out.length < c + s.toNat → xStep (.xCopy f) r = { r with count := n, fin := some .pastOutput }) ∧
      (good → s.toNat = 0 ∨ c + s.toNat ≤ r.out.length →
        ∃ out, xStep (.xCopy f) r = { go { r with out := out, outCur := r.outCur + 8 * s.toNat } with count := n } ∧
          ∀ j, out.getD j 0 = if c ≤ j ∧ j < c + s.toNat then out.getD (j - dist) 0 else r.out.getD j 0)) ∧
    (s.toNat < 6 → xStep (.xInfo f) r = go (r.setReg f.ka (BitVec.ofNat 32
      ([r.inp.length, r.out.length, r.pbs, r.sbs, r.blk, r.encode.toNat].getD s.toNat 0)))) ∧
    (6 ≤ s.toNat → xStep (.xInfo f) r = stop .malformed) ∧
    (∀ a b o, (r.reg a ≠ r.reg b → xStep (.xBeq a b o) r = go r) ∧ (r.reg a = r.reg b → xStep (.xBne a b o) r = go r) ∧
      (¬(r.reg a).toInt < (r.reg b).toInt → xStep (.xBlt a b o) r = go r)) ∧
    (∀ a b o, inside o → (r.reg a = r.reg b → xStep (.xBeq a b o) r = jump o) ∧
      (r.reg a ≠ r.reg b → xStep (.xBne a b o) r = jump o) ∧
      ((r.reg a).toInt < (r.reg b).toInt → xStep (.xBlt a b o) r = jump o) ∧ xStep (.xJ o) r = jump o) ∧
    (∀ a b o, ¬inside o → (r.reg a = r.reg b → xStep (.xBeq a b o) r = stop .malformed) ∧
      (r.reg a ≠ r.reg b → xStep (.xBne a b o) r = stop .malformed) ∧
      ((r.reg a).toInt < (r.reg b).toInt → xStep (.xBlt a b o) r = stop .malformed) ∧ xStep (.xJ o) r = stop .malformed) ∧
    xStep .xEnd r = { r with count := r.count + 1, fin := some .ended } ∧
    xStep .xFail r = { r with count := r.count + 1, fin := some .malformed }

/-- `X.ZZE` and `X.ZZD` (20 R381): what they write, in one step; the words that decode to them, OP 0x0C and 0x19 with KA
and KB and zeros in KC, I and IMM16; and that they are inverses for every value. -/
def Obligations.ZigZag : Prop :=
  (∀ (r : XRun) a b, r.fin = none → r.count < r.bound →
    let go := fun (x : XRun) => if r.pc + 1 < r.insns.length then { x with count := r.count + 1, pc := r.pc + 1 }
      else { x with count := r.count + 1, fin := some .malformed }
    xStep (.xZze a b) r = go (r.setReg a ((r.reg b <<< 1) ^^^ (r.reg b).sshiftRight 31)) ∧
    xStep (.xZzd a b) r = go (r.setReg a ((r.reg b >>> 1) ^^^ (0 - (r.reg b &&& 1))))) ∧
  (∀ (w : Word) (a b : BitVec 3), (decodeX w = some (.xZze a b) ↔ w = 0x0C#6 ++ a ++ b ++ 0#20) ∧
    (decodeX w = some (.xZzd a b) ↔ w = 0x19#6 ++ a ++ b ++ 0#20)) ∧
  ∀ x, unzigzag (zigzag x) = x ∧ zigzag (unzigzag x) = x

/-! ### Queues, launches, copies -/

/-- TAIL_DOORBELL, where what it posts has room and its reads wait for nothing: a tail in range makes the queue resident, for which
the filter posts to the FE if it is not, and fetches the packets it covers, in order; one out of range puts the queue into ERROR; one
whose packets lie in poisoned memory raises 0x1A against the context. Without room in the mailbox it waits. QUEUE_CREATE adds a queue, empty and ACTIVE, or STOPPED where its context is halted;
QUEUE_RESUME takes a queue out of ERROR. -/
def Obligations.QueuesFetch : Prop :=
  (∀ q (tail : BitVec 64) x s, s.queues[q]? = some x →
     let cs := (List.range (tail.toNat - x.tail)).map (x.tail + ·)
     let good := x.tail ≤ tail.toNat ∧ x.head ≤ tail.toNat ∧ tail.toNat ≤ x.head + x.spec.size
     let room := mailRoom s .fe feSource 2 = true
     (good → x.resident = true ∨ room → ringHeld s x cs = false → ringBad s x cs = none →
       ∃ r, exec (.tailDoorbell q tail) s = .next r ∧
         (r.queue q).tail = tail.toNat ∧ (r.queue q).resident = true ∧ (r.queue q).head = x.head ∧ (r.queue q).pkts.length = x.pkts.length + (tail.toNat - x.tail) ∧
         (r.queue q).pkts.take x.pkts.length = x.pkts ∧
         (∀ i, i < tail.toNat - x.tail → ∃ p, (r.queue q).pkts[x.pkts.length + i]? = some p ∧ p.n = x.tail + i ∧ p.st = .fetched) ∧
         (x.spec.hostRing = true ∨ (s.ctx x.spec.ctx).regions = [] → (r.queue q).state = x.state ∧
           (x.resident = true → r.plat = s.plat ∧ r.seqs = s.seqs) ∧
           (∀ i, i < tail.toNat - x.tail → ∃ p, (r.queue q).pkts[x.pkts.length + i]? = some p ∧ p.raw = readPacket s x (x.tail + i)) ∧
           r = { s with queues := r.queues, plat := r.plat, seqs := r.seqs, ctls := r.ctls, walks := r.walks, now := s.now + 1 })) ∧
     (good → x.resident = true ∨ room → ringHeld s x cs = false → ∀ a, ringBad s x cs = some a →
       exec (.tailDoorbell q tail) s = .next (raiseContext (ctlSource (ctlFor s x.spec.ctx a)) 0x1A x.spec.ctx a id s)) ∧
     (¬good → room → queueHeld s x = false → ∃ r, exec (.tailDoorbell q tail) s = .next r ∧ (r.queue q).state = .error) ∧
     (¬room → x.resident = false ∨ ¬good → exec (.tailDoorbell q tail) s = .next s)) ∧
  (∀ spec s, queueSpecOk s spec = true → ∃ r, exec (.queueCreate spec) s = .next r ∧
    r.queues = s.queues ++ [r.queue s.queues.length] ∧ (r.queue s.queues.length).spec = spec ∧
    (r.queue s.queues.length).head = 0 ∧ (r.queue s.queues.length).tail = 0 ∧ (r.queue s.queues.length).tokens = 0 ∧
    (r.queue s.queues.length).state = (if (s.ctx spec.ctx).halted then .stopped else .active) ∧
    r = { s with queues := r.queues }) ∧
  (∀ q x s, s.queues[q]? = some x → x.state = .error → ∃ r, exec (.queueResume q) s = .next r ∧
    r.queue q = { x with state := if (s.ctx x.spec.ctx).halted then .stopped else .active } ∧
    (∀ p, p ≠ q → r.queue p = s.queue p) ∧ r = { s with queues := r.queues })

/-- LAUNCH: a packet that passes its checks becomes pending; LAUNCH_DISPATCH of a pending one whose set is resident, in its
tiers, and needs no change of class, whose record waits for nothing, starts it, with one seed block of the threads, entry and argument its packet names. -/
def Obligations.LaunchesStart : Prop :=
  (∀ q p s, nextOf s q 1 = some p → checkPacket p.raw = none → (s.queue q).pkts[p.n]? = some p → q < s.queues.length →
    ∃ r, exec (.launch q) s = .next r ∧ (r.queue q).pkts[p.n]? = some { p with st := .pending } ∧
      (∀ m, m ≠ p.n → (r.queue q).pkts[m]? = (s.queue q).pkts[m]?) ∧ r = { s with queues := r.queues }) ∧
  (∀ q n plan p rs s, (s.queue q).pkts[n]? = some p → p.n = n → p.st = .pending → mayStart (s.queue q) n = true →
    s.plat.winter = .running → (s.ctx (s.queue q).spec.ctx).killed = false → (s.ctx (s.queue q).spec.ctx).halted = false →
    recordHeld s q (s.queue q).spec.ctx (pf p.raw 0x38 8) = false →
    Machine.setOf (s.ctx (s.queue q).spec.ctx) (pf p.raw 0x30 2) = some rs → leaseOk rs (pf p.raw 0x38 8) 32 .w = true →
    plan.resident = true →
    (let m := mmWrite false plan.ptes s
     ∀ r ∈ rs, holdsLost m (s.queue q).spec.ctx r.base r.len = false ∧ mapped m (s.queue q).spec.ctx r = true ∧
       tierOk m (s.queue q).spec.ctx r = true ∧ needsClass m (s.queue q).spec.ctx r = false) →
    ∃ r, exec (.launchDispatch q n plan) s = .next r ∧ r.launches.length = s.launches.length + 1 ∧
      r.blocks.length = s.blocks.length + 1 ∧
      (r.launch s.launches.length).ctx = (s.queue q).spec.ctx ∧ (r.launch s.launches.length).ranges = rs ∧
      (r.launch s.launches.length).tree = 1 ∧ (r.launch s.launches.length).stage = .running ∧
      (r.block s.blocks.length).launch = s.launches.length ∧ (r.block s.blocks.length).index = 0 ∧
      (r.block s.blocks.length).ntid = pf p.raw 2 2 ∧ (r.block s.blocks.length).status = .unplaced ∧
      (r.block s.blocks.length).entry = BitVec.ofNat 64 (pf p.raw 0x10 8) ∧
      (r.block s.blocks.length).arg = BitVec.ofNat 64 (pf p.raw 0x18 8))

/-- A packet that fails its checks is rejected, once its message to the FE has room: its queue enters ERROR, and it counts as consumed and completed. COPY,
SIGNAL, TOKCLR and MAP start in their turn, where their accesses and messages wait for nothing: a COPY adds its transfer, the others are completed at once: a SIGNAL to a
writable address, whose 8 bytes become its value, a TOKCLR that takes its tokens away, a MAP whose ranges keep the rules and
whose new pool regions have their salvage area: the set holds its ranges. -/
def Obligations.PacketsRun : Prop :=
  (∀ q p reason s i, (i = .launch q ∧ nextOf s q 1 = some p ∨
       (∃ plan, i = .copy q plan ∧ nextOf s q 2 = some p) ∨ (∃ plan, i = .signal q plan ∧ nextOf s q 3 = some p) ∨
       (i = .tokclr q ∧ nextOf s q 4 = some p) ∨ (∃ sv ptes, i = .map q sv ptes ∧ nextOf s q 6 = some p)) →
     q < s.queues.length → (s.queue q).pkts[p.n]? = some p → checkPacket p.raw = some reason → mailRoom s .fe feSource 1 = true →
     ∃ r, exec i s = .next r ∧ (r.queue q).state = .error ∧
       ∃ p', (r.queue q).pkts[p.n]? = some p' ∧ p'.st = .rejected ∧ p'.used = true) ∧
  (∀ q plan p s, nextOf s q 2 = some p → checkPacket p.raw = none → mayStart (s.queue q) p.n = true →
    s.plat.winter = .running → recordHeld s q (s.queue q).spec.ctx (pf p.raw 0x38 8) = false → ∃ r, exec (.copy q plan) s = .next r ∧ r.xfers.length = s.xfers.length + 1 ∧
      (r.xfers.getD s.xfers.length default).src = pf p.raw 0x10 8 ∧ (r.xfers.getD s.xfers.length default).dst = pf p.raw 0x18 8 ∧
      (r.xfers.getD s.xfers.length default).len = pf p.raw 8 8) ∧
  (∀ q plan p s, nextOf s q 3 = some p → checkPacket p.raw = none → mayStart (s.queue q) p.n = true →
    s.plat.winter = .running → q < s.queues.length → (s.queue q).pkts[p.n]? = some p → plan.resident = true →
    let ctx := (s.queue q).spec.ctx
    let a := pf p.raw 8 8
    mappedWith (mmWrite false plan.ptes s) ctx a 8 .w = true → deviceHeld s ctx a 8 = false →
    ∃ r, exec (.signal q plan) s = .next r ∧ (∃ p', (r.queue q).pkts[p.n]? = some p' ∧ p'.st = .completed) ∧
      (deviceBad (mmWrite false plan.ptes s) ctx a 8 = none → (s.ctx ctx).regions = [] → (s.queue q).spec.hostHead = true →
        p.raw.length = 64 →
        ∀ key, newestByte r key = if ctx * 2 ^ 56 + a ≤ key ∧ key < ctx * 2 ^ 56 + a + 8
          then p.raw.getD (0x10 + (key - (ctx * 2 ^ 56 + a))) 0 else newestByte s key) ∧
      ((pf p.raw 2 1).testBit 0 = true → Reply.irq (s.queue q).spec.fn (pf p.raw 4 2) ∈ r.plat.out)) ∧
  (∀ q p s, nextOf s q 4 = some p → checkPacket p.raw = none → mayStart (s.queue q) p.n = true →
    s.plat.winter = .running → q < s.queues.length → (s.queue q).pkts[p.n]? = some p →
    ∃ r, exec (.tokclr q) s = .next r ∧ (∃ p', (r.queue q).pkts[p.n]? = some p' ∧ p'.st = .completed) ∧
      (r.queue q).tokens = (s.queue q).tokens &&& ~~~BitVec.ofNat 64 (pf p.raw 8 8)) ∧
  (∀ q salvage ptes p rs s, nextOf s q 6 = some p → checkPacket p.raw = none → mayStart (s.queue q) p.n = true →
    s.plat.winter = .running → q < s.queues.length → (s.queue q).pkts[p.n]? = some p →
    let ctx := (s.queue q).spec.ctx
    let at_ := pf p.raw 8 8
    let len := 16 * pf p.raw 4 1
    let s1 := deviceTouch ctx at_ len s
    let m := mmWrite true ptes s1
    let raw := sysRead s1 ctx at_ len
    deviceHeld s ctx at_ len = false → deviceBad s ctx at_ len = none → mailRoom s .cv feSource 1 = true →
    mailRoom s .mm feSource 1 = true → mailRoom s .fe feSource 1 = true → rangesOf ((List.range (pf p.raw 4 1)).map fun i => (raw.drop (16 * i)).take 16) = .ok rs → apart rs = true →
    (s.ctx ctx).sets.length < 256 → mapBreaks m ctx rs = false → (∀ r ∈ rs, areaOk m ctx salvage r = true) →
    (s.ctx? ctx).isSome = true →
    ∃ r, exec (.map q salvage ptes) s = .next r ∧ (∃ p', (r.queue q).pkts[p.n]? = some p' ∧ p'.st = .completed) ∧
      Machine.setOf (r.ctx ctx) (pf p.raw 2 2) = some rs ∧
      (∀ n, n ≠ pf p.raw 2 2 → Machine.setOf (r.ctx ctx) n = Machine.setOf (s.ctx ctx) n) ∧
      (r.ctx ctx).maps = rs ++ (s.ctx ctx).maps)

/-- COPY_CHUNK: where nothing stops it or holds it and no codec region is near, a chunk of a COPY that runs first asks for its reads; once
they have been served, a chunk that is not the last copies its bytes, also of a COPY that has stopped since, as the system sees the
source, to the destination; every other byte is as before. -/
def Obligations.ChunksCopy : Prop :=
  ∀ c x s, s.xfers[c]? = some x → x.done = false → x.killed = false → s.plat.winter = .running → x.next < x.len → (s.ctx x.ctx).regions = [] →
    let d := x.dst + x.next
    let a := x.src + x.next
    let n := min (x.len - x.next) (4096 - d % 4096)
    copyBlocked s x.ctx a n = none → copyBlocked s x.ctx d n = none →
    copyWaits s x.cls x.ctx a n = false → copyWaits s x.cls x.ctx d n = false →
    (x.asked = false → copyRuns s x = true → ∃ r, exec (.copyChunk c) s = .next r ∧ MemorySame s r ∧ r.xfers[c]? = some { x with asked := true } ∧
      r = { s with xfers := r.xfers, ctls := r.ctls, walks := r.walks }) ∧
    (x.asked = true → askPending s (copyWho c) = false → x.next + n < x.len →
     ∃ r, exec (.copyChunk c) s = .next r ∧ r.now = s.now + 1 ∧
      r.xfers[c]? = some { x with next := x.next + n, asked := false } ∧
      (∀ i, i < n → newestByte r (x.ctx * 2 ^ 56 + d + i) = sysByte s (x.ctx * 2 ^ 56 + a + i)) ∧
      (∀ key, ¬(x.ctx * 2 ^ 56 + d ≤ key ∧ key < x.ctx * 2 ^ 56 + d + n) → newestByte r key = newestByte s key) ∧
      r = { s with xfers := r.xfers, items := r.items, ctls := r.ctls, walks := r.walks, lines := r.lines, cores := r.cores, now := s.now + 1 })

/-- LAUNCH_COMPLETION: a launch with no block left, whose context is not halted before or after its stores are widened
and which waits for no pool line, no encode that an emergency stops and no fill of its record, is done, and every gate of it is open; its completion has the step after the one that
widened its stores. Its tokens are set, and its completion record holds STATUS, the first cause, the tag, the count of the
blocks retired, the FE as its source and the FE's next number. -/
def Obligations.LaunchesComplete : Prop :=
  ∀ l x s, s.launches[l]? = some x → x.stage ≠ .done → x.tree = 0 → (s.ctx x.ctx).halted = false →
    recordHeld s x.q x.ctx x.record = false → (x.stage = .running → widenStops s l = false) →
    let s1 := if x.stage = .running then widenLaunch l s else pushPool x.ctx (wroteIn s fun b => (s.block b).launch = l) s
    (s1.ctx x.ctx).halted = false → poolWaits s1 l = false → l < s1.launches.length →
    ∃ r, exec (.launchCompletion l) s = .next r ∧ (r.launch l).stage = .done ∧ (r.launch l).gates = 0xFFFF#16 ∧
      (r.launch l).doneAt = some (s1.now + 1) ∧ (r.launch l).doneIn = s.cycle ∧
      (x.q < s.queues.length → (r.queue x.q).tokens = (s.queue x.q).tokens ||| x.setMask) ∧
      (deviceBad s x.ctx x.record 32 = none → (s.ctx x.ctx).regions = [] → (s.queue x.q).spec.hostHead = true →
        newestRead r x.ctx x.record 32 =
          leBytes 2 (if x.cause ≠ 0 then 1 else if x.killed then 2 else 0) ++ leBytes 1 x.cause ++ leBytes 1 0 ++
          leBytes 4 x.tag.toNat ++ leBytes 8 x.retired ++ leBytes 2 0x6400 ++ leBytes 6 0 ++
          leBytes 8 (seqNumber s ((sget 0 feSource s.seqs + 1) % 2 ^ 40)))

/-! ### Exceptions and recovery -/

/-- TAKING AN EXCEPTION. The source numbers a record of the cause; the hub's ring takes it and posts to the EH; every
partition that runs the context raises its halt line, unless it is up; its ACTIVE queues stop; and a launch that is not done
keeps the first cause it was charged with, of one cycle that of the lowest source. No register, no pc and no byte of memory
changes. The EH takes, of the records of the oldest cycle, the oldest of the lowest SOURCE, and copies its 64 bytes into the fault
log of its context. A fault of threads of a
block is taken so, with one record: its cause, the home lanes of the threads, the pc, the address, the core as its source,
the home wave of the first thread, the launch and the block; FLAGS bit 0 says whether every one of them has exited. -/
def Obligations.TakingAnException : Prop :=
  (∀ b cause (tids : List Nat) pc addr s,
    let k := s.block b
    let l := s.launchOf b
    (tids = [] → raiseCause b cause tids pc addr s = s) ∧
    (tids ≠ [] → ∃ rec_, raiseCause b cause tids pc addr s = takeFault rec_ s ∧ rec_.cause = cause ∧ rec_.pc = pc ∧
      rec_.addr = addr ∧ (∀ i, i < 32 → rec_.lanes.getLsbD i = decide (∃ t ∈ tids, homeLane l t = i)) ∧
      rec_.source = k.core / 40 * 256 + k.core % 40 ∧ rec_.core = k.core ∧ rec_.wave = homeWave l (tids.headD 0) ∧
      rec_.launch = k.launch ∧ rec_.block = k.index ∧ rec_.ctx = l.ctx ∧ rec_.context = false ∧ rec_.rollback = false ∧
      (rec_.exited = true ↔ ∀ t ∈ tids, (s.thread b t).st = .exited))) ∧
  ∀ (r : StopRec) s,
    let t := takeFault r s
    let n := (sget 0 r.source s.seqs + 1) % 2 ^ 40
    let rec_ := { r with seq := seqNumber s n, at_ := s.cycle }
    t.ring = s.ring ++ [rec_] ∧
    t.plat = Platform.post .eh (eventMessage r.source (seqNumber s n) r.causeSeq) s.plat ∧
    (∀ c ∈ s.ctxs, c.spec.num = r.ctx → { c with halted := true } ∈ t.ctxs) ∧
    (∀ c ∈ s.ctxs, c.spec.num ≠ r.ctx → c ∈ t.ctxs) ∧
    (∀ p, p < s.parts.length → (t.parts.getD p default) =
      if (s.parts.getD p default).ctx = some r.ctx then
        { s.parts.getD p default with halt := (s.parts.getD p default).halt.or (some (s.cycle, seqNumber s n, r.source)) }
      else s.parts.getD p default) ∧
    (∀ q, q < s.queues.length → t.queue q =
      if (s.queue q).spec.ctx = r.ctx ∧ (s.queue q).state = .active then { s.queue q with state := .stopped } else s.queue q) ∧
    (∀ l, l < s.launches.length → t.launch l =
      if r.context = false ∧ l = r.launch ∧ (s.launch l).stage ≠ .done ∧
          ((s.launch l).cause = 0 ∨ (s.launch l).causeBy.1 = s.cycle ∧ r.source < (s.launch l).causeBy.2) then
        { s.launch l with cause := r.cause, causeBy := (s.cycle, r.source) } else s.launch l) ∧
    MemorySame s t ∧
    t = { s with seqs := t.seqs, ring := t.ring, ctxs := t.ctxs, parts := t.parts, queues := t.queues, launches := t.launches,
                 plat := t.plat } ∧
    (recordBytes r).length = 64 ∧
    (r.source < 2 ^ 16 → r.cause < 2 ^ 8 → r.seq < 2 ^ 64 → fieldN (recordBytes r) 0 2 = r.source ∧
      fieldN (recordBytes r) 2 1 = r.cause ∧ fieldN (recordBytes r) 8 8 = r.seq ∧ fieldN (recordBytes r) 0x28 8 = r.pc.toNat ∧
      fieldN (recordBytes r) 0x20 4 = r.lanes.toNat) ∧
    (∀ x rest, s.ring = x :: rest → ∃ y, nextRecord s.ring = some y ∧ y ∈ s.ring ∧ y.at_ = x.at_ ∧
      ∀ z ∈ s.ring.takeWhile (fun z => z.at_ = x.at_), y.source ≤ z.source) ∧
    (nextRecord s.ring = some r →
      (receiveRecord s).ring = s.ring.erase r ∧
      (∀ c ∈ s.ctxs, c.spec.num = r.ctx → { c with log := c.log ++ [recordBytes r] } ∈ (receiveRecord s).ctxs) ∧
      (∀ c ∈ s.ctxs, c.spec.num ≠ r.ctx → c ∈ (receiveRecord s).ctxs) ∧
      receiveRecord s = { s with ring := (receiveRecord s).ring, ctxs := (receiveRecord s).ctxs })

/-- RETURNING FROM AN EXCEPTION: the EH may resume a context whose partitions have stopped: it is not halted, its halt
lines are down, its STOPPED queues are ACTIVE, and every thread stands where it stood. -/
def Obligations.ReturningFromAnException : Prop :=
  ∀ ctx s, atEh s ctx = true → (s.ctx ctx).killed = false → leaseBroken s ctx = false →
    ∃ r, exec (.ehResumeContext ctx) s = .next r ∧ (r.ctx ctx).halted = false ∧ MemorySame s r ∧
      (∀ p, p < s.parts.length → (s.parts.getD p default).ctx = some ctx →
        (r.parts.getD p default).halt = none ∧ (r.parts.getD p default).stopped = false) ∧
      (∀ q, q < s.queues.length → (s.queue q).spec.ctx = ctx → (s.queue q).state = .stopped → (r.queue q).state = .active) ∧
      (∀ b t, (r.thread b t).pc = (s.thread b t).pc ∧ (r.thread b t).vals = (s.thread b t).vals ∧
        (r.thread b t).st = (s.thread b t).st)

/-- A PRECISE FAULT HAS NO EFFECT: an instruction of the shared execution with a register beyond the file, or with
threads that fault, leaves every thread, block and byte as it was, writes records and halts the context: one record for each
distinct cause, in the order of its lowest home lane, with the lanes it is charged to, the pc and the address of the first; the
context is halted, the halt line of each partition that runs it is up, and no queue of it is ACTIVE. Where a shadow mismatch is
among the faults and the block can roll back, it does instead: its checkpoint stands again, one record says so, and the
context does not halt. -/
def Obligations.PreciseFaultsHaveNoEffect : Prop :=
  ∀ i faultOf go s,
    let b := s.cur.block
    let l := s.launchOf b
    let fs := groupFaults i faultOf s
    let halts := fun (t : State) => (∀ x ∈ t.ctxs, x.spec.num = l.ctx → x.halted = true) ∧
      (∀ p, p < s.parts.length → (s.parts.getD p default).ctx = some l.ctx → (t.parts.getD p default).halt.isSome = true) ∧
      ∀ q, q < s.queues.length → (s.queue q).spec.ctx = l.ctx → (t.queue q).state ≠ .active
    (rangeOk (fieldsOf i).1 (fieldsOf i).2 (s.launchOf s.cur.block).regs = false →
      ∃ t, laneExecBy i faultOf go s = .next t ∧ t.blocks = s.blocks ∧ t.items = s.items ∧ t.mem = s.mem ∧
        t = raiseCause s.cur.block 0x02 s.cur.tids s.cur.pc 0 s ∧ (s.cur.tids ≠ [] → halts t)) ∧
    (rangeOk (fieldsOf i).1 (fieldsOf i).2 l.regs = true → fs ≠ [] →
      ((∀ f ∈ fs, f.2.1 ≠ 0x1C) ∨ canRollBack (s.block b) = false →
        ∃ t, laneExecBy i faultOf go s = .next t ∧ t.blocks = s.blocks ∧ t.items = s.items ∧ t.mem = s.mem ∧ halts t ∧
          t.ring.length = s.ring.length + (fs.map fun f => f.2.1).eraseDups.length ∧ t.ring.take s.ring.length = s.ring ∧
          ∀ n cause, (fs.map fun f => f.2.1).eraseDups[n]? = some cause → ∃ x, t.ring[s.ring.length + n]? = some x ∧
            x.cause = cause ∧ x.pc = s.cur.pc ∧ x.rollback = false ∧
            (∀ f, fs.find? (fun f => f.2.1 = cause) = some f → x.addr = f.2.2) ∧
            ∀ j, j < 32 → x.lanes.getLsbD j = decide (∃ f ∈ fs, f.2.1 = cause ∧ homeLane l f.1 = j)) ∧
      ((∃ f ∈ fs, f.2.1 = 0x1C) → canRollBack (s.block b) = true →
        ∃ t, laneExecBy i faultOf go s = .next t ∧ t.mem = s.mem ∧ t.ctxs = s.ctxs ∧ t.parts = s.parts ∧ t.queues = s.queues ∧
          (∀ c, c ≠ b → t.block c = s.block c) ∧ (t.block b).rolled = true ∧
          (∃ x, t.ring = s.ring ++ [x] ∧ x.cause = 0x1C ∧ x.rollback = true ∧ x.pc = s.cur.pc ∧
            ∀ j, j < 32 → x.lanes.getLsbD j = decide (∃ f ∈ fs, f.2.1 = 0x1C ∧ homeLane l f.1 = j)) ∧
          ∀ c, (s.block b).ckpt = some c → (t.block b).scratch = c.scratch ∧ (t.block b).fe = c.fe ∧ (t.block b).waves = c.waves ∧
            (t.block b).copies = c.copies ∧ (t.block b).threads.length = c.threads.length ∧
            ∀ u, u < c.threads.length → (t.thread b u).pc = (c.threads.getD u default).pc ∧
              (t.thread b u).vals = (c.threads.getD u default).vals ∧ (t.thread b u).st = (c.threads.getD u default).st))

/-- PARTITION_STOP, where no entry must wait for a link or a unit (log 103): the engines of a halted partition stop; every one of them that held work of the context, but the
one whose record raised the halt line, writes a record with CAUSE 0 that names it. EH_KILL_LAUNCH and EH_KILL_CONTEXT,
of a context that has halted and stopped, no die in an emergency: a launch that waits for no pool line, its record and its queue in no codec region's
context, is done and killed; a context is killed. -/
def Obligations.HaltsEnd : Prop :=
  (∀ p plan x s cyc seq src ctx, s.parts[p]? = some x → x.halt = some (cyc, seq, src) → x.ctx = some ctx → x.stopped = false →
     stopHeld s (partBlocks s x) = false → ∃ r, exec (.partitionStop p plan) s = .next r ∧ (r.parts.getD p default).stopped = true ∧
       (∀ e ∈ busyEngines s x, e ≠ src → ∃ rec_ ∈ r.ring,
         rec_.source = e ∧ rec_.cause = 0 ∧ rec_.causeSeq = seq ∧ rec_.ctx = ctx)) ∧
  (∀ l s, atEh s (s.launch l).ctx = true → l < s.launches.length → (s.launch l).stage ≠ .done →
    (∀ x ∈ s.lines, x.coh ≠ .pool) → (∀ x ∈ s.lines, x.wb = false) → (∀ d ∈ s.dies, d.emergency = false) →
    (s.ctx (s.launch l).ctx).regions = [] → (s.ctx (s.queue (s.launch l).q).spec.ctx).regions = [] →
    ∃ r, exec (.ehKillLaunch l) s = .next r ∧ (r.launch l).killed = true ∧ (r.launch l).stage = .done ∧ (r.launch l).tree = 0) ∧
  (∀ ctx s, atEh s ctx = true → (s.ctx ctx).killed = false →
    ∃ r, exec (.ehKillContext ctx) s = .next r ∧ (r.ctx ctx).killed = true)

/-- PREEMPTION_REQUEST, DRAIN_TIMEOUT, BLOCK_SAVE, CONTEXT_RESTORE, TIMING_REPLAY: a partition takes the request, where the
header words it reads wait for nothing (of a context without codec regions); a drain that has lasted becomes a save; a block that
may be saved is, with its record in the save area; a saved span returns to the cores it is given; a header word or a save record in
poisoned memory raises 0x1A against the context and the request or the restore does nothing more (log 118); a replay counts and
changes nothing else. -/
def Obligations.PreemptionRuns : Prop :=
  (∀ p d f x ctx s, s.parts[p]? = some x → x.halt = none → x.preempt = none → x.ctx = some ctx → d ≤ 256 → f ≤ 256 →
    (s.ctx ctx).regions = [] →
    let heads := (partBlocks s x).filter (needsHead s)
    (∀ b ∈ heads, deviceHeld s ctx (headAt s b) 4 = false) →
    (∀ a, (∀ b ∈ partBlocks s x, mayRetire s b = false) → heads.findSome? (fun b => deviceBad s ctx (headAt s b) 4) = some a →
      exec (.preemptionRequest p d f) s = .next (raiseContext (ctlSource (ctlFor s ctx a)) 0x1A ctx a id s)) ∧
    ((∀ b ∈ heads, deviceBad s ctx (headAt s b) 4 = none) → ∃ r, exec (.preemptionRequest p d f) s = .next r ∧
      r.parts = modAt (fun y => { y with preempt := some (d, f, s.cycle) }) p s.parts ∧
      (∀ b, (∀ c ∈ partBlocks s x, (s.block c).launch ≠ (s.block b).launch) → r.block b = s.block b) ∧
      (∀ b ∈ partBlocks s x, (∀ c ∈ partBlocks s x, mayRetire s c = false) → spanBlocks s b = [b] →
        (methodOf s d f b = .flush → (r.block b).status = .unplaced) ∧
        (methodOf s d f b ≠ .flush → (r.block b).method = methodOf s d f b)))) ∧
  (∀ p s, drainDue s p = true → ∃ r, exec (.drainTimeout p) s = .next r ∧ MemorySame s r ∧
    (∀ b ∈ partBlocks s (s.parts.getD p default), (r.block b).method =
      if (s.block b).method = .drain then .save else (s.block b).method) ∧
    (∀ b, b ∉ partBlocks s (s.parts.getD p default) → r.block b = s.block b) ∧ r = { s with blocks := r.blocks }) ∧
  (∀ b s, b < s.blocks.length → maySave s b = true → (s.ctx? (ctxOf s b)).isSome = true →
    ∃ r, exec (.blockSave b) s = .next r ∧ (r.block b).status = .saved ∧ (r.block b).method = .none ∧
      (∃ e ∈ (r.ctx (ctxOf s b)).saves, e.1 = b) ∧ (∀ c, c ≠ b → r.block c = s.block c)) ∧
  (∀ b places s, (spanBlocks s b).length = places.length → (spanBlocks s b).head? = some b →
    (∀ c ∈ spanBlocks s b, (s.block c).status = .saved) → (s.ctx (ctxOf s b)).halted = false → s.plat.winter = .running →
    placesOk s (ctxOf s b) places = true → placesFit s (spanBlocks s b) places = true →
    ((∀ c ∈ spanBlocks s b, recordBad s c = none) → ∃ r, exec (.contextRestore b places) s = .next r ∧
      ∀ e ∈ (spanBlocks s b).zip places, (r.block e.1).status = .placed ∧ (r.block e.1).core = e.2.1) ∧
    (∀ pre c post a, spanBlocks s b = pre ++ c :: post → (∀ x ∈ pre, recordBad s x = none) → recordBad s c = some a →
      exec (.contextRestore b places) s = .next (raiseContext (ctlSource (ctlOf s a)) 0x1A (ctxOf s c) a id s))) ∧
  (∀ core s, core < s.cores.length → ∃ r, exec (.timingReplay core) s = .next r ∧
    r.core core = { s.core core with replays := (s.core core).replays + 1 } ∧ (∀ c, c ≠ core → r.core c = s.core c) ∧
    r = { s with cores := r.cores })

/-! ### The codec -/

/-- BLOCK_FILL of a slot whose bytes are plain (a ZERO slot, an escaped block): the block reads as them and the fill
is over; of a slot that needs a supervisor's program, a run of the decode program starts. BLOCK_ENCODE of a dirty
block that is not all zeros, under a supervisor's program: a run of the current encode program starts on its bytes,
and the block is on its way out; either waits for an engine and, of class 2 or 3, for the end of its die's emergency. RECODE_WALK reads and passes a slot of the current generation, from the
cycle after the rebinding on, on a die in no emergency, and stops at one in poisoned memory. SLOT_INJECTION changes the named
bytes of a slot, where the context allows it and no unit of the region is in the L2. CODEC_LOAD, CODEC_BIND,
CODEC_UNBIND, REGION_INFO answer the thread that asked: an accepted request fills the destination with its result and lets
the thread pass; a rejected one is fault 0x23 with the destination ABANDONED, the thread at its instruction, one whose argument lies
in poisoned memory 0x1A; one that waits changes nothing. A load gives the image's program the lowest free number of 240 (the model's
choice, log 36); a first binding adds the region of its record, with every slot the ZERO
slot of generation 0; a rebinding adds the lowest free generation, makes it current and starts the recode walker; an
unbinding removes the region and its units; the information is the region's record. -/
def Obligations.CodecActs : Prop :=
  (∀ ctx region blk r f s, findRegion s ctx region = some r →
     s.fills.find? (fun f => f.ctx = ctx && f.region = region && f.blk = blk) = some f → (s.ctx ctx).halted = false →
     runOf s ctx region blk false = none → trafficStops s r (openerClass s f.opener) = false →
     let stage := stageOf s ctx r (attemptSlot s ctx r blk f.attempt) (slotBad s ctx r blk (decide (3 ≤ f.attempt)))
     (∀ o, stage = .plain o → r.pbs % 16 = 0 → r.base % 16 = 0 → o.length = r.pbs →
       ∃ q, exec (.blockFill ctx region blk) s = .next q ∧ plainOf q ctx r blk = o ∧ q.fills = s.fills.erase f ∧
         (∀ key, ¬(ctx * 2 ^ 56 + r.vaOf blk ≤ key ∧ key < ctx * 2 ^ 56 + r.vaOf blk + r.pbs) → newestByte q key = newestByte s key)) ∧
     (∀ g inp, stage = .run g inp → isLib g.dec = false → engineFree s r.die = true →
       ∃ q, exec (.blockFill ctx region blk) s = .next q ∧ q.runs = s.runs ++ [mkRun s ctx r blk g false inp] ∧
         q = { s with runs := q.runs })) ∧
  (∀ ctx region blk r u s, findRegion s ctx region = some r → runOf s ctx region blk true = none →
    findUnit s ctx region (r.unitOfBlk blk) = some u → u.installed = true → blk ∉ u.pinned →
    (∀ e ∈ u.leaving, e.1 ≠ blk) → blk ∈ u.dirty → blk < r.blocks → (plainOf s ctx r blk).all (· = 0) = false →
    isLib (curGen s r).enc = false → engineFree s r.die = true → trafficStops s r (encodeClass s (closingOf u blk)) = false →
    ∃ q, exec (.blockEncode ctx region blk) s = .next q ∧
      q.runs = s.runs ++ [mkRun (startLeaving ctx r blk s) ctx r blk (curGen s r) true (plainOf s ctx r blk)] ∧
      (∀ key, newestByte q key = newestByte s key)) ∧
  (∀ ctx region r k s, findRegion s ctx region = some r → r.walker = some k → k < r.blocks → slotGen (r.slot k) = r.cur →
    r.since ≠ s.cycle → (s.die r.die).emergency = false →
    (slotBad s ctx r k false = false → ∃ q, exec (.recodeWalk ctx region) s = .next q ∧
      findRegion q ctx region = some { r with walker := some (k + 1) } ∧
      q = { s with ctxs := q.ctxs, ctls := q.ctls, walks := q.walks, free := s.free + 1 }) ∧
    (slotBad s ctx r k false = true → ∃ q, exec (.recodeWalk ctx region) s = .next q ∧
      findRegion q ctx region = some { r with walker := none } ∧ q.items = s.items ∧ q.blocks = s.blocks)) ∧
  (∀ ctx region blk off (bytes : List Byte) r s, findRegion s ctx region = some r → (s.ctx ctx).spec.injection = true → mgWaits s = false →
    bytes ≠ [] → bytes.length ≤ 16 → off + bytes.length ≤ r.sbs → blk < r.blocks → leased s ctx r.base r.len = false →
    (∀ u ∈ s.units, ¬(u.ctx = ctx ∧ u.region = region)) →
    ∃ q r', exec (.slotInjection ctx region blk off bytes) s = .next q ∧ findRegion q ctx region = some r' ∧
      r'.slot blk = (r.slot blk).take off ++ bytes ++ (r.slot blk).drop (off + bytes.length) ∧
      (∀ k, k ≠ blk → r'.slot k = r.slot k) ∧ (∀ key, newestByte q key = newestByte s key)) ∧
  (∀ b t n i work ptes a c prod iss len s, serviceOf (.thread b t) ptes n = some (i, work) →
     (s.thread b t).st = .svcWait n a c prod iss len → svcReady s b t prod iss = true →
     let ctx := ctxOf s b
     let result := work ctx a c devRead s
     let s2 := modThread b t (fun th => { abandonProd prod th with st := .ready }) s
     (∀ r rec_ s', result = .ok r rec_ s' → b < s'.blocks.length → t < (s'.block b).threads.length →
       ∃ q, exec i s = .next q ∧ (q.thread b t).st = .ready ∧
         (q.thread b t).pc = (s'.thread b t).pc + BitVec.ofNat 64 len ∧
         (q.thread b t).prods = (s'.thread b t).prods.filter (fun x => x.id ≠ prod) ∧
         (∀ x, (s'.thread b t).prods.find? (fun x => x.id = prod) = some x →
           (q.thread b t).vals = fillRegs x.dst [BitVec.ofNat 32 r] x.taint (s'.thread b t).vals)) ∧
     (∀ reason, result = .reject reason →
       exec i s = .next (raiseCause b 0x23 [t] (s.thread b t).pc 0 s2)) ∧
     (∀ x, result = .poison x → exec i s = .next (takeFault { threadRec s2 b 0x1A [t] (s.thread b t).pc x with
       source := ctlSource (ctlFor s ctx x) } s2)) ∧
     (result = .held → exec i s = .next s)) ∧
  (∀ ctx a c (view : SvcView) n t enc id s0, a % 8 = 0 → a < 2 ^ 56 → deviceBad s0 ctx a 8 = none → deviceHeld s0 ctx a 8 = false →
     let s := deviceTouch ctx a 8 s0
     let s1 := deviceTouch ctx (a + 8) (4 * (n + t)) s
     let head := view s ctx a 8
     imageHeader (leNat (head.take 4)) (leNat (head.drop 4)) = .ok (n, t, enc) → id < 240 →
     (∀ p ∈ (s.ctx ctx).programs, p.id ≠ id) → (∀ j, j < id → ∃ p ∈ (s.ctx ctx).programs, p.id = j) →
     deviceBad s ctx (a + 8) (4 * (n + t)) = none → deviceHeld s ctx (a + 8) (4 * (n + t)) = false → (s1.ctx? ctx).isSome = true →
     let ws := wordsLe (view s1 ctx (a + 8) (4 * (n + t))) (n + t)
     ∃ s', codecLoadWork ctx a c view s0 = .ok id none s' ∧
       (s'.ctx ctx).programs = (s1.ctx ctx).programs ++ [⟨id, enc, ws.take n, ws.drop n⟩] ∧ s' = { s1 with ctxs := s'.ctxs }) ∧
  (∀ ptes ctx a c (view : SvcView) res rec_ s0 s', codecBindWork ptes ctx a c view s0 = .ok res rec_ s' →
     let s := deviceTouch ctx a 96 s0
     (s.ctx? ctx).isSome = true →
     let r := regionOfRecord (view s ctx a 96)
     let g := r.gens.headD default
     res = r.idx ∧ rec_ = none ∧
     (findRegion s ctx r.idx = none → ∃ die, (s'.ctx ctx).regions = (s.ctx ctx).regions ++ [{ r with die := die }] ∧
       oneHome (s.ctx ctx) r.base r.len = some die ∧ (∀ k, k < r.blocks → slotZero (r.slot k) = true ∧ slotGen (r.slot k) = 0)) ∧
     (∀ old, findRegion s ctx r.idx = some old → ∃ n x, freeGen old = some n ∧ findRegion s' ctx r.idx = some x ∧
       x.cur = n ∧ x.gens = old.gens ++ [{ g with num := n }] ∧ x.walker = some 0 ∧ x.since = s.cycle ∧ x.slots = old.slots)) ∧
  (∀ ptes ctx a c (view : SvcView) res rec_ s s', codecUnbindWork ptes ctx a c view s = .ok res rec_ s' →
     res = 0 ∧ rec_ = none ∧ findRegion s' ctx a = none ∧ (∀ u ∈ s'.units, ¬(u.ctx = ctx ∧ u.region = a))) ∧
  (∀ ctx a va (view : SvcView) r s, a < 16 → findRegion s ctx a = some r → va % 32 = 0 → va < 2 ^ 56 →
     deviceHeld s ctx va 32 = false → deviceBad s ctx va 32 = none →
     regionInfoWork ctx a va view s = .ok 0 (some va) (deviceWrite ctx va (infoRecord r) s)) ∧
  (∀ r : Region, r.cur < 4 → (∀ g ∈ r.gens, g.num < 4) → r.escs.length < 2 ^ 32 → r.inv < 2 ^ 32 → r.esc < 2 ^ 32 → r.rep < 2 ^ 32 →
     let x := infoRecord r
     x.length = 32 ∧ fieldN x 0 1 = r.cur ∧ (∀ n, n < 4 → (fieldN x 1 1).testBit n = decide (∃ g ∈ r.gens, g.num = n)) ∧
     fieldN x 4 4 = r.escs.length ∧ fieldN x 8 4 = r.inv ∧ fieldN x 12 4 = r.esc ∧ fieldN x 16 4 = r.rep)

/-! ### The pool -/

/-- BACK_INVALIDATION_SNOOP is answered; LINK_EXIT_L0 and LINK_RETURN_TO_L0 change the state of their port;
LINK_RECOVERY_TIMEOUT, POOL_REQUEST_TIMEOUT, of a port with a request outstanding, and PORT_RETURN_TIMEOUT declare its link
lost; REGION_REVALIDATE makes a LOST region usable; POOL_ATTACH of a device of type 3 attaches a port and names the device.
-/
def Obligations.PoolEventsAct : Prop :=
  (∀ (sn : Snoop) s, portUp s sn.port = true → ∃ r, exec (.backInvalidationSnoop sn) s = .next r ∧
    Reply.birsp sn.port sn.hpa ∈ r.plat.out ∧ r.now = s.now + 1 ∧ r.blocks = s.blocks) ∧
  (∀ port s, port < s.ports.length → (s.ports.getD port default).up = true →
    ∃ r, exec (.linkExitL0 port) s = .next r ∧
      r.ports.getD port default = { s.ports.getD port default with up := false, recovering := true } ∧
      (∀ p, p ≠ port → r.ports.getD p default = s.ports.getD p default) ∧ r = { s with ports := r.ports }) ∧
  (∀ port s, port < s.ports.length → (s.ports.getD port default).attached = true →
    ∃ r, exec (.linkReturnToL0 port) s = .next r ∧
      r.ports.getD port default = { s.ports.getD port default with up := true, recovering := false, lost := false } ∧
      (∀ p, p ≠ port → r.ports.getD p default = s.ports.getD p default) ∧ r = { s with ports := r.ports }) ∧
  (∀ port s, (s.ports.getD port default).recovering = true →
    exec (.linkRecoveryTimeout port) s = .next (loseLink port s).tickNow) ∧
  (∀ port s, (s.ports.getD port default).attached = true → (s.ports.getD port default).lost = false →
    (poolBusy s port = true → exec (.poolRequestTimeout port) s = .next (loseLink port s).tickNow) ∧
    ((s.ports.getD port default).up = false → exec (.portReturnTimeout port) s = .next (loseLink port s).tickNow)) ∧
  (∀ port s, port < s.ports.length → (s.ports.getD port default).attached = true →
    ((loseLink port s).ports.getD port default).lost = true ∧ ((loseLink port s).ports.getD port default).up = false) ∧
  (∀ ctx i p s, (s.ctx ctx).pools[i]? = some p → p.lost = true → portUp s (p.portNow s) = true →
    ∃ r, exec (.regionRevalidate ctx i) s = .next r ∧ (r.ctx ctx).pools[i]? = some { p with lost := false } ∧ r.blocks = s.blocks) ∧
  (∀ port dev s, 1 ≤ dev → dev ≤ 4095 → port < 2 → port < s.ports.length → (dev = s.dev ∨ ∀ p ∈ s.parts, p.ctx = none) →
    ∃ r, exec (.poolAttach port ⟨dev, 3⟩) s = .next r ∧ r.dev = dev ∧ r.ports.getD port default = ⟨true, true, false, false⟩ ∧
      r = { s with ports := r.ports, dev := dev }) ∧
  (∀ port dev s, dev.type ≠ 3 → exec (.poolAttach port dev) s = .next s)

/-! ### The platform -/

/-- The inputs of the platform act on its state and on nothing else: messages are numbered by their source, join their
mailbox and wake their core, or wait for room in it, and their sender with them; arbiter windows set caps, clocks of 8 to 16
sixteenths and budgets, and a die that warned gets a lower cap: one with a reading of 95 warns, of 105 is in an emergency, of 115
trips a running module into Winter; samples and scrubs are logged by their source with its next
number, a pass makes one request to each controller of a die in no emergency (log 92) and poisons the lines that it finds bad; reads are
answered, once the MG waits for no room. Which source logs what is logs 74 and 100. -/
def Obligations.PlatformActs : Prop :=
  (∀ core msg l s, (∀ e ∈ s.plat.mail, e.1 = core → e = (core, l)) → (core, l) ∈ s.plat.mail →
    let n := (sget 0 msg.source.toNat s.seqs + 1) % 2 ^ 40
    let m := { msg with seq := BitVec.ofNat 64 (seqNumber s n) }
    ∃ r, exec (.mailboxMessage core msg) s = .next r ∧ r = { s with plat := r.plat, seqs := sset 0 msg.source.toNat n s.seqs } ∧
      (l.length < 64 → (∀ e ∈ s.plat.waiting, e.1 ≠ core ∧ e.2.source ≠ msg.source) →
        (core, l ++ [m]) ∈ r.plat.mail ∧ core ∉ r.plat.asleep ∧ r.plat.waiting = s.plat.waiting) ∧
      (64 ≤ l.length ∨ (∃ e ∈ s.plat.waiting, e.1 = core ∨ e.2.source = msg.source) →
        r.plat = { s.plat with waiting := s.plat.waiting ++ [(core, m)] })) ∧
  (∀ caps budgets clocks s, ∃ r, exec (.arbiterWindow caps budgets clocks) s = .next r ∧ MemorySame s r ∧
    (∀ c, c < s.ctls.length → r.ctl c = { s.ctl c with budget := budgets.getD c (s.ctl c).budget }) ∧
    (∀ d, d < s.dies.length →
      let cap := caps.getD d (s.die d).cap
      let k := clocks.getD d (s.die d).clock
      ((s.die d).warned = false → (r.die d).cap = cap) ∧
      ((s.die d).warned = true → (r.die d).cap = min cap ((s.die d).cap - 1)) ∧
      (8 ≤ k → k ≤ 16 → (r.die d).clock = k) ∧ (k < 8 ∨ 16 < k → (r.die d).clock = (s.die d).clock) ∧
      r.die d = { s.die d with cap := (r.die d).cap, clock := (r.die d).clock, warned := false }) ∧
    r = { s with dies := r.dies, ctls := r.ctls }) ∧
  (∀ die readings s, die < s.dies.length → (∀ x ∈ readings, x < 95) → readings.length = 64 →
    ∃ r, exec (.thermalSample die readings) s = .next r ∧ MemorySame s r ∧ (r.die die).readings = readings ∧
      r.plat = s.plat ∧ (r.die die).emergency = (s.die die).emergency) ∧
  (∀ die readings s, die < s.dies.length → (∀ x ∈ readings, x < 115) → (∃ x ∈ readings, 105 ≤ x) → readings.length = 64 →
    ∃ r, exec (.thermalSample die readings) s = .next r ∧ MemorySame s r ∧ (r.die die).warned = true ∧
      (r.die die).emergency = true ∧ (∃ q, q = seqNumber s ((sget 0 (fwSource .mg) s.seqs + 1) % 2 ^ 40) ∧
        r.plat.log = s.plat.log ++ [⟨.warning, [die], fwSource .mg, q, 0⟩]) ∧ (∀ d, d ≠ die → r.die d = s.die d)) ∧
  (∀ die readings s, die < s.dies.length → (∀ x ∈ readings, x < 105) → (∃ x ∈ readings, 95 ≤ x) → readings.length = 64 →
    ∃ r, exec (.thermalSample die readings) s = .next r ∧ MemorySame s r ∧ (r.die die).warned = true ∧
      (r.die die).emergency = (s.die die).emergency ∧ (∃ q, q = seqNumber s ((sget 0 (fwSource .mg) s.seqs + 1) % 2 ^ 40) ∧
        r.plat = { s.plat with log := s.plat.log ++ [⟨.warning, [die], fwSource .mg, q, 0⟩] }) ∧ (∀ d, d ≠ die → r.die d = s.die d) ∧
      ∀ caps budgets clocks, ∃ q, exec (.arbiterWindow caps budgets clocks) r = .next q ∧
        (q.die die).cap = min (caps.getD die (s.die die).cap) ((s.die die).cap - 1)) ∧
  (∀ die readings s, die < s.dies.length → (∃ x ∈ readings, 115 ≤ x) → readings.length = 64 →
    (s.plat.winter = .running → ∃ r, exec (.thermalSample die readings) s = .next r ∧ r.plat.winter = .thermal die ∧
      ∃ l e, r.plat.log = l ++ [e] ∧ e.kind = .winter ∧ e.source = fwSource .pw) ∧
    (s.plat.winter ≠ .running → ∃ r, exec (.thermalSample die readings) s = .next r ∧ MemorySame s r ∧
      r.plat.winter = s.plat.winter ∧ (r.die die).warned = true ∧ (r.die die).emergency = true)) ∧
  (∀ die s, die < s.dies.length → allBelow s die 100 = true → ∃ r, exec (.emergencyEnd die) s = .next r ∧ MemorySame s r ∧
    r.die die = { s.die die with emergency := false } ∧ (∀ d, d ≠ die → r.die d = s.die d)) ∧
  (∀ corrected bad s, ∃ r, exec (.patrolScrub corrected bad) s = .next r ∧ MemorySame s r ∧
    r.plat.corrected = s.plat.corrected + corrected ∧
    (∀ x, x ∈ r.plat.poison ↔ x ∈ s.plat.poison ∨ ∃ y ∈ bad, scrubbed s y = true ∧ x = lineAddr y) ∧
    (∃ q, q = seqNumber s ((sget 0 (fwSource .mg) s.seqs + 1) % 2 ^ 40) ∧
      r.plat.log = s.plat.log ++ [⟨.scrub, [corrected, (bad.filter (scrubbed s)).length], fwSource .mg, q, 0⟩]) ∧
    (∀ i, i < 24 → i < s.ctls.length → (s.die (i / 6)).emergency = false → (r.ctl i).reqs.length = (s.ctl i).reqs.length + 1) ∧
    r = { s with plat := r.plat, free := r.free, ctls := r.ctls, seqs := r.seqs }) ∧
  (∀ s, mgWaits s = true → ∀ i ∈ [Instr.eventLogRead, .winterCountRead, .deadlineCountersRead, .sensorRead], exec i s = .next s) ∧
  (∀ s, mgWaits s = false → ∃ r, exec .eventLogRead s = .next r ∧ r.plat.out = s.plat.out ++ [.events s.plat.log] ∧ r.plat.log = s.plat.log ∧
    r = { s with plat := r.plat, seqs := r.seqs }) ∧
  (∀ s, mgWaits s = false → ∃ r, exec .winterCountRead s = .next r ∧ r.plat.out = s.plat.out ++ [.winters s.plat.winters] ∧
    r = { s with plat := r.plat, seqs := r.seqs }) ∧
  (∀ s, mgWaits s = false → ∃ r, exec .deadlineCountersRead s = .next r ∧ r.plat.out = s.plat.out ++ [.counters s.missed] ∧ r.missed = [] ∧
    r = { s with missed := [], plat := r.plat, seqs := r.seqs }) ∧
  (∀ s, mgWaits s = false → ∃ r rails, exec .sensorRead s = .next r ∧ r.plat.out = s.plat.out ++ [.sensors (s.dies.map Die.readings ++ [rails])] ∧
    r = { s with free := s.free + 1, plat := r.plat, seqs := r.seqs })

/-- WINTER and its inputs: PWRWARN is noted; from a running module, and from a Thaw that has begun, it enters Winter, as a
request does from a running module; a wake, a deassertion and a sample are noted; THAW has four steps, one at a time, the
first of which changes no memory; with the fourth one more Winter is counted and the module runs. -/
def Obligations.WinterComesAndGoes : Prop :=
  (∀ s, s.plat.winter = .running ∨ thawing s = true →
    ∃ r, exec .pwrwarnAssert s = .next r ∧ r.plat.winter = .pwrwarn ∧ r.plat.pwrwarn = true ∧ r.plat.thawed = 0) ∧
  (∀ s, s.plat.winter ≠ .running → thawing s = false → exec .pwrwarnAssert s = .next (modPlat (fun p => { p with pwrwarn := true }) s)) ∧
  (∀ s, s.plat.winter = .running → ∃ r, exec .winterRequest s = .next r ∧ r.plat.winter = .request) ∧
  (∀ s, exec .pwrwarnDeassert s = .next (modPlat (fun p => { p with pwrwarn := false }) s)) ∧
  (∀ s, s.plat.winter = .request → exec .wakeRequest s = .next (modPlat (fun p => { p with wake := true }) s)) ∧
  (∀ die readings s, s.plat.winter = .thermal die → ∃ r, exec (.winterSensorSample die readings) s = .next r ∧
    r.plat.cooled = allBelow r die 95 ∧ MemorySame s r) ∧
  (∀ s, mayThaw s = true ∨ thawing s = true → s.plat.thawed < 3 → ∃ r, exec .thaw s = .next r ∧
    r.plat.winter = s.plat.winter ∧ r.plat.thawed = s.plat.thawed + 1 ∧ r.plat.winters = s.plat.winters ∧
    (s.plat.thawed = 0 → r.lines = [] ∧ r.pmem = s.pmem ∧ r.items = s.items ∧ r.blocks = s.blocks ∧
      ∀ key, newestByte r key = newestByte s key)) ∧
  (∀ s, mayThaw s = true ∨ thawing s = true → 3 ≤ s.plat.thawed → ∃ r, exec .thaw s = .next r ∧
    r = { s with ports := r.ports, plat := r.plat, seqs := r.seqs, now := s.now + 1 } ∧
    r.plat.winter = .running ∧ r.plat.thawed = 0 ∧ r.plat.winters = (s.plat.winters + 1) % 2 ^ 32)

/-- RESET leaves what the spec says it leaves: every memory of the module wiped, no context, queue, launch or block, LCAP at 2,048
on 160 cores, the masks zero, DEV 0, the event counts at zero and the boot count one higher; the event log and the
Winter count survive. A reset that ends a Winter is an event of its own, the first of the SE after it (log 100). -/
def Obligations.ResetLeaves : Prop :=
  ∀ failed s, ∃ r, exec (.reset failed) s = .next r ∧ r.mem = [] ∧ r.pmem = [] ∧ r.items = [] ∧ r.lines = [] ∧
    r.queues = [] ∧ r.ctxs = [] ∧ r.launches = [] ∧ r.blocks = [] ∧ r.ring = [] ∧
    (s.plat.winter = .running → r.seqs = [] ∧ r.plat.log = s.plat.log) ∧
    (s.plat.winter ≠ .running → r.seqs = [(fwSource .se, 1)] ∧
      r.plat.log = s.plat.log ++ [⟨.resetLoss, [], fwSource .se, (s.plat.boots + 1) % 2 ^ 24 * 2 ^ 40 + 1, 0⟩]) ∧
    r.cores = List.replicate 160 Core.init ∧ Core.init.lcap = 2048 ∧ r.dev = 0 ∧
    (∀ d ∈ r.dies, d.smask = 0 ∧ d.hmask = List.replicate 6 0) ∧ r.plat.boots = s.plat.boots + 1 ∧
    r.plat.winters = s.plat.winters ∧ r.plat.winter = .running ∧ r.plat.identity = s.plat.identity ∧ r.plat.cert = s.plat.cert ∧
    r.plat.life = s.plat.life ∧ r.plat.poison = [] ∧ r.hmem = s.hmem ∧ (Canonical s → Canonical r)

/-- The secure element acts: a signed transition to the next life-cycle state wipes the memories and the mailboxes, makes
the identity certificate in PROVISIONED and erases it in RETURN; an update writes the image that does not run, and only a
signed one whose counter has not fallen becomes the next; a report, over the host port or a Viaduct port, carries the
certificate and its signature, measures both images and is signed. -/
def Obligations.SecureElementActs : Prop :=
  (∀ target s, nextLife s.plat.life = some target → ∃ r, exec (.lifeCycleTransition target true) s = .next r ∧
    r.plat.life = target ∧ r.mem = [] ∧ r.pmem = [] ∧ r.items = [] ∧ r.blocks = [] ∧ r.plat.identity = decide (target ≠ .return_) ∧
    (∀ e ∈ r.plat.mail, e.2 = []) ∧ r.plat.waiting = [] ∧ (target = .provisioned → r.plat.cert = Config.identityCert s.free) ∧
    (target = .deployed → r.plat.cert = s.plat.cert) ∧ (target = .return_ → r.plat.cert = [])) ∧
  (∀ target signed s, nextLife s.plat.life ≠ some target ∨ signed = false → exec (.lifeCycleTransition target signed) s = .next { s with free := s.free + 1 }) ∧
  (∀ image counter signed s, mgWaits s = false → ∃ r, exec (.firmwareUpdate image counter signed) s = .next r ∧
    r = { s with plat := r.plat, seqs := r.seqs } ∧ r.plat.flash.running = s.plat.flash.running ∧ r.plat.flash.counter = s.plat.flash.counter ∧
    (if s.plat.flash.running then r.plat.flash.imageA = image ∧ r.plat.flash.imageB = s.plat.flash.imageB
     else r.plat.flash.imageB = image ∧ r.plat.flash.imageA = s.plat.flash.imageA) ∧
    (r.plat.flash.next = !s.plat.flash.running ↔ signed = true ∧ s.plat.flash.counter ≤ counter)) ∧
  (∀ port (nonce : BitVec 256) s, s.plat.identity = false ∨ 3 ≤ port →
    exec (.attestationRequest port nonce) s = .next { s with free := s.free + 1 }) ∧
  (∀ port (nonce : BitVec 256) s, s.plat.identity = true → port < 3 → ∃ r ms sig, exec (.attestationRequest port nonce) s = .next r ∧
    r.plat.out = s.plat.out ++ [.report s.plat.cert (Config.sign s.plat.cert) ms sig] ∧
    ms.take 2 = [shake256 s.plat.flash.imageA, shake256 s.plat.flash.imageB] ∧
    sig = Config.sign (leBytes 1 port ++ leBytes 32 nonce.toNat ++ ms.flatten) ∧ r = { s with free := s.free + 1, plat := r.plat })

/-- The supervisor's inputs: a context is created with its own number and function and tables of its own that keep the rules of the
MM (log 87), which is posted to the MM and the LS, once they have room;
LCAP takes 64 to 2,048 and nothing else, the scrub period 1 to 168 hours, a deadline its value; the sector and home masks of
a die are written while its HBM holds no allocated frame, and only then; a home map of at most 64 entries that moves no home
of what is leased, copied or bound (that a write which its register's rule forbids is not made is logs 15 and 47); a decoder of 16, aligned to 2 MiB and apart from the others; a partition of at least 2
free cores once nothing is placed there and no chunk of a COPY of its context is in flight; entries of page tables, where their layout and rules allow it, with the stale
translations gone from the TLBs; a host read answers what the system instance sees, and one of poisoned memory raises 0x1A. -/
def Obligations.SupervisorActs : Prop :=
  (∀ spec s, spec.num < 1024 → spec.root % 256 = 0 → spec.fn ≤ 384 → homeMapOk spec.homeMap = true →
    (∀ c ∈ s.ctxs, c.spec.num ≠ spec.num ∧ (spec.fn = 0 ∨ c.spec.fn ≠ spec.fn)) →
    tablesApart s spec.root = true → tablesOk false s { s with ctxs := s.ctxs ++ [newContext spec] } = true →
    mailRoom s .mm feSource 1 = true → mailRoom s .ls feSource 1 = true →
    ∃ r, exec (.contextCreate spec) s = .next r ∧ (r.ctx spec.num).spec = spec ∧ (r.ctx spec.num).halted = false ∧
      (r.ctx spec.num).sets = [] ∧ (∀ n, n ≠ spec.num → ∃ l, r.ctx? n = (s.ctx? n).map fun c => { c with aliases := l }) ∧
      r.plat = { s.plat with asleep := r.plat.asleep, mail := r.plat.mail, waiting := r.plat.waiting } ∧
      (s.plat.waiting = [] → (∀ c ∈ [FwCore.mm, .ls], ∃ l, (c, l) ∈ s.plat.mail ∧ l.length < 64) →
        FwCore.mm ∉ r.plat.asleep ∧ FwCore.ls ∉ r.plat.asleep) ∧
      r = { s with ctxs := r.ctxs, plat := r.plat, seqs := r.seqs }) ∧
  (∀ core n s, core < s.cores.length → 64 ≤ n → n ≤ 2048 → ∃ r, exec (.registerWrite (.lcap core n)) s = .next r ∧
    r.core core = { s.core core with lcap := n } ∧ (∀ c, c ≠ core → r.core c = s.core c) ∧ r = { s with cores := r.cores }) ∧
  (∀ core n s, n < 64 ∨ 2048 < n → exec (.registerWrite (.lcap core n)) s = .next s) ∧
  (∀ h s, (1 ≤ h → h ≤ 168 → exec (.registerWrite (.scrubPeriod h)) s = .next (modPlat (fun p => { p with scrub := h }) s)) ∧
    (h = 0 ∨ 168 < h → exec (.registerWrite (.scrubPeriod h)) s = .next s)) ∧
  (∀ c k u s, (s.ctx? c).isSome = true → k < (s.ctx c).deadlines.length → ∃ r, exec (.registerWrite (.deadline c k u)) s = .next r ∧
    (r.ctx c).deadlines[k]? = some u ∧ (∀ j, j ≠ k → (r.ctx c).deadlines[j]? = (s.ctx c).deadlines[j]?) ∧
    (∀ n, n ≠ c → r.ctx? n = s.ctx? n) ∧ r = { s with ctxs := r.ctxs }) ∧
  (∀ d i v s, (hbmInUse s d = true → exec (.registerWrite (.smask d v)) s = .next s ∧ exec (.registerWrite (.hmask d i v)) s = .next s) ∧
    (hbmInUse s d = false → d < s.dies.length →
      exec (.registerWrite (.smask d v)) s = .next (modDie d (fun x => { x with smask := v &&& 0x00FFFFFFFFFFE000 }) s) ∧
      exec (.registerWrite (.hmask d i v)) s =
        .next (modDie d (fun x => { x with hmask := modAt (fun _ => v &&& 0x00FFFFFFFFFFE000) i x.hmask }) s))) ∧
  (∀ ctx m s, (homeMapOk m = false → exec (.registerWrite (.homeMap ctx m)) s = .next s) ∧
    (homeMapOk m = true → (s.ctx? ctx).isSome = true → fixedHomes s ctx = [] → (∀ e ∈ allLeaves s, e.1 ≠ ctx) →
      ∃ r, exec (.registerWrite (.homeMap ctx m)) s = .next r ∧ (r.ctx ctx).spec = { (s.ctx ctx).spec with homeMap := m }) ∧
    ∃ r, exec (.registerWrite (.homeMap ctx m)) s = .next r ∧ r = { s with ctxs := r.ctxs } ∧
      ∀ e ∈ fixedHomes s ctx, ∀ va ∈ granulesOf e.1 e.2, homeByMap (r.ctx ctx) va = homeByMap (s.ctx ctx) va) ∧
  (∀ i (d : Decoder) s, let w := Instr.registerWrite (.decoder i d.off d.len d.hpa d.port d.hdmH d.unshared)
    (16 ≤ i ∨ 2 ≤ d.port ∨ 2 ^ 48 < d.off + d.len ∨ d.off % 2 ^ 21 ≠ 0 ∨ d.len % 2 ^ 21 ≠ 0 ∨ d.hpa % 2 ^ 21 ≠ 0 ∨
      (∃ j e, j ≠ i ∧ s.decoders[j]? = some e ∧ (overlaps d.off d.len e.off e.len ∨ overlaps d.hpa d.len e.hpa e.len)) →
      exec w s = .next s) ∧
    (i < 16 → d.port < 2 → d.off + d.len ≤ 2 ^ 48 → d.off % 2 ^ 21 = 0 → d.len % 2 ^ 21 = 0 → d.hpa % 2 ^ 21 = 0 →
      (∀ j e, j ≠ i → s.decoders[j]? = some e → overlaps d.off d.len e.off e.len = false ∧ overlaps d.hpa d.len e.hpa e.len = false) →
      ∃ r, exec w s = .next r ∧ r.decoders[i]? = some d ∧ (∀ j, j ≠ i → j < s.decoders.length → r.decoders[j]? = s.decoders[j]?) ∧
        r.rmap.length = s.rmap.length ∧
        (∀ c ∈ r.ctls, ∀ e ∈ c.tlb, ∃ g ∈ granulesOf 0 (pageSize e.2.2), leafCovers r e.2.2 (e.2.1 + g) = true) ∧
        (s.peers = [] → r.items = s.items ∧ r.peers = []) ∧
        r = { s with decoders := r.decoders, rmap := r.rmap, ctls := r.ctls, items := r.items, peers := r.peers })) ∧
  (∀ p (cores : List Nat) ctx s, p < 80 → 2 ≤ cores.length → cores.Nodup → (∀ c ∈ cores, c < 160) →
    (∀ q x, q ≠ p → s.parts[q]? = some x → ∀ c ∈ cores, c ∉ x.cores) →
    (∀ c, ctx = some c → ∃ x, s.ctx? c = some x ∧ x.halted = false) → partBlocks s (s.parts.getD p emptyPartition) = [] →
    (∀ c, (s.parts.getD p emptyPartition).ctx = some c → copyInFlight s c = false) →
    ∃ r, exec (.registerWrite (.partition p cores ctx)) s = .next r ∧ r.parts[p]? = some ⟨cores, ctx, none, false, none⟩ ∧
      (∀ q, q ≠ p → q < s.parts.length → r.parts[q]? = s.parts[q]?) ∧ r = { s with parts := r.parts }) ∧
  (∀ p cores ctx s, 80 ≤ p ∨ cores.length < 2 ∨ partBlocks s (s.parts.getD p emptyPartition) ≠ [] ∨
      (∃ c, (s.parts.getD p emptyPartition).ctx = some c ∧ copyInFlight s c = true) →
    exec (.registerWrite (.partition p cores ctx)) s = .next s) ∧
  (∀ l s, exec (.registerWrite (.ptes l)) s = .next (mmWrite false l s)) ∧
  (∀ loose l s, (Canonical s → Canonical (mmWrite loose l s)) ∧
    (l = [] → mmWrite loose l s = s) ∧
    (l ≠ [] → (∀ e ∈ l, e.1 % 8 = 0 ∧ entryOk e.2.toNat = true) → tablesOk loose s (writePtes l s) = true →
      (mmWrite loose l s).pmem = (writePtes l s).pmem ∧
      ∀ c ∈ (mmWrite loose l s).ctls, ∀ e ∈ c.tlb, leafAt (mmWrite loose l s) e.1 e.2.1 = some e.2.2) ∧
    ((∃ e ∈ l, e.1 % 8 ≠ 0 ∨ entryOk e.2.toNat = false) ∨ tablesOk loose s (writePtes l s) = false → mmWrite loose l s = s) ∧
    mmWrite loose l s = { s with pmem := (mmWrite loose l s).pmem, ctxs := (mmWrite loose l s).ctxs, ctls := (mmWrite loose l s).ctls }) ∧
  (∀ ctx va n s, deviceHeld s ctx va n = false → hostReaches s ctx va n = true → deviceBad s ctx va n = none → (s.ctx ctx).regions = [] →
    ∃ r, exec (.hostMemoryAccess (.read ctx va n)) s = .next r ∧ r.plat.out = s.plat.out ++ [.bytes (sysRead s ctx va n)] ∧
      r = { s with plat := r.plat, ctls := r.ctls, walks := r.walks, now := s.now + 1 }) ∧
  (∀ ctx va n a s, deviceHeld s ctx va n = false → hostReaches s ctx va n = true → deviceBad s ctx va n = some a →
    exec (.hostMemoryAccess (.read ctx va n)) s =
      .next (reply (.bytes []) (raiseContext (ctlSource (ctlFor s ctx a)) 0x1A ctx a id s))) ∧
  (∀ ctx va (bytes : List Byte) s, deviceHeld s ctx va bytes.length = false → hostReaches s ctx va bytes.length = true →
    deviceBad s ctx va bytes.length = none → (s.ctx ctx).regions = [] →
    ∃ r, exec (.hostMemoryAccess (.write ctx va bytes)) s = .next r ∧
      (∀ key, newestByte r key = if ctx * 2 ^ 56 + va ≤ key ∧ key < ctx * 2 ^ 56 + va + bytes.length
        then bytes.getD (key - (ctx * 2 ^ 56 + va)) 0 else newestByte s key) ∧
      r = { s with items := r.items, lines := r.lines, cores := r.cores, ctls := r.ctls, walks := r.walks, now := s.now + 1 })

/-! ### Decoding and stepping -/

/-- Words written out from the encoding tables decode to the instructions they stand for: the base `IADD v10, v10, 3`, a
guarded `FFMA`, `XOR` with a literal, `X.ZZD`; a reserved OPC6, a nonzero reserved bit and a reserved OP are refused. -/
def Obligations.DecodesTheWords : Prop :=
  decode (wordBytes 0x0C140A08) = .ok (.iaddBase 3 10 10) [] ∧
  decode (wordBytes 0x000A0129 ++ wordBytes 0x0034180B ++ wordBytes 0x00000600) =
    .ok (.ffma { baseFields with rd := 10, ra := 11, rb := 12, rc := 13, g1 := 3 }) [] ∧
  decode (wordBytes 0x001B00CF ++ wordBytes 0x0003FE1B ++ wordBytes 0 ++ wordBytes 1 ++ wordBytes 0) =
    .ok (.xor { baseFields with rd := 27, ra := 27, rb := 0x1FF, lit := some 1 }) [] ∧
  decodeX 0x66500000 = some (.xZzd 4 5) ∧
  decode (wordBytes 0x00000030) = .bad .reservedOpcode ∧ decode (wordBytes 0x00000100) = .bad .reservedBits ∧
  decodeX 0x68000000 = none

/-- DECODING AND ENCODING ARE INVERSES, for every instruction and every value of its operands that the spec allows: the
decoder reads an encoded instruction back and leaves the rest; what it accepts is legal and has that one encoding, of the
length that LEN gives. -/
def Obligations.DecodeInvertsEncode : Prop :=
  (∀ i rest, i.isTorile = true → legal i = true → decode (encode i ++ rest) = .ok i rest) ∧
  (∀ i, i.isFitas = true → legal i = true → ∃ w, encode i = wordBytes w ∧ decodeX w = some i) ∧
  (∀ bs i rest, decode bs = .ok i rest → i.isTorile = true ∧ legal i = true ∧ bs = encode i ++ rest ∧
    ∃ w0 r, takeWord bs = some (w0, r) ∧ bs.length = lenOf w0 + rest.length) ∧
  (∀ w i, decodeX w = some i → i.isFitas = true ∧ legal i = true ∧ encode i = wordBytes w)

/-- A STEP RUNS THE DECODED INSTRUCTION. The next turn is the head of the agenda, but for a sub-core with an instruction to
issue that comes before it, an event that comes before the issue (the completion of the launch whose gate a `GATE` passes, of the
instance that an `MWAIT` waits for, what readies the candidate of a swap), and an event of the cycle that precedes (that all of a turn's
order is one sequence is log 1; that the bytes at the pc are the newest at system scope is log 8). Where nothing is due before the turn, the issue slot of a sub-core runs the
instruction that the bytes at the pc of the group it picks decode to, the group and the length noted; a turn of a Fitas
run executes the word at its pc; a turn of an event executes the event. -/
def Obligations.StepRunsTheDecodedInstruction : Prop :=
  (∀ s c u rest, s.agenda = .issue c u :: rest → issueFirst s (.issue c u) = none →
    eventBefore 1 s (.issue c u) (eventsOf rest) = none → nextTurn s = (.issue c u, rest)) ∧
  (∀ s t v rest, s.agenda = t :: rest → issueFirst s t = some v → eventBefore 1 s v (eventsOf rest) = none →
    nextTurn s = (v, t :: rest)) ∧
  (∀ s c u rest x pc i len, nextTurn s = (.issue c u, rest) → dueBefore (.issue c u) s = none →
    let s0 := { s with agenda := rest }
    slotOf s0 c u = some (x, pc) → fetch s0 x.1 pc = .ok i len →
    step s = exec i { noteSlot c u x pc s0 with cur := curOf s0 x pc len }) ∧
  (∀ s b (pc : DWord) i r,
    let l := s.launchOf b
    let len := lenOf (BitVec.ofNat 32 (leNat (sysRead s l.ctx pc.toNat 4)))
    fetchFaults s l (len / 4) pc.toNat = none → decode (sysRead s l.ctx pc.toNat len) = .ok i r →
    fetch s b pc = .ok i len) ∧
  (∀ s n rest r i, s.agenda = .fitas n :: rest → s.runs[n]? = some r → r.fin = none → r.taken = false →
    s.plat.winter = .running → decodeX (r.insns.getD r.pc 0) = some i → (xNext r).fin ≠ some .over →
    step s = exec i { s with agenda := rest, cur := { s.cur with run := n } }) ∧
  (∀ s i rest, s.agenda = .event i :: rest → issueFirst s (.event i) = none → eventBefore 1 s (.event i) (eventsOf rest) = none →
    (∀ y ∈ eventsOf rest, precedes s y i = true → changes s (.event y) = false) → nextTurn s = (.event i, rest)) ∧
  (∀ s i rest, nextTurn s = (.event i, rest) → dueBefore (.event i) s = none → i.isTorile = false → i.isFitas = false →
    powered i s = true → step s = exec i { s with agenda := rest })

/-! ### Memory -/

/-- Reading after writing, of every memory of the machine: a byte written reads as what was written, every other byte as
before, the canonical form is kept, and two canonical memories that read alike are equal. -/
def Obligations.MemoryReadAfterWrite : Prop :=
  (∀ (m : Memory) a (bs : List Byte), Memory.wf m → Memory.wf (memWrite m a bs) ∧
    ∀ x, memGet (memWrite m a bs) x = if a ≤ x ∧ x < a + bs.length then bs.getD (x - a) 0 else memGet m x) ∧
  (∀ m n : Memory, Memory.wf m → Memory.wf n → (∀ a, memGet m a = memGet n a) → m = n) ∧
  (∀ ctx va (bs : List Byte) s key, newestByte (sysWrite ctx va bs s) key =
    if ctx * 2 ^ 56 + va ≤ key ∧ key < ctx * 2 ^ 56 + va + bs.length then bs.getD (key - (ctx * 2 ^ 56 + va)) 0
    else newestByte s key)

/-- THE MEMORIES STAY CANONICAL: a step from any state whose memories are in canonical form leaves them so. -/
def Obligations.StepKeepsCanonical : Prop := ∀ s t, Canonical s → step s = .next t → Canonical t

/-- The memories of the machine right after reset are in canonical form. -/
def Obligations.ResetIsCanonical : Prop := Canonical State.reset
end

