-- ==== Sys2Proof/Laws/Lists.lean ====
section
/-!
SUPPORT. Lists: what `modAt`, `modIf` and a fold leave.
-/

namespace Sys2Proof.Machine

theorem modAt_length {α : Type} (f : α → α) (n : Nat) (l : List α) : (modAt f n l).length = l.length := by
  induction l generalizing n with
  | nil => simp [modAt]
  | cons a r ih => cases n <;> simp [modAt, ih]

theorem modAt_getD_self {α : Type} (f : α → α) (d : α) (n : Nat) (l : List α) (h : n < l.length) :
    (modAt f n l).getD n d = f (l.getD n d) := by
  induction l generalizing n with
  | nil => simp at h
  | cons a r ih =>
    cases n with
    | zero => simp [modAt]
    | succ n => simpa [modAt] using ih n (by simpa using h)

theorem modAt_getD_ne {α : Type} (f : α → α) (d : α) (n m : Nat) (l : List α) (h : m ≠ n) :
    (modAt f n l).getD m d = l.getD m d := by
  induction l generalizing n m with
  | nil => simp [modAt]
  | cons a r ih =>
    cases n with
    | zero => cases m with
      | zero => exact absurd rfl h
      | succ m => simp [modAt]
    | succ n => cases m with
      | zero => simp [modAt]
      | succ m => simpa [modAt] using ih n m (by omega)

theorem modAt_beyond {α : Type} (f : α → α) (n : Nat) (l : List α) (h : l.length ≤ n) : modAt f n l = l := by
  induction l generalizing n with
  | nil => simp [modAt]
  | cons a r ih =>
    cases n with
    | zero => simp at h
    | succ n => simp [modAt, ih n (by simpa using h)]

theorem modAt_getElem? {α : Type} (f : α → α) (n m : Nat) (l : List α) :
    (modAt f n l)[m]? = if m = n then l[m]?.map f else l[m]? := by
  induction l generalizing n m with
  | nil => simp [modAt]
  | cons a r ih =>
    cases n <;> cases m <;> simp [modAt, ih]

theorem mem_modAt {α : Type} (f : α → α) (n : Nat) (l : List α) (a : α) (h : a ∈ modAt f n l) :
    a ∈ l ∨ ∃ x ∈ l, a = f x := by
  induction l generalizing n with
  | nil => simp [modAt] at h
  | cons x r ih =>
    cases n with
    | zero =>
      simp only [modAt, List.mem_cons] at h
      rcases h with rfl | h
      · exact .inr ⟨x, by simp, rfl⟩
      · exact .inl (by simp [h])
    | succ n =>
      simp only [modAt, List.mem_cons] at h
      rcases h with rfl | h
      · exact .inl (by simp)
      · rcases ih n h with h | ⟨y, hy, rfl⟩
        · exact .inl (by simp [h])
        · exact .inr ⟨y, by simp [hy], rfl⟩

theorem mem_modIf {α : Type} (p : α → Bool) (f : α → α) (l : List α) (a : α) (h : a ∈ modIf p f l) :
    a ∈ l ∨ ∃ x ∈ l, a = f x := by
  simp only [modIf, List.mem_map] at h
  obtain ⟨x, hx, rfl⟩ := h
  split
  · exact .inr ⟨x, hx, rfl⟩
  · exact .inl hx

/-- What a fold keeps. -/
theorem foldl_keeps {α β : Type} (p : α → Prop) (f : α → β → α) (hf : ∀ a b, p a → p (f a b)) (l : List β) (a : α)
    (h : p a) : p (l.foldl f a) := by
  induction l generalizing a with
  | nil => exact h
  | cons b r ih => exact ih _ (hf _ _ h)

theorem modAt_modAt {α : Type} (f g : α → α) (n : Nat) (l : List α) : modAt f n (modAt g n l) = modAt (f ∘ g) n l := by
  induction l generalizing n with
  | nil => simp [modAt]
  | cons a r ih => cases n <;> simp [modAt, ih]

/-! ### Parts of the state -/

theorem modBlock_modBlock (b : Nat) (f g : Block → Block) (s : State) : modBlock b f (modBlock b g s) = modBlock b (f ∘ g) s := by
  simp [modBlock, modAt_modAt]

theorem modThread_modThread (b t : Nat) (f g : Thread → Thread) (s : State) :
    modThread b t f (modThread b t g s) = modThread b t (f ∘ g) s := by
  unfold modThread
  rw [modBlock_modBlock]
  congr 1
  funext k
  simp [modAt_modAt]

/-- A change of a block that leaves its threads alone commutes with a change of a thread. -/
theorem modBlock_modThread (b t : Nat) (k : Block → Block) (f : Thread → Thread) (s : State)
    (hk : ∀ x ths, k { x with threads := ths } = { k x with threads := ths }) :
    modBlock b k (modThread b t f s) = modThread b t f (modBlock b k s) := by
  unfold modThread
  rw [modBlock_modBlock, modBlock_modBlock]
  congr 1
  funext x
  have hx : (k x).threads = x.threads := by
    have h := congrArg Block.threads (hk x x.threads)
    exact h
  show k { x with threads := modAt f t x.threads } = { k x with threads := modAt f t (k x).threads }
  rw [hk, hx]

theorem block_modBlock (b : Nat) (f : Block → Block) (s : State) (h : b < s.blocks.length) :
    (modBlock b f s).block b = f (s.block b) := modAt_getD_self f default b s.blocks h

theorem block_modBlock_ne (b c : Nat) (f : Block → Block) (s : State) (h : c ≠ b) : (modBlock b f s).block c = s.block c :=
  modAt_getD_ne f default b c s.blocks h

theorem modBlock_count (b : Nat) (f : Block → Block) (s : State) : (modBlock b f s).blocks.length = s.blocks.length :=
  modAt_length f b s.blocks

theorem thread_modThread (b t : Nat) (f : Thread → Thread) (s : State) (hb : b < s.blocks.length)
    (ht : t < (s.block b).threads.length) : (modThread b t f s).thread b t = f (s.thread b t) := by
  unfold State.thread modThread
  rw [block_modBlock _ _ _ hb]
  exact modAt_getD_self f default t _ ht

theorem thread_modThread_ne (b t u : Nat) (f : Thread → Thread) (s : State) (h : u ≠ t) :
    (modThread b t f s).thread b u = s.thread b u := by
  unfold State.thread modThread
  by_cases hb : b < s.blocks.length
  · rw [block_modBlock _ _ _ hb]
    exact modAt_getD_ne f default t u _ h
  · rw [modBlock, modAt_beyond _ _ _ (by omega)]

end Sys2Proof.Machine
end

