-- ==== Sys2Proof/Laws/Lanes.lean ====
section
/-!
SUPPORT. The shared execution of lane instructions: what it answers when nothing stops or holds the group.
-/

namespace Sys2Proof.Machine

open Sys2Proof

/-! ### The faults and waits of an unhindered group -/

theorem groupFaults_nil {i : Instr} {s : State} {faultOf : State → Nat → Nat → Option (Nat × Nat)} (h : Unhindered i s)
    (hf : OnAll i s fun t => faultOf s s.cur.block t = none) : groupFaults i faultOf s = [] := by
  unfold groupFaults
  simp only [List.filterMap_eq_nil_iff]
  intro t ht
  obtain ⟨hg, hw⟩ := h.2.2 t ht
  cases hon : threadGuard i s s.cur.block t with
  | false => simp [hg]
  | true => simp [hg, (hw hon).1, (hw hon).2, hf t ht hon]

theorem waits_none {i : Instr} {s : State} (h : Unhindered i s) :
    s.cur.tids.filter (fun t => !threadWaits i s s.cur.block s.cur.tids t) = s.cur.tids := by
  rw [List.filter_eq_self]
  intro t ht
  cases hon : threadGuard i s s.cur.block t with
  | false => simp [threadWaits, hon]
  | true => simp [((h.2.2 t ht).2 hon).2]

/-- THE SHARED EXECUTION, unhindered and without a fault: every thread of the group goes on. -/
theorem laneExecBy_next {i : Instr} {s : State} {faultOf : State → Nat → Nat → Option (Nat × Nat)} (go : State → Nat → State)
    (h : Unhindered i s) (hf : OnAll i s fun t => faultOf s s.cur.block t = none) :
    laneExecBy i faultOf go s = .next (noteIssue (fieldsOf i).1.yld (s.cur.tids.foldl go s)) := by
  unfold laneExecBy
  have h1 := groupFaults_nil h hf
  have h2 := waits_none h
  have h3 := h.2.1
  have h4 := h.1.2.1
  simp [h1, h2, h3, h4]

theorem laneExec_next {i : Instr} {s : State} {faultOf : State → Nat → Nat → Option (Nat × Nat)}
    (act : Nat → Nat → State → State) (h : Unhindered i s) (hf : OnAll i s fun t => faultOf s s.cur.block t = none) :
    laneExec i faultOf act s = .next (noteIssue (fieldsOf i).1.yld (s.cur.tids.foldl (goThread i act) s)) :=
  laneExecBy_next _ h hf

/-! ### The state while the lanes of a group go on -/

/-- After the threads of `done` have gone on: each became `g tid`, the rest is as before but for what `h` did to the
block. -/
structure Midway (g : Nat → Thread) (h : Block → Block) (s : State) (done : List Nat) (m : State) : Prop where
  rest : m = { s with blocks := m.blocks }
  count : m.blocks.length = s.blocks.length
  others : ∀ b, b ≠ s.cur.block → m.block b = s.block b
  own : ∃ ths, ths.length = (s.block s.cur.block).threads.length ∧
    m.block s.cur.block = { h (s.block s.cur.block) with threads := ths }
  group : ∀ t ∈ done, m.thread s.cur.block t = g t
  threads : ∀ t, t ∉ done → m.thread s.cur.block t = s.thread s.cur.block t

theorem Midway.start (g : Nat → Thread) (s : State) : Midway g id s [] s :=
  ⟨rfl, rfl, fun _ _ => rfl, ⟨_, rfl, rfl⟩, by simp, by simp⟩

/-- One more thread: the block changes by `k`, then the thread becomes `g t`. -/
theorem Midway.more {g : Nat → Thread} {h : Block → Block} {s m : State} {done : List Nat} {t : Nat} (k : Block → Block)
    (hm : Midway g h s done m) (hb : s.cur.block < s.blocks.length) (ht : t < (s.block s.cur.block).threads.length)
    (hk : ∀ x ths, k { x with threads := ths } = { k x with threads := ths }) (f : Thread → Thread)
    (hf : t ∉ done → f (s.thread s.cur.block t) = g t) (hd : t ∉ done) :
    Midway g (k ∘ h) s (done ++ [t]) (modThread s.cur.block t f (modBlock s.cur.block k m)) := by
  obtain ⟨hr, hc, ho, ⟨ths, hl, hown⟩, hg, hth⟩ := hm
  have hb' : s.cur.block < m.blocks.length := by omega
  have hblk : (modBlock s.cur.block k m).block s.cur.block = { k (h (s.block s.cur.block)) with threads := ths } := by
    rw [block_modBlock _ _ _ hb', hown, hk]
  have hlen : t < ((modBlock s.cur.block k m).block s.cur.block).threads.length := by rw [hblk]; simpa [hl] using ht
  have hb'' : s.cur.block < (modBlock s.cur.block k m).blocks.length := by rw [modBlock_count]; exact hb'
  have hsame : ∀ u, (modBlock s.cur.block k m).thread s.cur.block u = m.thread s.cur.block u := by
    intro u; simp only [State.thread, hblk, hown]
  refine ⟨?_, ?_, ?_, ?_, ?_, ?_⟩
  · show ({ m with blocks := _ } : State) = _
    rw [hr]; rfl
  · show (modBlock _ _ (modBlock _ _ _)).blocks.length = _
    rw [modBlock_count, modBlock_count, hc]
  · intro b hne
    show (modBlock _ _ (modBlock _ _ _)).block b = _
    rw [block_modBlock_ne _ _ _ _ hne, block_modBlock_ne _ _ _ _ hne, ho b hne]
  · refine ⟨modAt f t ths, by rw [modAt_length, hl], ?_⟩
    show (modBlock _ _ (modBlock _ _ _)).block _ = _
    rw [block_modBlock _ _ _ hb'', hblk]; rfl
  · intro u hu
    rw [List.mem_append, List.mem_singleton] at hu
    by_cases hut : u = t
    · subst hut
      rw [thread_modThread _ _ _ _ hb'' hlen, hsame, hth u hd, hf hd]
    · rw [thread_modThread_ne _ _ _ _ _ hut, hsame]
      exact hg u (hu.resolve_right hut)
  · intro u hu
    rw [List.mem_append, List.mem_singleton, not_or] at hu
    rw [thread_modThread_ne _ _ _ _ _ hu.2, hsame, hth u hu.1]

/-- The fold over the group: each thread changes the block by `k t` and itself by `f t`, whatever went before. -/
theorem Midway.fold {g : Nat → Thread} {s : State} (go : State → Nat → State) (k : Nat → Block → Block)
    (q : (Block → Block) → Prop) (hb : s.cur.block < s.blocks.length)
    (hk : ∀ t x ths, k t { x with threads := ths } = { k t x with threads := ths }) :
    ∀ (l : List Nat) (h : Block → Block) (done : List Nat) (m : State), Midway g h s done m → q h → l.Nodup →
      (∀ t ∈ l, ∀ h, q h → q (k t ∘ h)) →
      (∀ t ∈ l, t ∉ done) → (∀ t ∈ l, t < (s.block s.cur.block).threads.length) →
      (∀ t ∈ l, ∀ (h : Block → Block) (done : List Nat) (m : State), Midway g h s done m → q h → t ∉ done →
        ∃ f : Thread → Thread,
          go m t = modThread s.cur.block t f (modBlock s.cur.block (k t) m) ∧ f (s.thread s.cur.block t) = g t) →
      Midway g (fun x => l.foldl (fun x t => k t x) (h x)) s (done ++ l) (l.foldl go m) := by
  intro l
  induction l with
  | nil => intro h done m hm _ _ _ _ _ _; simpa using hm
  | cons t r ih =>
    intro h done m hm hqh hn hq hd hl hgo
    rw [List.nodup_cons] at hn
    obtain ⟨f, hf1, hf2⟩ := hgo t (by simp) h done m hm hqh (hd t (by simp))
    have hm' := hm.more (k t) hb (hl t (by simp)) (hk t) f (fun _ => hf2) (hd t (by simp))
    rw [← hf1] at hm'
    have := ih (k t ∘ h) (done ++ [t]) (go m t) hm' (hq t (by simp) h hqh) hn.2 (fun u hu => hq u (by simp [hu])) (by
      intro u hu hmem
      rw [List.mem_append, List.mem_singleton] at hmem
      rcases hmem with hmem | rfl
      · exact hd u (by simp [hu]) hmem
      · exact hn.1 hu) (fun u hu => hl u (by simp [hu])) (fun u hu => hgo u (by simp [hu]))
    simpa using this

/-! ### The bookkeeping of the issue -/

theorem noteIssue_group {g : Nat → Thread} {h : Block → Block} {s m : State} (yld : Bool)
    (hb : s.cur.block < s.blocks.length)
    (hm : Midway g h s s.cur.tids m) (hi : (h (s.block s.cur.block)).issues = (s.block s.cur.block).issues) :
    GroupStep g h s (noteIssue yld m) := by
  obtain ⟨hr, hc, ho, ⟨ths, hl, hown⟩, hg, hth⟩ := hm
  have hcur : m.cur = s.cur := by rw [hr]
  have hb' : s.cur.block < m.blocks.length := by omega
  have hblk : ∃ pws, (noteIssue yld m).block s.cur.block =
      { h (s.block s.cur.block) with threads := ths, pwaves := pws, issues := (s.block s.cur.block).issues + 1 } := by
    unfold noteIssue
    simp only [hcur]
    rw [block_modBlock _ _ _ hb', hown]
    exact ⟨_, by rw [← hi]⟩
  obtain ⟨pws, hblk⟩ := hblk
  have hthr : ∀ u, (noteIssue yld m).thread s.cur.block u = m.thread s.cur.block u := by
    intro u; simp only [State.thread, hblk, hown]
  refine ⟨?_, ?_, ?_, ⟨ths, pws, hblk⟩, ?_, ?_⟩
  · obtain ⟨bl, rfl⟩ : ∃ bl, m = { s with blocks := bl } := ⟨_, hr⟩
    rfl
  · unfold noteIssue; dsimp only; rw [modBlock_count, hc]
  · intro b hne
    unfold noteIssue; dsimp only
    rw [block_modBlock_ne _ _ _ _ (by rw [hcur]; exact hne), ho b hne]
  · intro u hu; rw [hthr, hg u hu]
  · intro u hu; rw [hthr, hth u hu]

/-! ### Lane instructions whose lanes touch only themselves and their block -/

/-- What a lane finds when its turn comes: its own thread has passed the instruction, and of the rest of the machine
only the threads of the block, and what `h` did to it, differ from the start. -/
structure Found (h : Block → Block) (s : State) (t : Nat) (m : State) : Prop where
  rest : m = { s with blocks := m.blocks }
  count : m.blocks.length = s.blocks.length
  others : ∀ b, b ≠ s.cur.block → m.block b = s.block b
  own : ∃ ths, m.block s.cur.block = { h (s.block s.cur.block) with threads := ths }
  self : m.thread s.cur.block t = passed s t

theorem Midway.found {g : Nat → Thread} {h : Block → Block} {s m : State} {done : List Nat} {t : Nat}
    (hm : Midway g h s done m) (hb : s.cur.block < s.blocks.length) (ht : t < (s.block s.cur.block).threads.length)
    (hd : t ∉ done) :
    Found h s t (modThread s.cur.block t (fun th => stampThread s.cur.cyc (advancePc s.cur.len th)) m) := by
  obtain ⟨hr, hc, ho, ⟨ths, hl, hown⟩, hg, hth⟩ := hm
  have hb' : s.cur.block < m.blocks.length := by omega
  refine ⟨?_, ?_, ?_, ?_, ?_⟩
  · obtain ⟨bl, rfl⟩ : ∃ bl, m = { s with blocks := bl } := ⟨_, hr⟩
    rfl
  · show (modBlock _ _ _).blocks.length = _
    rw [modBlock_count, hc]
  · intro b hne
    show (modBlock _ _ _).block b = _
    rw [block_modBlock_ne _ _ _ _ hne, ho b hne]
  · refine ⟨modAt (fun th => stampThread s.cur.cyc (advancePc s.cur.len th)) t ths, ?_⟩
    show (modBlock _ _ _).block _ = _
    rw [block_modBlock _ _ _ hb', hown]
  · rw [thread_modThread _ _ _ _ hb' (by rw [hown]; simpa [hl] using ht), hth t hd]
    rfl

/-- THE LANES GO ON: where a lane's action is a change `f t` of its thread after a change `k t` of its block, which the
changes before it satisfied `q`. -/
theorem laneExec_group {i : Instr} {s : State} {faultOf : State → Nat → Nat → Option (Nat × Nat)}
    {act : Nat → Nat → State → State} (f : Nat → Thread → Thread) (k : Nat → Block → Block) (q : (Block → Block) → Prop)
    (h : Unhindered i s) (hf : OnAll i s fun t => faultOf s s.cur.block t = none)
    (hk : ∀ t x ths, k t { x with threads := ths } = { k t x with threads := ths })
    (hi : ∀ t x, (k t x).issues = x.issues) (hq0 : q id) (hq : ∀ t h, q h → q (k t ∘ h))
    (hact : OnAll i s fun t => ∀ h m, q h → Found h s t m →
      act s.cur.block t m = modThread s.cur.block t (f t) (modBlock s.cur.block (k t) m)) :
    ∃ t, laneExec i faultOf act s = .next t ∧
      GroupStep (guarded i f s) (fun x => (onTids i s).foldl (fun x t => k t x) x) s t := by
  refine ⟨_, laneExec_next act h hf, ?_⟩
  obtain ⟨⟨hb, -, hn, hl⟩, -, -⟩ := h
  let k' : Nat → Block → Block := fun t x => if threadGuard i s s.cur.block t then k t x else x
  have hk' : ∀ t x ths, k' t { x with threads := ths } = { k' t x with threads := ths } := by
    intro t x ths; simp only [k']; split
    · exact hk t x ths
    · rfl
  have hfold : ∀ (l : List Nat) (x : Block), l.foldl (fun x t => k' t x) x =
      (l.filter fun t => threadGuard i s s.cur.block t).foldl (fun x t => k t x) x := by
    intro l
    induction l with
    | nil => intro x; rfl
    | cons a r ih =>
      intro x
      rw [List.foldl_cons, ih, List.filter_cons]
      by_cases ha : threadGuard i s s.cur.block a
      · simp [k', ha]
      · simp [k', ha]
  have hiss : ∀ (l : List Nat) (x : Block), (l.foldl (fun x t => k t x) x).issues = x.issues := by
    intro l
    induction l with
    | nil => intro x; rfl
    | cons a r ih => intro x; rw [List.foldl_cons, ih, hi]
  have hm := Midway.fold (g := guarded i f s) (s := s) (goThread i act) k' q hb hk' s.cur.tids id [] s (Midway.start _ s)
    hq0 hn (by
      intro t _ h hqh
      by_cases hg : threadGuard i s s.cur.block t
      · have : k' t = k t := by funext x; simp [k', hg]
        rw [this]; exact hq t h hqh
      · have : k' t ∘ h = h := by funext x; simp [k', hg]
        rw [this]; exact hqh)
    (by simp) (fun t ht => (hl t ht).1) (by
      intro t ht h' done m hm hqh hd
      have hr := hm.rest
      have hcur : m.cur = s.cur := by rw [hr]
      have hfound := hm.found hb (hl t ht).1 hd
      have hon : threadGuard i m s.cur.block t = threadGuard i s s.cur.block t := by
        unfold threadGuard; rw [hm.threads t hd]
      cases hg : threadGuard i s s.cur.block t with
      | false =>
        refine ⟨fun th => stampThread s.cur.cyc (advancePc s.cur.len th), ?_, by simp [guarded, hg, passed]⟩
        have hid : modBlock s.cur.block (k' t) m = m := by
          have : k' t = id := by funext x; simp [k', hg]
          rw [this]
          unfold modBlock
          have : modAt id s.cur.block m.blocks = m.blocks := by
            apply List.ext_getElem?
            intro n; rw [modAt_getElem?]; split <;> simp
          rw [this]
        unfold goThread
        simp only [hcur, hon, hg, hid]
        simp
      | true =>
        have ha := hact t ht hg h' _ hqh hfound
        refine ⟨f t ∘ fun th => stampThread s.cur.cyc (advancePc s.cur.len th), ?_, by simp [guarded, hg, passed]⟩
        have hkk : k' t = k t := by funext x; simp [k', hg]
        unfold goThread
        simp only [hcur, hon, hg, if_true]
        rw [ha, modBlock_modThread _ _ _ _ _ (hk t), modThread_modThread, hkk])
  rw [List.nil_append] at hm
  have hh : (fun x => s.cur.tids.foldl (fun x t => k' t x) (id x)) =
      fun x => (onTids i s).foldl (fun x t => k t x) x := by
    funext x; exact hfold _ x
  rw [hh] at hm
  exact noteIssue_group _ hb hm (hiss _ _)

theorem modBlock_id (b : Nat) (s : State) : modBlock b id s = s := by
  unfold modBlock
  have : modAt id b s.blocks = s.blocks := by
    apply List.ext_getElem?
    intro n; rw [modAt_getElem?]; split <;> simp
  rw [this]

/-- The usual form: only threads change. -/
theorem laneExec_threads {i : Instr} {s : State} {faultOf : State → Nat → Nat → Option (Nat × Nat)}
    {act : Nat → Nat → State → State} (f : Nat → Thread → Thread) (h : Unhindered i s)
    (hf : OnAll i s fun t => faultOf s s.cur.block t = none)
    (hact : OnAll i s fun t => ∀ m, Found id s t m → act s.cur.block t m = modThread s.cur.block t (f t) m) :
    ∃ t, laneExec i faultOf act s = .next t ∧ LaneStep i f s t := by
  obtain ⟨t, ht, hs⟩ := laneExec_group (faultOf := faultOf) (act := act) f (fun _ => id) (fun h => h = id) h hf
    (fun _ _ _ => rfl) (fun _ _ => rfl) rfl (fun _ _ h => h) (by
      intro t ht hg h' m hq hm
      subst hq
      rw [modBlock_id]
      exact hact t ht hg m hm)
  refine ⟨t, ht, ?_⟩
  have hfix : (fun x : Block => (onTids i s).foldl (fun (x : Block) (_ : Nat) => id x) x) = id := by
    funext x
    generalize onTids i s = l
    induction l generalizing x with
    | nil => rfl
    | cons a r ih => exact ih x
  rw [hfix] at hs
  exact hs

/-- What the system instance sees does not depend on blocks. -/
theorem visStep_sys (s t : State) (x : Item) : visStep t x .sys = visStep s x .sys := by
  have h : ∀ k, instWithin t .sys k = instWithin s .sys k := by intro k; cases k <;> simp [instWithin]
  unfold visStep
  simp only [h]

theorem sysByte_congr {s t : State} (hi : t.items = s.items) (hm : t.mem = s.mem) (hn : t.now = s.now) (key : Nat) :
    sysByte t key = sysByte s key := by
  unfold sysByte granValue newestIn visibleAt
  simp only [visStep_sys s t, hi, hm, hn]

theorem newestByte_congr {s t : State} (hi : t.items = s.items) (hm : t.mem = s.mem) (key : Nat) :
    newestByte t key = newestByte s key := by
  unfold newestByte granValue
  simp only [hi, hm]

/-- Memory reads as before where only threads of the current block change. -/
theorem GroupStep.memory {g : Nat → Thread} {h : Block → Block} {s t : State} (hs : GroupStep g h s t)
    (hh : (h (s.block s.cur.block)).scratch = (s.block s.cur.block).scratch) : MemorySame s t := by
  obtain ⟨hr, hc, ho, ⟨ths, pws, hown⟩, hg, hth⟩ := hs
  refine ⟨newestByte_congr (by rw [hr]) (by rw [hr]), sysByte_congr (by rw [hr]) (by rw [hr]) (by rw [hr]),
    fun a => by rw [hr], ?_⟩
  intro b a
  by_cases hb : b = s.cur.block
  · subst hb; rw [hown]; simp [hh]
  · rw [ho b hb]

end Sys2Proof.Machine
end

