-- ==== Sys2Proof/Laws/Memory.lean ====
section
/-!
SUPPORT. The sparse maps that hold memory: every operation keeps the canonical form, and one write changes one key.
-/

namespace Sys2Proof.Machine

open Sys2Proof

/-! ### One entry -/

theorem mem_sset {α : Type} [DecidableEq α] {d : α} {k : Nat} {v : α} {m : Sparse α} {e : Nat × α} (h : e ∈ sset d k v m) :
    e ∈ m ∨ (e = (k, v) ∧ v ≠ d) := by
  induction m with
  | nil =>
    simp only [sset] at h
    split at h <;> simp_all
  | cons a r ih =>
    simp only [sset] at h
    split at h
    · split at h <;> simp_all
      rcases h with h | h | h <;> simp_all
    · split at h
      · split at h <;> simp_all
        rcases h with h | h <;> simp_all
      · simp only [List.mem_cons] at h ⊢
        rcases h with h | h
        · exact .inl (.inl h)
        · rcases ih h with h | h
          · exact .inl (.inr h)
          · exact .inr h

/-- A write keeps the canonical form. -/
theorem sset_wf {α : Type} [DecidableEq α] {d : α} (k : Nat) (v : α) {m : Sparse α} (h : SparseWf d m) :
    SparseWf d (sset d k v m) := by
  obtain ⟨hp, hd⟩ := h
  refine ⟨?_, ?_⟩
  · induction m with
    | nil =>
      simp only [sset]
      split <;> simp
    | cons a r ih =>
      obtain ⟨k', v'⟩ := a
      have hr := List.pairwise_cons.1 hp
      simp only [sset]
      split
      · rename_i hlt
        split
        · exact hp
        · refine List.pairwise_cons.2 ⟨?_, hp⟩
          intro e he
          rcases List.mem_cons.1 he with rfl | he
          · exact hlt
          · exact Nat.lt_trans hlt (hr.1 e he)
      · split
        · rename_i heq
          split
          · exact hr.2
          · exact List.pairwise_cons.2 ⟨fun e he => by have := hr.1 e he; simp_all, hr.2⟩
        · rename_i h1 h2
          refine List.pairwise_cons.2 ⟨?_, ih hr.2 (fun e he => hd e (List.mem_cons_of_mem _ he))⟩
          intro e he
          rcases mem_sset he with he | ⟨rfl, -⟩
          · exact hr.1 e he
          · show k' < k; omega
  · intro e he
    rcases mem_sset he with he | ⟨rfl, hv⟩
    · exact hd e he
    · exact hv

/-- Below the first key of a rising list every key reads as the default. -/
theorem sget_below {α : Type} {d : α} {k : Nat} {m : Sparse α} (h : ∀ e ∈ m, k < e.1) : sget d k m = d := by
  induction m with
  | nil => rfl
  | cons a r ih =>
    obtain ⟨k', v'⟩ := a
    have h1 := h _ (List.mem_cons_self ..)
    simp only [sget]
    rw [if_neg (by simp only at h1; omega)]
    exact ih fun e he => h e (List.mem_cons_of_mem _ he)

/-- A key reads as what was written to it, every other key as before. -/
theorem sget_sset {α : Type} [DecidableEq α] {d : α} (k x : Nat) (v : α) {m : Sparse α} (h : SparseWf d m) :
    sget d x (sset d k v m) = if x = k then v else sget d x m := by
  obtain ⟨hp, hd⟩ := h
  induction m with
  | nil =>
    simp only [sset]
    split <;> rename_i hv
    · subst hv; split <;> rfl
    · simp only [sget]
  | cons a r ih =>
    obtain ⟨k', v'⟩ := a
    have hr := List.pairwise_cons.1 hp
    have hi := ih hr.2 fun e he => hd e (List.mem_cons_of_mem _ he)
    simp only [sset]
    split
    · rename_i hlt
      split
      · rename_i hv
        split
        · rename_i hx
          subst hx hv
          refine sget_below fun e he => ?_
          rcases List.mem_cons.1 he with rfl | he
          · exact hlt
          · exact Nat.lt_trans hlt (hr.1 e he)
        · rfl
      · simp only [sget]
    · split
      · rename_i heq
        subst heq
        split
        · rename_i hv
          subst hv
          simp only [sget]
          split
          · rename_i hx
            subst hx
            exact sget_below hr.1
          · rfl
        · simp only [sget]
          split <;> rfl
      · rename_i h1 h2
        simp only [sget, hi]
        split
        · rename_i hx
          subst hx
          rw [if_neg (fun h => h2 h.symm)]
        · rfl

/-! ### Bytes -/

theorem memSet_wf (a : Nat) (v : Byte) {m : Memory} (h : Memory.wf m) : Memory.wf (memSet m a v) := sset_wf a v h

theorem memGet_memSet (a x : Nat) (v : Byte) {m : Memory} (h : Memory.wf m) :
    memGet (memSet m a v) x = if x = a then v else memGet m x := sget_sset a x v h

/-- A write of bytes keeps the canonical form. -/
theorem memWrite_wf (bs : List Byte) (a : Nat) {m : Memory} (h : Memory.wf m) : Memory.wf (memWrite m a bs) := by
  induction bs generalizing a m with
  | nil => exact h
  | cons b r ih => exact ih _ (memSet_wf a b h)

theorem memRead_length (m : Memory) (a n : Nat) : (memRead m a n).length = n := by
  induction n generalizing a with
  | zero => rfl
  | succ n ih => simp [memRead, ih]

/-- The memory right after reset is in canonical form. -/
theorem reset_mem_wf : Memory.wf State.reset.mem ∧ Memory.wf State.reset.pmem := by decide

end Sys2Proof.Machine
end

