-- ==== Sys2Proof/Laws/PerInstr.lean ====
section
/-!
SUPPORT. The family EncodeLength: what `encode` writes has the length that the LEN field of its first word gives (04
R95, Table 04.5); a Fitas instruction is one word (11 R208); a row without words encodes to nothing.
-/

namespace Sys2Proof.Laws.EncodeLength

open Sys2Proof Machine

def Statement (i : Instr) : Prop :=
  (i.isTorile = true → ∃ w r, takeWord (encode i) = some (w, r) ∧ lenOf w = (encode i).length) ∧
  (i.isFitas = true → (encode i).length = 4) ∧
  (i.isTorile = false → i.isFitas = false → encode i = [])

theorem takeWord_wordBytes (w : Word) (r : List Byte) : takeWord (wordBytes w ++ r) = some (w, r) := by
  simp only [wordBytes, takeWord, List.cons_append, List.nil_append, Option.some.injEq, Prod.mk.injEq, and_true]
  apply BitVec.eq_of_getLsbD_eq
  intro i hi
  simp only [wordOf, BitVec.getLsbD_append, BitVec.getLsbD_extractLsb']
  by_cases h1 : i < 8
  · simp [h1]
  by_cases h2 : i - 8 < 8
  · simp [h1, h2]; congr 1; omega
  by_cases h3 : i - 8 - 8 < 8
  · simp [h1, h2, h3]; congr 1; omega
  · simp [h1, h2, h3, show i - 8 - 8 - 8 < 8 by omega]; congr 1; omega

theorem len_append (x : BitVec 30) (l : BitVec 2) : (x ++ l : Word).extractLsb' 0 2 = l := by
  apply BitVec.eq_of_getLsbD_eq
  intro i hi
  rw [BitVec.getLsbD_extractLsb', BitVec.getLsbD_append]
  simp [hi]

/-- LEN of a word written with LEN in its low bits. -/
theorem lenOf_append (x : BitVec 30) (l : BitVec 2) :
    lenOf (x ++ l) = [4, 12, 12, 20].getD l.toNat 0 := by
  unfold lenOf
  rw [len_append]
  clear x
  revert l
  decide

theorem of_torile (i : Instr) (w : Word) (r : List Byte) (h : encode i = wordBytes w ++ r) (hx : i.isFitas = false)
    (ht : i.isTorile = true) (hl : lenOf w = 4 + r.length) : Statement i := by
  refine ⟨fun _ => ⟨w, r, ?_, ?_⟩, fun h' => ?_, fun h' => ?_⟩
  · rw [h, takeWord_wordBytes]
  · rw [h, hl]; simp [wordBytes]; omega
  · simp [hx] at h'
  · simp [ht] at h'

theorem of_word (i : Instr) (x : BitVec 30) (h : encode i = wordBytes (x ++ 0#2)) (hx : i.isFitas = false)
    (ht : i.isTorile = true) : Statement i :=
  of_torile i (x ++ 0#2) [] (by rw [h, List.append_nil]) hx ht (lenOf_append x 0#2)

theorem of_words (i : Instr) (x : BitVec 30) (a b : Word)
    (h : encode i = wordBytes (x ++ 2#2) ++ wordBytes a ++ wordBytes b) (hx : i.isFitas = false)
    (ht : i.isTorile = true) : Statement i :=
  of_torile i (x ++ 2#2) (wordBytes a ++ wordBytes b) (by rw [h, List.append_assoc]) hx ht (lenOf_append x 2#2)

theorem of_encodeE (i : Instr) (o : BitVec 8) (f : EFields) (h : encode i = encodeE o f) (hx : i.isFitas = false)
    (ht : i.isTorile = true) : Statement i := by
  unfold encodeE at h
  cases hl : f.lit with
  | none =>
    simp only [hl, List.append_nil, List.append_assoc] at h
    exact of_torile i _ _ h hx ht (by simpa [hl, wordBytes] using lenOf_append _ 1#2)
  | some l =>
    simp only [hl, List.append_assoc] at h
    exact of_torile i _ _ h hx ht (by simpa [hl, wordBytes] using lenOf_append _ 3#2)

theorem of_fitas (i : Instr) (w : Word) (h : encode i = wordBytes w) (ht : i.isTorile = false)
    (hx : i.isFitas = true) : Statement i := by
  refine ⟨fun h' => ?_, fun _ => ?_, fun _ h' => ?_⟩
  · simp [ht] at h'
  · rw [h]; rfl
  · simp [hx] at h'

theorem of_event (i : Instr) (h : encode i = []) (ht : i.isTorile = false) (hx : i.isFitas = false) : Statement i := by
  refine ⟨fun h' => ?_, fun h' => ?_, fun _ _ => h⟩
  · simp [ht] at h'
  · simp [hx] at h'

theorem tailDoorbell (q : Nat) (tail : BitVec 64) : Statement (.tailDoorbell q tail) := of_event _ rfl rfl rfl
theorem queueCreate (spec : QueueSpec) : Statement (.queueCreate spec) := of_event _ rfl rfl rfl
theorem queueResume (q : Nat) : Statement (.queueResume q) := of_event _ rfl rfl rfl
theorem launch (q : Nat) : Statement (.launch q) := of_event _ rfl rfl rfl
theorem launchDispatch (q n : Nat) (plan : MmPlan) : Statement (.launchDispatch q n plan) := of_event _ rfl rfl rfl
theorem copy (q : Nat) (plan : MmPlan) : Statement (.copy q plan) := of_event _ rfl rfl rfl
theorem copyChunk (c : Nat) : Statement (.copyChunk c) := of_event _ rfl rfl rfl
theorem signal (q : Nat) (plan : MmPlan) : Statement (.signal q plan) := of_event _ rfl rfl rfl
theorem tokclr (q : Nat) : Statement (.tokclr q) := of_event _ rfl rfl rfl
theorem map (q : Nat) (salvage : List (Nat × Nat)) (ptes : List (Nat × BitVec 64)) : Statement (.map q salvage ptes) :=
  of_event _ rfl rfl rfl
theorem launchCompletion (l : Nat) : Statement (.launchCompletion l) := of_event _ rfl rfl rfl
theorem blockPlacement (b : Nat) (places : List (Nat × Nat)) : Statement (.blockPlacement b places) :=
  of_event _ rfl rfl rfl
theorem placementReservation (b : Nat) : Statement (.placementReservation b) := of_event _ rfl rfl rfl
theorem blockRetirement (b : Nat) : Statement (.blockRetirement b) := of_event _ rfl rfl rfl
theorem waveActivation (core sub : Nat) : Statement (.waveActivation core sub) := of_event _ rfl rfl rfl
theorem waveSwap (core sub : Nat) : Statement (.waveSwap core sub) := of_event _ rfl rfl rfl
theorem starvationAdmission (core sub : Nat) : Statement (.starvationAdmission core sub) := of_event _ rfl rfl rfl
theorem issueRotation (core sub : Nat) : Statement (.issueRotation core sub) := of_event _ rfl rfl rfl
theorem groupIssueLimit (core sub : Nat) : Statement (.groupIssueLimit core sub) := of_event _ rfl rfl rfl
theorem leaseHalving (core : Nat) : Statement (.leaseHalving core) := of_event _ rfl rfl rfl
theorem meetingArrival (b w : Nat) (pc : BitVec 64) : Statement (.meetingArrival b w pc) := of_event _ rfl rfl rfl
theorem convergenceDeadlock (b w : Nat) : Statement (.convergenceDeadlock b w) := of_event _ rfl rfl rfl
theorem crossLaneFire (b w : Nat) (pc : BitVec 64) : Statement (.crossLaneFire b w pc) := of_event _ rfl rfl rfl
theorem producerCompletion (b t p : Nat) : Statement (.producerCompletion b t p) := of_event _ rfl rfl rfl
theorem waveTimerExpiry (b w : Nat) : Statement (.waveTimerExpiry b w) := of_event _ rfl rfl rfl
theorem mmaCapture (core : Nat) : Statement (.mmaCapture core) := of_event _ rfl rfl rfl
theorem mmaCompletion (core : Nat) : Statement (.mmaCompletion core) := of_event _ rfl rfl rfl
theorem tokenGrant (b tile : Nat) : Statement (.tokenGrant b tile) := of_event _ rfl rfl rfl
theorem tokenReturn (b w tile : Nat) : Statement (.tokenReturn b w tile) := of_event _ rfl rfl rfl
theorem acpTransferComplete (b id : Nat) : Statement (.acpTransferComplete b id) := of_event _ rfl rfl rfl
theorem tcopyComplete (b id : Nat) : Statement (.tcopyComplete b id) := of_event _ rfl rfl rfl
theorem storePerform (b t op : Nat) : Statement (.storePerform b t op) := of_event _ rfl rfl rfl
theorem loadSatisfy (b t op : Nat) (item : Option Nat) (early : Nat) : Statement (.loadSatisfy b t op item early) :=
  of_event _ rfl rfl rfl
theorem frontierAdvance (item : Nat) (wider : Nat) : Statement (.frontierAdvance item wider) := of_event _ rfl rfl rfl
theorem lineFill (b t op : Nat) (evict : List Nat) : Statement (.lineFill b t op evict) := of_event _ rfl rfl rfl
theorem pageWalk (die group ctx va : Nat) : Statement (.pageWalk die group ctx va) := of_event _ rfl rfl rfl
theorem pageMigration (die ctx va frame : Nat) : Statement (.pageMigration die ctx va frame) := of_event _ rfl rfl rfl
theorem controllerServe (ctl : Nat) (remap : RemapEvent) : Statement (.controllerServe ctl remap) :=
  of_event _ rfl rfl rfl
theorem budgetWindow (ctl : Nat) : Statement (.budgetWindow ctl) := of_event _ rfl rfl rfl
theorem blockFill (ctx region blk : Nat) : Statement (.blockFill ctx region blk) := of_event _ rfl rfl rfl
theorem blockEncode (ctx region blk : Nat) : Statement (.blockEncode ctx region blk) := of_event _ rfl rfl rfl
theorem stepBoundExceeded (run : Nat) : Statement (.stepBoundExceeded run) := of_event _ rfl rfl rfl
theorem recodeWalk (ctx region : Nat) : Statement (.recodeWalk ctx region) := of_event _ rfl rfl rfl
theorem codecLoad (src : SvcSource) : Statement (.codecLoad src) := of_event _ rfl rfl rfl
theorem codecBind (src : SvcSource) (ptes : List (Nat × BitVec 64)) : Statement (.codecBind src ptes) :=
  of_event _ rfl rfl rfl
theorem codecUnbind (src : SvcSource) (ptes : List (Nat × BitVec 64)) : Statement (.codecUnbind src ptes) :=
  of_event _ rfl rfl rfl
theorem regionInfo (src : SvcSource) : Statement (.regionInfo src) := of_event _ rfl rfl rfl
theorem slotInjection (ctx region blk off : Nat) (bytes : List (BitVec 8)) : Statement (.slotInjection ctx region blk off bytes) :=
  of_event _ rfl rfl rfl
theorem partitionStop (p : Nat) (plan : StopPlan) : Statement (.partitionStop p plan) := of_event _ rfl rfl rfl
theorem ehKillLaunch (l : Nat) : Statement (.ehKillLaunch l) := of_event _ rfl rfl rfl
theorem ehKillContext (ctx : Nat) : Statement (.ehKillContext ctx) := of_event _ rfl rfl rfl
theorem ehResumeContext (ctx : Nat) : Statement (.ehResumeContext ctx) := of_event _ rfl rfl rfl
theorem preemptionRequest (p d f : Nat) : Statement (.preemptionRequest p d f) := of_event _ rfl rfl rfl
theorem drainTimeout (p : Nat) : Statement (.drainTimeout p) := of_event _ rfl rfl rfl
theorem blockSave (b : Nat) : Statement (.blockSave b) := of_event _ rfl rfl rfl
theorem contextRestore (b : Nat) (places : List (Nat × Nat)) : Statement (.contextRestore b places) :=
  of_event _ rfl rfl rfl
theorem timingReplay (core : Nat) : Statement (.timingReplay core) := of_event _ rfl rfl rfl
theorem backInvalidationSnoop (sn : Snoop) : Statement (.backInvalidationSnoop sn) := of_event _ rfl rfl rfl
theorem linkExitL0 (port : Nat) : Statement (.linkExitL0 port) := of_event _ rfl rfl rfl
theorem linkRecoveryTimeout (port : Nat) : Statement (.linkRecoveryTimeout port) := of_event _ rfl rfl rfl
theorem poolRequestTimeout (port : Nat) : Statement (.poolRequestTimeout port) := of_event _ rfl rfl rfl
theorem regionRevalidate (ctx i : Nat) : Statement (.regionRevalidate ctx i) := of_event _ rfl rfl rfl
theorem poolAttach (port : Nat) (dev : PoolDevice) : Statement (.poolAttach port dev) := of_event _ rfl rfl rfl
theorem mailboxMessage (core : FwCore) (msg : Message) : Statement (.mailboxMessage core msg) := of_event _ rfl rfl rfl
theorem arbiterWindow (caps budgets clocks : List Nat) : Statement (.arbiterWindow caps budgets clocks) :=
  of_event _ rfl rfl rfl
theorem thermalSample (die : Nat) (readings : List Int) : Statement (.thermalSample die readings) :=
  of_event _ rfl rfl rfl
theorem emergencyEnd (die : Nat) : Statement (.emergencyEnd die) := of_event _ rfl rfl rfl
theorem pwrwarnAssert : Statement .pwrwarnAssert := of_event _ rfl rfl rfl
theorem winterRequest : Statement .winterRequest := of_event _ rfl rfl rfl
theorem pwrwarnDeassert : Statement .pwrwarnDeassert := of_event _ rfl rfl rfl
theorem wakeRequest : Statement .wakeRequest := of_event _ rfl rfl rfl
theorem winterSensorSample (die : Nat) (readings : List Int) : Statement (.winterSensorSample die readings) :=
  of_event _ rfl rfl rfl
theorem thaw : Statement .thaw := of_event _ rfl rfl rfl
theorem reset (failed : Bool) : Statement (.reset failed) := of_event _ rfl rfl rfl
theorem lifeCycleTransition (target : LifeCycle) (signed : Bool) : Statement (.lifeCycleTransition target signed) :=
  of_event _ rfl rfl rfl
theorem firmwareUpdate (image : List (BitVec 8)) (counter : Nat) (signed : Bool) : Statement (.firmwareUpdate image counter signed) :=
  of_event _ rfl rfl rfl
theorem attestationRequest (port : Nat) (nonce : BitVec 256) : Statement (.attestationRequest port nonce) :=
  of_event _ rfl rfl rfl
theorem patrolScrub (corrected : Nat) (bad : List Nat) : Statement (.patrolScrub corrected bad) :=
  of_event _ rfl rfl rfl
theorem sensorRead : Statement .sensorRead := of_event _ rfl rfl rfl
theorem eventLogRead : Statement .eventLogRead := of_event _ rfl rfl rfl
theorem deadlineCountersRead : Statement .deadlineCountersRead := of_event _ rfl rfl rfl
theorem winterCountRead : Statement .winterCountRead := of_event _ rfl rfl rfl
theorem registerWrite (w : RegWrite) : Statement (.registerWrite w) := of_event _ rfl rfl rfl
theorem nopBase : Statement .nopBase := of_word _ 0 rfl rfl rfl
theorem movBase (a d : BitVec 9) : Statement (.movBase a d) := of_word _ (0#6 ++ a ++ d ++ 1#6) rfl rfl rfl
theorem iaddBase (i : BitVec 6) (a d : BitVec 9) : Statement (.iaddBase i a d) :=
  of_word _ (i ++ a ++ d ++ 2#6) rfl rfl rfl
theorem shlBase (n : BitVec 5) (a d : BitVec 9) : Statement (.shlBase n a d) :=
  of_word _ (0#1 ++ n ++ a ++ d ++ 3#6) rfl rfl rfl
theorem shrBase (n : BitVec 5) (a d : BitVec 9) : Statement (.shrBase n a d) :=
  of_word _ (0#1 ++ n ++ a ++ d ++ 4#6) rfl rfl rfl
theorem andBase (i : BitVec 6) (a d : BitVec 9) : Statement (.andBase i a d) :=
  of_word _ (i ++ a ++ d ++ 5#6) rfl rfl rfl
theorem moviBase (i : BitVec 15) (d : BitVec 9) : Statement (.moviBase i d) := of_word _ (i ++ d ++ 6#6) rfl rfl rfl
theorem braBase (o : BitVec 24) : Statement (.braBase o) := of_word _ (o ++ 7#6) rfl rfl rfl
theorem ldsBase (i : BitVec 6) (a d : BitVec 9) : Statement (.ldsBase i a d) :=
  of_word _ (i ++ a ++ d ++ 8#6) rfl rfl rfl
theorem stsBase (i : BitVec 6) (a d : BitVec 9) : Statement (.stsBase i a d) :=
  of_word _ (i ++ a ++ d ++ 9#6) rfl rfl rfl
theorem exitBase : Statement .exitBase := of_word _ (0#24 ++ 10#6) rfl rfl rfl
theorem barBase (id : BitVec 4) : Statement (.barBase id) := of_word _ (0#20 ++ id ++ 11#6) rfl rfl rfl
theorem moviBaseLiteral (d : BitVec 9) (l : BitVec 32) : Statement (.moviBaseLiteral d l) :=
  of_words _ (0#15 ++ d ++ 6#6) _ _ rfl rfl rfl
theorem iaddBaseLiteral (a d : BitVec 9) (l : BitVec 32) : Statement (.iaddBaseLiteral a d l) :=
  of_words _ (0#6 ++ a ++ d ++ 2#6) _ _ rfl rfl rfl
theorem andBaseLiteral (a d : BitVec 9) (l : BitVec 32) : Statement (.andBaseLiteral a d l) :=
  of_words _ (0#6 ++ a ++ d ++ 5#6) _ _ rfl rfl rfl
theorem ldsBaseLiteral (a d : BitVec 9) (l : BitVec 32) : Statement (.ldsBaseLiteral a d l) :=
  of_words _ (0#6 ++ a ++ d ++ 8#6) _ _ rfl rfl rfl
theorem stsBaseLiteral (a d : BitVec 9) (l : BitVec 32) : Statement (.stsBaseLiteral a d l) :=
  of_words _ (0#6 ++ a ++ d ++ 9#6) _ _ rfl rfl rfl
theorem nop (f : EFields) : Statement (.nop f) := of_encodeE _ _ f rfl rfl rfl
theorem bra (f : EFields) : Statement (.bra f) := of_encodeE _ _ f rfl rfl rfl
theorem brx (f : EFields) : Statement (.brx f) := of_encodeE _ _ f rfl rfl rfl
theorem call (f : EFields) : Statement (.call f) := of_encodeE _ _ f rfl rfl rfl
theorem callx (f : EFields) : Statement (.callx f) := of_encodeE _ _ f rfl rfl rfl
theorem ret (f : EFields) : Statement (.ret f) := of_encodeE _ _ f rfl rfl rfl
theorem meet (f : EFields) : Statement (.meet f) := of_encodeE _ _ f rfl rfl rfl
theorem meetx (f : EFields) : Statement (.meetx f) := of_encodeE _ _ f rfl rfl rfl
theorem exit (f : EFields) : Statement (.exit f) := of_encodeE _ _ f rfl rfl rfl
theorem bar (f : EFields) : Statement (.bar f) := of_encodeE _ _ f rfl rfl rfl
theorem trap (f : EFields) : Statement (.trap f) := of_encodeE _ _ f rfl rfl rfl
theorem brk (f : EFields) : Statement (.brk f) := of_encodeE _ _ f rfl rfl rfl
theorem spawn (f : EFields) : Statement (.spawn f) := of_encodeE _ _ f rfl rfl rfl
theorem gate (f : EFields) : Statement (.gate f) := of_encodeE _ _ f rfl rfl rfl
theorem release (f : EFields) : Statement (.release f) := of_encodeE _ _ f rfl rfl rfl
theorem svc (f : EFields) : Statement (.svc f) := of_encodeE _ _ f rfl rfl rfl
theorem iadd (f : EFields) : Statement (.iadd f) := of_encodeE _ _ f rfl rfl rfl
theorem isub (f : EFields) : Statement (.isub f) := of_encodeE _ _ f rfl rfl rfl
theorem iadd3 (f : EFields) : Statement (.iadd3 f) := of_encodeE _ _ f rfl rfl rfl
theorem imul (f : EFields) : Statement (.imul f) := of_encodeE _ _ f rfl rfl rfl
theorem imulh (f : EFields) : Statement (.imulh f) := of_encodeE _ _ f rfl rfl rfl
theorem imad (f : EFields) : Statement (.imad f) := of_encodeE _ _ f rfl rfl rfl
theorem imadw (f : EFields) : Statement (.imadw f) := of_encodeE _ _ f rfl rfl rfl
theorem imin (f : EFields) : Statement (.imin f) := of_encodeE _ _ f rfl rfl rfl
theorem imax (f : EFields) : Statement (.imax f) := of_encodeE _ _ f rfl rfl rfl
theorem iaddmin (f : EFields) : Statement (.iaddmin f) := of_encodeE _ _ f rfl rfl rfl
theorem iabs (f : EFields) : Statement (.iabs f) := of_encodeE _ _ f rfl rfl rfl
theorem idp4 (f : EFields) : Statement (.idp4 f) := of_encodeE _ _ f rfl rfl rfl
theorem iset (f : EFields) : Statement (.iset f) := of_encodeE _ _ f rfl rfl rfl
theorem sel (f : EFields) : Statement (.sel f) := of_encodeE _ _ f rfl rfl rfl
theorem mov (f : EFields) : Statement (.mov f) := of_encodeE _ _ f rfl rfl rfl
theorem movi (f : EFields) : Statement (.movi f) := of_encodeE _ _ f rfl rfl rfl
theorem lea (f : EFields) : Statement (.lea f) := of_encodeE _ _ f rfl rfl rfl
theorem and (f : EFields) : Statement (.and f) := of_encodeE _ _ f rfl rfl rfl
theorem or (f : EFields) : Statement (.or f) := of_encodeE _ _ f rfl rfl rfl
theorem xor (f : EFields) : Statement (.xor f) := of_encodeE _ _ f rfl rfl rfl
theorem lop3 (f : EFields) : Statement (.lop3 f) := of_encodeE _ _ f rfl rfl rfl
theorem shl (f : EFields) : Statement (.shl f) := of_encodeE _ _ f rfl rfl rfl
theorem shr (f : EFields) : Statement (.shr f) := of_encodeE _ _ f rfl rfl rfl
theorem sar (f : EFields) : Statement (.sar f) := of_encodeE _ _ f rfl rfl rfl
theorem fsh (f : EFields) : Statement (.fsh f) := of_encodeE _ _ f rfl rfl rfl
theorem bfx (f : EFields) : Statement (.bfx f) := of_encodeE _ _ f rfl rfl rfl
theorem bfi (f : EFields) : Statement (.bfi f) := of_encodeE _ _ f rfl rfl rfl
theorem popc (f : EFields) : Statement (.popc f) := of_encodeE _ _ f rfl rfl rfl
theorem clz (f : EFields) : Statement (.clz f) := of_encodeE _ _ f rfl rfl rfl
theorem brev (f : EFields) : Statement (.brev f) := of_encodeE _ _ f rfl rfl rfl
theorem perm (f : EFields) : Statement (.perm f) := of_encodeE _ _ f rfl rfl rfl
theorem plop (f : EFields) : Statement (.plop f) := of_encodeE _ _ f rfl rfl rfl
theorem p2v (f : EFields) : Statement (.p2v f) := of_encodeE _ _ f rfl rfl rfl
theorem v2p (f : EFields) : Statement (.v2p f) := of_encodeE _ _ f rfl rfl rfl
theorem elect (f : EFields) : Statement (.elect f) := of_encodeE _ _ f rfl rfl rfl
theorem fadd (f : EFields) : Statement (.fadd f) := of_encodeE _ _ f rfl rfl rfl
theorem fmul (f : EFields) : Statement (.fmul f) := of_encodeE _ _ f rfl rfl rfl
theorem ffma (f : EFields) : Statement (.ffma f) := of_encodeE _ _ f rfl rfl rfl
theorem fmin (f : EFields) : Statement (.fmin f) := of_encodeE _ _ f rfl rfl rfl
theorem fmax (f : EFields) : Statement (.fmax f) := of_encodeE _ _ f rfl rfl rfl
theorem fset (f : EFields) : Statement (.fset f) := of_encodeE _ _ f rfl rfl rfl
theorem fcls (f : EFields) : Statement (.fcls f) := of_encodeE _ _ f rfl rfl rfl
theorem frnd (f : EFields) : Statement (.frnd f) := of_encodeE _ _ f rfl rfl rfl
theorem frcp (f : EFields) : Statement (.frcp f) := of_encodeE _ _ f rfl rfl rfl
theorem fsqrt (f : EFields) : Statement (.fsqrt f) := of_encodeE _ _ f rfl rfl rfl
theorem frsq (f : EFields) : Statement (.frsq f) := of_encodeE _ _ f rfl rfl rfl
theorem fex2 (f : EFields) : Statement (.fex2 f) := of_encodeE _ _ f rfl rfl rfl
theorem flg2 (f : EFields) : Statement (.flg2 f) := of_encodeE _ _ f rfl rfl rfl
theorem fscl (f : EFields) : Statement (.fscl f) := of_encodeE _ _ f rfl rfl rfl
theorem fdp2 (f : EFields) : Statement (.fdp2 f) := of_encodeE _ _ f rfl rfl rfl
theorem cvt (f : EFields) : Statement (.cvt f) := of_encodeE _ _ f rfl rfl rfl
theorem shfl (f : EFields) : Statement (.shfl f) := of_encodeE _ _ f rfl rfl rfl
theorem vote (f : EFields) : Statement (.vote f) := of_encodeE _ _ f rfl rfl rfl
theorem wred (f : EFields) : Statement (.wred f) := of_encodeE _ _ f rfl rfl rfl
theorem qxch (f : EFields) : Statement (.qxch f) := of_encodeE _ _ f rfl rfl rfl
theorem qbc (f : EFields) : Statement (.qbc f) := of_encodeE _ _ f rfl rfl rfl
theorem ld (f : EFields) : Statement (.ld f) := of_encodeE _ _ f rfl rfl rfl
theorem ldc (f : EFields) : Statement (.ldc f) := of_encodeE _ _ f rfl rfl rfl
theorem st (f : EFields) : Statement (.st f) := of_encodeE _ _ f rfl rfl rfl
theorem lds (f : EFields) : Statement (.lds f) := of_encodeE _ _ f rfl rfl rfl
theorem sts (f : EFields) : Statement (.sts f) := of_encodeE _ _ f rfl rfl rfl
theorem feset (f : EFields) : Statement (.feset f) := of_encodeE _ _ f rfl rfl rfl
theorem atom (f : EFields) : Statement (.atom f) := of_encodeE _ _ f rfl rfl rfl
theorem atoms (f : EFields) : Statement (.atoms f) := of_encodeE _ _ f rfl rfl rfl
theorem fence (f : EFields) : Statement (.fence f) := of_encodeE _ _ f rfl rfl rfl
theorem cctl (f : EFields) : Statement (.cctl f) := of_encodeE _ _ f rfl rfl rfl
theorem pfetch (f : EFields) : Statement (.pfetch f) := of_encodeE _ _ f rfl rfl rfl
theorem lease (f : EFields) : Statement (.lease f) := of_encodeE _ _ f rfl rfl rfl
theorem acp (f : EFields) : Statement (.acp f) := of_encodeE _ _ f rfl rfl rfl
theorem acwait (f : EFields) : Statement (.acwait f) := of_encodeE _ _ f rfl rfl rfl
theorem tcopy (f : EFields) : Statement (.tcopy f) := of_encodeE _ _ f rfl rfl rfl
theorem mma (f : EFields) : Statement (.mma f) := of_encodeE _ _ f rfl rfl rfl
theorem cvset (f : EFields) : Statement (.cvset f) := of_encodeE _ _ f rfl rfl rfl
theorem mwait (f : EFields) : Statement (.mwait f) := of_encodeE _ _ f rfl rfl rfl
theorem accwin (f : EFields) : Statement (.accwin f) := of_encodeE _ _ f rfl rfl rfl
theorem ald (f : EFields) : Statement (.ald f) := of_encodeE _ _ f rfl rfl rfl
theorem ast (f : EFields) : Statement (.ast f) := of_encodeE _ _ f rfl rfl rfl
theorem aclr (f : EFields) : Statement (.aclr f) := of_encodeE _ _ f rfl rfl rfl
theorem tkget (f : EFields) : Statement (.tkget f) := of_encodeE _ _ f rfl rfl rfl
theorem tkput (f : EFields) : Statement (.tkput f) := of_encodeE _ _ f rfl rfl rfl
theorem sread (f : EFields) : Statement (.sread f) := of_encodeE _ _ f rfl rfl rfl
theorem swrite (f : EFields) : Statement (.swrite f) := of_encodeE _ _ f rfl rfl rfl
theorem xEnd : Statement .xEnd := of_fitas _ _ rfl rfl rfl
theorem xFail : Statement .xFail := of_fitas _ _ rfl rfl rfl
theorem xMovi (a : BitVec 3) (i : BitVec 16) : Statement (.xMovi a i) := of_fitas _ _ rfl rfl rfl
theorem xMovh (a : BitVec 3) (i : BitVec 16) : Statement (.xMovh a i) := of_fitas _ _ rfl rfl rfl
theorem xAdd (f : XFields) : Statement (.xAdd f) := of_fitas _ _ rfl rfl rfl
theorem xSub (f : XFields) : Statement (.xSub f) := of_fitas _ _ rfl rfl rfl
theorem xAnd (f : XFields) : Statement (.xAnd f) := of_fitas _ _ rfl rfl rfl
theorem xOr (f : XFields) : Statement (.xOr f) := of_fitas _ _ rfl rfl rfl
theorem xXor (f : XFields) : Statement (.xXor f) := of_fitas _ _ rfl rfl rfl
theorem xShl (f : XFields) : Statement (.xShl f) := of_fitas _ _ rfl rfl rfl
theorem xShr (f : XFields) : Statement (.xShr f) := of_fitas _ _ rfl rfl rfl
theorem xSar (f : XFields) : Statement (.xSar f) := of_fitas _ _ rfl rfl rfl
theorem xZze (a b : BitVec 3) : Statement (.xZze a b) := of_fitas _ _ rfl rfl rfl
theorem xGetb (f : XFields) : Statement (.xGetb f) := of_fitas _ _ rfl rfl rfl
theorem xPutb (f : XFields) : Statement (.xPutb f) := of_fitas _ _ rfl rfl rfl
theorem xLdt (f : XFields) : Statement (.xLdt f) := of_fitas _ _ rfl rfl rfl
theorem xLdw (f : XFields) : Statement (.xLdw f) := of_fitas _ _ rfl rfl rfl
theorem xStw (f : XFields) : Statement (.xStw f) := of_fitas _ _ rfl rfl rfl
theorem xLdp (f : XFields) : Statement (.xLdp f) := of_fitas _ _ rfl rfl rfl
theorem xCopy (f : XFields) : Statement (.xCopy f) := of_fitas _ _ rfl rfl rfl
theorem xBeq (a b : BitVec 3) (o : BitVec 16) : Statement (.xBeq a b o) := of_fitas _ _ rfl rfl rfl
theorem xBne (a b : BitVec 3) (o : BitVec 16) : Statement (.xBne a b o) := of_fitas _ _ rfl rfl rfl
theorem xBlt (a b : BitVec 3) (o : BitVec 16) : Statement (.xBlt a b o) := of_fitas _ _ rfl rfl rfl
theorem xJ (o : BitVec 16) : Statement (.xJ o) := of_fitas _ _ rfl rfl rfl
theorem xInfo (f : XFields) : Statement (.xInfo f) := of_fitas _ _ rfl rfl rfl
theorem xZzd (a b : BitVec 3) : Statement (.xZzd a b) := of_fitas _ _ rfl rfl rfl
theorem linkReturnToL0 (port : Nat) : Statement (.linkReturnToL0 port) := of_event _ rfl rfl rfl
theorem portReturnTimeout (port : Nat) : Statement (.portReturnTimeout port) := of_event _ rfl rfl rfl
theorem hostMemoryAccess (a : HostAccess) : Statement (.hostMemoryAccess a) := of_event _ rfl rfl rfl
theorem contextCreate (spec : ContextSpec) : Statement (.contextCreate spec) := of_event _ rfl rfl rfl

end Sys2Proof.Laws.EncodeLength
end

