-- ==== Sys2Proof/Laws/Registers.lean ====
section
/-!
SUPPORT. Registers and predicates of one lane: what a write leaves, and what is read after it.
-/

namespace Sys2Proof.Machine

open Sys2Proof

@[simp] theorem Vals.get_zero (v : Vals) : v.get 0 = Reg.zero := rfl

@[simp] theorem Vals.put_zero (v : Vals) (r : Reg) : v.put 0 r = v := rfl

@[simp] theorem Vals.put_preds (v : Vals) (n : Nat) (r : Reg) : (v.put n r).preds = v.preds := by
  unfold Vals.put; split <;> rfl

@[simp] theorem Vals.put_length (v : Vals) (n : Nat) (r : Reg) : (v.put n r).regs.length = v.regs.length := by
  unfold Vals.put; split
  · rfl
  · exact modAt_length _ _ _

theorem Vals.get_put_ne (v : Vals) (n m : Nat) (r : Reg) (h : m ≠ n) : (v.put n r).get m = v.get m := by
  unfold Vals.get Vals.put
  split
  · rfl
  · split
    · rfl
    · exact modAt_getD_ne _ _ _ _ _ h

theorem Vals.get_put (v : Vals) (n : Nat) (r : Reg) (h0 : n ≠ 0) (h : n < v.regs.length) : (v.put n r).get n = r := by
  unfold Vals.get Vals.put
  simp only [h0, if_false]
  exact modAt_getD_self _ _ _ _ h

@[simp] theorem Vals.putRun_preds (v : Vals) (n : Nat) (l : List Reg) : (v.putRun n l).preds = v.preds := by
  induction l generalizing v n with
  | nil => rfl
  | cons r l ih => rw [Vals.putRun, ih, Vals.put_preds]

theorem Vals.get_putRun_out (v : Vals) (n m : Nat) (l : List Reg) (h : m < n ∨ n + l.length ≤ m) :
    (v.putRun n l).get m = v.get m := by
  induction l generalizing v n with
  | nil => rfl
  | cons r l ih =>
    rw [List.length_cons] at h
    rw [Vals.putRun, ih _ _ (by omega), Vals.get_put_ne _ _ _ _ (by omega)]

theorem Vals.get_putRun_in (v : Vals) (n k : Nat) (l : List Reg) (h0 : n ≠ 0) (hk : k < l.length)
    (h : n + l.length ≤ v.regs.length) : (v.putRun n l).get (n + k) = l.getD k Reg.zero := by
  induction l generalizing v n k with
  | nil => simp at hk
  | cons r l ih =>
    rw [List.length_cons] at h hk
    rw [Vals.putRun]
    cases k with
    | zero =>
      have hlt : n < v.regs.length := by omega
      rw [Vals.get_putRun_out _ _ _ _ (by omega), Nat.add_zero, Vals.get_put _ _ _ h0 hlt]
      rfl
    | succ k =>
      have := ih (v.put n r) (n + 1) k (by omega) (by omega) (by rw [Vals.put_length]; omega)
      rw [show n + (k + 1) = n + 1 + k by omega, this]; rfl

theorem wordsOf_length (n x : Nat) : (wordsOf n x).length = n := by
  induction n generalizing x with
  | zero => rfl
  | succ n ih => simp [wordsOf, ih]

theorem wordsOf_getD (n x k : Nat) (d : Word) (h : k < n) : (wordsOf n x).getD k d = BitVec.ofNat 32 (x / 2 ^ (32 * k)) := by
  induction n generalizing x k with
  | zero => omega
  | succ n ih =>
    cases k with
    | zero => simp [wordsOf]
    | succ k =>
      have := ih (x / 2 ^ 32) k (by omega)
      rw [wordsOf, List.getD_cons_succ, this, Nat.div_div_eq_div_mul, ← pow_add]
      congr 3; ring

/-- A run written with the words of a value holds them, FULL. -/
theorem Vals.get_write (v : Vals) (n count x k : Nat) (taint : Bool) (h0 : n ≠ 0) (hk : k < count)
    (h : n + count ≤ v.regs.length) :
    (v.write n (wordsOf count x) taint).get (n + k) = ⟨BitVec.ofNat 32 (x / 2 ^ (32 * k)), .full, taint⟩ := by
  unfold Vals.write
  simp only [h0, if_false]
  rw [Vals.get_putRun_in _ _ _ _ h0 (by simpa [wordsOf_length] using hk) (by simpa [wordsOf_length] using h)]
  rw [List.getD_eq_getElem?_getD, List.getElem?_map]
  have := wordsOf_getD count x k 0 hk
  rw [List.getD_eq_getElem?_getD] at this
  rw [← this]
  have hl : k < (wordsOf count x).length := by rw [wordsOf_length]; exact hk
  simp [hl]

theorem Vals.get_write_out (v : Vals) (n m : Nat) (ws : List Word) (taint : Bool) (h : n = 0 ∨ m < n ∨ n + ws.length ≤ m) :
    (v.write n ws taint).get m = v.get m := by
  unfold Vals.write
  split
  · rfl
  · exact Vals.get_putRun_out _ _ _ _ (by simpa using h.resolve_left (by assumption))

@[simp] theorem Vals.write_preds (v : Vals) (n : Nat) (ws : List Word) (taint : Bool) : (v.write n ws taint).preds = v.preds := by
  unfold Vals.write; split
  · rfl
  · exact Vals.putRun_preds _ _ _

@[simp] theorem Vals.setPred_regs (v : Vals) (i : Nat) (b : Bool) : (v.setPred i b).regs = v.regs := by
  unfold Vals.setPred; split <;> rfl

@[simp] theorem Vals.get_setPred (v : Vals) (i n : Nat) (b : Bool) : (v.setPred i b).get n = v.get n := by
  simp [Vals.get]

theorem Vals.pred_setPred (v : Vals) (i j : Nat) (b : Bool) (hj : j < 16) :
    (v.setPred i b).pred j = if j = i ∧ i ≠ 0 then b else v.pred j := by
  unfold Vals.setPred Vals.pred
  by_cases hi : i = 0
  · simp [hi]
  · by_cases hji : j = i
    · subst hji
      cases b <;> simp [hi, hj]
    · have hb : ((1#16) <<< i).getLsbD j = false := by
        rw [BitVec.getLsbD_shiftLeft]
        by_cases h : j < i
        · simp [h]
        · have : (1#16).getLsbD (j - i) = false := by
            rw [BitVec.getLsbD_one]
            simp; omega
          simp [this]
      simp only [hi, hji, if_false, false_and, BitVec.getLsbD_or, BitVec.getLsbD_and, BitVec.getLsbD_not, hb, hj]
      cases b <;> simp [hb]

end Sys2Proof.Machine
end

