-- ==== Sys2Proof/Laws/State.lean ====
section
/-!
SUPPORT. What each update of the state does to each of its fields, so that no proof unfolds a record update.
-/

namespace Sys2Proof.Machine

open Sys2Proof

/-! ### modBlock -/

@[simp] theorem modBlock_agenda (b : Nat) (f : Block → Block) (s : State) : (modBlock b f s).agenda = s.agenda := rfl
@[simp] theorem modBlock_cur (b : Nat) (f : Block → Block) (s : State) : (modBlock b f s).cur = s.cur := rfl
@[simp] theorem modBlock_cycle (b : Nat) (f : Block → Block) (s : State) : (modBlock b f s).cycle = s.cycle := rfl
@[simp] theorem modBlock_now (b : Nat) (f : Block → Block) (s : State) : (modBlock b f s).now = s.now := rfl
@[simp] theorem modBlock_free (b : Nat) (f : Block → Block) (s : State) : (modBlock b f s).free = s.free := rfl
@[simp] theorem modBlock_queues (b : Nat) (f : Block → Block) (s : State) : (modBlock b f s).queues = s.queues := rfl
@[simp] theorem modBlock_ctxs (b : Nat) (f : Block → Block) (s : State) : (modBlock b f s).ctxs = s.ctxs := rfl
@[simp] theorem modBlock_parts (b : Nat) (f : Block → Block) (s : State) : (modBlock b f s).parts = s.parts := rfl
@[simp] theorem modBlock_launches (b : Nat) (f : Block → Block) (s : State) :
    (modBlock b f s).launches = s.launches := rfl
@[simp] theorem modBlock_xfers (b : Nat) (f : Block → Block) (s : State) : (modBlock b f s).xfers = s.xfers := rfl
@[simp] theorem modBlock_blocks (b : Nat) (f : Block → Block) (s : State) :
    (modBlock b f s).blocks = modAt f b s.blocks := rfl
@[simp] theorem modBlock_cores (b : Nat) (f : Block → Block) (s : State) : (modBlock b f s).cores = s.cores := rfl
@[simp] theorem modBlock_dies (b : Nat) (f : Block → Block) (s : State) : (modBlock b f s).dies = s.dies := rfl
@[simp] theorem modBlock_ctls (b : Nat) (f : Block → Block) (s : State) : (modBlock b f s).ctls = s.ctls := rfl
@[simp] theorem modBlock_walks (b : Nat) (f : Block → Block) (s : State) : (modBlock b f s).walks = s.walks := rfl
@[simp] theorem modBlock_mem (b : Nat) (f : Block → Block) (s : State) : (modBlock b f s).mem = s.mem := rfl
@[simp] theorem modBlock_pmem (b : Nat) (f : Block → Block) (s : State) : (modBlock b f s).pmem = s.pmem := rfl
@[simp] theorem modBlock_hmem (b : Nat) (f : Block → Block) (s : State) : (modBlock b f s).hmem = s.hmem := rfl
@[simp] theorem modBlock_items (b : Nat) (f : Block → Block) (s : State) : (modBlock b f s).items = s.items := rfl
@[simp] theorem modBlock_floors (b : Nat) (f : Block → Block) (s : State) : (modBlock b f s).floors = s.floors := rfl
@[simp] theorem modBlock_lines (b : Nat) (f : Block → Block) (s : State) : (modBlock b f s).lines = s.lines := rfl
@[simp] theorem modBlock_units (b : Nat) (f : Block → Block) (s : State) : (modBlock b f s).units = s.units := rfl
@[simp] theorem modBlock_fills (b : Nat) (f : Block → Block) (s : State) : (modBlock b f s).fills = s.fills := rfl
@[simp] theorem modBlock_runs (b : Nat) (f : Block → Block) (s : State) : (modBlock b f s).runs = s.runs := rfl
@[simp] theorem modBlock_ring (b : Nat) (f : Block → Block) (s : State) : (modBlock b f s).ring = s.ring := rfl
@[simp] theorem modBlock_seqs (b : Nat) (f : Block → Block) (s : State) : (modBlock b f s).seqs = s.seqs := rfl
@[simp] theorem modBlock_ports (b : Nat) (f : Block → Block) (s : State) : (modBlock b f s).ports = s.ports := rfl
@[simp] theorem modBlock_decoders (b : Nat) (f : Block → Block) (s : State) :
    (modBlock b f s).decoders = s.decoders := rfl
@[simp] theorem modBlock_rmap (b : Nat) (f : Block → Block) (s : State) : (modBlock b f s).rmap = s.rmap := rfl
@[simp] theorem modBlock_peers (b : Nat) (f : Block → Block) (s : State) : (modBlock b f s).peers = s.peers := rfl
@[simp] theorem modBlock_dev (b : Nat) (f : Block → Block) (s : State) : (modBlock b f s).dev = s.dev := rfl
@[simp] theorem modBlock_missed (b : Nat) (f : Block → Block) (s : State) : (modBlock b f s).missed = s.missed := rfl
@[simp] theorem modBlock_plat (b : Nat) (f : Block → Block) (s : State) : (modBlock b f s).plat = s.plat := rfl
@[simp] theorem modBlock_launch_get (b : Nat) (f : Block → Block) (s : State) (x : Nat) :
    (modBlock b f s).launch x = s.launch x := rfl
@[simp] theorem modBlock_core_get (b : Nat) (f : Block → Block) (s : State) (x : Nat) :
    (modBlock b f s).core x = s.core x := rfl
@[simp] theorem modBlock_queue_get (b : Nat) (f : Block → Block) (s : State) (x : Nat) :
    (modBlock b f s).queue x = s.queue x := rfl
@[simp] theorem modBlock_die_get (b : Nat) (f : Block → Block) (s : State) (x : Nat) :
    (modBlock b f s).die x = s.die x := rfl
@[simp] theorem modBlock_ctl_get (b : Nat) (f : Block → Block) (s : State) (x : Nat) :
    (modBlock b f s).ctl x = s.ctl x := rfl
@[simp] theorem modBlock_ctx_get (b : Nat) (f : Block → Block) (s : State) (x : Nat) :
    (modBlock b f s).ctx x = s.ctx x := rfl

/-! ### modThread -/

@[simp] theorem modThread_agenda (b t : Nat) (f : Thread → Thread) (s : State) :
    (modThread b t f s).agenda = s.agenda := rfl
@[simp] theorem modThread_cur (b t : Nat) (f : Thread → Thread) (s : State) : (modThread b t f s).cur = s.cur := rfl
@[simp] theorem modThread_cycle (b t : Nat) (f : Thread → Thread) (s : State) :
    (modThread b t f s).cycle = s.cycle := rfl
@[simp] theorem modThread_now (b t : Nat) (f : Thread → Thread) (s : State) : (modThread b t f s).now = s.now := rfl
@[simp] theorem modThread_free (b t : Nat) (f : Thread → Thread) (s : State) : (modThread b t f s).free = s.free := rfl
@[simp] theorem modThread_queues (b t : Nat) (f : Thread → Thread) (s : State) :
    (modThread b t f s).queues = s.queues := rfl
@[simp] theorem modThread_ctxs (b t : Nat) (f : Thread → Thread) (s : State) : (modThread b t f s).ctxs = s.ctxs := rfl
@[simp] theorem modThread_parts (b t : Nat) (f : Thread → Thread) (s : State) :
    (modThread b t f s).parts = s.parts := rfl
@[simp] theorem modThread_launches (b t : Nat) (f : Thread → Thread) (s : State) :
    (modThread b t f s).launches = s.launches := rfl
@[simp] theorem modThread_xfers (b t : Nat) (f : Thread → Thread) (s : State) :
    (modThread b t f s).xfers = s.xfers := rfl
@[simp] theorem modThread_cores (b t : Nat) (f : Thread → Thread) (s : State) :
    (modThread b t f s).cores = s.cores := rfl
@[simp] theorem modThread_dies (b t : Nat) (f : Thread → Thread) (s : State) : (modThread b t f s).dies = s.dies := rfl
@[simp] theorem modThread_ctls (b t : Nat) (f : Thread → Thread) (s : State) : (modThread b t f s).ctls = s.ctls := rfl
@[simp] theorem modThread_walks (b t : Nat) (f : Thread → Thread) (s : State) :
    (modThread b t f s).walks = s.walks := rfl
@[simp] theorem modThread_mem (b t : Nat) (f : Thread → Thread) (s : State) : (modThread b t f s).mem = s.mem := rfl
@[simp] theorem modThread_pmem (b t : Nat) (f : Thread → Thread) (s : State) : (modThread b t f s).pmem = s.pmem := rfl
@[simp] theorem modThread_hmem (b t : Nat) (f : Thread → Thread) (s : State) : (modThread b t f s).hmem = s.hmem := rfl
@[simp] theorem modThread_items (b t : Nat) (f : Thread → Thread) (s : State) :
    (modThread b t f s).items = s.items := rfl
@[simp] theorem modThread_floors (b t : Nat) (f : Thread → Thread) (s : State) :
    (modThread b t f s).floors = s.floors := rfl
@[simp] theorem modThread_lines (b t : Nat) (f : Thread → Thread) (s : State) :
    (modThread b t f s).lines = s.lines := rfl
@[simp] theorem modThread_units (b t : Nat) (f : Thread → Thread) (s : State) :
    (modThread b t f s).units = s.units := rfl
@[simp] theorem modThread_fills (b t : Nat) (f : Thread → Thread) (s : State) :
    (modThread b t f s).fills = s.fills := rfl
@[simp] theorem modThread_runs (b t : Nat) (f : Thread → Thread) (s : State) : (modThread b t f s).runs = s.runs := rfl
@[simp] theorem modThread_ring (b t : Nat) (f : Thread → Thread) (s : State) : (modThread b t f s).ring = s.ring := rfl
@[simp] theorem modThread_seqs (b t : Nat) (f : Thread → Thread) (s : State) : (modThread b t f s).seqs = s.seqs := rfl
@[simp] theorem modThread_ports (b t : Nat) (f : Thread → Thread) (s : State) :
    (modThread b t f s).ports = s.ports := rfl
@[simp] theorem modThread_decoders (b t : Nat) (f : Thread → Thread) (s : State) :
    (modThread b t f s).decoders = s.decoders := rfl
@[simp] theorem modThread_rmap (b t : Nat) (f : Thread → Thread) (s : State) : (modThread b t f s).rmap = s.rmap := rfl
@[simp] theorem modThread_peers (b t : Nat) (f : Thread → Thread) (s : State) :
    (modThread b t f s).peers = s.peers := rfl
@[simp] theorem modThread_dev (b t : Nat) (f : Thread → Thread) (s : State) : (modThread b t f s).dev = s.dev := rfl
@[simp] theorem modThread_missed (b t : Nat) (f : Thread → Thread) (s : State) :
    (modThread b t f s).missed = s.missed := rfl
@[simp] theorem modThread_plat (b t : Nat) (f : Thread → Thread) (s : State) : (modThread b t f s).plat = s.plat := rfl
@[simp] theorem modThread_launch_get (b t : Nat) (f : Thread → Thread) (s : State) (x : Nat) :
    (modThread b t f s).launch x = s.launch x := rfl
@[simp] theorem modThread_core_get (b t : Nat) (f : Thread → Thread) (s : State) (x : Nat) :
    (modThread b t f s).core x = s.core x := rfl
@[simp] theorem modThread_queue_get (b t : Nat) (f : Thread → Thread) (s : State) (x : Nat) :
    (modThread b t f s).queue x = s.queue x := rfl
@[simp] theorem modThread_die_get (b t : Nat) (f : Thread → Thread) (s : State) (x : Nat) :
    (modThread b t f s).die x = s.die x := rfl
@[simp] theorem modThread_ctl_get (b t : Nat) (f : Thread → Thread) (s : State) (x : Nat) :
    (modThread b t f s).ctl x = s.ctl x := rfl
@[simp] theorem modThread_ctx_get (b t : Nat) (f : Thread → Thread) (s : State) (x : Nat) :
    (modThread b t f s).ctx x = s.ctx x := rfl

/-! ### modWave -/

@[simp] theorem modWave_agenda (b w : Nat) (f : Wave → Wave) (s : State) : (modWave b w f s).agenda = s.agenda := rfl
@[simp] theorem modWave_cur (b w : Nat) (f : Wave → Wave) (s : State) : (modWave b w f s).cur = s.cur := rfl
@[simp] theorem modWave_cycle (b w : Nat) (f : Wave → Wave) (s : State) : (modWave b w f s).cycle = s.cycle := rfl
@[simp] theorem modWave_now (b w : Nat) (f : Wave → Wave) (s : State) : (modWave b w f s).now = s.now := rfl
@[simp] theorem modWave_free (b w : Nat) (f : Wave → Wave) (s : State) : (modWave b w f s).free = s.free := rfl
@[simp] theorem modWave_queues (b w : Nat) (f : Wave → Wave) (s : State) : (modWave b w f s).queues = s.queues := rfl
@[simp] theorem modWave_ctxs (b w : Nat) (f : Wave → Wave) (s : State) : (modWave b w f s).ctxs = s.ctxs := rfl
@[simp] theorem modWave_parts (b w : Nat) (f : Wave → Wave) (s : State) : (modWave b w f s).parts = s.parts := rfl
@[simp] theorem modWave_launches (b w : Nat) (f : Wave → Wave) (s : State) :
    (modWave b w f s).launches = s.launches := rfl
@[simp] theorem modWave_xfers (b w : Nat) (f : Wave → Wave) (s : State) : (modWave b w f s).xfers = s.xfers := rfl
@[simp] theorem modWave_cores (b w : Nat) (f : Wave → Wave) (s : State) : (modWave b w f s).cores = s.cores := rfl
@[simp] theorem modWave_dies (b w : Nat) (f : Wave → Wave) (s : State) : (modWave b w f s).dies = s.dies := rfl
@[simp] theorem modWave_ctls (b w : Nat) (f : Wave → Wave) (s : State) : (modWave b w f s).ctls = s.ctls := rfl
@[simp] theorem modWave_walks (b w : Nat) (f : Wave → Wave) (s : State) : (modWave b w f s).walks = s.walks := rfl
@[simp] theorem modWave_mem (b w : Nat) (f : Wave → Wave) (s : State) : (modWave b w f s).mem = s.mem := rfl
@[simp] theorem modWave_pmem (b w : Nat) (f : Wave → Wave) (s : State) : (modWave b w f s).pmem = s.pmem := rfl
@[simp] theorem modWave_hmem (b w : Nat) (f : Wave → Wave) (s : State) : (modWave b w f s).hmem = s.hmem := rfl
@[simp] theorem modWave_items (b w : Nat) (f : Wave → Wave) (s : State) : (modWave b w f s).items = s.items := rfl
@[simp] theorem modWave_floors (b w : Nat) (f : Wave → Wave) (s : State) : (modWave b w f s).floors = s.floors := rfl
@[simp] theorem modWave_lines (b w : Nat) (f : Wave → Wave) (s : State) : (modWave b w f s).lines = s.lines := rfl
@[simp] theorem modWave_units (b w : Nat) (f : Wave → Wave) (s : State) : (modWave b w f s).units = s.units := rfl
@[simp] theorem modWave_fills (b w : Nat) (f : Wave → Wave) (s : State) : (modWave b w f s).fills = s.fills := rfl
@[simp] theorem modWave_runs (b w : Nat) (f : Wave → Wave) (s : State) : (modWave b w f s).runs = s.runs := rfl
@[simp] theorem modWave_ring (b w : Nat) (f : Wave → Wave) (s : State) : (modWave b w f s).ring = s.ring := rfl
@[simp] theorem modWave_seqs (b w : Nat) (f : Wave → Wave) (s : State) : (modWave b w f s).seqs = s.seqs := rfl
@[simp] theorem modWave_ports (b w : Nat) (f : Wave → Wave) (s : State) : (modWave b w f s).ports = s.ports := rfl
@[simp] theorem modWave_decoders (b w : Nat) (f : Wave → Wave) (s : State) :
    (modWave b w f s).decoders = s.decoders := rfl
@[simp] theorem modWave_rmap (b w : Nat) (f : Wave → Wave) (s : State) : (modWave b w f s).rmap = s.rmap := rfl
@[simp] theorem modWave_peers (b w : Nat) (f : Wave → Wave) (s : State) : (modWave b w f s).peers = s.peers := rfl
@[simp] theorem modWave_dev (b w : Nat) (f : Wave → Wave) (s : State) : (modWave b w f s).dev = s.dev := rfl
@[simp] theorem modWave_missed (b w : Nat) (f : Wave → Wave) (s : State) : (modWave b w f s).missed = s.missed := rfl
@[simp] theorem modWave_plat (b w : Nat) (f : Wave → Wave) (s : State) : (modWave b w f s).plat = s.plat := rfl
@[simp] theorem modWave_launch_get (b w : Nat) (f : Wave → Wave) (s : State) (x : Nat) :
    (modWave b w f s).launch x = s.launch x := rfl
@[simp] theorem modWave_core_get (b w : Nat) (f : Wave → Wave) (s : State) (x : Nat) :
    (modWave b w f s).core x = s.core x := rfl
@[simp] theorem modWave_queue_get (b w : Nat) (f : Wave → Wave) (s : State) (x : Nat) :
    (modWave b w f s).queue x = s.queue x := rfl
@[simp] theorem modWave_die_get (b w : Nat) (f : Wave → Wave) (s : State) (x : Nat) :
    (modWave b w f s).die x = s.die x := rfl
@[simp] theorem modWave_ctl_get (b w : Nat) (f : Wave → Wave) (s : State) (x : Nat) :
    (modWave b w f s).ctl x = s.ctl x := rfl
@[simp] theorem modWave_ctx_get (b w : Nat) (f : Wave → Wave) (s : State) (x : Nat) :
    (modWave b w f s).ctx x = s.ctx x := rfl

/-! ### modPWave -/

@[simp] theorem modPWave_agenda (b w : Nat) (f : PWave → PWave) (s : State) :
    (modPWave b w f s).agenda = s.agenda := rfl
@[simp] theorem modPWave_cur (b w : Nat) (f : PWave → PWave) (s : State) : (modPWave b w f s).cur = s.cur := rfl
@[simp] theorem modPWave_cycle (b w : Nat) (f : PWave → PWave) (s : State) : (modPWave b w f s).cycle = s.cycle := rfl
@[simp] theorem modPWave_now (b w : Nat) (f : PWave → PWave) (s : State) : (modPWave b w f s).now = s.now := rfl
@[simp] theorem modPWave_free (b w : Nat) (f : PWave → PWave) (s : State) : (modPWave b w f s).free = s.free := rfl
@[simp] theorem modPWave_queues (b w : Nat) (f : PWave → PWave) (s : State) :
    (modPWave b w f s).queues = s.queues := rfl
@[simp] theorem modPWave_ctxs (b w : Nat) (f : PWave → PWave) (s : State) : (modPWave b w f s).ctxs = s.ctxs := rfl
@[simp] theorem modPWave_parts (b w : Nat) (f : PWave → PWave) (s : State) : (modPWave b w f s).parts = s.parts := rfl
@[simp] theorem modPWave_launches (b w : Nat) (f : PWave → PWave) (s : State) :
    (modPWave b w f s).launches = s.launches := rfl
@[simp] theorem modPWave_xfers (b w : Nat) (f : PWave → PWave) (s : State) : (modPWave b w f s).xfers = s.xfers := rfl
@[simp] theorem modPWave_cores (b w : Nat) (f : PWave → PWave) (s : State) : (modPWave b w f s).cores = s.cores := rfl
@[simp] theorem modPWave_dies (b w : Nat) (f : PWave → PWave) (s : State) : (modPWave b w f s).dies = s.dies := rfl
@[simp] theorem modPWave_ctls (b w : Nat) (f : PWave → PWave) (s : State) : (modPWave b w f s).ctls = s.ctls := rfl
@[simp] theorem modPWave_walks (b w : Nat) (f : PWave → PWave) (s : State) : (modPWave b w f s).walks = s.walks := rfl
@[simp] theorem modPWave_mem (b w : Nat) (f : PWave → PWave) (s : State) : (modPWave b w f s).mem = s.mem := rfl
@[simp] theorem modPWave_pmem (b w : Nat) (f : PWave → PWave) (s : State) : (modPWave b w f s).pmem = s.pmem := rfl
@[simp] theorem modPWave_hmem (b w : Nat) (f : PWave → PWave) (s : State) : (modPWave b w f s).hmem = s.hmem := rfl
@[simp] theorem modPWave_items (b w : Nat) (f : PWave → PWave) (s : State) : (modPWave b w f s).items = s.items := rfl
@[simp] theorem modPWave_floors (b w : Nat) (f : PWave → PWave) (s : State) :
    (modPWave b w f s).floors = s.floors := rfl
@[simp] theorem modPWave_lines (b w : Nat) (f : PWave → PWave) (s : State) : (modPWave b w f s).lines = s.lines := rfl
@[simp] theorem modPWave_units (b w : Nat) (f : PWave → PWave) (s : State) : (modPWave b w f s).units = s.units := rfl
@[simp] theorem modPWave_fills (b w : Nat) (f : PWave → PWave) (s : State) : (modPWave b w f s).fills = s.fills := rfl
@[simp] theorem modPWave_runs (b w : Nat) (f : PWave → PWave) (s : State) : (modPWave b w f s).runs = s.runs := rfl
@[simp] theorem modPWave_ring (b w : Nat) (f : PWave → PWave) (s : State) : (modPWave b w f s).ring = s.ring := rfl
@[simp] theorem modPWave_seqs (b w : Nat) (f : PWave → PWave) (s : State) : (modPWave b w f s).seqs = s.seqs := rfl
@[simp] theorem modPWave_ports (b w : Nat) (f : PWave → PWave) (s : State) : (modPWave b w f s).ports = s.ports := rfl
@[simp] theorem modPWave_decoders (b w : Nat) (f : PWave → PWave) (s : State) :
    (modPWave b w f s).decoders = s.decoders := rfl
@[simp] theorem modPWave_rmap (b w : Nat) (f : PWave → PWave) (s : State) : (modPWave b w f s).rmap = s.rmap := rfl
@[simp] theorem modPWave_peers (b w : Nat) (f : PWave → PWave) (s : State) : (modPWave b w f s).peers = s.peers := rfl
@[simp] theorem modPWave_dev (b w : Nat) (f : PWave → PWave) (s : State) : (modPWave b w f s).dev = s.dev := rfl
@[simp] theorem modPWave_missed (b w : Nat) (f : PWave → PWave) (s : State) :
    (modPWave b w f s).missed = s.missed := rfl
@[simp] theorem modPWave_plat (b w : Nat) (f : PWave → PWave) (s : State) : (modPWave b w f s).plat = s.plat := rfl
@[simp] theorem modPWave_launch_get (b w : Nat) (f : PWave → PWave) (s : State) (x : Nat) :
    (modPWave b w f s).launch x = s.launch x := rfl
@[simp] theorem modPWave_core_get (b w : Nat) (f : PWave → PWave) (s : State) (x : Nat) :
    (modPWave b w f s).core x = s.core x := rfl
@[simp] theorem modPWave_queue_get (b w : Nat) (f : PWave → PWave) (s : State) (x : Nat) :
    (modPWave b w f s).queue x = s.queue x := rfl
@[simp] theorem modPWave_die_get (b w : Nat) (f : PWave → PWave) (s : State) (x : Nat) :
    (modPWave b w f s).die x = s.die x := rfl
@[simp] theorem modPWave_ctl_get (b w : Nat) (f : PWave → PWave) (s : State) (x : Nat) :
    (modPWave b w f s).ctl x = s.ctl x := rfl
@[simp] theorem modPWave_ctx_get (b w : Nat) (f : PWave → PWave) (s : State) (x : Nat) :
    (modPWave b w f s).ctx x = s.ctx x := rfl

/-! ### modLaunch -/

@[simp] theorem modLaunch_agenda (l : Nat) (f : Launch → Launch) (s : State) :
    (modLaunch l f s).agenda = s.agenda := rfl
@[simp] theorem modLaunch_cur (l : Nat) (f : Launch → Launch) (s : State) : (modLaunch l f s).cur = s.cur := rfl
@[simp] theorem modLaunch_cycle (l : Nat) (f : Launch → Launch) (s : State) : (modLaunch l f s).cycle = s.cycle := rfl
@[simp] theorem modLaunch_now (l : Nat) (f : Launch → Launch) (s : State) : (modLaunch l f s).now = s.now := rfl
@[simp] theorem modLaunch_free (l : Nat) (f : Launch → Launch) (s : State) : (modLaunch l f s).free = s.free := rfl
@[simp] theorem modLaunch_queues (l : Nat) (f : Launch → Launch) (s : State) :
    (modLaunch l f s).queues = s.queues := rfl
@[simp] theorem modLaunch_ctxs (l : Nat) (f : Launch → Launch) (s : State) : (modLaunch l f s).ctxs = s.ctxs := rfl
@[simp] theorem modLaunch_parts (l : Nat) (f : Launch → Launch) (s : State) : (modLaunch l f s).parts = s.parts := rfl
@[simp] theorem modLaunch_launches (l : Nat) (f : Launch → Launch) (s : State) :
    (modLaunch l f s).launches = modAt f l s.launches := rfl
@[simp] theorem modLaunch_xfers (l : Nat) (f : Launch → Launch) (s : State) : (modLaunch l f s).xfers = s.xfers := rfl
@[simp] theorem modLaunch_blocks (l : Nat) (f : Launch → Launch) (s : State) :
    (modLaunch l f s).blocks = s.blocks := rfl
@[simp] theorem modLaunch_cores (l : Nat) (f : Launch → Launch) (s : State) : (modLaunch l f s).cores = s.cores := rfl
@[simp] theorem modLaunch_dies (l : Nat) (f : Launch → Launch) (s : State) : (modLaunch l f s).dies = s.dies := rfl
@[simp] theorem modLaunch_ctls (l : Nat) (f : Launch → Launch) (s : State) : (modLaunch l f s).ctls = s.ctls := rfl
@[simp] theorem modLaunch_walks (l : Nat) (f : Launch → Launch) (s : State) : (modLaunch l f s).walks = s.walks := rfl
@[simp] theorem modLaunch_mem (l : Nat) (f : Launch → Launch) (s : State) : (modLaunch l f s).mem = s.mem := rfl
@[simp] theorem modLaunch_pmem (l : Nat) (f : Launch → Launch) (s : State) : (modLaunch l f s).pmem = s.pmem := rfl
@[simp] theorem modLaunch_hmem (l : Nat) (f : Launch → Launch) (s : State) : (modLaunch l f s).hmem = s.hmem := rfl
@[simp] theorem modLaunch_items (l : Nat) (f : Launch → Launch) (s : State) : (modLaunch l f s).items = s.items := rfl
@[simp] theorem modLaunch_floors (l : Nat) (f : Launch → Launch) (s : State) :
    (modLaunch l f s).floors = s.floors := rfl
@[simp] theorem modLaunch_lines (l : Nat) (f : Launch → Launch) (s : State) : (modLaunch l f s).lines = s.lines := rfl
@[simp] theorem modLaunch_units (l : Nat) (f : Launch → Launch) (s : State) : (modLaunch l f s).units = s.units := rfl
@[simp] theorem modLaunch_fills (l : Nat) (f : Launch → Launch) (s : State) : (modLaunch l f s).fills = s.fills := rfl
@[simp] theorem modLaunch_runs (l : Nat) (f : Launch → Launch) (s : State) : (modLaunch l f s).runs = s.runs := rfl
@[simp] theorem modLaunch_ring (l : Nat) (f : Launch → Launch) (s : State) : (modLaunch l f s).ring = s.ring := rfl
@[simp] theorem modLaunch_seqs (l : Nat) (f : Launch → Launch) (s : State) : (modLaunch l f s).seqs = s.seqs := rfl
@[simp] theorem modLaunch_ports (l : Nat) (f : Launch → Launch) (s : State) : (modLaunch l f s).ports = s.ports := rfl
@[simp] theorem modLaunch_decoders (l : Nat) (f : Launch → Launch) (s : State) :
    (modLaunch l f s).decoders = s.decoders := rfl
@[simp] theorem modLaunch_rmap (l : Nat) (f : Launch → Launch) (s : State) : (modLaunch l f s).rmap = s.rmap := rfl
@[simp] theorem modLaunch_peers (l : Nat) (f : Launch → Launch) (s : State) : (modLaunch l f s).peers = s.peers := rfl
@[simp] theorem modLaunch_dev (l : Nat) (f : Launch → Launch) (s : State) : (modLaunch l f s).dev = s.dev := rfl
@[simp] theorem modLaunch_missed (l : Nat) (f : Launch → Launch) (s : State) :
    (modLaunch l f s).missed = s.missed := rfl
@[simp] theorem modLaunch_plat (l : Nat) (f : Launch → Launch) (s : State) : (modLaunch l f s).plat = s.plat := rfl
@[simp] theorem modLaunch_block_get (l : Nat) (f : Launch → Launch) (s : State) (x : Nat) :
    (modLaunch l f s).block x = s.block x := rfl
@[simp] theorem modLaunch_core_get (l : Nat) (f : Launch → Launch) (s : State) (x : Nat) :
    (modLaunch l f s).core x = s.core x := rfl
@[simp] theorem modLaunch_queue_get (l : Nat) (f : Launch → Launch) (s : State) (x : Nat) :
    (modLaunch l f s).queue x = s.queue x := rfl
@[simp] theorem modLaunch_die_get (l : Nat) (f : Launch → Launch) (s : State) (x : Nat) :
    (modLaunch l f s).die x = s.die x := rfl
@[simp] theorem modLaunch_ctl_get (l : Nat) (f : Launch → Launch) (s : State) (x : Nat) :
    (modLaunch l f s).ctl x = s.ctl x := rfl
@[simp] theorem modLaunch_ctx_get (l : Nat) (f : Launch → Launch) (s : State) (x : Nat) :
    (modLaunch l f s).ctx x = s.ctx x := rfl
@[simp] theorem modLaunch_thread_get (l : Nat) (f : Launch → Launch) (s : State) (x y : Nat) :
    (modLaunch l f s).thread x y = s.thread x y := rfl

/-! ### modCore -/

@[simp] theorem modCore_agenda (c : Nat) (f : Core → Core) (s : State) : (modCore c f s).agenda = s.agenda := rfl
@[simp] theorem modCore_cur (c : Nat) (f : Core → Core) (s : State) : (modCore c f s).cur = s.cur := rfl
@[simp] theorem modCore_cycle (c : Nat) (f : Core → Core) (s : State) : (modCore c f s).cycle = s.cycle := rfl
@[simp] theorem modCore_now (c : Nat) (f : Core → Core) (s : State) : (modCore c f s).now = s.now := rfl
@[simp] theorem modCore_free (c : Nat) (f : Core → Core) (s : State) : (modCore c f s).free = s.free := rfl
@[simp] theorem modCore_queues (c : Nat) (f : Core → Core) (s : State) : (modCore c f s).queues = s.queues := rfl
@[simp] theorem modCore_ctxs (c : Nat) (f : Core → Core) (s : State) : (modCore c f s).ctxs = s.ctxs := rfl
@[simp] theorem modCore_parts (c : Nat) (f : Core → Core) (s : State) : (modCore c f s).parts = s.parts := rfl
@[simp] theorem modCore_launches (c : Nat) (f : Core → Core) (s : State) : (modCore c f s).launches = s.launches := rfl
@[simp] theorem modCore_xfers (c : Nat) (f : Core → Core) (s : State) : (modCore c f s).xfers = s.xfers := rfl
@[simp] theorem modCore_blocks (c : Nat) (f : Core → Core) (s : State) : (modCore c f s).blocks = s.blocks := rfl
@[simp] theorem modCore_cores (c : Nat) (f : Core → Core) (s : State) : (modCore c f s).cores = modAt f c s.cores := rfl
@[simp] theorem modCore_dies (c : Nat) (f : Core → Core) (s : State) : (modCore c f s).dies = s.dies := rfl
@[simp] theorem modCore_ctls (c : Nat) (f : Core → Core) (s : State) : (modCore c f s).ctls = s.ctls := rfl
@[simp] theorem modCore_walks (c : Nat) (f : Core → Core) (s : State) : (modCore c f s).walks = s.walks := rfl
@[simp] theorem modCore_mem (c : Nat) (f : Core → Core) (s : State) : (modCore c f s).mem = s.mem := rfl
@[simp] theorem modCore_pmem (c : Nat) (f : Core → Core) (s : State) : (modCore c f s).pmem = s.pmem := rfl
@[simp] theorem modCore_hmem (c : Nat) (f : Core → Core) (s : State) : (modCore c f s).hmem = s.hmem := rfl
@[simp] theorem modCore_items (c : Nat) (f : Core → Core) (s : State) : (modCore c f s).items = s.items := rfl
@[simp] theorem modCore_floors (c : Nat) (f : Core → Core) (s : State) : (modCore c f s).floors = s.floors := rfl
@[simp] theorem modCore_lines (c : Nat) (f : Core → Core) (s : State) : (modCore c f s).lines = s.lines := rfl
@[simp] theorem modCore_units (c : Nat) (f : Core → Core) (s : State) : (modCore c f s).units = s.units := rfl
@[simp] theorem modCore_fills (c : Nat) (f : Core → Core) (s : State) : (modCore c f s).fills = s.fills := rfl
@[simp] theorem modCore_runs (c : Nat) (f : Core → Core) (s : State) : (modCore c f s).runs = s.runs := rfl
@[simp] theorem modCore_ring (c : Nat) (f : Core → Core) (s : State) : (modCore c f s).ring = s.ring := rfl
@[simp] theorem modCore_seqs (c : Nat) (f : Core → Core) (s : State) : (modCore c f s).seqs = s.seqs := rfl
@[simp] theorem modCore_ports (c : Nat) (f : Core → Core) (s : State) : (modCore c f s).ports = s.ports := rfl
@[simp] theorem modCore_decoders (c : Nat) (f : Core → Core) (s : State) : (modCore c f s).decoders = s.decoders := rfl
@[simp] theorem modCore_rmap (c : Nat) (f : Core → Core) (s : State) : (modCore c f s).rmap = s.rmap := rfl
@[simp] theorem modCore_peers (c : Nat) (f : Core → Core) (s : State) : (modCore c f s).peers = s.peers := rfl
@[simp] theorem modCore_dev (c : Nat) (f : Core → Core) (s : State) : (modCore c f s).dev = s.dev := rfl
@[simp] theorem modCore_missed (c : Nat) (f : Core → Core) (s : State) : (modCore c f s).missed = s.missed := rfl
@[simp] theorem modCore_plat (c : Nat) (f : Core → Core) (s : State) : (modCore c f s).plat = s.plat := rfl
@[simp] theorem modCore_block_get (c : Nat) (f : Core → Core) (s : State) (x : Nat) :
    (modCore c f s).block x = s.block x := rfl
@[simp] theorem modCore_launch_get (c : Nat) (f : Core → Core) (s : State) (x : Nat) :
    (modCore c f s).launch x = s.launch x := rfl
@[simp] theorem modCore_queue_get (c : Nat) (f : Core → Core) (s : State) (x : Nat) :
    (modCore c f s).queue x = s.queue x := rfl
@[simp] theorem modCore_die_get (c : Nat) (f : Core → Core) (s : State) (x : Nat) :
    (modCore c f s).die x = s.die x := rfl
@[simp] theorem modCore_ctl_get (c : Nat) (f : Core → Core) (s : State) (x : Nat) :
    (modCore c f s).ctl x = s.ctl x := rfl
@[simp] theorem modCore_ctx_get (c : Nat) (f : Core → Core) (s : State) (x : Nat) :
    (modCore c f s).ctx x = s.ctx x := rfl
@[simp] theorem modCore_thread_get (c : Nat) (f : Core → Core) (s : State) (x y : Nat) :
    (modCore c f s).thread x y = s.thread x y := rfl
@[simp] theorem modCore_launchOf_get (c : Nat) (f : Core → Core) (s : State) (x : Nat) :
    (modCore c f s).launchOf x = s.launchOf x := rfl

/-! ### modQueue -/

@[simp] theorem modQueue_agenda (q : Nat) (f : Queue → Queue) (s : State) : (modQueue q f s).agenda = s.agenda := rfl
@[simp] theorem modQueue_cur (q : Nat) (f : Queue → Queue) (s : State) : (modQueue q f s).cur = s.cur := rfl
@[simp] theorem modQueue_cycle (q : Nat) (f : Queue → Queue) (s : State) : (modQueue q f s).cycle = s.cycle := rfl
@[simp] theorem modQueue_now (q : Nat) (f : Queue → Queue) (s : State) : (modQueue q f s).now = s.now := rfl
@[simp] theorem modQueue_free (q : Nat) (f : Queue → Queue) (s : State) : (modQueue q f s).free = s.free := rfl
@[simp] theorem modQueue_queues (q : Nat) (f : Queue → Queue) (s : State) :
    (modQueue q f s).queues = modAt f q s.queues := rfl
@[simp] theorem modQueue_ctxs (q : Nat) (f : Queue → Queue) (s : State) : (modQueue q f s).ctxs = s.ctxs := rfl
@[simp] theorem modQueue_parts (q : Nat) (f : Queue → Queue) (s : State) : (modQueue q f s).parts = s.parts := rfl
@[simp] theorem modQueue_launches (q : Nat) (f : Queue → Queue) (s : State) :
    (modQueue q f s).launches = s.launches := rfl
@[simp] theorem modQueue_xfers (q : Nat) (f : Queue → Queue) (s : State) : (modQueue q f s).xfers = s.xfers := rfl
@[simp] theorem modQueue_blocks (q : Nat) (f : Queue → Queue) (s : State) : (modQueue q f s).blocks = s.blocks := rfl
@[simp] theorem modQueue_cores (q : Nat) (f : Queue → Queue) (s : State) : (modQueue q f s).cores = s.cores := rfl
@[simp] theorem modQueue_dies (q : Nat) (f : Queue → Queue) (s : State) : (modQueue q f s).dies = s.dies := rfl
@[simp] theorem modQueue_ctls (q : Nat) (f : Queue → Queue) (s : State) : (modQueue q f s).ctls = s.ctls := rfl
@[simp] theorem modQueue_walks (q : Nat) (f : Queue → Queue) (s : State) : (modQueue q f s).walks = s.walks := rfl
@[simp] theorem modQueue_mem (q : Nat) (f : Queue → Queue) (s : State) : (modQueue q f s).mem = s.mem := rfl
@[simp] theorem modQueue_pmem (q : Nat) (f : Queue → Queue) (s : State) : (modQueue q f s).pmem = s.pmem := rfl
@[simp] theorem modQueue_hmem (q : Nat) (f : Queue → Queue) (s : State) : (modQueue q f s).hmem = s.hmem := rfl
@[simp] theorem modQueue_items (q : Nat) (f : Queue → Queue) (s : State) : (modQueue q f s).items = s.items := rfl
@[simp] theorem modQueue_floors (q : Nat) (f : Queue → Queue) (s : State) : (modQueue q f s).floors = s.floors := rfl
@[simp] theorem modQueue_lines (q : Nat) (f : Queue → Queue) (s : State) : (modQueue q f s).lines = s.lines := rfl
@[simp] theorem modQueue_units (q : Nat) (f : Queue → Queue) (s : State) : (modQueue q f s).units = s.units := rfl
@[simp] theorem modQueue_fills (q : Nat) (f : Queue → Queue) (s : State) : (modQueue q f s).fills = s.fills := rfl
@[simp] theorem modQueue_runs (q : Nat) (f : Queue → Queue) (s : State) : (modQueue q f s).runs = s.runs := rfl
@[simp] theorem modQueue_ring (q : Nat) (f : Queue → Queue) (s : State) : (modQueue q f s).ring = s.ring := rfl
@[simp] theorem modQueue_seqs (q : Nat) (f : Queue → Queue) (s : State) : (modQueue q f s).seqs = s.seqs := rfl
@[simp] theorem modQueue_ports (q : Nat) (f : Queue → Queue) (s : State) : (modQueue q f s).ports = s.ports := rfl
@[simp] theorem modQueue_decoders (q : Nat) (f : Queue → Queue) (s : State) :
    (modQueue q f s).decoders = s.decoders := rfl
@[simp] theorem modQueue_rmap (q : Nat) (f : Queue → Queue) (s : State) : (modQueue q f s).rmap = s.rmap := rfl
@[simp] theorem modQueue_peers (q : Nat) (f : Queue → Queue) (s : State) : (modQueue q f s).peers = s.peers := rfl
@[simp] theorem modQueue_dev (q : Nat) (f : Queue → Queue) (s : State) : (modQueue q f s).dev = s.dev := rfl
@[simp] theorem modQueue_missed (q : Nat) (f : Queue → Queue) (s : State) : (modQueue q f s).missed = s.missed := rfl
@[simp] theorem modQueue_plat (q : Nat) (f : Queue → Queue) (s : State) : (modQueue q f s).plat = s.plat := rfl
@[simp] theorem modQueue_block_get (q : Nat) (f : Queue → Queue) (s : State) (x : Nat) :
    (modQueue q f s).block x = s.block x := rfl
@[simp] theorem modQueue_launch_get (q : Nat) (f : Queue → Queue) (s : State) (x : Nat) :
    (modQueue q f s).launch x = s.launch x := rfl
@[simp] theorem modQueue_core_get (q : Nat) (f : Queue → Queue) (s : State) (x : Nat) :
    (modQueue q f s).core x = s.core x := rfl
@[simp] theorem modQueue_die_get (q : Nat) (f : Queue → Queue) (s : State) (x : Nat) :
    (modQueue q f s).die x = s.die x := rfl
@[simp] theorem modQueue_ctl_get (q : Nat) (f : Queue → Queue) (s : State) (x : Nat) :
    (modQueue q f s).ctl x = s.ctl x := rfl
@[simp] theorem modQueue_ctx_get (q : Nat) (f : Queue → Queue) (s : State) (x : Nat) :
    (modQueue q f s).ctx x = s.ctx x := rfl
@[simp] theorem modQueue_thread_get (q : Nat) (f : Queue → Queue) (s : State) (x y : Nat) :
    (modQueue q f s).thread x y = s.thread x y := rfl
@[simp] theorem modQueue_launchOf_get (q : Nat) (f : Queue → Queue) (s : State) (x : Nat) :
    (modQueue q f s).launchOf x = s.launchOf x := rfl

/-! ### modDie -/

@[simp] theorem modDie_agenda (d : Nat) (f : Die → Die) (s : State) : (modDie d f s).agenda = s.agenda := rfl
@[simp] theorem modDie_cur (d : Nat) (f : Die → Die) (s : State) : (modDie d f s).cur = s.cur := rfl
@[simp] theorem modDie_cycle (d : Nat) (f : Die → Die) (s : State) : (modDie d f s).cycle = s.cycle := rfl
@[simp] theorem modDie_now (d : Nat) (f : Die → Die) (s : State) : (modDie d f s).now = s.now := rfl
@[simp] theorem modDie_free (d : Nat) (f : Die → Die) (s : State) : (modDie d f s).free = s.free := rfl
@[simp] theorem modDie_queues (d : Nat) (f : Die → Die) (s : State) : (modDie d f s).queues = s.queues := rfl
@[simp] theorem modDie_ctxs (d : Nat) (f : Die → Die) (s : State) : (modDie d f s).ctxs = s.ctxs := rfl
@[simp] theorem modDie_parts (d : Nat) (f : Die → Die) (s : State) : (modDie d f s).parts = s.parts := rfl
@[simp] theorem modDie_launches (d : Nat) (f : Die → Die) (s : State) : (modDie d f s).launches = s.launches := rfl
@[simp] theorem modDie_xfers (d : Nat) (f : Die → Die) (s : State) : (modDie d f s).xfers = s.xfers := rfl
@[simp] theorem modDie_blocks (d : Nat) (f : Die → Die) (s : State) : (modDie d f s).blocks = s.blocks := rfl
@[simp] theorem modDie_cores (d : Nat) (f : Die → Die) (s : State) : (modDie d f s).cores = s.cores := rfl
@[simp] theorem modDie_dies (d : Nat) (f : Die → Die) (s : State) : (modDie d f s).dies = modAt f d s.dies := rfl
@[simp] theorem modDie_ctls (d : Nat) (f : Die → Die) (s : State) : (modDie d f s).ctls = s.ctls := rfl
@[simp] theorem modDie_walks (d : Nat) (f : Die → Die) (s : State) : (modDie d f s).walks = s.walks := rfl
@[simp] theorem modDie_mem (d : Nat) (f : Die → Die) (s : State) : (modDie d f s).mem = s.mem := rfl
@[simp] theorem modDie_pmem (d : Nat) (f : Die → Die) (s : State) : (modDie d f s).pmem = s.pmem := rfl
@[simp] theorem modDie_hmem (d : Nat) (f : Die → Die) (s : State) : (modDie d f s).hmem = s.hmem := rfl
@[simp] theorem modDie_items (d : Nat) (f : Die → Die) (s : State) : (modDie d f s).items = s.items := rfl
@[simp] theorem modDie_floors (d : Nat) (f : Die → Die) (s : State) : (modDie d f s).floors = s.floors := rfl
@[simp] theorem modDie_lines (d : Nat) (f : Die → Die) (s : State) : (modDie d f s).lines = s.lines := rfl
@[simp] theorem modDie_units (d : Nat) (f : Die → Die) (s : State) : (modDie d f s).units = s.units := rfl
@[simp] theorem modDie_fills (d : Nat) (f : Die → Die) (s : State) : (modDie d f s).fills = s.fills := rfl
@[simp] theorem modDie_runs (d : Nat) (f : Die → Die) (s : State) : (modDie d f s).runs = s.runs := rfl
@[simp] theorem modDie_ring (d : Nat) (f : Die → Die) (s : State) : (modDie d f s).ring = s.ring := rfl
@[simp] theorem modDie_seqs (d : Nat) (f : Die → Die) (s : State) : (modDie d f s).seqs = s.seqs := rfl
@[simp] theorem modDie_ports (d : Nat) (f : Die → Die) (s : State) : (modDie d f s).ports = s.ports := rfl
@[simp] theorem modDie_decoders (d : Nat) (f : Die → Die) (s : State) : (modDie d f s).decoders = s.decoders := rfl
@[simp] theorem modDie_rmap (d : Nat) (f : Die → Die) (s : State) : (modDie d f s).rmap = s.rmap := rfl
@[simp] theorem modDie_peers (d : Nat) (f : Die → Die) (s : State) : (modDie d f s).peers = s.peers := rfl
@[simp] theorem modDie_dev (d : Nat) (f : Die → Die) (s : State) : (modDie d f s).dev = s.dev := rfl
@[simp] theorem modDie_missed (d : Nat) (f : Die → Die) (s : State) : (modDie d f s).missed = s.missed := rfl
@[simp] theorem modDie_plat (d : Nat) (f : Die → Die) (s : State) : (modDie d f s).plat = s.plat := rfl
@[simp] theorem modDie_block_get (d : Nat) (f : Die → Die) (s : State) (x : Nat) :
    (modDie d f s).block x = s.block x := rfl
@[simp] theorem modDie_launch_get (d : Nat) (f : Die → Die) (s : State) (x : Nat) :
    (modDie d f s).launch x = s.launch x := rfl
@[simp] theorem modDie_core_get (d : Nat) (f : Die → Die) (s : State) (x : Nat) :
    (modDie d f s).core x = s.core x := rfl
@[simp] theorem modDie_queue_get (d : Nat) (f : Die → Die) (s : State) (x : Nat) :
    (modDie d f s).queue x = s.queue x := rfl
@[simp] theorem modDie_ctl_get (d : Nat) (f : Die → Die) (s : State) (x : Nat) : (modDie d f s).ctl x = s.ctl x := rfl
@[simp] theorem modDie_ctx_get (d : Nat) (f : Die → Die) (s : State) (x : Nat) : (modDie d f s).ctx x = s.ctx x := rfl
@[simp] theorem modDie_thread_get (d : Nat) (f : Die → Die) (s : State) (x y : Nat) :
    (modDie d f s).thread x y = s.thread x y := rfl
@[simp] theorem modDie_launchOf_get (d : Nat) (f : Die → Die) (s : State) (x : Nat) :
    (modDie d f s).launchOf x = s.launchOf x := rfl

/-! ### modCtl -/

@[simp] theorem modCtl_agenda (c : Nat) (f : Controller → Controller) (s : State) :
    (modCtl c f s).agenda = s.agenda := rfl
@[simp] theorem modCtl_cur (c : Nat) (f : Controller → Controller) (s : State) : (modCtl c f s).cur = s.cur := rfl
@[simp] theorem modCtl_cycle (c : Nat) (f : Controller → Controller) (s : State) : (modCtl c f s).cycle = s.cycle := rfl
@[simp] theorem modCtl_now (c : Nat) (f : Controller → Controller) (s : State) : (modCtl c f s).now = s.now := rfl
@[simp] theorem modCtl_free (c : Nat) (f : Controller → Controller) (s : State) : (modCtl c f s).free = s.free := rfl
@[simp] theorem modCtl_queues (c : Nat) (f : Controller → Controller) (s : State) :
    (modCtl c f s).queues = s.queues := rfl
@[simp] theorem modCtl_ctxs (c : Nat) (f : Controller → Controller) (s : State) : (modCtl c f s).ctxs = s.ctxs := rfl
@[simp] theorem modCtl_parts (c : Nat) (f : Controller → Controller) (s : State) : (modCtl c f s).parts = s.parts := rfl
@[simp] theorem modCtl_launches (c : Nat) (f : Controller → Controller) (s : State) :
    (modCtl c f s).launches = s.launches := rfl
@[simp] theorem modCtl_xfers (c : Nat) (f : Controller → Controller) (s : State) : (modCtl c f s).xfers = s.xfers := rfl
@[simp] theorem modCtl_blocks (c : Nat) (f : Controller → Controller) (s : State) :
    (modCtl c f s).blocks = s.blocks := rfl
@[simp] theorem modCtl_cores (c : Nat) (f : Controller → Controller) (s : State) : (modCtl c f s).cores = s.cores := rfl
@[simp] theorem modCtl_dies (c : Nat) (f : Controller → Controller) (s : State) : (modCtl c f s).dies = s.dies := rfl
@[simp] theorem modCtl_ctls (c : Nat) (f : Controller → Controller) (s : State) :
    (modCtl c f s).ctls = modAt f c s.ctls := rfl
@[simp] theorem modCtl_walks (c : Nat) (f : Controller → Controller) (s : State) : (modCtl c f s).walks = s.walks := rfl
@[simp] theorem modCtl_mem (c : Nat) (f : Controller → Controller) (s : State) : (modCtl c f s).mem = s.mem := rfl
@[simp] theorem modCtl_pmem (c : Nat) (f : Controller → Controller) (s : State) : (modCtl c f s).pmem = s.pmem := rfl
@[simp] theorem modCtl_hmem (c : Nat) (f : Controller → Controller) (s : State) : (modCtl c f s).hmem = s.hmem := rfl
@[simp] theorem modCtl_items (c : Nat) (f : Controller → Controller) (s : State) : (modCtl c f s).items = s.items := rfl
@[simp] theorem modCtl_floors (c : Nat) (f : Controller → Controller) (s : State) :
    (modCtl c f s).floors = s.floors := rfl
@[simp] theorem modCtl_lines (c : Nat) (f : Controller → Controller) (s : State) : (modCtl c f s).lines = s.lines := rfl
@[simp] theorem modCtl_units (c : Nat) (f : Controller → Controller) (s : State) : (modCtl c f s).units = s.units := rfl
@[simp] theorem modCtl_fills (c : Nat) (f : Controller → Controller) (s : State) : (modCtl c f s).fills = s.fills := rfl
@[simp] theorem modCtl_runs (c : Nat) (f : Controller → Controller) (s : State) : (modCtl c f s).runs = s.runs := rfl
@[simp] theorem modCtl_ring (c : Nat) (f : Controller → Controller) (s : State) : (modCtl c f s).ring = s.ring := rfl
@[simp] theorem modCtl_seqs (c : Nat) (f : Controller → Controller) (s : State) : (modCtl c f s).seqs = s.seqs := rfl
@[simp] theorem modCtl_ports (c : Nat) (f : Controller → Controller) (s : State) : (modCtl c f s).ports = s.ports := rfl
@[simp] theorem modCtl_decoders (c : Nat) (f : Controller → Controller) (s : State) :
    (modCtl c f s).decoders = s.decoders := rfl
@[simp] theorem modCtl_rmap (c : Nat) (f : Controller → Controller) (s : State) : (modCtl c f s).rmap = s.rmap := rfl
@[simp] theorem modCtl_peers (c : Nat) (f : Controller → Controller) (s : State) : (modCtl c f s).peers = s.peers := rfl
@[simp] theorem modCtl_dev (c : Nat) (f : Controller → Controller) (s : State) : (modCtl c f s).dev = s.dev := rfl
@[simp] theorem modCtl_missed (c : Nat) (f : Controller → Controller) (s : State) :
    (modCtl c f s).missed = s.missed := rfl
@[simp] theorem modCtl_plat (c : Nat) (f : Controller → Controller) (s : State) : (modCtl c f s).plat = s.plat := rfl
@[simp] theorem modCtl_block_get (c : Nat) (f : Controller → Controller) (s : State) (x : Nat) :
    (modCtl c f s).block x = s.block x := rfl
@[simp] theorem modCtl_launch_get (c : Nat) (f : Controller → Controller) (s : State) (x : Nat) :
    (modCtl c f s).launch x = s.launch x := rfl
@[simp] theorem modCtl_core_get (c : Nat) (f : Controller → Controller) (s : State) (x : Nat) :
    (modCtl c f s).core x = s.core x := rfl
@[simp] theorem modCtl_queue_get (c : Nat) (f : Controller → Controller) (s : State) (x : Nat) :
    (modCtl c f s).queue x = s.queue x := rfl
@[simp] theorem modCtl_die_get (c : Nat) (f : Controller → Controller) (s : State) (x : Nat) :
    (modCtl c f s).die x = s.die x := rfl
@[simp] theorem modCtl_ctx_get (c : Nat) (f : Controller → Controller) (s : State) (x : Nat) :
    (modCtl c f s).ctx x = s.ctx x := rfl
@[simp] theorem modCtl_thread_get (c : Nat) (f : Controller → Controller) (s : State) (x y : Nat) :
    (modCtl c f s).thread x y = s.thread x y := rfl
@[simp] theorem modCtl_launchOf_get (c : Nat) (f : Controller → Controller) (s : State) (x : Nat) :
    (modCtl c f s).launchOf x = s.launchOf x := rfl

/-! ### modPart -/

@[simp] theorem modPart_agenda (p : Nat) (f : Partition → Partition) (s : State) :
    (modPart p f s).agenda = s.agenda := rfl
@[simp] theorem modPart_cur (p : Nat) (f : Partition → Partition) (s : State) : (modPart p f s).cur = s.cur := rfl
@[simp] theorem modPart_cycle (p : Nat) (f : Partition → Partition) (s : State) : (modPart p f s).cycle = s.cycle := rfl
@[simp] theorem modPart_now (p : Nat) (f : Partition → Partition) (s : State) : (modPart p f s).now = s.now := rfl
@[simp] theorem modPart_free (p : Nat) (f : Partition → Partition) (s : State) : (modPart p f s).free = s.free := rfl
@[simp] theorem modPart_queues (p : Nat) (f : Partition → Partition) (s : State) :
    (modPart p f s).queues = s.queues := rfl
@[simp] theorem modPart_ctxs (p : Nat) (f : Partition → Partition) (s : State) : (modPart p f s).ctxs = s.ctxs := rfl
@[simp] theorem modPart_parts (p : Nat) (f : Partition → Partition) (s : State) :
    (modPart p f s).parts = modAt f p s.parts := rfl
@[simp] theorem modPart_launches (p : Nat) (f : Partition → Partition) (s : State) :
    (modPart p f s).launches = s.launches := rfl
@[simp] theorem modPart_xfers (p : Nat) (f : Partition → Partition) (s : State) : (modPart p f s).xfers = s.xfers := rfl
@[simp] theorem modPart_blocks (p : Nat) (f : Partition → Partition) (s : State) :
    (modPart p f s).blocks = s.blocks := rfl
@[simp] theorem modPart_cores (p : Nat) (f : Partition → Partition) (s : State) : (modPart p f s).cores = s.cores := rfl
@[simp] theorem modPart_dies (p : Nat) (f : Partition → Partition) (s : State) : (modPart p f s).dies = s.dies := rfl
@[simp] theorem modPart_ctls (p : Nat) (f : Partition → Partition) (s : State) : (modPart p f s).ctls = s.ctls := rfl
@[simp] theorem modPart_walks (p : Nat) (f : Partition → Partition) (s : State) : (modPart p f s).walks = s.walks := rfl
@[simp] theorem modPart_mem (p : Nat) (f : Partition → Partition) (s : State) : (modPart p f s).mem = s.mem := rfl
@[simp] theorem modPart_pmem (p : Nat) (f : Partition → Partition) (s : State) : (modPart p f s).pmem = s.pmem := rfl
@[simp] theorem modPart_hmem (p : Nat) (f : Partition → Partition) (s : State) : (modPart p f s).hmem = s.hmem := rfl
@[simp] theorem modPart_items (p : Nat) (f : Partition → Partition) (s : State) : (modPart p f s).items = s.items := rfl
@[simp] theorem modPart_floors (p : Nat) (f : Partition → Partition) (s : State) :
    (modPart p f s).floors = s.floors := rfl
@[simp] theorem modPart_lines (p : Nat) (f : Partition → Partition) (s : State) : (modPart p f s).lines = s.lines := rfl
@[simp] theorem modPart_units (p : Nat) (f : Partition → Partition) (s : State) : (modPart p f s).units = s.units := rfl
@[simp] theorem modPart_fills (p : Nat) (f : Partition → Partition) (s : State) : (modPart p f s).fills = s.fills := rfl
@[simp] theorem modPart_runs (p : Nat) (f : Partition → Partition) (s : State) : (modPart p f s).runs = s.runs := rfl
@[simp] theorem modPart_ring (p : Nat) (f : Partition → Partition) (s : State) : (modPart p f s).ring = s.ring := rfl
@[simp] theorem modPart_seqs (p : Nat) (f : Partition → Partition) (s : State) : (modPart p f s).seqs = s.seqs := rfl
@[simp] theorem modPart_ports (p : Nat) (f : Partition → Partition) (s : State) : (modPart p f s).ports = s.ports := rfl
@[simp] theorem modPart_decoders (p : Nat) (f : Partition → Partition) (s : State) :
    (modPart p f s).decoders = s.decoders := rfl
@[simp] theorem modPart_rmap (p : Nat) (f : Partition → Partition) (s : State) : (modPart p f s).rmap = s.rmap := rfl
@[simp] theorem modPart_peers (p : Nat) (f : Partition → Partition) (s : State) : (modPart p f s).peers = s.peers := rfl
@[simp] theorem modPart_dev (p : Nat) (f : Partition → Partition) (s : State) : (modPart p f s).dev = s.dev := rfl
@[simp] theorem modPart_missed (p : Nat) (f : Partition → Partition) (s : State) :
    (modPart p f s).missed = s.missed := rfl
@[simp] theorem modPart_plat (p : Nat) (f : Partition → Partition) (s : State) : (modPart p f s).plat = s.plat := rfl
@[simp] theorem modPart_block_get (p : Nat) (f : Partition → Partition) (s : State) (x : Nat) :
    (modPart p f s).block x = s.block x := rfl
@[simp] theorem modPart_launch_get (p : Nat) (f : Partition → Partition) (s : State) (x : Nat) :
    (modPart p f s).launch x = s.launch x := rfl
@[simp] theorem modPart_core_get (p : Nat) (f : Partition → Partition) (s : State) (x : Nat) :
    (modPart p f s).core x = s.core x := rfl
@[simp] theorem modPart_queue_get (p : Nat) (f : Partition → Partition) (s : State) (x : Nat) :
    (modPart p f s).queue x = s.queue x := rfl
@[simp] theorem modPart_die_get (p : Nat) (f : Partition → Partition) (s : State) (x : Nat) :
    (modPart p f s).die x = s.die x := rfl
@[simp] theorem modPart_ctl_get (p : Nat) (f : Partition → Partition) (s : State) (x : Nat) :
    (modPart p f s).ctl x = s.ctl x := rfl
@[simp] theorem modPart_ctx_get (p : Nat) (f : Partition → Partition) (s : State) (x : Nat) :
    (modPart p f s).ctx x = s.ctx x := rfl
@[simp] theorem modPart_thread_get (p : Nat) (f : Partition → Partition) (s : State) (x y : Nat) :
    (modPart p f s).thread x y = s.thread x y := rfl
@[simp] theorem modPart_launchOf_get (p : Nat) (f : Partition → Partition) (s : State) (x : Nat) :
    (modPart p f s).launchOf x = s.launchOf x := rfl

/-! ### modCtx -/

@[simp] theorem modCtx_agenda (n : Nat) (f : Context → Context) (s : State) : (modCtx n f s).agenda = s.agenda := rfl
@[simp] theorem modCtx_cur (n : Nat) (f : Context → Context) (s : State) : (modCtx n f s).cur = s.cur := rfl
@[simp] theorem modCtx_cycle (n : Nat) (f : Context → Context) (s : State) : (modCtx n f s).cycle = s.cycle := rfl
@[simp] theorem modCtx_now (n : Nat) (f : Context → Context) (s : State) : (modCtx n f s).now = s.now := rfl
@[simp] theorem modCtx_free (n : Nat) (f : Context → Context) (s : State) : (modCtx n f s).free = s.free := rfl
@[simp] theorem modCtx_queues (n : Nat) (f : Context → Context) (s : State) : (modCtx n f s).queues = s.queues := rfl
@[simp] theorem modCtx_ctxs (n : Nat) (f : Context → Context) (s : State) :
    (modCtx n f s).ctxs = modIf (fun c => c.spec.num = n) f s.ctxs := rfl
@[simp] theorem modCtx_parts (n : Nat) (f : Context → Context) (s : State) : (modCtx n f s).parts = s.parts := rfl
@[simp] theorem modCtx_launches (n : Nat) (f : Context → Context) (s : State) :
    (modCtx n f s).launches = s.launches := rfl
@[simp] theorem modCtx_xfers (n : Nat) (f : Context → Context) (s : State) : (modCtx n f s).xfers = s.xfers := rfl
@[simp] theorem modCtx_blocks (n : Nat) (f : Context → Context) (s : State) : (modCtx n f s).blocks = s.blocks := rfl
@[simp] theorem modCtx_cores (n : Nat) (f : Context → Context) (s : State) : (modCtx n f s).cores = s.cores := rfl
@[simp] theorem modCtx_dies (n : Nat) (f : Context → Context) (s : State) : (modCtx n f s).dies = s.dies := rfl
@[simp] theorem modCtx_ctls (n : Nat) (f : Context → Context) (s : State) : (modCtx n f s).ctls = s.ctls := rfl
@[simp] theorem modCtx_walks (n : Nat) (f : Context → Context) (s : State) : (modCtx n f s).walks = s.walks := rfl
@[simp] theorem modCtx_mem (n : Nat) (f : Context → Context) (s : State) : (modCtx n f s).mem = s.mem := rfl
@[simp] theorem modCtx_pmem (n : Nat) (f : Context → Context) (s : State) : (modCtx n f s).pmem = s.pmem := rfl
@[simp] theorem modCtx_hmem (n : Nat) (f : Context → Context) (s : State) : (modCtx n f s).hmem = s.hmem := rfl
@[simp] theorem modCtx_items (n : Nat) (f : Context → Context) (s : State) : (modCtx n f s).items = s.items := rfl
@[simp] theorem modCtx_floors (n : Nat) (f : Context → Context) (s : State) : (modCtx n f s).floors = s.floors := rfl
@[simp] theorem modCtx_lines (n : Nat) (f : Context → Context) (s : State) : (modCtx n f s).lines = s.lines := rfl
@[simp] theorem modCtx_units (n : Nat) (f : Context → Context) (s : State) : (modCtx n f s).units = s.units := rfl
@[simp] theorem modCtx_fills (n : Nat) (f : Context → Context) (s : State) : (modCtx n f s).fills = s.fills := rfl
@[simp] theorem modCtx_runs (n : Nat) (f : Context → Context) (s : State) : (modCtx n f s).runs = s.runs := rfl
@[simp] theorem modCtx_ring (n : Nat) (f : Context → Context) (s : State) : (modCtx n f s).ring = s.ring := rfl
@[simp] theorem modCtx_seqs (n : Nat) (f : Context → Context) (s : State) : (modCtx n f s).seqs = s.seqs := rfl
@[simp] theorem modCtx_ports (n : Nat) (f : Context → Context) (s : State) : (modCtx n f s).ports = s.ports := rfl
@[simp] theorem modCtx_decoders (n : Nat) (f : Context → Context) (s : State) :
    (modCtx n f s).decoders = s.decoders := rfl
@[simp] theorem modCtx_rmap (n : Nat) (f : Context → Context) (s : State) : (modCtx n f s).rmap = s.rmap := rfl
@[simp] theorem modCtx_peers (n : Nat) (f : Context → Context) (s : State) : (modCtx n f s).peers = s.peers := rfl
@[simp] theorem modCtx_dev (n : Nat) (f : Context → Context) (s : State) : (modCtx n f s).dev = s.dev := rfl
@[simp] theorem modCtx_missed (n : Nat) (f : Context → Context) (s : State) : (modCtx n f s).missed = s.missed := rfl
@[simp] theorem modCtx_plat (n : Nat) (f : Context → Context) (s : State) : (modCtx n f s).plat = s.plat := rfl
@[simp] theorem modCtx_block_get (n : Nat) (f : Context → Context) (s : State) (x : Nat) :
    (modCtx n f s).block x = s.block x := rfl
@[simp] theorem modCtx_launch_get (n : Nat) (f : Context → Context) (s : State) (x : Nat) :
    (modCtx n f s).launch x = s.launch x := rfl
@[simp] theorem modCtx_core_get (n : Nat) (f : Context → Context) (s : State) (x : Nat) :
    (modCtx n f s).core x = s.core x := rfl
@[simp] theorem modCtx_queue_get (n : Nat) (f : Context → Context) (s : State) (x : Nat) :
    (modCtx n f s).queue x = s.queue x := rfl
@[simp] theorem modCtx_die_get (n : Nat) (f : Context → Context) (s : State) (x : Nat) :
    (modCtx n f s).die x = s.die x := rfl
@[simp] theorem modCtx_ctl_get (n : Nat) (f : Context → Context) (s : State) (x : Nat) :
    (modCtx n f s).ctl x = s.ctl x := rfl
@[simp] theorem modCtx_thread_get (n : Nat) (f : Context → Context) (s : State) (x y : Nat) :
    (modCtx n f s).thread x y = s.thread x y := rfl
@[simp] theorem modCtx_launchOf_get (n : Nat) (f : Context → Context) (s : State) (x : Nat) :
    (modCtx n f s).launchOf x = s.launchOf x := rfl

/-! ### modPlat -/

@[simp] theorem modPlat_agenda (f : Platform → Platform) (s : State) : (modPlat f s).agenda = s.agenda := rfl
@[simp] theorem modPlat_cur (f : Platform → Platform) (s : State) : (modPlat f s).cur = s.cur := rfl
@[simp] theorem modPlat_cycle (f : Platform → Platform) (s : State) : (modPlat f s).cycle = s.cycle := rfl
@[simp] theorem modPlat_now (f : Platform → Platform) (s : State) : (modPlat f s).now = s.now := rfl
@[simp] theorem modPlat_free (f : Platform → Platform) (s : State) : (modPlat f s).free = s.free := rfl
@[simp] theorem modPlat_queues (f : Platform → Platform) (s : State) : (modPlat f s).queues = s.queues := rfl
@[simp] theorem modPlat_ctxs (f : Platform → Platform) (s : State) : (modPlat f s).ctxs = s.ctxs := rfl
@[simp] theorem modPlat_parts (f : Platform → Platform) (s : State) : (modPlat f s).parts = s.parts := rfl
@[simp] theorem modPlat_launches (f : Platform → Platform) (s : State) : (modPlat f s).launches = s.launches := rfl
@[simp] theorem modPlat_xfers (f : Platform → Platform) (s : State) : (modPlat f s).xfers = s.xfers := rfl
@[simp] theorem modPlat_blocks (f : Platform → Platform) (s : State) : (modPlat f s).blocks = s.blocks := rfl
@[simp] theorem modPlat_cores (f : Platform → Platform) (s : State) : (modPlat f s).cores = s.cores := rfl
@[simp] theorem modPlat_dies (f : Platform → Platform) (s : State) : (modPlat f s).dies = s.dies := rfl
@[simp] theorem modPlat_ctls (f : Platform → Platform) (s : State) : (modPlat f s).ctls = s.ctls := rfl
@[simp] theorem modPlat_walks (f : Platform → Platform) (s : State) : (modPlat f s).walks = s.walks := rfl
@[simp] theorem modPlat_mem (f : Platform → Platform) (s : State) : (modPlat f s).mem = s.mem := rfl
@[simp] theorem modPlat_pmem (f : Platform → Platform) (s : State) : (modPlat f s).pmem = s.pmem := rfl
@[simp] theorem modPlat_hmem (f : Platform → Platform) (s : State) : (modPlat f s).hmem = s.hmem := rfl
@[simp] theorem modPlat_items (f : Platform → Platform) (s : State) : (modPlat f s).items = s.items := rfl
@[simp] theorem modPlat_floors (f : Platform → Platform) (s : State) : (modPlat f s).floors = s.floors := rfl
@[simp] theorem modPlat_lines (f : Platform → Platform) (s : State) : (modPlat f s).lines = s.lines := rfl
@[simp] theorem modPlat_units (f : Platform → Platform) (s : State) : (modPlat f s).units = s.units := rfl
@[simp] theorem modPlat_fills (f : Platform → Platform) (s : State) : (modPlat f s).fills = s.fills := rfl
@[simp] theorem modPlat_runs (f : Platform → Platform) (s : State) : (modPlat f s).runs = s.runs := rfl
@[simp] theorem modPlat_ring (f : Platform → Platform) (s : State) : (modPlat f s).ring = s.ring := rfl
@[simp] theorem modPlat_seqs (f : Platform → Platform) (s : State) : (modPlat f s).seqs = s.seqs := rfl
@[simp] theorem modPlat_ports (f : Platform → Platform) (s : State) : (modPlat f s).ports = s.ports := rfl
@[simp] theorem modPlat_decoders (f : Platform → Platform) (s : State) : (modPlat f s).decoders = s.decoders := rfl
@[simp] theorem modPlat_rmap (f : Platform → Platform) (s : State) : (modPlat f s).rmap = s.rmap := rfl
@[simp] theorem modPlat_peers (f : Platform → Platform) (s : State) : (modPlat f s).peers = s.peers := rfl
@[simp] theorem modPlat_dev (f : Platform → Platform) (s : State) : (modPlat f s).dev = s.dev := rfl
@[simp] theorem modPlat_missed (f : Platform → Platform) (s : State) : (modPlat f s).missed = s.missed := rfl
@[simp] theorem modPlat_plat (f : Platform → Platform) (s : State) : (modPlat f s).plat = f s.plat := rfl
@[simp] theorem modPlat_block_get (f : Platform → Platform) (s : State) (x : Nat) :
    (modPlat f s).block x = s.block x := rfl
@[simp] theorem modPlat_launch_get (f : Platform → Platform) (s : State) (x : Nat) :
    (modPlat f s).launch x = s.launch x := rfl
@[simp] theorem modPlat_core_get (f : Platform → Platform) (s : State) (x : Nat) :
    (modPlat f s).core x = s.core x := rfl
@[simp] theorem modPlat_queue_get (f : Platform → Platform) (s : State) (x : Nat) :
    (modPlat f s).queue x = s.queue x := rfl
@[simp] theorem modPlat_die_get (f : Platform → Platform) (s : State) (x : Nat) : (modPlat f s).die x = s.die x := rfl
@[simp] theorem modPlat_ctl_get (f : Platform → Platform) (s : State) (x : Nat) : (modPlat f s).ctl x = s.ctl x := rfl
@[simp] theorem modPlat_ctx_get (f : Platform → Platform) (s : State) (x : Nat) : (modPlat f s).ctx x = s.ctx x := rfl
@[simp] theorem modPlat_thread_get (f : Platform → Platform) (s : State) (x y : Nat) :
    (modPlat f s).thread x y = s.thread x y := rfl
@[simp] theorem modPlat_launchOf_get (f : Platform → Platform) (s : State) (x : Nat) :
    (modPlat f s).launchOf x = s.launchOf x := rfl

/-! ### modRun -/

@[simp] theorem modRun_agenda (n : Nat) (f : XRun → XRun) (s : State) : (modRun n f s).agenda = s.agenda := rfl
@[simp] theorem modRun_cur (n : Nat) (f : XRun → XRun) (s : State) : (modRun n f s).cur = s.cur := rfl
@[simp] theorem modRun_cycle (n : Nat) (f : XRun → XRun) (s : State) : (modRun n f s).cycle = s.cycle := rfl
@[simp] theorem modRun_now (n : Nat) (f : XRun → XRun) (s : State) : (modRun n f s).now = s.now := rfl
@[simp] theorem modRun_free (n : Nat) (f : XRun → XRun) (s : State) : (modRun n f s).free = s.free := rfl
@[simp] theorem modRun_queues (n : Nat) (f : XRun → XRun) (s : State) : (modRun n f s).queues = s.queues := rfl
@[simp] theorem modRun_ctxs (n : Nat) (f : XRun → XRun) (s : State) : (modRun n f s).ctxs = s.ctxs := rfl
@[simp] theorem modRun_parts (n : Nat) (f : XRun → XRun) (s : State) : (modRun n f s).parts = s.parts := rfl
@[simp] theorem modRun_launches (n : Nat) (f : XRun → XRun) (s : State) : (modRun n f s).launches = s.launches := rfl
@[simp] theorem modRun_xfers (n : Nat) (f : XRun → XRun) (s : State) : (modRun n f s).xfers = s.xfers := rfl
@[simp] theorem modRun_blocks (n : Nat) (f : XRun → XRun) (s : State) : (modRun n f s).blocks = s.blocks := rfl
@[simp] theorem modRun_cores (n : Nat) (f : XRun → XRun) (s : State) : (modRun n f s).cores = s.cores := rfl
@[simp] theorem modRun_dies (n : Nat) (f : XRun → XRun) (s : State) : (modRun n f s).dies = s.dies := rfl
@[simp] theorem modRun_ctls (n : Nat) (f : XRun → XRun) (s : State) : (modRun n f s).ctls = s.ctls := rfl
@[simp] theorem modRun_walks (n : Nat) (f : XRun → XRun) (s : State) : (modRun n f s).walks = s.walks := rfl
@[simp] theorem modRun_mem (n : Nat) (f : XRun → XRun) (s : State) : (modRun n f s).mem = s.mem := rfl
@[simp] theorem modRun_pmem (n : Nat) (f : XRun → XRun) (s : State) : (modRun n f s).pmem = s.pmem := rfl
@[simp] theorem modRun_hmem (n : Nat) (f : XRun → XRun) (s : State) : (modRun n f s).hmem = s.hmem := rfl
@[simp] theorem modRun_items (n : Nat) (f : XRun → XRun) (s : State) : (modRun n f s).items = s.items := rfl
@[simp] theorem modRun_floors (n : Nat) (f : XRun → XRun) (s : State) : (modRun n f s).floors = s.floors := rfl
@[simp] theorem modRun_lines (n : Nat) (f : XRun → XRun) (s : State) : (modRun n f s).lines = s.lines := rfl
@[simp] theorem modRun_units (n : Nat) (f : XRun → XRun) (s : State) : (modRun n f s).units = s.units := rfl
@[simp] theorem modRun_fills (n : Nat) (f : XRun → XRun) (s : State) : (modRun n f s).fills = s.fills := rfl
@[simp] theorem modRun_runs (n : Nat) (f : XRun → XRun) (s : State) : (modRun n f s).runs = modAt f n s.runs := rfl
@[simp] theorem modRun_ring (n : Nat) (f : XRun → XRun) (s : State) : (modRun n f s).ring = s.ring := rfl
@[simp] theorem modRun_seqs (n : Nat) (f : XRun → XRun) (s : State) : (modRun n f s).seqs = s.seqs := rfl
@[simp] theorem modRun_ports (n : Nat) (f : XRun → XRun) (s : State) : (modRun n f s).ports = s.ports := rfl
@[simp] theorem modRun_decoders (n : Nat) (f : XRun → XRun) (s : State) : (modRun n f s).decoders = s.decoders := rfl
@[simp] theorem modRun_rmap (n : Nat) (f : XRun → XRun) (s : State) : (modRun n f s).rmap = s.rmap := rfl
@[simp] theorem modRun_peers (n : Nat) (f : XRun → XRun) (s : State) : (modRun n f s).peers = s.peers := rfl
@[simp] theorem modRun_dev (n : Nat) (f : XRun → XRun) (s : State) : (modRun n f s).dev = s.dev := rfl
@[simp] theorem modRun_missed (n : Nat) (f : XRun → XRun) (s : State) : (modRun n f s).missed = s.missed := rfl
@[simp] theorem modRun_plat (n : Nat) (f : XRun → XRun) (s : State) : (modRun n f s).plat = s.plat := rfl
@[simp] theorem modRun_block_get (n : Nat) (f : XRun → XRun) (s : State) (x : Nat) :
    (modRun n f s).block x = s.block x := rfl
@[simp] theorem modRun_launch_get (n : Nat) (f : XRun → XRun) (s : State) (x : Nat) :
    (modRun n f s).launch x = s.launch x := rfl
@[simp] theorem modRun_core_get (n : Nat) (f : XRun → XRun) (s : State) (x : Nat) :
    (modRun n f s).core x = s.core x := rfl
@[simp] theorem modRun_queue_get (n : Nat) (f : XRun → XRun) (s : State) (x : Nat) :
    (modRun n f s).queue x = s.queue x := rfl
@[simp] theorem modRun_die_get (n : Nat) (f : XRun → XRun) (s : State) (x : Nat) : (modRun n f s).die x = s.die x := rfl
@[simp] theorem modRun_ctl_get (n : Nat) (f : XRun → XRun) (s : State) (x : Nat) : (modRun n f s).ctl x = s.ctl x := rfl
@[simp] theorem modRun_ctx_get (n : Nat) (f : XRun → XRun) (s : State) (x : Nat) : (modRun n f s).ctx x = s.ctx x := rfl
@[simp] theorem modRun_thread_get (n : Nat) (f : XRun → XRun) (s : State) (x y : Nat) :
    (modRun n f s).thread x y = s.thread x y := rfl
@[simp] theorem modRun_launchOf_get (n : Nat) (f : XRun → XRun) (s : State) (x : Nat) :
    (modRun n f s).launchOf x = s.launchOf x := rfl

/-! ### modPort -/

@[simp] theorem modPort_agenda (p : Nat) (f : Port → Port) (s : State) : (modPort p f s).agenda = s.agenda := rfl
@[simp] theorem modPort_cur (p : Nat) (f : Port → Port) (s : State) : (modPort p f s).cur = s.cur := rfl
@[simp] theorem modPort_cycle (p : Nat) (f : Port → Port) (s : State) : (modPort p f s).cycle = s.cycle := rfl
@[simp] theorem modPort_now (p : Nat) (f : Port → Port) (s : State) : (modPort p f s).now = s.now := rfl
@[simp] theorem modPort_free (p : Nat) (f : Port → Port) (s : State) : (modPort p f s).free = s.free := rfl
@[simp] theorem modPort_queues (p : Nat) (f : Port → Port) (s : State) : (modPort p f s).queues = s.queues := rfl
@[simp] theorem modPort_ctxs (p : Nat) (f : Port → Port) (s : State) : (modPort p f s).ctxs = s.ctxs := rfl
@[simp] theorem modPort_parts (p : Nat) (f : Port → Port) (s : State) : (modPort p f s).parts = s.parts := rfl
@[simp] theorem modPort_launches (p : Nat) (f : Port → Port) (s : State) : (modPort p f s).launches = s.launches := rfl
@[simp] theorem modPort_xfers (p : Nat) (f : Port → Port) (s : State) : (modPort p f s).xfers = s.xfers := rfl
@[simp] theorem modPort_blocks (p : Nat) (f : Port → Port) (s : State) : (modPort p f s).blocks = s.blocks := rfl
@[simp] theorem modPort_cores (p : Nat) (f : Port → Port) (s : State) : (modPort p f s).cores = s.cores := rfl
@[simp] theorem modPort_dies (p : Nat) (f : Port → Port) (s : State) : (modPort p f s).dies = s.dies := rfl
@[simp] theorem modPort_ctls (p : Nat) (f : Port → Port) (s : State) : (modPort p f s).ctls = s.ctls := rfl
@[simp] theorem modPort_walks (p : Nat) (f : Port → Port) (s : State) : (modPort p f s).walks = s.walks := rfl
@[simp] theorem modPort_mem (p : Nat) (f : Port → Port) (s : State) : (modPort p f s).mem = s.mem := rfl
@[simp] theorem modPort_pmem (p : Nat) (f : Port → Port) (s : State) : (modPort p f s).pmem = s.pmem := rfl
@[simp] theorem modPort_hmem (p : Nat) (f : Port → Port) (s : State) : (modPort p f s).hmem = s.hmem := rfl
@[simp] theorem modPort_items (p : Nat) (f : Port → Port) (s : State) : (modPort p f s).items = s.items := rfl
@[simp] theorem modPort_floors (p : Nat) (f : Port → Port) (s : State) : (modPort p f s).floors = s.floors := rfl
@[simp] theorem modPort_lines (p : Nat) (f : Port → Port) (s : State) : (modPort p f s).lines = s.lines := rfl
@[simp] theorem modPort_units (p : Nat) (f : Port → Port) (s : State) : (modPort p f s).units = s.units := rfl
@[simp] theorem modPort_fills (p : Nat) (f : Port → Port) (s : State) : (modPort p f s).fills = s.fills := rfl
@[simp] theorem modPort_runs (p : Nat) (f : Port → Port) (s : State) : (modPort p f s).runs = s.runs := rfl
@[simp] theorem modPort_ring (p : Nat) (f : Port → Port) (s : State) : (modPort p f s).ring = s.ring := rfl
@[simp] theorem modPort_seqs (p : Nat) (f : Port → Port) (s : State) : (modPort p f s).seqs = s.seqs := rfl
@[simp] theorem modPort_ports (p : Nat) (f : Port → Port) (s : State) : (modPort p f s).ports = modAt f p s.ports := rfl
@[simp] theorem modPort_decoders (p : Nat) (f : Port → Port) (s : State) : (modPort p f s).decoders = s.decoders := rfl
@[simp] theorem modPort_rmap (p : Nat) (f : Port → Port) (s : State) : (modPort p f s).rmap = s.rmap := rfl
@[simp] theorem modPort_peers (p : Nat) (f : Port → Port) (s : State) : (modPort p f s).peers = s.peers := rfl
@[simp] theorem modPort_dev (p : Nat) (f : Port → Port) (s : State) : (modPort p f s).dev = s.dev := rfl
@[simp] theorem modPort_missed (p : Nat) (f : Port → Port) (s : State) : (modPort p f s).missed = s.missed := rfl
@[simp] theorem modPort_plat (p : Nat) (f : Port → Port) (s : State) : (modPort p f s).plat = s.plat := rfl
@[simp] theorem modPort_block_get (p : Nat) (f : Port → Port) (s : State) (x : Nat) :
    (modPort p f s).block x = s.block x := rfl
@[simp] theorem modPort_launch_get (p : Nat) (f : Port → Port) (s : State) (x : Nat) :
    (modPort p f s).launch x = s.launch x := rfl
@[simp] theorem modPort_core_get (p : Nat) (f : Port → Port) (s : State) (x : Nat) :
    (modPort p f s).core x = s.core x := rfl
@[simp] theorem modPort_queue_get (p : Nat) (f : Port → Port) (s : State) (x : Nat) :
    (modPort p f s).queue x = s.queue x := rfl
@[simp] theorem modPort_die_get (p : Nat) (f : Port → Port) (s : State) (x : Nat) :
    (modPort p f s).die x = s.die x := rfl
@[simp] theorem modPort_ctl_get (p : Nat) (f : Port → Port) (s : State) (x : Nat) :
    (modPort p f s).ctl x = s.ctl x := rfl
@[simp] theorem modPort_ctx_get (p : Nat) (f : Port → Port) (s : State) (x : Nat) :
    (modPort p f s).ctx x = s.ctx x := rfl
@[simp] theorem modPort_thread_get (p : Nat) (f : Port → Port) (s : State) (x y : Nat) :
    (modPort p f s).thread x y = s.thread x y := rfl
@[simp] theorem modPort_launchOf_get (p : Nat) (f : Port → Port) (s : State) (x : Nat) :
    (modPort p f s).launchOf x = s.launchOf x := rfl

/-! ### tickNow -/

@[simp] theorem tickNow_agenda (s : State) : (State.tickNow s).agenda = s.agenda := rfl
@[simp] theorem tickNow_cur (s : State) : (State.tickNow s).cur = s.cur := rfl
@[simp] theorem tickNow_cycle (s : State) : (State.tickNow s).cycle = s.cycle := rfl
@[simp] theorem tickNow_now (s : State) : (State.tickNow s).now = s.now + 1 := rfl
@[simp] theorem tickNow_free (s : State) : (State.tickNow s).free = s.free := rfl
@[simp] theorem tickNow_queues (s : State) : (State.tickNow s).queues = s.queues := rfl
@[simp] theorem tickNow_ctxs (s : State) : (State.tickNow s).ctxs = s.ctxs := rfl
@[simp] theorem tickNow_parts (s : State) : (State.tickNow s).parts = s.parts := rfl
@[simp] theorem tickNow_launches (s : State) : (State.tickNow s).launches = s.launches := rfl
@[simp] theorem tickNow_xfers (s : State) : (State.tickNow s).xfers = s.xfers := rfl
@[simp] theorem tickNow_blocks (s : State) : (State.tickNow s).blocks = s.blocks := rfl
@[simp] theorem tickNow_cores (s : State) : (State.tickNow s).cores = s.cores := rfl
@[simp] theorem tickNow_dies (s : State) : (State.tickNow s).dies = s.dies := rfl
@[simp] theorem tickNow_ctls (s : State) : (State.tickNow s).ctls = s.ctls := rfl
@[simp] theorem tickNow_walks (s : State) : (State.tickNow s).walks = s.walks := rfl
@[simp] theorem tickNow_mem (s : State) : (State.tickNow s).mem = s.mem := rfl
@[simp] theorem tickNow_pmem (s : State) : (State.tickNow s).pmem = s.pmem := rfl
@[simp] theorem tickNow_hmem (s : State) : (State.tickNow s).hmem = s.hmem := rfl
@[simp] theorem tickNow_items (s : State) : (State.tickNow s).items = s.items := rfl
@[simp] theorem tickNow_floors (s : State) : (State.tickNow s).floors = s.floors := rfl
@[simp] theorem tickNow_lines (s : State) : (State.tickNow s).lines = s.lines := rfl
@[simp] theorem tickNow_units (s : State) : (State.tickNow s).units = s.units := rfl
@[simp] theorem tickNow_fills (s : State) : (State.tickNow s).fills = s.fills := rfl
@[simp] theorem tickNow_runs (s : State) : (State.tickNow s).runs = s.runs := rfl
@[simp] theorem tickNow_ring (s : State) : (State.tickNow s).ring = s.ring := rfl
@[simp] theorem tickNow_seqs (s : State) : (State.tickNow s).seqs = s.seqs := rfl
@[simp] theorem tickNow_ports (s : State) : (State.tickNow s).ports = s.ports := rfl
@[simp] theorem tickNow_decoders (s : State) : (State.tickNow s).decoders = s.decoders := rfl
@[simp] theorem tickNow_rmap (s : State) : (State.tickNow s).rmap = s.rmap := rfl
@[simp] theorem tickNow_peers (s : State) : (State.tickNow s).peers = s.peers := rfl
@[simp] theorem tickNow_dev (s : State) : (State.tickNow s).dev = s.dev := rfl
@[simp] theorem tickNow_missed (s : State) : (State.tickNow s).missed = s.missed := rfl
@[simp] theorem tickNow_plat (s : State) : (State.tickNow s).plat = s.plat := rfl
@[simp] theorem tickNow_block_get (s : State) (x : Nat) : (State.tickNow s).block x = s.block x := rfl
@[simp] theorem tickNow_launch_get (s : State) (x : Nat) : (State.tickNow s).launch x = s.launch x := rfl
@[simp] theorem tickNow_core_get (s : State) (x : Nat) : (State.tickNow s).core x = s.core x := rfl
@[simp] theorem tickNow_queue_get (s : State) (x : Nat) : (State.tickNow s).queue x = s.queue x := rfl
@[simp] theorem tickNow_die_get (s : State) (x : Nat) : (State.tickNow s).die x = s.die x := rfl
@[simp] theorem tickNow_ctl_get (s : State) (x : Nat) : (State.tickNow s).ctl x = s.ctl x := rfl
@[simp] theorem tickNow_ctx_get (s : State) (x : Nat) : (State.tickNow s).ctx x = s.ctx x := rfl
@[simp] theorem tickNow_thread_get (s : State) (x y : Nat) : (State.tickNow s).thread x y = s.thread x y := rfl
@[simp] theorem tickNow_launchOf_get (s : State) (x : Nat) : (State.tickNow s).launchOf x = s.launchOf x := rfl

end Sys2Proof.Machine
end

