-- ==== Sys2Proof/Tests/Slice0.lean ====
section
/-!
SUPPORT. Tests: ill-formed terms that WellFormed refuses, words written out from the encoding tables of the spec, values
calculated by hand from its rules, and for each statement a state and operands that meet its hypotheses.
-/

namespace Sys2Proof.Tests

open Sys2Proof Machine

set_option maxRecDepth 4000

/-! ### A small machine: a block of two threads in place on core 0 -/

def tinyLaunch : Launch := { loadLaunch with threads := 2, regs := 32, tiles := 2, q := 0 }

def tinyBlock : Block :=
  let k := placeBlock tinyLaunch 0 0 0 (newBlock 0 0 2 0x10000#64 0x40#64 0 none none)
  { k with pwaves := k.pwaves.map fun w => { w with active := true } }

def tinyCtx : Context := ⟨loadSpec, [(1, loadLaunch.ranges)], loadLaunch.ranges, false, false, [], 0, List.replicate 4 0, [], [], [], [], [], []⟩

def tiny : State :=
  { State.reset with
      ctxs := [tinyCtx], parts := [⟨[0, 1], some 0, none, false, none⟩], launches := [tinyLaunch], blocks := [tinyBlock]
      cores := List.replicate 2 Core.init, dies := [Die.init, Die.init], cur := ⟨0, 0, 0x10000#64, 12, [0, 1], 0, 0⟩ }

/-- The two threads' state, changed alike. -/
def tinyWith (f : Thread → Thread) : State :=
  { tiny with blocks := [{ tinyBlock with threads := tinyBlock.threads.map f }] }

/-- The block, changed. -/
def tinyBlk (f : Block → Block) : State := { tiny with blocks := [f tinyBlock] }

/-- The registers of both threads set. -/
def tinyRegs (l : List (Nat × Word)) : State :=
  tinyWith fun th => { th with vals := l.foldl (fun v e => v.put e.1 ⟨e.2, .full, false⟩) th.vals }

/-- The dies have counted `n` cycles. -/
def atCycle (n : Nat) (s : State) : State := { s with dies := s.dies.map fun d => { d with cycle := n } }

/-- Only thread 0 in the group. -/
def alone (s : State) : State := { s with cur := { s.cur with tids := [0] } }

/-! ### Ill-formed terms, one for each check -/

def good : EFields := { baseFields with rd := 4, ra := 6, rb := 8 }

theorem test_wellFormed_good : ∀ i ∈ [Instr.iadd good, .nopBase, .xAdd ⟨1, 2, 3, false, 0⟩,
    .ld { good with mod := 0x14, scp := 5, ch := 3 }, .mma { baseFields with rd := 23, ra := 16, rb := 4, rc := 15, ret := 1, rm := 5 }],
    WellFormed i := by unfold WellFormed; decide

/-- The fields: a field that must be zero, a misaligned pair, run of 4 and run of 8, a predicate index of 16, a negated
predicate of 32, a tile of 24, an immediate of 256. -/
theorem test_illFormed_fields : ∀ i ∈ [Instr.iadd { good with rc := 1 }, .nop { baseFields with rd := 1 },
    .iadd { good with mod := 2, rd := 5 }, .mov { good with mod := 0x10, rb := 0, rd := 6, ra := 8 },
    .mma { baseFields with ra := 12 }, .iset { good with rd := 16 }, .mma { baseFields with rc := 16 }, .sel { good with re := 32 },
    .tkget { baseFields with rd := 24 }, .lop3 { good with re := 256 }], ¬WellFormed i := by unfold WellFormed; decide

/-- The common fields: an FE bit without a source, CH, RM, FTZI, FTZO and SCP where they are not allowed, an RM of 6, an
SCP of 6 and one that is missing, RET of 5, and RET of 1 where it must be zero, RET of 2 on MMA. -/
theorem test_illFormed_common : ∀ i ∈ [Instr.iadd { good with fe := 4 }, .iadd { good with ch := 1 }, .iadd { good with rm := 1 },
    .iadd { good with ftzi := true }, .iadd { good with ftzo := true }, .iadd { good with scp := 1 }, .fadd { good with rm := 6 },
    .ld { good with mod := 0x14, rd := 8, scp := 6 }, .ld { good with mod := 0x12 }, .iadd { good with ret := 5 },
    .nop { baseFields with ret := 1 }, .mma { baseFields with ra := 8, ret := 2 }], ¬WellFormed i := by unfold WellFormed; decide

/-- MOD: a bit the class does not define, and the values each entry forbids. -/
theorem test_illFormed_mod : ∀ i ∈ [Instr.iadd { good with mod := 8 }, .imulh { good with mod := 4 }, .iaddmin { good with mod := 0 },
    .iabs { good with rb := 0, mod := 0 }, .iset { good with mod := 6 }, .fsh { good with mod := 2 }, .fadd { good with mod := 5 },
    .fset { good with mod := 14 }, .fcls { good with mod := 3 }, .frnd { good with rb := 0, mod := 0x10 }, .fex2 { good with rb := 0, mod := 1 },
    .fscl { good with mod := 0x10 }, .fdp2 { good with mod := 2 }, .cvt { good with mod := 0, rb := 0 }, .shfl { good with mod := 7 },
    .vote { good with mod := 4 }, .wred { good with mod := 6 }, .qxch { good with mod := 0 }, .qbc { good with mod := 4 }]
      ++ [Instr.ld { good with mod := 5 }, .ld { good with mod := 0xA }, .ldc { good with mod := 2, scp := 1 }, .st { good with mod := 0x22, scp := 1 },
    .lds { good with mod := 5 }, .sts { good with mod := 0x22 }, .feset { baseFields with mod := 5 }, .atom { good with mod := 1, scp := 1 },
    .atom { good with mod := 2, rb := 10, scp := 1 }, .atoms { good with mod := 4, rb := 0 }, .fence { baseFields with mod := 0, scp := 1 },
    .cctl { good with rd := 0, mod := 3, scp := 1 }, .pfetch { good with rd := 0, mod := 2 }, .acp { good with mod := 8 },
    .acwait { baseFields with mod := 8 }, .mma { baseFields with mod := 6 }, .svc { good with mod := 0 }, .svc { good with mod := 5 },
    .sread { baseFields with re := 0x1D }, .sread { baseFields with re := 0x0F }, .sread { baseFields with re := 9, mod := 2 },
    .swrite { baseFields with re := 0x12 }], ¬WellFormed i := by unfold WellFormed; decide

/-- Literals: one where none is allowed, one that no field names, a field with 0x1FF that may not name it, a high half under
a 32-bit operand, an offset whose high half is not its sign or beside OFS9, and an FE bit on a literal. -/
theorem test_illFormed_literal : ∀ i ∈ [Instr.nop { baseFields with lit := some 0 }, .iadd { good with lit := some 1 },
    .shfl { good with ra := 0x1FF, rb := 0x1FF, lit := some 1 }, .iadd { good with rb := 0x1FF, lit := some 0x100000000 },
    .lds { good with mod := 2, lit := some 0xFFFFFFFF }, .lds { good with mod := 2, lit := some 4, rc := 1 },
    .lds { good with mod := 2, lit := some 4, rb := 0x1FF },
    .iadd { good with rb := 0x1FF, lit := some 1, fe := 2 }, .movi { good with rb := 0, lit := some 1 }], ¬WellFormed i := by
  unfold WellFormed; decide

/-- Fitas: IMM16 under I = 0, KC under I = 1, KB where it is zero; and a row without words. -/
theorem test_illFormed_fitas : ∀ i ∈ [Instr.xAdd ⟨1, 2, 3, false, 1⟩, .xAdd ⟨1, 2, 3, true, 1⟩, .xGetb ⟨1, 2, 3, false, 0⟩,
    .xPutb ⟨1, 2, 3, false, 0⟩, .xCopy ⟨1, 2, 3, false, 0⟩, .xInfo ⟨1, 2, 3, false, 0⟩, .thaw, .launch 0], ¬WellFormed i := by
  unfold WellFormed; decide

/-! ### Values, calculated by hand from the rules -/

/-- A thread with registers set. -/
def thr (l : List (Nat × Word)) : Thread := (tinyRegs l).thread 0 0

def f9 : EFields := { baseFields with rd := 9, ra := 10, rb := 11, rc := 12 }

/-- 19 R319: the examples of the table. -/
theorem test_integer_examples :
    aluResult (.iadd { f9 with mod := 5 }) (thr [(10, 0x7FFFFFFF), (11, 1)]) = 0x7FFFFFFF ∧
    aluResult (.iadd { f9 with mod := 1 }) (thr [(10, 0x7FFFFFFF), (11, 1)]) = 0x80000000 ∧
    aluResult (.isub { f9 with mod := 4 }) (thr [(10, 3), (11, 5)]) = 0 ∧
    aluResult (.iabs { f9 with mod := 1 }) (thr [(10, 0x80000000)]) = 0x80000000 ∧
    aluResult (.iabs { f9 with mod := 5 }) (thr [(10, 0x80000000)]) = 0x7FFFFFFF ∧
    aluResult (.imulh { f9 with mod := 1 }) (thr [(10, 0xFFFFFFFE), (11, 3)]) = 0xFFFFFFFF ∧
    aluResult (.imulh f9) (thr [(10, 0xFFFFFFFE), (11, 3)]) = 2 ∧
    aluResult (.idp4 { f9 with mod := 1 }) (thr [(10, 0x010203FF), (11, 0x01010101), (12, 10)]) = 15 ∧
    aluResult (.idp4 f9) (thr [(10, 0x010203FF), (11, 0x01010101), (12, 10)]) = 271 ∧
    aluResult (.iaddmin { f9 with mod := 1 }) (thr [(10, 0x7FFFFFFF), (11, 1), (12, 5)]) = 5 := by decide

/-- 18 R292, R293, R300, R316; 19 R340, R343; 20 R350: their examples. -/
theorem test_bit_examples :
    aluResult (.bfi { f9 with ra := 8, rb := 10, rc := 11, re := 12 }) (thr [(8, 5), (10, 0xFFFFFFFF), (11, 4), (12, 4)]) = 0xFFFFFF5F ∧
    aluResult (.bfx { f9 with ra := 8, rb := 10, rc := 11, mod := 1 }) (thr [(8, 0xF80), (10, 4), (11, 8)]) = 0xFFFFFFF8 ∧
    aluResult (.clz { f9 with rb := 0, rc := 0 }) (thr [(10, 0xF80)]) = 20 ∧
    aluResult (.popc { f9 with rb := 0, rc := 0 }) (thr [(10, 0xF80)]) = 5 ∧
    aluResult (.brev { f9 with rb := 0, rc := 0 }) (thr [(10, 1)]) = 0x80000000 ∧
    aluResult (.fsh f9) (thr [(10, 0x12345678), (11, 0xAB), (12, 8)]) = 0xAB123456 ∧
    aluResult (.perm { f9 with rb := 0 }) (thr [(10, 0x11223344), (12, 0x0123)]) = 0x44332211 ∧
    aluResult (.sar f9) (thr [(10, 0x80000000), (11, 40)]) = 0xFFFFFFFF := by decide


/-! ### Decoding, by words written out from the encodings of the spec (04 Tables 04.6 and 04.9, the entries of 18 to 20) -/

def words (l : List Word) : List Byte := l.flatMap wordBytes

def controlWords : List (List Word × Instr) :=
  [
    ([1, 0, 0x03800000], .nop { baseFields with stall := 7 }),
    ([5, 0x07FFFFFD, 0x00000200], .bra { baseFields with ra := 509, rb := 511, rc := 511, g1 := 1 }),
    ([9, 0x00000014, 0], .brx { baseFields with ra := 20 }),
    ([0x0028000D, 4, 0], .call { baseFields with rd := 40, ra := 4 }),
    ([0x00280011, 0x00000014, 0], .callx { baseFields with rd := 40, ra := 20 }),
    ([0x00000015, 0x00000028, 0], .ret { baseFields with ra := 40 }),
    ([0x00140019, 0x00000010, 0], .meet { baseFields with rd := 20, ra := 16 }),
    ([0x0000001D, 0x00000014, 0], .meetx { baseFields with ra := 20 }),
    ([0x00000021, 0, 0x00000600], .exit { baseFields with g1 := 3 }),
    ([0x00000025, 0, 0x18000000], .bar { baseFields with scp := 3 }),
    ([0x00000029, 0, 5], .trap { baseFields with re := 5 }),
    ([0x0000002D, 0, 0], .brk baseFields),
    ([0x00160031, 0x00482A14, 0x00000602], .spawn { baseFields with rd := 22, ra := 20, rb := 21, rc := 18, re := 2, g1 := 3 }),
    ([0x00030035, 0, 0], .gate { baseFields with rd := 3 }),
    ([0x00030039, 0, 0], .release { baseFields with rd := 3 }),
    ([0x0009083D, 0x0000001E, 0], .svc { baseFields with rd := 9, mod := 2, ra := 30 })]

theorem test_decode_control : ∀ p ∈ controlWords, decode (words p.1) = .ok p.2 [] ∧ encode p.2 = words p.1 := by decide

def integerWords : List (List Word × Instr) :=
  [
    ([0x001B0483, 0x0003FE1B, 0, 0x00000800, 0], .iadd { baseFields with rd := 27, mod := 1, ra := 27, rb := 511, lit := some 0x800 }),
    ([0x00091085, 0x0000160A, 0], .isub { baseFields with rd := 9, mod := 4, ra := 10, rb := 11 }),
    ([0x00090089, 0x0030160A, 0], .iadd3 { baseFields with rd := 9, ra := 10, rb := 11, rc := 12 }),
    ([0x0009008D, 0x0000160A, 0], .imul { baseFields with rd := 9, ra := 10, rb := 11 }),
    ([0x00090091, 0x0000160A, 0], .imulh { baseFields with rd := 9, ra := 10, rb := 11 }),
    ([0x00090095, 0x0030160A, 0], .imad { baseFields with rd := 9, ra := 10, rb := 11, rc := 12 }),
    ([0x000A0499, 0x0030160A, 0], .imadw { baseFields with rd := 10, mod := 1, ra := 10, rb := 11, rc := 12 }),
    ([0x0011049F, 0x0003FE11, 0, 0x00000020, 0], .imin { baseFields with rd := 17, mod := 1, ra := 17, rb := 511, lit := some 0x20 }),
    ([0x000904A1, 0x0000160A, 0], .imax { baseFields with rd := 9, mod := 1, ra := 10, rb := 11 }),
    ([0x001C04A7, 0x0073FE10, 0, 1, 0], .iaddmin { baseFields with rd := 28, mod := 1, ra := 16, rb := 511, rc := 28, lit := some 1 }),
    ([0x000904A9, 0x0000000A, 0], .iabs { baseFields with rd := 9, mod := 1, ra := 10 }),
    ([0x000904AD, 0x0030160A, 0], .idp4 { baseFields with rd := 9, mod := 1, ra := 10, rb := 11, rc := 12 }),
    ([0x000128B1, 0x00001004, 0], .iset { baseFields with rd := 1, mod := 10, ra := 4, rb := 8 }),
    ([0x000900B5, 0x0000160A, 0x00000012], .sel { baseFields with rd := 9, ra := 10, rb := 11, re := 18 }),
    ([0x001E08B9, 0x00000014, 0], .mov { baseFields with rd := 30, mod := 2, ra := 20 }),
    ([0x000D00BD, 0x00000014, 0x00000200], .movi { baseFields with rd := 13, ra := 20, g1 := 1 }),
    ([0x001E84C1, 0x00001214, 0], .lea { baseFields with rd := 30, mod := 33, ra := 20, rb := 9 }),
    ([0x000900C5, 0x0000160A, 0], .and { baseFields with rd := 9, ra := 10, rb := 11 }),
    ([0x000B00C9, 0x0000200B, 0x00000200], .or { baseFields with rd := 11, ra := 11, rb := 16, g1 := 1 }),
    ([0x001B00CF, 0x0003FE1B, 0, 1, 0], .xor { baseFields with rd := 27, ra := 27, rb := 511, lit := some 1 }),
    ([0x000900D1, 0x0030160A, 0x00000096], .lop3 { baseFields with rd := 9, ra := 10, rb := 11, rc := 12, re := 150 }),
    ([0x001000D5, 0x00001E10, 0], .shl { baseFields with rd := 16, ra := 16, rb := 15 }),
    ([0x000900D9, 0x0000160A, 0], .shr { baseFields with rd := 9, ra := 10, rb := 11 }),
    ([0x000900DD, 0x0000160A, 0], .sar { baseFields with rd := 9, ra := 10, rb := 11 }),
    ([0x000900E1, 0x0030160A, 0], .fsh { baseFields with rd := 9, ra := 10, rb := 11, rc := 12 }),
    ([0x000904E5, 0x002C1408, 0], .bfx { baseFields with rd := 9, mod := 1, ra := 8, rb := 10, rc := 11 }),
    ([0x000900E9, 0x002C1408, 0x0000000C], .bfi { baseFields with rd := 9, ra := 8, rb := 10, rc := 11, re := 12 }),
    ([0x000900ED, 8, 0], .popc { baseFields with rd := 9, ra := 8 }),
    ([0x000900F1, 8, 0], .clz { baseFields with rd := 9, ra := 8 }),
    ([0x000900F5, 8, 0], .brev { baseFields with rd := 9, ra := 8 }),
    ([0x000900FB, 0x07FC000A, 0, 0x00000123, 0], .perm { baseFields with rd := 9, ra := 10, rc := 511, lit := some 0x123 })]

theorem test_decode_integer : ∀ p ∈ integerWords, decode (words p.1) = .ok p.2 [] ∧ encode p.2 = words p.1 := by decide

def predicateWords : List (List Word × Instr) :=
  [
    ([0x00030101, 0x00000401, 0x00000080], .plop { baseFields with rd := 3, ra := 1, rb := 2, re := 128 }),
    ([0x00090105, 0, 0], .p2v { baseFields with rd := 9 }),
    ([0x00000109, 0x0000160A, 0], .v2p { baseFields with ra := 10, rb := 11 }),
    ([0x0001010D, 0, 0], .elect { baseFields with rd := 1 })]

theorem test_decode_predicate : ∀ p ∈ predicateWords, decode (words p.1) = .ok p.2 [] ∧ encode p.2 = words p.1 := by decide

def floatWords : List (List Word × Instr) :=
  [
    ([0x100AC121, 0x0000180B, 0], .fadd { baseFields with rm := 2, rd := 10, mod := 48, ra := 11, rb := 12 }),
    ([0x00090125, 0x0000160A, 0], .fmul { baseFields with rd := 9, ra := 10, rb := 11 }),
    ([0x000A0129, 0x0034180B, 0x00000600], .ffma { baseFields with rd := 10, ra := 11, rb := 12, rc := 13, g1 := 3 }),
    ([0x0009012D, 0x0000160A, 0], .fmin { baseFields with rd := 9, ra := 10, rb := 11 }),
    ([0x00090131, 0x0000160A, 0], .fmax { baseFields with rd := 9, ra := 10, rb := 11 }),
    ([0x00010935, 0x0000160A, 0], .fset { baseFields with rd := 1, mod := 2, ra := 10, rb := 11 }),
    ([0x00010139, 0x0000160A, 0], .fcls { baseFields with rd := 1, ra := 10, rb := 11 }),
    ([0x0009013D, 0x0000000A, 0], .frnd { baseFields with rd := 9, ra := 10 }),
    ([0x00090141, 0x0000000A, 0], .frcp { baseFields with rd := 9, ra := 10 }),
    ([0x00090145, 0x0000000A, 0], .fsqrt { baseFields with rd := 9, ra := 10 }),
    ([0x00090149, 0x0000000A, 0], .frsq { baseFields with rd := 9, ra := 10 }),
    ([0x0009014D, 8, 0], .fex2 { baseFields with rd := 9, ra := 8 }),
    ([0x00090151, 8, 0], .flg2 { baseFields with rd := 9, ra := 8 }),
    ([0x00090155, 0x0000160A, 0], .fscl { baseFields with rd := 9, ra := 10, rb := 11 }),
    ([0x00091159, 0x0030160A, 0], .fdp2 { baseFields with rd := 9, mod := 4, ra := 10, rb := 11, rc := 12 }),
    ([0x0022095D, 0x00000022, 0], .cvt { baseFields with rd := 34, mod := 2, ra := 34 })]

theorem test_decode_float : ∀ p ∈ floatWords, decode (words p.1) = .ok p.2 [] ∧ encode p.2 = words p.1 := by decide

def crossLaneWords : List (List Word × Instr) :=
  [
    ([0x00100583, 0x0067FE0F, 0, 1, 0], .shfl { baseFields with rd := 16, mod := 1, ra := 15, rb := 511, rc := 25, lit := some 1 }),
    ([0x00020185, 0x00003211, 5], .vote { baseFields with rd := 2, ra := 17, rb := 25, re := 5 }),
    ([0x00092989, 0x00003208, 5], .wred { baseFields with rd := 9, mod := 10, ra := 8, rb := 25, re := 5 }),
    ([0x0009058D, 0x00003208, 0], .qxch { baseFields with rd := 9, mod := 1, ra := 8, rb := 25 }),
    ([0x00090191, 0x00003208, 0], .qbc { baseFields with rd := 9, ra := 8, rb := 25 })]

theorem test_decode_crossLane : ∀ p ∈ crossLaneWords, decode (words p.1) = .ok p.2 [] ∧ encode p.2 = words p.1 := by decide

def memoryWords : List (List Word × Instr) :=
  [
    ([0x000811A1, 0x00002002, 0], .ld { baseFields with rd := 8, mod := 4, ra := 2, rb := 16 }),
    ([0x0009C9A5, 0x00000016, 0x18000000], .ldc { baseFields with rd := 9, mod := 50, ra := 22, scp := 3 }),
    ([0x002E09A9, 0x00005A16, 0], .st { baseFields with rd := 46, mod := 2, ra := 22, rb := 45 }),
    ([0x0009C9AD, 0x0010000C, 0], .lds { baseFields with rd := 9, mod := 50, ra := 12, rc := 4 }),
    ([0x000849B1, 0, 0], .sts { baseFields with rd := 8, mod := 18 }),
    ([0x000011B5, 8, 9], .feset { baseFields with mod := 4, ra := 8, re := 9 }),
    ([0x000A89B9, 0x00000014, 0x18000008], .atom { baseFields with rd := 10, mod := 34, ra := 20, re := 8, scp := 3 }),
    ([0x000A09BD, 0x00000014, 8], .atoms { baseFields with rd := 10, mod := 2, ra := 20, re := 8 }),
    ([0x000081C1, 0, 0x18000000], .fence { baseFields with mod := 32, scp := 3 }),
    ([0x000001C5, 0x00000014, 0x08000000], .cctl { baseFields with ra := 20, scp := 1 }),
    ([0x000005C9, 0x00000014, 0], .pfetch { baseFields with mod := 1, ra := 20 }),
    ([0x000001CF, 0, 0, 0x00000300, 0], .lease { baseFields with lit := some 0x300 }),
    ([0x001109D1, 0x00802014, 0x0000000E], .acp { baseFields with rd := 17, mod := 2, ra := 20, rb := 16, rc := 32, re := 14 }),
    ([0x000005D5, 0, 0], .acwait { baseFields with mod := 1 }),
    ([0x000001D9, 0x00003C1F, 0x00000200], .tcopy { baseFields with ra := 31, rb := 30, g1 := 1 })]

theorem test_decode_memory : ∀ p ∈ memoryWords, decode (words p.1) = .ok p.2 [] ∧ encode p.2 = words p.1 := by decide

def matrixAndSystemWords : List (List Word × Instr) :=
  [
    ([0x00005201, 0x00003608, 0x00100000], .mma { baseFields with mod := 20, ra := 8, rb := 27, ret := 1 }),
    ([0x00000205, 0x0000001D, 0x00000200], .cvset { baseFields with ra := 29, g1 := 1 }),
    ([0x00030209, 0, 0], .mwait { baseFields with rd := 3 }),
    ([0x0000020D, 0x0074001E, 0x00000200], .accwin { baseFields with ra := 30, rc := 29, g1 := 1 }),
    ([0x00090211, 0x0000160A, 0], .ald { baseFields with rd := 9, ra := 10, rb := 11 }),
    ([0x00000215, 0x0030160A, 0], .ast { baseFields with ra := 10, rb := 11, rc := 12 }),
    ([0x00010219, 0, 0], .aclr { baseFields with rd := 1 }),
    ([0x0000021D, 0, 0], .tkget baseFields),
    ([0x00030221, 0, 0], .tkput { baseFields with rd := 3 }),
    ([0x000A0241, 0, 9], .sread { baseFields with rd := 10, re := 9 }),
    ([0x00000245, 9, 0x00000015], .swrite { baseFields with ra := 9, re := 21 })]

theorem test_decode_matrixAndSystem : ∀ p ∈ matrixAndSystemWords, decode (words p.1) = .ok p.2 [] ∧ encode p.2 = words p.1 := by decide

def baseWords : List (List Word × Instr) :=
  [
    ([0], .nopBase),
    ([0x001C0D04], .movBase 14 13),
    ([0x08080B08], .iaddBase 2 4 11),
    ([0x0C140A08], .iaddBase 3 10 10),
    ([0x0C20100C], .shlBase 3 16 16),
    ([0x0C160B10], .shrBase 3 11 11),
    ([0x04361B14], .andBase 1 27 27),
    ([0x00200818], .moviBase 16 8),
    ([0xFFFFFD1C], .braBase 0xFFFFFD),
    ([0x00301920], .ldsBase 0 24 25),
    ([0x00642024], .stsBase 0 50 32),
    ([0x00000028], .exitBase),
    ([0x0000002C], .barBase 0),
    ([0x0000081A, 0x3F800800, 0], .moviBaseLiteral 8 0x3F800800),
    ([0x00140B0A, 0x00000800, 0], .iaddBaseLiteral 10 11 0x800),
    ([0x00140B16, 0x00000800, 0], .andBaseLiteral 10 11 0x800),
    ([0x00140B22, 0x00001000, 0], .ldsBaseLiteral 10 11 0x1000),
    ([0x00140B26, 0xFFFFFFFC, 0xFFFFFFFF], .stsBaseLiteral 10 11 0xFFFFFFFC)]

theorem test_decode_base : ∀ p ∈ baseWords, decode (words p.1) = .ok p.2 [] ∧ encode p.2 = words p.1 := by decide

def fitasWords : List (Word × Instr) :=
  [
    (0, .xEnd),
    (0x04000000, .xFail),
    (0x0B81FFFF, .xMovi 7 0xFFFF),
    (0x0C811234, .xMovh 1 0x1234),
    (0x10A60000, .xAdd ⟨1, 2, 3, false, 0⟩),
    (0x18A60000, .xAnd ⟨1, 2, 3, false, 0⟩),
    (0x1CA60000, .xOr ⟨1, 2, 3, false, 0⟩),
    (0x20A60000, .xXor ⟨1, 2, 3, false, 0⟩),
    (0x24A60000, .xShl ⟨1, 2, 3, false, 0⟩),
    (0x28A60000, .xShr ⟨1, 2, 3, false, 0⟩),
    (0x40A60000, .xLdw ⟨1, 2, 3, false, 0⟩),
    (0x44A60000, .xStw ⟨1, 2, 3, false, 0⟩),
    (0x48A60000, .xLdp ⟨1, 2, 3, false, 0⟩),
    (0x15B10001, .xSub ⟨3, 3, 0, true, 1⟩),
    (0x2F410010, .xSar ⟨6, 4, 0, true, 16⟩),
    (0x32C00000, .xZze 5 4),
    (0x35010008, .xGetb ⟨2, 0, 0, true, 8⟩),
    (0x38810008, .xPutb ⟨1, 0, 0, true, 8⟩),
    (0x3E510000, .xLdt ⟨4, 5, 0, true, 0⟩),
    (0x4D060000, .xCopy ⟨2, 0, 3, false, 0⟩),
    (0x50A00005, .xBeq 1 2 5),
    (0x5500FFF5, .xBne 2 0 0xFFF5),
    (0x58A00005, .xBlt 1 2 5),
    (0x5C00FFFC, .xJ 0xFFFC),
    (0x61810002, .xInfo ⟨3, 0, 0, true, 2⟩),
    (0x66500000, .xZzd 4 5)]

theorem test_decode_fitas : ∀ p ∈ fitasWords, decodeX p.1 = some p.2 ∧ encode p.2 = wordBytes p.1 := by decide

/-- Refused words: reserved OPC6 0x0C, NOP with a bit set, SHL with bit 31 set, LEN 10 on SHL, reserved OPC 0x10, W1[31], W2[31:30],
too few bytes, and a Fitas word with OP 0x1A. -/
theorem test_decode_refused :
    decode (words [0x30]) = .bad .reservedOpcode ∧ decode (words [0x100]) = .bad .reservedBits ∧
    decode (words [0x8020100C]) = .bad .reservedBits ∧ decode (words [0x0000000E, 0, 0]) = .bad .reservedOpcode ∧
    decode (words [0x41, 0, 0]) = .bad .reservedOpcode ∧ decode (words [0x1, 0x80000000, 0]) = .bad .reservedBits ∧
    decode (words [0x1, 0, 0x40000000]) = .bad .reservedBits ∧ decode (words [0x1, 0]) = .bad .truncated ∧
    decode (words [0x00140B22, 0x1000, 1]) = .bad .reservedBits ∧ decodeX 0x68000000 = none := by decide

/-- 05 R118, R120; 18 R302, R306, R309, R314: their examples, with FLAGS. -/
theorem test_float_examples :
    ((aluStep (.fscl f9) opScl (thr [(10, 0x3FC00000), (11, 0xFFFFFF7E)])).vals.get 9).val = 0x000C0000 ∧
    (aluStep (.fscl f9) opScl (thr [(10, 0x3FC00000), (11, 0xFFFFFF7E)])).flags = 0 ∧
    (aluStep (.fscl { f9 with ftzo := true }) opScl (thr [(10, 0x3FC00000), (11, 0xFFFFFF7E)])).flags = BitVec.ofNat 5 (fUF ||| fNX) ∧
    ((aluStep (.fdp2 { f9 with mod := 4 }) opDp2 (thr [(10, 0x3F803F80), (11, 0x33803F80), (12, 0xBF800000)])).vals.get 9).val = 0x33800000 ∧
    ((aluStep (.cvt { f9 with rb := 0, rc := 0, mod := 2 }) opCvt (thr [(10, 0x40008001)])).vals.get 9).val = 0x4001 ∧
    ((aluStep (.cvt { f9 with rb := 0, rc := 0, mod := 2 }) opCvt (thr [(10, 0x40008000)])).vals.get 9).val = 0x4000 ∧
    frcpFV rmRNE false (unpackF f32 0x40400000) = (0x3EAAAAAB, fNX) ∧
    fex2FV rmRNE false (unpackF f32 0x41200000) = (0x44800000, 0) := by decide +kernel

/-- 05 Table 05.4: its sources, 0.3 apart, as FP32 bits, with byte and flags. -/
theorem test_ds8_table : ∀ e ∈ [(0x3EA00000, 0x24, 0), (0x3EB00000, 0x24, fNX), (0xBF600000, 0x83, 0), (0x3F7E0000, 0xF0, 0),
    (0x3CC00000, 0x76, 0), (0x3B800000, 0x08, fUF ||| fNX), (0x40400000, 0x00, fOF ||| fNX)],
    cvtElement baseFields 5 rmRNE (unpackF f32 e.1) = (e.2.1, e.2.2) := by decide +kernel

/-! ### Stepping -/

/-- The base `IADD v10, v10, 3` (04's first example), run as the first instruction after reset: the pc moves by 4. -/
theorem test_step_iadd :
    (match step (State.reset.withFetchWord 32 0x0C140A08) with
     | .next t => decide ((t.thread 0 0).pc = 0x10004 ∧ ((t.thread 0 0).vals.get 10).val = 3)
     | _ => false) = true := by decide +kernel

/-- `X.MOVI k7, -1` as the first instruction of a Fitas run. -/
theorem test_step_movi :
    (match step (State.reset.withFetchWord 32 0x0B81FFFF) with
     | .next t => decide ((t.runs.getD 0 default).pc = 1 ∧ (t.runs.getD 0 default).reg 7 = 0xFFFFFFFF)
     | _ => false) = true := by decide +kernel

/-- `TRAP 5`: the exception of R366, with the pc behind the instruction and the context halted. -/
theorem test_step_trap :
    (match step (State.reset.withFetchWord 96 (0x29 + 5 * 2 ^ 64)) with
     | .next t => decide ((t.thread 0 0).pc = 0x1000C ∧ (t.ctx 0).halted = true ∧ t.ring.map StopRec.cause = [0x20] ∧
         t.ring.map StopRec.addr = [5])
     | _ => false) = true := by decide +kernel

/-- An issue, a Fitas instruction and an event that a step runs (the hypotheses of the stepping statement). -/
theorem test_witness_stepping :
    (let s := State.reset.withFetchWord 32 0x0C140A08
     s.agenda = [.issue 0 0] ∧ issueFirst s (.issue 0 0) = none ∧ eventBefore 1 s (.issue 0 0) (eventsOf []) = none ∧ nextTurn s = (.issue 0 0, []) ∧ dueBefore (.issue 0 0) s = none ∧
       slotOf { s with agenda := [] } 0 0 = some ((0, 0), 0x10000) ∧
       (match fetch { s with agenda := [] } 0 0x10000 with
        | .ok i n => decide (i = .iaddBase 3 10 10 ∧ n = 4)
        | .bad _ => false) = true ∧
       fetchFaults s (s.launchOf 0) 1 0x10000 = none) ∧
    (let s := State.reset.withFetchWord 32 0x0B81FFFF
     s.agenda = [.fitas 0] ∧ (s.runs.getD 0 default).fin = none ∧ (s.runs.getD 0 default).taken = false ∧ s.plat.winter = .running ∧
       decodeX ((s.runs.getD 0 default).insns.getD 0 0) = some (.xMovi 7 0xFFFF) ∧ (xNext (s.runs.getD 0 default)).fin ≠ some .over) ∧
    (let s := { State.reset with agenda := [.event .thaw] }
     issueFirst s (.event .thaw) = none ∧ eventBefore 1 s (.event .thaw) (eventsOf []) = none ∧ nextTurn s = (.event .thaw, []) ∧ dueBefore (.event .thaw) s = none ∧ Instr.thaw.isTorile = false ∧ Instr.thaw.isFitas = false ∧
       powered .thaw s = true) := by decide +kernel

theorem test_witness_memory : Memory.wf (memWrite [] 5 [1, 0, 2]) ∧ memWrite [] 5 [1, 0, 2] = [(5, 1), (7, 2)] ∧
    memWrite [(5, 1), (7, 2)] 5 [0] = [(7, 2)] := by decide

/-! ### Witnesses: lane instructions -/

def aluInstrs : List Instr :=
  [.movBase 4 8, .iaddBase 3 4 8, .shlBase 3 4 8, .shrBase 3 4 8, .andBase 3 4 8, .moviBase 3 8, .moviBaseLiteral 8 3,
   .iaddBaseLiteral 4 8 3, .andBaseLiteral 4 8 3] ++
  ([Instr.iadd, .isub, .iadd3, .imul, .imulh, .imad, .imin, .imax, .iabs, .idp4, .sel, .mov, .movi, .and, .or, .xor, .lop3,
    .shl, .shr, .sar, .fsh, .bfx, .bfi, .popc, .clz, .brev, .perm, .p2v, .fadd, .fmul, .ffma, .fmin, .fmax, .frnd, .fscl,
    .iaddmin, .fdp2, .cvt].map fun c => c { baseFields with rd := 31, ra := 4, rb := 5, rc := 6 }) ++
  ([Instr.imadw, .lea].map fun c => c { baseFields with rd := 30, ra := 4, rb := 5, rc := 6 }) ++
  ([Instr.iset, .plop, .fset, .fcls].map fun c => c { baseFields with rd := 15, ra := 4, rb := 5, rc := 6 })

theorem test_witness_arithmetic : ∀ i ∈ aluInstrs, (aluOf i).isSome = true ∧ Unhindered i tiny := by decide

theorem test_witness_arithmeticThread :
    (let f := { baseFields with rd := 31, ra := 4, rb := 5 }
     (aluOf (.iadd f)).isSome = true ∧ (shapeOf (.iadd f)).dst = true ∧
       f.rd.toNat + (useAt (shapeOf (.iadd f)) .rd).count ≤ (tiny.thread 0 0).vals.regs.length) ∧
    (let f := { baseFields with rd := 15, ra := 4, rb := 5 }
     (shapeOf (.iset f)).dst = false ∧ (shapeOf (.iset f)).rd = .idx4 ∧ aluQuiet (.iset f) = true) := by decide

def launchPacket (regs : Nat) : List Byte :=
  takePad 64 0 ([1, 0] ++ leBytes 2 1 ++ leBytes 2 regs ++ [0, 0] ++ leBytes 4 4096 ++ leBytes 4 0 ++ leBytes 8 0x10000 ++
    leBytes 8 0x40 ++ leBytes 16 0 ++ leBytes 2 1 ++ leBytes 6 0 ++ leBytes 8 0x80)

theorem test_witness_registerCount : ∀ n ∈ [32, 512], pf (launchPacket n) 0 1 = 1 ∧ checkPacket (launchPacket n) = none ∧
    pf (launchPacket n) 4 2 = n := by decide

theorem test_witness_registerRange :
    let i := Instr.iadd { baseFields with rd := 32, ra := 4, rb := 5 }
    i.isTorile = true ∧ namesLit (fieldsOf i).1 (fieldsOf i).2 .rd = false ∧ (useAt (fieldsOf i).2 .rd).count ≠ 0 ∧
      (tiny.launchOf 0).regs < (fieldAt (fieldsOf i).1 .rd).toNat + (useAt (fieldsOf i).2 .rd).count := by decide

theorem test_witness_predicates : ∀ i ∈ [Instr.nopBase, .nop baseFields, .v2p { baseFields with ra := 4, rb := 5 },
    .elect { baseFields with rd := 15 }], Unhindered i tiny := by decide

theorem test_witness_producers :
    (∀ c ∈ [Instr.frcp, .fsqrt, .frsq, .fex2, .flg2], (sfuOf (c { baseFields with rd := 31, ra := 4 })).isSome = true ∧
      Unhindered (c { baseFields with rd := 31, ra := 4 }) tiny) ∧
    Unhindered (.sread { baseFields with rd := 31, re := 0x1C }) tiny ∧
    (let s := tinyWith fun th => { th with prods := [⟨0, [31], .sfu 7 7 1, true, false, 0x10000⟩] }
     (s.thread 0 0).prods.find? (fun y => y.id = 0) = some ⟨0, [31], .sfu 7 7 1, true, false, 0x10000⟩ ∧
      prodWords s 0 0 ⟨0, [31], .sfu 7 7 1, true, false, 0x10000⟩ = some ([7], 1)) := by decide

theorem test_witness_transfers :
    (∀ i ∈ [Instr.braBase 4, .bra { baseFields with ra := 4 }, .call { baseFields with rd := 30, ra := 4 }],
      Unhindered i tiny ∧ (targetOf i tiny).isSome = true ∧
      OnAll i tiny fun t => codeOk (labelTarget (fieldsOf i).1 (nextPc tiny)) = true ∧
        lanesDiffer (tiny.thread 0 t) (fun _ => [labelTarget (fieldsOf i).1 (nextPc tiny)]) = false) ∧
    (∀ i ∈ [Instr.brx { baseFields with ra := 2 }, .callx { baseFields with ra := 2, rd := 30 }, .ret { baseFields with ra := 2 }],
      Unhindered i tiny ∧ (targetOf i tiny).isSome = true ∧
      OnAll i tiny fun t => codeOk (opd (fieldsOf i).1 (fieldsOf i).2 (tiny.thread 0 t).vals .ra) = true ∧
        lanesDiffer (tiny.thread 0 t) (fun v => [opd (fieldsOf i).1 (fieldsOf i).2 v .ra]) = false) := by decide

theorem test_witness_meetings :
    (Unhindered (.meetx { baseFields with ra := 2 }) tiny ∧
      OnAll (.meetx { baseFields with ra := 2 }) tiny fun t =>
        codeOk (opd { baseFields with ra := 2 } (shapeOf (.meetx { baseFields with ra := 2 })) (tiny.thread 0 t).vals .ra) = true) ∧
    (Unhindered (.meet { baseFields with ra := 4 }) tiny ∧ labelTarget { baseFields with ra := 4 } (nextPc tiny) < 2 ^ 56 ∧
      OnAll (.meet { baseFields with ra := 4 }) tiny fun t =>
        hasFree ((tiny.block 0).waves.getD (homeWave (tiny.launchOf 0) t) default).slots) ∧
    (let s := tinyWith fun th => { th with mt := 0x10000 }
     ∀ t ∈ [0, 1], t ∈ groupTids s 0 0 0x10000 ∧ atMeeting (s.thread 0 t) = true) := by decide

/-- Both threads stand at their meeting; with a third lane in the mask the slot is not met. -/
def meetState (m : BitVec 32) : State := tinyBlk fun k => { k with
  threads := k.threads.map fun th => { th with mt := 0x10000 }
  waves := k.waves.map fun w => { w with slots := (0x10000, m) :: w.slots.drop 1 } }

def meetSlots (m : BitVec 32) : Slots := (((meetState m).block 0).waves.getD 0 default).slots

theorem test_witness_slot : (((meetSlots 3).map Prod.fst).filter (· ≠ 0)).Nodup ∧
    enrolled 0x10000 0 (meetSlots 3) = true ∧ enrolled 0x10000 1 (meetSlots 3) = true := by
  refine ⟨?_, by decide, by decide⟩
  rw [show ((meetSlots 3).map Prod.fst).filter (· ≠ 0) = [0x10000] from rfl]
  decide

theorem test_witness_slotWaits : (((meetSlots 7).map Prod.fst).filter (· ≠ 0)).Nodup ∧ enrolled 0x10000 2 (meetSlots 7) = true := by
  refine ⟨?_, by decide⟩
  rw [show ((meetSlots 7).map Prod.fst).filter (· ≠ 0) = [0x10000] from rfl]
  decide

theorem test_witness_slotThreads : (((meetState 7).thread 0 2).st = .exited) = False ∧
    atMeeting ((meetState 7).thread 0 0) = true ∧ atMeeting ((meetState 7).thread 0 1) = true := by
  refine ⟨eq_false ?_, ?_, ?_⟩ <;> decide

theorem test_witness_exit_bar : ∀ i ∈ [Instr.exitBase, .exit baseFields, .barBase 15, .bar { baseFields with rd := 15, ra := 6 }],
    Unhindered i tiny ∧ (fieldsOf i).1.rd.toNat < (tiny.block 0).bars.length ∧
      OnAll i tiny fun t => opd (fieldsOf i).1 (fieldsOf i).2 (tiny.thread 0 t).vals .ra ≤ (tiny.block 0).ntid := by decide

/-- Arrivals at barrier 3: block 0 waits there with both threads. -/
def barState (l : List Arrival) : State := tinyBlk fun k => { k with
  threads := k.threads.map fun th => { th with st := .barWait 3 12 }
  bars := modAt (fun _ => l) 3 k.bars }

/-- A phase with c = 0 of both threads, one with c = 1 beside which nothing waits, one with c = 2 and a third arrival; and too few. -/
theorem test_witness_barPhase :
    let a := fun (t c : Nat) => (⟨t, t, c, .dev, some 99⟩ : Arrival)
    (∀ l ∈ [[a 0 0, a 1 0], [a 0 1], [a 0 2, a 1 2, ⟨5, 1, 2, .dev, some 99⟩]],
      ((barState l).block 0).bars.getD 3 [] = l ∧ l.Nodup ∧ l.all (fun x => x.count = (l.headD default).count) = true ∧
        ∀ x ∈ l, ((barState l).thread 0 x.tid).ops = [] ∧ ((barState l).thread 0 x.tid).st = .barWait 3 12 ∧
          ((barState l).thread 0 x.tid).alive = true) ∧
    judgeBar 0 3 (barState [a 0 0]) = barState [a 0 0] ∧ judgeBar 0 3 (barState [a 0 2]) = barState [a 0 2] := by decide

/-- Three arrivals of c = 2: the first two complete, and thread 0 stands behind the `BAR`. -/
theorem test_barrier_phase :
    let r := judgeBar 0 3 (barState [⟨0, 0, 2, .dev, none⟩, ⟨0, 1, 2, .dev, none⟩, ⟨1, 1, 2, .sys, none⟩])
    (r.block 0).bars.getD 3 [] = [⟨1, 1, 2, .sys, none⟩] ∧ (r.thread 0 0).st = .ready ∧ (r.thread 0 0).pc = 0x1000C := by decide

theorem test_witness_traps :
    GroupOk tiny ∧
    (let s := tinyWith fun th => { th with st := .laneWait true (.vote baseFields) 12 }
     deadlocked s 0 0 = false) ∧
    (let s := tinyBlk fun k => { k with waves := k.waves.map fun w => { w with wtlim := 5, wtim := 5, hit := true } }
     timerDue s 0 0 = true) := by decide

theorem test_witness_deadlock :
    let s := tinyBlk fun k => { k with threads := k.threads.mapIdx fun t th =>
      if t = 0 then { th with st := .laneWait true (.vote { baseFields with ra := 1, rb := 8 }) 12
                              vals := th.vals.put 8 ⟨2, .full, false⟩ }
      else { th with st := .held, mt := 0x10000 } }
    deadlocked s 0 0 = true := by decide

theorem test_witness_spawn :
    let f := { baseFields with rd := 31, ra := 8, rb := 9, rc := 2, re := 2 }
    let s := tinyRegs [(8, 1), (9, 1024)]
    let l := s.launchOf 0
    Unhindered (.spawn f) s ∧ (s.block 0).launch < s.launches.length ∧ (s.die 0).spawnQ.length + s.cur.tids.length ≤ 4096 ∧
      OnAll (.spawn f) s (fun t => opd f (shapeOf (.spawn f)) (s.thread 0 t).vals .ra ≤ 65536 ∧ l.span = 0 ∧
        opd f (shapeOf (.spawn f)) (s.thread 0 t).vals .rb = 1024 ∧ fitsCore l 1024 = true) ∧
      l.next + ((onTids (.spawn f) s).map fun t => opd f (shapeOf (.spawn f)) (s.thread 0 t).vals .ra).sum ≤ 2 ^ 32 := by
  decide

/-- A full spawn queue whose first entry has room in its spill area. -/
theorem test_witness_spawnFull :
    let s := { tiny with dies := [{ Die.init with spawnQ := List.replicate 4096 ⟨0, 0, 1⟩ }] }
    4096 ≤ (s.die 0).spawnQ.length ∧ 0 < s.dies.length ∧ (s.die 0).spawnQ.find? (spills s) = some ⟨0, 0, 1⟩ := by decide +kernel

theorem test_witness_requests : Unhindered (.release { baseFields with rd := 15 }) tiny ∧
    Unhindered (.svc { baseFields with rd := 31, mod := 4, ra := 2, rb := 2 }) tiny := by decide

theorem test_witness_waits : Unhindered (.gate { baseFields with rd := 15 }) tiny ∧
    Unhindered (.acwait { baseFields with mod := 7 }) tiny ∧ Unhindered (.lease { baseFields with ra := 8, rc := 0x1FF }) tiny := by
  decide

/-- The launch before this one has opened gate 15. -/
theorem test_witness_gate :
    let s := { tiny with
      queues := [⟨default, 0, 1, .active, 0, [⟨0, [], .started, false, some 1, none⟩], true, 0⟩]
      launches := [{ tinyLaunch with pred := some 0 }, { tinyLaunch with gates := 0x8000, gateAt := [(15, 3, 0)] }] }
    Unhindered (.gate { baseFields with rd := 15 }) s ∧ (predOf s (s.launchOf 0)).bind Packet.launch = some 1 ∧
      onTids (.gate { baseFields with rd := 15 }) s = [0, 1] ∧
      (let r := { s with launches := [{ tinyLaunch with gated := [(0, 1, 15, 0)] }] }
       (0, 1, 15, 0) ∈ (r.launch 0).gated ∧ r.cycle = 0 ∧ (r.block 0).status = .placed) := by decide

theorem test_witness_crossLane :
    (∀ c ∈ [Instr.shfl, .vote, .wred, .qxch, .qbc], Unhindered (c { baseFields with rd := 9, ra := 8, rb := 10, rc := 11, mod := 1 }) tiny) ∧
    (let s := tinyWith fun th => { th with st := .laneWait true (.wred { baseFields with rd := 9, ra := 4, rb := 10 }) 12
                                           vals := th.vals.put 10 ⟨3, .full, false⟩ }
     firedSet s 0 0 0x10000 = [0, 1]) := by decide

/-! ### Witnesses: the memory class -/

/-- Registers for an access: v8..v9 the address 0x100, v10 the offset 0. -/
def memState : State := tinyRegs [(8, 0x100), (12, 0x40)]

def memFields : EFields := { baseFields with rd := 31, ra := 8, rb := 10, mod := 2 }

theorem test_witness_globalLoads :
    ∀ i ∈ [Instr.ld memFields, .ldc { memFields with mod := 0x32, scp := 5 }], isGlobalLoad i = true ∧ Unhindered i memState ∧
      OnAll i memState fun t => globalFault (memState.launchOf 0).ranges (globalAt i memState t) 4 4 [.rd] = none := by decide

theorem test_witness_scratchLoads :
    ∀ i ∈ [Instr.lds memFields, .lds { memFields with mod := 0x22 }, .ldsBase 63 8 31, .ldsBaseLiteral 8 31 0],
      isScratchLoad i = true ∧ Unhindered i memState ∧
      OnAll i memState fun t => literalFault i = none ∧ scratchFault (memState.launchOf 0).scratch (scratchAt i memState t) 4 4 = none := by decide

theorem test_witness_waitingLoads :
    ∀ i ∈ [Instr.lds { memFields with mod := 0x12 }, .lds { memFields with mod := 0x32 }],
      (ordOf (fieldsOf i).1 = 1 ∨ ordOf (fieldsOf i).1 = 3) ∧ Unhindered i memState ∧
      OnAll i memState fun t => literalFault i = none ∧ scratchFault (memState.launchOf 0).scratch (scratchAt i memState t) 4 4 = none := by decide

theorem test_witness_scratchEnd :
    let s := tinyRegs [(8, 4092)]
    (OnAll (.lds memFields) s fun t => literalFault (.lds memFields) = none ∧ scratchFault (s.launchOf 0).scratch (scratchAt (.lds memFields) s t) 4 4 = none) ∧
      scratchFault (s.launchOf 0).scratch 4096 4 4 = some 0x0A := by decide

theorem test_witness_stores :
    (Unhindered (.st memFields) memState ∧
      OnAll (.st memFields) memState fun t =>
        globalFault (memState.launchOf 0).ranges (globalAt (.st memFields) memState t) 4 4 [.w] = none ∧
        lanesDiffer (memState.thread 0 t) (fun v => [globalAddr memFields (shapeOf (.st memFields)) 4 v,
          leNat (storeData memFields (shapeOf (.st memFields)) v 4)]) = false) ∧
    (∀ i ∈ [Instr.sts memFields, .stsBase 63 8 31, .stsBaseLiteral 8 31 0], isScratchStore i = true ∧ Unhindered i memState ∧
      OnAll i memState fun t => literalFault i = none ∧ scratchFault (memState.launchOf 0).scratch (scratchAt i memState t) 4 4 = none) := by decide

def atomFields : EFields := { baseFields with rd := 31, ra := 8, rb := 9, re := 12, mod := 2, scp := 1 }

theorem test_witness_atomics :
    Unhindered (.atom atomFields) memState ∧
    (OnAll (.atom atomFields) memState fun t =>
      globalFault (memState.launchOf 0).ranges (globalAt (.atom atomFields) memState t) 4 4 [.rd, .w] = none ∧
      lanesDiffer (memState.thread 0 t) (fun v => [globalAddr atomFields (shapeOf (.atom atomFields)) 4 v,
        leNat (atomData atomFields (shapeOf (.atom atomFields)) v)]) = false) ∧
    Unhindered (.atoms { atomFields with scp := 0 }) memState ∧
    OnAll (.atoms { atomFields with scp := 0 }) memState fun t =>
      scratchFault (memState.launchOf 0).scratch (scratchAt (.atoms { atomFields with scp := 0 }) memState t) 4 4 = none := by decide

theorem test_witness_fences :
    (∀ m ∈ [0x10, 0x11, 0x20#6], Unhindered (.fence { baseFields with mod := m, scp := 5 }) memState) ∧
    (let f := { baseFields with ra := 8, rb := 10, re := 4, mod := 0x14 }
     Unhindered (.feset f) memState ∧ OnAll (.feset f) memState fun t =>
       scratchFault (memState.launchOf 0).scratch (scratchAddr f (shapeOf (.feset f)) 16 (memState.thread 0 t).vals)
         (16 * opd f (shapeOf (.feset f)) (memState.thread 0 t).vals .re) 16 = none) := by decide

theorem test_witness_hints :
    (let f := { memFields with rd := 0, mod := 1, scp := 5 }
     Unhindered (.cctl f) memState ∧ OnAll (.cctl f) memState fun t =>
       globalAddr f (shapeOf (.cctl f)) 128 (memState.thread 0 t).vals < 2 ^ 56) ∧
    (let f := { memFields with rd := 0, mod := 1 }
     Unhindered (.pfetch f) memState ∧ OnAll (.pfetch f) memState fun t =>
       globalFault (memState.launchOf 0).ranges (globalAddr f (shapeOf (.pfetch f)) 128 (memState.thread 0 t).vals) 1 1 [.rd] = none) := by
  decide

theorem test_witness_acp :
    let f := { baseFields with rd := 12, ra := 8, rb := 10, re := 5, mod := 7 }
    Unhindered (.acp f) memState ∧ OnAll (.acp f) memState fun t =>
      scratchFault (memState.launchOf 0).scratch (opd f (shapeOf (.acp f)) (memState.thread 0 t).vals .rd) 32 32 = none ∧
      opd f (shapeOf (.acp f)) (memState.thread 0 t).vals .re = 0 ∧
      lanesDiffer (memState.thread 0 t) (fun v => [opd f (shapeOf (.acp f)) v .rd, globalAddr f (shapeOf (.acp f)) 32 v,
        acpCount f (shapeOf (.acp f)) v]) = false := by decide

/-- A copy of 4 words from address 0 to scratch 0x100, one dimension. -/
def tinyDesc : List Byte :=
  takePad 128 0 (leBytes 8 0 ++ [2, 1, 0, 0] ++ leBytes 4 0x100 ++ leBytes 4 4 ++ takePad 24 0 [] ++ leBytes 4 4 ++
    takePad 24 0 [] ++ takePad 28 0 [] ++ leBytes 2 4)

theorem test_witness_tcopy :
    let f := { baseFields with ra := 10, rb := 8 }
    let s := { memState with blocks := memState.blocks.map fun k => { k with scratch := memWrite [] 0 tinyDesc } }
    Unhindered (.tcopy f) s ∧ (OnAll (.tcopy f) s fun t => tcopyFault f (shapeOf (.tcopy f)) s 0 t = none) ∧ (s.block 0).status = .placed ∧
      copyWaiters s 0 = [] ∧ copiesOn s 0 true = 0 ∧
      (let c : Copy := { (default : Copy) with desc := tinyDesc }
       copiesOn { s with blocks := s.blocks.map fun k => { k with copies := List.replicate 15 c } } 0 true = 15) := by decide

/-! ### Witnesses: the matrix class -/

/-- cv0 has the set of both threads; the windows of the cycle cover tile 0. -/
def matState (n : Nat) : State := tinyBlk fun k =>
  { k with cvs := modAt (fun c => { c with set := some (0, n) }) 0 k.cvs
           waves := k.waves.map fun w => { w with accLim := 128, accLimS := 128 }
           tiles := k.tiles.map fun t => { t with owner := some 0 } }

def mmaFields : EFields := { baseFields with rd := 0, ra := 8, rb := 16, rc := 0 }

theorem test_witness_mmaSigns :
    let s := matState 3
    Unhindered (.mma mmaFields) s ∧ (cvOf s 0 0).set = some (0, 3) ∧ (cvOf s 0 0).sigs.length + (onTids (.mma mmaFields) s).length < 3 ∧
      OnAll (.mma mmaFields) s fun t => signFault s 0 t (cvOf s 0 0) (sigOf mmaFields (shapeOf (.mma mmaFields)) s 0 t (t - 0)) = none := by
  decide

theorem test_witness_mmaCloses :
    let s := alone (matState 1)
    Unhindered (.mma mmaFields) s ∧ (s.block 0).core < s.cores.length ∧ onTids (.mma mmaFields) s = [0] ∧
      (cvOf s 0 0).set = some (0, 1) ∧ (cvOf s 0 0).sigs = [] ∧ (tileOf s 0 0).ownerS = none ∧
      signFault s 0 0 (cvOf s 0 0) (sigOf mmaFields (shapeOf (.mma mmaFields)) s 0 0 0) = none := by decide

theorem test_witness_cvset :
    let f := { baseFields with rd := 15, ra := 8, rb := 9 }
    let s := alone (tinyRegs [(8, 1), (9, 1)])
    let v := (s.thread 0 0).vals
    Unhindered (.cvset f) s ∧ onTids (.cvset f) s = [0] ∧ opd f (shapeOf (.cvset f)) v .ra = 1 ∧
      opd f (shapeOf (.cvset f)) v .rb + 1 ≤ (s.block 0).ntid ∧ f.rd.toNat < (s.block 0).cvs.length := by decide

theorem test_witness_accwin :
    let f := { baseFields with ra := 10, rb := 8, rc := 9 }
    let s := alone (tinyRegs [(8, 64), (9, 128)])
    let v := (s.thread 0 0).vals
    Unhindered (.accwin f) s ∧ onTids (.accwin f) s = [0] ∧ opd f (shapeOf (.accwin f)) v .ra < (s.block 0).waves.length ∧
      opd f (shapeOf (.accwin f)) v .rb = 64 ∧ opd f (shapeOf (.accwin f)) v .rc = 64 * (s.block 0).tiles.length := by decide

theorem canonical_single {s : State} {k : Block} (hm : Memory.wf s.mem) (hp : Memory.wf s.pmem) (hh : Memory.wf s.hmem) (hb : s.blocks = [k])
    (hs : Memory.wf k.scratch) (hf : k.fe = []) (hc : k.ckpt = none) (ht : ∀ x ∈ k.tiles, SparseWf 0 x.cells) : Canonical s := by
  refine ⟨hm, hp, hh, fun j hj => ?_⟩
  rw [hb, List.mem_singleton] at hj
  subst hj
  exact ⟨hs, by rw [hf]; exact ⟨.nil, by simp⟩, by simp [hc], ht⟩

theorem canonical_tinyBlk (f : Block → Block) (hs : (f tinyBlock).scratch = []) (hf : (f tinyBlock).fe = []) (hc : (f tinyBlock).ckpt = none)
    (ht : (f tinyBlock).tiles = tinyBlock.tiles) : Canonical (tinyBlk f) :=
  canonical_single (by decide : Memory.wf ([] : Memory)) (by decide : Memory.wf ([] : Memory)) (by decide : Memory.wf ([] : Memory)) rfl (by rw [hs]; decide) hf hc
    (by rw [ht]; decide)

theorem test_witness_cells :
    (let f := { baseFields with rd := 31, ra := 8, rb := 9 }
     let s := { matState 1 with blocks := (matState 1).blocks.map fun k =>
       { k with threads := k.threads.map fun th => { th with vals := (th.vals.put 8 ⟨127, .full, false⟩).put 9 ⟨127, .full, false⟩ } } }
     Unhindered (.ald f) s ∧ OnAll (.ald f) s fun t => cellFault f (shapeOf (.ald f)) s 0 t = none) ∧
    (let f := { baseFields with ra := 8, rb := 9, rc := 10 }
     Unhindered (.ast f) (matState 1) ∧ OnAll (.ast f) (matState 1) fun t => cellFault f (shapeOf (.ast f)) (matState 1) 0 t = none) ∧
    (let f := { baseFields with rd := 1 }
     Unhindered (.aclr f) (matState 1) ∧ OnAll (.aclr f) (matState 1) fun t => aclrFault 1 (matState 1) 0 t = none) ∧
    Unhindered (.mwait { baseFields with rd := 15 }) (matState 1) := by decide

theorem test_witness_astCanonical : Canonical (matState 1) :=
  canonical_single (by decide) (by decide) (by decide) rfl (by decide) rfl rfl (by decide)

theorem test_witness_tokens :
    (Unhindered (.tkget { baseFields with rd := 1 }) tiny ∧ 1 < (tiny.block 0).tiles.length) ∧
    (Unhindered (.tkput { baseFields with rd := 1 }) (matState 1) ∧
      OnAll (.tkput { baseFields with rd := 1 }) (matState 1) fun t =>
        (tileOf (matState 1) 0 1).owner = some (homeWave ((matState 1).launchOf 0) t)) ∧
    (let s := { tinyBlk fun k => { k with tiles := k.tiles.map fun x => { x with reqs := [⟨0, [0], 0⟩] } } with dies := [{ Die.init with cycle := 1 }] }
     nextReq s 0 1 = some ⟨0, [0], 0⟩) := by decide

theorem test_witness_tokenReturn :
    let s := { tiny with launches := [{ tinyLaunch with flags := 0x10 }]
                         blocks := [{ tinyBlock with threads := tinyBlock.threads.map fun th => { th with st := .putWait true 1 12 }
                                                     tiles := tinyBlock.tiles.map fun x => { x with owner := some 0 } }] }
    let ts := (tidsOf (s.block 0)).filter fun t => waveOf s 0 t = 0 && (s.thread 0 t).alive
    ts = [0, 1] ∧ (tileOf s 0 1).owner = some 0 ∧ aldPending s 0 0 1 = false ∧
      (∀ t ∈ ts, (s.thread 0 t).pc = (s.thread 0 0).pc ∧ (s.thread 0 t).st = .putWait true 1 12) ∧
      (let r := tinyWith fun th => { th with st := .putWait false 1 12 }
       ∀ t ∈ ts, (r.thread 0 t).st = .putWait false 1 12) := by decide

theorem test_witness_swrite : ∀ r ∈ [0x10, 0x11, 0x15#9],
    let f := { baseFields with re := r, ra := 8 }
    let s := tinyRegs [(8, 5)]
    Unhindered (.swrite f) s ∧ OnAll (.swrite f) s fun t => opd f (shapeOf (.swrite f)) (s.thread 0 t).vals .ra % 8 = 5 := by decide

/-! ### Witnesses: the visibility machine -/

def opState (o : MemOp) : State := tinyBlk fun k =>
  { k with threads := modAt (fun th => { th with ops := [o], nextId := 1, prods := [⟨0, [31], .waiting, false, false, 0x10000⟩] }) 0 k.threads }

def anOp : MemOp := { baseOp (tiny.thread 0 0) .store 0x10000 0 0 0 with id := 0, size := 4, data := [1, 2, 3, 4], addr := 0x1C, va := 0x1C }

theorem test_witness_storePerform : ∀ o ∈ [anOp, { anOp with scratch := true }], let s := opState o
    findOp s 0 0 0 = some o ∧ o.kind = .store ∧ (o.scratch = true ∨ lostAt s (ctxOf s 0) o.va = false) ∧
      releaseLost s 0 0 o = false ∧ storeGroup s 0 0 o = [(0, o)] ∧ o.addr % 16 + o.data.length ≤ 16 ∧ opReady s 0 0 o = true ∧
      poolHeld (sendPool 0 o s) 0 o = false := by decide

/-- Both lanes of one store instruction name one granule. -/
theorem test_witness_storeGroup :
    let s := tinyBlk fun k => { k with threads := k.threads.map fun th => { th with ops := [anOp], nextId := 1 } }
    storeGroup s 0 0 anOp = [(0, anOp), (1, anOp)] ∧ ∀ t ∈ [0, 1], opReady s 0 t anOp = true := by decide

/-- The other entries, and a store that makes its granule FULL or is a release. -/
theorem test_witness_otherSteps :
    (∀ o ∈ [{ anOp with kind := .feset 3 true, scratch := true, data := [] }, { anOp with kind := .feset 3 false, scratch := true, data := [] },
        { anOp with kind := .fence true true, acq := some .dev, rel := some .dev, addr := 0, data := [] },
        { anOp with kind := .release, rel := some .dev, tag := .gate 3, addr := 0, data := [] }],
      let s := opState o
      findOp s 0 0 0 = some o ∧ o.isAccess = false ∧ releaseLost s 0 0 o = false ∧ opReady s 0 0 o = true ∧ poolHeld (sendPool 0 o s) 0 o = false) ∧
    (∀ o ∈ [{ anOp with scratch := true, tag := .setFull }, { anOp with rel := some .sys }, { anOp with rel := some .sys, priv := true }],
      opReady (opState o) 0 0 o = true ∧ releaseLost (opState o) 0 0 o = false ∧ poolHeld (sendPool 0 o (opState o)) 0 o = false) ∧
    (opState anOp).launchOf 0 = tinyLaunch ∧ tinyLaunch.gates.getLsbD 3 = false := by decide

/-- `RELEASE` of gate 3 takes its step; an `FESET` clears three granules and no other. -/
theorem test_other_steps :
    (match exec (.storePerform 0 0 0) (opState { anOp with kind := .release, rel := some .dev, tag := .gate 3, addr := 0, data := [] }) with
     | .next r => decide ((r.launchOf 0).gates = 8 ∧ r.items.length = 1)
     | _ => false) = true ∧
    (match exec (.storePerform 0 0 0) (opState { anOp with kind := .feset 3 false, scratch := true, data := [] }) with
     | .next r => decide ((List.range 6).map (fun x => sget true x (r.block 0).fe) = [true, false, false, false, true, true])
     | _ => false) = true := by decide

/-- What holds an entry, one older entry or store for each reason. -/
theorem test_witness_held :
    let young := { anOp with id := 1 }
    let held := fun (p o : MemOp) => canStep (tinyBlk fun k => { k with threads := modAt (fun th => { th with ops := [p, o] }) 0 k.threads }) 0 0 o
    let far := { anOp with addr := 0x100 }
    held anOp young = false ∧ held far young = true ∧ held { far with kind := .load } { young with rel := some .dev } = false ∧
      held { far with kind := .fence false true, rel := some .dev } young = false ∧ held { far with kind := .load, acq := some .dev } young = false ∧
      held { far with kind := .load } { young with kind := .fence true false, acq := some .dev } = false ∧
      (let x : Item := ⟨some 9, [], some (0, 0), false, [(.blk 0, 1)], none, 0, none, true⟩
       let s := { tiny with items := [x] }
       x.op < young.id ∧ visStep s x (instOf s 0 .dev) = none ∧ canStep s 0 0 { young with rel := some .dev } = false ∧
         canStep s 0 0 { young with kind := .fence true true, acq := some .dev } = false ∧ canStep s 0 0 young = true) := by decide

theorem test_witness_opCanonical (o : MemOp) : Canonical (opState o) := canonical_tinyBlk _ rfl rfl rfl rfl

theorem test_witness_atomicPerform :
    let o := { anOp with kind := .atomic 9, scratch := true, data := [0, 0, 0, 0, 1, 0, 0, 0], prod := some 0 }
    findOp (opState o) 0 0 0 = some o ∧ releaseLost (opState o) 0 0 o = false ∧ opReady (opState o) 0 0 o = true ∧
      poolHeld (sendPool 0 o (opState o)) 0 o = false := by decide

theorem test_witness_globalAtomic :
    let o := { anOp with kind := .atomic 0, scp := .dev, prod := some 0 }
    findOp (opState o) 0 0 0 = some o ∧ lostAt (opState o) 0 o.va = false ∧ releaseLost (opState o) 0 0 o = false ∧
      opReady (opState o) 0 0 o = true ∧ poolHeld (sendPool 0 o (opState o)) 0 o = false ∧ o.addr % 16 + o.size ≤ 16 := by decide

/-- Two lanes of one `LDS.c` that name one granule. -/
theorem test_witness_clearGroup :
    let o := { anOp with kind := .load, scratch := true, data := [], prod := some 0, tag := .clear }
    let s := tinyBlk fun k => { k with threads := k.threads.map fun th => { th with ops := [o], nextId := 1 } }
    clearGroup s 0 0 o = [(0, o), (1, o)] ∧ (∀ t ∈ [0, 1], opReady s 0 t o = true) ∧ mayBeEarly s 0 0 o s.now = true ∧
      (s.block 0).past = [] ∧ o.addr % 16 + o.size ≤ 16 := by decide

theorem test_witness_copyRead :
    let o := { anOp with kind := .copyRead 7 0, size := 16, data := [], addr := 0, va := 0 }
    let s := opState o
    findOp s 0 0 0 = some o ∧ opReady s 0 0 o = true ∧ lostAt s 0 o.va = false ∧ mayBeEarly s 0 0 o s.now = true ∧
      mayReturn s 0 0 o 0 s.now = true := by decide

theorem test_witness_loadSatisfy : ∀ sc ∈ [false, true],
    let o := { anOp with kind := .load, scratch := sc, data := [], prod := some 0, tag := if sc then .clear else .none }
    let s := opState o
    (∀ e ∈ clearGroup s 0 0 o, opReady s 0 e.1 e.2 = true ∧ (e.1 = 0 → e.2 = o)) ∧
    findOp s 0 0 0 = some o ∧ opReady s 0 0 o = true ∧ lostAt s (ctxOf s 0) o.va = false ∧ mayBeEarly s 0 0 o s.now = true ∧
      mayReturn s 0 0 o 0 s.now = true := by decide

def itemState : State :=
  { tiny with items := [⟨some 1, [(0, 7)], some (0, 0), false, [(.blk 0, 1)], none, 0, none, true⟩] }

theorem test_witness_frontier : ∀ w ∈ [1, 2, 3, 4], logged itemState 0 = false ∧ (itemState.items.getD 0 default).vis ≠ [] ∧
    logHolds itemState 0 0 (instOf itemState 0 (scopeOfRank w)) = false ∧
    visStep itemState (itemState.items.getD 0 default) (instOf itemState 0 (scopeOfRank w)) = none ∧
    recallHeld itemState (otherSharer 0 (scopeOfRank w) 0 0 itemState) = false ∧ lostAt itemState 0 16 = false ∧ (itemState.ctx 0).pools = [] := by decide

def landState (desc : List Byte) : State := tinyBlk fun k =>
  { k with copies := [⟨3, 1, 7, 0x10000, desc, 0x100, 0, 32, [(0, List.replicate 16 9), (1, List.replicate 16 8)], 2, false, false, 0, false, true, none⟩] }

theorem test_witness_copyLands : ∀ d ∈ [[], tinyDesc], let s := landState d
    (findCopy s 0 ((3 * 1024 + 1) / 1024) ((3 * 1024 + 1) % 1024)).isSome = true ∧
      ((s.block 0).copies.getD 0 default).readyToLand = true ∧ landHeld s 0 ((s.block 0).copies.getD 0 default) = false ∧ (s.block 0).landed = [] ∧
      homeWave (s.launchOf 0) 1 < (s.block 0).waves.length := by decide

theorem test_witness_copyDesc : (tdescOf tinyDesc).map TDesc.dir = some 0 := by decide

theorem test_witness_landCanonical (d : List Byte) : Canonical (landState d) := canonical_tinyBlk _ rfl rfl rfl rfl

/-! ### Witnesses: the path of an access -/

/-- The page tables of a placed program; no launch runs, so its pages are not leased. -/
def mmState : State := { writePtes loadPtes tiny with launches := [{ tinyLaunch with stage := .done }] }

/-- A copy of 4 words from scratch 0x100 to address 0, where the tensor has 3. -/
def outDesc : List Byte :=
  takePad 128 0 (leBytes 8 0 ++ [2, 1, 1, 0] ++ leBytes 4 0x100 ++ leBytes 4 3 ++ takePad 24 0 [] ++ leBytes 4 4 ++
    takePad 24 0 [] ++ takePad 28 0 [] ++ leBytes 2 4)

def outState (done : Nat) (asked : Bool) : State :=
  { mmState with blocks := mmState.blocks.map fun k => { k with
      scratch := memWrite [] 0x100 [1, 2, 3, 4, 5, 6, 7, 8]
      copies := [⟨3, 1, 7, 0x10000, outDesc, 0x100, 0, 16, (List.range done).map (·, []), 0, false, false, 0, false, asked, none⟩] } }

def anElement (s : State) : MemOp :=
  scatterOp s 0 (withBox s 0 ((s.block 0).copies.getD 0 default)) ((tdescOf outDesc).getD default) 1 4

/-- The second element of three, before its request and after; a copy whose elements are all stored. -/
theorem test_witness_copyOut :
    let d := (tdescOf outDesc).getD default
    tdescOf outDesc = some d ∧ d.dir = 1 ∧ d.elements = [(0, 0), (1, 4), (2, 8)] ∧
    (∀ asked ∈ [false, true], let s := outState 1 asked
      let c := (s.block 0).copies.getD 0 default
      findCopy s 0 ((3 * 1024 + 1) / 1024) ((3 * 1024 + 1) % 1024) = some c ∧ landHeld s 0 c = false ∧ (s.ctx 0).halted = false ∧
      (s.ctx 0).regions = [] ∧ lostAt s 0 4 = false ∧ pageFault s 0 4 .w = none ∧
      walk s 0 4 = .leaf ⟨5, .hard, false, false, 0, true, true, true, 0x10000, 0x4000⟩ ∧ canStep s 0 1 (anElement s) = true ∧
      askPendingAt s 256 0 4 = false ∧ poisonedVa s 0 4 4 = false ∧ (anElement s).addr = 4 ∧ (anElement s).data = [5, 6, 7, 8]) ∧
    d.elements.length ≤ (((outState 3 false).block 0).copies.getD 0 default).got.length := by decide

/-- Its step writes the four bytes of the element and no other. -/
theorem test_copy_out :
    (match exec (.tcopyComplete 0 (3 * 1024 + 1)) (outState 1 true) with
     | .next r => decide ((List.range 12).map (newestByte r) = [0, 0, 0, 0, 5, 6, 7, 8, 0, 0, 0, 0] ∧
         (r.block 0).copies.map (fun c => c.got.length) = [2])
     | _ => false) = true := by decide

def aLine : Line := ⟨.l1 0, 0, 0, true, true, true, .hard, false, 0, 0, false, false, false, none, none⟩

theorem test_witness_lineFill :
    let o := { anOp with fill := .idle }
    let s := { opState o with lines := [aLine] }
    findOp s 0 0 0 = some o ∧ o.scratch = false ∧ o.isAccess = true ∧ o.fill = .idle ∧ l1Before s 0 o = false ∧ lostAt s (ctxOf s 0) o.va = false ∧
      hasLine s (.l1 (s.block 0).core) (ctxOf s 0) o.va = some aLine ∧ rightsOk o true true = true := by decide

theorem test_witness_pageWalk :
    (let s := { mmState with walks := [⟨0, 1, 0, 0, [(0, 0, 0)], [], true⟩] }
     (s.walks.find? fun x => x.key = (0, 1, 0, 0 / 2 ^ 16)) = some ⟨0, 1, 0, 0, [(0, 0, 0)], [], true⟩ ∧ walkRead s (0, 1, 0, 0) = true ∧ walkBad s 0 0 = false ∧ walk s 0 0 = .leaf ⟨5, .hard, false, false, 0, true, true, true, 0x10000, 0x4000⟩ ∧
       (let l : Leaf := ⟨3, .pool, false, false, 0, true, true, true, 0x10 * 2 ^ 48, 0x4000⟩
        leafCovers s l 0 = false ∧ leafCovers { s with decoders := [⟨2 ^ 21, 2 ^ 21, 0, 0, false, false⟩] } l (2 ^ 21) = true ∧
          leafCovers s (loadLeaf 0x10000) 0 = true) ∧
       (walkerOf 2 = (0, 1) ∧ 2 < s.ctls.length)) ∧
    (let s := { mmState with walks := [⟨0, 1, 0, 2, [(0, 0, 0)], [], true⟩] }
     walkBad s 0 0x20000 = false ∧ walkBad { s with plat := { s.plat with poison := [0x4000] } } 0 0x20000 = true ∧
     walk s 0 0x20000 = .absent ∧ (s.walks.find? fun x => x.page = 0x20000 / 2 ^ 16).isSome = true) ∧
    (let s := writePtes [(0x4010, BitVec.ofNat 64 (pteOf { loadLeaf 0x10000 with frame := 0xFF000000000000 }))] mmState
     walk s 0 0x20000 = .reserved 0xFF000000000000) := by decide

/-- A walk that waits takes a free walker; one that reads a table entry waits for its read. -/
theorem test_witness_walker :
    (let w : Walk := ⟨0, 1, 0, 0, [(0, 0, 0)], [], false⟩
     let s := { mmState with walks := [w] }
     (s.walks.find? fun x => x.die = 0 && x.group = 1 && !x.runs) = some w ∧ (walksOf s (0, 1)).length < 64) ∧
    (let r : Req := ⟨none, 0, 0, 0, 100, 0, 0x4000, none, 0, some (0, 1, 0, 0)⟩
     walkRead { mmState with ctls := modAt (fun c => { c with reqs := [r] }) 0 tiny.ctls } (0, 1, 0, 0) = false) := by decide

theorem test_witness_migration :
    let frame := 4 * 2 ^ 48 + 0x10000
    walk mmState 0 0 = .leaf ⟨5, .hard, false, false, 0, true, true, true, 0x10000, 0x4000⟩ ∧
      bitsOf 0x10000 55 48 = 0 ∧ bitsOf frame 55 48 = 4 ∧ frame % 2 ^ 16 = 0 ∧ anyTier mmState 0 0 = true ∧
      leased mmState 0 0 (2 ^ 16) = false ∧ frameBad mmState frame (2 ^ 16) = false ∧ targetOk frame = true ∧ frameMapped mmState frame (2 ^ 16) = false ∧
      (mmState.die 0).emergency = false ∧ salvagePage mmState 0 0 = false ∧
      (let s := writePtes [(0x4010, BitVec.ofNat 64 (pteOf (loadLeaf 0x10000)))] mmState
       let l : Leaf := ⟨5, .hard, false, false, 0, true, true, true, 0x10000, 0x4000⟩
       (sharers (allLeaves s) (0, 0, l)).map (fun e => (e.1, e.2.1)) = [(0, 0x20000)] ∧ leased s 0 0x20000 (2 ^ 16) = false) := by decide

theorem test_witness_serve :
    let r : Req := ⟨some (0, 0, 0), 0, 0, 0, 100, 0, 0x10000, some 0, 0, none⟩
    let s := { opState { anOp with fill := .queued } with ctls := modAt (fun c => { c with reqs := [r] }) 0 tiny.ctls }
    nextRequest s 0 = some r ∧ findOp s 0 0 0 = some { anOp with fill := .queued } ∧ s.plat.poison = [] := by decide

/-! ### Witnesses: placing and scheduling -/

def unplaced : Block := newBlock 0 0 2 0x10000#64 0x40#64 0 none none

theorem test_witness_placement :
    let s := { tiny with blocks := [unplaced] }
    spanBlocks s 0 = [0] ∧ awaits s 0 = true ∧ placesOk s (ctxOf s 0) [(1, 3)] = true ∧ placesFit s [0] [(1, 3)] = true ∧
      reserved s 0 0 = false ∧ inTurn s 0 = true ∧ s.plat.winter = .running ∧
      longWait { s with cycle := 2250000 } 0 = true ∧ longWait { s with cycle := 2249999 } 0 = false := by decide

theorem test_witness_retirement :
    mayRetire (tinyWith fun th => { th with st := .exited }) 0 = true := by decide

/-- Two blocks of one wave each on sub-core 0 of core 0. -/
def twoWaves (f g : PWave → PWave) (h : Thread → Thread) : State :=
  { tiny with blocks :=
      [{ tinyBlock with pwaves := tinyBlock.pwaves.map f, threads := tinyBlock.threads.map h },
       { tinyBlock with index := 1, pwaves := tinyBlock.pwaves.map g }] }

theorem test_witness_activation :
    activationOf (atCycle 1 (twoWaves (fun w => { w with active := false }) id id)) 0 0 = some (0, 0) := by decide

theorem test_witness_swap :
    swapOf (atCycle 1 (twoWaves (fun w => { w with ll := 16 }) (fun w => { w with active := false }) fun th =>
      { th with st := .barWait 0 4 })) 0 0 =
      some ((0, 0), (1, 0)) := by decide

theorem test_witness_starvation :
    starved (atCycle 1000000 (twoWaves id (fun w => { w with active := false }) id)) 0 0 = some (1, 0) := by decide

theorem test_witness_rotation :
    rotationDue { atCycle 1 (twoWaves id id id) with
      cores := modAt (fun c => { c with
        subs := modAt (fun u => { u with last := some (0, 0), consec := 256, issued := some 0 }) 0 c.subs }) 0 tiny.cores } 0 0 = true := by decide

theorem test_witness_groupLimit :
    groupLimitDue (twoWaves (fun w => { w with cur := some 0x10000, run := 64 }) id id) 0 0 = some (0, 0) ∧
      halvingDue (atCycle 65536 tiny) 0 = true := by decide

def anInst : MInst := ⟨0, 0, 0, 0, 1, [⟨0, 0, 0, 0, false, 0, false, 0, 1, false, false, 8, false, 0, false⟩], 0, 0x10000, none, 0⟩

theorem test_witness_instances :
    (let s := { atCycle 1 tiny with cores := modAt (fun c => { c with mq := [anInst] }) 0 tiny.cores }
     capturable s 0 = some anInst) ∧
    (let i := { anInst with cap := some ([(0, List.replicate 8 0)], List.replicate 4096 0) }
     i.cap.isSome = true ∧ i.capAt < (atCycle 1 tiny).coreCycle 0 ∧ (tiny.ctx (ctxOf tiny i.block)).halted = false ∧ i.tile < (tiny.block i.block).tiles.length) := by decide

/-! ### Witnesses: the Fitas machine -/

def aRun : XRun := { loadRun 0 with table := [7], outCur := 8 }

def xImm (n : BitVec 16) : XFields := ⟨1, 0, 0, true, n⟩

theorem test_witness_fitas :
    aRun.fin = none ∧ aRun.count < aRun.bound ∧ aRun.pc + 1 < aRun.insns.length ∧ xIndex (xImm 63) aRun < 64 ∧
    64 ≤ xIndex (xImm 64) aRun ∧ xIndex (xImm 7) aRun < 8 ∧ xIndex (xImm 0) aRun < aRun.table.length ∧
    (aRun.opnd (xImm 32)).toNat = 32 ∧ aRun.inCur + 32 ≤ 8 * aRun.inp.length ∧
    8 * aRun.inp.length < { aRun with inCur := 985 }.inCur + 32 ∧ aRun.outCur + 32 ≤ 8 * aRun.out.length ∧
    (let r := { aRun with k := [0, 1, 0, 0, 0, 0, 0, 0] }
     r.outCur % 8 = 0 ∧ 0 < (r.reg 1).toNat ∧ (r.reg 1).toNat ≤ r.outCur / 8 ∧ r.outCur / 8 + (r.opnd (xImm 16)).toNat ≤ r.out.length ∧
       r.count + 1 + ((r.opnd (xImm 16)).toNat + 15) / 16 ≤ r.bound) ∧
    8 ≤ xIndex (xImm 8) aRun ∧ aRun.table.length ≤ xIndex (xImm 1) aRun ∧ 32 < (aRun.opnd (xImm 33)).toNat ∧
    8 * aRun.out.length < { aRun with outCur := 8 * aRun.out.length - 31 }.outCur + 32 ∧
    (aRun.reg 1 = 0 ∧ aRun.count + (1 + ((aRun.opnd (xImm 16)).toNat + 15) / 16) ≤ aRun.bound) ∧
    aRun.out.length < aRun.outCur / 8 + (aRun.opnd (xImm 0x1000)).toNat ∧ 6 ≤ (aRun.opnd (xImm 6)).toNat ∧
    (let r := { aRun with pc := aRun.insns.length - 1 }
     ¬r.pc + 1 < r.insns.length ∧ (r.insns.length : Int) ≤ (r.pc : Int) + 1 + (0#16).toInt) ∧
    (aRun.opnd (xImm 5)).toNat < 6 ∧ 0 ≤ (aRun.pc : Int) + 1 + (0xFFFF#16).toInt ∧
    (xNext { aRun with bound := 0 }).fin = some .over := by decide

theorem test_witness_fitasAll : ∀ i ∈ [Instr.xEnd, .xFail, .xMovi 1 2, .xMovh 1 2, .xZze 1 2, .xZzd 1 2, .xBeq 1 2 3, .xBne 1 2 3,
    .xBlt 1 2 3, .xJ 3] ++ ([Instr.xAdd, .xSub, .xAnd, .xOr, .xXor, .xShl, .xShr, .xSar, .xGetb, .xPutb, .xLdt, .xLdw, .xStw,
    .xLdp, .xCopy, .xInfo].map fun c => c (xImm 1)), (xOpOf i).isSome = true := by decide

/-! ### Witnesses: queues, launches, copies -/

def aSpec : QueueSpec := ⟨0, 0x1000, 16, 0x2000, 0x2010, 0, 3, false, false, false⟩

/-- A queue whose ring holds one packet, as the filter has fetched it. -/
def queueState (raw : List Byte) : State :=
  { mmState with queues := [⟨aSpec, 0, 1, .active, 0, [⟨0, takePad 64 0 raw, .fetched, false, none, none⟩], true, 0⟩] }

def packetOf (s : State) : Packet := (s.queue 0).pkts.getD 0 default

def copyPacket (n : Nat) : List Byte :=
  [2, 0, 0, 0, 0, 0, 0, 0] ++ leBytes 8 n ++ leBytes 8 0x100 ++ leBytes 8 0x8000 ++ leBytes 24 0 ++ leBytes 8 0x80

def signalPacket : List Byte := [3, 0, 1, 0, 7, 0, 0, 0] ++ leBytes 8 0x100 ++ leBytes 8 5

def mapPacket : List Byte := [6, 0, 2, 0, 1, 0, 0, 0] ++ leBytes 8 0x400

theorem test_witness_queues :
    (∀ t ∈ [0, 16], (0 : Nat) ≤ t ∧ t ≤ 0 + aSpec.size) ∧ 0 + aSpec.size < 17 ∧
    (let s := queueState (launchPacket 32)
     let x := s.queue 0
     let bad := modPlat (fun p => { p with poison := [0x11000] }) s
     let full := modPlat (fun p => { p with mail := [(.fe, List.replicate 64 default)] }) s
     mailRoom s .fe feSource 2 = true ∧ ringHeld s x [1, 2] = false ∧ ringBad s x [1, 2] = none ∧ queueHeld s x = false ∧
       ringHeld bad x [1, 2] = false ∧ ringBad bad x [1, 2] = some 0x1040 ∧ mailRoom full .fe feSource 1 = false) ∧
    queueSpecOk tiny { aSpec with base := 0x1000 } = true ∧ queueSpecOk tiny { aSpec with size := 65536, base := 0x400000 } = true := by
  decide

theorem test_witness_launch :
    let s := queueState (launchPacket 32)
    nextOf s 0 1 = some (packetOf s) ∧ checkPacket (packetOf s).raw = none ∧
      (s.queue 0).pkts[(packetOf s).n]? = some (packetOf s) := by decide

theorem test_witness_dispatch :
    let s0 := queueState (launchPacket 32)
    let s := modPkt 0 0 (fun p => { p with st := .pending }) s0
    let p := packetOf s
    let rs := loadLaunch.ranges
    p.st = .pending ∧ mayStart (s.queue 0) 0 = true ∧ s.plat.winter = .running ∧ (s.ctx 0).halted = false ∧
      (s.ctx 0).killed = false ∧ recordHeld s 0 0 (pf p.raw 0x38 8) = false ∧
      Machine.setOf (s.ctx 0) (pf p.raw 0x30 2) = some rs ∧ leaseOk rs (pf p.raw 0x38 8) 32 .w = true ∧
      (let m := mmWrite false [] s
       ∀ r ∈ rs, holdsLost m 0 r.base r.len = false ∧ mapped m 0 r = true ∧ tierOk m 0 r = true ∧ needsClass m 0 r = false) := by decide

theorem test_witness_badPackets : ∀ t ∈ [1, 2, 3, 4, 6],
    let s := queueState ([t] ++ leBytes 7 0xFFFFFFFFFFFFFF)
    nextOf s 0 t.toNat = some (packetOf s) ∧ (checkPacket (packetOf s).raw).isSome = true ∧ mailRoom s .fe feSource 1 = true := by decide

theorem test_witness_packets : ∀ raw ∈ [copyPacket 16, copyPacket 0x4000, signalPacket, [4, 0, 0, 0, 0, 0, 0, 0, 255], mapPacket],
    let s := queueState raw
    let p := packetOf s
    nextOf s 0 p.type = some p ∧ checkPacket p.raw = none ∧ mayStart (s.queue 0) p.n = true ∧ s.plat.winter = .running ∧
      recordHeld s 0 0 (pf p.raw 0x38 8) = false := by decide

theorem test_witness_signalMapped : mappedWith (mmWrite false [] mmState) 0 0x100 8 .w = true ∧ deviceHeld mmState 0 0x100 8 = false ∧
    deviceBad (mmWrite false [] mmState) 0 0x100 8 = none ∧ (packetOf (queueState signalPacket)).raw.length = 64 := by decide

theorem test_witness_mapRanges :
    let e := leBytes 8 0x10000 ++ leBytes 8 (1 + 2 ^ 40 + 2 ^ 44)
    let rs := [⟨0x10000, 0x10000, 0, .hard, false, false, true⟩]
    (rangesOf [e]).toOption = some rs ∧ apart rs = true ∧ (mmState.ctx 0).sets.length < 256 ∧
      deviceHeld mmState 0 0x400 16 = false ∧ deviceBad mmState 0 0x400 16 = none ∧ (mmState.ctx? 0).isSome = true ∧
      (∀ c ∈ [FwCore.cv, .mm, .fe], mailRoom mmState c feSource 1 = true) ∧
      (let m := mmWrite true [] mmState
       mapBreaks m 0 rs = false ∧ ∀ r ∈ rs, areaOk m 0 [] r = true) := by decide

theorem test_witness_chunk :
    ∀ asked ∈ [false, true],
    let x : Xfer := ⟨0, 0, 0, 0x100, 0x8010, 0x4000, 0, 0, 0x80, 0, false, false, 0, asked⟩
    let s := { mmState with xfers := [x] }
    askPending s (copyWho 0) = false ∧ copyRuns s x = true ∧ (s.ctx 0).regions = [] ∧ min x.len (4096 - x.dst % 4096) = 4080 ∧
      copyBlocked s 0 0x100 4080 = none ∧ copyBlocked s 0 0x8010 4080 = none ∧ copyWaits s 0 0 0x100 4080 = false ∧ copyWaits s 0 0 0x8010 4080 = false := by decide

theorem test_witness_completion :
    let s := { tiny with launches := [{ tinyLaunch with tree := 0 }] }
    let s1 := widenLaunch 0 s
    (s.launch 0).tree = 0 ∧ (s1.ctx 0).halted = false ∧ poolWaits s1 0 = false ∧ 0 < s1.launches.length ∧ (s.ctx 0).halted = false ∧
      recordHeld s (s.launch 0).q 0 (s.launch 0).record = false ∧ widenStops s 0 = false ∧ deviceBad s 0 (s.launch 0).record 32 = none := by decide

/-! ### Witnesses: exceptions and recovery -/

/-- A record whose fields fit, at the head of the ring. -/
theorem test_witness_record :
    let r : StopRec := { (default : StopRec) with source := 0x6400, cause := 0x1E, seq := 5, pc := 0x10000 }
    r.source < 2 ^ 16 ∧ r.cause < 2 ^ 8 ∧ r.seq < 2 ^ 64 ∧ { tiny with ring := [r] }.ring = r :: [] ∧
      nextRecord [{ r with source := 0x6401 }, r] = some r ∧ nextRecord [{ r with source := 0x6401 }, { r with at_ := 1 }] = some { r with source := 0x6401 } ∧
      (recordBytes r).take 3 = [0x00, 0x64, 0x1E] := by decide

/-- The context has halted and its partition has stopped. -/
def stopState : State :=
  { tiny with ctxs := [{ tinyCtx with halted := true }], parts := [⟨[0, 1], some 0, some (0, 1, 0), true, none⟩] }

theorem test_witness_eh :
    atEh stopState 0 = true ∧ (stopState.ctx 0).killed = false ∧ leaseBroken stopState 0 = false ∧
      atEh stopState (stopState.launch 0).ctx = true ∧ (stopState.launch 0).stage ≠ .done ∧ stopState.lines = [] ∧ (∀ d ∈ stopState.dies, d.emergency = false) ∧
      (stopState.ctx 0).regions = [] := by decide

theorem test_witness_preciseFaults :
    (let i := Instr.iadd { baseFields with rd := 32 }
     rangeOk (fieldsOf i).1 (fieldsOf i).2 (tiny.launchOf 0).regs = false) ∧
    (let s := tinyWith fun th => { th with vals := th.vals.setAv [4] .empty }
     let i := Instr.iadd { baseFields with rd := 31, ra := 4, rb := 5, fe := 1 }
     rangeOk (fieldsOf i).1 (fieldsOf i).2 (s.launchOf 0).regs = true ∧
       groupFaults i (fun _ _ _ => some (0x09, 0)) s ≠ [] ∧ canRollBack (s.block 0) = false) ∧
    (let s := tinyBlk fun k => { k with rollable := true, ckpt := some ⟨k.threads, k.waves, [], [], [], k.cvs⟩ }
     canRollBack (s.block 0) = true ∧
       groupFaults (.iadd { baseFields with rd := 31, ra := 4, rb := 5 }) (fun _ _ t => some (if t = 0 then 0x1C else 0x0B, t)) s =
         [(0, 0x1C, 0), (1, 0x0B, 1)]) := by decide

theorem test_witness_partitionStop :
    let x : Partition := ⟨[0, 1], some 0, some (0, 1, 0x6400), false, none⟩
    let s := { tiny with parts := [x] }
    s.parts[0]? = some x ∧ x.halt = some (0, 1, 0x6400) ∧ stopHeld s (partBlocks s x) = false ∧ 0 ∈ busyEngines s x := by decide

/-- The partition takes a request at cycle 0; its block drains. -/
def drainState : State :=
  { tinyBlk fun k => { k with method := .drain } with
      parts := [⟨[0, 1], some 0, none, false, some (256, 256, 0)⟩], cycle := 450000 }

theorem test_witness_preemption :
    (let x := tiny.parts.getD 0 default
     x.halt = none ∧ x.preempt = none ∧ x.ctx.isSome = true ∧ partBlocks tiny x = [0] ∧
       (∀ c ∈ partBlocks tiny x, mayRetire tiny c = false) ∧ spanBlocks tiny 0 = [0] ∧
       methodOf tiny 0 0 0 = .drain ∧ methodOf tiny 256 256 0 = .save) ∧
    drainDue drainState 0 = true ∧
    (let s := tinyBlk fun k => { k with method := .save }
     maySave s 0 = true ∧ (s.ctx? (ctxOf s 0)).isSome = true) := by decide

/-- The header word of the block's entry, readable and poisoned. -/
theorem test_witness_header :
    let s := { mmState with launches := [tinyLaunch] }
    let x := s.parts.getD 0 default
    (partBlocks s x).filter (needsHead s) = [0] ∧ x.ctx = some 0 ∧ (s.ctx 0).regions = [] ∧ mayRetire s 0 = false ∧
      deviceHeld s 0 (headAt s 0) 4 = false ∧ deviceBad s 0 (headAt s 0) 4 = none ∧
      (let s := modPlat (fun p => { p with poison := [0x1FF80] }) s
       deviceHeld s 0 (headAt s 0) 4 = false ∧ deviceBad s 0 (headAt s 0) 4 = some 0xFFF8) := by decide

theorem test_witness_flush :
    let s := { tiny with launches := [{ tinyLaunch with flags := 2, retired := 1, counts := [8] }] }
    methodOf s 256 256 0 = .flush := by decide

theorem test_witness_restore :
    let s := tinyBlk fun k => { k with status := .saved }
    spanBlocks s 0 = [0] ∧ placesOk s (ctxOf s 0) [(1, 0)] = true ∧ placesFit s [0] [(1, 0)] = true ∧ (s.ctx 0).halted = false ∧
      recordBad s 0 = none ∧
      (let s := { s with ctxs := [{ tinyCtx with saves := [(0, 0x2000, [1, 2, 3])] }] }
       recordBad (modPlat (fun p => { p with poison := [0x2000] }) s) 0 = some 0x2000) := by decide

/-! ### Witnesses: codec, pool, platform -/

def aRegion : Region :=
  { idx := 0, base := 0, len := 1024, pbs := 256, sbs := 128, vfy := false, lossy := false, repl := false, ebase := 0, ecount := 0,
    rbase := 0, gens := [⟨0, 1, 2, 4096, 4096, []⟩], cur := 0, since := 0, prev := 0, die := 0, slots := [], escs := [], inv := 0,
    esc := 0, rep := 0, walker := some 0 }

def codecState (r : Region) : State :=
  { mmState with ctxs := [{ tinyCtx with regions := [r], spec := { loadSpec with injection := true } }]
                 fills := [⟨0, 0, 3, 1, ⟨none⟩⟩] }

theorem test_witness_fill :
    (let s := codecState aRegion
     stageOf s 0 aRegion (attemptSlot s 0 aRegion 3 1) (slotBad s 0 aRegion 3 false) = .plain (List.replicate 256 0) ∧
       runOf s 0 0 3 false = none ∧ aRegion.pbs % 16 = 0 ∧ (s.ctx 0).halted = false ∧ trafficStops s aRegion (openerClass s ⟨none⟩) = false) ∧
    (let r := setSlot 3 (List.replicate 128 0) aRegion
     let s := codecState r
     engineFree s r.die = true ∧ stageOf s 0 r (attemptSlot s 0 r 3 1) (slotBad s 0 r 3 false) = .run ⟨0, 1, 2, 4096, 4096, []⟩ (List.replicate 127 0) ∧
       isLib 1 = false) := by decide

theorem test_witness_encode :
    let u : CUnit := ⟨0, 0, 3, true, [], [3], [], [], [], []⟩
    let s := { codecState aRegion with units := [u], mem := [(3 * 256, 1)] }
    findRegion s 0 0 = some aRegion ∧ findUnit s 0 0 (aRegion.unitOfBlk 3) = some u ∧ runOf s 0 0 3 true = none ∧ 3 < aRegion.blocks ∧
      engineFree s aRegion.die = true ∧ trafficStops s aRegion (encodeClass s (closingOf u 3)) = false ∧ (plainOf s 0 aRegion 3).all (· = 0) = false ∧ isLib (curGen s aRegion).enc = false := by decide

theorem test_witness_walkAndInjection :
    let s := { codecState aRegion with fills := [], cycle := 1 }
    findRegion s 0 0 = some aRegion ∧ 0 < aRegion.blocks ∧ slotGen (aRegion.slot 0) = aRegion.cur ∧ aRegion.since ≠ s.cycle ∧
      slotBad s 0 aRegion 0 false = false ∧ slotBad (modPlat (fun p => { p with poison := [0x10000] }) s) 0 aRegion 0 false = true ∧
      (s.die aRegion.die).emergency = false ∧ (s.ctx 0).spec.injection = true ∧ 112 + 16 ≤ aRegion.sbs ∧ leased s 0 aRegion.base aRegion.len = false ∧ s.units = [] ∧
      mgWaits s = false := by
  decide

def accepted : SvcEnd → Bool
  | .ok .. => true
  | _ => false

def rejected : SvcEnd → Bool
  | .reject _ => true
  | _ => false

theorem test_witness_service :
    let s := tinyBlk fun k => { k with threads := modAt (fun th => { th with
      st := .svcWait 4 0 0x100 0 0 12, prods := [⟨0, [31], .waiting, false, false, 0x10000⟩], nextId := 1 }) 0 k.threads }
    let c := codecState aRegion
    svcReady s 0 0 0 0 = true ∧ (∀ n ∈ [1, 2, 3, 4], (serviceOf (.thread 0 0) [] n).isSome = true) ∧
      rejected (regionInfoWork 0 0 0x100 devRead s) = true ∧
      accepted (regionInfoWork 0 0 0x100 devRead c) = true := by decide

/-- The record of a region of one 64 KiB page at 0x20000, of the library's programs, its escape pool at 0x30000. -/
def aRecord : List Byte :=
  leBytes 8 0x20000 ++ leBytes 4 1 ++ [0, 1] ++ leBytes 2 112 ++ leBytes 2 4096 ++ leBytes 2 4096 ++ [0xF0, 0xF1, 0, 0] ++
    leBytes 8 0x30000 ++ leBytes 4 4 ++ List.replicate 60 0

def bindState (rs : List Region) : State :=
  { tiny with
      launches := [], blocks := []
      ctxs := [{ tinyCtx with regions := rs, programs := [], sets := [], maps := [] }]
      pmem := (writePtes (loadPtes ++ [(0x4010, BitVec.ofNat 64 (pteOf (loadLeaf 0x30000))),
                   (0x4018, BitVec.ofNat 64 (pteOf (loadLeaf 0x40000)))]) mmState).pmem }

theorem test_witness_bind : accepted (codecBindWork [] 0 0x40 0 (fun _ _ _ _ => aRecord) (bindState [])) = true := by decide

theorem test_witness_rebind :
    accepted (codecBindWork [] 0 0x40 0 (fun _ _ _ _ => aRecord) (bindState [regionOfRecord aRecord])) = true := by decide

theorem test_witness_unbind :
    accepted (codecUnbindWork [] 0 0 0 (fun _ _ _ _ => []) { codecState aRegion with launches := [], fills := [] }) = true := by decide

theorem test_witness_load :
    (imageHeader 0x10001 0).toOption = some (1, 1, false) ∧ ((bindState []).ctx? 0).isSome = true ∧
      deviceBad (bindState []) 0 8 8 = none ∧ deviceHeld (bindState []) 0 8 8 = false ∧ deviceBad (bindState []) 0 16 8 = none ∧
      deviceHeld (bindState []) 0 16 8 = false ∧ accepted (codecLoadWork 0 8 0 (fun _ _ a k => ((leBytes 4 0x10001 ++ leBytes 12 0).drop (a - 8)).take k) (bindState [])) = true := by
  decide

theorem test_witness_pool :
    let up : State := { tiny with ports := [⟨true, true, false, false⟩, ⟨true, false, true, false⟩] }
    portUp up 0 = true ∧ (up.ports.getD 0 default).up = true ∧ (up.ports.getD 1 default).recovering = true ∧
      (up.ports.getD 1 default).attached = true ∧ (up.ports.getD 1 default).lost = false ∧ (up.ports.getD 1 default).up = false ∧
      (let s := { up with ctxs := [{ tinyCtx with pools := [⟨0, 0x10000, 0, 0, 0, true⟩] }] }
       (s.ctx 0).pools[0]? = some ⟨0, 0x10000, 0, 0, 0, true⟩) ∧
      (let s := { up with ports := [⟨true, false, true, false⟩], lines := [{ aLine with wb := true, coh := .pool }] }
       poolBusy s (portOf s 0 0) = true) ∧
      ∀ p ∈ State.reset.parts, p.ctx = none := by decide

theorem test_witness_platform :
    (∀ e ∈ State.reset.plat.mail, e.1 = .fe → e = (.fe, [])) ∧ (FwCore.fe, []) ∈ State.reset.plat.mail ∧
    State.reset.plat.waiting = [] ∧
    (let s := modPlat (fun p => { p with mail := [(.fe, List.replicate 64 default)] }) State.reset
     (∀ e ∈ s.plat.mail, e.1 = .fe → e = (.fe, List.replicate 64 default)) ∧ (FwCore.fe, List.replicate 64 default) ∈ s.plat.mail) ∧
    8 ≤ (State.reset.die 3).clock ∧ (State.reset.die 3).clock ≤ 16 ∧
    (∀ x ∈ List.replicate 64 (94 : Int), x < 95) ∧ (∀ x ∈ List.replicate 64 (114 : Int), x < 115 ∧ 105 ≤ x) ∧
    (∀ x ∈ List.replicate 64 (104 : Int), x < 105 ∧ 95 ≤ x) ∧ (∀ x ∈ List.replicate 64 (115 : Int), 115 ≤ x) ∧
    mgWaits State.reset = false ∧
    mgWaits (modPlat (fun p => { p with waiting := [(.fe, { (default : Message) with source := BitVec.ofNat 16 (fwSource .mg) })] }) State.reset) = true ∧
    allBelow State.reset 0 100 = true ∧ scrubbed State.reset 0 = true ∧ scrubbed State.reset (9 * 2 ^ 48) = false ∧
    (modDie 2 (fun d => { d with warned := true }) State.reset).die 2 = { State.reset.die 2 with warned := true } := by decide

theorem test_witness_winter :
    State.reset.plat.winter = .running ∧
    mayThaw (modPlat (fun p => { p with winter := .request, wake := true }) State.reset) = true ∧
    mayThaw (modPlat (fun p => { p with winter := .pwrwarn }) State.reset) = true ∧
    mayThaw (modPlat (fun p => { p with winter := .thermal 3, cooled := true }) State.reset) = true ∧
    thawing State.reset = false ∧
    (∀ k ∈ [1, 2, 3], thawing (modPlat (fun p => { p with winter := .request, wake := true, thawed := k }) State.reset) = true) := by
  decide

theorem test_witness_secureElement :
    nextLife State.reset.plat.life = some .provisioned ∧ nextLife .return_ = none ∧
      nextLife .provisioned = some .deployed ∧ nextLife .deployed = some .return_ ∧
      (modPlat (fun p => { p with identity := true }) State.reset).plat.identity = true ∧ State.reset.plat.identity = false := by decide

theorem test_witness_supervisor :
    (∀ c ∈ State.reset.ctxs, c.spec.num ≠ 1023 ∧ c.spec.fn ≠ 0) ∧ loadSpec.fn ≤ 384 ∧ homeMapOk [] = true ∧ 159 < State.reset.cores.length ∧
    (let spec : ContextSpec := ⟨1, 0, 0x100, [], 0, false⟩
     tablesApart State.reset spec.root = true ∧ tablesOk false State.reset { State.reset with ctxs := State.reset.ctxs ++ [newContext spec] } = true ∧
       mailRoom State.reset .mm feSource 1 = true ∧ mailRoom State.reset .ls feSource 1 = true) ∧
    deviceHeld mmState 0 0x1FFF8 8 = false ∧ deviceBad mmState 0 0x1FFF8 8 = none ∧
    (deviceBad (modPlat (fun p => { p with poison := [0x2FF80] }) mmState) 0 0x1FFF8 8).isSome = true ∧
    hostReaches mmState 0 0x1FFF8 8 = true ∧ hostReaches mmState 0 0x20000 1 = false ∧ (mmState.ctx 0).regions = [] := by decide

/-- Each die's masks, a home map, a decoder apart from one that is there, a partition of free cores, page-table entries. -/
theorem test_witness_registers :
    hbmInUse State.reset 0 = false ∧ hbmInUse mmState 0 = true ∧
      homeMapOk (List.replicate 65 (0, 1, 0)) = false ∧ homeMapOk [(0, 2 ^ 30, 3)] = true ∧
      (let s := { State.reset with ctxs := [tinyCtx] }; fixedHomes s 0 = [] ∧ allLeaves s = [] ∧ (s.ctx? 0).isSome = true) ∧
      (let s := { State.reset with decoders := [⟨0, 2 ^ 21, 0, 0, false, false⟩] }
       s.decoders.all (fun e => !overlaps (2 ^ 21) (2 ^ 21) e.off e.len && !overlaps (2 ^ 21) (2 ^ 21) e.hpa e.len) = true ∧
         s.decoders.any (fun e => overlaps 0 (2 ^ 21) e.off e.len) = true) ∧
      State.reset.peers = [] ∧ (tiny.parts.getD 0 emptyPartition).ctx = some 0 ∧ copyInFlight tiny 0 = false ∧
      copyInFlight { tiny with xfers := [⟨0, 0, 0, 0x100, 0x8010, 0x4000, 0, 0, 0x80, 0, false, false, 0, true⟩] } 0 = true ∧
      (partBlocks State.reset (State.reset.parts.getD 79 emptyPartition) = [] ∧ ∀ x ∈ State.reset.parts, 159 ∉ x.cores ∧ 0 ∉ x.cores) ∧
      3 < tinyCtx.deadlines.length := by decide

theorem test_witness_pageTables :
    (∀ e ∈ loadPtes, e.1 % 8 = 0 ∧ entryOk e.2.toNat = true) ∧ tablesOk false tiny (writePtes loadPtes tiny) = true ∧
      entryOk (pteOf (loadLeaf (9 * 2 ^ 48))) = false := by decide

end Sys2Proof.Tests
end

section
/-!
PROOFS. Reading after writing: the sparse memories, and the virtual memory that the newest store of each granule gives.
-/

namespace Sys2Proof.Machine

open Sys2Proof

/-! ### Sparse memories -/

/-- Reading past the first entry of a rising list: what is before it reads as the default. -/
theorem sget_cons_of_lt {α : Type} {d : α} {k : Nat} {e : Nat × α} {m : Sparse α} (h : SparseWf d (e :: m)) (hk : k < e.1) :
    sget d k (e :: m) = d :=
  sget_below fun x hx => by
    rcases List.mem_cons.1 hx with rfl | hx
    · exact hk
    · exact Nat.lt_trans hk ((List.pairwise_cons.1 h.1).1 x hx)

theorem SparseWf.tail {α : Type} {d : α} {e : Nat × α} {m : Sparse α} (h : SparseWf d (e :: m)) : SparseWf d m :=
  ⟨(List.pairwise_cons.1 h.1).2, fun x hx => h.2 x (List.mem_cons_of_mem _ hx)⟩

theorem sget_cons_self {α : Type} {d : α} (e : Nat × α) (m : Sparse α) : sget d e.1 (e :: m) = e.2 := by
  simp [sget]

/-- What follows an entry reads as the whole list does, but for the key of the entry. -/
theorem sget_tail {α : Type} {d : α} {e : Nat × α} {m : Sparse α} (h : SparseWf d (e :: m)) (k : Nat) :
    sget d k m = if k = e.1 then d else sget d k (e :: m) := by
  split
  · next hk => subst hk; exact sget_below (List.pairwise_cons.1 h.1).1
  · next hk => simp [sget, hk]

/-- The canonical form is one: its first key is the least that does not read as the default. -/
theorem sparse_ext {α : Type} {d : α} {m n : Sparse α} (hm : SparseWf d m) (hn : SparseWf d n)
    (h : ∀ k, sget d k m = sget d k n) : m = n := by
  induction m generalizing n with
  | nil =>
    cases n with
    | nil => rfl
    | cons f n =>
      have hf := h f.1
      rw [sget_cons_self] at hf
      exact absurd hf.symm (hn.2 f (List.mem_cons_self ..))
  | cons e m ih =>
    have he := hm.2 e (List.mem_cons_self ..)
    have hke := h e.1
    rw [sget_cons_self] at hke
    cases n with
    | nil => exact absurd hke he
    | cons f n =>
      have hf := hn.2 f (List.mem_cons_self ..)
      have hkf := h f.1
      rw [sget_cons_self] at hkf
      have hkey : e.1 = f.1 := by
        rcases Nat.lt_trichotomy e.1 f.1 with hlt | heq | hgt
        · exact absurd (hke.trans (sget_cons_of_lt hn hlt)) he
        · exact heq
        · exact absurd (hkf.symm.trans (sget_cons_of_lt hm hgt)) hf
      have hval : e.2 = f.2 := by rw [hke, hkey, sget_cons_self]
      have htail : m = n := ih hm.tail hn.tail fun k => by rw [sget_tail hm, sget_tail hn, h, hkey]
      rw [Prod.ext hkey hval, htail]

/-- A byte of the range written reads as what was written, every other byte as before. -/
theorem memGet_memWrite (bs : List Byte) (a x : Nat) {m : Memory} (h : Memory.wf m) :
    memGet (memWrite m a bs) x = if a ≤ x ∧ x < a + bs.length then bs.getD (x - a) 0 else memGet m x := by
  induction bs generalizing a m with
  | nil => exact (if_neg (by simp)).symm
  | cons b r ih =>
    rw [memWrite, ih _ (memSet_wf a b h), memGet_memSet _ _ _ h, List.length_cons]
    rcases Nat.lt_trichotomy x a with hx | rfl | hx
    · rw [if_neg (by omega), if_neg (by omega), if_neg (by omega)]
    · simp
    · obtain ⟨j, rfl⟩ := Nat.exists_eq_add_of_lt hx
      have e1 : a + j + 1 - (a + 1) = j := by omega
      have e2 : a + j + 1 - a = j + 1 := by omega
      rw [e1, e2, List.getD_cons_succ, if_neg (show ¬ a + j + 1 = a by omega)]
      exact if_congr (by omega) rfl rfl

/-! ### The bytes of a granule -/

theorem overlay_append (g : List Byte) (l r : List (Nat × Byte)) : overlay g (l ++ r) = overlay (overlay g l) r := by
  induction l generalizing g with
  | nil => rfl
  | cons e l ih => exact ih _

@[simp] theorem overlay_length (g : List Byte) (l : List (Nat × Byte)) : (overlay g l).length = g.length := by
  induction l generalizing g with
  | nil => rfl
  | cons e l ih => rw [overlay, ih, modAt_length]

/-- Bytes put over a granule from an offset on are read there; the other bytes of the granule are as before. -/
theorem overlay_range_getD (g : List Byte) (v : Nat → Byte) (o n x : Nat) (hx : x < g.length) :
    (overlay g ((List.range n).map fun i => (o + i, v i))).getD x 0 =
      if o ≤ x ∧ x < o + n then v (x - o) else g.getD x 0 := by
  induction n with
  | zero => rw [if_neg (by omega)]; rfl
  | succ n ih =>
    rw [List.range_succ, List.map_append, overlay_append]
    by_cases hl : x = o + n
    · subst hl
      rw [if_pos (by omega), Nat.add_sub_cancel_left]
      exact modAt_getD_self _ 0 _ _ (by simpa using hx)
    · refine (modAt_getD_ne _ 0 _ _ _ hl).trans (ih.trans ?_)
      exact if_congr (by omega) rfl rfl

theorem granValue_length (s : State) (g upto : Nat) : (granValue s g upto).length = 16 :=
  foldl_keeps (fun a : List Byte => a.length = 16) _ (fun a x h => by rw [overlay_length, h]) _ _ (memRead_length ..)

/-- The newest value of a granule has every store of it. -/
theorem granValue_newest (s : State) (g : Nat) : granValue s g s.items.length =
    (s.items.filter fun x => x.gran = some g).foldl (fun a x => overlay a x.bytes) (memRead s.mem (16 * g) 16) := by
  rw [granValue, List.take_length]

/-- A device write puts its bytes over the newest value of its own granule alone. -/
theorem granValue_sysWriteGran (key : Nat) (data : List Byte) (s : State) (g : Nat) :
    granValue (sysWriteGran key data s) g (sysWriteGran key data s).items.length =
      if g = key / 16 then overlay (granValue s g s.items.length) (granBytes key data)
      else granValue s g s.items.length := by
  rw [granValue_newest, granValue_newest]
  simp only [sysWriteGran, List.filter_append]
  split
  · next hg => simp [hg]
  · next hg => simp [Ne.symm hg]

/-! ### The newest bytes of virtual memory -/

/-- A device write within one granule. -/
theorem newestByte_sysWriteGran (key : Nat) (data : List Byte) (s : State) (k : Nat) (h : key % 16 + data.length ≤ 16) :
    newestByte (sysWriteGran key data s) k =
      if key ≤ k ∧ k < key + data.length then data.getD (k - key) 0 else newestByte s k := by
  unfold newestByte
  rw [granValue_sysWriteGran]
  by_cases hg : k / 16 = key / 16
  · have hk := granValue_length s (k / 16) s.items.length
    have hoff : k % 16 - key % 16 = k - key := by omega
    rw [if_pos hg, granBytes, overlay_range_getD _ (fun i => data.getD i 0) _ _ _ (by omega), hoff]
    exact if_congr (by omega) rfl rfl
  · rw [if_neg hg, if_neg (by omega)]

/-- Reading a list cut in two. -/
theorem getD_take_drop (data : List Byte) (n j : Nat) :
    data.getD j 0 = if j < n then (data.take n).getD j 0 else (data.drop n).getD (j - n) 0 := by
  split
  · next h => simp [List.getD_eq_getElem?_getD, h]
  · next h => simp [List.getD_eq_getElem?_getD, List.getElem?_drop, Nat.add_sub_cancel' (Nat.le_of_not_lt h)]

/-- A device write granule by granule, with fuel for each of its bytes. -/
theorem newestByte_sysWriteFrom (fuel key : Nat) (data : List Byte) (s : State) (k : Nat) (h : data.length < fuel) :
    newestByte (sysWriteFrom fuel key data s) k =
      if key ≤ k ∧ k < key + data.length then data.getD (k - key) 0 else newestByte s k := by
  induction fuel generalizing key data s with
  | zero => omega
  | succ fuel ih =>
    rw [sysWriteFrom]
    split
    · next hd => exact (if_neg (by rw [hd, List.length_nil]; omega)).symm
    · next hd =>
      have hpos : 0 < data.length := List.length_pos_iff.2 hd
      have hlen := List.length_take (i := 16 - key % 16) (l := data)
      rw [ih _ _ _ (by rw [List.length_drop]; omega), newestByte_sysWriteGran _ _ _ _ (by omega), List.length_drop, hlen]
      by_cases hin : key ≤ k ∧ k < key + data.length
      · rw [if_pos hin, getD_take_drop data (16 - key % 16) (k - key), Nat.sub_sub]
        by_cases hfirst : k - key < 16 - key % 16
        · rw [if_neg (by omega), if_pos (by omega), if_pos hfirst]
        · rw [if_pos (by omega), if_neg hfirst]
      · rw [if_neg (by omega), if_neg (by omega), if_neg hin]

/-- A device write of any length, at a virtual address of a context. -/
theorem newestByte_sysWrite (ctx va : Nat) (bs : List Byte) (s : State) (key : Nat) :
    newestByte (sysWrite ctx va bs s) key =
      if ctx * 2 ^ 56 + va ≤ key ∧ key < ctx * 2 ^ 56 + va + bs.length then bs.getD (key - (ctx * 2 ^ 56 + va)) 0
      else newestByte s key :=
  newestByte_sysWriteFrom _ _ _ _ _ (Nat.lt_succ_self _)

/-- Settles O58: the sparse memories by induction on the bytes written and on the entries, virtual memory granule by
granule. -/
theorem memoryReadAfterWrite : Obligations.MemoryReadAfterWrite := by
  unfold Obligations.MemoryReadAfterWrite
  exact ⟨fun _ a bs hm => ⟨memWrite_wf bs a hm, fun x => memGet_memWrite bs a x hm⟩,
    fun _ _ hm hn h => sparse_ext hm hn h, newestByte_sysWrite⟩

end Sys2Proof.Machine
end

section
/-!
PROOFS. The threads and waves of one block: what a change of a thread, of a home wave or of a physical wave does to the
block, what a run of changes of its threads leaves, and what a step that changes nothing else leaves of the machine.
-/

namespace Sys2Proof.Machine

open Sys2Proof

/-! ### One change -/

/-- Reading after a change of one element that keeps the default. -/
theorem modAt_getD_fixed {α : Type} {f : α → α} {d : α} (hf : f d = d) (n m : Nat) (l : List α) :
    (modAt f n l).getD m d = if m = n then f (l.getD m d) else l.getD m d := by
  split
  · next h =>
    subst h
    by_cases hl : m < l.length
    · exact modAt_getD_self f d m l hl
    · rw [modAt_beyond _ _ _ (by omega), List.getD_eq_default _ _ (by omega), hf]
  · next h => exact modAt_getD_ne f d n m l h

theorem block_modThread (b t : Nat) (f : Thread → Thread) (s : State) (c : Nat) :
    (modThread b t f s).block c =
      if c = b then { s.block c with threads := modAt f t (s.block c).threads } else s.block c :=
  modAt_getD_fixed (by cases t <;> rfl) b c s.blocks

theorem block_modWave (b w : Nat) (f : Wave → Wave) (s : State) (c : Nat) :
    (modWave b w f s).block c = if c = b then { s.block c with waves := modAt f w (s.block c).waves } else s.block c :=
  modAt_getD_fixed (by cases w <;> rfl) b c s.blocks

theorem block_modPWave (b w : Nat) (f : PWave → PWave) (s : State) (c : Nat) :
    (modPWave b w f s).block c =
      if c = b then { s.block c with pwaves := modAt f w (s.block c).pwaves } else s.block c :=
  modAt_getD_fixed (by cases w <;> rfl) b c s.blocks

@[simp] theorem modThread_waves (b t : Nat) (f : Thread → Thread) (s : State) (c : Nat) :
    ((modThread b t f s).block c).waves = (s.block c).waves := by
  rw [block_modThread]; split <;> rfl

@[simp] theorem modPWave_waves (b w : Nat) (f : PWave → PWave) (s : State) (c : Nat) :
    ((modPWave b w f s).block c).waves = (s.block c).waves := by
  rw [block_modPWave]; split <;> rfl

@[simp] theorem modWave_thread_get (b w : Nat) (f : Wave → Wave) (s : State) (c u : Nat) :
    (modWave b w f s).thread c u = s.thread c u := by
  rw [State.thread, block_modWave]; split <;> rfl

@[simp] theorem modPWave_thread_get (b w : Nat) (f : PWave → PWave) (s : State) (c u : Nat) :
    (modPWave b w f s).thread c u = s.thread c u := by
  rw [State.thread, block_modPWave]; split <;> rfl

@[simp] theorem modThread_launchOf_get (b t : Nat) (f : Thread → Thread) (s : State) (c : Nat) :
    (modThread b t f s).launchOf c = s.launchOf c := by
  rw [State.launchOf, block_modThread]; split <;> rfl

@[simp] theorem modWave_launchOf_get (b w : Nat) (f : Wave → Wave) (s : State) (c : Nat) :
    (modWave b w f s).launchOf c = s.launchOf c := by
  rw [State.launchOf, block_modWave]; split <;> rfl

@[simp] theorem modPWave_launchOf_get (b w : Nat) (f : PWave → PWave) (s : State) (c : Nat) :
    (modPWave b w f s).launchOf c = s.launchOf c := by
  rw [State.launchOf, block_modPWave]; split <;> rfl

@[simp] theorem modThread_threads_length (b t : Nat) (f : Thread → Thread) (s : State) (c : Nat) :
    ((modThread b t f s).block c).threads.length = (s.block c).threads.length := by
  rw [block_modThread]; split
  · exact modAt_length ..
  · rfl

/-- A changed thread that is there, or whose change keeps the default. -/
theorem thread_modThread_self {b t : Nat} {f : Thread → Thread} {s : State}
    (h : t < (s.block b).threads.length ∨ f default = default) : (modThread b t f s).thread b t = f (s.thread b t) := by
  rw [State.thread, block_modThread, if_pos rfl]
  rcases h with h | h
  · exact modAt_getD_self f default t _ h
  · exact (modAt_getD_fixed h t t _).trans (if_pos rfl)

/-! ### A run of changes of threads -/

/-- Each thread of a list changes once. -/
theorem thread_foldl_modThread {b : Nat} (f : Nat → Thread → Thread) (u : Nat) (l : List Nat) (s : State) (hn : l.Nodup)
    (h : ∀ t ∈ l, t < (s.block b).threads.length ∨ f t default = default) :
    (l.foldl (fun m t => modThread b t (f t) m) s).thread b u =
      if u ∈ l then f u (s.thread b u) else s.thread b u := by
  induction l generalizing s with
  | nil => rfl
  | cons t r ih =>
    obtain ⟨htr, hn⟩ := List.nodup_cons.1 hn
    rw [List.foldl_cons, ih _ hn fun x hx => by simpa using h x (List.mem_cons_of_mem _ hx)]
    by_cases hut : u = t
    · subst hut
      rw [if_neg htr, if_pos (List.mem_cons_self ..), thread_modThread_self (h u (List.mem_cons_self ..))]
    · rw [thread_modThread_ne _ _ _ _ _ hut]
      simp [hut]

/-- Two folds agree that agree wherever an invariant of the second holds. -/
theorem foldl_congr_of_keeps {α β : Type} (p : α → Prop) {go go' : α → β → α} (hp : ∀ a x, p a → p (go' a x))
    (h : ∀ a x, p a → go a x = go' a x) (l : List β) (a : α) (ha : p a) : l.foldl go a = l.foldl go' a := by
  induction l generalizing a with
  | nil => rfl
  | cons x r ih => rw [List.foldl_cons, List.foldl_cons, h a x ha, ih _ (hp a x ha)]

/-! ### The frame -/

/-- Nothing of the machine has changed but threads, home waves and physical waves of block `b`. -/
structure Reworked (b : Nat) (s m : State) : Prop where
  rest : m = { s with blocks := m.blocks }
  others : ∀ c, c ≠ b → m.block c = s.block c
  own : ∃ ths ws pws, m.block b = { s.block b with threads := ths, waves := ws, pwaves := pws }

theorem Reworked.refl (b : Nat) (s : State) : Reworked b s s := ⟨rfl, fun _ _ => rfl, _, _, _, rfl⟩

/-- A change of threads, home waves and physical waves of the block. -/
theorem Reworked.modBlock {b : Nat} {s m : State} (h : Reworked b s m) {f : Block → Block}
    (hf : ∀ x, ∃ ths ws pws, f x = { x with threads := ths, waves := ws, pwaves := pws }) (hd : f default = default) :
    Reworked b s (modBlock b f m) := by
  obtain ⟨hr, ho, _, _, _, hown⟩ := h
  refine ⟨?_, fun c hc => (block_modBlock_ne b c f m hc).trans (ho c hc), ?_⟩
  · rw [hr]; rfl
  · obtain ⟨ths, ws, pws, hx⟩ := hf (m.block b)
    have hself : (Machine.modBlock b f m).block b = f (m.block b) :=
      (modAt_getD_fixed hd b b m.blocks).trans (if_pos rfl)
    exact ⟨ths, ws, pws, by rw [hself, hx, hown]⟩

theorem Reworked.modThread {b : Nat} {s m : State} (h : Reworked b s m) (t : Nat) (f : Thread → Thread) :
    Reworked b s (modThread b t f m) :=
  h.modBlock (fun _ => ⟨_, _, _, rfl⟩) (by cases t <;> rfl)

theorem Reworked.modWave {b : Nat} {s m : State} (h : Reworked b s m) (w : Nat) (f : Wave → Wave) :
    Reworked b s (modWave b w f m) :=
  h.modBlock (fun _ => ⟨_, _, _, rfl⟩) (by cases w <;> rfl)

theorem Reworked.modPWave {b : Nat} {s m : State} (h : Reworked b s m) (w : Nat) (f : PWave → PWave) :
    Reworked b s (modPWave b w f m) :=
  h.modBlock (fun _ => ⟨_, _, _, rfl⟩) (by cases w <;> rfl)

theorem Reworked.launchOf {b : Nat} {s m : State} (h : Reworked b s m) (c : Nat) : m.launchOf c = s.launchOf c := by
  obtain ⟨hr, ho, ths, ws, pws, hown⟩ := h
  have hl : (m.block c).launch = (s.block c).launch := by
    by_cases hc : c = b
    · subst hc; rw [hown]
    · rw [ho c hc]
  rw [State.launchOf, hl, hr]
  rfl

/-- Memory reads as before. -/
theorem Reworked.memory {b : Nat} {s m : State} (h : Reworked b s m) : MemorySame s m := by
  obtain ⟨hr, ho, ths, ws, pws, hown⟩ := h
  refine ⟨newestByte_congr (by rw [hr]) (by rw [hr]), sysByte_congr (by rw [hr]) (by rw [hr]) (by rw [hr]),
    fun a => by rw [hr], fun c a => ?_⟩
  by_cases hc : c = b
  · subst hc; rw [hown]
  · rw [ho c hc]

end Sys2Proof.Machine
end

section
/-!
PROOFS. Meetings: `MEETX` and `MEET` set the meeting address of each lane, `MEET` enrols it; MEETING_ARRIVAL holds the
enrolled threads, then releases each slot of which every lane is held at its key or gone.
-/

namespace Sys2Proof.Machine

open Sys2Proof

/-! ### Enrolling -/

theorem slotBit_getLsbD_self {lane : Nat} (h : lane < 32) : (slotBit lane).getLsbD lane = true := by
  simp [slotBit, h]

theorem hasSlot_of_enrolled {key : DWord} {lane : Nat} {sl : Slots} (h : enrolled key lane sl = true) :
    hasSlot key sl = true := by
  simp only [enrolled, hasSlot, List.any_eq_true, Bool.and_eq_true] at h ⊢
  obtain ⟨e, he, hk, -⟩ := h
  exact ⟨e, he, hk⟩

/-- The lane is enrolled in the slot of the key. -/
theorem enrolled_modSlot_or {key : DWord} {lane : Nat} {sl : Slots} (h : hasSlot key sl = true) (hl : lane < 32) :
    enrolled key lane (modSlot key (fun e => (e.1, e.2 ||| slotBit lane)) sl) = true := by
  induction sl with
  | nil => simp [hasSlot] at h
  | cons e r ih =>
    rw [modSlot]
    by_cases hk : e.1 = key
    · simp [enrolled, hk, slotBit_getLsbD_self hl]
    · rw [if_neg hk]
      have hr := ih (by simpa [hasSlot, hk] using h)
      simp only [enrolled, List.any_cons, Bool.or_eq_true] at hr ⊢
      exact .inr hr

/-- Those enrolled before stay enrolled. -/
theorem enrolled_modSlot_or_keeps {key : DWord} {lane other : Nat} {sl : Slots} (h : enrolled key other sl = true) :
    enrolled key other (modSlot key (fun e => (e.1, e.2 ||| slotBit lane)) sl) = true := by
  induction sl with
  | nil => exact h
  | cons e r ih =>
    rw [modSlot]
    simp only [enrolled, List.any_cons, Bool.or_eq_true] at h
    by_cases hk : e.1 = key
    · rw [if_pos hk]
      simp only [enrolled, List.any_cons, Bool.or_eq_true]
      exact h.imp_left fun he => by
        simp only [Bool.and_eq_true, BitVec.getLsbD_or, Bool.or_eq_true] at he ⊢
        exact ⟨he.1, .inl he.2⟩
    · rw [if_neg hk]
      simp only [enrolled, List.any_cons, Bool.or_eq_true]
      exact h.imp_right ih

/-- The lane is enrolled in a slot that was free. -/
theorem enrolled_modSlot_free {key : DWord} {lane : Nat} {sl : Slots} (h : hasFree sl = true) (hl : lane < 32) :
    enrolled key lane (modSlot 0 (fun _ => (key, slotBit lane)) sl) = true := by
  induction sl with
  | nil => simp [hasFree] at h
  | cons e r ih =>
    rw [modSlot]
    by_cases hk : e.1 = 0
    · simp [enrolled, hk, slotBit_getLsbD_self hl]
    · rw [if_neg hk]
      have hr := ih (by simpa only [hasFree, List.any_cons, decide_eq_false hk, Bool.false_or] using h)
      simp only [enrolled, List.any_cons, Bool.or_eq_true] at hr ⊢
      exact .inr hr

theorem enrolled_enrol {key : DWord} {lane : Nat} {sl : Slots} (h : hasSlot key sl = true ∨ hasFree sl = true)
    (hl : lane < 32) : enrolled key lane (enrol key lane sl) = true := by
  unfold enrol
  split
  · next hs => exact enrolled_modSlot_or hs hl
  · next hs => exact enrolled_modSlot_free (h.resolve_left hs) hl

theorem enrolled_enrol_keeps {key : DWord} {lane other : Nat} {sl : Slots} (h : enrolled key other sl = true) :
    enrolled key other (enrol key lane sl) = true := by
  rw [enrol, if_pos (hasSlot_of_enrolled h)]
  exact enrolled_modSlot_or_keeps h

/-! ### `MEETX` and `MEET` -/

theorem Launch.lanes_cases (l : Launch) : l.lanes = 16 ∨ l.lanes = 32 := by
  unfold Launch.lanes
  split
  · exact .inl rfl
  · exact .inr rfl

theorem Launch.lanes_pos (l : Launch) : 0 < l.lanes := by
  rcases l.lanes_cases with h | h <;> omega

theorem Launch.lanes_le (l : Launch) : l.lanes ≤ 32 := by
  rcases l.lanes_cases with h | h <;> omega

theorem homeLane_lt (l : Launch) (t : Nat) : homeLane l t < l.lanes := Nat.mod_lt _ l.lanes_pos

/-- A lane enrols in the slots of its home wave. -/
def Wave.enrol (key : DWord) (lane : Nat) (v : Wave) : Wave := { v with slots := Machine.enrol key lane v.slots }

/-- What a `MEET` at a key does to the block when one of its lanes enrols; a zero key enrols nobody (log 18). -/
def enrolIn (l : Launch) (key : Nat) (t : Nat) (k : Block) : Block :=
  if key = 0 then k
  else { k with waves := modAt (Wave.enrol (BitVec.ofNat 64 key) (homeLane l t)) (homeWave l t) k.waves }

theorem enrolIn_threads (l : Launch) (key t : Nat) (k : Block) (ths : List Thread) :
    enrolIn l key t { k with threads := ths } = { enrolIn l key t k with threads := ths } := by
  unfold enrolIn
  split <;> rfl

theorem enrolIn_frame (l : Launch) (key t : Nat) (k : Block) :
    ∃ ws, enrolIn l key t k = { k with waves := ws } := by
  unfold enrolIn
  split
  · exact ⟨k.waves, rfl⟩
  · exact ⟨_, rfl⟩

theorem foldl_enrolIn_frame (l : Launch) (key : Nat) (ts : List Nat) (k : Block) :
    ∃ ws, ts.foldl (fun x t => enrolIn l key t x) k = { k with waves := ws } :=
  foldl_keeps (fun x : Block => ∃ ws, x = { k with waves := ws }) _ (fun x t h => by
    obtain ⟨ws, rfl⟩ := h
    obtain ⟨ws', h'⟩ := enrolIn_frame l key t { k with waves := ws }
    exact ⟨ws', h'⟩) ts k ⟨k.waves, rfl⟩

theorem foldl_enrolIn_zero (l : Launch) (ts : List Nat) (k : Block) :
    ts.foldl (fun x t => enrolIn l 0 t x) k = k :=
  foldl_keeps (fun x => x = k) _ (fun _ _ h => by simp [enrolIn, h]) ts k rfl

/-- The slots of a home wave of a block. -/
def Block.slotsOf (k : Block) (w : Nat) : Slots := (k.waves.getD w default).slots

theorem enrolIn_slotsOf {l : Launch} {key : Nat} (hkey : key ≠ 0) {t : Nat} {k : Block}
    (ht : homeWave l t < k.waves.length) (w : Nat) :
    (enrolIn l key t k).slotsOf w =
      if w = homeWave l t then enrol (BitVec.ofNat 64 key) (homeLane l t) (k.slotsOf w) else k.slotsOf w := by
  rw [enrolIn, if_neg hkey, Block.slotsOf]
  split
  · next h => subst h; exact congrArg Wave.slots (modAt_getD_self _ default _ _ ht)
  · next h => exact congrArg Wave.slots (modAt_getD_ne _ default _ _ _ h)

theorem enrolIn_waves_length (l : Launch) (key t : Nat) (k : Block) :
    (enrolIn l key t k).waves.length = k.waves.length := by
  unfold enrolIn
  split
  · rfl
  · exact modAt_length ..

/-- Who is enrolled stays so while others enrol. -/
theorem enrolled_foldl_enrolIn_keeps {l : Launch} {key : Nat} (hkey : key ≠ 0) {u : Nat} (ts : List Nat) (k : Block)
    (hts : ∀ t ∈ ts, homeWave l t < k.waves.length)
    (hu : enrolled (BitVec.ofNat 64 key) (homeLane l u) (k.slotsOf (homeWave l u)) = true) :
    enrolled (BitVec.ofNat 64 key) (homeLane l u)
      ((ts.foldl (fun x t => enrolIn l key t x) k).slotsOf (homeWave l u)) = true := by
  induction ts generalizing k with
  | nil => exact hu
  | cons t r ih =>
    refine ih _ (fun x hx => ?_) ?_
    · rw [enrolIn_waves_length]; exact hts x (List.mem_cons_of_mem _ hx)
    · rw [enrolIn_slotsOf hkey (hts t (List.mem_cons_self ..))]
      split
      · exact enrolled_enrol_keeps hu
      · exact hu

/-- Each lane that finds the slot of the key or a free one is enrolled. -/
theorem enrolled_foldl_enrolIn {l : Launch} {key : Nat} (hkey : key ≠ 0) (ts : List Nat) (k : Block)
    (hts : ∀ t ∈ ts, homeWave l t < k.waves.length ∧
      (hasSlot (BitVec.ofNat 64 key) (k.slotsOf (homeWave l t)) = true ∨ hasFree (k.slotsOf (homeWave l t)) = true))
    {u : Nat} (hu : u ∈ ts) :
    enrolled (BitVec.ofNat 64 key) (homeLane l u)
      ((ts.foldl (fun x t => enrolIn l key t x) k).slotsOf (homeWave l u)) = true := by
  induction ts generalizing k with
  | nil => simp at hu
  | cons t r ih =>
    obtain ⟨htw, htr⟩ := hts t (List.mem_cons_self ..)
    have hself := enrolled_enrol htr (Nat.lt_of_lt_of_le (homeLane_lt l t) l.lanes_le)
    rcases List.mem_cons.1 hu with rfl | hur
    · refine enrolled_foldl_enrolIn_keeps hkey r _ (fun x hx => ?_) ?_
      · rw [enrolIn_waves_length]; exact (hts x (List.mem_cons_of_mem _ hx)).1
      · rwa [enrolIn_slotsOf hkey htw, if_pos rfl]
    · refine ih _ (fun x hx => ?_) hur
      obtain ⟨hxw, hxr⟩ := hts x (List.mem_cons_of_mem _ hx)
      refine ⟨by rwa [enrolIn_waves_length], ?_⟩
      rw [enrolIn_slotsOf hkey htw]
      split
      · next h => rw [h]; exact .inl (hasSlot_of_enrolled hself)
      · exact hxr

theorem exec_meetx {f : EFields} {s : State} (h : Unhindered (.meetx f) s)
    (hc : OnAll (.meetx f) s fun t => codeOk (opd f (shapeOf (.meetx f)) (s.thread s.cur.block t).vals .ra) = true) :
    ∃ t, exec (.meetx f) s = .next t ∧
      LaneStep (.meetx f) (fun _ th => { th with mt := BitVec.ofNat 64 (opd f (shapeOf (.meetx f)) th.vals .ra) }) s t :=
  laneExec_threads _ h (fun t ht hg => by simp [hc t ht hg]) fun _ _ _ _ _ => rfl

/-- What a lane finds of its block's launch when its turn comes. -/
theorem Found.launchOf {h : Block → Block} {s m : State} {t : Nat} (hm : Found h s t m)
    (hh : (h (s.block s.cur.block)).launch = (s.block s.cur.block).launch) :
    m.launchOf s.cur.block = s.launchOf s.cur.block := by
  obtain ⟨hr, -, -, ⟨ths, hown⟩, -⟩ := hm
  rw [State.launchOf, hown, hh, hr]
  rfl

/-- There is room for a key: it is zero, has a slot, or there is a free one. -/
theorem meet_room {key : Nat} {keyW : DWord} {sl : Slots}
    (h : key = 0 ∨ hasSlot keyW sl = true ∨ hasFree sl = true) :
    ¬(key ≠ 0 && !hasSlot keyW sl && !hasFree sl) = true := by
  rcases h with h | h | h <;> simp [h]

theorem exec_meet {f : EFields} {s : State} (h : Unhindered (.meet f) s) (hk : labelTarget f (nextPc s) < 2 ^ 56)
    (hr : OnAll (.meet f) s fun t => labelTarget f (nextPc s) = 0 ∨
      hasSlot (BitVec.ofNat 64 (labelTarget f (nextPc s)))
        ((s.block s.cur.block).slotsOf (homeWave (s.launchOf s.cur.block) t)) = true ∨
      hasFree ((s.block s.cur.block).slotsOf (homeWave (s.launchOf s.cur.block) t)) = true) :
    ∃ t, exec (.meet f) s = .next t ∧
      GroupStep (guarded (.meet f) (fun _ th =>
          { onLanes (fun v => writeDst f (shapeOf (.meet f)) v th.mt.toNat false) th with
            mt := BitVec.ofNat 64 (labelTarget f (nextPc s)) }) s)
        (fun x => (onTids (.meet f) s).foldl
          (fun x t => enrolIn (s.launchOf s.cur.block) (labelTarget f (nextPc s)) t x) x) s t := by
  refine laneExec_group _ (enrolIn (s.launchOf s.cur.block) (labelTarget f (nextPc s)))
    (fun h => (h (s.block s.cur.block)).launch = (s.block s.cur.block).launch) h (fun t ht hg => ?_)
    (enrolIn_threads _ _) (fun t x => ?_) rfl (fun t h hq => ?_) (fun t ht hg h m hq hm => ?_)
  · exact (if_neg (not_not.2 (Nat.div_eq_of_lt hk))).trans (if_neg (meet_room (hr t ht hg)))
  · obtain ⟨ws, hx⟩ := enrolIn_frame (s.launchOf s.cur.block) (labelTarget f (nextPc s)) t x
    rw [hx]
  · obtain ⟨ws, hx⟩ := enrolIn_frame (s.launchOf s.cur.block) (labelTarget f (nextPc s)) t (h (s.block s.cur.block))
    rw [Function.comp, hx]
    exact hq
  · have hl := hm.launchOf hq
    by_cases h0 : labelTarget f (nextPc s) = 0
    · have hid : enrolIn (s.launchOf s.cur.block) 0 t = id := funext fun x => by simp [enrolIn]
      simp only [h0, if_true, hid, modBlock_id]
    · have hin : enrolIn (s.launchOf s.cur.block) (labelTarget f (nextPc s)) t = _ := funext fun x => if_neg h0
      simp only [h0, if_false, hl, hin, modWave]
      rfl

/-! ### Releasing one slot -/

/-- A thread of a released slot resumes with no meeting address, if it was held. -/
def freed (th : Thread) : Thread := if th.st = .held then { th with st := .ready, mt := 0 } else th

theorem freed_held {th : Thread} (h : th.st = .held) : freed th = { th with st := .ready, mt := 0 } := if_pos h

theorem freed_not_held {th : Thread} (h : th.st ≠ .held) : freed th = th := if_neg h

theorem freed_st_ne (th : Thread) : (freed th).st ≠ .held := by
  unfold freed
  split
  · exact TState.noConfusion
  · assumption

theorem freed_freed (th : Thread) : freed (freed th) = freed th := freed_not_held (freed_st_ne th)

/-- A thread is a lane of a slot of a home wave. -/
abbrev InSlot (l : Launch) (w : Nat) (e : DWord × BitVec 32) (u : Nat) : Prop :=
  homeWave l u = w ∧ e.2.getLsbD (homeLane l u) = true

/-- The lanes of a home wave, as its threads. -/
theorem forall_lane_iff (l : Launch) (w : Nat) (p : Nat → Nat → Prop) :
    (∀ lane < l.lanes, p (w * l.lanes + lane) lane) ↔ ∀ u, homeWave l u = w → p u (homeLane l u) := by
  constructor
  · rintro h u rfl
    have hu := h (homeLane l u) (homeLane_lt l u)
    rwa [homeWave, homeLane, Nat.div_add_mod'] at hu
  · intro h lane hl
    have hw : homeWave l (w * l.lanes + lane) = w := by
      rw [homeWave, Nat.mul_comm, Nat.mul_add_div l.lanes_pos, Nat.div_eq_of_lt hl, Nat.add_zero]
    have hlane : homeLane l (w * l.lanes + lane) = lane := by
      rw [homeLane, Nat.mul_comm, Nat.mul_add_mod, Nat.mod_eq_of_lt hl]
    simpa only [hlane] using h _ hw

/-- The threads that are the lanes of a slot. -/
def slotTids (l : Launch) (w : Nat) (e : DWord × BitVec 32) : List Nat :=
  ((List.range l.lanes).filter fun x => e.2.getLsbD x).map fun x => w * l.lanes + x

theorem mem_slotTids {l : Launch} {w : Nat} {e : DWord × BitVec 32} {u : Nat} :
    u ∈ slotTids l w e ↔ InSlot l w e u := by
  have h := forall_lane_iff l w fun t lane => ¬(e.2.getLsbD lane = true ∧ t = u)
  simp only [slotTids, List.mem_map, List.mem_filter, List.mem_range]
  constructor
  · rintro ⟨x, ⟨hx, hb⟩, hu⟩
    by_contra hc
    exact h.2 (fun t ht hbt => hc ⟨hbt.2 ▸ ht, hbt.2 ▸ hbt.1⟩) x hx ⟨hb, hu⟩
  · rintro ⟨rfl, hb⟩
    exact ⟨homeLane l u, ⟨homeLane_lt l u, hb⟩, Nat.div_add_mod' u l.lanes⟩

theorem slotTids_nodup (l : Launch) (w : Nat) (e : DWord × BitVec 32) : (slotTids l w e).Nodup :=
  (List.nodup_range.filter _).map fun _ _ h => Nat.add_left_cancel h

theorem releaseSlot_eq (b w : Nat) (e : DWord × BitVec 32) (s : State) :
    releaseSlot b w e s = (slotTids (s.launchOf b) w e).foldl (fun m t => modThread b t freed m)
      (modWave b w (fun v => { v with slots := modSlot e.1 (fun _ => (0, 0)) v.slots }) s) := by
  rw [slotTids, List.foldl_map, List.foldl_filter]
  rfl

/-- Releasing a slot frees its lanes. -/
theorem thread_releaseSlot (b w : Nat) (e : DWord × BitVec 32) (s : State) (u : Nat) :
    (releaseSlot b w e s).thread b u =
      if InSlot (s.launchOf b) w e u then freed (s.thread b u) else s.thread b u := by
  rw [releaseSlot_eq, thread_foldl_modThread (fun _ => freed) u _ _ (slotTids_nodup ..) fun _ _ => .inr rfl]
  simp only [mem_slotTids, modWave_thread_get]

/-- Releasing a slot frees it. -/
theorem slotsOf_releaseSlot (b w : Nat) (e : DWord × BitVec 32) (s : State) (w' : Nat) :
    ((releaseSlot b w e s).block b).slotsOf w' =
      if w' = w then modSlot e.1 (fun _ => (0, 0)) ((s.block b).slotsOf w') else (s.block b).slotsOf w' := by
  have hw : ((releaseSlot b w e s).block b).waves =
      modAt (fun v => { v with slots := modSlot e.1 (fun _ => (0, 0)) v.slots }) w (s.block b).waves := by
    rw [releaseSlot_eq]
    refine foldl_keeps (fun m : State => (m.block b).waves = _) _ (fun m t h => by rw [modThread_waves, h]) _ _ ?_
    rw [block_modWave, if_pos rfl]
  rw [Block.slotsOf, hw, modAt_getD_fixed rfl]
  split <;> rfl

theorem Reworked.releaseSlot {b : Nat} {s m : State} (h : Reworked b s m) (w : Nat) (e : DWord × BitVec 32) :
    Reworked b s (releaseSlot b w e m) := by
  rw [releaseSlot_eq]
  exact foldl_keeps (Reworked b s) _ (fun _ t h => h.modThread t _) _ _ (h.modWave w _)

@[simp] theorem releaseSlot_launchOf_get (b w : Nat) (e : DWord × BitVec 32) (s : State) (c : Nat) :
    (releaseSlot b w e s).launchOf c = s.launchOf c :=
  ((Reworked.refl b s).releaseSlot w e).launchOf c

/-! ### Which slots are met -/

/-- A slot is met when each of its lanes has exited or is held at its key. -/
theorem slotMet_iff (s : State) (b w : Nat) (e : DWord × BitVec 32) :
    slotMet s b w e = true ↔ e.1 ≠ 0 ∧ ∀ u, InSlot (s.launchOf b) w e u →
      (s.thread b u).st = .exited ∨ ((s.thread b u).st = .held ∧ (s.thread b u).pc = e.1) := by
  have h := forall_lane_iff (s.launchOf b) w fun u lane => e.2.getLsbD lane = true →
    (s.thread b u).st = .exited ∨ ((s.thread b u).st = .held ∧ (s.thread b u).pc = e.1)
  simp only [InSlot, and_imp, ← h]
  simp only [slotMet, Bool.and_eq_true, bne_iff_ne, List.all_eq_true, List.mem_range, Bool.or_eq_true, Bool.not_eq_true',
    decide_eq_true_eq]
  exact and_congr_right fun _ => forall₂_congr fun x _ => by cases e.2.getLsbD x <;> simp

/-- Whether a slot is met depends on the threads of its home wave alone. -/
theorem slotMet_congr {s m : State} {b w : Nat} {e : DWord × BitVec 32} (hl : m.launchOf b = s.launchOf b)
    (h : ∀ u, InSlot (s.launchOf b) w e u → m.thread b u = s.thread b u) : slotMet m b w e = slotMet s b w e := by
  rw [Bool.eq_iff_iff, slotMet_iff, slotMet_iff, hl]
  exact and_congr_right fun _ => forall_congr' fun u => imp_congr_right fun hu => by rw [h u hu]

/-- Releasing a slot leaves those of other home waves. -/
theorem slotMet_releaseSlot_ne {b w w' : Nat} (hw : w' ≠ w) (e e' : DWord × BitVec 32) (s : State) :
    slotMet (releaseSlot b w e s) b w' e' = slotMet s b w' e' := by
  refine slotMet_congr (releaseSlot_launchOf_get ..) fun u hu => ?_
  rw [thread_releaseSlot, if_neg fun h => hw (hu.1.symm.trans h.1)]

/-- Releasing a slot that is met leaves those of the other keys: a lane that is held at one key is not held at another. -/
theorem slotMet_releaseSlot {b w : Nat} {e e' : DWord × BitVec 32} {s : State} (hm : slotMet s b w e = true)
    (hne : e.1 ≠ e'.1) : slotMet (releaseSlot b w e s) b w e' = slotMet s b w e' := by
  rw [Bool.eq_iff_iff, slotMet_iff, slotMet_iff, releaseSlot_launchOf_get]
  refine and_congr_right fun _ => forall_congr' fun u => imp_congr_right fun hu => ?_
  rw [thread_releaseSlot]
  split
  · next he =>
    rcases ((slotMet_iff s b w e).1 hm).2 u he with hx | ⟨hh, hp⟩
    · rw [freed_not_held (by rw [hx]; exact TState.noConfusion)]
    · simp [freed_held hh, hh, hp, hne]
  · rfl

/-! ### Releasing the met slots of a home wave -/

/-- No key has two slots. -/
abbrev KeysDiffer (sl : Slots) : Prop := sl.Pairwise fun e e' => e.1 ≠ 0 → e.1 ≠ e'.1

theorem keysDiffer_iff (sl : Slots) : KeysDiffer sl ↔ ((sl.map Prod.fst).filter (· ≠ 0)).Nodup := by
  rw [List.Nodup, List.pairwise_filter, List.pairwise_map]
  refine ⟨fun h => h.imp fun hd h0 _ => ?_, fun h => h.imp fun hd h0 he => ?_⟩
  · exact hd (by simpa using h0)
  · exact hd (by simpa using h0) (by simpa [← he] using h0) he

/-- Two slots with the same key are one. -/
theorem KeysDiffer.eq {sl : Slots} (h : KeysDiffer sl) {e e' : DWord × BitVec 32} (he : e ∈ sl) (he' : e' ∈ sl)
    (h0 : e.1 ≠ 0) (hk : e.1 = e'.1) : e = e' := by
  induction sl with
  | nil => simp at he
  | cons x r ih =>
    obtain ⟨hx, hr⟩ := List.pairwise_cons.1 h
    rcases List.mem_cons.1 he with hex | her <;> rcases List.mem_cons.1 he' with hex' | her'
    · exact hex.trans hex'.symm
    · exact absurd hk (hex ▸ hx e' her' (hex ▸ h0))
    · exact absurd hk.symm (hex' ▸ hx e her (hex' ▸ hk ▸ h0))
    · exact ih hr her her'

theorem mem_modSlot_free {key : DWord} {sl : Slots} {e : DWord × BitVec 32}
    (h : e ∈ modSlot key (fun _ => (0, 0)) sl) : e = (0, 0) ∨ e ∈ sl := by
  induction sl with
  | nil => exact .inr h
  | cons x r ih =>
    rw [modSlot] at h
    split at h
    · exact (List.mem_cons.1 h).imp_right (List.mem_cons_of_mem x)
    · rcases List.mem_cons.1 h with rfl | h
      · exact .inr (List.mem_cons_self ..)
      · exact (ih h).imp_right (List.mem_cons_of_mem x)

theorem KeysDiffer.modSlot_free {sl : Slots} (h : KeysDiffer sl) (key : DWord) :
    KeysDiffer (modSlot key (fun _ => (0, 0)) sl) := by
  induction sl with
  | nil => exact h
  | cons x r ih =>
    obtain ⟨hx, hr⟩ := List.pairwise_cons.1 h
    rw [modSlot]
    split
    · exact List.pairwise_cons.2 ⟨fun _ _ h0 => absurd rfl h0, hr⟩
    · refine List.pairwise_cons.2 ⟨fun e he h0 => ?_, ih hr⟩
      rcases mem_modSlot_free he with rfl | he
      · exact h0
      · exact hx e he h0

theorem hasSlot_eq_false_iff {key : DWord} {sl : Slots} : hasSlot key sl = false ↔ ∀ e ∈ sl, e.1 ≠ key := by
  simp [hasSlot]

/-- A key without a slot keeps none. -/
theorem hasSlot_modSlot_free_keeps {key : DWord} (hk : key ≠ 0) {sl : Slots} (h : hasSlot key sl = false) (k : DWord) :
    hasSlot key (modSlot k (fun _ => (0, 0)) sl) = false := by
  rw [hasSlot_eq_false_iff] at h ⊢
  intro e he
  rcases mem_modSlot_free he with rfl | he
  · exact hk.symm
  · exact h e he

/-- The key that is released has no slot. -/
theorem hasSlot_modSlot_free {key : DWord} (hk : key ≠ 0) {sl : Slots} (h : KeysDiffer sl) :
    hasSlot key (modSlot key (fun _ => (0, 0)) sl) = false := by
  rw [hasSlot_eq_false_iff]
  induction sl with
  | nil => simp [modSlot]
  | cons x r ih =>
    obtain ⟨hx, hr⟩ := List.pairwise_cons.1 h
    rw [modSlot]
    split
    · next hkey =>
      rintro e he
      rcases List.mem_cons.1 he with rfl | he
      · exact hk.symm
      · exact fun h => hx e he (hkey ▸ hk) (hkey.trans h.symm)
    · next hkey =>
      rintro e he
      rcases List.mem_cons.1 he with rfl | he
      · exact hkey
      · exact ih hr e he

/-- Judges some slots of a home wave. -/
def releaseList (b w : Nat) (sl : Slots) (s : State) : State :=
  sl.foldl (fun s e => if slotMet s b w e then releaseSlot b w e s else s) s

theorem releaseMet_eq (b w : Nat) (s : State) : releaseMet b w s = releaseList b w ((s.block b).slotsOf w) s := rfl

theorem releaseList_cons (b w : Nat) (e : DWord × BitVec 32) (r : Slots) (s : State) :
    releaseList b w (e :: r) s = releaseList b w r (if slotMet s b w e then releaseSlot b w e s else s) := rfl

theorem Reworked.releaseList {b : Nat} {s m : State} (h : Reworked b s m) (w : Nat) (sl : Slots) :
    Reworked b s (releaseList b w sl m) := by
  refine foldl_keeps (Reworked b s) _ (fun m e h => ?_) sl m h
  split
  · exact h.releaseSlot w e
  · exact h

/-- A thread is a lane of a slot that is met. -/
abbrev Met (s : State) (b w : Nat) (sl : Slots) (u : Nat) : Prop :=
  ∃ e ∈ sl, slotMet s b w e = true ∧ InSlot (s.launchOf b) w e u

/-- The lanes of the met slots are freed. -/
theorem thread_releaseList {b w : Nat} {sl : Slots} (h : KeysDiffer sl) (s : State) (u : Nat) :
    (releaseList b w sl s).thread b u = if Met s b w sl u then freed (s.thread b u) else s.thread b u := by
  induction sl generalizing s with
  | nil => simp [releaseList, Met]
  | cons e r ih =>
    obtain ⟨he, hr⟩ := List.pairwise_cons.1 h
    rw [releaseList_cons, ih hr]
    by_cases hm : slotMet s b w e = true
    · rw [if_pos hm]
      have hmet : Met (releaseSlot b w e s) b w r u ↔ Met s b w r u := by
        refine exists_congr fun x => and_congr_right fun hx => ?_
        rw [slotMet_releaseSlot hm (he x hx ((slotMet_iff s b w e).1 hm).1), releaseSlot_launchOf_get]
      have hcons : Met s b w (e :: r) u ↔ InSlot (s.launchOf b) w e u ∨ Met s b w r u := by
        simp only [Met, List.exists_mem_cons_iff, hm, true_and]
      rw [thread_releaseSlot]
      by_cases hrest : Met s b w r u
      · rw [if_pos (hmet.2 hrest), if_pos (hcons.2 (.inr hrest))]
        split
        · exact freed_freed _
        · rfl
      · rw [if_neg (mt hmet.1 hrest)]
        exact if_congr (hcons.trans (or_iff_left hrest)).symm rfl rfl
    · have hcons : Met s b w (e :: r) u ↔ Met s b w r u := by
        simp only [Met, List.exists_mem_cons_iff, hm, false_and, false_or, Bool.false_eq_true]
      rw [if_neg hm]
      exact if_congr hcons.symm rfl rfl

/-- The slots of other home waves stay. -/
theorem slotsOf_releaseList_ne {b w w' : Nat} (hw : w' ≠ w) (sl : Slots) (s : State) :
    ((releaseList b w sl s).block b).slotsOf w' = (s.block b).slotsOf w' := by
  refine foldl_keeps (fun m : State => (m.block b).slotsOf w' = (s.block b).slotsOf w') _ (fun m e h => ?_) sl s rfl
  split
  · rw [slotsOf_releaseSlot, if_neg hw, h]
  · exact h

/-- A key without a slot keeps none while slots are released. -/
theorem hasSlot_releaseList_keeps {b w : Nat} {key : DWord} (hk : key ≠ 0) (sl : Slots) (s : State)
    (h : hasSlot key ((s.block b).slotsOf w) = false) :
    hasSlot key (((releaseList b w sl s).block b).slotsOf w) = false := by
  refine foldl_keeps (fun m : State => hasSlot key ((m.block b).slotsOf w) = false) _ (fun m e h => ?_) sl s h
  split
  · rw [slotsOf_releaseSlot, if_pos rfl]
    exact hasSlot_modSlot_free_keeps hk h e.1
  · exact h

/-- The slot of a key that is met is free. -/
theorem hasSlot_releaseList {b w : Nat} {sl : Slots} (h : KeysDiffer sl) {s : State}
    (hs : KeysDiffer ((s.block b).slotsOf w)) {e : DWord × BitVec 32} (he : e ∈ sl) (hm : slotMet s b w e = true) :
    hasSlot e.1 (((releaseList b w sl s).block b).slotsOf w) = false := by
  have h0 := ((slotMet_iff s b w e).1 hm).1
  induction sl generalizing s with
  | nil => simp at he
  | cons x r ih =>
    obtain ⟨hx, hr⟩ := List.pairwise_cons.1 h
    rw [releaseList_cons]
    rcases List.mem_cons.1 he with rfl | her
    · rw [if_pos hm]
      refine hasSlot_releaseList_keeps h0 r _ ?_
      rw [slotsOf_releaseSlot, if_pos rfl]
      exact hasSlot_modSlot_free h0 hs
    · split
      · next hmx =>
        refine ih hr ?_ her ?_
        · rw [slotsOf_releaseSlot, if_pos rfl]
          exact hs.modSlot_free x.1
        · rw [slotMet_releaseSlot hmx (hx e her ((slotMet_iff s b w x).1 hmx).1), hm]
      · exact ih hr hs her hm

/-! ### Releasing the met slots of some home waves -/

/-- Judges every slot of some home waves. -/
def releaseWaves (b : Nat) (ws : List Nat) (s : State) : State := ws.foldl (fun s w => releaseMet b w s) s

theorem releaseWaves_cons (b w : Nat) (r : List Nat) (s : State) :
    releaseWaves b (w :: r) s = releaseWaves b r (releaseMet b w s) := rfl

theorem Reworked.releaseWaves {b : Nat} {s m : State} (h : Reworked b s m) (ws : List Nat) :
    Reworked b s (releaseWaves b ws m) :=
  foldl_keeps (Reworked b s) _ (fun m w h => h.releaseList w ((m.block b).slotsOf w)) ws m h

theorem releaseMet_reworked (b w : Nat) (s : State) : Reworked b s (releaseMet b w s) :=
  (Reworked.refl b s).releaseList w ((s.block b).slotsOf w)

theorem keysDiffer_releaseMet {b w : Nat} {s : State} (hs : ∀ w, KeysDiffer ((s.block b).slotsOf w)) (w' : Nat) :
    KeysDiffer (((releaseMet b w s).block b).slotsOf w') := by
  refine foldl_keeps (fun m : State => KeysDiffer ((m.block b).slotsOf w')) _ (fun m e h => ?_) _ s (hs w')
  split
  · rw [slotsOf_releaseSlot]
    split
    · exact h.modSlot_free e.1
    · exact h
  · exact h

theorem thread_releaseMet {b w : Nat} {s : State} (hs : KeysDiffer ((s.block b).slotsOf w)) (u : Nat) :
    (releaseMet b w s).thread b u =
      if Met s b w ((s.block b).slotsOf w) u then freed (s.thread b u) else s.thread b u :=
  thread_releaseList hs s u

/-- A slot of another home wave is met as before. -/
theorem slotMet_releaseMet_ne {b w w' : Nat} (hw : w' ≠ w) {s : State} (hs : KeysDiffer ((s.block b).slotsOf w))
    (e : DWord × BitVec 32) : slotMet (releaseMet b w s) b w' e = slotMet s b w' e := by
  refine slotMet_congr ((releaseMet_reworked b w s).launchOf b) fun x hx => ?_
  rw [thread_releaseMet hs, if_neg]
  rintro ⟨e', -, -, hw', -⟩
  exact hw (hx.1.symm.trans hw')

/-- A thread is a lane of a slot of its home wave that is met. -/
abbrev LaneMet (s : State) (b u : Nat) : Prop :=
  Met s b (homeWave (s.launchOf b) u) ((s.block b).slotsOf (homeWave (s.launchOf b) u)) u

/-- A home wave is judged as it stands, whatever other home waves have been judged before. -/
theorem laneMet_releaseMet {b w u : Nat} {s : State} (hw : homeWave (s.launchOf b) u ≠ w)
    (hs : KeysDiffer ((s.block b).slotsOf w)) : LaneMet (releaseMet b w s) b u ↔ LaneMet s b u := by
  unfold LaneMet Met
  rw [(releaseMet_reworked b w s).launchOf, releaseMet_eq, slotsOf_releaseList_ne hw, ← releaseMet_eq]
  exact exists_congr fun e => and_congr_right fun _ => by rw [slotMet_releaseMet_ne hw hs]

/-- The lanes of the met slots of these home waves are freed. -/
theorem thread_releaseWaves {b : Nat} {ws : List Nat} (hn : ws.Nodup) (s : State)
    (hs : ∀ w, KeysDiffer ((s.block b).slotsOf w)) (u : Nat) :
    (releaseWaves b ws s).thread b u =
      if homeWave (s.launchOf b) u ∈ ws ∧ LaneMet s b u then freed (s.thread b u) else s.thread b u := by
  induction ws generalizing s with
  | nil => simp [releaseWaves]
  | cons w r ih =>
    obtain ⟨hwr, hn⟩ := List.nodup_cons.1 hn
    have hl : (releaseMet b w s).launchOf b = s.launchOf b := (releaseMet_reworked b w s).launchOf b
    rw [releaseWaves_cons, ih hn (releaseMet b w s) (keysDiffer_releaseMet hs), thread_releaseMet (hs w)]
    by_cases hw : homeWave (s.launchOf b) u = w
    · rw [if_neg fun h => hwr (by rw [← hw, ← hl]; exact h.1)]
      exact if_congr (by rw [LaneMet, hw]; exact (and_iff_right (List.mem_cons_self ..)).symm) rfl rfl
    · rw [if_neg (c := Met s b w _ u) fun ⟨_, _, _, hu⟩ => hw hu.1]
      refine if_congr (and_congr ?_ (laneMet_releaseMet hw (hs w))) rfl rfl
      rw [hl, List.mem_cons, or_iff_right hw]

/-- The slots of the home waves that are not judged stay. -/
theorem slotsOf_releaseWaves {b w : Nat} {ws : List Nat} (hw : w ∉ ws) (s : State) :
    ((releaseWaves b ws s).block b).slotsOf w = (s.block b).slotsOf w := by
  induction ws generalizing s with
  | nil => rfl
  | cons x r ih =>
    rw [List.mem_cons, not_or] at hw
    rw [releaseWaves_cons, ih hw.2, releaseMet_eq, slotsOf_releaseList_ne hw.1]

/-- The slot of a key that is met is free. -/
theorem hasSlot_releaseWaves {b w : Nat} {ws : List Nat} (hn : ws.Nodup) (hw : w ∈ ws) {s : State}
    (hs : ∀ w, KeysDiffer ((s.block b).slotsOf w)) {e : DWord × BitVec 32} (he : e ∈ (s.block b).slotsOf w)
    (hm : slotMet s b w e = true) : hasSlot e.1 (((releaseWaves b ws s).block b).slotsOf w) = false := by
  induction ws generalizing s with
  | nil => simp at hw
  | cons x r ih =>
    obtain ⟨hxr, hn⟩ := List.nodup_cons.1 hn
    rw [releaseWaves_cons]
    by_cases hwx : w = x
    · subst hwx
      rw [slotsOf_releaseWaves hxr]
      exact hasSlot_releaseList (hs w) (hs w) he hm
    · refine ih hn ((List.mem_cons.1 hw).resolve_left hwx) (keysDiffer_releaseMet hs) ?_ ?_
      · rwa [releaseMet_eq, slotsOf_releaseList_ne hwx]
      · rwa [slotMet_releaseMet_ne hwx (hs x)]

/-! ### The threads that arrive -/

theorem sortBy_perm {α : Type} (le : α → α → Bool) (l : List α) : (sortBy le l).Perm l := by
  induction l with
  | nil => exact .refl _
  | cons a r ih =>
    rw [sortBy]
    refine List.perm_middle.trans (.cons a ?_)
    rw [List.takeWhile_append_dropWhile]
    exact ih

theorem groupTids_nodup (s : State) (b w : Nat) (pc : DWord) : (groupTids s b w pc).Nodup :=
  ((sortBy_perm _ _).nodup_iff.2 (List.nodup_range.filter _)).filter _

theorem lt_of_mem_groupTids {s : State} {b w : Nat} {pc : DWord} {t : Nat} (h : t ∈ groupTids s b w pc) :
    t < (s.block b).threads.length :=
  List.mem_range.1 (List.mem_filter.1 ((sortBy_perm _ _).mem_iff.1 (List.mem_filter.1 h).1)).1

theorem pc_of_mem_groupTids {s : State} {b w : Nat} {pc : DWord} {t : Nat} (h : t ∈ groupTids s b w pc) :
    (s.thread b t).pc = pc := by
  simpa using (Bool.and_eq_true_iff.1 (List.mem_filter.1 h).2).2

theorem atMeeting_iff (th : Thread) : atMeeting th = true ↔ th.st = .ready ∧ th.mt ≠ 0 ∧ th.mt = th.pc := by
  simp [atMeeting, and_assoc]

/-- The threads of a physical wave that stand at their meeting address. -/
def arrivals (s : State) (b w : Nat) (pc : DWord) : List Nat :=
  (groupTids s b w pc).filter fun t => atMeeting (s.thread b t)

theorem mem_arrivals {s : State} {b w : Nat} {pc : DWord} {t : Nat} :
    t ∈ arrivals s b w pc ↔ t ∈ groupTids s b w pc ∧ atMeeting (s.thread b t) = true := List.mem_filter

/-- What the arrival makes of a thread: it is held where it is enrolled, else it has no meeting address. -/
def arrived (s : State) (b : Nat) (pc : DWord) (t : Nat) (th : Thread) : Thread :=
  if enrolled pc (homeLane (s.launchOf b) t) ((s.block b).slotsOf (homeWave (s.launchOf b) t)) then
    { th with st := .held }
  else { th with mt := 0 }

/-- Every thread that arrives is held or goes on; a group of which some are held is current no longer. -/
def arrivedState (b w : Nat) (pc : DWord) (s : State) : State :=
  let m := (arrivals s b w pc).foldl (fun m t => modThread b t (arrived s b pc t) m) s
  if (arrivals s b w pc).any fun t => (m.thread b t).st = .held then
    modPWave b w (fun p => if p.cur = some pc then { p with cur := none, run := 0 } else p) m
  else m

/-- The home waves whose slots are judged. -/
def arrivedWaves (s : State) (b w : Nat) (pc : DWord) : List Nat :=
  ((arrivals s b w pc).map (homeWave (s.launchOf b))).eraseDups

theorem exec_meetingArrival (b w : Nat) (pc : DWord) (s : State) :
    exec (.meetingArrival b w pc) s =
      .next (releaseWaves b (arrivedWaves s b w pc) (arrivedState b w pc s)) := by
  have hfold : (arrivals s b w pc).foldl (fun m t =>
        modThread b t (fun th =>
          if enrolled pc (homeLane (s.launchOf b) t)
            ((m.block b).waves.getD (homeWave (s.launchOf b) t) default).slots then { th with st := .held }
          else { th with mt := 0 }) m) s =
      (arrivals s b w pc).foldl (fun m t => modThread b t (arrived s b pc t) m) s :=
    foldl_congr_of_keeps (fun m => (m.block b).waves = (s.block b).waves)
      (fun m t h => (modThread_waves ..).trans h) (fun m t h => by rw [h]; rfl) _ s rfl
  unfold arrivedState
  rw [← hfold]
  rfl

theorem arrivedState_reworked (b w : Nat) (pc : DWord) (s : State) : Reworked b s (arrivedState b w pc s) := by
  have h := foldl_keeps (Reworked b s) _ (fun m t h => h.modThread t (arrived s b pc t)) (arrivals s b w pc) s
    (Reworked.refl b s)
  unfold arrivedState
  dsimp only
  split
  · exact h.modPWave w _
  · exact h

theorem slotsOf_arrivedState (b w : Nat) (pc : DWord) (s : State) (w' : Nat) :
    ((arrivedState b w pc s).block b).slotsOf w' = (s.block b).slotsOf w' := by
  have h := foldl_keeps (fun m : State => (m.block b).waves = (s.block b).waves) _
    (fun m t h => (modThread_waves b t (arrived s b pc t) m b).trans h) (arrivals s b w pc) s rfl
  unfold arrivedState
  dsimp only
  split
  · rw [Block.slotsOf, modPWave_waves, h]; rfl
  · rw [Block.slotsOf, h]; rfl

theorem thread_arrivedState (b w : Nat) (pc : DWord) (s : State) (u : Nat) :
    (arrivedState b w pc s).thread b u =
      if u ∈ arrivals s b w pc then arrived s b pc u (s.thread b u) else s.thread b u := by
  have h := thread_foldl_modThread (arrived s b pc) u (arrivals s b w pc) s ((groupTids_nodup s b w pc).filter _)
    fun t ht => .inl (lt_of_mem_groupTids (mem_arrivals.1 ht).1)
  unfold arrivedState
  dsimp only
  split
  · rw [modPWave_thread_get, h]
  · exact h

theorem mem_arrivedWaves {s : State} {b w : Nat} {pc : DWord} {w' : Nat} :
    w' ∈ arrivedWaves s b w pc ↔ ∃ t ∈ arrivals s b w pc, homeWave (s.launchOf b) t = w' := by
  simp [arrivedWaves]

theorem eraseDups_nodup (l : List Nat) : l.eraseDups.Nodup := by
  match l with
  | [] => simp
  | a :: r =>
    rw [List.eraseDups_cons]
    exact List.nodup_cons.2 ⟨by simp, eraseDups_nodup _⟩
termination_by l.length
decreasing_by exact Nat.lt_succ_of_le (List.length_filter_le ..)

theorem arrivedWaves_nodup (s : State) (b w : Nat) (pc : DWord) : (arrivedWaves s b w pc).Nodup := eraseDups_nodup _

/-- The launch of the block after a step of its group that keeps it. -/
theorem GroupStep.launchOf {g : Nat → Thread} {h : Block → Block} {s t : State} (hs : GroupStep g h s t)
    (hh : (h (s.block s.cur.block)).launch = (s.block s.cur.block).launch) :
    t.launchOf s.cur.block = s.launchOf s.cur.block := by
  obtain ⟨hr, -, -, ⟨ths, pws, hown⟩, -, -⟩ := hs
  rw [State.launchOf, hown, hr]
  exact congrArg (State.launch s) hh

/-! ### What an arrival leaves of each thread -/

theorem enrolled_iff {key : DWord} {lane : Nat} {sl : Slots} :
    enrolled key lane sl = true ↔ ∃ e ∈ sl, e.1 = key ∧ e.2.getLsbD lane = true := by
  simp [enrolled]

/-- A thread is enrolled at an address. -/
abbrev Joined (s : State) (b : Nat) (pc : DWord) (t : Nat) : Prop :=
  enrolled pc (homeLane (s.launchOf b) t) ((s.block b).slotsOf (homeWave (s.launchOf b) t)) = true

/-- A thread is held, or comes to be by its arrival. -/
abbrev Stands (s : State) (b w : Nat) (pc : DWord) (t : Nat) : Prop :=
  ((t ∈ groupTids s b w pc ∧ atMeeting (s.thread b t) = true) ∧ Joined s b pc t) ∨ (s.thread b t).st = .held

theorem arrivals_ready {s : State} {b w : Nat} {pc : DWord} {t : Nat} (h : t ∈ arrivals s b w pc) :
    (s.thread b t).st = .ready := ((atMeeting_iff _).1 (mem_arrivals.1 h).2).1

theorem arrivals_pc {s : State} {b w : Nat} {pc : DWord} {t : Nat} (h : t ∈ arrivals s b w pc) :
    (s.thread b t).pc = pc ∧ pc ≠ 0 := by
  have hpc := pc_of_mem_groupTids (mem_arrivals.1 h).1
  obtain ⟨-, h0, hm⟩ := (atMeeting_iff _).1 (mem_arrivals.1 h).2
  exact ⟨hpc, hpc ▸ hm ▸ h0⟩

theorem thread_arrivedState_joined {s : State} {b w : Nat} {pc : DWord} {t : Nat} (h : t ∈ arrivals s b w pc)
    (hj : Joined s b pc t) : (arrivedState b w pc s).thread b t = { s.thread b t with st := .held } := by
  rw [thread_arrivedState, if_pos h, arrived, if_pos hj]

theorem thread_arrivedState_notJoined {s : State} {b w : Nat} {pc : DWord} {t : Nat} (h : t ∈ arrivals s b w pc)
    (hj : ¬Joined s b pc t) : (arrivedState b w pc s).thread b t = { s.thread b t with mt := 0 } := by
  rw [thread_arrivedState, if_pos h, arrived, if_neg hj]

theorem thread_arrivedState_other {s : State} {b w : Nat} {pc : DWord} {t : Nat} (h : t ∉ arrivals s b w pc) :
    (arrivedState b w pc s).thread b t = s.thread b t := by
  rw [thread_arrivedState, if_neg h]

/-- An arrival moves no thread, nobody exits by it, and those that are held after it are those that stand. -/
theorem arrivedState_stands (s : State) (b w : Nat) (pc : DWord) (t : Nat) :
    ((arrivedState b w pc s).thread b t).pc = (s.thread b t).pc ∧
    (((arrivedState b w pc s).thread b t).st = .exited ↔ (s.thread b t).st = .exited) ∧
    (((arrivedState b w pc s).thread b t).st = .held ↔ Stands s b w pc t) := by
  unfold Stands
  rw [← mem_arrivals]
  by_cases h : t ∈ arrivals s b w pc
  · have hr := arrivals_ready h
    by_cases hj : Joined s b pc t
    · rw [thread_arrivedState_joined h hj]
      exact ⟨rfl, by simp [hr], iff_of_true rfl (.inl ⟨h, hj⟩)⟩
    · rw [thread_arrivedState_notJoined h hj]
      simp [hj, hr]
  · rw [thread_arrivedState_other h]
    simp [h]

/-- Whether a slot is met as its threads arrive, lane by lane. -/
theorem slotMet_arrivedState {s : State} {b w : Nat} {pc : DWord} (w' : Nat) {e : DWord × BitVec 32} (h0 : pc ≠ 0)
    (he : e.1 = pc) : slotMet (arrivedState b w pc s) b w' e = true ↔
      ∀ lane < (s.launchOf b).lanes, e.2.getLsbD lane = true →
        (s.thread b (w' * (s.launchOf b).lanes + lane)).st = .exited ∨
        (Stands s b w pc (w' * (s.launchOf b).lanes + lane) ∧
          (s.thread b (w' * (s.launchOf b).lanes + lane)).pc = pc) := by
  have hl := (arrivedState_reworked b w pc s).launchOf b
  rw [forall_lane_iff (s.launchOf b) w' fun u lane => e.2.getLsbD lane = true →
    (s.thread b u).st = .exited ∨ (Stands s b w pc u ∧ (s.thread b u).pc = pc), slotMet_iff, hl, he]
  refine (and_iff_right h0).trans (forall_congr' fun u => ?_)
  obtain ⟨hpc, hx, hh⟩ := arrivedState_stands s b w pc u
  rw [hpc, hx, hh, and_imp]

/-- A slot of an address is met as its threads arrive. -/
def MeetingMet (s : State) (b w : Nat) (pc : DWord) (w' : Nat) : Prop :=
  ∃ e ∈ (s.block b).slotsOf w', e.1 = pc ∧ slotMet (arrivedState b w pc s) b w' e = true

/-- An enrolled thread of the home wave of a slot that is met is a lane of it. -/
theorem laneMet_of_joined {s : State} {b w : Nat} {pc : DWord} (hs : ∀ w, KeysDiffer ((s.block b).slotsOf w))
    (h0 : pc ≠ 0) {u : Nat} (hm : MeetingMet s b w pc (homeWave (s.launchOf b) u)) (hj : Joined s b pc u) :
    LaneMet (arrivedState b w pc s) b u := by
  obtain ⟨e, he, hpc, hmet⟩ := hm
  obtain ⟨e', he', hpc', hbit⟩ := enrolled_iff.1 hj
  have heq : e = e' := (hs _).eq he he' (hpc ▸ h0) (hpc.trans hpc'.symm)
  have hl := (arrivedState_reworked b w pc s).launchOf b
  rw [LaneMet, slotsOf_arrivedState, hl, Met, hl]
  exact ⟨e, he, hmet, rfl, heq ▸ hbit⟩

/-- A thread that arrives is a lane of a slot that is met only where that of its address is. -/
theorem meetingMet_of_laneMet {s : State} {b w : Nat} {pc : DWord} {t : Nat} (h : t ∈ arrivals s b w pc)
    (hj : Joined s b pc t) (hm : LaneMet (arrivedState b w pc s) b t) :
    MeetingMet s b w pc (homeWave (s.launchOf b) t) := by
  have hl := (arrivedState_reworked b w pc s).launchOf b
  rw [LaneMet, slotsOf_arrivedState, hl, Met] at hm
  obtain ⟨e, he, hmet, hin⟩ := hm
  refine ⟨e, he, ?_, hmet⟩
  have hlane := ((slotMet_iff _ b _ e).1 hmet).2 t hin
  rw [thread_arrivedState_joined h hj, (arrivals_pc h).1] at hlane
  simpa [eq_comm] using hlane

theorem homeWave_mem_arrivedWaves {s : State} {b w : Nat} {pc : DWord} {t : Nat} (h : t ∈ arrivals s b w pc) :
    homeWave (s.launchOf b) t ∈ arrivedWaves s b w pc := mem_arrivedWaves.2 ⟨t, h, rfl⟩

/-- The state that MEETING_ARRIVAL leaves. -/
def afterArrival (b w : Nat) (pc : DWord) (s : State) : State :=
  releaseWaves b (arrivedWaves s b w pc) (arrivedState b w pc s)

section
variable {s : State} {b w : Nat} {pc : DWord} (hs : ∀ w, KeysDiffer ((s.block b).slotsOf w))
include hs

theorem thread_afterArrival (u : Nat) :
    (afterArrival b w pc s).thread b u =
      if homeWave (s.launchOf b) u ∈ arrivedWaves s b w pc ∧ LaneMet (arrivedState b w pc s) b u
      then freed ((arrivedState b w pc s).thread b u) else (arrivedState b w pc s).thread b u := by
  rw [afterArrival, thread_releaseWaves (arrivedWaves_nodup s b w pc) _ (fun w' => by
    rw [slotsOf_arrivedState]; exact hs w') u]
  exact if_congr (by rw [(arrivedState_reworked b w pc s).launchOf]) rfl rfl

/-- A thread that the arrival does not hold is as the arrival leaves it. -/
theorem thread_afterArrival_notHeld {u : Nat} (hu : ((arrivedState b w pc s).thread b u).st ≠ .held) :
    (afterArrival b w pc s).thread b u = (arrivedState b w pc s).thread b u := by
  rw [thread_afterArrival hs, freed_not_held hu, ite_self]

theorem thread_afterArrival_notJoined {t : Nat} (h : t ∈ arrivals s b w pc) (hj : ¬Joined s b pc t) :
    (afterArrival b w pc s).thread b t = { s.thread b t with mt := 0 } := by
  have ha := thread_arrivedState_notJoined h hj
  rw [thread_afterArrival_notHeld hs (by rw [ha, arrivals_ready h]; exact TState.noConfusion), ha]

theorem thread_afterArrival_waits {t : Nat} (h : t ∈ arrivals s b w pc) (hj : Joined s b pc t)
    (hm : ¬MeetingMet s b w pc (homeWave (s.launchOf b) t)) :
    (afterArrival b w pc s).thread b t = { s.thread b t with st := .held } := by
  rw [thread_afterArrival hs, if_neg fun hc => hm (meetingMet_of_laneMet h hj hc.2), thread_arrivedState_joined h hj]

/-- Where the slot of the address is met in the home wave of an arrival, each of its threads that is held there goes on. -/
theorem thread_afterArrival_released {u : Nat} (hw : homeWave (s.launchOf b) u ∈ arrivedWaves s b w pc) (h0 : pc ≠ 0)
    (hm : MeetingMet s b w pc (homeWave (s.launchOf b) u)) (hj : Joined s b pc u) (hu : Stands s b w pc u) :
    (afterArrival b w pc s).thread b u = { s.thread b u with st := .ready, mt := 0 } := by
  rw [thread_afterArrival hs, if_pos ⟨hw, laneMet_of_joined hs h0 hm hj⟩,
    freed_held ((arrivedState_stands s b w pc u).2.2.2 hu)]
  by_cases h : u ∈ arrivals s b w pc
  · rw [thread_arrivedState_joined h hj]
  · rw [thread_arrivedState_other h]

theorem hasSlot_afterArrival {w' : Nat} (hw : w' ∈ arrivedWaves s b w pc) (hm : MeetingMet s b w pc w') :
    hasSlot pc (((afterArrival b w pc s).block b).slotsOf w') = false := by
  obtain ⟨e, he, rfl, hmet⟩ := hm
  rw [← slotsOf_arrivedState b w e.1 s w'] at he
  unfold afterArrival
  refine hasSlot_releaseWaves (arrivedWaves_nodup s b w e.1) hw (fun w'' => ?_) he hmet
  rw [slotsOf_arrivedState]
  exact hs w''

end

theorem afterArrival_reworked (b w : Nat) (pc : DWord) (s : State) : Reworked b s (afterArrival b w pc s) :=
  (arrivedState_reworked b w pc s).releaseWaves _

/-- Settles O9: `MEETX` and `MEET` as lane instructions, then MEETING_ARRIVAL by what the arrival makes of each thread and
which slots are met then. -/
theorem meetingsComplete : Obligations.MeetingsComplete := by
  unfold Obligations.MeetingsComplete
  refine ⟨fun f s h hc => ?_, fun f s h => ?_, fun b w pc s _ => ?_⟩
  · obtain ⟨t, ht, hg⟩ := exec_meetx h hc
    exact ⟨t, ht, hg.memory rfl, hg⟩
  · intro key slotsOf hk hr
    obtain ⟨t, ht, hg⟩ := exec_meet h hk hr
    obtain ⟨ws, hws⟩ := foldl_enrolIn_frame (s.launchOf s.cur.block) key (onTids (.meet f) s) (s.block s.cur.block)
    have hmem := hg.memory (by rw [hws])
    have hl := hg.launchOf (by rw [hws])
    obtain ⟨hrest, -, hothers, ⟨ths, pws, hown⟩, hgroup, hthreads⟩ := hg
    have hwaves : (t.block s.cur.block).waves = ((onTids (.meet f) s).foldl
        (fun x t => enrolIn (s.launchOf s.cur.block) key t x) (s.block s.cur.block)).waves := by rw [hown]
    have hcur : t.cur = s.cur := by rw [hrest]
    refine ⟨t, ht, hmem, hgroup, hthreads, fun tid htid hon hkey => ?_, fun hkey => ?_, hothers, hrest⟩
    · have henrolled := enrolled_foldl_enrolIn (l := s.launchOf s.cur.block) hkey (onTids (.meet f) s)
        (s.block s.cur.block) (fun x hx => by
          obtain ⟨hxt, hxon⟩ := List.mem_filter.1 hx
          exact ⟨(h.1.2.2.2 x hxt).2, (hr x hxt hxon).resolve_left hkey⟩) (List.mem_filter.2 ⟨htid, hon⟩)
      rw [Block.slotsOf, ← hwaves] at henrolled
      simpa only [slotsOf, hcur, hl] using henrolled
    · rw [hwaves, hkey, foldl_enrolIn_zero]
  · intro l there slots joined stands met hdistinct
    have hs : ∀ w, KeysDiffer ((s.block b).slotsOf w) := fun w => (keysDiffer_iff _).2 (hdistinct w)
    have hmet : pc ≠ 0 → ∀ w', met w' ↔ MeetingMet s b w pc w' := fun h0 w' =>
      exists_congr fun e => and_congr_right fun _ => and_congr_right fun he => (slotMet_arrivedState w' h0 he).symm
    have hframe := afterArrival_reworked b w pc s
    refine ⟨afterArrival b w pc s, exec_meetingArrival b w pc s, hframe.memory, fun t ht hj => ?_, fun t ht hj hm => ?_,
      fun t ht hj hm => ?_, fun t ht hst => ?_, hframe.others, hframe.rest⟩
    · exact thread_afterArrival_notJoined hs (mem_arrivals.2 ht) hj
    · have ha := mem_arrivals.2 ht
      exact thread_afterArrival_waits hs ha hj fun hc => hm ((hmet (arrivals_pc ha).2 _).2 hc)
    · have ha := mem_arrivals.2 ht
      have h0 := (arrivals_pc ha).2
      have hmm := (hmet h0 _).1 hm
      have hw := homeWave_mem_arrivedWaves ha
      refine ⟨thread_afterArrival_released hs hw h0 hmm hj (.inl ⟨ht, hj⟩), hasSlot_afterArrival hs hw hmm,
        fun u hu hheld _ hju => ?_⟩
      exact thread_afterArrival_released hs (hu ▸ hw) h0 (hu ▸ hmm) hju (.inr hheld)
    · have ha : t ∉ arrivals s b w pc := fun hc => ht (mem_arrivals.1 hc)
      have hsame := thread_arrivedState_other ha
      rw [thread_afterArrival_notHeld hs (by rw [hsame]; exact hst), hsame]

end Sys2Proof.Machine
end

section
/-!
PROOFS. The cross-lane class: the arrival of a group, the set of lanes that fires, the completion of its threads, and what
each receives from the contributions of the lanes it names.
-/

namespace Sys2Proof.Machine

open Sys2Proof

/-! ### Arrival -/

/-- The lanes of a group go on where each changes its own thread alone. -/
theorem laneExecBy_threads {i : Instr} {s : State} {faultOf : State → Nat → Nat → Option (Nat × Nat)}
    {go : State → Nat → State} (g : Nat → Thread → Thread) (h : Unhindered i s)
    (hf : OnAll i s fun t => faultOf s s.cur.block t = none)
    (hgo : ∀ t m, m.cur = s.cur → m.thread s.cur.block t = s.thread s.cur.block t →
      go m t = modThread s.cur.block t (g t) m) :
    ∃ t, laneExecBy i faultOf go s = .next t ∧ GroupStep (fun tid => g tid (s.thread s.cur.block tid)) id s t := by
  refine ⟨_, laneExecBy_next go h hf, ?_⟩
  obtain ⟨⟨hb, -, hn, hl⟩, -, -⟩ := h
  have hm := Midway.fold (g := fun tid => g tid (s.thread s.cur.block tid)) go (fun _ => id) (fun h => h = id) hb
    (fun _ _ _ => rfl) s.cur.tids id [] s (Midway.start _ s) rfl hn (fun _ _ _ h => h) (by simp)
    (fun t ht => (hl t ht).1) fun t _ k done m hm _ hd =>
      ⟨g t, by rw [modBlock_id, hgo t m (by rw [hm.rest]) (hm.threads t hd)], rfl⟩
  have hid : (fun x : Block => s.cur.tids.foldl (fun (x : Block) (_ : Nat) => id x) (id x)) = id :=
    funext fun x => foldl_keeps (fun y => y = x) _ (fun _ _ h => h) s.cur.tids x rfl
  rw [List.nil_append, hid] at hm
  exact noteIssue_group _ hb hm rfl

/-- A cross-lane instruction arrives. -/
theorem crossExec_arrives {i : Instr} {s : State} (h : Unhindered i s) :
    ∃ t, crossExec i s = .next t ∧
      GroupStep (fun tid => { stampThread s.cur.cyc (s.thread s.cur.block tid) with
        st := .laneWait (threadGuard i s s.cur.block tid) i s.cur.len }) id s t :=
  laneExecBy_threads (fun tid th => { stampThread s.cur.cyc th with
      st := .laneWait (threadGuard i s s.cur.block tid) i s.cur.len }) h (fun _ _ _ => rfl) fun t m hc hth => by
    simp only [arriveLane, threadGuard, hc, hth]

/-! ### The set that fires -/

theorem arrivalOf_eq_some {th : Thread} {on : Bool} {i : Instr} {len : Nat} :
    arrivalOf th = some (on, i, len) ↔ th.st = .laneWait on i len := by
  unfold arrivalOf
  split
  · next h => simp [h]
  · next h => exact ⟨fun hc => absurd hc (by simp), fun hc => absurd hc (h on i len)⟩

theorem arrivalOf_isSome {th : Thread} :
    (arrivalOf th).isSome = true ↔ ∃ on i len, th.st = .laneWait on i len := by
  rw [Option.isSome_iff_exists]
  exact ⟨fun ⟨(on, i, len), h⟩ => ⟨on, i, len, arrivalOf_eq_some.1 h⟩,
    fun ⟨on, i, len, h⟩ => ⟨(on, i, len), arrivalOf_eq_some.2 h⟩⟩

/-- A home lane that is a thread. -/
theorem laneThread_eq_some {s : State} {b w lane : Nat} {th : Thread} (h : laneThread s b w lane = some th) :
    lane < (s.launchOf b).lanes ∧ w * (s.launchOf b).lanes + lane < (s.block b).threads.length ∧
      s.thread b (w * (s.launchOf b).lanes + lane) = th := by
  unfold laneThread at h
  split at h
  · next hl =>
    obtain ⟨hlt, -⟩ := List.getElem?_eq_some_iff.1 h
    exact ⟨hl, hlt, by rw [State.thread, List.getD_eq_getElem?_getD, h, Option.getD_some]⟩
  · exact absurd h (by simp)

theorem mem_arrivedLanes {s : State} {b w : Nat} {pc : DWord} {lane : Nat} :
    lane ∈ arrivedLanes s b w pc ↔
      ∃ y, laneThread s b w lane = some y ∧ (arrivalOf y).isSome = true ∧ y.pc = pc := by
  simp only [arrivedLanes, List.mem_filter, List.mem_range, Option.any_eq_true, Bool.and_eq_true, decide_eq_true_eq]
  exact ⟨fun h => h.2, fun ⟨y, hy, h⟩ => ⟨(laneThread_eq_some hy).1, y, hy, h⟩⟩

theorem alive_iff (th : Thread) : th.alive = true ↔ th.st ≠ .exited := by
  simp [Thread.alive]

/-- Every living member that a lane names is in the set. -/
theorem closedFor_iff {s : State} {b w : Nat} {set : List Nat} {lane : Nat} {y : Thread}
    (hy : laneThread s b w lane = some y) : closedFor s b w set lane = true ↔
      ∀ m ∈ namedLanes lane y, ∀ z, laneThread s b w m = some z → z.st ≠ .exited → m ∈ set := by
  simp only [closedFor, hy, List.all_eq_true, Bool.or_eq_true, Bool.not_eq_true', List.contains_iff_mem]
  refine forall₂_congr fun m _ => ?_
  cases laneThread s b w m with
  | none => simp
  | some z => simp [← alive_iff, or_iff_not_imp_right]

/-- A larger set holds the members that a smaller one holds. -/
theorem closedFor_mono {s : State} {b w : Nat} {set set' : List Nat} {lane : Nat} (hsub : set ⊆ set')
    (h : closedFor s b w set lane = true) : closedFor s b w set' lane = true := by
  cases hy : laneThread s b w lane with
  | none => simp [closedFor, hy] at h
  | some y =>
    rw [closedFor_iff hy] at h ⊢
    exact fun m hm z hz hx => hsub (h m hm z hz hx)

theorem shrink_sublist (s : State) (b w fuel : Nat) (set : List Nat) : (shrink s b w fuel set).Sublist set := by
  induction fuel generalizing set with
  | zero => exact .refl _
  | succ fuel ih => exact (ih _).trans List.filter_sublist

/-- What shrinks holds every closed set it began with. -/
theorem subset_shrink {s : State} {b w : Nat} (fuel : Nat) {good set : List Nat} (hsub : good ⊆ set)
    (hg : ∀ l ∈ good, closedFor s b w good l = true) : good ⊆ shrink s b w fuel set := by
  induction fuel generalizing set with
  | zero => exact hsub
  | succ fuel ih => exact ih fun l hl => List.mem_filter.2 ⟨hsub hl, closedFor_mono hsub (hg l hl)⟩

/-- With fuel for each of its lanes, what is left is closed. -/
theorem shrink_closed {s : State} {b w fuel : Nat} {set : List Nat} (h : set.length ≤ fuel) :
    ∀ l ∈ shrink s b w fuel set, closedFor s b w (shrink s b w fuel set) l = true := by
  induction fuel generalizing set with
  | zero =>
    rw [List.length_eq_zero_iff.1 (Nat.le_zero.1 h)]
    simp [shrink]
  | succ fuel ih =>
    by_cases hall : ∀ l ∈ set, closedFor s b w set l = true
    · have hsub := subset_shrink (fuel + 1) (List.Subset.refl set) hall
      exact fun l hl => closedFor_mono hsub (hall l ((shrink_sublist s b w _ set).subset hl))
    · refine ih (Nat.le_of_lt_succ (Nat.lt_of_lt_of_le ?_ h))
      exact List.length_filter_lt_length_iff_exists.2 (by simpa using hall)

theorem arrivedLanes_length_le (s : State) (b w : Nat) (pc : DWord) : (arrivedLanes s b w pc).length ≤ 32 :=
  (List.length_filter_le ..).trans (by rw [List.length_range]; exact Launch.lanes_le _)

theorem firedSet_subset (s : State) (b w : Nat) (pc : DWord) : firedSet s b w pc ⊆ arrivedLanes s b w pc :=
  (shrink_sublist ..).subset

theorem firedSet_nodup (s : State) (b w : Nat) (pc : DWord) : (firedSet s b w pc).Nodup :=
  (shrink_sublist ..).nodup (List.nodup_range.filter _)

/-- A set of lanes that have arrived at an address, each with its living members in the set. -/
def FiringSet (s : State) (b w : Nat) (pc : DWord) (set : List Nat) : Prop :=
  ∀ l ∈ set, ∃ y, laneThread s b w l = some y ∧ y.pc = pc ∧ (arrivalOf y).isSome = true ∧
    ∀ m ∈ namedLanes l y, ∀ z, laneThread s b w m = some z → z.st ≠ .exited → m ∈ set

theorem firingSet_firedSet (s : State) (b w : Nat) (pc : DWord) : FiringSet s b w pc (firedSet s b w pc) := by
  intro l hl
  obtain ⟨y, hy, harr, hpc⟩ := mem_arrivedLanes.1 (firedSet_subset s b w pc hl)
  exact ⟨y, hy, hpc, harr, (closedFor_iff hy).1 (shrink_closed (arrivedLanes_length_le s b w pc) l hl)⟩

/-- The fired set is the largest. -/
theorem FiringSet.subset_firedSet {s : State} {b w : Nat} {pc : DWord} {set : List Nat} (h : FiringSet s b w pc set) :
    set ⊆ firedSet s b w pc := by
  refine subset_shrink 32 (fun l hl => ?_) fun l hl => ?_
  · obtain ⟨y, hy, hpc, harr, -⟩ := h l hl
    exact mem_arrivedLanes.2 ⟨y, hy, harr, hpc⟩
  · obtain ⟨y, hy, -, -, hc⟩ := h l hl
    exact (closedFor_iff hy).2 hc

/-! ### The fired threads -/

/-- The values of a thread that completes. -/
def firedVals (s : State) (b w : Nat) (set : List Nat) (lane : Nat) (on : Bool) (i : Instr) (th : Thread) : Vals :=
  if on then
    (writeDst (fieldsOf i).1 (fieldsOf i).2 th.vals (crossResult s b w set i th lane).1
      (srcTaint (fieldsOf i).1 (fieldsOf i).2 th.vals || (crossResult s b w set i th lane).2.2)).setPred
      (fieldsOf i).1.re.toNat (crossResult s b w set i th lane).2.1
  else th.vals

/-- A thread of the fired set passes its instruction with what it receives. -/
theorem completeLane_waiting {s : State} {b w : Nat} {set : List Nat} {lane : Nat} {th : Thread} {on : Bool} {i : Instr}
    {len : Nat} (h : th.st = .laneWait on i len) :
    let r := completeLane s b w set lane th
    r.pc = th.pc + BitVec.ofNat 64 len ∧ r.st = .ready ∧ r.vals = firedVals s b w set lane on i th := by
  simp only [completeLane, arrivalOf_eq_some.2 h]
  cases on <;> exact ⟨rfl, rfl, rfl⟩

/-- The threads of the fired set complete, the others stay. -/
theorem exec_crossLaneFire (b w : Nat) (pc : DWord) (s : State) :
    ∃ t, exec (.crossLaneFire b w pc) s = .next t ∧ Reworked b s t ∧
      (∀ lane ∈ firedSet s b w pc, t.thread b (w * (s.launchOf b).lanes + lane) =
        completeLane s b w (firedSet s b w pc) lane (s.thread b (w * (s.launchOf b).lanes + lane))) ∧
      ∀ u, (∀ lane ∈ firedSet s b w pc, u ≠ w * (s.launchOf b).lanes + lane) → t.thread b u = s.thread b u := by
  let tidOf := fun lane => w * (s.launchOf b).lanes + lane
  let f := fun t => completeLane s b w (firedSet s b w pc) (t - w * (s.launchOf b).lanes)
  have hf : ∀ lane, f (tidOf lane) = completeLane s b w (firedSet s b w pc) lane := fun lane =>
    congrArg (completeLane s b w (firedSet s b w pc)) (Nat.add_sub_cancel_left ..)
  have hexec : exec (.crossLaneFire b w pc) s =
      .next (((firedSet s b w pc).map tidOf).foldl (fun m t => modThread b t (f t) m) s) := by
    rw [List.foldl_map]
    simp only [hf]
    rfl
  have hthread := fun u => thread_foldl_modThread (b := b) f u ((firedSet s b w pc).map tidOf) s
    ((firedSet_nodup s b w pc).map fun _ _ h => Nat.add_left_cancel h) fun t ht => by
      obtain ⟨lane, hl, rfl⟩ := List.mem_map.1 ht
      obtain ⟨y, hy, -⟩ := mem_arrivedLanes.1 (firedSet_subset s b w pc hl)
      exact .inl (laneThread_eq_some hy).2.1
  refine ⟨_, hexec, foldl_keeps (Reworked b s) _ (fun _ t h => h.modThread t _) _ s (.refl b s), fun lane hl => ?_,
    fun u hu => ?_⟩
  · rw [hthread, if_pos (List.mem_map_of_mem hl)]
    exact congrFun (hf lane) _
  · rw [hthread, if_neg fun hc => ?_]
    obtain ⟨lane, hl, rfl⟩ := List.mem_map.1 hc
    exact hu lane hl rfl

/-! ### What a lane names and contributes -/

theorem mem_namedLanes {y : Thread} {on : Bool} {i : Instr} {len lane m : Nat} (h : y.st = .laneWait on i len)
    (hl : lane < 32) : m ∈ namedLanes lane y ↔
      m = lane ∨ (on = true ∧ m < 32 ∧ (opd (fieldsOf i).1 (fieldsOf i).2 y.vals (maskPos i)).testBit m = true ∧
        (isQuad i = true → m / 4 = lane / 4)) := by
  simp only [namedLanes, arrivalOf_eq_some.2 h]
  cases on with
  | false => simp
  | true =>
    simp only [List.mem_filter, List.mem_range, Bool.or_eq_true, decide_eq_true_eq, Bool.and_eq_true, Bool.not_eq_true']
    have hquad : (isQuad i = false ∨ m / 4 = lane / 4) ↔ (isQuad i = true → m / 4 = lane / 4) := by
      cases isQuad i <;> simp
    rw [hquad]
    constructor
    · rintro ⟨hm, rfl | h⟩
      · exact .inl rfl
      · exact .inr ⟨trivial, hm, h⟩
    · rintro (rfl | ⟨-, hm, h⟩)
      · exact ⟨hl, .inl rfl⟩
      · exact ⟨hm, .inr h⟩

theorem self_mem_namedLanes {lane : Nat} (h : lane < 32) (y : Thread) : lane ∈ namedLanes lane y := by
  unfold namedLanes
  split
  · simp [h]
  · exact List.mem_singleton.2 rfl

theorem contribFor_self (s : State) (b w : Nat) (set : List Nat) (i : Instr) (y : Thread) (lane : Nat) (named : List Nat) :
    contribFor s b w set i y lane named lane = (laneSource y i, true, false) := if_pos rfl

theorem contribFor_notNamed {s : State} {b w : Nat} {set : List Nat} {i : Instr} {y : Thread} {lane m : Nat}
    {named : List Nat} (h : m ≠ lane) (hm : m ∉ named) : contribFor s b w set i y lane named m = (0, false, false) := by
  rw [contribFor, if_neg h, if_neg (by simpa using hm)]

theorem contribFor_named {s : State} {b w : Nat} {set : List Nat} {i : Instr} {y : Thread} {lane m : Nat}
    {named : List Nat} (h : m ≠ lane) (hm : m ∈ named) :
    contribFor s b w set i y lane named m = contrib s b w set i m := by
  rw [contribFor, if_neg h, if_pos (by simpa using hm)]

section
variable {s : State} {b w : Nat} {set : List Nat} {i : Instr} {m : Nat} {z : Thread}

theorem contrib_none (h : laneThread s b w m = none) : contrib s b w set i m = (0, false, false) := by
  simp only [contrib, h]

theorem arrivalOf_eq_none (h : ∀ on j len, z.st ≠ .laneWait on j len) : arrivalOf z = none := by
  unfold arrivalOf
  split
  · next h' => exact absurd h' (h _ _ _)
  · rfl

theorem exited_notArrived (h : z.st = .exited) (on : Bool) (j : Instr) (len : Nat) :
    z.st ≠ .laneWait on j len := by
  rw [h]
  exact TState.noConfusion

/-- A lane that has arrived gives its source, if it is of the set and its guard is true. -/
theorem contrib_arrived (h : laneThread s b w m = some z) {on : Bool} {j : Instr} {len : Nat}
    (hz : z.st = .laneWait on j len) : contrib s b w set i m =
      if m ∈ set ∧ on = true then (laneSource z j, true, srcTaint (fieldsOf j).1 (fieldsOf j).2 z.vals)
      else (0, false, false) := by
  simp only [contrib, h, arrivalOf_eq_some.2 hz]
  exact if_congr (by simp) rfl rfl

/-- A lane that is gone gives its register to an instruction of quads; any other that has not arrived is absent. -/
theorem contrib_notArrived (h : laneThread s b w m = some z) (hz : ∀ on j len, z.st ≠ .laneWait on j len) :
    contrib s b w set i m =
      if z.st = .exited ∧ isQuad i = true then
        (let r := z.vals.get (fieldsOf i).1.ra.toNat
         if r.av = .abandoned then (0, false, false) else (r.val.toNat, false, r.taint))
      else (0, false, false) := by
  simp only [contrib, h, arrivalOf_eq_none hz]
  exact if_congr (by simp) rfl rfl

end

/-! ### `SHFL`, `QBC`, `QXCH` -/

theorem crossResult_shfl (s : State) (b w : Nat) (set : List Nat) (f : EFields) (y : Thread) (lane : Nat) :
    crossResult s b w set (.shfl f) y lane =
      (shflSource f (s.launchOf b).lanes lane (opd f (shapeOf (.shfl f)) y.vals .rb)).elim (0, false, false)
        (contribFor s b w set (.shfl f) y lane (namedLanes lane y)) := by
  change (match shflSource f (s.launchOf b).lanes lane (opd f (shapeOf (.shfl f)) y.vals .rb) with
    | some m => contribFor s b w set (.shfl f) y lane (namedLanes lane y) m
    | none => (0, false, false)) = _
  cases shflSource f (s.launchOf b).lanes lane (opd f (shapeOf (.shfl f)) y.vals .rb) <;> rfl

theorem shflSource_idx {f : EFields} {n lane k : Nat} (h : f.mod.toNat % 4 = 0) :
    shflSource f n lane k = some (k % 32) := by
  simp only [shflSource, h]

theorem shflSource_up {f : EFields} {n lane k : Nat} (h : f.mod.toNat % 4 = 1) (hw : f.mod.getLsbD 2 = false) :
    shflSource f n lane k = if lane < k then none else some (lane - k) := by
  simp only [shflSource, h, hw, Bool.false_eq_true, if_false]

theorem shflSource_down {f : EFields} {n lane k : Nat} (h : f.mod.toNat % 4 = 2) (hw : f.mod.getLsbD 2 = false) :
    shflSource f n lane k = if 31 < lane + k then none else some (lane + k) := by
  simp only [shflSource, h, hw, Bool.false_eq_true, if_false]

/-- Up, wrapping: the lane from which `k` lanes further on is this one. -/
theorem shflSource_upWrap {f : EFields} {l : Launch} {lane k m : Nat} (h : f.mod.toNat % 4 = 1)
    (hw : f.mod.getLsbD 2 = true) (hm : m < l.lanes) (hk : (m + k) % l.lanes = lane) :
    shflSource f l.lanes lane k = some m := by
  simp only [shflSource, h, hw, if_true, Option.some.injEq]
  rcases l.lanes_cases with hl | hl <;> rw [hl] at hm hk ⊢ <;> omega

theorem shflSource_downWrap {f : EFields} {n lane k : Nat} (h : f.mod.toNat % 4 = 2) (hw : f.mod.getLsbD 2 = true) :
    shflSource f n lane k = some ((lane + k) % n) := by
  simp only [shflSource, h, hw, if_true, Nat.add_mod_mod]

theorem shflSource_xor {f : EFields} {n lane k : Nat} (h : f.mod.toNat % 4 = 3) :
    shflSource f n lane k = some (lane ^^^ (k % 32)) := by
  simp only [shflSource, h]

/-! ### `VOTE` -/

theorem crossResult_vote (s : State) (b w : Nat) (set : List Nat) (f : EFields) (y : Thread) (lane : Nat) :
    let from_ := contribFor s b w set (.vote f) y lane (namedLanes lane y)
    crossResult s b w set (.vote f) y lane =
      (voteOf f ((namedLanes lane y).map fun m => (m, (from_ m).1)),
        (namedLanes lane y).all fun m => (from_ m).2.1, false) :=
  Prod.ext (congrArg (voteOf f) List.map_map) (Prod.ext List.all_map rfl)

/-- A truth value as a number. -/
theorem toNat_holds {c : Bool} {p : Prop} (h : c = true ↔ p) : (c.toNat = 1 ∧ p) ∨ (c.toNat = 0 ∧ ¬p) := by
  cases c with
  | true => exact .inl ⟨rfl, h.1 rfl⟩
  | false => exact .inr ⟨rfl, fun hp => Bool.false_ne_true (h.2 hp)⟩

/-- The bits of a mask. -/
theorem testBit_maskOf (l : List Nat) (j : Nat) : (maskOf l).testBit j = true ↔ j ∈ l := by
  have h : ∀ (l : List Nat) (a : Nat),
      (l.foldl (fun m i => m ||| 2 ^ i) a).testBit j = true ↔ a.testBit j = true ∨ j ∈ l := by
    intro l
    induction l with
    | nil => simp
    | cons i r ih =>
      intro a
      rw [List.foldl_cons, ih, Nat.testBit_or, Nat.testBit_two_pow, List.mem_cons, Bool.or_eq_true, decide_eq_true_eq,
        or_assoc, eq_comm (a := i)]
  rw [maskOf, h, Nat.zero_testBit]
  simp

section
variable {f : EFields} (named : List Nat) (v : Nat → Nat)

theorem voteOf_all (h : f.mod.toNat % 4 = 0) :
    (voteOf f (named.map fun m => (m, v m)) = 1 ∧ ∀ m ∈ named, v m ≠ 0) ∨
    (voteOf f (named.map fun m => (m, v m)) = 0 ∧ ¬∀ m ∈ named, v m ≠ 0) := by
  simp only [voteOf, h]
  exact toNat_holds (by simp)

theorem voteOf_any (h : f.mod.toNat % 4 = 1) :
    (voteOf f (named.map fun m => (m, v m)) = 1 ∧ ∃ m ∈ named, v m ≠ 0) ∨
    (voteOf f (named.map fun m => (m, v m)) = 0 ∧ ¬∃ m ∈ named, v m ≠ 0) := by
  simp only [voteOf, h]
  exact toNat_holds (by simp)

theorem voteOf_equal (h : f.mod.toNat % 4 = 2) :
    (voteOf f (named.map fun m => (m, v m)) = 1 ∧ ∀ m ∈ named, ∀ m' ∈ named, v m = v m') ∨
    (voteOf f (named.map fun m => (m, v m)) = 0 ∧ ¬∀ m ∈ named, ∀ m' ∈ named, v m = v m') := by
  simp only [voteOf, h]
  refine toNat_holds ?_
  cases named with
  | nil => simp
  | cons a r =>
    have hall : (((a :: r).map fun m => (m, v m)).all fun c => decide (c.2 = v a)) = true ↔ ∀ m ∈ a :: r, v m = v a := by
      rw [List.all_map, List.all_eq_true]
      exact forall₂_congr fun m _ => decide_eq_true_iff
    refine hall.trans ⟨fun h m hm m' hm' => (h m hm).trans (h m' hm').symm, fun h m hm => h m hm a (List.mem_cons_self ..)⟩

theorem voteOf_ballot (h : f.mod.toNat % 4 = 3) (j : Nat) :
    (voteOf f (named.map fun m => (m, v m))).testBit j = true ↔ j ∈ named ∧ v j ≠ 0 := by
  simp only [voteOf, h, testBit_maskOf]
  simp

end

/-! ### `WRED` -/

theorem crossResult_wred (s : State) (b w : Nat) (set : List Nat) (f : EFields) (y : Thread) (lane : Nat) :
    let from_ := contribFor s b w set (.wred f) y lane (namedLanes lane y)
    crossResult s b w set (.wred f) y lane =
      (wredOf f ((namedLanes lane y).map fun m => (from_ m).1),
        (namedLanes lane y).all fun m => (from_ m).2.1, (namedLanes lane y).any fun m => (from_ m).2.2) :=
  Prod.ext (congrArg (wredOf f) List.map_map) (Prod.ext List.all_map List.any_map)

section
variable {f : EFields}

theorem wredOf_sum (h : fmtOf f = 0) (l : List Nat) : wredOf f l % 2 ^ 32 = l.sum % 2 ^ 32 := by
  cases l with
  | nil => rfl
  | cons a r =>
    simp only [wredOf, h, List.sum_cons]
    induction r generalizing a with
    | nil => simp
    | cons x r ih => rw [List.foldl_cons, ih, List.sum_cons, Nat.mod_add_mod, Nat.add_assoc]

/-- A fold that picks one of two picks one of all, and the pick bounds them all. -/
theorem foldl_pick {R : Nat → Nat → Prop} (hrefl : ∀ x, R x x) (htrans : ∀ x y z, R x y → R y z → R x z)
    {op : Nat → Nat → Nat} (hop : ∀ x y, (op x y = x ∨ op x y = y) ∧ R (op x y) x ∧ R (op x y) y) (r : List Nat)
    (a : Nat) :
    r.foldl op a ∈ a :: r ∧ ∀ z ∈ a :: r, R (r.foldl op a) z := by
  induction r generalizing a with
  | nil => simpa using hrefl a
  | cons x r ih =>
    obtain ⟨hpick, ha, hx⟩ := hop a x
    obtain ⟨hmem, hle⟩ := ih (op a x)
    have hall : ∀ z ∈ op a x :: r, z ∈ a :: x :: r := fun z hz => by
      rcases List.mem_cons.1 hz with rfl | hz
      · rcases hpick with h | h <;> simp [h]
      · simp [hz]
    refine ⟨hall _ hmem, fun z hz => ?_⟩
    have hself := hle _ (List.mem_cons_self ..)
    rcases List.mem_cons.1 hz with rfl | hz
    · exact htrans _ _ _ hself ha
    · rcases List.mem_cons.1 hz with rfl | hz
      · exact htrans _ _ _ hself hx
      · exact hle z (List.mem_cons_of_mem _ hz)

/-- The order of a minimum or maximum: of signed or of unsigned values. -/
def wredKey (f : EFields) (x : Nat) : Int := if f.mod.getLsbD 3 then sextN x 32 else (x : Int)

theorem wredOf_min (h : fmtOf f = 1) {l : List Nat} (hl : l ≠ []) :
    wredOf f l ∈ l ∧ ∀ z ∈ l, wredKey f (wredOf f l) ≤ wredKey f z := by
  obtain ⟨a, r, rfl⟩ := List.exists_cons_of_ne_nil hl
  simp only [wredOf, h]
  refine foldl_pick (R := fun x y => wredKey f x ≤ wredKey f y) (fun _ => le_refl _) (fun _ _ _ => le_trans)
    (fun x y => ?_) r a
  have hp : pickInt (f.mod.getLsbD 3) false x y = if wredKey f y ≤ wredKey f x then y else x := by
    simp [pickInt, wredKey]
  rw [hp]
  split
  · next hyx => exact ⟨.inr rfl, hyx, le_refl _⟩
  · next hyx => exact ⟨.inl rfl, le_refl _, by omega⟩

theorem wredOf_max (h : fmtOf f = 2) {l : List Nat} (hl : l ≠ []) :
    wredOf f l ∈ l ∧ ∀ z ∈ l, wredKey f z ≤ wredKey f (wredOf f l) := by
  obtain ⟨a, r, rfl⟩ := List.exists_cons_of_ne_nil hl
  simp only [wredOf, h]
  refine foldl_pick (R := fun x y => wredKey f y ≤ wredKey f x) (fun _ => le_refl _) (fun _ _ _ h h' => le_trans h' h)
    (fun x y => ?_) r a
  have hp : pickInt (f.mod.getLsbD 3) true x y = if wredKey f x ≤ wredKey f y then y else x := by
    simp [pickInt, wredKey]
  rw [hp]
  split
  · next hxy => exact ⟨.inr rfl, hxy, le_refl _⟩
  · next hxy => exact ⟨.inl rfl, le_refl _, by omega⟩

theorem wredOf_and (h : fmtOf f = 3) {l : List Nat} (hl : l ≠ []) (j : Nat) :
    (wredOf f l).testBit j = true ↔ ∀ z ∈ l, z.testBit j = true := by
  obtain ⟨a, r, rfl⟩ := List.exists_cons_of_ne_nil hl
  simp only [wredOf, h]
  induction r generalizing a with
  | nil => simp
  | cons x r ih => simp [ih (a &&& x) (by simp), and_assoc]

theorem wredOf_or (h : fmtOf f = 4) (l : List Nat) (j : Nat) :
    (wredOf f l).testBit j = true ↔ ∃ z ∈ l, z.testBit j = true := by
  cases l with
  | nil => simp [wredOf]
  | cons a r =>
    simp only [wredOf, h]
    induction r generalizing a with
    | nil => simp
    | cons x r ih => simp [ih (a ||| x), or_assoc]

theorem wredOf_xor (h : fmtOf f = 5) (l : List Nat) (j : Nat) :
    (wredOf f l).testBit j = decide ((l.filter fun z => z.testBit j).length % 2 = 1) := by
  cases l with
  | nil => simp [wredOf]
  | cons a r =>
    simp only [wredOf, h]
    induction r generalizing a with
    | nil => cases ha : a.testBit j <;> simp [ha]
    | cons x r ih =>
      rw [List.foldl_cons, ih]
      cases ha : a.testBit j <;> cases hx : x.testBit j <;> simp [ha, hx]
      omega

end

/-! ### What a lane receives -/

/-- What a lane contributes to another, by whether it is named and how it stands (02 R40, 20 R346). -/
theorem crossLane_contributes (s : State) (b w : Nat) (set : List Nat) (i : Instr) (y : Thread) (lane m : Nat) :
    let named := namedLanes lane y
    let c := contribFor s b w set i y lane named m
    (m = lane → c = (laneSource y i, true, false)) ∧ (m ≠ lane → m ∉ named → c = (0, false, false)) ∧
    (m ≠ lane → m ∈ named → (laneThread s b w m = none → c = (0, false, false)) ∧
      ∀ z, laneThread s b w m = some z →
        (∀ j len, z.st = .laneWait true j len → m ∈ set → c.1 = laneSource z j ∧ c.2.1 = true) ∧
        (∀ on j len, z.st = .laneWait on j len → on = false ∨ m ∉ set → c = (0, false, false)) ∧
        (z.st = .exited → isQuad i = false → c = (0, false, false)) ∧
        (z.st = .exited → isQuad i = true → c.2.1 = false ∧
          (let r := z.vals.get (fieldsOf i).1.ra.toNat
           c.1 = if r.av = .abandoned then 0 else r.val.toNat)) ∧
        (z.st ≠ .exited → (∀ on j len, z.st ≠ .laneWait on j len) → c = (0, false, false))) := by
  intro named c
  refine ⟨fun h => by subst h; exact contribFor_self .., fun h hm => contribFor_notNamed h hm, fun h hm => ?_⟩
  have hc : c = contrib s b w set i m := contribFor_named h hm
  rw [hc]
  refine ⟨contrib_none, fun z hz => ⟨fun j len hst hset => ?_, fun on j len hst hout => ?_, fun hx hq => ?_,
    fun hx hq => ?_, fun hx hst => ?_⟩⟩
  · rw [contrib_arrived hz hst, if_pos ⟨hset, rfl⟩]
    exact ⟨rfl, rfl⟩
  · rw [contrib_arrived hz hst, if_neg fun ⟨hset, hon⟩ => hout.elim (fun h => by simp [h] at hon) fun h => h hset]
  · rw [contrib_notArrived hz (exited_notArrived hx), if_neg fun h => by simp [hq] at h]
  · rw [contrib_notArrived hz (exited_notArrived hx), if_pos ⟨hx, hq⟩]
    dsimp only
    split <;> exact ⟨rfl, rfl⟩
  · rw [contrib_notArrived hz hst, if_neg fun h => hx h.1]

/-- `SHFL`, by the mode (20 R352). -/
theorem shfl_receives (s : State) (b w : Nat) (set : List Nat) (f : EFields) (y : Thread) (lane : Nat) :
    let n := (s.launchOf b).lanes
    let from_ := contribFor s b w set (.shfl f) y lane (namedLanes lane y)
    let get := crossResult s b w set (.shfl f) y lane
    let k := opd f (shapeOf (.shfl f)) y.vals .rb
    let mode := f.mod.toNat % 4
    (mode = 0 → get = from_ (k % 32)) ∧
    (mode = 1 → f.mod.getLsbD 2 = false → get = if lane < k then (0, false, false) else from_ (lane - k)) ∧
    (mode = 2 → f.mod.getLsbD 2 = false → get = if 31 < lane + k then (0, false, false) else from_ (lane + k)) ∧
    (mode = 1 → f.mod.getLsbD 2 = true → ∀ m, m < n → (m + k) % n = lane → get = from_ m) ∧
    (mode = 2 → f.mod.getLsbD 2 = true → get = from_ ((lane + k) % n)) ∧
    (mode = 3 → get = from_ (lane ^^^ (k % 32))) := by
  intro n from_ get k mode
  have hget : get = (shflSource f n lane k).elim (0, false, false) from_ := crossResult_shfl s b w set f y lane
  rw [hget]
  refine ⟨fun h => ?_, fun h hw => ?_, fun h hw => ?_, fun h hw m hm hk => ?_, fun h hw => ?_, fun h => ?_⟩
  · rw [shflSource_idx h]; rfl
  · rw [shflSource_up h hw]; split <;> rfl
  · rw [shflSource_down h hw]; split <;> rfl
  · rw [shflSource_upWrap h hw hm hk]; rfl
  · rw [shflSource_downWrap h hw]; rfl
  · rw [shflSource_xor h]; rfl

/-- `VOTE`, by the mode (20 R367). -/
theorem vote_receives (s : State) (b w : Nat) (set : List Nat) (f : EFields) (y : Thread) (lane : Nat) :
    let named := namedLanes lane y
    let from_ := contribFor s b w set (.vote f) y lane named
    let v := fun m => (from_ m).1
    let r := crossResult s b w set (.vote f) y lane
    let mode := f.mod.toNat % 4
    let holds := fun (p : Prop) => (r.1 = 1 ∧ p) ∨ (r.1 = 0 ∧ ¬p)
    (mode = 0 → holds (∀ m ∈ named, v m ≠ 0)) ∧ (mode = 1 → holds (∃ m ∈ named, v m ≠ 0)) ∧
    (mode = 2 → holds (∀ m ∈ named, ∀ m' ∈ named, v m = v m')) ∧
    (mode = 3 → ∀ m, r.1.testBit m = true ↔ m ∈ named ∧ v m ≠ 0) ∧
    (r.2.1 = true ↔ ∀ m ∈ named, (from_ m).2.1 = true) := by
  intro named from_ v r mode holds
  have hr : r = (voteOf f (named.map fun m => (m, v m)), named.all fun m => (from_ m).2.1, false) :=
    crossResult_vote s b w set f y lane
  simp only [holds, hr]
  exact ⟨voteOf_all named v, voteOf_any named v, voteOf_equal named v, voteOf_ballot named v, List.all_eq_true⟩

/-- `WRED`, by the operation (20 R368). -/
theorem wred_receives (s : State) (b w : Nat) (set : List Nat) (f : EFields) (y : Thread) {lane : Nat} (hl : lane < 32) :
    let named := namedLanes lane y
    let from_ := contribFor s b w set (.wred f) y lane named
    let v := fun m => (from_ m).1
    let r := crossResult s b w set (.wred f) y lane
    let key : Nat → Int := fun x => if f.mod.getLsbD 3 then sextN x 32 else (x : Int)
    (fmtOf f = 0 → r.1 % 2 ^ 32 = (named.map v).sum % 2 ^ 32) ∧
    (fmtOf f = 1 → (∃ m ∈ named, r.1 = v m) ∧ ∀ m ∈ named, key r.1 ≤ key (v m)) ∧
    (fmtOf f = 2 → (∃ m ∈ named, r.1 = v m) ∧ ∀ m ∈ named, key (v m) ≤ key r.1) ∧
    (fmtOf f = 3 → ∀ j, r.1.testBit j = true ↔ ∀ m ∈ named, (v m).testBit j = true) ∧
    (fmtOf f = 4 → ∀ j, r.1.testBit j = true ↔ ∃ m ∈ named, (v m).testBit j = true) ∧
    (fmtOf f = 5 → ∀ j, r.1.testBit j = decide ((named.filter fun m => (v m).testBit j).length % 2 = 1)) ∧
    (r.2.1 = true ↔ ∀ m ∈ named, (from_ m).2.1 = true) := by
  intro named from_ v r key
  have hr : r = (wredOf f (named.map v), named.all fun m => (from_ m).2.1, named.any fun m => (from_ m).2.2) :=
    crossResult_wred s b w set f y lane
  have hne : named.map v ≠ [] := List.ne_nil_of_mem (List.mem_map_of_mem (self_mem_namedLanes hl y))
  have hpick : (∃ m ∈ named, wredOf f (named.map v) = v m) ↔ wredOf f (named.map v) ∈ named.map v := by
    simp only [List.mem_map, eq_comm]
  rw [hr, hpick]
  refine ⟨fun h => wredOf_sum h _, fun h => ?_, fun h => ?_, fun h j => ?_, fun h j => ?_, fun h j => ?_, List.all_eq_true⟩
  · exact (wredOf_min h hne).imp_right fun hle m hm => hle _ (List.mem_map_of_mem hm)
  · exact (wredOf_max h hne).imp_right fun hle m hm => hle _ (List.mem_map_of_mem hm)
  · rw [wredOf_and h hne, List.forall_mem_map]
  · simp only [wredOf_or h, List.mem_map, exists_exists_and_eq_and]
  · rw [wredOf_xor h, List.filter_map, List.length_map]; rfl

/-- Settles O16: the arrival as a lane instruction; the fired set as what is left when the lanes whose members are missing have
been dropped; what each lane receives, instruction by instruction. -/
theorem crossLaneCompletes : Obligations.CrossLaneCompletes := by
  unfold Obligations.CrossLaneCompletes
  refine ⟨fun i s hi h => ?_, fun b w pc s _ _ => ?_,
    fun s b w pc => ⟨firingSet_firedSet s b w pc, fun set hset _ hl =>
      FiringSet.subset_firedSet hset hl⟩,
    fun y on i len lane m h hl => mem_namedLanes h hl, crossLane_contributes, fun s b w set f y lane hl => ?_⟩
  · obtain ⟨t, ht, hg⟩ := crossExec_arrives h
    have hexec : exec i s = crossExec i s := by
      rcases hi with ⟨f, rfl⟩ | ⟨f, rfl⟩ | ⟨f, rfl⟩ | ⟨f, rfl⟩ | ⟨f, rfl⟩ <;> rfl
    exact ⟨t, hexec.trans ht, hg.memory rfl, hg⟩
  · obtain ⟨t, ht, hframe, hfired, hothers⟩ := exec_crossLaneFire b w pc s
    refine ⟨t, ht, hframe.memory, fun lane hlane => ?_, hothers, hframe.others, hframe.rest⟩
    obtain ⟨y, hy, harr, hpc⟩ := mem_arrivedLanes.1 (firedSet_subset s b w pc hlane)
    obtain ⟨on, i, len, hst⟩ := arrivalOf_isSome.1 harr
    rw [← (laneThread_eq_some hy).2.2] at hst hpc
    obtain ⟨hpc', hst', hvals⟩ :=
      completeLane_waiting (s := s) (b := b) (w := w) (set := firedSet s b w pc) (lane := lane) hst
    rw [hfired lane hlane]
    exact ⟨on, i, len, hst, hpc'.trans (by rw [hpc]), hst', hvals⟩
  · intro n named from_ get k mode
    obtain ⟨h0, h1, h2, h3, h4, h5⟩ := shfl_receives s b w set f y lane
    exact ⟨h0, h1, h2, h3, h4, h5, rfl, rfl, vote_receives s b w set f y lane,
      wred_receives s b w set f y (Nat.lt_of_lt_of_le hl (Launch.lanes_le _))⟩

end Sys2Proof.Machine
end

section
/-!
PROOFS. Taking a turn: which turn of an agenda moves next, and the instruction that its step runs.
-/

namespace Sys2Proof.Machine

open Sys2Proof

/-! ### The turn that is picked -/

/-- With an agenda, the next turn is the one picked for its head. -/
theorem nextTurn_cons {s : State} {t : Turn} {rest : List Turn} (h : s.agenda = t :: rest) :
    nextTurn s = pickTurn s t rest := by
  simp only [nextTurn, h]

/-- An instruction to issue that comes before the head, and that no event of the cycle comes before. -/
theorem pickTurn_issueFirst {s : State} {t v : Turn} {rest : List Turn} (hi : issueFirst s t = some v)
    (he : eventBefore 1 s v (eventsOf rest) = none) : pickTurn s t rest = (v, t :: rest) := by
  simp only [pickTurn, hi, Option.getD_some, he]

/-- The head itself, where it is no event and nothing comes before it. -/
theorem pickTurn_head {s : State} {t : Turn} {rest : List Turn} (ht : ∀ x, t ≠ .event x)
    (hi : issueFirst s t = none) (he : eventBefore 1 s t (eventsOf rest) = none) : pickTurn s t rest = (t, rest) := by
  cases t with
  | event x => exact absurd rfl (ht x)
  | _ => simp only [pickTurn, hi, Option.getD_none, he]

/-- An event that none of the events of its cycle that do something comes before is the first of them. -/
theorem firstEvent_self {s : State} {fuel : Nat} {x : Instr} {l : List Instr}
    (h : ∀ y ∈ l, precedes s y x = true → changes s (.event y) = false) : firstEvent s fuel x l = x := by
  have hnone : (l.find? fun y => precedes s y x && changes s (.event y)) = none := by
    rw [List.find?_eq_none]
    intro y hy hxy
    obtain ⟨hp, hc⟩ := Bool.and_eq_true_iff.1 hxy
    exact absurd hc (by simp [h y hy hp])
  cases fuel with
  | zero => rfl
  | succ fuel => simp only [firstEvent, hnone]

/-- The event at the head, where nothing comes before it. -/
theorem pickTurn_event {s : State} {i : Instr} {rest : List Turn} (hi : issueFirst s (.event i) = none)
    (he : eventBefore 1 s (.event i) (eventsOf rest) = none)
    (hf : ∀ y ∈ eventsOf rest, precedes s y i = true → changes s (.event y) = false) :
    pickTurn s (.event i) rest = (.event i, rest) := by
  simp only [pickTurn, hi, Option.getD_none, he, firstEvent_self hf, List.erase_cons_head]

theorem dueBefore_fitas (s : State) (n : Nat) : dueBefore (.fitas n) s = none := by
  unfold dueBefore
  split <;> rfl

/-- No issue and no event comes before an instruction of a Fitas run. -/
theorem pickTurn_fitas (s : State) (n : Nat) (rest : List Turn) : pickTurn s (.fitas n) rest = (.fitas n, rest) := by
  refine pickTurn_head (fun _ => Turn.noConfusion) (by unfold issueFirst; split <;> rfl) ?_
  simp [eventBefore, dueBefore_fitas]

/-! ### The step of a turn -/

/-- Where nothing is due before it, the turn is taken with what is left of the agenda. -/
theorem step_of_nextTurn {s : State} {t : Turn} {rest : List Turn} (h : nextTurn s = (t, rest))
    (hd : dueBefore t s = none) : step s = takeTurn t { s with agenda := rest } := by
  simp only [step, h, hd]

theorem issueTurn_ok {s : State} {c u len : Nat} {x : WaveId} {pc : DWord} {i : Instr} (hs : slotOf s c u = some (x, pc))
    (hf : fetch s x.1 pc = .ok i len) :
    issueTurn c u s = exec i { noteSlot c u x pc s with cur := curOf s x pc len } := by
  simp only [issueTurn, hs, hf]

theorem fitasTurn_decoded {s : State} {n : Nat} {r : XRun} {i : Instr} (hr : s.runs[n]? = some r) (hfin : r.fin = none)
    (htaken : r.taken = false) (hw : s.plat.winter = .running) (hd : decodeX (r.insns.getD r.pc 0) = some i)
    (ho : (xNext r).fin ≠ some .over) : fitasTurn n s = exec i { s with cur := { s.cur with run := n } } := by
  have hlive : runLive s n = true := by simp [runLive, hr, hfin, htaken]
  have hget : s.runs.getD n default = r := by simp [List.getD_eq_getElem?_getD, hr]
  simp only [fitasTurn, hlive, hw, hget, hd, if_neg ho, decide_true, Bool.and_self, if_true]

theorem takeTurn_event {s : State} {i : Instr} (ht : i.isTorile = false) (hf : i.isFitas = false)
    (hp : powered i s = true) : takeTurn (.event i) s = exec i s := by
  simp [takeTurn, ht, hf, hp]

/-! ### The fetch of an instruction -/

theorem four_le_lenOf (w : Word) : 4 ≤ lenOf w := by
  unfold lenOf
  split <;> decide

/-- Bytes read in two parts. -/
theorem sysRead_add (s : State) (ctx va m n : Nat) :
    sysRead s ctx va (m + n) = sysRead s ctx va m ++ sysRead s ctx (va + m) n := by
  simp [sysRead, List.range_add, Function.comp_def, Nat.add_assoc]

/-- The fetch of an instruction of `len` bytes, of which no word faults and which decode. -/
theorem fetch_ok {s : State} {b : Nat} {pc : DWord} {i : Instr} {r : List Byte} {len : Nat}
    (hlen : len = lenOf (BitVec.ofNat 32 (leNat (sysRead s (s.launchOf b).ctx pc.toNat 4))))
    (hf : fetchFaults s (s.launchOf b) (len / 4) pc.toNat = none)
    (hd : decode (sysRead s (s.launchOf b).ctx pc.toNat len) = .ok i r) : fetch s b pc = .ok i len := by
  have h4 : 4 ≤ len := hlen ▸ four_le_lenOf _
  rw [show len / 4 = len / 4 - 1 + 1 by omega, fetchFaults, Option.or_eq_none_iff] at hf
  rw [show len = 4 + (len - 4) by omega, sysRead_add] at hd
  simp only [fetch, hf.1, ← hlen, hf.2, hd]

/-- Settles O57: the turn that is picked, by the kind of the agenda's head; then the step of that turn. -/
theorem stepRunsTheDecodedInstruction : Obligations.StepRunsTheDecodedInstruction := by
  unfold Obligations.StepRunsTheDecodedInstruction
  refine ⟨fun s c u rest ha hi he => ?_, fun s t v rest ha hi he => ?_, fun s c u rest x pc i len hn hd hs hf => ?_,
    fun s b pc i r hf hd => fetch_ok rfl hf hd, fun s n rest r i ha hr hfin htaken hw hd ho => ?_,
    fun s i rest ha hi he hf => ?_, fun s i rest hn hd ht hx hp => ?_⟩
  · rw [nextTurn_cons ha, pickTurn_head (fun _ => Turn.noConfusion) hi he]
  · rw [nextTurn_cons ha, pickTurn_issueFirst hi he]
  · exact (step_of_nextTurn hn hd).trans (issueTurn_ok hs hf)
  · exact (step_of_nextTurn ((nextTurn_cons ha).trans (pickTurn_fitas s n rest)) (dueBefore_fitas s n)).trans
      (fitasTurn_decoded hr hfin htaken hw hd ho)
  · rw [nextTurn_cons ha, pickTurn_event hi he hf]
  · exact (step_of_nextTurn hn hd).trans (takeTurn_event ht hx hp)

end Sys2Proof.Machine
end

section
/-!
PROOFS. The wave scheduler: its events change physical waves and sub-cores and nothing else; LEASE_HALVING halves the measured
lease of each resident wave.
-/

namespace Sys2Proof.Machine

open Sys2Proof

/-! ### The frame of the scheduler's moves -/

/-- Nothing of the machine has changed but physical waves and sub-cores. -/
structure Scheduled (s r : State) : Prop where
  rest : r = { s with blocks := r.blocks, cores := r.cores }
  blocks : ∀ b, ∃ w, r.block b = { s.block b with pwaves := w }
  cores : ∀ c, ∃ u, r.core c = { s.core c with subs := u }

theorem Scheduled.refl (s : State) : Scheduled s s := ⟨rfl, fun _ => ⟨_, rfl⟩, fun _ => ⟨_, rfl⟩⟩

theorem Scheduled.modPWave {s r : State} (h : Scheduled s r) (b w : Nat) (f : PWave → PWave) :
    Scheduled s (modPWave b w f r) := by
  obtain ⟨hr, hb, hc⟩ := h
  refine ⟨?_, fun c => ?_, hc⟩
  · rw [hr]; rfl
  · obtain ⟨pws, hp⟩ := hb c
    rw [block_modPWave, hp]
    split <;> exact ⟨_, rfl⟩

theorem core_modSub (core sub : Nat) (f : Sub → Sub) (s : State) (c : Nat) :
    (modSub core sub f s).core c =
      if c = core then { s.core c with subs := modAt f sub (s.core c).subs } else s.core c :=
  modAt_getD_fixed (by cases sub <;> rfl) core c s.cores

theorem Scheduled.modSub {s r : State} (h : Scheduled s r) (core sub : Nat) (f : Sub → Sub) :
    Scheduled s (modSub core sub f r) := by
  obtain ⟨hr, hb, hc⟩ := h
  refine ⟨?_, hb, fun c => ?_⟩
  · rw [hr]; rfl
  · obtain ⟨u, hu⟩ := hc c
    rw [core_modSub, hu]
    split <;> exact ⟨_, rfl⟩

/-- Memory reads as before. -/
theorem Scheduled.memory {s r : State} (h : Scheduled s r) : MemorySame s r := by
  obtain ⟨hr, hb, -⟩ := h
  refine ⟨newestByte_congr (by rw [hr]) (by rw [hr]), sysByte_congr (by rw [hr]) (by rw [hr]) (by rw [hr]),
    fun a => by rw [hr], fun b a => ?_⟩
  obtain ⟨w, hw⟩ := hb b
  rw [hw]

/-! ### Changes of a physical wave -/

theorem pwaveOf_modPWave_self {x : WaveId} {f : PWave → PWave} {s : State} (h : x.2 < (s.block x.1).pwaves.length) :
    pwaveOf (modPWave x.1 x.2 f s) x = f (pwaveOf s x) := by
  rw [pwaveOf, block_modPWave, if_pos rfl]
  exact modAt_getD_self f default _ _ h

theorem pwaveOf_modPWave_ne {x y : WaveId} (h : y ≠ x) (f : PWave → PWave) (s : State) :
    pwaveOf (modPWave x.1 x.2 f s) y = pwaveOf s y := by
  rw [pwaveOf, block_modPWave]
  split
  · next h1 => exact modAt_getD_ne f default _ _ _ fun h2 => h (Prod.ext h1 h2)
  · rfl

theorem pwaves_length_modPWave (x : WaveId) (f : PWave → PWave) (s : State) (b : Nat) :
    ((modPWave x.1 x.2 f s).block b).pwaves.length = (s.block b).pwaves.length := by
  rw [block_modPWave]
  split
  · exact modAt_length ..
  · rfl

@[simp] theorem pwaveOf_modSub (core sub : Nat) (f : Sub → Sub) (s : State) (x : WaveId) :
    pwaveOf (modSub core sub f s) x = pwaveOf s x := rfl

theorem activate_scheduled {s r : State} (h : Scheduled s r) (core sub : Nat) (x : WaveId) :
    Scheduled s (activate core sub x r) :=
  (h.modPWave ..).modSub ..

theorem pwaveOf_activate_self {core sub : Nat} {x : WaveId} {s : State} (h : x.2 < (s.block x.1).pwaves.length) :
    pwaveOf (activate core sub x s) x =
      { pwaveOf s x with active := true, actSeq := s.coreCycle core * 4 + sub, ll := 0 } := by
  rw [activate, pwaveOf_modSub]
  exact pwaveOf_modPWave_self h

theorem pwaveOf_activate_ne {x y : WaveId} (h : y ≠ x) (core sub : Nat) (s : State) :
    pwaveOf (activate core sub x s) y = pwaveOf s y := by
  rw [activate, pwaveOf_modSub]
  exact pwaveOf_modPWave_ne h _ _

theorem deactivate_scheduled {s r : State} (h : Scheduled s r) (x : WaveId) : Scheduled s (deactivate x r) := h.modPWave ..

theorem pwaves_length_deactivate (x : WaveId) (s : State) (b : Nat) :
    ((deactivate x s).block b).pwaves.length = (s.block b).pwaves.length := pwaves_length_modPWave x _ s b

/-! ### The waves that a scheduler names -/

/-- The waves of a sub-core belong to blocks placed on the core. -/
theorem core_of_mem_subWaves {s : State} {core sub : Nat} {x : WaveId} (h : x ∈ subWaves s core sub) :
    (s.block x.1).core = core := by
  simp only [subWaves, placedOn, List.mem_flatMap, List.mem_filter, List.mem_map, Bool.and_eq_true, decide_eq_true_eq] at h
  obtain ⟨b, ⟨-, -, hcore⟩, w, -, rfl⟩ := h
  exact hcore

theorem mem_of_head?_sortBy {α : Type} {le : α → α → Bool} {l : List α} {a : α} (h : (sortBy le l).head? = some a) : a ∈ l :=
  (sortBy_perm le l).mem_iff.1 (List.mem_of_head? h)

/-- A sorted list that is not empty has a head. -/
theorem exists_head?_sortBy {α : Type} (le : α → α → Bool) {l : List α} (h : l ≠ []) : ∃ a ∈ l, (sortBy le l).head? = some a := by
  have hne : sortBy le l ≠ [] := fun h0 => h (List.Perm.nil_eq (h0 ▸ sortBy_perm le l)).symm
  obtain ⟨a, r, har⟩ := List.exists_cons_of_ne_nil hne
  have ha : (sortBy le l).head? = some a := by rw [har, List.head?_cons]
  exact ⟨a, mem_of_head?_sortBy ha, ha⟩

/-- The wave that a swap takes out is a wave of the sub-core. -/
theorem core_of_swapOf {s : State} {core sub : Nat} {x y : WaveId} (h : swapOf s core sub = some (x, y)) :
    (s.block x.1).core = core := by
  unfold swapOf at h
  split at h
  · simp only [Option.bind_eq_some_iff, Option.map_eq_some_iff] at h
    obtain ⟨o, ho, i, -, hoi⟩ := h
    obtain ⟨rfl, rfl⟩ := Prod.ext_iff.1 hoi
    have hx := List.mem_of_mem_filter (mem_of_head?_sortBy ho)
    exact core_of_mem_subWaves (List.mem_of_mem_filter hx)
  · cases h

/-! ### Halving -/

theorem placedOn_nodup (s : State) (core : Nat) : (placedOn s core).Nodup := List.nodup_range.filter _

/-- A run of one change of distinct blocks that keeps the default. -/
theorem block_foldl_modBlock {f : Block → Block} (hf : f default = default) (l : List Nat) (s : State) (hn : l.Nodup) (b : Nat) :
    (l.foldl (fun s b => modBlock b f s) s).block b = if b ∈ l then f (s.block b) else s.block b := by
  induction l generalizing s with
  | nil => rfl
  | cons c l ih =>
    obtain ⟨hc, hn⟩ := List.nodup_cons.1 hn
    have hone : (modBlock c f s).block b = if b = c then f (s.block b) else s.block b := modAt_getD_fixed hf c b s.blocks
    rw [List.foldl_cons, ih _ hn, hone]
    by_cases hbc : b = c
    · subst hbc; simp [hc]
    · simp [hbc]

/-- Such a run leaves the rest of the machine. -/
theorem foldl_modBlock_rest (f : Block → Block) (l : List Nat) (s : State) :
    l.foldl (fun s b => modBlock b f s) s = { s with blocks := (l.foldl (fun s b => modBlock b f s) s).blocks } := by
  induction l generalizing s with
  | nil => rfl
  | cons c l ih => rw [List.foldl_cons, ih]; rfl

/-- The measured leases of the resident waves of a core are halved. -/
def halveWaves (k : Block) : Block := { k with waves := k.waves.map halveWave }

def halveLeases (core : Nat) (s : State) : State :=
  (placedOn s core).foldl (fun s b => modBlock b halveWaves s) s

theorem execLeaseHalving_due {core : Nat} {s : State} (h : halvingDue s core = true) :
    execLeaseHalving core s =
      .next (modCore core (fun c => { c with halved := (halveLeases core s).coreCycle core }) (halveLeases core s)) :=
  if_pos h

theorem block_halveLeases (core : Nat) (s : State) (b : Nat) :
    (halveLeases core s).block b = if b ∈ placedOn s core then halveWaves (s.block b) else s.block b :=
  block_foldl_modBlock rfl _ s (placedOn_nodup s core) b

theorem halveLeases_rest (core : Nat) (s : State) : halveLeases core s = { s with blocks := (halveLeases core s).blocks } :=
  foldl_modBlock_rest _ _ s

theorem halveLeases_memory (core : Nat) (s : State) : MemorySame s (halveLeases core s) := by
  have hr := halveLeases_rest core s
  refine ⟨newestByte_congr (by rw [hr]) (by rw [hr]), sysByte_congr (by rw [hr]) (by rw [hr]) (by rw [hr]),
    fun a => by rw [hr], fun b a => ?_⟩
  rw [block_halveLeases]
  split <;> rfl

theorem waves_halveWaves {k : Block} {w : Nat} (h : w < k.waves.length) :
    (halveWaves k).waves.getD w default = halveWave (k.waves.getD w default) := by
  simp [halveWaves, List.getD_eq_getElem?_getD, h]

/-! ### The events -/

theorem waveActivation_acts {core sub : Nat} {x : WaveId} {s : State} (hx : activationOf s core sub = some x) :
    exec (.waveActivation core sub) s = .next (activate core sub x s) := by
  show execWaveActivation core sub s = _
  rw [execWaveActivation, hx]

theorem waveSwap_acts {core sub : Nat} {x y : WaveId} {s : State} (h : swapOf s core sub = some (x, y)) :
    exec (.waveSwap core sub) s = .next (activate core sub y (deactivate x s)) := by
  show execWaveSwap core sub s = _
  rw [execWaveSwap, h]

/-- STARVATION_ADMISSION: the starved wave becomes active, after the youngest has left or none. -/
theorem starvationAdmission_acts {core sub : Nat} {x : WaveId} {s : State} (hx : starved s core sub = some x) :
    ∃ m, exec (.starvationAdmission core sub) s = .next (activate core sub x m) ∧
      (m = s ∨ ∃ y, youngest s core sub = some y ∧ m = deactivate y s) := by
  have hexec : exec (.starvationAdmission core sub) s = execStarvationAdmission core sub s := rfl
  rw [hexec, execStarvationAdmission, hx]
  dsimp only
  split
  · exact ⟨s, rfl, .inl rfl⟩
  · split
    · next y hy => exact ⟨_, rfl, .inr ⟨y, hy, rfl⟩⟩
    · exact ⟨s, rfl, .inl rfl⟩

/-- ISSUE_ROTATION: a ready active wave, other than the one that issued last, issues next. -/
theorem issueRotation_acts {core sub : Nat} {s : State} (h : rotationDue s core sub = true) :
    ∃ x ∈ readyActive s core sub, some x ≠ ((s.core core).subs.getD sub default).last ∧
      exec (.issueRotation core sub) s = .next (modSub core sub (fun u => { u with last := some x, consec := 0 }) s) := by
  have hexec : exec (.issueRotation core sub) s = execIssueRotation core sub s := rfl
  rw [hexec, execIssueRotation, if_pos h]
  dsimp only
  simp only [rotationDue, Bool.and_eq_true, List.any_eq_true, decide_eq_true_eq] at h
  obtain ⟨-, y, hy, hlast⟩ := h
  have hne := List.ne_nil_of_mem (List.mem_filter (p := fun x => some x ≠ ((s.core core).subs.getD sub default).last).2
    ⟨hy, decide_eq_true hlast⟩)
  obtain ⟨x, hx, hhead⟩ := exists_head?_sortBy _ hne
  obtain ⟨hready, hother⟩ := List.mem_filter.1 hx
  rw [hhead]
  exact ⟨x, hready, of_decide_eq_true hother, rfl⟩

theorem groupIssueLimit_acts {core sub : Nat} {x : WaveId} {s : State} (hx : groupLimitDue s core sub = some x) :
    exec (.groupIssueLimit core sub) s = .next (modPWave x.1 x.2
      (fun w => { w with cur := leastBy (groupStamp s x.1 x.2) (readyPcs s x.1 x.2), run := 0 }) s) := by
  show execGroupIssueLimit core sub s = _
  rw [execGroupIssueLimit, hx]

/-- Settles O33: each event by the wave that it names, as a change of physical waves and sub-cores; the halving block by block. -/
theorem schedulerActs : Obligations.SchedulerActs := by
  unfold Obligations.SchedulerActs
  refine ⟨?activation, ?swap, ?starvation, ?rotation, ?limit, ?halving⟩
  case activation =>
    intro core sub x s hx hb hw
    have hs := activate_scheduled (.refl s) core sub x
    exact ⟨_, waveActivation_acts hx, hs.memory, pwaveOf_activate_self hw, fun y hy => pwaveOf_activate_ne hy core sub s,
      ⟨hs.blocks, hs.cores⟩, hs.rest⟩
  case swap =>
    intro core sub x y s hxy hne hxb hyb hxw hyw
    have hs := activate_scheduled (deactivate_scheduled (.refl s) x) core sub y
    have hout : pwaveOf (deactivate x s) x = { pwaveOf s x with active := false, since := s.coreCycle core, ll := 0 } := by
      rw [← core_of_swapOf hxy]
      exact pwaveOf_modPWave_self hxw
    refine ⟨_, waveSwap_acts hxy, hs.memory, ?_, ?_, fun z hzx hzy => ?_, ⟨hs.blocks, hs.cores⟩, hs.rest⟩
    · rw [pwaveOf_activate_ne hne, hout]
    · rw [pwaveOf_activate_self (by rwa [pwaves_length_deactivate]), deactivate, pwaveOf_modPWave_ne hne.symm]
      rfl
    · rw [pwaveOf_activate_ne hzy]
      exact pwaveOf_modPWave_ne hzx _ _
  case starvation =>
    intro core sub x s hx hb hw
    obtain ⟨m, hexec, hm⟩ := starvationAdmission_acts hx
    have hm' : Scheduled s m ∧ x.2 < (m.block x.1).pwaves.length ∧
        ∀ y, some y ≠ youngest s core sub → pwaveOf m y = pwaveOf s y := by
      rcases hm with rfl | ⟨y, hy, rfl⟩
      · exact ⟨.refl _, hw, fun _ _ => rfl⟩
      · exact ⟨deactivate_scheduled (.refl s) y, by rwa [pwaves_length_deactivate],
          fun z hz => pwaveOf_modPWave_ne (fun h => hz (by rw [h, hy])) _ _⟩
    obtain ⟨hsm, hwm, hkept⟩ := hm'
    have hs := activate_scheduled hsm core sub x
    exact ⟨_, hexec, hs.memory, by rw [pwaveOf_activate_self hwm], fun y hy hyy => by rw [pwaveOf_activate_ne hy, hkept y hyy],
      ⟨hs.blocks, hs.cores⟩, hs.rest⟩
  case rotation =>
    intro core sub s hc hu h
    obtain ⟨x, hx, hlast, hexec⟩ := issueRotation_acts h
    have hs := (Scheduled.refl s).modSub core sub fun u => { u with last := some x, consec := 0 }
    refine ⟨_, x, hexec, hx, hlast, ?_, ⟨hs.blocks, hs.cores⟩, fun c hc' => ?_, rfl⟩
    · rw [core_modSub, if_pos rfl]
      exact modAt_getD_self _ default _ _ hu
    · rw [core_modSub, if_neg hc']
  case limit =>
    intro core sub x s hx hb hw
    have hs := (Scheduled.refl s).modPWave x.1 x.2
      fun w => { w with cur := leastBy (groupStamp s x.1 x.2) (readyPcs s x.1 x.2), run := 0 }
    exact ⟨_, groupIssueLimit_acts hx, hs.memory, pwaveOf_modPWave_self hw, fun y hy => pwaveOf_modPWave_ne hy _ _,
      ⟨hs.blocks, hs.cores⟩, rfl⟩
  case halving =>
    intro core s h hc
    have hrest := halveLeases_rest core s
    obtain ⟨hnew, hsys, hdev, hscr⟩ := halveLeases_memory core s
    refine ⟨_, execLeaseHalving_due h, ⟨hnew, hsys, hdev, hscr⟩, fun b hb w hw => ?_, fun b => ?_, fun b hb => ?_, ?_,
      fun c hcne => ?_, ?_⟩
    · rw [modCore_block_get, block_halveLeases, if_pos hb, waves_halveWaves hw]
      rfl
    · rw [modCore_block_get, block_halveLeases]
      split <;> exact ⟨_, rfl⟩
    · rw [modCore_block_get, block_halveLeases, if_neg hb]
    · rw [hrest]
      exact modAt_getD_self _ default core s.cores hc
    · rw [hrest]
      exact modAt_getD_ne _ default core c s.cores hcne
    · rw [hrest]
      rfl

end Sys2Proof.Machine
end

section
/-!
PROOFS. Placing and retiring blocks: BLOCK_PLACEMENT places each block of the span once, with its first acquire; what the acquire
changes beside the block's threads are floors and cache lines.
-/

namespace Sys2Proof.Machine

open Sys2Proof

/-! ### What an acquire leaves -/

/-- A fold whose steps leave all that a normal form shows. -/
theorem foldl_same {α β γ : Type} (view : α → γ) (f : α → β → α) (hf : ∀ a b, view (f a b) = view a) (l : List β) (a : α) :
    view (l.foldl f a) = view a := foldl_keeps (fun x => view x = view a) f (fun x b h => (hf x b).trans h) l a rfl

/-- The machine without its cache lines, its cores and its floors. -/
def State.noCaches (s : State) : State := { s with lines := [], cores := [], floors := [] }

theorem State.eq_of_noCaches {s t : State} (h : t.noCaches = s.noCaches) :
    t = { s with lines := t.lines, cores := t.cores, floors := t.floors } :=
  congrArg (fun x : State => { x with lines := t.lines, cores := t.cores, floors := t.floors }) h

theorem removeLines_noCaches (gone : Line → Bool) (s : State) : (removeLines gone s).noCaches = s.noCaches :=
  (foldl_same State.noCaches _ (fun m l => by split <;> rfl) _ _).trans rfl

theorem cacheAcquire_noCaches (b : Nat) (sc : Scope) (s : State) : (cacheAcquire b sc s).noCaches = s.noCaches :=
  removeLines_noCaches _ s

theorem raiseFloor_noCaches (b g x : Nat) (s : State) : (raiseFloor b g x s).noCaches = s.noCaches := by
  unfold raiseFloor setFloor
  split
  · split <;> rfl
  · rfl

theorem acquireFrom_noCaches (b : Nat) (k : Inst) (w : Nat) (s : State) : (acquireFrom b k w s).noCaches = s.noCaches :=
  foldl_same State.noCaches _ (fun m g => raiseFloor_noCaches b g _ m) _ s

/-- A thread whose accesses follow a step. -/
def orderThread (n : Nat) (th : Thread) : Thread := { th with orderPt := n }

/-- A block whose threads' accesses follow a step. -/
def orderAt (n : Nat) (k : Block) : Block := { k with threads := k.threads.map (orderThread n) }

/-- The first acquire of a block: its threads are ordered behind the step, the caches and the floors change. -/
def ordered (b : Nat) (s : State) : State := (tidsOf (s.block b)).foldl (fun s t => orderHere b t s) s

theorem firstAcquire_noCaches (b : Nat) (s : State) : (firstAcquire b s).noCaches = (ordered b s).noCaches := by
  have hcache : ∀ (c : Prop) [Decidable c] (m : State), (if c then cacheAcquire b .dev m else m).noCaches = m.noCaches := by
    intro c _ m
    split
    · exact cacheAcquire_noCaches b .dev m
    · rfl
  have hdone : ∀ (d : Option Nat) (m : State), (match d with
      | some w => acquireFrom b .dev w m
      | none => m).noCaches = m.noCaches := by
    intro d m
    cases d with
    | none => rfl
    | some w => exact acquireFrom_noCaches b .dev w m
  have hfrom : ∀ (d : Option (Nat × Nat × Nat)) (m : State), (match d with
      | some (b', t, op) => match relStep m b' t op .dev with
        | some w => acquireFrom b .dev w m
        | none => m
      | none => m).noCaches = m.noCaches := by
    intro d m
    cases d with
    | none => rfl
    | some e =>
      dsimp only
      split
      · exact acquireFrom_noCaches b .dev _ m
      · rfl
  unfold firstAcquire
  exact (hfrom _ _).trans ((hdone _ _).trans (hcache _ _))

/-! ### Ordering the threads of a block -/

theorem foldl_modAt_getElem? {α : Type} (f : α → α) (l : List Nat) (hn : l.Nodup) (a : List α) (m : Nat) :
    (l.foldl (fun a n => modAt f n a) a)[m]? = if m ∈ l then a[m]?.map f else a[m]? := by
  induction l generalizing a with
  | nil => rfl
  | cons n l ih =>
    obtain ⟨hnl, hn⟩ := List.nodup_cons.1 hn
    rw [List.foldl_cons, ih hn, modAt_getElem?]
    by_cases hmn : m = n
    · subst hmn; simp [hnl]
    · simp [hmn]

theorem foldl_modAt_range {α : Type} (f : α → α) (a : List α) :
    (List.range a.length).foldl (fun a n => modAt f n a) a = a.map f := by
  refine List.ext_getElem? fun m => ?_
  rw [foldl_modAt_getElem? f _ List.nodup_range, List.getElem?_map]
  split
  · rfl
  · next h => simp [List.getElem?_eq_none (Nat.le_of_not_lt fun hm => h (List.mem_range.2 hm))]

theorem block_foldl_modThread (b : Nat) (f : Thread → Thread) (l : List Nat) (s : State) (c : Nat) :
    (l.foldl (fun s t => modThread b t f s) s).block c =
      if c = b then { s.block c with threads := l.foldl (fun ths t => modAt f t ths) (s.block c).threads } else s.block c := by
  induction l generalizing s with
  | nil => rw [List.foldl_nil]; split <;> rfl
  | cons t l ih =>
    rw [List.foldl_cons, ih, block_modThread]
    split <;> rfl

theorem ordered_eq (b : Nat) (s : State) :
    ordered b s = (tidsOf (s.block b)).foldl (fun m t => modThread b t (orderThread s.now) m) s := by
  refine foldl_congr_of_keeps (fun m => m.now = s.now) (go' := fun m t => modThread b t (orderThread s.now) m)
    (fun m t h => ?_) (fun m t h => ?_) _ s rfl
  · exact h
  · unfold orderHere
    rw [h]
    rfl

theorem block_ordered (b : Nat) (s : State) (c : Nat) :
    (ordered b s).block c = if c = b then orderAt s.now (s.block b) else s.block c := by
  rw [ordered_eq, block_foldl_modThread]
  split
  · next h =>
    subst h
    rw [tidsOf, foldl_modAt_range]
    rfl
  · rfl

theorem ordered_rest (b : Nat) (s : State) : ordered b s = { s with blocks := (ordered b s).blocks } := by
  have h : ({ ordered b s with blocks := [] } : State) = { s with blocks := [] } := by
    rw [ordered_eq]
    exact foldl_same (fun m : State => { m with blocks := [] }) (fun m t => modThread b t (orderThread s.now) m)
      (fun _ _ => rfl) _ s
  exact congrArg (fun m : State => { m with blocks := (ordered b s).blocks }) h

/-! ### One block is placed -/

/-- Nothing of the machine has changed but blocks, cache lines, cores and floors. -/
def PlacesOnly (s m : State) : Prop :=
  m = { s with blocks := m.blocks, lines := m.lines, cores := m.cores, floors := m.floors }

theorem PlacesOnly.refl (s : State) : PlacesOnly s s := rfl

theorem PlacesOnly.firstAcquire {s m : State} (h : PlacesOnly s m) (b : Nat) : PlacesOnly s (firstAcquire b m) := by
  unfold PlacesOnly at *
  rw [State.eq_of_noCaches (firstAcquire_noCaches b m), ordered_rest b m, h]

theorem PlacesOnly.modBlock {s m : State} (h : PlacesOnly s m) (b : Nat) (f : Block → Block) : PlacesOnly s (modBlock b f m) := by
  unfold PlacesOnly at *
  rw [h]
  rfl

theorem block_firstAcquire (b : Nat) (s : State) (c : Nat) :
    (firstAcquire b s).block c = if c = b then orderAt s.now (s.block b) else s.block c := by
  rw [← block_ordered]
  have h := congrArg (fun m : State => m.block c) (firstAcquire_noCaches b s)
  exact h

/-- One block of a placement, at its place: core and f. -/
def placeOne (s : State) (e : Nat × Nat × Nat) : State :=
  firstAcquire e.1 (modBlock e.1 (placeBlock (s.launchOf e.1) e.2.1 (e.2.2 % 4) (s.coreCycle e.2.1)) s)

theorem PlacesOnly.placeOne {s m : State} (h : PlacesOnly s m) (e : Nat × Nat × Nat) : PlacesOnly s (placeOne m e) :=
  (h.modBlock ..).firstAcquire _

/-- A block as it stands after its placement. -/
def placedBlock (s : State) (e : Nat × Nat × Nat) : Block :=
  orderAt s.now (placeBlock (s.launchOf e.1) e.2.1 (e.2.2 % 4) (s.coreCycle e.2.1) (s.block e.1))

theorem block_placeOne_ne {c : Nat} {e : Nat × Nat × Nat} (h : c ≠ e.1) (m : State) : (placeOne m e).block c = m.block c := by
  rw [placeOne, block_firstAcquire, if_neg h, block_modBlock_ne _ _ _ _ h]

theorem block_placeOne_self {s m : State} {e : Nat × Nat × Nat} (hm : PlacesOnly s m) (hb : e.1 < m.blocks.length)
    (he : m.block e.1 = s.block e.1) : (placeOne m e).block e.1 = placedBlock s e := by
  have hl : m.launchOf e.1 = s.launchOf e.1 := by rw [State.launchOf, he, hm]; rfl
  have hc : m.coreCycle e.2.1 = s.coreCycle e.2.1 := by rw [hm]; rfl
  have hn : m.now = s.now := by rw [hm]
  rw [placeOne, block_firstAcquire, if_pos rfl, block_modBlock _ _ _ hb, hl, hc, he, modBlock_now, hn, placedBlock]

theorem firstAcquire_count (b : Nat) (s : State) : (firstAcquire b s).blocks.length = s.blocks.length := by
  have h := congrArg (fun m : State => m.blocks.length) (firstAcquire_noCaches b s)
  refine h.trans ?_
  rw [ordered_eq]
  exact foldl_same (fun m : State => m.blocks.length) _ (fun m t => modBlock_count ..) _ s

theorem placeOne_count (e : Nat × Nat × Nat) (m : State) : (placeOne m e).blocks.length = m.blocks.length := by
  rw [placeOne, firstAcquire_count, modBlock_count]

/-- The blocks of a placement: each stands placed, no other block changes. -/
theorem foldl_placeOne {s : State} (l : List (Nat × Nat × Nat)) {m : State} (hm : PlacesOnly s m) (hn : (l.map Prod.fst).Nodup)
    (hl : ∀ e ∈ l, e.1 < m.blocks.length ∧ m.block e.1 = s.block e.1) :
    PlacesOnly s (l.foldl placeOne m) ∧ (∀ e ∈ l, (l.foldl placeOne m).block e.1 = placedBlock s e) ∧
      ∀ c, c ∉ l.map Prod.fst → (l.foldl placeOne m).block c = m.block c := by
  induction l generalizing m with
  | nil => exact ⟨hm, by simp, fun _ _ => rfl⟩
  | cons e l ih =>
    rw [List.map_cons] at hn
    obtain ⟨hel, hn⟩ := List.nodup_cons.1 hn
    obtain ⟨hb, he⟩ := hl e (List.mem_cons_self ..)
    have hne : ∀ x ∈ l, x.1 ≠ e.1 := fun x hx h => hel (h ▸ List.mem_map_of_mem hx)
    obtain ⟨hrest, hin, hout⟩ := ih (hm.placeOne e) hn fun x hx => by
      rw [placeOne_count, block_placeOne_ne (hne x hx)]
      exact hl x (List.mem_cons_of_mem _ hx)
    refine ⟨hrest, fun x hx => ?_, fun c hc => ?_⟩
    · rcases List.mem_cons.1 hx with rfl | hx
      · rw [List.foldl_cons, hout _ hel, block_placeOne_self hm hb he]
      · exact hin x hx
    · rw [List.map_cons, List.mem_cons, not_or] at hc
      rw [List.foldl_cons, hout c hc.2, block_placeOne_ne hc.1]

theorem spanBlocks_nodup (s : State) (b : Nat) : (spanBlocks s b).Nodup := List.nodup_range.filter _

theorem lt_of_mem_spanBlocks {s : State} {b c : Nat} (h : c ∈ spanBlocks s b) : c < s.blocks.length :=
  List.mem_range.1 (List.mem_of_mem_filter h)

/-! ### One block changes -/

/-- An element of a list changed at one place is as before or changed. -/
theorem modAt_getD_or {α : Type} (f : α → α) (d : α) (n m : Nat) (l : List α) :
    (modAt f n l).getD m d = l.getD m d ∨ (modAt f n l).getD m d = f (l.getD m d) := by
  by_cases hm : m = n
  · subst hm
    by_cases hl : m < l.length
    · exact .inr (modAt_getD_self f d m l hl)
    · exact .inl (by rw [modAt_beyond _ _ _ (Nat.le_of_not_lt hl)])
  · exact .inl (modAt_getD_ne f d n m l hm)

/-- A change of a block that leaves its scratch alone changes no byte. -/
theorem modBlock_memory (b : Nat) {f : Block → Block} (hf : ∀ k, (f k).scratch = k.scratch) (s : State) :
    MemorySame s (modBlock b f s) := by
  refine ⟨newestByte_congr rfl rfl, sysByte_congr rfl rfl rfl, fun _ => rfl, fun c a => ?_⟩
  have hc : ((modBlock b f s).block c).scratch = (s.block c).scratch := by
    rcases modAt_getD_or f default b c s.blocks with h | h
    · exact congrArg Block.scratch h
    · exact (congrArg Block.scratch h).trans (hf _)
  rw [hc]

theorem retire_memory (b : Nat) (s : State) : MemorySame s (retire b s) := by
  have h := modBlock_memory b (f := fun k => { k with status := .retired }) (fun _ => rfl) s
  exact ⟨newestByte_congr rfl rfl, sysByte_congr rfl rfl rfl, fun _ => rfl, h.scratch⟩

/-- A retired block is one less in the spawn tree of its launch. -/
theorem launchOf_retire {b : Nat} {s : State} (hb : b < s.blocks.length) (hl : (s.block b).launch < s.launches.length) :
    (retire b s).launchOf b = { s.launchOf b with
      tree := (s.launchOf b).tree - 1, retired := (s.launchOf b).retired + 1,
      counts := (s.launchOf b).counts ++ [(s.block b).issues] } := by
  have hk : ((retire b s).block b).launch = (s.block b).launch := by
    rw [retire, modLaunch_block_get, block_modBlock _ _ _ hb]
  rw [State.launchOf, hk]
  exact modAt_getD_self _ default _ s.launches hl

/-- Settles O31: the placement block by block, over the span; the reservation and the retirement as changes of one block. -/
theorem blocksArePlacedAndRetire : Obligations.BlocksArePlacedAndRetire := by
  unfold Obligations.BlocksArePlacedAndRetire
  refine ⟨?placement, ?reservation, ?retirement⟩
  case placement =>
    intro b places s
    dsimp only
    intro hlen hhead hall hwinter hok hfit hres hturn
    have hfst : ((spanBlocks s b).zip places).map Prod.fst = spanBlocks s b := List.map_fst_zip (Nat.le_of_eq hlen)
    obtain ⟨hrest, hin, hout⟩ := foldl_placeOne ((spanBlocks s b).zip places) (PlacesOnly.refl s) (by rw [hfst]; exact spanBlocks_nodup s b)
      fun e he => ⟨lt_of_mem_spanBlocks (List.of_mem_zip he).1, rfl⟩
    have hexec : exec (.blockPlacement b places) s = .next (trimSpawn (((spanBlocks s b).zip places).foldl placeOne s)).tickNow :=
      if_pos (by
        rw [hhead, hall, hok, hfit, hres, hturn, hwinter]
        simp [hlen])
    refine ⟨_, hexec, ?_, hin, fun c hc => hout c (by rwa [hfst]), ?_⟩
    · rw [hrest]
      rfl
    · exact newestByte_congr (by rw [hrest]; rfl) (by rw [hrest]; rfl)
  case reservation =>
    intro b s hb hlong
    have hmem := modBlock_memory b (f := fun k => { k with offered := offerFor s b }) (fun _ => rfl) s
    exact ⟨_, if_pos hlong, hmem, block_modBlock b _ s hb, fun c => block_modBlock_ne b c _ s, rfl⟩
  case retirement =>
    intro b s hb hl hmay
    have hlaunch := launchOf_retire hb hl
    exact ⟨_, if_pos hmay, retire_memory b s, block_modBlock b _ s hb, fun c => block_modBlock_ne b c _ s,
      by rw [hlaunch], by rw [hlaunch], rfl⟩

end Sys2Proof.Machine
end

section
/-!
PROOFS. SPAWN: the lanes of the group one after another, each of which adds its blocks to the launch and its entry to the die's
queue; then the queue that is full.
-/

namespace Sys2Proof.Machine

open Sys2Proof

/-! ### The lanes of a group one after another, none of which faults or waits -/

/-- A thread passes the instruction. -/
def passLane (b : Nat) (s : State) (t : Nat) : State :=
  modThread b t (fun th => stampThread s.cur.cyc (advancePc s.cur.len th)) s

/-- One lane of a sequential instruction, after what its predecessors left: state, faults, whether one waits. -/
def laneTurn (i : Instr) (stop : Bool) (one : Nat → Nat → State → Option (Nat × Nat) × State) (b : Nat)
    (a : State × List (Nat × Nat × Nat) × Bool) (t : Nat) : State × List (Nat × Nat × Nat) × Bool :=
  if stop && (a.2.1 ≠ [] || a.2.2) then a
  else if !threadGuard i a.1 b t then (passLane b a.1 t, a.2)
  else if threadNotReady i a.1 b t then (a.1, a.2.1 ++ [(t, 0x08, 0)], a.2.2)
  else if threadWaits i a.1 b [t] t then (a.1, a.2.1, a.2.2 || stop)
  else match one b t a.1 with
    | (none, s') => (passLane b s' t, a.2)
    | (some p, s') => (s', a.2.1 ++ [(t, p.1, p.2)], a.2.2)

/-- The lanes of a sequential instruction that are judged. -/
def laneQueue (i : Instr) (s : State) : List Nat :=
  s.cur.tids.filter fun t => threadGuard i s s.cur.block t && threadNotReady i s s.cur.block t ||
    !threadWaits i s s.cur.block s.cur.tids t

theorem seqExec_turns {i : Instr} {stop : Bool} {one : Nat → Nat → State → Option (Nat × Nat) × State} {s m : State}
    (hr : rangeOk (fieldsOf i).1 (fieldsOf i).2 (s.launchOf s.cur.block).regs = true) (hq : laneQueue i s ≠ [])
    (hm : (laneQueue i s).foldl (laneTurn i stop one s.cur.block) (s, [], false) = (m, [], false)) :
    seqExec i stop one s = .next (noteIssue (fieldsOf i).1.yld m) := by
  have heq : seqExec i stop one s =
      if !rangeOk (fieldsOf i).1 (fieldsOf i).2 (s.launchOf s.cur.block).regs then
        .next (raiseCause s.cur.block 0x02 s.cur.tids s.cur.pc 0 s)
      else if laneQueue i s = [] then .next s
      else
        let r := (laneQueue i s).foldl (laneTurn i stop one s.cur.block) (s, [], false)
        .next (if r.2.1 = [] then noteIssue (fieldsOf i).1.yld r.1
          else raiseFaults s.cur.block s.cur.pc r.2.1 (noteIssue (fieldsOf i).1.yld r.1)) := rfl
  rw [heq, hr, if_neg (by decide), if_neg hq, hm]
  rfl

/-- A fold over the lanes whose steps record neither a fault nor a wait keeps what each step keeps. -/
theorem foldl_lanes {F : State × List (Nat × Nat × Nat) × Bool → Nat → State × List (Nat × Nat × Nat) × Bool}
    {P : List Nat → State → Prop} {l : List Nat}
    (hF : ∀ done t rest m, l = done ++ t :: rest → P done m → ∃ m', F (m, [], false) t = (m', [], false) ∧ P (done ++ [t]) m')
    (rest done : List Nat) {m : State} (hm : P done m) (hl : l = done ++ rest) :
    ∃ m', rest.foldl F (m, [], false) = (m', [], false) ∧ P l m' := by
  induction rest generalizing done m with
  | nil => exact ⟨m, rfl, by rwa [hl, List.append_nil]⟩
  | cons t rest ih =>
    obtain ⟨m1, hm1, hP⟩ := hF done t rest m hl hm
    obtain ⟨m', hm', hP'⟩ := ih (done ++ [t]) hP (by rw [hl, List.append_assoc]; rfl)
    exact ⟨m', by rw [List.foldl_cons, hm1, hm'], hP'⟩

/-- A lane of a sequential instruction goes on: past it with a false guard, else with what the instruction does. -/
def LaneGoes (i : Instr) (one : Nat → Nat → State → Option (Nat × Nat) × State) (b t : Nat) (m m' : State) : Prop :=
  (threadGuard i m b t = false ∧ m' = passLane b m t) ∨
  (threadGuard i m b t = true ∧ threadNotReady i m b t = false ∧ threadWaits i m b [t] t = false ∧
    ∃ x, one b t m = (none, x) ∧ m' = passLane b x t)

theorem laneTurn_goes {i : Instr} {stop : Bool} {one : Nat → Nat → State → Option (Nat × Nat) × State} {b t : Nat} {m m' : State}
    (h : LaneGoes i one b t m m') : laneTurn i stop one b (m, [], false) t = (m', [], false) := by
  rcases h with ⟨hg, rfl⟩ | ⟨hg, hr, hw, x, hx, rfl⟩
  · simp [laneTurn, hg]
  · simp [laneTurn, hg, hr, hw, hx]

/-- THE SEQUENTIAL EXECUTION, unhindered and without a fault: every lane goes on, on what its predecessors left. -/
theorem seqExec_next {i : Instr} {stop : Bool} {one : Nat → Nat → State → Option (Nat × Nat) × State} {s : State}
    {P : List Nat → State → Prop} (h : Unhindered i s) (h0 : P [] s)
    (hstep : ∀ done t rest m, s.cur.tids = done ++ t :: rest → P done m →
      ∃ m', LaneGoes i one s.cur.block t m m' ∧ P (done ++ [t]) m') :
    ∃ m, seqExec i stop one s = .next (noteIssue (fieldsOf i).1.yld m) ∧ P s.cur.tids m := by
  have hq : laneQueue i s = s.cur.tids := by
    refine List.filter_eq_self.2 fun t ht => ?_
    rw [List.filter_eq_self.1 (waits_none h) t ht, Bool.or_true]
  obtain ⟨m, hm, hP⟩ := foldl_lanes (F := laneTurn i stop one s.cur.block) (fun done t rest m hl hm => by
    obtain ⟨m', hgo, hP⟩ := hstep done t rest m hl hm
    exact ⟨m', laneTurn_goes hgo, hP⟩) s.cur.tids [] h0 rfl
  exact ⟨m, seqExec_turns h.2.1 (by rw [hq]; exact h.1.2.1) (by rw [hq, hm]), hP⟩

/-! ### What the lanes of SPAWN leave -/

/-- While SPAWN runs: `th` is what its block's threads have become, `k` blocks have been added, at most `e` entries have come to
the queue of the die. -/
structure Spawning (s : State) (th : Nat → Thread) (k e : Nat) (m : State) : Prop where
  rest : m = { s with blocks := m.blocks, launches := m.launches, dies := m.dies }
  count : m.blocks.length = s.blocks.length + k
  others : ∀ c, c ≠ s.cur.block → c < s.blocks.length → m.block c = s.block c
  scratch : ∀ c, (m.block c).scratch = (s.block c).scratch
  launch : (m.block s.cur.block).launch = (s.block s.cur.block).launch
  core : (m.block s.cur.block).core = (s.block s.cur.block).core
  length : (m.block s.cur.block).threads.length = (s.block s.cur.block).threads.length
  launches : m.launches.length = s.launches.length
  grown : m.launchOf s.cur.block =
    { s.launchOf s.cur.block with next := (s.launchOf s.cur.block).next + k, tree := (s.launchOf s.cur.block).tree + k }
  queue : (m.die ((s.block s.cur.block).core / 40)).spawnQ.length ≤ (s.die ((s.block s.cur.block).core / 40)).spawnQ.length + e
  threads : ∀ t, m.thread s.cur.block t = th t

theorem Spawning.start (s : State) : Spawning s (s.thread s.cur.block) 0 0 s where
  rest := rfl
  count := rfl
  others _ _ _ := rfl
  scratch _ := rfl
  launch := rfl
  core := rfl
  length := rfl
  launches := rfl
  grown := rfl
  queue := Nat.le_refl _
  threads _ := rfl

/-- A change of one thread of the block, and of other parts of the block than its launch, its core and its scratch. -/
theorem Spawning.modBlock {s m : State} {th : Nat → Thread} {k e t : Nat} (h : Spawning s th k e m)
    (hb : s.cur.block < s.blocks.length) (ht : t < (s.block s.cur.block).threads.length) {g : Block → Block}
    {f : Thread → Thread} (hg : ∀ x, (g x).launch = x.launch ∧ (g x).core = x.core ∧ (g x).scratch = x.scratch ∧
      (g x).threads = modAt f t x.threads) :
    Spawning s (Function.update th t (f (th t))) k e (modBlock s.cur.block g m) := by
  obtain ⟨hrest, hcount, hothers, hscratch, hlaunch, hcore, hlength, hlaunches, hgrown, hqueue, hthreads⟩ := h
  have hself : (Machine.modBlock s.cur.block g m).block s.cur.block = g (m.block s.cur.block) :=
    block_modBlock _ _ _ (by omega)
  obtain ⟨hgl, hgc, hgs, hgt⟩ := hg (m.block s.cur.block)
  refine ⟨?_, (modBlock_count ..).trans hcount, fun c hc hlt => ?_, fun c => ?_, ?_, ?_, ?_, hlaunches, ?_, hqueue, fun u => ?_⟩
  · rw [hrest]; rfl
  · rw [block_modBlock_ne _ _ _ _ hc, hothers c hc hlt]
  · by_cases hc : c = s.cur.block
    · rw [hc, hself, hgs, hscratch]
    · rw [block_modBlock_ne _ _ _ _ hc, hscratch]
  · rw [hself, hgl, hlaunch]
  · rw [hself, hgc, hcore]
  · rw [hself, hgt, modAt_length, hlength]
  · rw [State.launchOf, hself, hgl]
    exact hgrown
  · rw [State.thread, hself, hgt]
    by_cases hu : u = t
    · subst hu
      rw [Function.update_self, modAt_getD_self _ _ _ _ (by omega), ← hthreads u]
      rfl
    · rw [Function.update_of_ne hu, modAt_getD_ne _ _ _ _ _ hu, ← hthreads u]
      rfl

theorem modAt_id {α : Type} (n : Nat) (l : List α) : modAt id n l = l := by
  refine List.ext_getElem? fun m => ?_
  rw [modAt_getElem?]
  split <;> simp

/-- The bookkeeping of the issue changes no thread. -/
theorem Spawning.noteIssue {s m : State} {th : Nat → Thread} {k e t : Nat} (h : Spawning s th k e m)
    (hb : s.cur.block < s.blocks.length) (ht : t < (s.block s.cur.block).threads.length) (yld : Bool) :
    Spawning s th k e (noteIssue yld m) := by
  have hcur : m.cur = s.cur := by rw [h.rest]
  unfold Machine.noteIssue
  rw [hcur]
  refine (Function.update_eq_self t th) ▸ h.modBlock hb ht (f := id) fun x => ⟨rfl, rfl, rfl, (modAt_id t x.threads).symm⟩

/-- Memory reads as before. -/
theorem Spawning.memory {s m : State} {th : Nat → Thread} {k e : Nat} (h : Spawning s th k e m) : MemorySame s m := by
  have hr := h.rest
  exact ⟨newestByte_congr (by rw [hr]) (by rw [hr]), sysByte_congr (by rw [hr]) (by rw [hr]) (by rw [hr]),
    fun a => by rw [hr], fun c a => by rw [h.scratch c]⟩

/-- New blocks of a launch stand behind those that there are. -/
def addBlocks (l n : Nat) (new : List Block) (s : State) : State :=
  let s := modLaunch l (fun x => { x with next := x.next + n, tree := x.tree + n }) s
  { s with blocks := s.blocks ++ new }

theorem block_addBlocks_lt {c : Nat} {s : State} (h : c < s.blocks.length) (l n : Nat) (new : List Block) :
    (addBlocks l n new s).block c = s.block c := by
  simp only [State.block, addBlocks, modLaunch_blocks, List.getD_eq_getElem?_getD, List.getElem?_append_left h]

theorem scratch_addBlocks (l n : Nat) {new : List Block} (hnew : ∀ k ∈ new, k.scratch = []) (s : State) (c : Nat) :
    ((addBlocks l n new s).block c).scratch = (s.block c).scratch := by
  by_cases hc : c < s.blocks.length
  · rw [block_addBlocks_lt hc]
  · have hs : s.block c = default := List.getD_eq_default _ _ (Nat.le_of_not_lt hc)
    have ha : (addBlocks l n new s).block c = new.getD (c - s.blocks.length) default := by
      simp only [State.block, addBlocks, modLaunch_blocks, List.getD_eq_getElem?_getD,
        List.getElem?_append_right (Nat.le_of_not_lt hc)]
    rw [hs, ha]
    by_cases hn : c - s.blocks.length < new.length
    · exact hnew _ (by rw [List.getD_eq_getElem _ _ hn]; exact List.getElem_mem hn)
    · rw [List.getD_eq_default _ _ (Nat.le_of_not_lt hn)]

/-- The entry goes to a queue with room. -/
theorem enqueueSpawn_room {d : Nat} {e : SpawnEntry} {s : State} (h : (s.die d).spawnQ.length < 4096) :
    enqueueSpawn d e s = modDie d (fun x => { x with spawnQ := x.spawnQ ++ [e] }) s := if_pos h

theorem spawnQ_length_add (d : Nat) (e : SpawnEntry) (s : State) :
    ((modDie d (fun x => { x with spawnQ := x.spawnQ ++ [e] }) s).die d).spawnQ.length ≤ (s.die d).spawnQ.length + 1 := by
  rcases modAt_getD_or (fun x : Die => { x with spawnQ := x.spawnQ ++ [e] }) default d d s.dies with h | h
  · exact (congrArg (fun x : Die => x.spawnQ.length) h).trans_le (Nat.le_succ _)
  · exact (congrArg (fun x : Die => x.spawnQ.length) h).trans_le (by simp [State.die])

/-- Of a queue that is full the oldest entry that goes to its spill area makes room. -/
theorem spawnQ_enqueueSpawn_full {d : Nat} {e x : SpawnEntry} {s : State} (hfull : 4096 ≤ (s.die d).spawnQ.length)
    (hd : d < s.dies.length) (hx : (s.die d).spawnQ.find? (spills s) = some x) :
    ((enqueueSpawn d e s).die d).spawnQ = (s.die d).spawnQ.erase x ++ [e] := by
  have h : enqueueSpawn d e s = modDie d (fun y => { y with spawnQ := y.spawnQ.erase x ++ [e] })
      (modCtx (s.launch x.launch).ctx (fun c => { c with spill := c.spill ++ [x] }) s) := by
    unfold enqueueSpawn
    rw [if_neg (by omega), hx]
  rw [h]
  exact congrArg Die.spawnQ (modAt_getD_self _ default d s.dies hd)

/-- The blocks that a lane asks for come to the launch, and their entry to the queue of the die. -/
theorem Spawning.grow {s m : State} {th : Nat → Thread} {k e : Nat} (h : Spawning s th k e m)
    (hb : s.cur.block < s.blocks.length) (hl : (s.block s.cur.block).launch < s.launches.length)
    (hroom : (s.die ((s.block s.cur.block).core / 40)).spawnQ.length + e < 4096) {new : List Block}
    (hnew : ∀ x ∈ new, x.scratch = []) (x : SpawnEntry) :
    Spawning s th (k + new.length) (e + 1) (enqueueSpawn ((s.block s.cur.block).core / 40) x
      (addBlocks (s.block s.cur.block).launch new.length new m)) := by
  obtain ⟨hrest, hcount, hothers, hscratch, hlaunch, hcore, hlength, hlaunches, hgrown, hqueue, hthreads⟩ := h
  have hroom' : (m.die ((s.block s.cur.block).core / 40)).spawnQ.length < 4096 := by omega
  rw [enqueueSpawn_room (s := addBlocks _ _ new m) hroom']
  have hself := block_addBlocks_lt (s := m) (c := s.cur.block) (by omega) (s.block s.cur.block).launch new.length new
  refine ⟨?_, ?_, fun c hc hlt => ?_, fun c => ?_, ?_, ?_, ?_, ?_, ?_, ?_, fun t => ?_⟩
  · rw [hrest]; rfl
  · rw [modDie_blocks]
    simp [addBlocks, hcount, Nat.add_assoc]
  · rw [modDie_block_get, block_addBlocks_lt (by omega), hothers c hc hlt]
  · rw [modDie_block_get, scratch_addBlocks _ _ hnew, hscratch]
  · rw [modDie_block_get, hself, hlaunch]
  · rw [modDie_block_get, hself, hcore]
  · rw [modDie_block_get, hself, hlength]
  · exact (modAt_length ..).trans hlaunches
  · have hlo : (addBlocks (s.block s.cur.block).launch new.length new m).launchOf s.cur.block =
        { m.launchOf s.cur.block with
          next := (m.launchOf s.cur.block).next + new.length, tree := (m.launchOf s.cur.block).tree + new.length } := by
      rw [State.launchOf, State.launchOf, hself, hlaunch]
      exact modAt_getD_self _ default _ m.launches (by omega)
    rw [modDie_launchOf_get, hlo, hgrown]
    simp only [Nat.add_assoc]
  · have hq := spawnQ_length_add ((s.block s.cur.block).core / 40) x (addBlocks (s.block s.cur.block).launch new.length new m)
    have hm : (addBlocks (s.block s.cur.block).launch new.length new m).die ((s.block s.cur.block).core / 40) =
        m.die ((s.block s.cur.block).core / 40) := rfl
    rw [hm] at hq
    omega
  · rw [modDie_thread_get, State.thread, hself, ← hthreads t]
    rfl

/-! ### One lane of SPAWN -/

/-- The blocks that a thread asks for, and the threads of each. -/
def spawnCount (f : EFields) (th : Thread) : Nat := opd f (shapeOf (.spawn f)) th.vals .ra
def spawnThreads (f : EFields) (th : Thread) : Nat := opd f (shapeOf (.spawn f)) th.vals .rb

/-- The destination takes the index of the first new block. -/
def spawnPut (f : EFields) (next : Nat) : Thread → Thread :=
  onLanes fun v => writeDst f (shapeOf (.spawn f)) v next (srcTaint f (shapeOf (.spawn f)) v)

theorem spawnOne_none {f : EFields} {b t : Nat} {m : State} (h : spawnCount f (m.thread b t) = 0) :
    spawnOne f b t m = (none, modThread b t (spawnPut f (m.launchOf b).next) m) := if_pos h

/-- The blocks that a lane adds. -/
def spawnNew (f : EFields) (b t : Nat) (m : State) : List Block :=
  let sh := shapeOf (.spawn f)
  let th := m.thread b t
  (List.range (spawnCount f th)).map fun j => newBlock (m.block b).launch ((m.launchOf b).next + j) (spawnThreads f th)
    (BitVec.ofNat 64 (opd f sh th.vals .rc)) (BitVec.ofNat 64 (opd f sh th.vals .re)) m.cycle none (some (b, t, th.nextId))

theorem spawnNew_scratch {f : EFields} {b t : Nat} {m : State} : ∀ k ∈ spawnNew f b t m, k.scratch = [] := by
  intro k hk
  obtain ⟨j, -, rfl⟩ := List.mem_map.1 hk
  rfl

theorem spawnNew_length (f : EFields) (b t : Nat) (m : State) : (spawnNew f b t m).length = spawnCount f (m.thread b t) := by
  rw [spawnNew, List.length_map, List.length_range]

/-- The thread of a lane that spawns: its destination, and the release event that its blocks acquire from. -/
def spawnThread (f : EFields) (b : Nat) (m : State) (th : Thread) : Thread :=
  let th := spawnPut f (m.launchOf b).next th
  pushOp { baseOp th .release m.cur.pc (m.block b).issues m.cur.cyc (curSub m b) with rel := some .dev, tag := .none } th

/-- Its block: the rollback interval ends, after its log. -/
def spawnBlock (f : EFields) (b t : Nat) (m : State) (k : Block) : Block :=
  { k.performLog with threads := modAt (spawnThread f b m) t k.threads, rollable := false, spawned := true }

theorem pushRelease_put {f : EFields} {b t : Nat} {m : State} (hb : b < m.blocks.length) :
    pushRelease b t .dev .none (modThread b t (spawnPut f (m.launchOf b).next) m) = modThread b t (spawnThread f b m) m := by
  have hself : (modThread b t (spawnPut f (m.launchOf b).next) m).block b = _ := block_modBlock b _ m hb
  have hiss : ((modThread b t (spawnPut f (m.launchOf b).next) m).block b).issues = (m.block b).issues := by rw [hself]
  have hsub : curSub (modThread b t (spawnPut f (m.launchOf b).next) m) b = curSub m b := by
    rw [curSub, hself]; rfl
  rw [pushRelease, hiss, hsub, modThread_modThread]
  rfl

theorem spawnOne_some {f : EFields} {b t : Nat} {m : State} (hb : b < m.blocks.length)
    (hn : spawnCount f (m.thread b t) ≠ 0)
    (hf : spawnFault (m.launchOf b) (spawnCount f (m.thread b t)) (spawnThreads f (m.thread b t)) = false) :
    spawnOne f b t m = (none, enqueueSpawn ((m.block b).core / 40)
      ⟨(m.block b).launch, (m.launchOf b).next, spawnCount f (m.thread b t)⟩
      (addBlocks (m.block b).launch (spawnCount f (m.thread b t)) (spawnNew f b t m) (modBlock b (spawnBlock f b t m) m))) := by
  have hinner : modBlock b (fun k => { k with spawned := true })
      (endInterval b (pushRelease b t .dev .none (modThread b t (spawnPut f (m.launchOf b).next) m))) =
      modBlock b (spawnBlock f b t m) m := by
    rw [pushRelease_put hb, endInterval, modThread, modBlock_modBlock, modBlock_modBlock]
    rfl
  refine (if_neg hn).trans ((if_neg (Bool.eq_false_iff.1 hf)).trans ?_)
  rw [← hinner]
  rfl

/-- The operands of a thread ask for blocks that a launch may have. -/
structure SpawnFits (l : Launch) (n m : Nat) : Prop where
  blocks : n ≤ 65536
  span : l.span = 0 ∨ n % l.span = 0
  threads : 1 ≤ m ∧ m ≤ 1024
  core : fitsCore l m = true

theorem spawnFault_fits {l : Launch} {n m : Nat} (h : SpawnFits l n m) (hidx : l.next + n ≤ 2 ^ 32) :
    spawnFault l n m = false := by
  obtain ⟨hn, hspan, ⟨h1, h2⟩, hcore⟩ := h
  have hspan' : ¬(0 < l.span ∧ n % l.span ≠ 0) := fun ⟨h0, h3⟩ => h3 (hspan.resolve_left (by omega))
  simp only [spawnFault, hcore, Bool.not_true, Bool.or_false, Bool.and_eq_false_iff, decide_eq_false_iff_not]
  exact .inr (by omega)

/-- The check does not see the growth of a launch. -/
theorem SpawnFits.grown {l : Launch} {n m : Nat} (h : SpawnFits l n m) (a b : Nat) :
    SpawnFits { l with next := a, tree := b } n m := ⟨h.blocks, h.span, h.threads, h.core⟩

/-- How many blocks the first lanes of a group ask for. -/
def spawnTotal (f : EFields) (s : State) (done : List Nat) : Nat :=
  ((done.filter fun t => threadGuard (.spawn f) s s.cur.block t).map fun t => spawnCount f (s.thread s.cur.block t)).sum

theorem spawnTotal_append (f : EFields) (s : State) (done more : List Nat) :
    spawnTotal f s (done ++ more) = spawnTotal f s done + spawnTotal f s more := by
  simp [spawnTotal]

theorem spawnTotal_on {f : EFields} {s : State} {t : Nat} (h : threadGuard (.spawn f) s s.cur.block t = true) :
    spawnTotal f s [t] = spawnCount f (s.thread s.cur.block t) := by
  simp [spawnTotal, h]

theorem spawnTotal_off {f : EFields} {s : State} {t : Nat} (h : threadGuard (.spawn f) s s.cur.block t = false) :
    spawnTotal f s [t] = 0 := by
  simp [spawnTotal, h]

/-- After the lanes of `done`: those have passed, the others stand as before, and only lanes that spawn have changed a register. -/
def Spawned (f : EFields) (s : State) (done : List Nat) (m : State) : Prop :=
  ∃ th, Spawning s th (spawnTotal f s done) done.length m ∧ (∀ t, t ∉ done → th t = s.thread s.cur.block t) ∧
    (∀ t ∈ done, (th t).pc = (passed s t).pc) ∧
    ∀ t, t ∉ onTids (.spawn f) s → (th t).vals = (s.thread s.cur.block t).vals

/-- A lane passes the instruction, after what it has done to its thread: the pc as before, and, with a false guard, the registers. -/
theorem Spawned.pass {f : EFields} {s x : State} {done : List Nat} {th th' : Nat → Thread} {t : Nat}
    (hb : s.cur.block < s.blocks.length) (ht : t < (s.block s.cur.block).threads.length) (hdone : t ∉ done)
    (hx : Spawning s th' (spawnTotal f s (done ++ [t])) (done ++ [t]).length x) (hne : ∀ u, u ≠ t → th' u = th u)
    (hself : (th' t).pc = (s.thread s.cur.block t).pc ∧
      (t ∉ onTids (.spawn f) s → (th' t).vals = (s.thread s.cur.block t).vals))
    (hwait : ∀ u, u ∉ done → th u = s.thread s.cur.block u) (hpc : ∀ u ∈ done, (th u).pc = (passed s u).pc)
    (hvals : ∀ u, u ∉ onTids (.spawn f) s → (th u).vals = (s.thread s.cur.block u).vals) :
    Spawned f s (done ++ [t]) (passLane s.cur.block x t) := by
  have hcur : x.cur = s.cur := by rw [hx.rest]
  have hpass := hx.modBlock hb ht (g := fun k => { k with
    threads := modAt (fun th => stampThread s.cur.cyc (advancePc s.cur.len th)) t k.threads }) fun k => ⟨rfl, rfl, rfl, rfl⟩
  rw [passLane, hcur]
  refine ⟨_, hpass, fun u hu => ?_, fun u hu => ?_, fun u hu => ?_⟩
  · rw [List.mem_append, List.mem_singleton, not_or] at hu
    rw [Function.update_of_ne hu.2, hne u hu.2, hwait u hu.1]
  · by_cases hut : u = t
    · subst hut
      rw [Function.update_self]
      exact congrArg (· + BitVec.ofNat 64 s.cur.len) hself.1
    · rw [Function.update_of_ne hut, hne u hut]
      exact hpc u ((List.mem_append.1 hu).resolve_right fun h => hut (List.mem_singleton.1 h))
  · by_cases hut : u = t
    · subst hut
      rw [Function.update_self]
      exact hself.2 hu
    · rw [Function.update_of_ne hut, hne u hut, hvals u hu]

/-- A lane whose turn comes finds its own thread as it stood, so its operands are there and it waits for nothing. -/
theorem spawn_lane_ready {f : EFields} {s m : State} {t : Nat} (h : Unhindered (.spawn f) s) (ht : t ∈ s.cur.tids)
    (hm : m.thread s.cur.block t = s.thread s.cur.block t) (hg : threadGuard (.spawn f) s s.cur.block t = true)
    (hroom : (m.die ((m.block s.cur.block).core / 40)).spawnQ.length < 4096) :
    threadNotReady (.spawn f) m s.cur.block t = false ∧ threadWaits (.spawn f) m s.cur.block [t] t = false := by
  obtain ⟨hready, hwaits⟩ := (h.2.2 t ht).2 hg
  have hnr : threadNotReady (.spawn f) m s.cur.block t = threadNotReady (.spawn f) s s.cur.block t :=
    congrArg (fun th : Thread => srcFault f (shapeOf (.spawn f)) th.vals) hm
  have how : operandWait (.spawn f) m s.cur.block t = operandWait (.spawn f) s s.cur.block t :=
    congrArg (fun th : Thread => srcWait f (shapeOf (.spawn f)) th.vals || dstWait f (shapeOf (.spawn f)) th.vals ||
      busyRegs th (dstRegs f (shapeOf (.spawn f)))) hm
  have hop : operandWait (.spawn f) s s.cur.block t = false := by
    rw [threadWaits, hg, Bool.true_and, Bool.or_eq_false_iff] at hwaits
    exact hwaits.1
  have hfull : spawnFull m s.cur.block = false := by
    simp [spawnFull, Nat.not_le.2 hroom]
  have hextra : extraWait (.spawn f) m s.cur.block [t] t =
      (([t].takeWhile fun x => decide (x ≠ t)).any (fun x => spawnHeld m s.cur.block x f (shapeOf (.spawn f))) ||
        spawnHeld m s.cur.block t f (shapeOf (.spawn f))) := rfl
  refine ⟨hnr.trans hready, ?_⟩
  rw [threadWaits, how, hop, hextra]
  simp [spawnHeld, hfull]

/-- THE LANES OF SPAWN: each adds the blocks it asks for. -/
theorem spawn_lane {f : EFields} {s m : State} {done rest : List Nat} {t : Nat} (h : Unhindered (.spawn f) s)
    (hl : (s.block s.cur.block).launch < s.launches.length) (hroom : (s.die ((s.block s.cur.block).core / 40)).spawnQ.length + s.cur.tids.length ≤ 4096)
    (hfits : threadGuard (.spawn f) s s.cur.block t = true → spawnCount f (s.thread s.cur.block t) ≠ 0 →
      SpawnFits (s.launchOf s.cur.block) (spawnCount f (s.thread s.cur.block t)) (spawnThreads f (s.thread s.cur.block t)))
    (hidx : (s.launchOf s.cur.block).next + spawnTotal f s s.cur.tids ≤ 2 ^ 32)
    (htids : s.cur.tids = done ++ t :: rest) (hm : Spawned f s done m) :
    ∃ m', LaneGoes (.spawn f) (spawnOne f) s.cur.block t m m' ∧ Spawned f s (done ++ [t]) m' := by
  obtain ⟨th, hsp, hwait, hpc, hvals⟩ := hm
  obtain ⟨hb, -, hnodup, hrange⟩ := h.1
  have hmem : t ∈ s.cur.tids := by rw [htids]; simp
  have hdone : t ∉ done := by
    rw [htids] at hnodup
    exact fun hd => (List.nodup_append.1 hnodup).2.2 t hd t (List.mem_cons_self ..) rfl
  have hlen : done.length + 1 ≤ s.cur.tids.length := by rw [htids]; simp
  have hthr : m.thread s.cur.block t = s.thread s.cur.block t := (hsp.threads t).trans (hwait t hdone)
  have ht := (hrange t hmem).1
  have hguard : threadGuard (.spawn f) m s.cur.block t = threadGuard (.spawn f) s s.cur.block t :=
    congrArg (fun th : Thread => guardOf f th.vals) hthr
  have hcount := spawnTotal_append f s done [t]
  have hlast : (done ++ [t]).length = done.length + 1 := List.length_append
  have hbm : s.cur.block < m.blocks.length := by have := hsp.count; omega
  cases hg : threadGuard (.spawn f) s s.cur.block t with
  | false =>
    rw [spawnTotal_off hg] at hcount
    refine ⟨_, .inl ⟨hguard.trans hg, rfl⟩, Spawned.pass hb ht hdone (th' := th) ?_ (fun _ _ => rfl)
      (by rw [hwait t hdone]; exact ⟨rfl, fun _ => rfl⟩) hwait hpc hvals⟩
    rw [hcount, hlast]
    exact { hsp with queue := Nat.le_succ_of_le hsp.queue }
  | true =>
    have hon : t ∈ onTids (.spawn f) s := List.mem_filter.2 ⟨hmem, hg⟩
    rw [spawnTotal_on hg] at hcount
    have hq := hsp.queue
    obtain ⟨hready, hwaits⟩ := spawn_lane_ready h hmem hthr hg (by rw [hsp.core]; omega)
    suffices hone : ∃ (x : State) (h' : Thread → Thread), spawnOne f s.cur.block t m = (none, x) ∧ (∀ y : Thread, (h' y).pc = y.pc) ∧
        Spawning s (Function.update th t (h' (th t))) (spawnTotal f s (done ++ [t])) (done ++ [t]).length x by
      obtain ⟨x, h', hone, hpc', hx⟩ := hone
      refine ⟨_, .inr ⟨hguard.trans hg, hready, hwaits, x, hone, rfl⟩, Spawned.pass hb ht hdone hx
        (fun u hu => Function.update_of_ne hu ..) ⟨?_, fun hoff => absurd hon hoff⟩ hwait hpc hvals⟩
      rw [Function.update_self, hpc', hwait t hdone]
    rw [hcount, hlast]
    by_cases hn : spawnCount f (s.thread s.cur.block t) = 0
    · have hput := hsp.modBlock hb ht (f := spawnPut f (m.launchOf s.cur.block).next)
        (g := fun k => { k with threads := modAt (spawnPut f (m.launchOf s.cur.block).next) t k.threads })
        fun k => ⟨rfl, rfl, rfl, rfl⟩
      refine ⟨_, spawnPut f (m.launchOf s.cur.block).next, spawnOne_none (hthr ▸ hn), fun _ => rfl, ?_⟩
      rw [hn]
      exact { hput with queue := Nat.le_succ_of_le hput.queue }
    · have hmore : spawnTotal f s done + spawnCount f (s.thread s.cur.block t) ≤ spawnTotal f s s.cur.tids := by
        rw [htids, spawnTotal_append, ← List.singleton_append, spawnTotal_append, spawnTotal_on hg]
        omega
      have hfault : spawnFault (m.launchOf s.cur.block) (spawnCount f (m.thread s.cur.block t))
          (spawnThreads f (m.thread s.cur.block t)) = false := by
        rw [hthr, hsp.grown]
        exact spawnFault_fits ((hfits hg hn).grown _ _) (by dsimp only; omega)
      have hspawn := hsp.modBlock hb ht (f := spawnThread f s.cur.block m) (g := spawnBlock f s.cur.block t m)
        fun k => ⟨rfl, rfl, rfl, rfl⟩
      have hgrow := hspawn.grow hb hl (by omega) (spawnNew_scratch (f := f) (b := s.cur.block) (t := t) (m := m))
        ⟨(m.block s.cur.block).launch, (m.launchOf s.cur.block).next, spawnCount f (m.thread s.cur.block t)⟩
      rw [spawnNew_length, hthr] at hgrow
      refine ⟨_, spawnThread f s.cur.block m, spawnOne_some hbm (hthr ▸ hn) hfault, fun _ => rfl, ?_⟩
      rw [hthr, hsp.core, hsp.launch]
      rw [hsp.launch] at hgrow
      exact hgrow

/-- Settles O13: the lanes of the group one after another, by what each of them adds; then the full queue. -/
theorem spawnCompletes : Obligations.SpawnCompletes := by
  unfold Obligations.SpawnCompletes
  intro f s h
  dsimp only
  intro hl hfits hidx hroom
  obtain ⟨hb, -, -, hrange⟩ := h.1
  obtain ⟨m, hexec, th, hsp, hwait, hpc, hvals⟩ := seqExec_next (stop := true) (one := spawnOne f) (P := Spawned f s) h
    ⟨_, Spawning.start s, fun _ _ => rfl, by simp, fun _ _ => rfl⟩
    fun done t rest m htids hm => spawn_lane h hl hroom (fun hg hn => by
      obtain ⟨hle, hok⟩ := hfits t (by rw [htids]; simp) hg
      obtain ⟨hspan, h1, h2, hcore⟩ := hok hn
      exact ⟨hle, hspan, ⟨h1, h2⟩, hcore⟩) hidx htids hm
  obtain ⟨tid, htid⟩ := List.exists_mem_of_ne_nil _ h.1.2.1
  have hlast := hsp.noteIssue hb (hrange tid htid).1 (fieldsOf (.spawn f)).1.yld
  refine ⟨_, hexec, hlast.memory, ?_, ?_, hlast.count, fun tid htid => ?_, fun tid hoff => ?_, hlast.others,
    fun d e x hfull hd hx => spawnQ_enqueueSpawn_full hfull hd hx⟩
  · rw [hlast.grown]
    rfl
  · rw [hlast.grown]
    rfl
  · rw [hlast.threads, hpc tid htid]
  · rw [hlast.threads, hvals tid hoff]

end Sys2Proof.Machine
end

section
/-!
PROOFS. What an access of the device, and the work of the codecs that it forces, leave of queues, launches, blocks, contexts and
COPYs: a record may halt a context, which stops its queues, and charge a launch; all else that those hold stands.
-/

namespace Sys2Proof.Machine

open Sys2Proof

/-! ### What lasts -/

/-- A queue but for whether it is STOPPED. -/
def Queue.lasting (x : Queue) : Queue := { x with state := if x.state = .active then .stopped else x.state }

/-- A launch but for the cause it is charged with. -/
def Launch.lasting (l : Launch) : Launch := { l with cause := 0, causeBy := (0, 0) }

/-- What a block is from its creation to its retirement. -/
def Block.lasting (k : Block) : Nat × Nat × Nat × DWord × DWord × BStatus := (k.launch, k.index, k.ntid, k.entry, k.arg, k.status)

/-- What a context is and has mapped. -/
def Context.lasting (c : Context) : ContextSpec × List (Nat × List Range) × List Range := (c.spec, c.sets, c.maps)

/-- The parts of the machine that the work behind an access of the device does not reach. -/
structure Lasting where
  now : Nat
  cycle : Nat
  xfers : List Xfer
  out : List Reply
  queues : List Queue
  launches : List Launch
  blocks : List (Nat × Nat × Nat × DWord × DWord × BStatus)
  ctxs : List (ContextSpec × List (Nat × List Range) × List Range)

def State.lasting (s : State) : Lasting :=
  ⟨s.now, s.cycle, s.xfers, s.plat.out, s.queues.map Queue.lasting, s.launches.map Launch.lasting, s.blocks.map Block.lasting,
    s.ctxs.map Context.lasting⟩

/-! ### Reading it back -/

section Reading

variable {s t : State} (h : t.lasting = s.lasting)
include h

theorem lasting_queue (q : Nat) : (t.queue q).lasting = (s.queue q).lasting := by
  have hq := congrArg (fun x : Lasting => x.queues.getD q (Queue.lasting default)) h
  exact (List.getD_map ..).symm.trans (hq.trans (List.getD_map ..))

theorem lasting_launch (l : Nat) : (t.launch l).lasting = (s.launch l).lasting := by
  have hl := congrArg (fun x : Lasting => x.launches.getD l (Launch.lasting default)) h
  exact (List.getD_map ..).symm.trans (hl.trans (List.getD_map ..))

theorem lasting_block (b : Nat) : (t.block b).lasting = (s.block b).lasting := by
  have hb := congrArg (fun x : Lasting => x.blocks.getD b (Block.lasting default)) h
  exact (List.getD_map ..).symm.trans (hb.trans (List.getD_map ..))

theorem lasting_queues_length : t.queues.length = s.queues.length := by
  have hq := congrArg (fun x : Lasting => x.queues.length) h
  simpa [State.lasting] using hq

theorem lasting_launches_length : t.launches.length = s.launches.length := by
  have hl := congrArg (fun x : Lasting => x.launches.length) h
  simpa [State.lasting] using hl

theorem lasting_blocks_length : t.blocks.length = s.blocks.length := by
  have hb := congrArg (fun x : Lasting => x.blocks.length) h
  simpa [State.lasting] using hb

/-- A queue that is in ERROR stays so. -/
theorem lasting_error {q : Nat} (he : (s.queue q).state = .error) : (t.queue q).state = .error := by
  have hq := congrArg Queue.state (lasting_queue h q)
  simp only [Queue.lasting, he] at hq
  split at hq
  · cases hq
  · exact hq

theorem lasting_ctx? (n : Nat) : (t.ctx? n).map Context.lasting = (s.ctx? n).map Context.lasting := by
  have hc := congrArg (fun x : Lasting => x.ctxs.find? fun c => c.1.num = n) h
  simp only [State.lasting, List.find?_map] at hc
  exact hc

theorem lasting_ctx (n : Nat) : (t.ctx n).lasting = (s.ctx n).lasting := by
  have hc := congrArg (fun o => o.getD (Context.lasting default)) (lasting_ctx? h n)
  simp only [Option.getD_map] at hc
  exact hc

end Reading

/-! ### The operations of the state -/

theorem map_modAt_same {α β : Type} {g : α → β} {f : α → α} (h : ∀ a, g (f a) = g a) (n : Nat) (l : List α) :
    (modAt f n l).map g = l.map g := by
  refine List.ext_getElem? fun m => ?_
  rw [List.getElem?_map, List.getElem?_map, modAt_getElem?]
  split
  · rw [Option.map_map]
    exact congrArg (fun k => Option.map k l[m]?) (funext h)
  · rfl

theorem map_modIf_same {α β : Type} {g : α → β} {f : α → α} (p : α → Bool) (h : ∀ a, p a = true → g (f a) = g a) (l : List α) :
    (modIf p f l).map g = l.map g := by
  rw [modIf, List.map_map]
  refine List.map_congr_left fun a _ => ?_
  by_cases hp : p a
  · simpa [hp] using h a hp
  · simp [hp]

theorem lasting_modBlock (b : Nat) {f : Block → Block} (h : ∀ k, (f k).lasting = k.lasting) (s : State) :
    (modBlock b f s).lasting = s.lasting := by
  simp only [State.lasting, modBlock, map_modAt_same h]

theorem lasting_modCtx (n : Nat) {f : Context → Context} (h : ∀ c, (f c).lasting = c.lasting) (s : State) :
    (modCtx n f s).lasting = s.lasting := by
  simp only [State.lasting, modCtx, map_modIf_same _ fun c _ => h c]

theorem lasting_modPlat {f : Platform → Platform} (h : ∀ p, (f p).out = p.out) (s : State) :
    (modPlat f s).lasting = s.lasting := by
  simp only [State.lasting, modPlat, h]

@[simp] theorem post_out (c : FwCore) (m : Message) (p : Platform) : (p.post c m).out = p.out := by
  unfold Platform.post
  split <;> rfl

@[simp] theorem nextSeq_lasting (src : Nat) (s : State) : (nextSeq s src).2.lasting = s.lasting := rfl

@[simp] theorem logEvent_lasting (src : Nat) (k : LogKind) (args : List Nat) (s : State) :
    (logEvent src k args s).lasting = s.lasting := rfl

@[simp] theorem notify_lasting (cs : List FwCore) (src : Nat) (s : State) : (notify cs src s).lasting = s.lasting :=
  foldl_same State.lasting _ (fun m c => (lasting_modPlat (fun p => post_out c _ p) (nextSeq m src).2).trans rfl) cs s

/-! ### Exceptions -/

@[simp] theorem writeRecord_lasting (r : StopRec) (s : State) : (writeRecord r s).2.lasting = s.lasting :=
  lasting_modPlat (fun p => post_out .eh _ p) _

@[simp] theorem noteCause_lasting (l cause src : Nat) (s : State) : (noteCause l cause src s).lasting = s.lasting := by
  have h : ∀ x : Launch, (if x.stage ≠ .done ∧ (x.cause = 0 ∨ (x.causeBy.1 = s.cycle ∧ src < x.causeBy.2)) then
      { x with cause := cause, causeBy := (s.cycle, src) } else x).lasting = x.lasting := by
    intro x
    split <;> rfl
  simp only [State.lasting, noteCause, modLaunch, map_modAt_same h]

@[simp] theorem haltCtx_lasting (ctx seq src : Nat) (s : State) : (haltCtx ctx seq src s).lasting = s.lasting := by
  have hq : ∀ x : Queue, (x.spec.ctx = ctx && x.state = .active) = true →
      ({ x with state := .stopped } : Queue).lasting = x.lasting := by
    intro x hx
    simp only [Bool.and_eq_true, decide_eq_true_eq] at hx
    simp [Queue.lasting, hx.2]
  have hc := lasting_modCtx ctx (f := fun c => { c with halted := true }) (fun _ => rfl) (raiseHalt ctx seq src s)
  refine Eq.trans ?_ (hc.trans rfl)
  simp only [State.lasting, haltCtx, map_modIf_same _ hq]

@[simp] theorem takeFault_lasting (r : StopRec) (s : State) : (takeFault r s).lasting = s.lasting := by
  unfold takeFault
  dsimp only
  rw [haltCtx_lasting]
  split
  · exact writeRecord_lasting r s
  · rw [noteCause_lasting, writeRecord_lasting]

@[simp] theorem raiseContext_lasting (source cause ctx addr : Nat) (extra : StopRec → StopRec) (s : State) :
    (raiseContext source cause ctx addr extra s).lasting = s.lasting := takeFault_lasting _ s

@[simp] theorem raiseStore_lasting (source cause ctx : Nat) (r : StoreRec) (addr : Nat) (extra : StopRec → StopRec) (s : State) :
    (raiseStore source cause ctx r addr extra s).lasting = s.lasting := takeFault_lasting _ s

/-! ### Requests -/

@[simp] theorem askReads_lasting (k : WalkKey) (who cls : Nat) (s : State) : (askReads k who cls s).lasting = s.lasting := by
  refine foldl_same State.lasting _ (fun m a => ?_) _ s
  rfl

@[simp] theorem walkAsk_lasting (ctx : Nat) (a : Ask) (s : State) : (walkAsk ctx a s).lasting = s.lasting := by
  unfold walkAsk
  dsimp only
  split
  · rfl
  · split
    · exact (askReads_lasting ..).trans rfl
    · rfl

@[simp] theorem askAt_lasting (who cls ctx va off : Nat) (s : State) : (askAt who cls ctx va off s).lasting = s.lasting := by
  unfold askAt
  dsimp only
  split
  · rfl
  · exact walkAsk_lasting ..

@[simp] theorem askRange_lasting (who cls ctx va n : Nat) (s : State) : (askRange who cls ctx va n s).lasting = s.lasting :=
  foldl_same State.lasting _ (fun m a => askAt_lasting who cls ctx a 0 m) _ s

@[simp] theorem askEngine_lasting (ctx : Nat) (r : Region) (cls blk n : Nat) (s : State) :
    (askEngine ctx r cls blk n s).lasting = s.lasting := askAt_lasting ..

@[simp] theorem askSide_lasting (ctx : Nat) (r : Region) (cls va n : Nat) (s : State) :
    (askSide ctx r cls va n s).lasting = s.lasting := askRange_lasting ..

/-! ### Bytes and lines -/

@[simp] theorem sysWriteFrom_lasting (fuel key : Nat) (data : List Byte) (s : State) :
    (sysWriteFrom fuel key data s).lasting = s.lasting := by
  induction fuel generalizing key data s with
  | zero => rfl
  | succ fuel ih =>
    rw [sysWriteFrom]
    split
    · rfl
    · exact ih ..

@[simp] theorem sysWrite_lasting (ctx va : Nat) (data : List Byte) (s : State) : (sysWrite ctx va data s).lasting = s.lasting :=
  sysWriteFrom_lasting ..

@[simp] theorem removeLines_lasting (gone : Line → Bool) (s : State) : (removeLines gone s).lasting = s.lasting :=
  (foldl_same State.lasting _ (fun m l => by split <;> rfl) _ _).trans rfl

@[simp] theorem reachDevice_lasting (l : Line) (s : State) : (reachDevice l s).lasting = s.lasting := by
  unfold reachDevice
  split <;> rfl

@[simp] theorem recallLines_lasting (p : Line → Bool) (s : State) : (recallLines p s).lasting = s.lasting :=
  (removeLines_lasting ..).trans (foldl_same State.lasting _ (fun m l => reachDevice_lasting l m) _ s)

@[simp] theorem writeBackLines_lasting (p : Line → Bool) (s : State) : (writeBackLines p s).lasting = s.lasting :=
  (foldl_same State.lasting writeBackLine (fun _ _ => rfl) _ _).trans (foldl_same State.lasting writeBackLine (fun _ _ => rfl) _ s)

@[simp] theorem pushPool_lasting (ctx : Nat) (p : Line → Bool) (s : State) : (pushPool ctx p s).lasting = s.lasting :=
  (foldl_same State.lasting (fun s l => reachDevice l s) (fun m l => reachDevice_lasting l m) _ s)

theorem evictLine_lasting {back : Line → State → State} (hback : ∀ l m, (back l m).lasting = m.lasting) (s : State) (l : Line) :
    (evictLine back s l).lasting = s.lasting := by
  unfold evictLine
  dsimp only
  rw [dropLine, removeLines_lasting, reachDevice_lasting]
  split
  · rfl
  · split
    · rfl
    · exact hback l s

theorem freeL2_lasting (d n : Nat) {back : Line → State → State} (hback : ∀ l m, (back l m).lasting = m.lasting) (s : State) :
    (freeL2 d n back s).lasting = s.lasting := by
  refine foldl_same State.lasting _ (fun m i => ?_) _ s
  split
  · rfl
  · split
    · exact evictLine_lasting hback ..
    · rfl

/-! ### The codecs: what writes a slot, and the ends of encodes -/

theorem modRegion_lasting (ctx idx : Nat) (f : Region → Region) (s : State) : (modRegion ctx idx f s).lasting = s.lasting :=
  lasting_modCtx ctx (f := fun c => { c with regions := modIf (fun r => r.idx = idx) f c.regions }) (fun _ => rfl) s

@[simp] theorem modUnit_lasting (ctx region unit : Nat) (f : CUnit → CUnit) (s : State) :
    (modUnit ctx region unit f s).lasting = s.lasting := rfl

@[simp] theorem writeSlot_lasting (ctx : Nat) (r : Region) (cls blk : Nat) (b : List Byte) (s : State) :
    (writeSlot ctx r cls blk b s).lasting = s.lasting := by
  unfold writeSlot
  dsimp only
  split
  · rw [sysWrite_lasting, askSide_lasting, modRegion_lasting, askEngine_lasting]
  · rw [modRegion_lasting, askEngine_lasting]

@[simp] theorem setPlain_lasting (ctx : Nat) (r : Region) (blk : Nat) (out : List Byte) (s : State) :
    (setPlain ctx r blk out s).lasting = s.lasting :=
  foldl_same State.lasting _ (fun m g => by dsimp only; split <;> rfl) _ s

@[simp] theorem storeSlot_lasting (cls ctx : Nat) (r : Region) (blk : Nat) (slot : List Byte) (s : State) :
    (storeSlot cls ctx r blk slot s).lasting = s.lasting := by
  rw [storeSlot, modRegion_lasting, writeSlot_lasting]

theorem escape_lasting (cls ctx : Nat) (r : Region) (blk g : Nat) (x : List Byte) (s : State) :
    (escape cls ctx r blk g x s).2.lasting = s.lasting := by
  unfold escape
  dsimp only
  split
  · rfl
  · rw [modRegion_lasting, writeSlot_lasting, sysWrite_lasting, askSide_lasting]

@[simp] theorem encodeFault_lasting (ctx : Nat) (r : Region) (blk cause step : Nat) (closing : Option StoreRec) (s : State) :
    (encodeFault ctx r blk cause step closing s).lasting = s.lasting := by
  unfold encodeFault
  cases closing with
  | none => exact (raiseContext_lasting ..).trans rfl
  | some c => exact (raiseStore_lasting ..).trans rfl

@[simp] theorem settleLossy_lasting (ctx : Nat) (r : Region) (blk : Nat) (g : Gen) (x slot : List Byte) (s : State) :
    (settleLossy ctx r blk g x slot s).lasting = s.lasting := by
  unfold settleLossy
  split
  · split
    · exact setPlain_lasting ..
    · rfl
  · rfl

@[simp] theorem leaveBlock_lasting (ctx : Nat) (r : Region) (blk : Nat) (ok : Bool) (closing : Option StoreRec) (s : State) :
    (leaveBlock ctx r blk ok closing s).lasting = s.lasting := by
  have hfree := freeL2_lasting r.die (unitLines r) (back := fun x => askRange 4096 3 x.ctx x.addr 128)
    (fun l m => askRange_lasting ..) s
  unfold leaveBlock
  dsimp only
  split
  · rfl
  · rw [modUnit_lasting]
    split
    · rfl
    · split
      · exact Eq.trans rfl hfree
      · exact hfree

/-- An encode that escapes its block, with the cause that made it. -/
def escapeEnd (cls ctx : Nat) (r : Region) (blk : Nat) (g : Gen) (x : List Byte) (closing : Option StoreRec) (cause : Option Nat)
    (n : Nat) (s : State) : State :=
  let (ok, s') := escape cls ctx r blk g.num x s
  let charge := fun (c : Nat) (s : State) => encodeFault ctx r blk c n closing s
  if ok then leaveBlock ctx r blk true closing (match cause with
    | some c => charge c s'
    | none => s')
  else leaveBlock ctx r blk false closing (charge 0x14 (if cause = some 0x11 then charge 0x11 s' else s'))

theorem escapeEnd_lasting (cls ctx : Nat) (r : Region) (blk : Nat) (g : Gen) (x : List Byte) (closing : Option StoreRec)
    (cause : Option Nat) (n : Nat) (s : State) :
    (escapeEnd cls ctx r blk g x closing cause n s).lasting = s.lasting := by
  have hesc := escape_lasting cls ctx r blk g.num x s
  unfold escapeEnd
  dsimp only
  split
  · rw [leaveBlock_lasting]
    cases cause with
    | none => exact hesc
    | some c => exact (encodeFault_lasting ..).trans hesc
  · rw [leaveBlock_lasting, encodeFault_lasting]
    split
    · exact (encodeFault_lasting ..).trans hesc
    · exact hesc

@[simp] theorem finishEncode_lasting (cls ctx : Nat) (r : Region) (blk : Nat) (g : Gen) (x : List Byte) (e : EncEnd)
    (closing : Option StoreRec) (s : State) : (finishEncode cls ctx r blk g x e closing s).lasting = s.lasting := by
  match e with
  | .over n => exact escapeEnd_lasting cls ctx r blk g x closing (some 0x11) n s
  | .refused n => exact escapeEnd_lasting cls ctx r blk g x closing none n s
  | .done out n =>
    unfold finishEncode
    dsimp only
    split
    · exact (escapeEnd_lasting cls ctx r blk g x closing (some 0x15) n _).trans (modRegion_lasting ..)
    · rw [leaveBlock_lasting, settleLossy_lasting, storeSlot_lasting]

@[simp] theorem freeEngine_lasting (die : Nat) (s : State) : (freeEngine die s).lasting = s.lasting := by
  unfold freeEngine
  split
  · rfl
  · split <;> rfl

@[simp] theorem encodeNow_lasting (cls ctx idx blk : Nat) (closing : Option StoreRec) (s : State) :
    (encodeNow cls ctx idx blk closing s).lasting = s.lasting := by
  unfold encodeNow
  split
  · rfl
  · dsimp only
    split
    · rw [encodeZero, leaveBlock_lasting, storeSlot_lasting]
    · rw [finishEncode_lasting, freeEngine_lasting]

/-! ### Write-backs of units -/

@[simp] theorem settleUnit_lasting (ctx : Nat) (r : Region) (unit : Nat) (s : State) :
    (settleUnit ctx r unit s).lasting = s.lasting := by
  unfold settleUnit
  split
  · split
    · exact (removeLines_lasting ..).trans rfl
    · rfl
  · rfl

@[simp] theorem encodeDirty_lasting (forced : Option Nat) (ctx : Nat) (r : Region) (blk : Nat) (s : State) :
    (encodeDirty forced ctx r blk s).lasting = s.lasting := by
  unfold encodeDirty
  dsimp only
  split
  · exact (finishEncode_lasting ..).trans rfl
  · rfl

@[simp] theorem encodeFresh_lasting (forced : Option Nat) (ctx : Nat) (r : Region) (blk : Nat) (s : State) :
    (encodeFresh forced ctx r blk s).lasting = s.lasting := by
  unfold encodeFresh
  dsimp only
  split
  · exact (encodeNow_lasting ..).trans rfl
  · rfl

@[simp] theorem writeBackUnit_lasting (forced : Option Nat) (ctx : Nat) (r : Region) (unit : Nat) (s : State) :
    (writeBackUnit forced ctx r unit s).lasting = s.lasting :=
  (settleUnit_lasting ..).trans
    (foldl_same State.lasting _ (fun _ _ => (encodeFresh_lasting ..).trans (encodeDirty_lasting ..)) _ s)

@[simp] theorem writeBackUnits_lasting (forced : Option Nat) (ctx : Nat) (p : Region → CUnit → Bool) (s : State) :
    (writeBackUnits forced ctx p s).lasting = s.lasting :=
  foldl_same State.lasting _ (fun m _ => foldl_same State.lasting _ (fun _ _ => writeBackUnit_lasting ..) _ m) _ s

/-! ### Fills -/

/-- A fill, whichever way it ends, leaves what lasts. -/
def FillLasts {ε : Type} (s : State) : Except (ε × State) State → Prop
  | .ok t => t.lasting = s.lasting
  | .error e => e.2.lasting = s.lasting

theorem FillLasts.trans {ε : Type} {s m : State} (h : m.lasting = s.lasting) {x : Except (ε × State) State} (hx : FillLasts m x) :
    FillLasts s x := by
  cases x with
  | ok t => exact Eq.trans hx h
  | error e => exact Eq.trans hx h

@[simp] theorem askEntry_lasting (ctx : Nat) (r : Region) (cls blk n : Nat) (s : State) :
    (askEntry ctx r cls blk n s).lasting = s.lasting := by
  unfold askEntry
  dsimp only
  split
  · exact askSide_lasting ..
  · rfl

@[simp] theorem filledBy_lasting (cls ctx : Nat) (r : Region) (blk n : Nat) (out : List Byte) (s : State) :
    (filledBy cls ctx r blk n out s).lasting = s.lasting := by
  unfold filledBy
  rw [setPlain_lasting]
  split
  · dsimp only
    rw [logEvent_lasting, modRegion_lasting, askEngine_lasting]
  · rfl

theorem fillFrom_lasts (cls ctx : Nat) (r : Region) (blk m n : Nat) (s : State) : FillLasts s (fillFrom cls ctx r blk m n s) := by
  have hask : ∀ n (s : State), (askEntry ctx r cls blk n (askEngine ctx r cls blk n s)).lasting = s.lasting := by
    intro n s
    rw [askEntry_lasting, askEngine_lasting]
  induction m generalizing n s with
  | zero =>
    unfold fillFrom
    dsimp only
    split
    · exact (filledBy_lasting ..).trans (hask n s)
    · exact hask n s
  | succ m ih =>
    unfold fillFrom
    dsimp only
    split
    · exact (filledBy_lasting ..).trans (hask n s)
    · exact (ih (n + 1) _).trans (hask n s)

theorem fillNow_lasts (cls ctx : Nat) (r : Region) (blk : Nat) (s : State) : FillLasts s (fillNow cls ctx r blk s) :=
  (fillFrom_lasts ..).trans (freeEngine_lasting ..)

theorem fillBlocks_lasts (cls ctx : Nat) (r : Region) (l : List Nat) (s : State) : FillLasts s (fillBlocks cls ctx r l s) := by
  induction l generalizing s with
  | nil => exact rfl
  | cons k l ih =>
    have hk := fillNow_lasts cls ctx r k s
    unfold fillBlocks
    split
    · next s' hs' =>
      rw [hs'] at hk
      exact (ih s').trans hk
    · next e he =>
      rw [he] at hk
      exact hk

@[simp] theorem makeRoom_lasting (cls : Nat) (r : Region) (s : State) : (makeRoom cls r s).lasting = s.lasting := by
  have hfree := freeL2_lasting r.die (unitLines r) (back := fun x => askRange 4096 cls x.ctx x.addr 128)
    (fun l m => askRange_lasting ..) s
  unfold makeRoom
  dsimp only
  split
  · exact hfree
  · refine Eq.trans (foldl_same State.lasting _ (fun m e => ?_) _ _)
      (Eq.trans (foldl_same State.lasting _ (fun m e => writeBackUnit_lasting ..) _ _) hfree)
    split
    · rfl
    · exact writeBackUnit_lasting ..

theorem touchUnit_lasts (cls ctx : Nat) (r : Region) (unit : Nat) (s : State) : FillLasts s (touchUnit cls ctx r unit s) := by
  have hroom : (if (findUnit s ctx r.idx unit).isSome then s else makeRoom cls r s).lasting = s.lasting := by
    split
    · rfl
    · exact makeRoom_lasting ..
  have hfill := fun l => (fillBlocks_lasts cls ctx r l _).trans hroom
  unfold touchUnit
  dsimp only
  split
  · next e he => exact (he ▸ hfill _ : FillLasts s (.error e))
  · next s' hs' =>
    have h : FillLasts s (.ok s' : Except (FillErr × State) State) := hs' ▸ hfill _
    refine Eq.trans ?_ h
    rw [modUnit_lasting]
    split <;> rfl

theorem touchUnits_lasts (cls ctx : Nat) (r : Region) (l : List Nat) (s : State) : FillLasts s (touchUnits cls ctx r l s) := by
  induction l generalizing s with
  | nil => exact rfl
  | cons u l ih =>
    have hu := touchUnit_lasts cls ctx r u s
    unfold touchUnits
    split
    · next s' hs' =>
      rw [hs'] at hu
      exact (ih s').trans hu
    · next e he =>
      rw [he] at hu
      exact hu

/-- The fills of an access, whichever way they end, leave what lasts. -/
def RangeLasts (s : State) : Except (Option (Region × FillErr × State)) State → Prop
  | .ok t => t.lasting = s.lasting
  | .error (some e) => e.2.2.lasting = s.lasting
  | .error none => True

/-- One region of an access. -/
def touchRegion (cls ctx va n : Nat) (a : Except (Option (Region × FillErr × State)) State) (r : Region) :
    Except (Option (Region × FillErr × State)) State :=
  a.bind fun s => (touchUnits cls ctx r ((blocksAt r va n).map r.unitOfBlk).eraseDups s).mapError fun e => some (r, e)

theorem touchRegion_lasts {s : State} (cls ctx va n : Nat) {a : Except (Option (Region × FillErr × State)) State}
    (ha : RangeLasts s a) (r : Region) : RangeLasts s (touchRegion cls ctx va n a r) := by
  cases a with
  | error e => exact ha
  | ok m =>
    have h := (touchUnits_lasts cls ctx r ((blocksAt r va n).map r.unitOfBlk).eraseDups m).trans ha
    change RangeLasts s ((touchUnits cls ctx r ((blocksAt r va n).map r.unitOfBlk).eraseDups m).mapError fun e => some (r, e))
    cases hx : touchUnits cls ctx r ((blocksAt r va n).map r.unitOfBlk).eraseDups m with
    | ok t => rw [hx] at h; exact h
    | error e => rw [hx] at h; exact h

theorem touchRange_lasts (cls ctx va n : Nat) (s : State) : RangeLasts s (touchRange cls ctx va n s) := by
  have h : RangeLasts s ((s.ctx ctx).regions.foldl (touchRegion cls ctx va n) (.ok s)) :=
    foldl_keeps (RangeLasts s) _ (fun a r ha => touchRegion_lasts cls ctx va n ha r) _ _ rfl
  have heq : touchRange cls ctx va n s = ((s.ctx ctx).regions.foldl (touchRegion cls ctx va n) (.ok s)).bind
      fun s' => if codecThere s' ctx va n then .ok s' else .error none := rfl
  rw [heq]
  cases hx : (s.ctx ctx).regions.foldl (touchRegion cls ctx va n) (.ok s) with
  | error e => rw [hx] at h; exact h
  | ok t =>
    rw [hx] at h
    change RangeLasts s (if codecThere t ctx va n then .ok t else .error none)
    split
    · exact h
    · exact trivial

/-! ### Accesses of the device -/

@[simp] theorem deviceTouch_lasting (ctx va n : Nat) (s : State) : (deviceTouch ctx va n s).lasting = s.lasting := by
  have h := touchRange_lasts 3 ctx va n (askRange 4096 3 ctx va n s)
  unfold deviceTouch
  dsimp only
  split
  · next t ht =>
    rw [ht] at h
    exact Eq.trans h (askRange_lasting ..)
  · next t ht =>
    rw [ht] at h
    exact Eq.trans h (askRange_lasting ..)
  · exact askRange_lasting ..

@[simp] theorem dirtyRange_lasting (ctx va n : Nat) (s : State) : (dirtyRange ctx va n s).lasting = s.lasting :=
  foldl_same State.lasting _ (fun m _ => foldl_same State.lasting _ (fun _ _ => modUnit_lasting ..) _ m) _ s

@[simp] theorem agentWrite_lasting (ctx va : Nat) (data : List Byte) (s : State) : (agentWrite ctx va data s).lasting = s.lasting :=
  (sysWrite_lasting ..).trans (recallLines_lasting _ s)

@[simp] theorem raiseDevice_lasting (ctx a : Nat) (s : State) : (raiseDevice ctx a s).lasting = s.lasting := by
  rw [raiseDevice, raiseContext_lasting]

/-- A write of the device. -/
@[simp] theorem deviceWrite_lasting (ctx va : Nat) (data : List Byte) (s : State) : (deviceWrite ctx va data s).lasting = s.lasting := by
  rw [deviceWrite]
  cases deviceBad s ctx va data.length with
  | some a => exact raiseDevice_lasting ctx a s
  | none =>
    dsimp only
    rw [dirtyRange_lasting, agentWrite_lasting, deviceTouch_lasting]

@[simp] theorem queueWrite_lasting (x : QueueSpec) (host : Bool) (a : Nat) (bytes : List Byte) (s : State) :
    (queueWrite x host a bytes s).lasting = s.lasting := by
  unfold queueWrite
  split
  · rfl
  · exact deviceWrite_lasting ..

end Sys2Proof.Machine
end

section
/-!
PROOFS. Queues: what the end of a packet does to its queue, and what an access of the device leaves where no codec region is near: then
it makes requests and changes cache lines, and a write puts its bytes where they belong.
-/

namespace Sys2Proof.Machine

open Sys2Proof

/-! ### The packets of a queue -/

theorem map_modAt_congr {α β : Type} {g : α → β} {f : α → α} (hf : ∀ a b, g a = g b → g (f a) = g (f b)) (n : Nat) {l m : List α}
    (h : l.map g = m.map g) : (modAt f n l).map g = (modAt f n m).map g := by
  refine List.ext_getElem? fun k => ?_
  have hk : l[k]?.map g = m[k]?.map g := by rw [← List.getElem?_map, ← List.getElem?_map, h]
  rw [List.getElem?_map, List.getElem?_map, modAt_getElem?, modAt_getElem?]
  split
  · generalize l[k]? = x, m[k]? = y at hk
    cases x with
    | none => cases y with
      | none => rfl
      | some b => cases hk
    | some a => cases y with
      | none => cases hk
      | some b => exact congrArg some (hf a b (Option.some.inj hk))
  · exact hk

/-- A change of a queue that does not look at whether it is STOPPED. -/
theorem lasting_modQueue_congr (q : Nat) {f : Queue → Queue} (hf : ∀ x y, x.lasting = y.lasting → (f x).lasting = (f y).lasting)
    {s t : State} (h : t.lasting = s.lasting) : (modQueue q f t).lasting = (modQueue q f s).lasting := by
  have hq : t.queues.map Queue.lasting = s.queues.map Queue.lasting := congrArg Lasting.queues h
  have hm := map_modAt_congr hf q hq
  exact (congrArg (fun v : Lasting => { v with queues := (modAt f q t.queues).map Queue.lasting }) h).trans
    (congrArg (fun qs => { s.lasting with queues := qs }) hm)

theorem modQueue_modQueue (q : Nat) (f g : Queue → Queue) (s : State) : modQueue q f (modQueue q g s) = modQueue q (f ∘ g) s := by
  unfold modQueue
  simp only [modAt_modAt]

theorem queue_of_getElem? {q : Nat} {x : Queue} {s : State} (hx : s.queues[q]? = some x) : s.queue q = x := by
  rw [State.queue, List.getD_eq_getElem?_getD, hx, Option.getD_some]

theorem queue_modQueue (q : Nat) (f : Queue → Queue) (s : State) (h : q < s.queues.length) : (modQueue q f s).queue q = f (s.queue q) :=
  modAt_getD_self f default q s.queues h

theorem queue_modQueue_ne (q p : Nat) (f : Queue → Queue) (s : State) (h : p ≠ q) : (modQueue q f s).queue p = s.queue p :=
  modAt_getD_ne f default q p s.queues h

/-- A queue whose head and packet n have changed. -/
def Queue.passed (n head : Nat) (f : Packet → Packet) (x : Queue) : Queue := { x with head := head, pkts := modAt f n x.pkts }

/-- The head of a queue may pass on; nothing else that lasts changes. -/
theorem advanceHead_lasting (q : Nat) (s : State) :
    ∃ h, (advanceHead q s).lasting = (modQueue q (fun x => { x with head := h }) s).lasting := by
  unfold advanceHead
  dsimp only
  split
  · refine ⟨(s.queue q).head, ?_⟩
    have hid : modAt (fun x : Queue => { x with head := (s.queue q).head }) q s.queues = s.queues := by
      refine List.ext_getElem? fun k => ?_
      rw [modAt_getElem?]
      split
      · next hk =>
        subst hk
        cases hx : s.queues[k]? with
        | none => rfl
        | some x => simp [State.queue, List.getD_eq_getElem?_getD, hx]
      · rfl
    rw [modQueue, hid]
  · exact ⟨_, queueWrite_lasting ..⟩

/-- A packet passes: what its queue comes to hold. -/
theorem advanceHead_modPkt_lasting (q n : Nat) (f : Packet → Packet) (s : State) :
    ∃ h, (advanceHead q (modPkt q n f s)).lasting = (modQueue q (Queue.passed n h f) s).lasting := by
  obtain ⟨h, hh⟩ := advanceHead_lasting q (modPkt q n f s)
  exact ⟨h, hh.trans (congrArg State.lasting (modQueue_modQueue ..))⟩

theorem completePacket_lasting (q n : Nat) (doneAt : Option Nat) (s : State) :
    ∃ h, (completePacket q n doneAt s).lasting =
      (modQueue q (Queue.passed n h fun p => { p with st := .completed, used := true, doneAt := doneAt }) s).lasting :=
  advanceHead_modPkt_lasting ..

theorem startPacket_lasting (q n : Nat) (s : State) :
    ∃ h, (startPacket q n s).lasting = (modQueue q (Queue.passed n h fun p => { p with st := .started, used := true }) s).lasting :=
  advanceHead_modPkt_lasting ..

theorem lasting_pkts {s t : State} (h : t.lasting = s.lasting) (q : Nat) : (t.queue q).pkts = (s.queue q).pkts :=
  (congrArg Queue.pkts (lasting_queue h q) :)

theorem lasting_tokens {s t : State} (h : t.lasting = s.lasting) (q : Nat) : (t.queue q).tokens = (s.queue q).tokens :=
  (congrArg Queue.tokens (lasting_queue h q) :)

theorem lasting_spec {s t : State} (h : t.lasting = s.lasting) (q : Nat) : (t.queue q).spec = (s.queue q).spec :=
  (congrArg Queue.spec (lasting_queue h q) :)

/-- The packet of a queue that has completed. -/
theorem completed_pkt {q n : Nat} {doneAt : Option Nat} {s : State} {p : Packet} (hq : q < s.queues.length)
    (hp : (s.queue q).pkts[n]? = some p) :
    ((completePacket q n doneAt s).queue q).pkts[n]? = some { p with st := .completed, used := true, doneAt := doneAt } := by
  obtain ⟨h, hh⟩ := completePacket_lasting q n doneAt s
  rw [lasting_pkts hh, queue_modQueue _ _ _ hq, Queue.passed]
  simp only [modAt_getElem?, hp, if_pos, Option.map_some]

/-! ### Errors -/

/-- A queue in ERROR. -/
def Queue.inError (x : Queue) : Queue := { x with state := .error }

theorem queueError_lasting (q count type reason : Nat) (s : State) :
    (queueError q count type reason s).lasting = (modQueue q Queue.inError s).lasting := by
  unfold queueError
  dsimp only
  rw [notify_lasting, queueWrite_lasting]
  rfl

theorem queueError_state {q : Nat} {s : State} (hq : q < s.queues.length) (count type reason : Nat) :
    ((queueError q count type reason s).queue q).state = .error :=
  lasting_error (queueError_lasting q count type reason s) (by rw [queue_modQueue _ _ _ hq, Queue.inError])

/-- A packet that is rejected. -/
def Packet.reject (p : Packet) : Packet := { p with st := .rejected, used := true }

theorem rejectPacket_eq (q n reason : Nat) (s : State) : rejectPacket q n reason s =
    advanceHead q (queueError q n ((s.queue q).pkts.getD n default).type reason (modPkt q n Packet.reject s)) := rfl

/-- The queue of a packet that is rejected is in ERROR, and the packet is consumed. -/
theorem rejectPacket_queue {q n reason : Nat} {s : State} {p : Packet} (hq : q < s.queues.length)
    (hp : (s.queue q).pkts[n]? = some p) :
    ((rejectPacket q n reason s).queue q).state = .error ∧
      ((rejectPacket q n reason s).queue q).pkts[n]? = some { p with st := .rejected, used := true } := by
  have hq' : q < (modPkt q n Packet.reject s).queues.length := by
    rw [modPkt, modQueue_queues, modAt_length]
    exact hq
  have hpkts : ((modPkt q n Packet.reject s).queue q).pkts[n]? = some p.reject := by
    rw [modPkt, queue_modQueue _ _ _ hq, modAt_getElem?, if_pos rfl, hp, Option.map_some]
  have herr := queueError_lasting q n ((s.queue q).pkts.getD n default).type reason (modPkt q n Packet.reject s)
  obtain ⟨h, hh⟩ := advanceHead_lasting q
    (queueError q n ((s.queue q).pkts.getD n default).type reason (modPkt q n Packet.reject s))
  have hlen := lasting_queues_length herr
  rw [modQueue_queues, modAt_length] at hlen
  rw [rejectPacket_eq]
  constructor
  · refine lasting_error hh ?_
    rw [queue_modQueue _ _ _ (hlen ▸ hq')]
    exact queueError_state hq' ..
  · rw [lasting_pkts hh, queue_modQueue _ _ _ (hlen ▸ hq')]
    dsimp only
    rw [lasting_pkts herr, queue_modQueue _ _ _ hq']
    exact hpkts

/-! ### Requests alone -/

/-- The machine without the requests at its controllers and its walks. -/
def State.noAsks (s : State) : State := { s with ctls := [], walks := [] }

theorem askReads_noAsks (k : WalkKey) (who cls : Nat) (s : State) : (askReads k who cls s).noAsks = s.noAsks := by
  refine foldl_same State.noAsks _ (fun m a => ?_) _ s
  rfl

theorem walkAsk_noAsks (ctx : Nat) (a : Ask) (s : State) : (walkAsk ctx a s).noAsks = s.noAsks := by
  unfold walkAsk
  dsimp only
  split
  · rfl
  · split
    · exact (askReads_noAsks ..).trans rfl
    · rfl

theorem askAt_noAsks (who cls ctx va off : Nat) (s : State) : (askAt who cls ctx va off s).noAsks = s.noAsks := by
  unfold askAt
  dsimp only
  split
  · rfl
  · exact walkAsk_noAsks ..

theorem askRange_noAsks (who cls ctx va n : Nat) (s : State) : (askRange who cls ctx va n s).noAsks = s.noAsks :=
  foldl_same State.noAsks _ (fun m a => askAt_noAsks who cls ctx a 0 m) _ s

theorem noAsks_ctx {s t : State} (h : t.noAsks = s.noAsks) (n : Nat) : t.ctx n = s.ctx n :=
  (congrArg (fun x : State => x.ctx n) h :)

theorem touchRange_noRegions {s : State} {ctx : Nat} (hr : (s.ctx ctx).regions = []) (cls va n : Nat) :
    touchRange cls ctx va n s = .ok s := by
  unfold touchRange codecThere
  rw [hr]
  simp [Except.bind, hr]

/-- An access of the device outside the codec regions makes requests. -/
theorem deviceTouch_noAsks {s : State} {ctx : Nat} (hr : (s.ctx ctx).regions = []) (va n : Nat) :
    (deviceTouch ctx va n s).noAsks = s.noAsks := by
  have hask := askRange_noAsks 4096 3 ctx va n s
  have hr' : ((askRange 4096 3 ctx va n s).ctx ctx).regions = [] := by rw [noAsks_ctx hask, hr]
  unfold deviceTouch
  dsimp only
  rw [touchRange_noRegions hr']
  exact hask

/-! ### The bytes that are stored, and what translates and numbers -/

/-- The bytes of a store. -/
def Item.stored (x : Item) : Option Nat × List (Nat × Byte) := (x.gran, x.bytes)

/-- The stored bytes, the tables and contexts, the launches, the counters of events and the platform: what an access of the device
outside the codec regions reads, or writes as it should. -/
structure Plain where
  mem : Memory
  stored : List (Option Nat × List (Nat × Byte))
  pmem : Memory
  ctxs : List Context
  launches : List Launch
  seqs : Sparse Nat
  plat : Platform

def State.plain (s : State) : Plain := ⟨s.mem, s.items.map Item.stored, s.pmem, s.ctxs, s.launches, s.seqs, s.plat⟩

section Reading

variable {s t : State} (h : t.plain = s.plain)
include h

theorem plain_newestByte (key : Nat) : newestByte t key = newestByte s key := by
  have hval : ∀ u : State, newestByte u key =
      (((u.items.map Item.stored).filter fun e => e.1 = some (key / 16)).foldl (fun a e => overlay a e.2)
        (memRead u.mem (16 * (key / 16)) 16)).getD (key % 16) 0 := by
    intro u
    rw [newestByte, granValue_newest, List.filter_map, List.foldl_map]
    rfl
  have hm : t.mem = s.mem := congrArg Plain.mem h
  have hi : t.items.map Item.stored = s.items.map Item.stored := congrArg Plain.stored h
  rw [hval, hval, hm, hi]

theorem plain_ctx (n : Nat) : t.ctx n = s.ctx n :=
  (congrArg (fun v : Plain => (v.ctxs.find? fun c => c.spec.num = n).getD default) h :)

theorem plain_launch (l : Nat) : t.launch l = s.launch l := (congrArg (fun v : Plain => v.launches.getD l default) h :)

theorem plain_deviceBad (ctx va n : Nat) : deviceBad t ctx va n = deviceBad s ctx va n := by
  have hp : t.pmem = s.pmem := congrArg Plain.pmem h
  have hl : t.plat = s.plat := congrArg Plain.plat h
  unfold deviceBad walkBad walkReads poisonedVa walk frameBad
  simp only [hp, hl, plain_ctx h]

end Reading

theorem plain_of_noAsks {s t : State} (h : t.noAsks = s.noAsks) : t.plain = s.plain :=
  (congrArg State.plain h :)

theorem plain_of_noCaches {s t : State} (h : t.noCaches = s.noCaches) : t.plain = s.plain :=
  (congrArg State.plain h :)

theorem plain_of_written {s : State} (p : Item → Bool) :
    ({ s with items := modIf p (fun x => { x with written := true }) s.items } : State).plain = s.plain := by
  have hm := map_modIf_same (g := Item.stored) (f := fun x => { x with written := true }) p (fun _ _ => rfl) s.items
  exact congrArg (fun l => { s.plain with stored := l }) hm

theorem reachDevice_plain (l : Line) (s : State) : (reachDevice l s).plain = s.plain := by
  unfold reachDevice
  split
  · exact plain_of_written _
  · rfl

theorem recallLines_plain (p : Line → Bool) (s : State) : (recallLines p s).plain = s.plain :=
  (plain_of_noCaches (removeLines_noCaches ..)).trans (foldl_same State.plain _ (fun m l => reachDevice_plain l m) _ s)

theorem pushPool_plain (ctx : Nat) (p : Line → Bool) (s : State) : (pushPool ctx p s).plain = s.plain :=
  (foldl_same State.plain (fun s l => reachDevice l s) (fun m l => reachDevice_plain l m) _ s)

theorem dirtyRange_plain (ctx va n : Nat) (s : State) : (dirtyRange ctx va n s).plain = s.plain := by
  refine foldl_same State.plain _ (fun m r => foldl_same State.plain _ (fun _ _ => ?_) _ m) _ s
  rfl

theorem deviceTouch_plain {s : State} {ctx : Nat} (hr : (s.ctx ctx).regions = []) (va n : Nat) :
    (deviceTouch ctx va n s).plain = s.plain := plain_of_noAsks (deviceTouch_noAsks hr va n)

theorem newestByte_lines (l : List Line) (s : State) (key : Nat) : newestByte { s with lines := l } key = newestByte s key := rfl

theorem newestByte_agentWrite (ctx va : Nat) (data : List Byte) (s : State) (key : Nat) :
    newestByte (agentWrite ctx va data s) key =
      if ctx * 2 ^ 56 + va ≤ key ∧ key < ctx * 2 ^ 56 + va + data.length then data.getD (key - (ctx * 2 ^ 56 + va)) 0
      else newestByte s key := by
  rw [agentWrite, newestByte_sysWrite, newestByte_lines, plain_newestByte (recallLines_plain ..)]

/-- A write of the device outside the codec regions and poisoned lines puts its bytes at their addresses. -/
theorem newestByte_deviceWrite {s : State} {ctx va : Nat} {data : List Byte} (hr : (s.ctx ctx).regions = [])
    (hbad : deviceBad s ctx va data.length = none) (key : Nat) :
    newestByte (deviceWrite ctx va data s) key =
      if ctx * 2 ^ 56 + va ≤ key ∧ key < ctx * 2 ^ 56 + va + data.length then data.getD (key - (ctx * 2 ^ 56 + va)) 0
      else newestByte s key := by
  rw [deviceWrite, hbad]
  dsimp only
  rw [plain_newestByte (dirtyRange_plain ..), newestByte_agentWrite, plain_newestByte (deviceTouch_plain hr ..)]

/-- The head of a queue that stands in host memory moves without an access to the device's. -/
theorem advanceHead_plain {q : Nat} {s : State} (hh : (s.queue q).spec.hostHead = true) : (advanceHead q s).plain = s.plain := by
  unfold advanceHead queueWrite
  dsimp only
  rw [hh]
  split <;> rfl

theorem queue_modQueue_spec (q p : Nat) {f : Queue → Queue} (hf : ∀ x, (f x).spec = x.spec) (s : State) :
    ((modQueue q f s).queue p).spec = (s.queue p).spec := by
  have h := congrArg (fun l => l.getD p (Queue.spec default)) (map_modAt_same (g := Queue.spec) hf q s.queues)
  exact (List.getD_map ..).symm.trans (h.trans (List.getD_map ..))

theorem completePacket_plain {q : Nat} {s : State} (hh : (s.queue q).spec.hostHead = true) (n : Nat) (doneAt : Option Nat) :
    (completePacket q n doneAt s).plain = s.plain := by
  have hspec : ((modPkt q n (fun p => { p with st := .completed, used := true, doneAt := doneAt }) s).queue q).spec =
      (s.queue q).spec := by
    refine queue_modQueue_spec q q (fun x => ?_) s
    rfl
  have hhead := (congrArg QueueSpec.hostHead hspec).trans hh
  exact (advanceHead_plain hhead).trans rfl

end Sys2Proof.Machine
end

section
/-!
PROOFS. What the MM changes by writing its page tables; a LAUNCH packet becomes pending and is dispatched with its seed block.
-/

namespace Sys2Proof.Machine

open Sys2Proof

/-! ### Entries of page tables -/

/-- A context without the aliases that its tables give it. -/
def Context.noAliases (c : Context) : Context := { c with aliases := [] }

/-- The machine without its page tables, TLBs and aliases. -/
def State.noTables (s : State) : State := { s with pmem := [], ctls := [], ctxs := s.ctxs.map Context.noAliases }

theorem writePtes_noTables (l : List (Nat × BitVec 64)) (s : State) : (writePtes l s).noTables = s.noTables := by
  refine foldl_same State.noTables _ (fun m e => ?_) l s
  rfl

theorem refreshAliases_noTables (s : State) : (refreshAliases s).noTables = s.noTables := by
  simp only [State.noTables, refreshAliases, List.map_map]
  rfl

theorem mmWrite_noTables (loose : Bool) (ptes : List (Nat × BitVec 64)) (s : State) :
    (mmWrite loose ptes s).noTables = s.noTables := by
  unfold mmWrite
  dsimp only
  split
  · rfl
  · split
    · exact (refreshAliases_noTables _).trans ((rfl : (dropStale (writePtes ptes s)).noTables = _).trans (writePtes_noTables ..))
    · rfl

section Reading

variable {s t : State} (h : t.noTables = s.noTables)
include h

theorem noTables_ctx? (n : Nat) : (t.ctx? n).map Context.noAliases = (s.ctx? n).map Context.noAliases := by
  have hc := (congrArg (fun x : State => x.ctxs.find? fun c => c.spec.num = n) h :)
  simp only [State.noTables, List.find?_map] at hc
  exact hc

theorem noTables_ctx (n : Nat) : (t.ctx n).noAliases = (s.ctx n).noAliases := by
  have hc := congrArg (fun o => o.getD (Context.noAliases default)) (noTables_ctx? h n)
  simp only [Option.getD_map] at hc
  exact hc

theorem noTables_halted (n : Nat) : (t.ctx n).halted = (s.ctx n).halted := (congrArg Context.halted (noTables_ctx h n) :)

theorem noTables_regions (n : Nat) : (t.ctx n).regions = (s.ctx n).regions := (congrArg Context.regions (noTables_ctx h n) :)

theorem lasting_of_noTables : t.lasting = s.lasting := by
  have hl : ∀ u : State, u.lasting = { u.noTables.lasting with ctxs := u.noTables.ctxs.map Context.lasting } := by
    intro u
    simp only [State.lasting, State.noTables, List.map_map]
    rfl
  exact (hl t).trans (Eq.trans (by rw [h]) (hl s).symm)

theorem noTables_newestByte (key : Nat) : newestByte t key = newestByte s key :=
  (congrArg (fun x : State => newestByte x key) h :)

end Reading

@[simp] theorem mmWrite_lasting (loose : Bool) (ptes : List (Nat × BitVec 64)) (s : State) :
    (mmWrite loose ptes s).lasting = s.lasting := lasting_of_noTables (mmWrite_noTables ..)

/-! ### LAUNCH -/

/-- A packet that becomes pending. -/
theorem launch_becomes_pending {q : Nat} {p : Packet} {s : State} (hn : nextOf s q 1 = some p) (hc : checkPacket p.raw = none)
    (hp : (s.queue q).pkts[p.n]? = some p) (hq : q < s.queues.length) :
    ∃ r, exec (.launch q) s = .next r ∧ (r.queue q).pkts[p.n]? = some { p with st := .pending } ∧
      (∀ m, m ≠ p.n → (r.queue q).pkts[m]? = (s.queue q).pkts[m]?) ∧ r = { s with queues := r.queues } := by
  have hexec : exec (.launch q) s = execLaunch q s := rfl
  rw [hexec, execLaunch, hn]
  dsimp only
  rw [hc]
  refine ⟨_, rfl, ?_, fun m hm => ?_, rfl⟩
  · rw [modPkt, queue_modQueue _ _ _ hq, modAt_getElem?, if_pos rfl, hp, Option.map_some]
  · rw [modPkt, queue_modQueue _ _ _ hq, modAt_getElem?, if_neg hm]

/-! ### LAUNCH_DISPATCH -/

theorem foldl_fixed_on {α β : Type} {f : α → β → α} {a : α} {l : List β} (h : ∀ b ∈ l, f a b = a) : l.foldl f a = a := by
  induction l with
  | nil => rfl
  | cons b l ih => rw [List.foldl_cons, h b List.mem_cons_self, ih fun c hc => h c (List.mem_cons_of_mem b hc)]

/-- Ranges whose pages have their class need no transition. -/
theorem classTransition_fixed {s : State} {ctx : Nat} {r : Range} (h : needsClass s ctx r = false) (cls : Nat) :
    classTransition cls ctx r s = s := by
  unfold classTransition
  simp [h]

theorem classLeased_false {s : State} {ctx : Nat} {r : Range} (h : needsClass s ctx r = false) : classLeased s ctx r = false := by
  simp [classLeased, h]

/-- A range is in place: mapped, in its tier, of its class, and nothing of it is LOST. -/
structure InPlace (m : State) (ctx : Nat) (r : Range) : Prop where
  kept : holdsLost m ctx r.base r.len = false
  mapped : mapped m ctx r = true
  tier : tierOk m ctx r = true
  classed : needsClass m ctx r = false

/-- The machine of a dispatch whose page tables the MM has written. -/
def planned (plan : MmPlan) (s : State) : State := mmWrite false plan.ptes s

/-- Nothing holds a dispatch: its packet is pending and may start, its record can be written, and its set is resident and in place. -/
structure Dispatches (q n : Nat) (plan : MmPlan) (p : Packet) (rs : List Range) (s : State) : Prop where
  pkt : (s.queue q).pkts[n]? = some p
  pending : p.st = .pending
  may : mayStart (s.queue q) n = true
  running : s.plat.winter = .running
  alive : (s.ctx (s.queue q).spec.ctx).killed = false
  going : (s.ctx (s.queue q).spec.ctx).halted = false
  free : recordHeld s q (s.queue q).spec.ctx (pf p.raw 0x38 8) = false
  set : setOf (s.ctx (s.queue q).spec.ctx) (pf p.raw 0x30 2) = some rs
  lease : leaseOk rs (pf p.raw 0x38 8) 32 .w = true
  resident : plan.resident = true
  placed : ∀ r ∈ rs, InPlace (planned plan s) (s.queue q).spec.ctx r

/-- A dispatch whose set is in place starts the launch. -/
theorem Dispatches.next {q n : Nat} {plan : MmPlan} {p : Packet} {rs : List Range} {s : State} (h : Dispatches q n plan p rs s) :
    exec (.launchDispatch q n plan) s = .next (seedLaunch q p rs (planned plan s)).tickNow := by
  have hexec : exec (.launchDispatch q n plan) s = execLaunchDispatch q n plan s := rfl
  have hclass : ∀ r ∈ rs, needsClass (planned plan s) (s.queue q).spec.ctx r = false := fun r hr => (h.placed r hr).classed
  have hleased : rs.any (classLeased (planned plan s) (s.queue q).spec.ctx) = false :=
    List.any_eq_false.2 fun r hr => by simp [classLeased_false (hclass r hr)]
  have hplaced : (rs.any fun r => holdsLost (planned plan s) (s.queue q).spec.ctx r.base r.len ||
      !mapped (planned plan s) (s.queue q).spec.ctx r || !tierOk (planned plan s) (s.queue q).spec.ctx r) = false := by
    refine List.any_eq_false.2 fun r hr => ?_
    obtain ⟨hlost, hmap, htier, -⟩ := h.placed r hr
    simp [hlost, hmap, htier]
  have hneeds : rs.any (needsClass (planned plan s) (s.queue q).spec.ctx) = false :=
    List.any_eq_false.2 fun r hr => by simp [hclass r hr]
  have hfixed : rs.foldl (fun m r => classTransition (p.cls (s.queue q)) (s.queue q).spec.ctx r m) (planned plan s) = planned plan s :=
    foldl_fixed_on fun r hr => classTransition_fixed (hclass r hr) _
  have hhalted : ((planned plan s).ctx (s.queue q).spec.ctx).halted = false :=
    (noTables_halted (mmWrite_noTables false plan.ptes s) (s.queue q).spec.ctx).trans h.going
  rw [planned] at hleased hplaced hneeds hfixed hhalted ⊢
  rw [hexec, execLaunchDispatch, h.pkt]
  dsimp only
  rw [if_neg (by simp [h.pending, h.may, h.running, h.alive, h.free]), h.set]
  dsimp only
  rw [if_neg (by simp [h.lease]), if_neg (by rw [h.resident, hplaced]; simp), if_neg (by simp [hleased]), hfixed,
    if_neg (by simp [hhalted, hneeds])]

/-- The launch that a dispatch adds. -/
def seedOf (q : Nat) (p : Packet) (rs : List Range) (s : State) : Launch :=
  let prev := if p.n = 0 then none else (s.queue q).pkts[p.n - 1]?
  { launchOfPacket q p.n (s.queue q).spec.ctx (p.cls (s.queue q)) p.raw with
    ranges := rs
    after := prev.bind Packet.doneAt
    pred := if prev.any fun y => y.isLaunch && !y.over then some (p.n - 1) else none }

/-- The seed block of a launch. -/
def seedBlock (l : Launch) (s : State) : Block := newBlock s.launches.length 0 l.threads l.entry l.arg s.cycle l.after none

theorem Block.eq_of_lasting {k k' : Block} (h : k'.lasting = k.lasting) : k'.launch = k.launch ∧ k'.index = k.index ∧
    k'.ntid = k.ntid ∧ k'.entry = k.entry ∧ k'.arg = k.arg ∧ k'.status = k.status := by
  have hf : ∀ {γ : Type} (f : Nat × Nat × Nat × DWord × DWord × BStatus → γ), f k'.lasting = f k.lasting := fun f => congrArg f h
  exact ⟨hf fun e => e.1, hf fun e => e.2.1, hf fun e => e.2.2.1, hf fun e => e.2.2.2.1, hf fun e => e.2.2.2.2.1,
    hf fun e => e.2.2.2.2.2⟩

theorem seedLaunch_lasting (q : Nat) (p : Packet) (rs : List Range) (s : State) :
    ∃ f, (seedLaunch q p rs s).lasting = (modQueue q f { s with
      launches := s.launches ++ [seedOf q p rs s], blocks := s.blocks ++ [seedBlock (seedOf q p rs s) s] }).lasting := by
  obtain ⟨h, hh⟩ := startPacket_lasting q p.n (modPkt q p.n (fun p => { p with launch := some s.launches.length })
    { s with launches := s.launches ++ [seedOf q p rs s], blocks := s.blocks ++ [seedBlock (seedOf q p rs s) s] })
  exact ⟨_, hh.trans (congrArg State.lasting (modQueue_modQueue ..))⟩

theorem seedLaunch_counts (q : Nat) (p : Packet) (rs : List Range) (s : State) :
    (seedLaunch q p rs s).launches.length = s.launches.length + 1 ∧ (seedLaunch q p rs s).blocks.length = s.blocks.length + 1 := by
  obtain ⟨f, hf⟩ := seedLaunch_lasting q p rs s
  exact ⟨(lasting_launches_length hf).trans (List.length_append ..), (lasting_blocks_length hf).trans (List.length_append ..)⟩

theorem seedLaunch_launch (q : Nat) (p : Packet) (rs : List Range) (s : State) :
    ((seedLaunch q p rs s).launch s.launches.length).lasting = (seedOf q p rs s).lasting := by
  obtain ⟨f, hf⟩ := seedLaunch_lasting q p rs s
  rw [lasting_launch hf]
  exact congrArg Launch.lasting (by simp [State.launch])

theorem seedLaunch_block (q : Nat) (p : Packet) (rs : List Range) (s : State) :
    ((seedLaunch q p rs s).block s.blocks.length).lasting = (seedBlock (seedOf q p rs s) s).lasting := by
  obtain ⟨f, hf⟩ := seedLaunch_lasting q p rs s
  rw [lasting_block hf]
  exact congrArg Block.lasting (by simp [State.block])

/-- Settles O39: the packet of a LAUNCH changes alone; a dispatch whose ranges are in place needs no transition of a class, so what
the MM and the write of the head leave is the new launch and its seed block. -/
theorem launchesStart : Obligations.LaunchesStart := by
  unfold Obligations.LaunchesStart
  refine ⟨fun q p s hn hc hp hq => launch_becomes_pending hn hc hp hq, ?_⟩
  intro q n plan p rs s hp hpn hst hmay hwin hkill hhalt hheld hset hlease hres hrs
  have hm : (planned plan s).lasting = s.lasting := mmWrite_lasting false plan.ptes s
  have hplaced : ∀ r ∈ rs, InPlace (planned plan s) (s.queue q).spec.ctx r := fun r hr =>
    let ⟨hlost, hmap, htier, hclass⟩ := hrs r hr
    ⟨hlost, hmap, htier, hclass⟩
  have hnext := Dispatches.next ⟨hp, hst, hmay, hwin, hkill, hhalt, hheld, hset, hlease, hres, hplaced⟩
  obtain ⟨hls, hbs⟩ := seedLaunch_counts q p rs (planned plan s)
  have hl := seedLaunch_launch q p rs (planned plan s)
  have hb := seedLaunch_block q p rs (planned plan s)
  rw [lasting_launches_length hm] at hls hl
  rw [lasting_blocks_length hm] at hbs hb
  obtain ⟨hlaunch, hindex, hntid, hentry, harg, hstatus⟩ := Block.eq_of_lasting hb
  rw [seedBlock, lasting_launches_length hm] at hlaunch
  have hctx := (congrArg Launch.ctx hl).trans (congrArg QueueSpec.ctx (lasting_spec hm q))
  generalize seedLaunch q p rs (planned plan s) = r at *
  exact ⟨r.tickNow, hnext, hls, hbs, hctx, (congrArg Launch.ranges hl :), (congrArg Launch.tree hl :), (congrArg Launch.stage hl :),
    hlaunch, hindex, hntid, hstatus, hentry, harg⟩

end Sys2Proof.Machine
end

section
/-!
PROOFS. The completion of a launch: what the visibility of its stores and the late gates leave, and the record that is written.
-/

namespace Sys2Proof.Machine

open Sys2Proof

/-! ### The stores of the launch become visible -/

theorem launch_of_getElem? {l : Nat} {x : Launch} {s : State} (hx : s.launches[l]? = some x) : s.launch l = x := by
  rw [State.launch, List.getD_eq_getElem?_getD, hx, Option.getD_some]

theorem launch_modLaunch (l : Nat) (f : Launch → Launch) (s : State) (h : l < s.launches.length) :
    (modLaunch l f s).launch l = f (s.launch l) := modAt_getD_self f default l s.launches h

/-- A change of a launch that does not look at its cause. -/
theorem lasting_modLaunch_congr (l : Nat) {f : Launch → Launch} (hf : ∀ x y, x.lasting = y.lasting → (f x).lasting = (f y).lasting)
    {s t : State} (h : t.lasting = s.lasting) : (modLaunch l f t).lasting = (modLaunch l f s).lasting := by
  have hm := map_modAt_congr hf l (congrArg Lasting.launches h)
  exact (congrArg (fun v : Lasting => { v with launches := (modAt f l t.launches).map Launch.lasting }) h).trans
    (congrArg (fun ls => { s.lasting with launches := ls }) hm)

/-- A launch whose stores are visible at system scope. -/
def Launch.widen (x : Launch) : Launch := { x with stage := .widened }

theorem Launch.widen_lasting (x y : Launch) (h : x.lasting = y.lasting) : x.widen.lasting = y.widen.lasting :=
  (congrArg Launch.widen h :)

theorem modLaunch_widen_fixed {l : Nat} {x : Launch} {s : State} (hl : s.launches[l]? = some x) (hst : x.stage = .widened) :
    modLaunch l Launch.widen s = s := by
  have hx : x.widen = x := by
    rw [Launch.widen, ← hst]
  have hfixed : modAt Launch.widen l s.launches = s.launches := by
    refine List.ext_getElem? fun k => ?_
    rw [modAt_getElem?]
    split
    · next hk => rw [hk, hl, Option.map_some, hx]
    · rfl
  rw [modLaunch, hfixed]

theorem widenStores_lasting (l : Nat) (s : State) : (widenStores l s).lasting = s.lasting := rfl

theorem widenStores_plain (l : Nat) (s : State) : (widenStores l s).plain = s.plain := by
  refine congrArg (fun i => { s.plain with stored := i }) ?_
  rw [widenStores, List.map_map]
  refine List.map_congr_left fun x _ => ?_
  dsimp only [Function.comp_apply]
  split <;> rfl

theorem writeBackUnits_noRegions {s : State} {ctx : Nat} (hr : (s.ctx ctx).regions = []) (forced : Option Nat)
    (p : Region → CUnit → Bool) : writeBackUnits forced ctx p s = s := by
  rw [writeBackUnits, hr, List.foldl_nil]

theorem writeBackLines_plain (p : Line → Bool) (s : State) : (writeBackLines p s).plain = s.plain :=
  (foldl_same State.plain writeBackLine (fun _ _ => rfl) _ _).trans (foldl_same State.plain writeBackLine (fun _ _ => rfl) _ s)

theorem widenLaunch_lasting (l : Nat) (s : State) : (widenLaunch l s).lasting = (modLaunch l Launch.widen s).lasting := by
  refine lasting_modLaunch_congr l Launch.widen_lasting ?_
  rw [removeLines_lasting, pushPool_lasting, writeBackLines_lasting, writeBackUnits_lasting, widenStores_lasting]

theorem plain_modLaunch_congr (l : Nat) (f : Launch → Launch) {s t : State} (h : t.plain = s.plain) :
    (modLaunch l f t).plain = (modLaunch l f s).plain :=
  (congrArg (fun v : Plain => { v with launches := modAt f l v.launches }) h :)

theorem widenLaunch_plain {l : Nat} {s : State} (hr : (s.ctx (s.launch l).ctx).regions = []) :
    (widenLaunch l s).plain = (modLaunch l Launch.widen s).plain := by
  have hr' : ((widenStores l s).ctx (s.launch l).ctx).regions = [] := hr
  refine plain_modLaunch_congr l Launch.widen ?_
  rw [plain_of_noCaches (removeLines_noCaches ..), pushPool_plain, writeBackLines_plain, writeBackUnits_noRegions hr',
    widenStores_plain]

/-- The first step of a completion: the launch's stores are visible at system scope; lines that could not reach the pool are
tried again. -/
def forcedStores (l : Nat) (x : Launch) (s : State) : State :=
  if x.stage = .running then widenLaunch l s else pushPool x.ctx (wroteIn s fun b => (s.block b).launch = l) s

section Forced

variable {l : Nat} {x : Launch} {s : State} (hl : s.launches[l]? = some x) (hst : x.stage ≠ .done)
include hl hst

theorem forcedStores_lasting : (forcedStores l x s).lasting = (modLaunch l Launch.widen s).lasting := by
  unfold forcedStores
  split
  · exact widenLaunch_lasting l s
  · next hrun =>
    have hw : x.stage = .widened := by cases h : x.stage <;> simp_all
    rw [modLaunch_widen_fixed hl hw]
    exact pushPool_lasting ..

theorem forcedStores_plain (hr : (s.ctx x.ctx).regions = []) : (forcedStores l x s).plain = (modLaunch l Launch.widen s).plain := by
  unfold forcedStores
  split
  · refine widenLaunch_plain ?_
    have hx := launch_of_getElem? hl
    rw [hx]
    exact hr
  · next hrun =>
    have hw : x.stage = .widened := by cases h : x.stage <;> simp_all
    rw [modLaunch_widen_fixed hl hw]
    exact pushPool_plain ..

end Forced

/-! ### The late gates -/

theorem lasting_of_noCaches {s t : State} (h : t.noCaches = s.noCaches) : t.lasting = s.lasting :=
  (congrArg State.lasting h :)

theorem noteAcq_dev_lasting (b t : Nat) (s : State) : (noteAcq b t .dev s).lasting = s.lasting := by
  have horder : (orderHere b t s).lasting = s.lasting := by
    refine lasting_modBlock b (fun k => ?_) s
    rfl
  exact (lasting_of_noCaches (cacheAcquire_noCaches b .dev _)).trans horder

theorem noteAcq_dev_plain (b t : Nat) (s : State) : (noteAcq b t .dev s).plain = s.plain :=
  (plain_of_noCaches (cacheAcquire_noCaches b .dev (orderHere b t s))).trans rfl

theorem lateGates_lasting (l : Nat) (s : State) : (lateGates l s).lasting = s.lasting := by
  refine foldl_same State.lasting _ (fun m e => ?_) _ s
  exact (noteAcq_dev_lasting ..).trans (lasting_of_noCaches (acquireFrom_noCaches ..))

theorem lateGates_plain (l : Nat) (s : State) : (lateGates l s).plain = s.plain := by
  refine foldl_same State.plain _ (fun m e => ?_) _ s
  exact (noteAcq_dev_plain ..).trans (plain_of_noCaches (acquireFrom_noCaches ..))

/-! ### The end of a launch -/

theorem writeCompletion_lasting (ctx record status cause tag retired : Nat) (s : State) :
    (writeCompletion ctx record status cause tag retired s).lasting = s.lasting := by
  unfold writeCompletion
  dsimp only
  rw [deviceWrite_lasting]
  exact nextSeq_lasting feSource s

/-- A launch that is done, its gates open. -/
def Launch.finish (at_ cycle : Nat) (x : Launch) : Launch :=
  { x with gates := 0xFFFF#16, doneAt := some at_, doneIn := cycle, stage := .done }

/-- A launch that is done, with its queue's tokens, before its record. -/
def finishing (l : Nat) (s : State) : State :=
  modLaunch l (Launch.finish s.now s.cycle) (setTokens (s.launch l).q (s.launch l).setMask s)

/-- The status that a launch ends with. -/
def endStatus (l : Nat) (s : State) : Nat := statusOf (s.launch l).cause (s.launch l).killed

theorem finishLaunch_eq (l status : Nat) (s : State) : finishLaunch l status s =
    let m := lateGates l s.tickNow
    let x := m.launch l
    completePacket x.q x.pkt (some m.now) (writeCompletion x.ctx x.record status (if status = 3 then 0 else x.cause) x.tag.toNat
      x.retired (finishing l m)) := rfl

theorem finishLaunch_lasting (l status : Nat) (s : State) : ∃ n h f,
    (finishLaunch l status s).lasting =
      (modQueue ((lateGates l s.tickNow).launch l).q (Queue.passed n h f) (finishing l (lateGates l s.tickNow))).lasting := by
  rw [finishLaunch_eq]
  dsimp only
  obtain ⟨h, hh⟩ := completePacket_lasting ((lateGates l s.tickNow).launch l).q ((lateGates l s.tickNow).launch l).pkt
    (some (lateGates l s.tickNow).now) (writeCompletion ((lateGates l s.tickNow).launch l).ctx
      ((lateGates l s.tickNow).launch l).record status (if status = 3 then 0 else ((lateGates l s.tickNow).launch l).cause)
      ((lateGates l s.tickNow).launch l).tag.toNat ((lateGates l s.tickNow).launch l).retired (finishing l (lateGates l s.tickNow)))
  refine ⟨_, h, _, hh.trans (lasting_modQueue_congr _ (fun x y hxy => ?_) (writeCompletion_lasting ..))⟩
  exact (congrArg (Queue.passed _ h _) hxy :)

/-- What a completion leaves of its launch and of the tokens of its queue. -/
theorem finishLaunch_launch {l status : Nat} {s : State} (hl : l < s.launches.length) :
    ((finishLaunch l status s).launch l).stage = .done ∧ ((finishLaunch l status s).launch l).gates = 0xFFFF#16 ∧
      ((finishLaunch l status s).launch l).doneAt = some (s.now + 1) ∧ ((finishLaunch l status s).launch l).doneIn = s.cycle := by
  have hlate := lateGates_lasting l s.tickNow
  have hnow : (lateGates l s.tickNow).now = s.now + 1 := congrArg Lasting.now hlate
  have hcycle : (lateGates l s.tickNow).cycle = s.cycle := congrArg Lasting.cycle hlate
  have hlen : l < (lateGates l s.tickNow).launches.length := (lasting_launches_length hlate).symm ▸ hl
  obtain ⟨n, h, f, hf⟩ := finishLaunch_lasting l status s
  have hlaunch : (finishing l (lateGates l s.tickNow)).launch l =
      Launch.finish (lateGates l s.tickNow).now (lateGates l s.tickNow).cycle ((lateGates l s.tickNow).launch l) :=
    launch_modLaunch l _ _ hlen
  have hx := lasting_launch hf l
  rw [modQueue_launch_get, hlaunch, hnow, hcycle] at hx
  generalize finishLaunch l status s = r at *
  exact ⟨(congrArg Launch.stage hx :), (congrArg Launch.gates hx :), (congrArg Launch.doneAt hx :), (congrArg Launch.doneIn hx :)⟩

theorem finishLaunch_tokens {l status : Nat} {s : State} (hq : (s.launch l).q < s.queues.length) :
    ((finishLaunch l status s).queue (s.launch l).q).tokens = (s.queue (s.launch l).q).tokens ||| (s.launch l).setMask := by
  have hlate := lateGates_lasting l s.tickNow
  have hlaunch : (lateGates l s.tickNow).launch l = s.launch l := plain_launch (s := s.tickNow) (lateGates_plain l s.tickNow) l
  obtain ⟨n, h, f, hf⟩ := finishLaunch_lasting l status s
  have htok := lasting_tokens hf (s.launch l).q
  have hlen : (s.launch l).q < (lateGates l s.tickNow).queues.length := (lasting_queues_length hlate).symm ▸ hq
  have hlen' : (s.launch l).q < (finishing l (lateGates l s.tickNow)).queues.length := by
    rw [finishing, hlaunch, modLaunch_queues, setTokens, modQueue_queues, modAt_length]
    exact hlen
  rw [hlaunch, queue_modQueue _ _ _ hlen'] at htok
  have hset : ((finishing l (lateGates l s.tickNow)).queue (s.launch l).q).tokens =
      ((lateGates l s.tickNow).queue (s.launch l).q).tokens ||| (s.launch l).setMask := by
    rw [finishing, hlaunch, modLaunch_queue_get, setTokens, queue_modQueue _ _ _ hlen]
  exact htok.trans (hset.trans (congrArg (· ||| (s.launch l).setMask) (lasting_tokens hlate (s.launch l).q)))

/-! ### The record -/

theorem newestRead_eq {r : State} {ctx va : Nat} {data : List Byte}
    (h : ∀ i, i < data.length → newestByte r (ctx * 2 ^ 56 + va + i) = data.getD i 0) : newestRead r ctx va data.length = data := by
  refine List.ext_getElem (by simp [newestRead]) fun i _ hd => ?_
  simp only [newestRead, List.getElem_map, List.getElem_range]
  rw [h i hd, List.getD_eq_getElem?_getD, List.getElem?_eq_getElem hd, Option.getD_some]

/-- The bytes of a completion record (03 Table 03.5). -/
def recordOf (status cause tag retired seq : Nat) : List Byte :=
  leBytes 2 status ++ leBytes 1 cause ++ [0] ++ leBytes 4 tag ++ leBytes 8 retired ++ leBytes 2 feSource ++ leBytes 6 0 ++ leBytes 8 seq

theorem writeCompletion_record {s : State} {ctx record : Nat} (hr : (s.ctx ctx).regions = [])
    (hbad : deviceBad s ctx record 32 = none) (status cause tag retired : Nat) :
    newestRead (writeCompletion ctx record status cause tag retired s) ctx record 32 =
      recordOf status cause tag retired (seqNumber s ((sget 0 feSource s.seqs + 1) % 2 ^ 40)) := by
  have hr' : ((nextSeq s feSource).2.ctx ctx).regions = [] := hr
  have hbad' : deviceBad (nextSeq s feSource).2 ctx record
      (recordOf status cause tag retired (nextSeq s feSource).1).length = none := hbad
  refine newestRead_eq (data := recordOf status cause tag retired (nextSeq s feSource).1) fun _ hi => ?_
  refine (newestByte_deviceWrite hr' hbad' _).trans ?_
  rw [if_pos ⟨Nat.le_add_right .., Nat.add_lt_add_left hi _⟩, Nat.add_sub_cancel_left]

theorem plain_newestRead {s t : State} (h : t.plain = s.plain) (ctx va n : Nat) : newestRead t ctx va n = newestRead s ctx va n :=
  List.map_congr_left fun _ _ => plain_newestByte h _

theorem finishLaunch_record {l status : Nat} {s : State} (hr : (s.ctx (s.launch l).ctx).regions = [])
    (hbad : deviceBad s (s.launch l).ctx (s.launch l).record 32 = none)
    (hhost : (s.queue (s.launch l).q).spec.hostHead = true) :
    newestRead (finishLaunch l status s) (s.launch l).ctx (s.launch l).record 32 =
      recordOf status (if status = 3 then 0 else (s.launch l).cause) (s.launch l).tag.toNat (s.launch l).retired
        (seqNumber s ((sget 0 feSource s.seqs + 1) % 2 ^ 40)) := by
  have hlate : (lateGates l s.tickNow).plain = s.plain := lateGates_plain l s.tickNow
  have hlaunch : (lateGates l s.tickNow).launch l = s.launch l := plain_launch hlate l
  have hr' : ((finishing l (lateGates l s.tickNow)).ctx (s.launch l).ctx).regions = [] :=
    (congrArg Context.regions (plain_ctx hlate _)).trans hr
  have hbad' : deviceBad (finishing l (lateGates l s.tickNow)) (s.launch l).ctx (s.launch l).record 32 = none :=
    (plain_deviceBad hlate ..).trans hbad
  have hplat : (finishing l (lateGates l s.tickNow)).plat = s.plat := (congrArg Plain.plat hlate :)
  have hseqs : (finishing l (lateGates l s.tickNow)).seqs = s.seqs := (congrArg Plain.seqs hlate :)
  have hspec : ((finishing l (lateGates l s.tickNow)).queue (s.launch l).q).spec = (s.queue (s.launch l).q).spec := by
    refine (queue_modQueue_spec _ _ (fun x => ?_) _).trans (lasting_spec (lateGates_lasting l s.tickNow) _)
    rfl
  have hrecord := writeCompletion_record hr' hbad' status (if status = 3 then 0 else (s.launch l).cause) (s.launch l).tag.toNat
    (s.launch l).retired
  rw [seqNumber, hplat, hseqs] at hrecord
  rw [finishLaunch_eq]
  dsimp only
  rw [hlaunch, plain_newestRead (completePacket_plain ?_ _ _), hrecord, seqNumber]
  exact (congrArg QueueSpec.hostHead ((lasting_spec (writeCompletion_lasting ..) _).trans hspec)).trans hhost

/-! ### LAUNCH_COMPLETION -/

theorem launchCompletion_next {l : Nat} {x : Launch} {s : State} (hl : s.launches[l]? = some x) (hst : x.stage ≠ .done)
    (htree : x.tree = 0) (hhalt : (s.ctx x.ctx).halted = false) (hheld : recordHeld s x.q x.ctx x.record = false)
    (hstops : x.stage = .running → widenStops s l = false) (hhalt' : ((forcedStores l x s).ctx x.ctx).halted = false)
    (hwaits : poolWaits (forcedStores l x s) l = false) :
    exec (.launchCompletion l) s =
      .next (finishLaunch l (endStatus l (forcedStores l x s)) (forcedStores l x s)).tickNow := by
  have hexec : exec (.launchCompletion l) s = execLaunchCompletion l s := rfl
  have hgo : (x.stage = .done || x.tree ≠ 0 || ((s.ctx x.ctx).halted && !x.killed) || recordHeld s x.q x.ctx x.record ||
      (x.stage = .running && widenStops s l)) = false := by
    by_cases hrun : x.stage = .running
    · simp [htree, hhalt, hheld, hrun, hstops hrun]
    · simp [htree, hhalt, hheld, hrun, hst]
  have hgo' : (((forcedStores l x s).ctx x.ctx).halted && !x.killed || poolWaits (forcedStores l x s) l) = false := by
    simp [hhalt', hwaits]
  rw [hexec, execLaunchCompletion, hl]
  dsimp only
  rw [if_neg (ne_true_of_eq_false hgo)]
  exact if_neg (ne_true_of_eq_false hgo')

theorem statusOf_ne (cause : Nat) (killed : Bool) : statusOf cause killed ≠ 3 := by
  unfold statusOf
  split
  · decide
  · split <;> decide

/-- Settles O42: the stores' visibility and the late gates leave the launch, but for its stage; what the write of the record and of the
head leave is the finished launch and its tokens, and where no codec region is near the record's bytes. -/
theorem launchesComplete : Obligations.LaunchesComplete := by
  unfold Obligations.LaunchesComplete
  intro l x s hl hst htree hhalt hheld hstops
  change ((forcedStores l x s).ctx x.ctx).halted = false → poolWaits (forcedStores l x s) l = false →
    l < (forcedStores l x s).launches.length → _
  intro hhalt' hwaits hlen
  have hx := launch_of_getElem? hl
  have hnext := launchCompletion_next hl hst htree hhalt hheld hstops hhalt' hwaits
  have hlasting := forcedStores_lasting hl hst
  have hplain := forcedStores_plain hl hst
  have hls : (modLaunch l Launch.widen s).launch l = x.widen := by
    rw [launch_modLaunch l _ s (List.getElem?_eq_some_iff.1 hl).1, hx]
  have hx1 := lasting_launch hlasting l
  rw [hls] at hx1
  have hq : ((forcedStores l x s).launch l).q = x.q := (congrArg Launch.q hx1 :)
  have hmask : ((forcedStores l x s).launch l).setMask = x.setMask := (congrArg Launch.setMask hx1 :)
  have hcycle : (forcedStores l x s).cycle = s.cycle := (congrArg Lasting.cycle hlasting :)
  have hqueues := lasting_queues_length hlasting
  have htokens := lasting_tokens hlasting x.q
  have hspec := lasting_spec hlasting x.q
  have hlaunch := finishLaunch_launch (status := endStatus l (forcedStores l x s)) hlen
  have htok := finishLaunch_tokens (l := l) (s := forcedStores l x s) (status := endStatus l (forcedStores l x s))
  rw [hq, hmask, htokens, hqueues] at htok
  rw [hcycle] at hlaunch
  have hrecord : deviceBad s x.ctx x.record 32 = none → (s.ctx x.ctx).regions = [] → (s.queue x.q).spec.hostHead = true →
      newestRead (finishLaunch l (endStatus l (forcedStores l x s)) (forcedStores l x s)) x.ctx x.record 32 =
        recordOf (statusOf x.cause x.killed) x.cause x.tag.toNat x.retired
          (seqNumber s ((sget 0 feSource s.seqs + 1) % 2 ^ 40)) := by
    intro hbad hr hhost
    have hp := hplain hr
    have hx2 : (forcedStores l x s).launch l = x.widen := (plain_launch hp l).trans hls
    have h := finishLaunch_record (l := l) (s := forcedStores l x s) (status := statusOf x.widen.cause x.widen.killed)
      (by rw [hx2, plain_ctx hp]; exact hr) (by rw [hx2, plain_deviceBad hp]; exact hbad) (by rw [hq, hspec]; exact hhost)
    have hplat : (forcedStores l x s).plat = s.plat := (congrArg Plain.plat hp :)
    have hseqs : (forcedStores l x s).seqs = s.seqs := (congrArg Plain.seqs hp :)
    rw [if_neg (statusOf_ne _ _), hx2, seqNumber, hplat, hseqs] at h
    rw [endStatus, hx2]
    exact h
  generalize finishLaunch l (endStatus l (forcedStores l x s)) (forcedStores l x s) = r at *
  obtain ⟨hstage, hgates, hdone, hdoneIn⟩ := hlaunch
  exact ⟨r.tickNow, hnext, hstage, hgates, hdone, hdoneIn, htok, hrecord⟩

end Sys2Proof.Machine
end

section
/-!
PROOFS. Doorbells: what makes a queue resident, the packets that are fetched, and the creation and resumption of queues.
-/

namespace Sys2Proof.Machine

open Sys2Proof

/-! ### What a doorbell changes -/

/-- The machine without queues, requests, mailboxes and the counters of events. -/
def State.noDoorbell (s : State) : State := { s with queues := [], plat := Platform.init, seqs := [], ctls := [], walks := [] }

theorem State.eq_of_noDoorbell {s t : State} (h : t.noDoorbell = s.noDoorbell) :
    t = { s with queues := t.queues, plat := t.plat, seqs := t.seqs, ctls := t.ctls, walks := t.walks } :=
  (congrArg (fun x : State =>
    { x with queues := t.queues, plat := t.plat, seqs := t.seqs, ctls := t.ctls, walks := t.walks }) h :)

theorem noDoorbell_of_noAsks {s t : State} (h : t.noAsks = s.noAsks) : t.noDoorbell = s.noDoorbell :=
  (congrArg State.noDoorbell h :)

theorem noDoorbell_readPacket {s t : State} (h : t.noDoorbell = s.noDoorbell) (x : Queue) (c : Nat) :
    readPacket t x c = readPacket s x c := (congrArg (fun u : State => readPacket u x c) h :)

theorem postTail_noDoorbell (q : Nat) (s : State) : (postTail q s).noDoorbell = s.noDoorbell := by
  unfold postTail
  split <;> rfl

theorem postTail_queues (q : Nat) (s : State) : (postTail q s).queues = s.queues := by
  unfold postTail
  split <;> rfl

theorem postTail_resident {q : Nat} {s : State} (h : (s.queue q).resident = true) : postTail q s = s := if_pos h

/-- A queue that is not resident any more. -/
def Queue.leave (x : Queue) : Queue := { x with resident := false }

/-- A resident queue that has been written at a cycle. -/
def Queue.arrive (cycle : Nat) (x : Queue) : Queue := { x with resident := true, idle := cycle }

/-- The queue becomes resident; one of 256 may leave before. -/
theorem makeResident_cases (q : Nat) (s : State) : makeResident q s = modQueue q (Queue.arrive s.cycle) s ∨
    ∃ v, makeResident q s = modQueue q (Queue.arrive s.cycle) (modQueue v Queue.leave s) := by
  unfold makeResident
  dsimp only
  split
  · exact .inl rfl
  · split
    · exact .inr ⟨_, rfl⟩
    · exact .inl rfl

theorem makeResident_frame (q : Nat) (s : State) : makeResident q s = { s with queues := (makeResident q s).queues } := by
  obtain h | ⟨v, h⟩ := makeResident_cases q s <;> rw [h] <;> rfl

theorem makeResident_length (q : Nat) (s : State) : (makeResident q s).queues.length = s.queues.length := by
  obtain h | ⟨v, h⟩ := makeResident_cases q s <;> simp only [h, modQueue_queues, modAt_length]

/-- The queue that is made resident, whichever other queue leaves. -/
theorem makeResident_queue {q : Nat} {s : State} (hq : q < s.queues.length) :
    (makeResident q s).queue q = (s.queue q).arrive s.cycle := by
  obtain h | ⟨v, h⟩ := makeResident_cases q s
  · rw [h, queue_modQueue _ _ _ hq]
  · rw [h, queue_modQueue _ _ _ (by rw [modQueue_queues, modAt_length]; exact hq)]
    by_cases hv : q = v
    · rw [← hv, queue_modQueue _ _ _ hq]
      rfl
    · rw [queue_modQueue_ne _ _ _ _ hv]

theorem touchRing_lasting (x : Queue) (cs : List Nat) (s : State) : (touchRing x cs s).lasting = s.lasting := by
  unfold touchRing
  split
  · rfl
  · exact foldl_same State.lasting _ (fun m c => deviceTouch_lasting ..) cs s

theorem touchRing_noAsks {x : Queue} {s : State} (h : x.spec.hostRing = true ∨ (s.ctx x.spec.ctx).regions = []) (cs : List Nat) :
    (touchRing x cs s).noAsks = s.noAsks := by
  unfold touchRing
  split
  · rfl
  · next hring =>
    have hr := h.resolve_left hring
    refine foldl_keeps (fun m => m.noAsks = s.noAsks) _ (fun m c hm => ?_) cs s rfl
    exact (deviceTouch_noAsks (by rw [noAsks_ctx hm, hr]) _ _).trans hm

/-! ### TAIL_DOORBELL -/

/-- A tail that a queue can take. -/
def Queue.takesTail (x : Queue) (t : Nat) : Prop := x.tail ≤ t ∧ x.head ≤ t ∧ t ≤ x.head + x.spec.size

theorem Queue.takesTail.not_bad {x : Queue} {t : Nat} (h : x.takesTail t) :
    decide (t < x.tail ∨ t < x.head ∨ x.head + x.spec.size < t) = false := by
  unfold Queue.takesTail at h
  exact decide_eq_false (by omega)

theorem bad_of_not_takesTail {x : Queue} {t : Nat} (h : ¬x.takesTail t) :
    decide (t < x.tail ∨ t < x.head ∨ x.head + x.spec.size < t) = true := by
  unfold Queue.takesTail at h
  exact decide_eq_true (by omega)

/-- The packets that a new tail covers. -/
def Queue.newPkts (x : Queue) (t : Nat) : List Nat := (List.range (t - x.tail)).map (x.tail + ·)

/-- The machine of a doorbell whose packets can be read. -/
def ringState (q : Nat) (x : Queue) (t : Nat) (s : State) : State := touchRing x (x.newPkts t) (makeResident q (postTail q s))

/-- The packets that it fetches. -/
def fetchedPkts (q : Nat) (x : Queue) (t : Nat) (s : State) : List Packet :=
  (x.newPkts t).map fun c => ⟨c, readPacket (ringState q x t s) x c, .fetched, false, none, none⟩

/-- A queue that has taken a tail. -/
def Queue.takeTail (t : Nat) (new : List Packet) (x : Queue) : Queue := { x with tail := t, pkts := x.pkts ++ new }

section Doorbell

variable {q : Nat} {tail : BitVec 64} {x : Queue} {s : State} (hx : s.queues[q]? = some x)
include hx

theorem tailDoorbell_inRange (ht : x.takesTail tail.toNat) (hroom : x.resident = true ∨ mailRoom s .fe feSource 2 = true)
    (hheld : ringHeld s x (x.newPkts tail.toNat) = false) :
    exec (.tailDoorbell q tail) s = match ringBad s x (x.newPkts tail.toNat) with
      | some a => .next (raiseDevice x.spec.ctx a s)
      | none => .next (modQueue q (Queue.takeTail tail.toNat (fetchedPkts q x tail.toNat s)) (ringState q x tail.toNat s)).tickNow := by
  have hexec : exec (.tailDoorbell q tail) s = execTailDoorbell q tail s := rfl
  have hgo : (x.resident && !false || mailRoom s .fe feSource 2) = true := by
    rcases hroom with h | h <;> simp [h]
  rw [hexec, execTailDoorbell, hx]
  dsimp only [Queue.newPkts] at hheld ⊢
  rw [ht.not_bad, hgo, if_neg (by simp [hheld])]
  rfl

theorem tailDoorbell_error (ht : ¬x.takesTail tail.toNat) (hroom : mailRoom s .fe feSource 2 = true) (hheld : queueHeld s x = false) :
    exec (.tailDoorbell q tail) s = .next (queueError q tail.toNat 0 4 (makeResident q (postTail q s))).tickNow := by
  have hexec : exec (.tailDoorbell q tail) s = execTailDoorbell q tail s := rfl
  rw [hexec, execTailDoorbell, hx]
  dsimp only
  rw [bad_of_not_takesTail ht, if_neg (by simp [hroom, hheld])]
  rfl

theorem tailDoorbell_waits (hroom : ¬mailRoom s .fe feSource 2 = true) (ht : x.resident = false ∨ ¬x.takesTail tail.toNat) :
    exec (.tailDoorbell q tail) s = .next s := by
  have hexec : exec (.tailDoorbell q tail) s = execTailDoorbell q tail s := rfl
  have hneed : (x.resident && !decide (tail.toNat < x.tail ∨ tail.toNat < x.head ∨ x.head + x.spec.size < tail.toNat)) = false := by
    rcases ht with hres | ht
    · rw [hres, Bool.false_and]
    · rw [bad_of_not_takesTail ht, Bool.not_true, Bool.and_false]
  rw [hexec, execTailDoorbell, hx]
  dsimp only
  rw [hneed, if_pos (by simp [hroom])]

end Doorbell

/-! ### The queue and the packets of a doorbell -/

section Fetched

variable {q t : Nat} {x : Queue} {s : State} (hx : s.queues[q]? = some x)
include hx

theorem ringState_lasting : ((ringState q x t s).queue q).lasting = (x.arrive s.cycle).lasting := by
  have hq : q < (postTail q s).queues.length := by
    rw [postTail_queues]
    exact (List.getElem?_eq_some_iff.1 hx).1
  have hqx : (postTail q s).queue q = x := queue_of_getElem? (by rw [postTail_queues, hx])
  have hcycle : (postTail q s).cycle = s.cycle := (congrArg State.cycle (postTail_noDoorbell q s) :)
  rw [ringState, lasting_queue (touchRing_lasting ..), makeResident_queue hq, hqx, hcycle]

omit hx in
theorem ringState_length : (ringState q x t s).queues.length = s.queues.length := by
  rw [ringState, lasting_queues_length (touchRing_lasting ..), makeResident_length, postTail_queues]

/-- The queue of a doorbell whose packets are fetched. -/
theorem fetching_queue {new : List Packet} : ((modQueue q (Queue.takeTail t new) (ringState q x t s)).queue q).lasting =
    { (x.arrive s.cycle).lasting with tail := t, pkts := x.pkts ++ new } := by
  have hq : q < (ringState q x t s).queues.length := by
    rw [ringState_length]
    exact (List.getElem?_eq_some_iff.1 hx).1
  rw [queue_modQueue _ _ _ hq]
  exact (congrArg (Queue.takeTail t new) (ringState_lasting hx) :)

end Fetched

theorem fetchedPkts_getElem? {q t i : Nat} {x : Queue} {s : State} (hi : i < t - x.tail) : (fetchedPkts q x t s)[i]? =
    some ⟨x.tail + i, readPacket (ringState q x t s) x (x.tail + i), .fetched, false, none, none⟩ := by
  simp [fetchedPkts, Queue.newPkts, hi]

theorem fetchedPkts_length (q t : Nat) (x : Queue) (s : State) : (fetchedPkts q x t s).length = t - x.tail := by
  simp [fetchedPkts, Queue.newPkts]

/-- A doorbell whose reads make requests alone: they leave the queues, the mailboxes and what the packets are read from. -/
theorem ringState_noAsks {x : Queue} {s : State} (h : x.spec.hostRing = true ∨ (s.ctx x.spec.ctx).regions = []) (q t : Nat) :
    (ringState q x t s).noAsks = (makeResident q (postTail q s)).noAsks := by
  have hctx : (makeResident q (postTail q s)).ctx x.spec.ctx = s.ctx x.spec.ctx := by
    rw [makeResident_frame]
    exact (congrArg (fun u : State => u.ctx x.spec.ctx) (postTail_noDoorbell q s) :)
  exact touchRing_noAsks (h.imp_right fun hr => by rw [hctx, hr]) _

theorem ringState_noDoorbell {x : Queue} {s : State} (h : x.spec.hostRing = true ∨ (s.ctx x.spec.ctx).regions = []) (q t : Nat) :
    (ringState q x t s).noDoorbell = s.noDoorbell := by
  refine (noDoorbell_of_noAsks (ringState_noAsks h q t)).trans ?_
  rw [makeResident_frame]
  exact postTail_noDoorbell q s

section Plain

variable {q t : Nat} {x : Queue} {s : State} (hx : s.queues[q]? = some x)
  (h : x.spec.hostRing = true ∨ (s.ctx x.spec.ctx).regions = [])
include hx h

theorem fetching_state (new : List Packet) : ((modQueue q (Queue.takeTail t new) (ringState q x t s)).queue q).state = x.state := by
  have hq : q < (postTail q s).queues.length := by
    rw [postTail_queues]
    exact (List.getElem?_eq_some_iff.1 hx).1
  have hqx : (postTail q s).queue q = x := queue_of_getElem? (by rw [postTail_queues, hx])
  have hsame : (ringState q x t s).queue q = (makeResident q (postTail q s)).queue q :=
    (congrArg (fun u : State => u.queue q) (ringState_noAsks h q t) :)
  have hlen : q < (ringState q x t s).queues.length := by
    rw [ringState_length]
    exact (List.getElem?_eq_some_iff.1 hx).1
  rw [queue_modQueue _ _ _ hlen, hsame, makeResident_queue hq, hqx]
  rfl

theorem ringState_mail (hres : x.resident = true) : (ringState q x t s).plat = s.plat ∧ (ringState q x t s).seqs = s.seqs := by
  have hqx : s.queue q = x := queue_of_getElem? hx
  have hpost : postTail q s = s := postTail_resident (by rw [hqx, hres])
  have hasks := ringState_noAsks h q t
  rw [hpost, makeResident_frame] at hasks
  exact ⟨(congrArg State.plat hasks :), (congrArg State.seqs hasks :)⟩

end Plain

/-! ### The clauses of the obligation -/

/-- What a doorbell whose tail is in range leaves. -/
theorem doorbell_fetched {q : Nat} {tail : BitVec 64} {x : Queue} {s : State} (hx : s.queues[q]? = some x)
    (ht : x.takesTail tail.toNat) (hroom : x.resident = true ∨ mailRoom s .fe feSource 2 = true)
    (hheld : ringHeld s x (x.newPkts tail.toNat) = false) (hbad : ringBad s x (x.newPkts tail.toNat) = none) :
    ∃ r, exec (.tailDoorbell q tail) s = .next r ∧
      (r.queue q).tail = tail.toNat ∧ (r.queue q).resident = true ∧ (r.queue q).head = x.head ∧
      (r.queue q).pkts.length = x.pkts.length + (tail.toNat - x.tail) ∧ (r.queue q).pkts.take x.pkts.length = x.pkts ∧
      (∀ i, i < tail.toNat - x.tail → ∃ p, (r.queue q).pkts[x.pkts.length + i]? = some p ∧ p.n = x.tail + i ∧ p.st = .fetched) ∧
      (x.spec.hostRing = true ∨ (s.ctx x.spec.ctx).regions = [] → (r.queue q).state = x.state ∧
        (x.resident = true → r.plat = s.plat ∧ r.seqs = s.seqs) ∧
        (∀ i, i < tail.toNat - x.tail → ∃ p, (r.queue q).pkts[x.pkts.length + i]? = some p ∧ p.raw = readPacket s x (x.tail + i)) ∧
        r = { s with queues := r.queues, plat := r.plat, seqs := r.seqs, ctls := r.ctls, walks := r.walks, now := s.now + 1 }) := by
  have hnext := tailDoorbell_inRange hx ht hroom hheld
  rw [hbad] at hnext
  have hqueue := fetching_queue (t := tail.toNat) (new := fetchedPkts q x tail.toNat s) hx
  have hlen := fetchedPkts_length q tail.toNat x s
  have hpkts : ((modQueue q (Queue.takeTail tail.toNat (fetchedPkts q x tail.toNat s)) (ringState q x tail.toNat s)).queue q).pkts =
      x.pkts ++ fetchedPkts q x tail.toNat s := (congrArg Queue.pkts hqueue :)
  have hget : ∀ i, i < tail.toNat - x.tail → (x.pkts ++ fetchedPkts q x tail.toNat s)[x.pkts.length + i]? =
      some ⟨x.tail + i, readPacket (ringState q x tail.toNat s) x (x.tail + i), .fetched, false, none, none⟩ := by
    intro i hi
    rw [List.getElem?_append_right (Nat.le_add_right ..), Nat.add_sub_cancel_left, fetchedPkts_getElem? hi]
  refine ⟨_, hnext, (congrArg Queue.tail hqueue :), (congrArg Queue.resident hqueue :), (congrArg Queue.head hqueue :), ?_, ?_,
    fun i hi => ⟨_, (congrArg (·[x.pkts.length + i]?) hpkts).trans (hget i hi), rfl, rfl⟩, fun hplain => ⟨?_, fun hres => ?_,
    fun i hi => ⟨_, (congrArg (·[x.pkts.length + i]?) hpkts).trans (hget i hi), noDoorbell_readPacket (ringState_noDoorbell hplain ..) _ _⟩,
    ?_⟩⟩
  · exact (congrArg List.length hpkts).trans (by rw [List.length_append, hlen])
  · exact (congrArg (List.take x.pkts.length) hpkts).trans (List.take_left ..)
  · exact fetching_state hx hplain _
  · exact ringState_mail hx hplain hres
  · exact (congrArg (fun u : State => (modQueue q (Queue.takeTail tail.toNat (fetchedPkts q x tail.toNat s)) u).tickNow)
      (State.eq_of_noDoorbell (ringState_noDoorbell hplain q tail.toNat)) :)

/-- A doorbell whose tail is out of range. -/
theorem doorbell_error {q : Nat} {tail : BitVec 64} {x : Queue} {s : State} (hx : s.queues[q]? = some x)
    (ht : ¬x.takesTail tail.toNat) (hroom : mailRoom s .fe feSource 2 = true) (hheld : queueHeld s x = false) :
    ∃ r, exec (.tailDoorbell q tail) s = .next r ∧ (r.queue q).state = .error := by
  have hnext := tailDoorbell_error hx ht hroom hheld
  have hq : q < (makeResident q (postTail q s)).queues.length := by
    rw [makeResident_length, postTail_queues]
    exact (List.getElem?_eq_some_iff.1 hx).1
  have herr := queueError_state hq tail.toNat 0 4
  generalize queueError q tail.toNat 0 4 (makeResident q (postTail q s)) = r at *
  exact ⟨_, hnext, herr⟩

/-- A queue that is created. -/
theorem queueCreate_next {spec : QueueSpec} {s : State} (hok : queueSpecOk s spec = true) :
    exec (.queueCreate spec) s = .next { s with queues := s.queues ++
      [⟨spec, 0, 0, if (s.ctx spec.ctx).halted then .stopped else .active, 0, [], false, s.cycle⟩] } := if_pos hok

/-- A queue that is taken out of ERROR. -/
theorem queueResume_next (q : Nat) (s : State) : exec (.queueResume q) s = .next (modQueue q (fun x => if x.state = .error then
    { x with state := if (s.ctx x.spec.ctx).halted then .stopped else .active } else x) s) := rfl

/-- Settles O38: a doorbell has four outcomes, by whether its tail is in range, its mailbox has room and its packets can be read; its
reads leave the queues, so the packets are those that the tail covers. -/
theorem queuesFetch : Obligations.QueuesFetch := by
  unfold Obligations.QueuesFetch
  refine ⟨fun q tail x s hx => ⟨fun hgood hroom hheld hbad => doorbell_fetched hx hgood hroom hheld hbad,
    fun hgood hroom hheld a hbad => ?_, fun hgood hroom hheld => doorbell_error hx hgood hroom hheld,
    fun hroom hgood => tailDoorbell_waits hx hroom hgood⟩, fun spec s hok => ⟨_, queueCreate_next hok, ?_⟩,
    fun q x s hx herr => ⟨_, queueResume_next q s, ?_, fun p hp => queue_modQueue_ne _ _ _ _ hp, rfl⟩⟩
  · have hnext := tailDoorbell_inRange hx hgood hroom hheld
    rw [Queue.newPkts, hbad] at hnext
    exact hnext
  · simp [State.queue]
  · have hqx : s.queue q = x := queue_of_getElem? hx
    rw [queue_modQueue _ _ _ (List.getElem?_eq_some_iff.1 hx).1, hqx, if_pos herr]

end Sys2Proof.Machine
end

section
/-!
PROOFS. Packets that run in their turn: the rejection of a bad one, COPY, SIGNAL, TOKCLR and MAP.
-/

namespace Sys2Proof.Machine

open Sys2Proof

/-! ### Rejection, and the turn of a packet -/

theorem tryReject_room {s : State} (hroom : mailRoom s .fe feSource 1 = true) (q n reason : Nat) :
    orWait s (tryReject q n reason s) = .next (rejectPacket q n reason s).tickNow := by
  rw [tryReject, if_pos hroom]
  rfl

theorem runPacket_reject {q type reason : Nat} {p : Packet} {s : State} (hn : nextOf s q type = some p)
    (hc : checkPacket p.raw = some reason) (hroom : mailRoom s .fe feSource 1 = true) (act : Packet → State → Option State) :
    runPacket q type act s = .next (rejectPacket q p.n reason s).tickNow := by
  rw [runPacket, hn]
  dsimp only
  rw [hc]
  exact tryReject_room hroom q p.n reason

theorem launch_reject {q reason : Nat} {p : Packet} {s : State} (hn : nextOf s q 1 = some p)
    (hc : checkPacket p.raw = some reason) (hroom : mailRoom s .fe feSource 1 = true) :
    exec (.launch q) s = .next (rejectPacket q p.n reason s).tickNow := by
  have hexec : exec (.launch q) s = execLaunch q s := rfl
  rw [hexec, execLaunch, hn]
  dsimp only
  rw [hc]
  exact tryReject_room hroom q p.n reason

/-- A packet of a type whose turn has come: it passes its checks and may start. -/
structure InTurn (q type : Nat) (p : Packet) (s : State) : Prop where
  next : nextOf s q type = some p
  checks : checkPacket p.raw = none
  may : mayStart (s.queue q) p.n = true
  running : s.plat.winter = .running

theorem InTurn.acts {q type : Nat} {p : Packet} {s m : State} {act : Packet → State → Option State} (h : InTurn q type p s)
    (hact : act p s = some m) : runPacket q type act s = .next m.tickNow := by
  rw [runPacket, h.next]
  dsimp only
  rw [h.checks]
  dsimp only
  rw [hact, if_pos (by simp [h.may, h.running])]
  rfl

theorem exec_copy (q : Nat) (plan : MmPlan) (s : State) : exec (.copy q plan) s = execCopy q plan s := rfl
theorem exec_signal (q : Nat) (plan : MmPlan) (s : State) : exec (.signal q plan) s = execSignal q plan s := rfl
theorem exec_tokclr (q : Nat) (s : State) : exec (.tokclr q) s = execTokclr q s := rfl
theorem exec_map (q : Nat) (salvage : List (Nat × Nat)) (ptes : List (Nat × BitVec 64)) (s : State) :
    exec (.map q salvage ptes) s = execMap q salvage ptes s := rfl

theorem badPacket_next {q reason : Nat} {p : Packet} {s : State} {i : Instr}
    (hi : i = .launch q ∧ nextOf s q 1 = some p ∨ (∃ plan, i = .copy q plan ∧ nextOf s q 2 = some p) ∨
      (∃ plan, i = .signal q plan ∧ nextOf s q 3 = some p) ∨ (i = .tokclr q ∧ nextOf s q 4 = some p) ∨
      (∃ sv ptes, i = .map q sv ptes ∧ nextOf s q 6 = some p))
    (hc : checkPacket p.raw = some reason) (hroom : mailRoom s .fe feSource 1 = true) :
    exec i s = .next (rejectPacket q p.n reason s).tickNow := by
  obtain ⟨rfl, hn⟩ | ⟨plan, rfl, hn⟩ | ⟨plan, rfl, hn⟩ | ⟨rfl, hn⟩ | ⟨sv, ptes, rfl, hn⟩ := hi
  · exact launch_reject hn hc hroom
  · rw [exec_copy, execCopy]
    exact runPacket_reject hn hc hroom _
  · rw [exec_signal, execSignal]
    exact runPacket_reject hn hc hroom _
  · rw [exec_tokclr, execTokclr]
    exact runPacket_reject hn hc hroom _
  · rw [exec_map, execMap]
    exact runPacket_reject hn hc hroom _

/-- The packet of a queue that has completed, in a state whose queues last. -/
theorem completed_lasting {q : Nat} {p : Packet} {s m : State} {doneAt : Option Nat} (hq : q < s.queues.length)
    (hp : (s.queue q).pkts[p.n]? = some p) (hlen : m.queues.length = s.queues.length) (hpkts : (m.queue q).pkts = (s.queue q).pkts) :
    ∃ p', ((completePacket q p.n doneAt m).queue q).pkts[p.n]? = some p' ∧ p'.st = .completed :=
  ⟨_, completed_pkt (hlen ▸ hq) (by rw [hpkts, hp]), rfl⟩

/-! ### COPY -/

/-- The transfer of a COPY packet. -/
def xferOf (q : Nat) (p : Packet) (s : State) : Xfer :=
  ⟨q, p.n, (s.queue q).spec.ctx, pf p.raw 0x10 8, pf p.raw 0x18 8, pf p.raw 8 8, 0, BitVec.ofNat 64 (pf p.raw 0x28 8),
    pf p.raw 0x38 8, 0, false, false, p.cls (s.queue q), false⟩

theorem lasting_xfers {s t : State} (h : t.lasting = s.lasting) : t.xfers = s.xfers := (congrArg Lasting.xfers h :)

theorem completePacket_xfers (q n : Nat) (doneAt : Option Nat) (s : State) : (completePacket q n doneAt s).xfers = s.xfers := by
  obtain ⟨h, hh⟩ := completePacket_lasting q n doneAt s
  rw [lasting_xfers hh, modQueue_xfers]

theorem startPacket_xfers (q n : Nat) (s : State) : (startPacket q n s).xfers = s.xfers := by
  obtain ⟨h, hh⟩ := startPacket_lasting q n s
  rw [lasting_xfers hh, modQueue_xfers]

theorem finishCopy_xfers (c status : Nat) (s : State) :
    (finishCopy c status s).xfers = modAt (fun x => { x with done := true }) c s.xfers := by
  rw [finishCopy, completePacket_xfers, lasting_xfers (writeCompletion_lasting ..)]
  rfl

/-- A COPY that starts adds its transfer, which may have failed at once. -/
theorem startCopyPacket_xfers (q : Nat) (plan : MmPlan) (p : Packet) (s : State) : ∃ d,
    (startCopyPacket q plan p s).xfers = s.xfers ++ [{ xferOf q p s with done := d }] := by
  have hm : (mmWrite false plan.ptes (startPacket q p.n s)).xfers = s.xfers :=
    (lasting_xfers (mmWrite_lasting ..)).trans (startPacket_xfers ..)
  unfold startCopyPacket
  dsimp only
  rw [hm]
  split
  · exact ⟨false, rfl⟩
  · refine ⟨true, ?_⟩
    rw [finishCopy_xfers]
    refine List.ext_getElem? fun k => ?_
    rw [modAt_getElem?]
    split
    · next hk => subst hk; simp [xferOf]
    · next hk =>
      rcases Nat.lt_or_gt_of_ne hk with hlt | hgt
      · rw [List.getElem?_append_left hlt, List.getElem?_append_left hlt]
      · rw [List.getElem?_eq_none (by simp; omega), List.getElem?_eq_none (by simp; omega)]

theorem copy_next {q : Nat} {plan : MmPlan} {p : Packet} {s : State} (h : InTurn q 2 p s)
    (hheld : recordHeld s q (s.queue q).spec.ctx (pf p.raw 0x38 8) = false) :
    exec (.copy q plan) s = .next (startCopyPacket q plan p s).tickNow := by
  rw [exec_copy, execCopy]
  exact h.acts (if_neg (ne_true_of_eq_false hheld))

/-! ### SIGNAL -/

/-- A SIGNAL's interrupt. -/
def signalIrq (q : Nat) (p : Packet) (s m : State) : State :=
  if (pf p.raw 2 1).testBit 0 then reply (.irq (s.queue q).spec.fn (pf p.raw 4 2)) m else m

/-- What a SIGNAL leaves before its packet completes. -/
def signalled (q : Nat) (plan : MmPlan) (p : Packet) (s : State) : State :=
  signalIrq q p s (deviceWrite (s.queue q).spec.ctx (pf p.raw 8 8) ((p.raw.drop 0x10).take 8) (mmWrite false plan.ptes s))

theorem signal_next {q : Nat} {plan : MmPlan} {p : Packet} {s : State} (h : InTurn q 3 p s)
    (hres : plan.resident = true)
    (hmap : mappedWith (mmWrite false plan.ptes s) (s.queue q).spec.ctx (pf p.raw 8 8) 8 .w = true)
    (hheld : deviceHeld s (s.queue q).spec.ctx (pf p.raw 8 8) 8 = false) :
    exec (.signal q plan) s = .next (completePacket q p.n none (signalled q plan p s)).tickNow := by
  rw [exec_signal, execSignal]
  refine h.acts ?_
  dsimp only
  rw [if_neg (ne_true_of_eq_false hheld), if_neg (by simp [hres, hmap])]
  rfl

theorem signalIrq_queues (q : Nat) (p : Packet) (s m : State) : (signalIrq q p s m).queues = m.queues := by
  unfold signalIrq
  split <;> rfl

theorem signalled_queue (q : Nat) (plan : MmPlan) (p : Packet) (s : State) :
    ((signalled q plan p s).queue q).lasting = (s.queue q).lasting ∧ (signalled q plan p s).queues.length = s.queues.length := by
  have hw : (deviceWrite (s.queue q).spec.ctx (pf p.raw 8 8) ((p.raw.drop 0x10).take 8) (mmWrite false plan.ptes s)).lasting =
      s.lasting := by
    rw [deviceWrite_lasting, mmWrite_lasting]
  rw [signalled, State.queue, signalIrq_queues]
  exact ⟨lasting_queue hw q, lasting_queues_length hw⟩

theorem newestByte_signalIrq (q : Nat) (p : Packet) (s m : State) (key : Nat) : newestByte (signalIrq q p s m) key = newestByte m key := by
  unfold signalIrq
  split <;> rfl

theorem signal_bytes {raw : List Byte} (hlen : raw.length = 64) : ((raw.drop 0x10).take 8).length = 8 ∧
    ∀ j, j < 8 → ((raw.drop 0x10).take 8).getD j 0 = raw.getD (0x10 + j) 0 := by
  refine ⟨by simp [hlen], fun j hj => ?_⟩
  simp [List.getD_eq_getElem?_getD, hj, List.getElem?_drop]

theorem newestByte_signalled {q : Nat} {plan : MmPlan} {p : Packet} {s : State}
    (hbad : deviceBad (mmWrite false plan.ptes s) (s.queue q).spec.ctx (pf p.raw 8 8) 8 = none)
    (hr : (s.ctx (s.queue q).spec.ctx).regions = []) (hlen : p.raw.length = 64) (key : Nat) :
    newestByte (signalled q plan p s) key =
      if (s.queue q).spec.ctx * 2 ^ 56 + pf p.raw 8 8 ≤ key ∧ key < (s.queue q).spec.ctx * 2 ^ 56 + pf p.raw 8 8 + 8
      then p.raw.getD (0x10 + (key - ((s.queue q).spec.ctx * 2 ^ 56 + pf p.raw 8 8))) 0 else newestByte s key := by
  obtain ⟨hn, hget⟩ := signal_bytes hlen
  have htables := mmWrite_noTables false plan.ptes s
  rw [signalled, newestByte_signalIrq,
    newestByte_deviceWrite ((noTables_regions htables _).trans hr) (by rw [hn]; exact hbad), hn, noTables_newestByte htables]
  split
  · next hk => exact hget _ (by omega)
  · rfl

theorem signalled_irq {q : Nat} {p : Packet} {s : State} (plan : MmPlan) (hbit : (pf p.raw 2 1).testBit 0 = true) :
    Reply.irq (s.queue q).spec.fn (pf p.raw 4 2) ∈ (signalled q plan p s).plat.out := by
  rw [signalled, signalIrq, if_pos hbit]
  exact List.mem_append_right _ List.mem_cons_self

theorem completePacket_out (q n : Nat) (doneAt : Option Nat) (s : State) : (completePacket q n doneAt s).plat.out = s.plat.out := by
  obtain ⟨h, hh⟩ := completePacket_lasting q n doneAt s
  exact (congrArg Lasting.out hh :)

/-! ### TOKCLR -/

/-- A queue that has lost tokens. -/
def Queue.clearTokens (mask : BitVec 64) (x : Queue) : Queue := { x with tokens := x.tokens &&& ~~~mask }

theorem tokclr_next {q : Nat} {p : Packet} {s : State} (h : InTurn q 4 p s) :
    exec (.tokclr q) s = .next (completePacket q p.n none
      (modQueue q (Queue.clearTokens (BitVec.ofNat 64 (pf p.raw 8 8))) s)).tickNow := by
  rw [exec_tokclr, execTokclr]
  exact h.acts rfl

theorem completePacket_tokens {q : Nat} {s : State} (hq : q < s.queues.length) (n : Nat) (doneAt : Option Nat) :
    ((completePacket q n doneAt s).queue q).tokens = (s.queue q).tokens := by
  obtain ⟨h, hh⟩ := completePacket_lasting q n doneAt s
  rw [lasting_tokens hh, queue_modQueue _ _ _ hq]
  rfl

/-! ### MAP -/

/-- A context with a set of ranges. -/
def Context.addSet (id : Nat) (rs : List Range) (c : Context) : Context :=
  { c with sets := (id, rs) :: c.sets.filter (·.1 ≠ id), maps := rs ++ c.maps }

theorem setOf_addSet (id : Nat) (rs : List Range) (c : Context) : setOf (c.addSet id rs) id = some rs := by
  simp [setOf, Context.addSet]

theorem setOf_addSet_ne {n id : Nat} (hn : n ≠ id) (rs : List Range) (c : Context) : setOf (c.addSet id rs) n = setOf c n := by
  have hfind : (c.sets.filter (·.1 ≠ id)).find? (·.1 = n) = c.sets.find? (·.1 = n) := by
    rw [List.find?_filter]
    refine congrArg (fun f => List.find? f c.sets) (funext fun e => ?_)
    by_cases he : e.1 = n
    · simp [he, hn]
    · simp [he]
  simp only [setOf, Context.addSet]
  rw [List.find?_cons_of_neg (by simpa using Ne.symm hn), hfind]

theorem ctx?_modCtx {n : Nat} {f : Context → Context} (hf : ∀ c, (f c).spec = c.spec) (s : State) :
    (modCtx n f s).ctx? n = (s.ctx? n).map f := by
  have hsame : ((fun c : Context => decide (c.spec.num = n)) ∘ fun c => if decide (c.spec.num = n) then f c else c) =
      fun c => decide (c.spec.num = n) := by
    funext c
    simp only [Function.comp_apply]
    split
    · rw [hf]
    · rfl
  simp only [State.ctx?, modCtx, modIf, List.find?_map, hsame]
  cases hfind : s.ctxs.find? fun c => decide (c.spec.num = n) with
  | none => rfl
  | some c => simpa using fun h => absurd (by simpa using List.find?_some hfind) h

theorem ctx_modCtx {n : Nat} {f : Context → Context} {s : State} (hf : ∀ c, (f c).spec = c.spec) (hs : (s.ctx? n).isSome = true) :
    (modCtx n f s).ctx n = f (s.ctx n) := by
  obtain ⟨c, hc⟩ := Option.isSome_iff_exists.1 hs
  rw [State.ctx, ctx?_modCtx hf, State.ctx, hc, Option.map_some, Option.getD_some, Option.getD_some]

/-- A change of the pool regions of a context. -/
theorem modPools_lasting (ctx : Nat) (f : List PoolRegion → List PoolRegion) (s : State) :
    (modCtx ctx (fun c => { c with pools := f c.pools }) s).lasting = s.lasting := by
  refine lasting_modCtx ctx (fun c => ?_) s
  rfl

theorem dropPools_eq (ctx : Nat) (s : State) : ∃ p kept bs l, dropPools ctx s =
    { keepPeers bs (modCtx ctx (fun c => { c with pools := kept }) (recallLines p s)) with rmap := l } := ⟨_, _, _, _, rfl⟩

theorem dropPools_lasting (ctx : Nat) (s : State) : (dropPools ctx s).lasting = s.lasting := by
  obtain ⟨p, kept, bs, l, h⟩ := dropPools_eq ctx s
  rw [h]
  exact (modPools_lasting ctx (fun _ => kept) (recallLines p s)).trans (recallLines_lasting p s)

theorem addPool_lasting (ctx : Nat) (salvage : List (Nat × Nat)) (r : Range) (s : State) : (addPool ctx salvage r s).lasting = s.lasting := by
  unfold addPool
  dsimp only
  split
  · rfl
  · split
    · split
      · rfl
      · exact (modPools_lasting ctx (· ++ [_]) _).trans rfl
    · split
      · rfl
      · exact modPools_lasting ctx (· ++ [_]) _

theorem claimPeers_lasting (s : State) : (claimPeers s).lasting = s.lasting := by
  refine Eq.trans (foldl_same State.lasting _ (fun m g => ?_) _ _) rfl
  rfl

/-- What a MAP leaves before its packet completes. -/
def mapDone (ctx : Nat) (salvage : List (Nat × Nat)) (id : Nat) (rs : List Range) (m : State) : State :=
  refreshAliases (claimPeers (rs.foldl (fun s r => addPool ctx salvage r s)
    (dropPools ctx (modCtx ctx (Context.addSet id rs) (notify [.cv, .mm] feSource m)))))

theorem mapDone_lasting (ctx : Nat) (salvage : List (Nat × Nat)) (id : Nat) (rs : List Range) (m : State) :
    (mapDone ctx salvage id rs m).lasting = (modCtx ctx (Context.addSet id rs) (notify [.cv, .mm] feSource m)).lasting := by
  have hpools := foldl_same State.lasting (fun s r => addPool ctx salvage r s) (fun m r => addPool_lasting ctx salvage r m) rs
    (dropPools ctx (modCtx ctx (Context.addSet id rs) (notify [.cv, .mm] feSource m)))
  rw [mapDone, lasting_of_noTables (refreshAliases_noTables _), claimPeers_lasting, hpools, dropPools_lasting]

/-- The machine of a MAP that has read its array. -/
def mapRead (q : Nat) (p : Packet) (s : State) : State :=
  deviceTouch (s.queue q).spec.ctx (pf p.raw 8 8) (16 * pf p.raw 4 1) s

/-- Nothing holds a MAP or rejects it: its array can be read, its messages have room, its ranges keep the rules and its new pool regions
have their areas. -/
structure MapGoes (q : Nat) (salvage : List (Nat × Nat)) (ptes : List (Nat × BitVec 64)) (p : Packet) (rs : List Range) (s : State) :
    Prop where
  held : deviceHeld s (s.queue q).spec.ctx (pf p.raw 8 8) (16 * pf p.raw 4 1) = false
  bad : deviceBad s (s.queue q).spec.ctx (pf p.raw 8 8) (16 * pf p.raw 4 1) = none
  cv : mailRoom s .cv feSource 1 = true
  mm : mailRoom s .mm feSource 1 = true
  fe : mailRoom s .fe feSource 1 = true
  ranges : rangesOf ((List.range (pf p.raw 4 1)).map fun i =>
    ((sysRead (mapRead q p s) (s.queue q).spec.ctx (pf p.raw 8 8) (16 * pf p.raw 4 1)).drop (16 * i)).take 16) = .ok rs
  apart : apart rs = true
  sets : (s.ctx (s.queue q).spec.ctx).sets.length < 256
  rules : mapBreaks (mmWrite true ptes (mapRead q p s)) (s.queue q).spec.ctx rs = false
  areas : ∀ r ∈ rs, areaOk (mmWrite true ptes (mapRead q p s)) (s.queue q).spec.ctx salvage r = true

theorem map_next {q : Nat} {salvage : List (Nat × Nat)} {ptes : List (Nat × BitVec 64)} {p : Packet} {rs : List Range} {s : State}
    (h : InTurn q 6 p s) (hgo : MapGoes q salvage ptes p rs s) :
    exec (.map q salvage ptes) s = .next (completePacket q p.n none
      (mapDone (s.queue q).spec.ctx salvage (pf p.raw 2 2) rs (mmWrite true ptes (mapRead q p s)))).tickNow := by
  have hlen : ((mapRead q p s).ctx (s.queue q).spec.ctx).sets.length < 256 := by
    have hctx := congrArg (fun c => c.2.1) (lasting_ctx (deviceTouch_lasting (s.queue q).spec.ctx (pf p.raw 8 8)
      (16 * pf p.raw 4 1) s) (s.queue q).spec.ctx)
    exact (congrArg List.length hctx).trans_lt hgo.sets
  have hall := List.all_eq_true.2 hgo.areas
  have hrs := hgo.ranges
  have hrules := hgo.rules
  rw [mapRead] at hlen hall hrs hrules
  rw [exec_map, execMap]
  refine h.acts ?_
  refine (if_neg (by simp [hgo.held, hgo.cv, hgo.mm, hgo.fe])).trans ?_
  rw [hgo.bad]
  dsimp only
  rw [hrs]
  dsimp only
  rw [if_neg (by simp [hgo.apart, hrules, hlen]), if_neg (by simp [hall])]
  rfl

theorem completePacket_ctx (q n : Nat) (doneAt : Option Nat) (s : State) (ctx : Nat) :
    ((completePacket q n doneAt s).ctx ctx).lasting = (s.ctx ctx).lasting := by
  obtain ⟨h, hh⟩ := completePacket_lasting q n doneAt s
  exact lasting_ctx hh ctx

theorem setOf_of_lasting {c c' : Context} (h : c'.lasting = c.lasting) (n : Nat) : setOf c' n = setOf c n :=
  (congrArg (fun e : ContextSpec × List (Nat × List Range) × List Range => (e.2.1.find? (·.1 = n)).map Prod.snd) h :)

theorem maps_of_lasting {c c' : Context} (h : c'.lasting = c.lasting) : c'.maps = c.maps := (congrArg (fun e => e.2.2) h :)

/-- The context of a MAP: it holds the new set, and its other sets. -/
theorem mapDone_ctx {ctx id : Nat} {rs : List Range} {s m : State} (hm : m.lasting = s.lasting) (hctx : (s.ctx? ctx).isSome = true)
    (salvage : List (Nat × Nat)) : ((mapDone ctx salvage id rs m).ctx ctx).lasting = ((s.ctx ctx).addSet id rs).lasting := by
  have hn : (notify [.cv, .mm] feSource m).lasting = s.lasting := (notify_lasting ..).trans hm
  have hsome : ((notify [.cv, .mm] feSource m).ctx? ctx).isSome = true := by
    have h := congrArg Option.isSome (lasting_ctx? hn ctx)
    rwa [Option.isSome_map, Option.isSome_map, hctx] at h
  rw [lasting_ctx (mapDone_lasting ..), ctx_modCtx (f := Context.addSet id rs) (fun _ => rfl) hsome]
  exact (congrArg (fun e : ContextSpec × List (Nat × List Range) × List Range =>
    (e.1, (id, rs) :: e.2.1.filter (·.1 ≠ id), rs ++ e.2.2)) (lasting_ctx hn ctx) :)

theorem mapDone_queue {ctx id : Nat} {rs : List Range} {s m : State} (hm : m.lasting = s.lasting) (salvage : List (Nat × Nat)) (q : Nat) :
    ((mapDone ctx salvage id rs m).queue q).pkts = (s.queue q).pkts ∧
      (mapDone ctx salvage id rs m).queues.length = s.queues.length := by
  have hn : (notify [.cv, .mm] feSource m).lasting = s.lasting := (notify_lasting ..).trans hm
  have hdone := mapDone_lasting ctx salvage id rs m
  exact ⟨(lasting_pkts hdone q).trans (lasting_pkts hn q), (lasting_queues_length hdone).trans (lasting_queues_length hn :)⟩

/-! ### The obligation -/

theorem tokclr_runs {q : Nat} {p : Packet} {s : State} (h : InTurn q 4 p s)
    (hq : q < s.queues.length) (hp : (s.queue q).pkts[p.n]? = some p) :
    ∃ r, exec (.tokclr q) s = .next r ∧ (∃ p', (r.queue q).pkts[p.n]? = some p' ∧ p'.st = .completed) ∧
      (r.queue q).tokens = (s.queue q).tokens &&& ~~~BitVec.ofNat 64 (pf p.raw 8 8) := by
  have hlen : (modQueue q (Queue.clearTokens (BitVec.ofNat 64 (pf p.raw 8 8))) s).queues.length = s.queues.length := modAt_length ..
  have hqueue := queue_modQueue q (Queue.clearTokens (BitVec.ofNat 64 (pf p.raw 8 8))) s hq
  have hdone := completed_lasting (doneAt := none) hq hp hlen (congrArg Queue.pkts hqueue :)
  have htok := completePacket_tokens (hlen ▸ hq) p.n none
  rw [hqueue] at htok
  have hnext := tokclr_next h
  generalize completePacket q p.n none (modQueue q (Queue.clearTokens (BitVec.ofNat 64 (pf p.raw 8 8))) s) = r at *
  exact ⟨_, hnext, hdone, htok⟩

theorem signal_runs {q : Nat} {plan : MmPlan} {p : Packet} {s : State} (h : InTurn q 3 p s)
    (hq : q < s.queues.length) (hp : (s.queue q).pkts[p.n]? = some p) (hres : plan.resident = true)
    (hmap : mappedWith (mmWrite false plan.ptes s) (s.queue q).spec.ctx (pf p.raw 8 8) 8 .w = true)
    (hheld : deviceHeld s (s.queue q).spec.ctx (pf p.raw 8 8) 8 = false) :
    ∃ r, exec (.signal q plan) s = .next r ∧ (∃ p', (r.queue q).pkts[p.n]? = some p' ∧ p'.st = .completed) ∧
      (deviceBad (mmWrite false plan.ptes s) (s.queue q).spec.ctx (pf p.raw 8 8) 8 = none → (s.ctx (s.queue q).spec.ctx).regions = [] →
        (s.queue q).spec.hostHead = true → p.raw.length = 64 →
        ∀ key, newestByte r key =
          if (s.queue q).spec.ctx * 2 ^ 56 + pf p.raw 8 8 ≤ key ∧ key < (s.queue q).spec.ctx * 2 ^ 56 + pf p.raw 8 8 + 8
          then p.raw.getD (0x10 + (key - ((s.queue q).spec.ctx * 2 ^ 56 + pf p.raw 8 8))) 0 else newestByte s key) ∧
      ((pf p.raw 2 1).testBit 0 = true → Reply.irq (s.queue q).spec.fn (pf p.raw 4 2) ∈ r.plat.out) := by
  obtain ⟨hqueue, hlen⟩ := signalled_queue q plan p s
  have hnext := signal_next h hres hmap hheld
  have hdone := completed_lasting (doneAt := none) hq hp hlen (congrArg Queue.pkts hqueue :)
  have hout : (completePacket q p.n none (signalled q plan p s)).plat.out = (signalled q plan p s).plat.out := completePacket_out ..
  have hspec : ((signalled q plan p s).queue q).spec = (s.queue q).spec := (congrArg Queue.spec hqueue :)
  have hplain : (s.queue q).spec.hostHead = true →
      (completePacket q p.n none (signalled q plan p s)).plain = (signalled q plan p s).plain :=
    fun hhost => completePacket_plain (by rw [hspec, hhost]) p.n none
  generalize completePacket q p.n none (signalled q plan p s) = r at *
  refine ⟨_, hnext, hdone, fun hbad hr hhost hraw key => ?_, fun hbit => ?_⟩
  · exact (plain_newestByte (hplain hhost) key).trans (newestByte_signalled hbad hr hraw key)
  · exact hout ▸ signalled_irq plan hbit

theorem copy_runs {q : Nat} {plan : MmPlan} {p : Packet} {s : State} (h : InTurn q 2 p s)
    (hheld : recordHeld s q (s.queue q).spec.ctx (pf p.raw 0x38 8) = false) :
    ∃ r, exec (.copy q plan) s = .next r ∧ r.xfers.length = s.xfers.length + 1 ∧
      (r.xfers.getD s.xfers.length default).src = pf p.raw 0x10 8 ∧ (r.xfers.getD s.xfers.length default).dst = pf p.raw 0x18 8 ∧
      (r.xfers.getD s.xfers.length default).len = pf p.raw 8 8 := by
  obtain ⟨d, hd⟩ := startCopyPacket_xfers q plan p s
  have hlen := congrArg List.length hd
  have hnew := congrArg (List.getD · s.xfers.length default) hd
  simp only [List.length_append, List.length_cons, List.length_nil, Nat.zero_add] at hlen
  simp only [List.getD_eq_getElem?_getD, List.getElem?_concat_length, Option.getD_some] at hnew
  rw [← List.getD_eq_getElem?_getD] at hnew
  exact ⟨_, copy_next h hheld, hlen, (congrArg Xfer.src hnew :), (congrArg Xfer.dst hnew :), (congrArg Xfer.len hnew :)⟩

theorem map_runs {q : Nat} {salvage : List (Nat × Nat)} {p : Packet} {rs : List Range} {s m : State} {i : Instr}
    (hnext : exec i s = .next (completePacket q p.n none (mapDone (s.queue q).spec.ctx salvage (pf p.raw 2 2) rs m)).tickNow)
    (hm : m.lasting = s.lasting) (hq : q < s.queues.length) (hp : (s.queue q).pkts[p.n]? = some p)
    (hctx : (s.ctx? (s.queue q).spec.ctx).isSome = true) :
    ∃ r, exec i s = .next r ∧ (∃ p', (r.queue q).pkts[p.n]? = some p' ∧ p'.st = .completed) ∧
      setOf (r.ctx (s.queue q).spec.ctx) (pf p.raw 2 2) = some rs ∧
      (∀ n, n ≠ pf p.raw 2 2 → setOf (r.ctx (s.queue q).spec.ctx) n = setOf (s.ctx (s.queue q).spec.ctx) n) ∧
      (r.ctx (s.queue q).spec.ctx).maps = rs ++ (s.ctx (s.queue q).spec.ctx).maps := by
  have hdone := (completePacket_ctx q p.n none _ _).trans (mapDone_ctx (id := pf p.raw 2 2) (rs := rs) hm hctx salvage)
  obtain ⟨hpkts, hlen⟩ := mapDone_queue (ctx := (s.queue q).spec.ctx) (id := pf p.raw 2 2) (rs := rs) hm salvage q
  have hpkt := completed_lasting (doneAt := none) hq hp hlen hpkts
  generalize completePacket q p.n none (mapDone (s.queue q).spec.ctx salvage (pf p.raw 2 2) rs m) = r at *
  exact ⟨_, hnext, hpkt, (setOf_of_lasting hdone _).trans (setOf_addSet ..),
    fun n hne => (setOf_of_lasting hdone _).trans (setOf_addSet_ne hne ..), maps_of_lasting hdone⟩

/-- Settles O40: a packet's turn comes to its rejection or to its act; what the act's accesses, messages and the write of the head
leave is the transfer, the bytes, the tokens or the set. -/
theorem packetsRun : Obligations.PacketsRun := by
  unfold Obligations.PacketsRun
  refine ⟨fun q p reason s i hi hq hp hc hroom => ?_, fun q plan p s hn hc hmay hwin hheld => copy_runs ⟨hn, hc, hmay, hwin⟩ hheld,
    fun q plan p s hn hc hmay hwin hq hp hres hmap hheld => signal_runs ⟨hn, hc, hmay, hwin⟩ hq hp hres hmap hheld,
    fun q p s hn hc hmay hwin hq hp => tokclr_runs ⟨hn, hc, hmay, hwin⟩ hq hp, ?_⟩
  · obtain ⟨herr, hpkt⟩ := rejectPacket_queue (reason := reason) hq hp
    have hnext := badPacket_next hi hc hroom
    generalize rejectPacket q p.n reason s = r at *
    exact ⟨_, hnext, herr, _, hpkt, rfl, rfl⟩
  · intro q salvage ptes p rs s hn hc hmay hwin hq hp ctx at_ len s1 m raw hheld hbad hcv hmm hfe hrs hapart hsets hrules harea hctx
    exact map_runs (map_next ⟨hn, hc, hmay, hwin⟩ ⟨hheld, hbad, hcv, hmm, hfe, hrs, hapart, hsets, hrules, harea⟩)
      ((mmWrite_lasting ..).trans (deviceTouch_lasting ..)) hq hp hctx

end Sys2Proof.Machine
end

section
/-!
PROOFS. Encodings: a word is its fields and the fields are read back, an opcode names one constructor, and so decoding and
encoding are inverses, for the base forms, the extended form and Fitas.
-/

namespace Sys2Proof.Machine

open Sys2Proof

/-! ### Words and bytes -/

theorem wordBytes_wordOf (b0 b1 b2 b3 : Byte) : wordBytes (wordOf b0 b1 b2 b3) = [b0, b1, b2, b3] := by
  simp only [wordBytes, wordOf, BitVec.extractLsb'_append_eq_of_le, BitVec.extractLsb'_append_eq_right,
    BitVec.extractLsb'_eq_self, Nat.reduceLeDiff, Nat.reduceSub, Nat.le_refl]

theorem takeWord_eq_some_iff {bs r : List Byte} {w : Word} : takeWord bs = some (w, r) ↔ bs = wordBytes w ++ r := by
  refine ⟨fun h => ?_, fun h => h ▸ Laws.EncodeLength.takeWord_wordBytes w r⟩
  unfold takeWord at h
  split at h
  · next b0 b1 b2 b3 r' =>
    obtain ⟨rfl, rfl⟩ : wordOf b0 b1 b2 b3 = w ∧ r' = r := by simpa using h
    rw [wordBytes_wordOf]; rfl
  · exact nomatch h

theorem wordBytes_length (w : Word) : (wordBytes w).length = 4 := rfl

/-! ### A word is its fields -/

theorem append_eq_append_iff {m k : Nat} {x x' : BitVec m} {y y' : BitVec k} : x ++ y = x' ++ y' ↔ x = x' ∧ y = y' := by
  refine ⟨fun h => ⟨?_, ?_⟩, fun ⟨hx, hy⟩ => hx ▸ hy ▸ rfl⟩
  · rw [← BitVec.extractLsb'_append_eq_left (a := x) (b := y), h, BitVec.extractLsb'_append_eq_left]
  · rw [← BitVec.extractLsb'_append_eq_right (a := x) (b := y), h, BitVec.extractLsb'_append_eq_right]

theorem extract_eq_append_iff {n s m k : Nat} {w : BitVec n} {x : BitVec m} {y : BitVec k} :
    w.extractLsb' s (m + k) = x ++ y ↔ w.extractLsb' (s + k) m = x ∧ w.extractLsb' s k = y := by
  rw [← BitVec.extractLsb'_append_extractLsb'_eq_extractLsb' rfl, append_eq_append_iff]

theorem eq_append_iff {m k : Nat} {w : BitVec (m + k)} {x : BitVec m} {y : BitVec k} :
    w = x ++ y ↔ w.extractLsb' k m = x ∧ w.extractLsb' 0 k = y := by
  conv_lhs => rw [← BitVec.extractLsb'_append_extractLsb' (x := w)]
  exact append_eq_append_iff

/-- One bit as a field. -/
theorem extract_eq_bitOfBool_iff {n s : Nat} {w : BitVec n} {b : Bool} : w.extractLsb' s 1 = bitOfBool b ↔ w.getLsbD s = b := by
  rw [BitVec.getLsbD_eq_extractLsb']
  generalize w.extractLsb' s 1 = x
  revert b x
  decide

/-! ### The four lengths (04 Table 04.5) -/

/-- What the bytes are that `decode` accepts: by LEN of the first word, a base form without or with a literal, an extended form without or
with one. -/
inductive Reads (i : Instr) (rest : List Byte) : List Byte → Prop
  | base (w : Word) (hl : w.extractLsb' 0 2 = 0#2) (hd : decodeBase w = .ok i) : Reads i rest (wordBytes w ++ rest)
  | extended (w0 w1 w2 : Word) (hl : w0.extractLsb' 0 2 = 1#2) (hd : decodeE w0 w1 w2 none = .ok i) :
    Reads i rest (wordBytes w0 ++ (wordBytes w1 ++ (wordBytes w2 ++ rest)))
  | baseLiteral (w l h : Word) (hl : w.extractLsb' 0 2 = 2#2) (hd : decodeBaseLiteral w l h = .ok i) :
    Reads i rest (wordBytes w ++ (wordBytes l ++ (wordBytes h ++ rest)))
  | extendedLiteral (w0 w1 w2 l h : Word) (hl : w0.extractLsb' 0 2 = 3#2) (hd : decodeE w0 w1 w2 (some (h ++ l)) = .ok i) :
    Reads i rest (wordBytes w0 ++ (wordBytes w1 ++ (wordBytes w2 ++ (wordBytes l ++ (wordBytes h ++ rest)))))

theorem Reads.decode {i : Instr} {rest bs : List Byte} (h : Reads i rest bs) : decode bs = .ok i rest := by
  cases h <;> next hl hd =>
    simp [Sys2Proof.decode, Laws.EncodeLength.takeWord_wordBytes, hl, hd, Decoded.ofExcept]

theorem ofExcept_eq_ok {r rest : List Byte} {x : Except DecodeError Instr} {i : Instr} (h : Decoded.ofExcept r x = .ok i rest) :
    x = .ok i ∧ r = rest := by
  cases x with
  | ok j => simpa [Decoded.ofExcept] using h
  | error e => exact nomatch h

theorem reads_of_decode {i : Instr} {rest bs : List Byte} (h : Sys2Proof.decode bs = .ok i rest) : Reads i rest bs := by
  unfold Sys2Proof.decode at h
  split at h
  · exact nomatch h
  next w0 r0 h0 =>
  rw [takeWord_eq_some_iff.1 h0]
  split at h
  · next hl =>
    obtain ⟨hd, rfl⟩ := ofExcept_eq_ok h
    exact .base w0 (BitVec.eq_of_toNat_eq hl) hd
  · next hl =>
    split at h
    · exact nomatch h
    next w1 r1 h1 =>
    split at h
    · exact nomatch h
    next w2 r2 h2 =>
    obtain ⟨hd, rfl⟩ := ofExcept_eq_ok h
    rw [takeWord_eq_some_iff.1 h1, takeWord_eq_some_iff.1 h2]
    exact .extended w0 w1 w2 (BitVec.eq_of_toNat_eq hl) hd
  · next hl =>
    split at h
    · exact nomatch h
    next l r1 h1 =>
    split at h
    · exact nomatch h
    next u r2 h2 =>
    obtain ⟨hd, rfl⟩ := ofExcept_eq_ok h
    rw [takeWord_eq_some_iff.1 h1, takeWord_eq_some_iff.1 h2]
    exact .baseLiteral w0 l u (BitVec.eq_of_toNat_eq hl) hd
  · next hl0 hl1 hl2 =>
    have hl : (w0.extractLsb' 0 2).toNat = 3 := by
      generalize w0.extractLsb' 0 2 = l at *
      revert l
      decide
    split at h
    · exact nomatch h
    next w1 r1 h1 =>
    split at h
    · exact nomatch h
    next w2 r2 h2 =>
    split at h
    · exact nomatch h
    next l r3 h3 =>
    split at h
    · exact nomatch h
    next u r4 h4 =>
    obtain ⟨hd, rfl⟩ := ofExcept_eq_ok h
    rw [takeWord_eq_some_iff.1 h1, takeWord_eq_some_iff.1 h2, takeWord_eq_some_iff.1 h3, takeWord_eq_some_iff.1 h4]
    exact .extendedLiteral w0 w1 w2 l u (BitVec.eq_of_toNat_eq hl) hd

/-! ### The base forms (04 R96, R97) -/

theorem base_iff {w : BitVec (6 + 9 + 9 + 6 + 2)} {k o : BitVec 6} {a d : BitVec 9} {l : BitVec 2} : w = k ++ a ++ d ++ o ++ l ↔
    (((baseI w = k ∧ baseA w = a) ∧ baseD w = d) ∧ w.extractLsb' 2 6 = o) ∧ w.extractLsb' 0 2 = l := by
  rw [eq_append_iff]
  repeat rw [extract_eq_append_iff]
  rfl

/-- A base word of which the operands are one field. -/
theorem operands_iff {w : BitVec (24 + 6 + 2)} {x : BitVec 24} {o : BitVec 6} {l : BitVec 2} : w = x ++ o ++ l ↔
    (w.extractLsb' 8 24 = x ∧ w.extractLsb' 2 6 = o) ∧ w.extractLsb' 0 2 = l := by
  rw [eq_append_iff, extract_eq_append_iff]

theorem moviBase_iff {w : BitVec (15 + 9 + 6 + 2)} {k : BitVec 15} {d : BitVec 9} {o : BitVec 6} {l : BitVec 2} : w = k ++ d ++ o ++ l ↔
    ((w.extractLsb' 17 15 = k ∧ baseD w = d) ∧ w.extractLsb' 2 6 = o) ∧ w.extractLsb' 0 2 = l := by
  rw [eq_append_iff]
  repeat rw [extract_eq_append_iff]
  rfl

theorem barBase_iff {w : BitVec (20 + 4 + 6 + 2)} {z : BitVec 20} {id : BitVec 4} {o : BitVec 6} {l : BitVec 2} : w = z ++ id ++ o ++ l ↔
    ((w.extractLsb' 12 20 = z ∧ w.extractLsb' 8 4 = id) ∧ w.extractLsb' 2 6 = o) ∧ w.extractLsb' 0 2 = l := by
  rw [eq_append_iff]
  repeat rw [extract_eq_append_iff]

/-- The count of a shift is the immediate below a zero. -/
theorem shift_iff {w : Word} {n : BitVec 5} : baseI w = 0#1 ++ n ↔ w.getLsbD 31 = false ∧ w.extractLsb' 26 5 = n := by
  rw [baseI, extract_eq_append_iff (m := 1) (k := 5)]
  exact and_congr_left' (extract_eq_bitOfBool_iff (b := false))

theorem baseWord_eq {w : Word} {k o : BitVec 6} (hl : w.extractLsb' 0 2 = 0#2) (ho : (w.extractLsb' 2 6).toNat = o.toNat)
    (hI : baseI w = k) : baseWord o k (baseA w) (baseD w) = w :=
  (base_iff.2 ⟨⟨⟨⟨hI, rfl⟩, rfl⟩, BitVec.eq_of_toNat_eq ho⟩, hl⟩).symm

theorem baseWordL_eq {w : Word} {o : BitVec 6} (hl : w.extractLsb' 0 2 = 2#2) (ho : (w.extractLsb' 2 6).toNat = o.toNat)
    (hI : baseI w = 0#6) : baseWordL o (baseA w) (baseD w) = w :=
  (base_iff.2 ⟨⟨⟨⟨hI, rfl⟩, rfl⟩, BitVec.eq_of_toNat_eq ho⟩, hl⟩).symm

theorem ite_eq_ok_iff {c : Prop} [Decidable c] {i j : Instr} {e : DecodeError} :
    (if c then Except.ok i else .error e) = Except.ok j ↔ c ∧ i = j := by
  split <;> simp [*]

/-- A base form without a literal: the word that `decodeBase` reads as it is the one that `encode` writes. -/
theorem encode_of_decodeBase {w : Word} {i : Instr} (hl : w.extractLsb' 0 2 = 0#2) (h : decodeBase w = .ok i) :
    i.isBase = true ∧ encode i = wordBytes w := by
  unfold decodeBase at h
  split at h
  case h_1 ho =>
    obtain ⟨hw, rfl⟩ := ite_eq_ok_iff.1 h
    exact ⟨rfl, congrArg wordBytes hw.symm⟩
  case h_2 ho =>
    obtain ⟨hI, rfl⟩ := ite_eq_ok_iff.1 h
    exact ⟨rfl, congrArg wordBytes (baseWord_eq hl ho hI)⟩
  case h_3 ho | h_6 ho | h_9 ho | h_10 ho => cases h; exact ⟨rfl, congrArg wordBytes (baseWord_eq hl ho rfl)⟩
  case h_4 ho | h_5 ho =>
    split at h
    · exact nomatch h
    next hz =>
    cases h
    exact ⟨rfl, congrArg wordBytes (baseWord_eq hl ho (shift_iff.2 ⟨Bool.eq_false_of_not_eq_true hz, rfl⟩))⟩
  case h_7 ho => cases h; exact ⟨rfl, congrArg wordBytes (moviBase_iff.2 ⟨⟨⟨rfl, rfl⟩, BitVec.eq_of_toNat_eq ho⟩, hl⟩).symm⟩
  case h_8 ho => cases h; exact ⟨rfl, congrArg wordBytes (operands_iff.2 ⟨⟨rfl, BitVec.eq_of_toNat_eq ho⟩, hl⟩).symm⟩
  case h_11 ho =>
    obtain ⟨hz, rfl⟩ := ite_eq_ok_iff.1 h
    exact ⟨rfl, congrArg wordBytes (operands_iff.2 ⟨⟨hz, BitVec.eq_of_toNat_eq (y := 10#6) ho⟩, hl⟩).symm⟩
  case h_12 ho =>
    obtain ⟨hz, rfl⟩ := ite_eq_ok_iff.1 h
    exact ⟨rfl, congrArg wordBytes (barBase_iff.2 ⟨⟨⟨hz, rfl⟩, BitVec.eq_of_toNat_eq (y := 11#6) ho⟩, hl⟩).symm⟩
  · exact nomatch h

theorem encode_of_decodeBaseLiteral {w l u : Word} {i : Instr} (hl : w.extractLsb' 0 2 = 2#2) (h : decodeBaseLiteral w l u = .ok i) :
    i.isBase = true ∧ encode i = wordBytes w ++ wordBytes l ++ wordBytes u := by
  unfold decodeBaseLiteral at h
  extract_lets sign at h
  split at h
  case h_1 ho =>
    obtain ⟨⟨hk, rfl⟩, rfl⟩ := ite_eq_ok_iff.1 h
    exact ⟨rfl, congrArg (wordBytes · ++ wordBytes l ++ wordBytes 0)
      (moviBase_iff.2 ⟨⟨⟨hk, rfl⟩, BitVec.eq_of_toNat_eq (y := 6#6) ho⟩, hl⟩).symm⟩
  case h_2 ho | h_3 ho | h_4 ho | h_5 ho =>
    obtain ⟨⟨hI, rfl⟩, rfl⟩ := ite_eq_ok_iff.1 h
    exact ⟨rfl, congrArg (wordBytes · ++ wordBytes l ++ wordBytes _) (baseWordL_eq hl ho hI)⟩
  · exact nomatch h

theorem reads_baseWord {i : Instr} {k o : BitVec 6} {a d : BitVec 9} (rest : List Byte) (he : encode i = wordBytes (baseWord o k a d))
    (hd : ∀ w : Word, baseI w = k → baseA w = a → baseD w = d → w.extractLsb' 2 6 = o → decodeBase w = .ok i) :
    Reads i rest (encode i ++ rest) := by
  obtain ⟨⟨⟨⟨hI, hA⟩, hD⟩, ho⟩, hl⟩ := base_iff.1 (Eq.refl (baseWord o k a d))
  rw [he]
  exact .base _ hl (hd _ hI hA hD ho)

theorem reads_baseWordL {i : Instr} {o : BitVec 6} {a d : BitVec 9} {l u : Word} (rest : List Byte)
    (he : encode i = wordBytes (baseWordL o a d) ++ wordBytes l ++ wordBytes u)
    (hd : ∀ w : Word, baseI w = 0 → baseA w = a → baseD w = d → w.extractLsb' 2 6 = o → decodeBaseLiteral w l u = .ok i) :
    Reads i rest (encode i ++ rest) := by
  obtain ⟨⟨⟨⟨hI, hA⟩, hD⟩, ho⟩, hl⟩ := base_iff.1 (Eq.refl (baseWordL o a d))
  rw [he, List.append_assoc, List.append_assoc]
  exact .baseLiteral _ _ _ hl (hd _ hI hA hD ho)

theorem reads_of_isBase {i : Instr} (rest : List Byte) (h : i.isBase = true) : Reads i rest (encode i ++ rest) := by
  cases i
  case nopBase => exact .base 0 rfl rfl
  case exitBase => exact .base _ rfl rfl
  case movBase a d => exact reads_baseWord rest rfl fun w hI hA hD ho => by simp [decodeBase, hI, hA, hD, ho]
  case iaddBase k a d | andBase k a d | ldsBase k a d | stsBase k a d =>
    exact reads_baseWord rest rfl fun w hI hA hD ho => by simp [decodeBase, hI, hA, hD, ho]
  case shlBase n a d | shrBase n a d =>
    refine reads_baseWord rest rfl fun w hI hA hD ho => ?_
    obtain ⟨hz, hn⟩ := shift_iff.1 hI
    simp only [decodeBase, ho, hz, hn, hA, hD]
    rfl
  case moviBase k d =>
    obtain ⟨⟨⟨hk, hD⟩, ho⟩, hl⟩ := moviBase_iff.1 (Eq.refl (k ++ d ++ 6#6 ++ 0#2))
    exact .base _ hl (by simp only [decodeBase, ho, hk, hD]; rfl)
  case braBase o =>
    obtain ⟨⟨hx, ho⟩, hl⟩ := operands_iff.1 (Eq.refl (o ++ 7#6 ++ 0#2))
    exact .base _ hl (by simp only [decodeBase, ho, hx]; rfl)
  case barBase id =>
    obtain ⟨⟨⟨hz, hid⟩, ho⟩, hl⟩ := barBase_iff.1 (Eq.refl (0#20 ++ id ++ 11#6 ++ 0#2))
    exact .base _ hl (by simp only [decodeBase, ho, hz, hid]; rfl)
  case moviBaseLiteral d l =>
    obtain ⟨⟨⟨hk, hD⟩, ho⟩, hl⟩ := moviBase_iff.1 (Eq.refl (0#15 ++ d ++ 6#6 ++ 2#2))
    exact .baseLiteral _ l 0 hl (by simp only [decodeBaseLiteral, ho, hk, hD]; rfl)
  case iaddBaseLiteral a d l | andBaseLiteral a d l =>
    exact reads_baseWordL rest rfl fun w hI hA hD ho => by simp [decodeBaseLiteral, hI, hA, hD, ho]
  case ldsBaseLiteral a d l | stsBaseLiteral a d l =>
    exact reads_baseWordL rest rfl fun w hI hA hD ho => by simp [decodeBaseLiteral, signWord, hI, hA, hD, ho]
  all_goals exact nomatch h

/-! ### The extended form (04 R98) -/

def eword0 (o : BitVec 8) (f : EFields) (len : BitVec 2) : Word :=
  f.ch ++ f.rm ++ bitOfBool f.ftzo ++ bitOfBool f.ftzi ++ f.rd ++ f.mod ++ o ++ len

def eword1 (f : EFields) : Word := 0#1 ++ f.fe ++ f.rc ++ f.rb ++ f.ra

def eword2 (f : EFields) : Word :=
  0#2 ++ f.scp ++ bitOfBool f.yld ++ f.stall ++ f.ret ++ bitOfBool f.gop ++ f.g2 ++ f.g1 ++ f.re

theorem encodeE_none {o : BitVec 8} {f : EFields} (h : f.lit = none) :
    encodeE o f = wordBytes (eword0 o f 1#2) ++ (wordBytes (eword1 f) ++ wordBytes (eword2 f)) := by
  unfold encodeE
  rw [h]
  rfl

theorem encodeE_some {o : BitVec 8} {f : EFields} {l : BitVec 64} (h : f.lit = some l) :
    encodeE o f = wordBytes (eword0 o f 3#2) ++ (wordBytes (eword1 f) ++ (wordBytes (eword2 f) ++
      (wordBytes (l.extractLsb' 0 32) ++ wordBytes (l.extractLsb' 32 32)))) := by
  unfold encodeE
  rw [h]
  rfl

theorem eword0_iff {w : BitVec (2 + 3 + 1 + 1 + 9 + 6 + 8 + 2)} {o : BitVec 8} {f : EFields} {len : BitVec 2} : w = eword0 o f len ↔
    (((((((w.extractLsb' 30 2 = f.ch ∧ w.extractLsb' 27 3 = f.rm) ∧ w.getLsbD 26 = f.ftzo) ∧ w.getLsbD 25 = f.ftzi) ∧
      w.extractLsb' 16 9 = f.rd) ∧ w.extractLsb' 10 6 = f.mod) ∧ w.extractLsb' 2 8 = o) ∧ w.extractLsb' 0 2 = len) := by
  simp only [← extract_eq_bitOfBool_iff]
  refine eq_append_iff.trans ?_
  repeat rw [extract_eq_append_iff]

theorem eword1_iff {w : BitVec (1 + 4 + 9 + 9 + 9)} {f : EFields} : w = eword1 f ↔
    (((w.extractLsb' 31 1 = 0#1 ∧ w.extractLsb' 27 4 = f.fe) ∧ w.extractLsb' 18 9 = f.rc) ∧ w.extractLsb' 9 9 = f.rb) ∧
      w.extractLsb' 0 9 = f.ra := by
  refine eq_append_iff.trans ?_
  repeat rw [extract_eq_append_iff]

theorem eword2_iff {w : BitVec (2 + 3 + 1 + 3 + 3 + 1 + 5 + 5 + 9)} {f : EFields} : w = eword2 f ↔
    (((((((w.extractLsb' 30 2 = 0#2 ∧ w.extractLsb' 27 3 = f.scp) ∧ w.getLsbD 26 = f.yld) ∧ w.extractLsb' 23 3 = f.stall) ∧
      w.extractLsb' 20 3 = f.ret) ∧ w.getLsbD 19 = f.gop) ∧ w.extractLsb' 14 5 = f.g2) ∧ w.extractLsb' 9 5 = f.g1) ∧
      w.extractLsb' 0 9 = f.re := by
  simp only [← extract_eq_bitOfBool_iff]
  refine eq_append_iff.trans ?_
  repeat rw [extract_eq_append_iff]

theorem decodeFields_ewords (o : BitVec 8) (f : EFields) (len : BitVec 2) :
    decodeFields (eword0 o f len) (eword1 f) (eword2 f) f.lit = f := by
  obtain ⟨⟨⟨⟨⟨⟨⟨hch, hrm⟩, hftzo⟩, hftzi⟩, hrd⟩, hmod⟩, ho⟩, hlen⟩ := eword0_iff.1 (Eq.refl (eword0 o f len))
  obtain ⟨⟨⟨⟨hz, hfe⟩, hrc⟩, hrb⟩, hra⟩ := eword1_iff.1 (Eq.refl (eword1 f))
  obtain ⟨⟨⟨⟨⟨⟨⟨⟨hz2, hscp⟩, hyld⟩, hstall⟩, hret⟩, hgop⟩, hg2⟩, hg1⟩, hre⟩ :=
    eword2_iff.1 (Eq.refl (eword2 f))
  simp only [decodeFields, hch, hrm, hftzo, hftzi, hrd, hmod, hfe, hrc, hrb, hra, hscp, hyld, hstall, hret, hgop, hg2, hg1, hre]

/-- The words that `decodeFields` reads, its reserved bits zero, are those of the fields. -/
theorem ewords_decodeFields {w0 w1 w2 : Word} {lit : Option (BitVec 64)} (h1 : w1.getLsbD 31 = false) (h2 : w2.extractLsb' 30 2 = 0#2) :
    eword0 (w0.extractLsb' 2 8) (decodeFields w0 w1 w2 lit) (w0.extractLsb' 0 2) = w0 ∧ eword1 (decodeFields w0 w1 w2 lit) = w1 ∧
      eword2 (decodeFields w0 w1 w2 lit) = w2 :=
  ⟨(eword0_iff.2 ⟨⟨⟨⟨⟨⟨⟨rfl, rfl⟩, rfl⟩, rfl⟩, rfl⟩, rfl⟩, rfl⟩, rfl⟩).symm,
    (eword1_iff.2 ⟨⟨⟨⟨extract_eq_bitOfBool_iff.2 h1, rfl⟩, rfl⟩, rfl⟩, rfl⟩).symm,
    (eword2_iff.2 ⟨⟨⟨⟨⟨⟨⟨⟨h2, rfl⟩, rfl⟩, rfl⟩, rfl⟩, rfl⟩, rfl⟩, rfl⟩, rfl⟩).symm⟩

/-! ### Opcodes (04 Table 04.9) -/

theorem eform_of_ectorOf {o : BitVec 8} {c : EFields → Instr} (h : ectorOf o = some c) (f : EFields) : eform (c f) = some (o, f) := by
  unfold ectorOf at h
  split at h
  case h_99 => exact nomatch h
  all_goals next ho =>
    cases h
    exact congrArg (fun o => some (o, f)) (BitVec.eq_of_toNat_eq ho).symm

theorem ectorOf_of_eform {i : Instr} {o : BitVec 8} {f : EFields} (h : eform i = some (o, f)) : ∃ c, ectorOf o = some c ∧ c f = i := by
  cases i
  all_goals cases h
  all_goals exact ⟨_, rfl, rfl⟩

theorem encode_of_eform {i : Instr} {o : BitVec 8} {f : EFields} (h : eform i = some (o, f)) : encode i = encodeE o f := by
  cases i
  all_goals cases h
  all_goals rfl

/-- What `decodeE` accepts. -/
theorem decodeE_eq_ok_iff {w0 w1 w2 : Word} {lit : Option (BitVec 64)} {i : Instr} : decodeE w0 w1 w2 lit = .ok i ↔
    eform i = some (w0.extractLsb' 2 8, decodeFields w0 w1 w2 lit) ∧ w1.getLsbD 31 = false ∧ w2.extractLsb' 30 2 = 0#2 ∧
      legal i = true := by
  unfold decodeE
  constructor
  · intro h
    split at h
    · exact nomatch h
    next c hc =>
    split at h
    · exact nomatch h
    next hz =>
    obtain ⟨hl, rfl⟩ := ite_eq_ok_iff.1 h
    rw [not_or, not_ne_iff, Bool.not_eq_true] at hz
    exact ⟨eform_of_ectorOf hc _, hz.1, hz.2, hl⟩
  · rintro ⟨he, h1, h2, hl⟩
    obtain ⟨c, hc, rfl⟩ := ectorOf_of_eform he
    rw [hc]
    simp only [h1, h2, hl]
    rfl

theorem encode_of_decodeE_none {w0 w1 w2 : Word} {i : Instr} (hl : w0.extractLsb' 0 2 = 1#2) (h : decodeE w0 w1 w2 none = .ok i) :
    encode i = wordBytes w0 ++ (wordBytes w1 ++ wordBytes w2) := by
  obtain ⟨he, h1, h2, -⟩ := decodeE_eq_ok_iff.1 h
  obtain ⟨e0, e1, e2⟩ := ewords_decodeFields (w0 := w0) (lit := none) h1 h2
  rw [hl] at e0
  rw [encode_of_eform he, encodeE_none rfl, e0, e1, e2]

theorem encode_of_decodeE_some {w0 w1 w2 l u : Word} {i : Instr} (hl : w0.extractLsb' 0 2 = 3#2)
    (h : decodeE w0 w1 w2 (some (u ++ l)) = .ok i) :
    encode i = wordBytes w0 ++ (wordBytes w1 ++ (wordBytes w2 ++ (wordBytes l ++ wordBytes u))) := by
  obtain ⟨he, h1, h2, -⟩ := decodeE_eq_ok_iff.1 h
  obtain ⟨e0, e1, e2⟩ := ewords_decodeFields (w0 := w0) (lit := some (u ++ l)) h1 h2
  rw [hl] at e0
  rw [encode_of_eform he, encodeE_some rfl, e0, e1, e2, BitVec.extractLsb'_append_eq_left, BitVec.extractLsb'_append_eq_right]

theorem reads_of_eform {i : Instr} {o : BitVec 8} {f : EFields} (rest : List Byte) (he : eform i = some (o, f))
    (hlegal : legal i = true) :
    Reads i rest (encode i ++ rest) := by
  have hlen : ∀ len, (eword0 o f len).extractLsb' 0 2 = len := fun len => (eword0_iff.1 rfl).2
  have hd : ∀ len, decodeE (eword0 o f len) (eword1 f) (eword2 f) f.lit = .ok i := fun len => by
    obtain ⟨⟨-, ho⟩, -⟩ := eword0_iff.1 (Eq.refl (eword0 o f len))
    obtain ⟨⟨⟨⟨hz, -⟩, -⟩, -⟩, -⟩ := eword1_iff.1 (Eq.refl (eword1 f))
    obtain ⟨⟨⟨⟨⟨⟨⟨⟨hz2, -⟩, -⟩, -⟩, -⟩, -⟩, -⟩, -⟩, -⟩ := eword2_iff.1 (Eq.refl (eword2 f))
    exact decodeE_eq_ok_iff.2 ⟨by rw [decodeFields_ewords, ho]; exact he, extract_eq_bitOfBool_iff.1 hz, hz2, hlegal⟩
  rw [encode_of_eform he]
  cases hlit : f.lit with
  | none =>
    rw [encodeE_none hlit]
    simp only [List.append_assoc]
    exact .extended _ _ _ (hlen 1) (hlit ▸ hd 1)
  | some l =>
    rw [encodeE_some hlit]
    simp only [List.append_assoc]
    have hjoin : (l.extractLsb' 32 32 ++ l.extractLsb' 0 32 : BitVec 64) = l :=
      BitVec.extractLsb'_append_extractLsb' (w := 32) (len := 32)
    exact .extendedLiteral _ _ _ _ _ (hlen 3) (by rw [hjoin, ← hlit]; exact hd 3)

/-! ### Torile -/

theorem isTorile_of_isBase {i : Instr} (h : i.isBase = true) : i.isTorile = true := by
  rw [Instr.isTorile, h, Bool.true_or]

theorem isTorile_of_eform {i : Instr} {o : BitVec 8} {f : EFields} (h : eform i = some (o, f)) : i.isTorile = true := by
  rw [Instr.isTorile, h]; exact Bool.or_true _

/-- A base form has no field with a forbidden value. -/
theorem legal_of_isBase {i : Instr} (h : i.isBase = true) : legal i = true := by
  cases i
  case nopBase | movBase | iaddBase | shlBase | shrBase | andBase | moviBase | braBase | ldsBase | stsBase | exitBase | barBase
      | moviBaseLiteral | iaddBaseLiteral | andBaseLiteral | ldsBaseLiteral | stsBaseLiteral => rfl
  all_goals exact nomatch h

theorem reads_of_isTorile {i : Instr} (rest : List Byte) (h : i.isTorile = true) (hl : legal i = true) :
    Reads i rest (encode i ++ rest) := by
  obtain hb | he := Bool.or_eq_true_iff.1 h
  · exact reads_of_isBase rest hb
  · obtain ⟨⟨o, f⟩, he⟩ := Option.isSome_iff_exists.1 he
    exact reads_of_eform rest he hl

/-- What is read is a legal Torile instruction. -/
theorem Reads.legal {i : Instr} {rest bs : List Byte} (h : Reads i rest bs) : i.isTorile = true ∧ Machine.legal i = true := by
  cases h with
  | base w hl hd =>
    obtain ⟨hb, -⟩ := encode_of_decodeBase hl hd
    exact ⟨isTorile_of_isBase hb, legal_of_isBase hb⟩
  | baseLiteral w l u hl hd =>
    obtain ⟨hb, -⟩ := encode_of_decodeBaseLiteral hl hd
    exact ⟨isTorile_of_isBase hb, legal_of_isBase hb⟩
  | extended w0 w1 w2 hl hd | extendedLiteral w0 w1 w2 l u hl hd =>
    obtain ⟨he, -, -, hlegal⟩ := decodeE_eq_ok_iff.1 hd
    exact ⟨isTorile_of_eform he, hlegal⟩

/-- What is read is the encoding. -/
theorem Reads.encode {i : Instr} {rest bs : List Byte} (h : Reads i rest bs) : bs = Sys2Proof.encode i ++ rest := by
  cases h with
  | base w hl hd => rw [(encode_of_decodeBase hl hd).2]
  | baseLiteral w l u hl hd => rw [(encode_of_decodeBaseLiteral hl hd).2]; simp only [List.append_assoc]
  | extended w0 w1 w2 hl hd => rw [encode_of_decodeE_none hl hd]; simp only [List.append_assoc]
  | extendedLiteral w0 w1 w2 l u hl hd => rw [encode_of_decodeE_some hl hd]; simp only [List.append_assoc]

/-- What is read has the length that LEN of its first word gives. -/
theorem Reads.length {i : Instr} {rest bs : List Byte} (h : Reads i rest bs) :
    ∃ w0 r, takeWord bs = some (w0, r) ∧ bs.length = lenOf w0 + rest.length := by
  cases h <;> next hl hd =>
    refine ⟨_, _, takeWord_eq_some_iff.2 rfl, ?_⟩
    simp only [lenOf, hl, List.length_append, wordBytes_length, ← Nat.add_assoc]
    rfl

/-! ### Fitas (11 R208, 20 R370) -/

theorem encodeX_iff {w : BitVec (6 + 3 + 3 + 3 + 1 + 16)} {o : BitVec 6} {f : XFields} : w = encodeX o f ↔
    ((((w.extractLsb' 26 6 = o ∧ w.extractLsb' 23 3 = f.ka) ∧ w.extractLsb' 20 3 = f.kb) ∧ w.extractLsb' 17 3 = f.kc) ∧
      w.getLsbD 16 = f.i) ∧ w.extractLsb' 0 16 = f.imm := by
  simp only [← extract_eq_bitOfBool_iff]
  refine eq_append_iff.trans ?_
  repeat rw [extract_eq_append_iff]

/-- A word is its opcode and its fields. -/
theorem encodeX_eq_iff {w : Word} {o : BitVec 6} {f : XFields} : w = encodeX o f ↔ w.extractLsb' 26 6 = o ∧ f = xFieldsOf w := by
  refine encodeX_iff.trans ⟨?_, ?_⟩
  · rintro ⟨⟨⟨⟨⟨ho, ha⟩, hb⟩, hc⟩, hi⟩, himm⟩
    exact ⟨ho, by simp only [xFieldsOf, ha, hb, hc, hi, himm]⟩
  · rintro ⟨ho, rfl⟩
    exact ⟨⟨⟨⟨⟨ho, rfl⟩, rfl⟩, rfl⟩, rfl⟩, rfl⟩

theorem xform_of_xctorOf {o : BitVec 6} {f : XFields} {i : Instr} (h : xctorOf o f = some i) : ∃ f' ok, xform i = some (o, f', ok) := by
  unfold xctorOf at h
  split at h
  case h_27 => exact nomatch h
  all_goals next ho =>
    cases h
    exact ⟨_, _, congrArg (fun o => some (o, _, _)) (BitVec.eq_of_toNat_eq ho).symm⟩

theorem xctorOf_of_xform {i : Instr} {o : BitVec 6} {f : XFields} {ok : Bool} (h : xform i = some (o, f, ok)) : xctorOf o f = some i := by
  cases i
  all_goals cases h
  all_goals rfl

theorem encode_of_xform {i : Instr} {o : BitVec 6} {f : XFields} {ok : Bool} (h : xform i = some (o, f, ok)) :
    encode i = wordBytes (encodeX o f) ∧ legal i = ok := by
  cases i
  all_goals cases h
  all_goals exact ⟨rfl, rfl⟩

/-- What `decodeX` accepts. -/
theorem decodeX_eq_some_iff {w : Word} {i : Instr} : decodeX w = some i ↔ xform i = some (w.extractLsb' 26 6, xFieldsOf w, true) := by
  unfold decodeX
  constructor
  · intro h
    split at h
    · exact nomatch h
    next j hj =>
    obtain ⟨f', ok, hx⟩ := xform_of_xctorOf hj
    rw [hx] at h
    cases ok with
    | false => exact nomatch h
    | true =>
      obtain ⟨rfl, hij⟩ := Option.ite_none_right_eq_some.1 h
      cases hij
      exact hx
  · intro h
    rw [xctorOf_of_xform h]
    simp [h]

/-- Settles O56: bytes are read as one of four forms by LEN of their first word; each word is its fields, and the opcode names the
constructor. -/
theorem decodeInvertsEncode : Obligations.DecodeInvertsEncode := by
  unfold Obligations.DecodeInvertsEncode
  refine ⟨fun i rest ht hl => (reads_of_isTorile rest ht hl).decode, fun i hf hl => ?_, fun bs i rest h => ?_, fun w i h => ?_⟩
  · obtain ⟨⟨o, f, ok⟩, hx⟩ := Option.isSome_iff_exists.1 hf
    obtain ⟨he, rfl⟩ := encode_of_xform hx
    obtain ⟨ho, hfields⟩ := encodeX_eq_iff.1 (Eq.refl (encodeX o f))
    exact ⟨_, he, decodeX_eq_some_iff.2 (by rw [ho, ← hfields, hx, hl])⟩
  · have hr := reads_of_decode h
    obtain ⟨ht, hl⟩ := hr.legal
    exact ⟨ht, hl, hr.encode, hr.length⟩
  · have hx := decodeX_eq_some_iff.1 h
    obtain ⟨he, hl⟩ := encode_of_xform hx
    refine ⟨by rw [Instr.isFitas, hx]; rfl, hl, ?_⟩
    rw [he, ← encodeX_eq_iff.2 ⟨rfl, rfl⟩]

/-- Settles O55: each word, by evaluation of the decoder. -/
theorem decodesTheWords : Obligations.DecodesTheWords := by
  unfold Obligations.DecodesTheWords
  decide

end Sys2Proof.Machine
end

section
/-!
PROOFS. The arithmetic instructions: each is one operation by the lanes of its group; what a write of its destination leaves of the
registers and the predicates, and which operations raise no flag.
-/

namespace Sys2Proof.Machine

open Sys2Proof

/-! ### One execution -/

theorem exec_of_aluOf {i : Instr} {op : AluOp} (h : aluOf i = some op) (s : State) : exec i s = aluExec i op s := by
  unfold aluOf at h
  split at h
  case h_54 => exact nomatch h
  all_goals
    obtain rfl := Option.some.inj h
    rfl

/-- Settles O1: an arithmetic instruction is the shared execution with an action on the thread alone. -/
theorem arithmeticCompletes : Obligations.ArithmeticCompletes := by
  unfold Obligations.ArithmeticCompletes
  intro i op s hop h
  obtain ⟨t, ht, hstep⟩ := laneExec_threads (i := i) (s := s) (faultOf := noFault)
    (act := fun b t => modThread b t (aluStep i op)) (fun _ => aluStep i op) h (fun _ _ _ => rfl) (fun _ _ _ _ _ => rfl)
  exact ⟨t, (exec_of_aluOf hop s).trans ht, hstep, hstep.memory rfl⟩

/-! ### What a write of the destination leaves -/

theorem mem_dstRegs {f : EFields} {sh : Shape} {n : Nat} (hl : namesLit f sh .rd = false) : n ∈ dstRegs f sh ↔
    sh.dst = true ∧ f.rd ≠ 0 ∧ f.rd.toNat ≤ n ∧ n < f.rd.toNat + (useAt sh .rd).count := by
  unfold dstRegs fieldRegs
  rw [hl]
  cases sh.dst with
  | false => simp
  | true =>
    by_cases hz : f.rd = 0#9
    · simp [hz]
    · have hrange : (∃ k < (useAt sh .rd).count, f.rd.toNat + k = n) ↔
          f.rd.toNat ≤ n ∧ n < f.rd.toNat + (useAt sh .rd).count :=
        ⟨fun ⟨k, hk, hn⟩ => by omega, fun ⟨hle, hlt⟩ => ⟨n - f.rd.toNat, by omega, by omega⟩⟩
      simpa [hz, fieldAt] using hrange

theorem writeDst_of_dst {f : EFields} {sh : Shape} (h : sh.dst = true) (v : Vals) (res : Nat) (taint : Bool) :
    writeDst f sh v res taint = v.write f.rd.toNat (wordsOf (useAt sh .rd).count res) taint := if_pos h

theorem writeDst_of_pred {f : EFields} {sh : Shape} (h : sh.dst = false) (hp : sh.rd = .idx4) (v : Vals) (res : Nat) (taint : Bool) :
    writeDst f sh v res taint = v.setPred f.rd.toNat (res != 0) := by
  rw [writeDst, h, if_neg Bool.false_ne_true, if_pos hp]

theorem writeDst_of_none {f : EFields} {sh : Shape} (h : sh.dst = false) (hp : sh.rd ≠ .idx4) (v : Vals) (res : Nat) (taint : Bool) :
    writeDst f sh v res taint = v := by
  rw [writeDst, h, if_neg Bool.false_ne_true, if_neg hp]

/-- A register that is no destination. -/
theorem get_writeDst_out {f : EFields} {sh : Shape} {n : Nat} (hl : namesLit f sh .rd = false) (hn : n ∉ dstRegs f sh) (v : Vals)
    (res : Nat) (taint : Bool) : (writeDst f sh v res taint).get n = v.get n := by
  cases hd : sh.dst with
  | true =>
    rw [writeDst_of_dst hd]
    refine Vals.get_write_out _ _ _ _ _ ?_
    rw [mem_dstRegs hl] at hn
    rw [wordsOf_length]
    by_cases hz : f.rd = 0
    · exact .inl (by rw [hz]; rfl)
    · exact .inr (or_iff_not_imp_left.2 fun hle => Nat.le_of_not_lt fun hlt => hn ⟨hd, hz, Nat.le_of_not_lt hle, hlt⟩)
  | false =>
    by_cases hp : sh.rd = .idx4
    · rw [writeDst_of_pred hd hp, Vals.get_setPred]
    · rw [writeDst_of_none hd hp]

/-- A predicate beyond `p15` is not there to be written. -/
theorem Vals.pred_setPred_beyond (v : Vals) (i j : Nat) (b : Bool) (hj : 16 ≤ j) : (v.setPred i b).pred j = v.pred j := by
  simp only [Vals.pred, BitVec.getLsbD_of_ge _ _ hj]

theorem Vals.pred_setPred_ne (v : Vals) {i j : Nat} (b : Bool) (h : j ≠ i) : (v.setPred i b).pred j = v.pred j := by
  by_cases hj : j < 16
  · rw [Vals.pred_setPred v i j b hj, if_neg fun hi => h hi.1]
  · exact Vals.pred_setPred_beyond v i j b (Nat.le_of_not_lt hj)

/-- A predicate that is no destination. -/
theorem pred_writeDst_out {f : EFields} {sh : Shape} {p : Nat} (hp : ¬(sh.dst = false ∧ sh.rd = .idx4 ∧ p = f.rd.toNat)) (v : Vals)
    (res : Nat) (taint : Bool) : (writeDst f sh v res taint).pred p = v.pred p := by
  cases hd : sh.dst with
  | true => rw [writeDst_of_dst hd, Vals.pred, Vals.write_preds]; rfl
  | false =>
    by_cases hr : sh.rd = .idx4
    · rw [writeDst_of_pred hd hr, Vals.pred_setPred_ne _ _ fun h => hp ⟨hd, hr, h⟩]
    · rw [writeDst_of_none hd hr]

/-! ### Destinations and flags of the arithmetic instructions -/

/-- Whether the literal may stand for a field (04 R102). -/
def LitUse.takes : LitUse → Pos → Bool
  | .operand l, p => l.contains p
  | _, _ => false

theorem namesLit_of_not_takes {f : EFields} {sh : Shape} {p : Pos} (h : sh.lit.takes p = false) : namesLit f sh p = false := by
  unfold namesLit
  split
  · next l hl =>
    rw [hl, LitUse.takes] at h
    rw [h, Bool.and_false]; rfl
  · rfl

/-- No arithmetic instruction has its literal for a destination. -/
theorem not_takes_rd_of_aluOf {i : Instr} {op : AluOp} (h : aluOf i = some op) : (fieldsOf i).2.lit.takes .rd = false := by
  unfold aluOf at h
  split at h
  case h_24 f => change (if f.mod == 0x10#6 then _ else _ : Shape).lit.takes .rd = false; split <;> rfl
  case h_25 f => change (if f.lit.isSome then _ else _ : Shape).lit.takes .rd = false; split <;> rfl
  case h_54 => exact nomatch h
  all_goals rfl

/-- Outside the float class an operation raises no flag (05 R121). -/
theorem aluOf_no_flags {i : Instr} {op : AluOp} (h : aluOf i = some op) (hq : aluQuiet i = true) (f : EFields) (v : Vals) (rm : Nat)
    (l : List Nat) : (op f v rm l).2 = 0 := by
  unfold aluOf at h
  split at h
  case h_54 => exact nomatch h
  case h_6 | h_7 | h_25 =>
    obtain rfl := Option.some.inj h
    unfold opMovi
    split <;> rfl
  case h_43 | h_44 | h_45 | h_46 | h_47 | h_48 | h_49 | h_50 | h_51 | h_52 | h_53 => exact nomatch hq
  all_goals
    obtain rfl := Option.some.inj h
    rfl

/-- Settles O2: a thread's registers and predicates are those its destination's write leaves, and its flags are merged. -/
theorem arithmeticThread : Obligations.ArithmeticThread := by
  unfold Obligations.ArithmeticThread
  intro i op th hop f sh th' r
  have hl : namesLit f sh .rd = false := namesLit_of_not_takes (not_takes_rd_of_aluOf hop)
  have hvals : th'.vals = writeDst f sh th.vals r.1 (srcTaint f sh th.vals) := rfl
  have hflags : th'.flags = th.flags ||| BitVec.ofNat 5 r.2 := rfl
  rw [hvals]
  refine ⟨fun n hn => get_writeDst_out hl hn .., fun k hd hz hlen hk => ?_, fun p hp => pred_writeDst_out hp .., fun hd hp hz hlt => ?_,
    hflags, fun hq => ?_, rfl⟩
  · rw [writeDst_of_dst hd]
    exact Vals.get_write _ _ _ _ _ _ (fun h => hz (BitVec.eq_of_toNat_eq h)) hk hlen
  · rw [writeDst_of_pred hd hp, Vals.pred_setPred _ _ _ _ hlt, if_pos ⟨rfl, fun h => hz (BitVec.eq_of_toNat_eq h)⟩]
  · rw [hflags, show r.2 = 0 from aluOf_no_flags hop hq ..]
    exact BitVec.or_zero

/-! ### The register rules (04 R83) -/

/-- Fault 0x02 for the group. -/
def rangeFault (s : State) : Result := .next (raiseCause s.cur.block 0x02 s.cur.tids s.cur.pc 0 s)

section OutOfRange

variable {i : Instr} {s : State} (h : rangeOk (fieldsOf i).1 (fieldsOf i).2 (s.launchOf s.cur.block).regs = false)
include h

theorem laneExecBy_range (faultOf : State → Nat → Nat → Option (Nat × Nat)) (go : State → Nat → State) :
    laneExecBy i faultOf go s = rangeFault s := by
  unfold laneExecBy
  simp only [h]
  rfl

theorem seqExec_range (stop : Bool) (one : Nat → Nat → State → Option (Nat × Nat) × State) :
    seqExec i stop one s = rangeFault s := by
  unfold seqExec
  simp only [h]
  rfl

theorem transfer_range (target : EFields → Shape → Vals → Nat) : transfer i target s = rangeFault s := by
  unfold transfer laneExec branches
  simp only [laneExecBy_range h, h]
  rfl

end OutOfRange

/-- What executes a Torile instruction: the lanes of its group together, or one after another, or as a transfer; a trap names no
register. -/
inductive Shared (i : Instr) (s : State) : Prop
  | lanes (faultOf : State → Nat → Nat → Option (Nat × Nat)) (go : State → Nat → State)
    (h : exec i s = laneExecBy i faultOf go s)
  | sequence (stop : Bool) (one : Nat → Nat → State → Option (Nat × Nat) × State) (h : exec i s = seqExec i stop one s)
  | transfer (target : EFields → Shape → Vals → Nat) (h : exec i s = Machine.transfer i target s)
  | trap (h : ∀ p, (useAt (fieldsOf i).2 p).count = 0)

theorem shared_of_isTorile {i : Instr} (h : i.isTorile = true) (s : State) : Shared i s := by
  cases i
  case trap | brk => exact .trap fun p => by cases p <;> rfl
  case braBase | bra | brx | call | callx | ret => exact .transfer _ rfl
  case spawn | mma => exact .sequence _ _ rfl
  all_goals cases h
  all_goals exact .lanes _ _ rfl

theorem rangeOk_of_field {f : EFields} {sh : Shape} {p : Pos} {k : Nat} (hl : namesLit f sh p = false) (hc : (useAt sh p).count ≠ 0)
    (hk : k < (fieldAt f p).toNat + (useAt sh p).count) : rangeOk f sh k = false := by
  refine Bool.eq_false_of_not_eq_true fun h => ?_
  have hfits := List.all_eq_true.1 h p (by cases p <;> decide)
  rw [hl, decide_eq_false hc] at hfits
  exact absurd (of_decide_eq_true hfits) (Nat.not_le_of_lt hk)

/-- A `LAUNCH` that passes its check names a register count that 04 R83 allows. -/
theorem regs_of_checkLaunch {raw : List Byte} (h : checkLaunch raw = none) :
    32 ≤ pf raw 4 2 ∧ pf raw 4 2 ≤ 512 ∧ pf raw 4 2 % 32 = 0 := by
  unfold checkLaunch at h
  extract_lets l ok at h
  have hok : ok = true := by
    by_contra hok
    simp [badIf, hok] at h
  simp only [ok, Bool.and_eq_true, decide_eq_true_eq] at hok
  obtain ⟨⟨⟨-, -, h32, h512, hmod, -⟩, -⟩, -⟩ := hok
  exact ⟨h32, h512, hmod⟩

/-- Settles O3: every Torile instruction checks its register fields before anything else. -/
theorem registerRules : Obligations.RegisterRules := by
  unfold Obligations.RegisterRules
  refine ⟨fun v => ⟨v.get_zero, v.put_zero⟩, fun raw ht hc => ?_, fun i s p hi hl hc hk => ?_⟩
  · have hlaunch : checkLaunch raw = none := by rw [checkPacket, ht] at hc; exact hc
    exact regs_of_checkLaunch hlaunch
  · have hr := rangeOk_of_field hl hc hk
    cases shared_of_isTorile hi s with
    | lanes faultOf go h => exact h.trans (laneExecBy_range hr faultOf go)
    | sequence stop one h => exact h.trans (seqExec_range hr stop one)
    | transfer target h => exact h.trans (transfer_range hr target)
    | trap h => exact absurd (h p) hc

end Sys2Proof.Machine
end

section
/-!
PROOFS. Producers: the special functions and `SREAD` start one in each thread; PRODUCER_COMPLETION writes what its producer holds.
-/

namespace Sys2Proof.Machine

open Sys2Proof

/-! ### Changes that agree on the thread they change -/

theorem modAt_congr {α : Type} {f g : α → α} (d : α) {n : Nat} {l : List α} (h : f (l.getD n d) = g (l.getD n d)) :
    modAt f n l = modAt g n l := by
  induction l generalizing n with
  | nil => simp [modAt]
  | cons a r ih =>
    cases n with
    | zero => exact congrArg (· :: r) h
    | succ n => exact congrArg (a :: ·) (ih h)

theorem modThread_congr {b t : Nat} {f g : Thread → Thread} {s : State} (h : f (s.thread b t) = g (s.thread b t)) :
    modThread b t f s = modThread b t g s :=
  congrArg (fun bs => { s with blocks := bs }) <|
    modAt_congr (f := fun k : Block => { k with threads := modAt f t k.threads })
      (g := fun k => { k with threads := modAt g t k.threads }) default <|
      congrArg (fun ths => { s.block b with threads := ths }) (modAt_congr default h)

theorem Found.cur {h : Block → Block} {s m : State} {t : Nat} (hm : Found h s t m) : m.cur = s.cur := by rw [hm.rest]

/-! ### Special functions (18 R309) -/

theorem exec_of_sfuOf {i : Instr} {fn : Nat → Bool → FV → Nat × Nat} (h : sfuOf i = some fn) (s : State) :
    exec i s = sfuExec i fn s := by
  unfold sfuOf at h
  split at h
  case h_6 => exact nomatch h
  all_goals
    obtain rfl := Option.some.inj h
    rfl

/-- A thread of a special function: a producer holds its result, that of the shadow lane and the flags. -/
def sfuThread (i : Instr) (fn : Nat → Bool → FV → Nat × Nat) (pc : DWord) (th : Thread) : Thread :=
  let f := (fieldsOf i).1
  let sh := (fieldsOf i).2
  let r := fun v => fn (rmOf f.rm th.rm) f.ftzo (prepare f32 f.ftzi (f.mod.getLsbD 5) (f.mod.getLsbD 3) (opd f sh v .ra))
  startProd ⟨th.nextId, dstRegs f sh,
    .sfu (BitVec.ofNat 32 (r th.vals).1) (BitVec.ofNat 32 (r (th.shadow.getD th.vals)).1) (BitVec.ofNat 5 (r th.vals).2),
    srcTaint f sh th.vals, false, pc⟩ th

theorem sfuExec_eq (i : Instr) (fn : Nat → Bool → FV → Nat × Nat) (s : State) :
    sfuExec i fn s = laneExec i noFault (fun b t m => modThread b t (sfuThread i fn m.cur.pc) m) s := rfl

theorem sfu_completes {i : Instr} {fn : Nat → Bool → FV → Nat × Nat} {s : State} (hfn : sfuOf i = some fn) (h : Unhindered i s) :
    ∃ t, exec i s = .next t ∧ MemorySame s t ∧ LaneStep i (fun _ => sfuThread i fn s.cur.pc) s t := by
  obtain ⟨t, ht, hstep⟩ := laneExec_threads (i := i) (faultOf := noFault)
    (act := fun b t m => modThread b t (sfuThread i fn m.cur.pc) m) (fun _ => sfuThread i fn s.cur.pc) h
    (fun _ _ _ => rfl) (fun _ _ _ m hm => by rw [hm.cur])
  exact ⟨t, by rw [exec_of_sfuOf hfn, sfuExec_eq, ht], hstep.memory rfl, hstep⟩

/-! ### `SREAD` (20 R354) -/

theorem takenAtIssue_iff (x : BitVec 9) :
    x ∈ [0x03#9, 0x04#9, 0x10#9, 0x15#9, 0x19#9, 0x1A#9, 0x1C#9] ↔ takenAtIssue x.toNat = true := by
  simp [takenAtIssue, ← BitVec.toNat_inj]

/-- What the producer of an `SREAD` holds in a thread with these flags. -/
def sreadVal (f : EFields) (s : State) (b t : Nat) (flags : BitVec 5) : ProdVal :=
  if takenAtIssue f.re.toNat then .ready (wordsOf (if f.mod.getLsbD 1 then 2 else 1) (specialVal s b t f.re.toNat))
  else if f.re.toNat = 0x11 then .flagsAt flags else .special f.re.toNat (f.mod.getLsbD 1)

theorem sreadVal_eq (f : EFields) (s : State) (b t : Nat) (flags : BitVec 5) :
    (if f.re ∈ [0x03#9, 0x04#9, 0x10#9, 0x15#9, 0x19#9, 0x1A#9, 0x1C#9] then
      ProdVal.ready (wordsOf (if f.mod.getLsbD 1 then 2 else 1) (specialVal s b t f.re.toNat))
    else if f.re = 0x11 then .flagsAt flags else .special f.re.toNat (f.mod.getLsbD 1)) = sreadVal f s b t flags :=
  if_congr (takenAtIssue_iff f.re) rfl (if_congr BitVec.toNat_inj.symm rfl rfl)

/-- A register that is taken at the issue reads the same when the lane's turn comes. -/
theorem Found.specialVal {s m : State} {t idx : Nat} (hm : Found id s t m) (hi : takenAtIssue idx = true) :
    Machine.specialVal m s.cur.block t idx = Machine.specialVal s s.cur.block t idx := by
  obtain ⟨ths, hown⟩ := hm.own
  have hwaves : (m.block s.cur.block).waves = (s.block s.cur.block).waves := by rw [hown]; rfl
  have hcore : (m.block s.cur.block).core = (s.block s.cur.block).core := by rw [hown]; rfl
  have hseqs : m.seqs = s.seqs := by rw [hm.rest]
  have hl := hm.launchOf rfl
  have hcases : idx = 0x03 ∨ idx = 0x04 ∨ idx = 0x10 ∨ idx = 0x15 ∨ idx = 0x19 ∨ idx = 0x1A ∨ idx = 0x1C := by
    simpa [takenAtIssue] using hi
  rcases hcases with rfl | rfl | rfl | rfl | rfl | rfl | rfl <;>
    simp only [Machine.specialVal, hm.self, hwaves, hcore, hseqs, hl] <;> rfl

theorem Found.sreadVal {f : EFields} {s m : State} {t : Nat} (hm : Found id s t m) :
    Machine.sreadVal f m s.cur.block t (m.thread s.cur.block t).flags =
      Machine.sreadVal f s s.cur.block t (m.thread s.cur.block t).flags := by
  unfold Machine.sreadVal
  split
  · next hi => rw [hm.specialVal hi]
  · rfl

/-- A thread of an `SREAD`. -/
def sreadThread (f : EFields) (pc : DWord) (val : ProdVal) (th : Thread) : Thread :=
  startProd ⟨th.nextId, dstRegs f (shapeOf (.sread f)), val, false, false, pc⟩ th

theorem execSread_eq (f : EFields) (s : State) : execSread f s = laneExec (.sread f) noFault (fun b t m =>
    modThread b t (sreadThread f m.cur.pc (sreadVal f m b t (m.thread b t).flags)) m) s := rfl

theorem sread_completes {f : EFields} {s : State} (h : Unhindered (.sread f) s) :
    ∃ t, exec (.sread f) s = .next t ∧ MemorySame s t ∧
      LaneStep (.sread f) (fun tid th => sreadThread f s.cur.pc (sreadVal f s s.cur.block tid th.flags) th) s t := by
  obtain ⟨t, ht, hstep⟩ := laneExec_threads (i := .sread f) (faultOf := noFault)
    (act := fun b t m => modThread b t (sreadThread f m.cur.pc (sreadVal f m b t (m.thread b t).flags)) m)
    (fun tid th => sreadThread f s.cur.pc (sreadVal f s s.cur.block tid th.flags) th) h (fun _ _ _ => rfl)
    (fun _ _ _ m hm => modThread_congr (by rw [hm.cur, hm.sreadVal]))
  exact ⟨t, (execSread_eq f s).trans ht, hstep.memory rfl, hstep⟩

/-! ### PRODUCER_COMPLETION (04 R86, R90) -/

theorem exec_producerCompletion {b t p : Nat} {s : State} {x : Prod} {ws : List Word} {fl : BitVec 5}
    (hx : (s.thread b t).prods.find? (fun y => y.id = p) = some x) (hw : prodWords s b t x = some (ws, fl)) :
    exec (.producerCompletion b t p) s = .next (modThread b t (finishProd x ws fl) s) := by
  show execProducerCompletion b t p s = _
  unfold execProducerCompletion
  rw [hx]
  simp only [hw]

/-- The words of a producer, by what it holds. -/
theorem prodWords_cases {s : State} {b t : Nat} {x : Prod} {ws : List Word} {fl : BitVec 5} (h : prodWords s b t x = some (ws, fl)) :
    (∀ w, x.val = .ready w → ws = w ∧ fl = 0) ∧ (∀ w sh fl', x.val = .sfu w sh fl' → ws = [w] ∧ fl = fl') ∧
      ∀ i wide, x.val = .special i wide → ws = wordsOf (if wide then 2 else 1) (specialVal s b t i) ∧ fl = 0 := by
  unfold prodWords at h
  refine ⟨fun w hv => ?_, fun w sh fl' hv => ?_, fun i wide hv => ?_⟩ <;>
    (rw [hv] at h; cases h; exact ⟨rfl, rfl⟩)

/-- Settles O7: a special function and `SREAD` are the shared execution that starts a producer; its completion changes one thread. -/
theorem producersComplete : Obligations.ProducersComplete := by
  unfold Obligations.ProducersComplete
  refine ⟨fun i fn s hfn h => sfu_completes hfn h, fun f s h => ?_, fun b t p s x ws fl hb ht hx hw => ?_⟩
  · obtain ⟨t, ht, hmem, hstep⟩ := sread_completes h
    refine ⟨t, ht, hmem, ?_⟩
    simp only [sreadVal_eq]
    exact hstep
  · obtain ⟨hready, hsfu, hspecial⟩ := prodWords_cases hw
    have hid : x.id = p := by simpa using List.find?_some hx
    have hframe := (Reworked.refl b s).modThread t (finishProd x ws fl)
    refine ⟨hready, hsfu, hspecial, _, exec_producerCompletion hx hw, ?_, fun u hu => thread_modThread_ne _ _ _ _ _ hu,
      hframe.others, hframe.rest, hframe.memory⟩
    rw [thread_modThread _ _ _ _ hb ht, finishProd, hid]
    rfl

end Sys2Proof.Machine
end

section
/-!
PROOFS. The state of a block at its placement: its threads, registers and waves as 04 R94 lists them.
-/

namespace Sys2Proof.Machine

open Sys2Proof

/-- The word a register starts with. -/
def initWord (k : Block) (t n : Nat) : Word :=
  if n = 2 then k.arg.setWidth 32 else if n = 3 then (k.arg >>> 32).setWidth 32 else if n = 4 then BitVec.ofNat 32 t
  else if n = 5 then BitVec.ofNat 32 k.index else if n = 6 then BitVec.ofNat 32 k.ntid else 0

theorem initVals_eq (k : Block) (regs t : Nat) :
    initVals k regs t = ⟨(List.range regs).map fun n => ⟨initWord k t n, .full, false⟩, 0⟩ := by
  unfold initVals
  refine congrArg (Vals.mk · 0) (List.map_congr_left fun n _ => congrArg (Reg.mk · .full false) ?_)
  beta_reduce
  split
  case h_6 h2 h3 h4 h5 h6 => rw [initWord, if_neg h2, if_neg h3, if_neg h4, if_neg h5, if_neg h6]
  all_goals rfl

theorem get_initVals {k : Block} {regs t n : Nat} (hn : n < regs) : (initVals k regs t).get n = ⟨initWord k t n, .full, false⟩ := by
  rw [initVals_eq, Vals.get]
  split
  · next h0 => rw [h0]; rfl
  · simp [hn]

theorem pred_initVals (k : Block) (regs t p : Nat) : (initVals k regs t).pred p = decide (p = 0) := by
  simp [Vals.pred, initVals]

theorem placed_thread {l : Launch} {core f cycle : Nat} {k : Block} {t : Nat} (ht : t < k.ntid) :
    (placeBlock l core f cycle k).threads.getD t default = initThread l k t := by
  simp [placeBlock, ht]

theorem placed_thread_beyond {l : Launch} {core f cycle : Nat} {k : Block} {t : Nat} (ht : k.ntid ≤ t) :
    (placeBlock l core f cycle k).threads.getD t default = default :=
  List.getD_eq_default _ _ (by simpa [placeBlock] using ht)

theorem get_default (n : Nat) : (default : Thread).vals.get n = Reg.zero := by
  unfold Vals.get
  split
  · rfl
  · exact List.getD_nil

theorem initWave_start : initWave.wtim = 0 ∧ initWave.wtlim = 0 ∧ initWave.declared = 0 ∧ initWave.measured = 0 ∧
    initWave.accBase = initWave.accLim ∧ initWave.tags = List.replicate 8 0 ∧ initWave.tagsS = List.replicate 8 0 ∧
    initWave.slots.length = 8 ∧ ∀ x ∈ initWave.slots, x.2 = 0 :=
  ⟨rfl, rfl, rfl, rfl, rfl, rfl, rfl, rfl, fun _ hx => List.eq_of_mem_replicate hx ▸ rfl⟩

/-- Settles O32: the threads by the registers of each, the waves, convergence registers and tiles as copies of one. -/
theorem placedBlockState : Obligations.PlacedBlockState := by
  unfold Obligations.PlacedBlockState
  intro l core f cycle k hregs k'
  refine ⟨by simp [k', placeBlock], fun t ht => ?_, fun t n ht => ?_, fun w hw => ?_, by simp [k', placeBlock], fun c hc => ?_,
    by simp [k', placeBlock], fun x hx => ?_, by simp [k', placeBlock], fun _ => rfl, fun _ => rfl⟩
  · rw [placed_thread ht]
    exact ⟨rfl, rfl, rfl, rfl, rfl, rfl, rfl, fun n hn => get_initVals hn, pred_initVals k l.regs t, rfl⟩
  · rw [placed_thread_beyond ht]
    exact get_default n
  · obtain rfl := List.eq_of_mem_replicate hw
    exact initWave_start
  · obtain rfl := List.eq_of_mem_replicate hc
    exact ⟨rfl, rfl⟩
  · obtain rfl := List.eq_of_mem_replicate hx
    rfl

end Sys2Proof.Machine
end

section
/-!
PROOFS. Numbers of a width: the signed reading of a number, the wrap of an integer, and numbers made of bits and of bytes.
-/

namespace Sys2Proof.Machine

open Sys2Proof

/-! ### Sign extension and the wrap are those of words -/

theorem sextN_eq_toInt (x n : Nat) : sextN x n = (BitVec.ofNat n x).toInt := by
  rw [BitVec.toInt_eq_msb_cond, BitVec.msb_eq_getLsbD_last]
  simp only [BitVec.toNat_ofNat, BitVec.getLsbD_ofNat]
  unfold sextN
  cases n with
  | zero => simp
  | succ n => simp [Nat.testBit_mod_two_pow]

theorem wrapN_eq_toNat (x : Int) (n : Nat) : wrapN x n = (BitVec.ofInt n x).toNat := (BitVec.toNat_ofInt x).symm

theorem wrapN_lt (x : Int) (n : Nat) : wrapN x n < 2 ^ n := by
  rw [wrapN_eq_toNat]
  exact BitVec.isLt _

@[simp] theorem cast_wrapN (x : Int) (n : Nat) : (wrapN x n : Int) = x % 2 ^ n := by
  have hpos : (0 : Int) < 2 ^ n := by positivity
  rw [wrapN, Int.toNat_of_nonneg (Int.emod_nonneg _ (by exact_mod_cast hpos.ne')), Nat.cast_pow, Nat.cast_ofNat]

/-- The integers of a width and a signedness. -/
def FitsInt (signed : Bool) (w : Nat) (e : Int) : Prop :=
  if signed then -2 ^ (w - 1) ≤ e ∧ e < 2 ^ (w - 1) else 0 ≤ e ∧ e < 2 ^ w

theorem FitsInt.min {signed : Bool} {w : Nat} {a b : Int} (ha : FitsInt signed w a) (hb : FitsInt signed w b) :
    FitsInt signed w (min a b) := by
  cases min_choice a b with
  | inl h => rwa [h]
  | inr h => rwa [h]

theorem FitsInt.max {signed : Bool} {w : Nat} {a b : Int} (ha : FitsInt signed w a) (hb : FitsInt signed w b) :
    FitsInt signed w (max a b) := by
  cases max_choice a b with
  | inl h => rwa [h]
  | inr h => rwa [h]

theorem fitsInt_sextN (x n : Nat) : FitsInt true n (sextN x n) := by
  rw [sextN_eq_toInt]
  exact ⟨BitVec.le_toInt _, BitVec.toInt_lt⟩

theorem fitsInt_srcInt (signed : Bool) (w x : Nat) : FitsInt signed w (srcInt signed w x) := by
  cases signed with
  | true => exact fitsInt_sextN x w
  | false =>
    have hlt : ((x % 2 ^ w : Nat) : Int) < 2 ^ w := by exact_mod_cast Nat.mod_lt x (Nat.two_pow_pos w)
    exact ⟨Int.natCast_nonneg _, hlt⟩

/-- Division by a positive number stays in the signed range. -/
theorem FitsInt.ediv {w : Nat} {a : Int} (h : FitsInt true w a) {d : Int} (hd : 0 < d) : FitsInt true w (a / d) := by
  obtain ⟨hlo, hhi⟩ := h
  have hpow : (0 : Int) < 2 ^ (w - 1) := by positivity
  refine ⟨?_, ?_⟩
  · rw [Int.le_ediv_iff_mul_le hd]
    nlinarith
  · refine Int.ediv_lt_of_lt_mul hd ?_
    nlinarith

/-- The wrap of an integer of the range reads as that integer. -/
theorem srcInt_wrapN {signed : Bool} {w : Nat} {e : Int} (hw : w ≠ 0) (h : FitsInt signed w e) : srcInt signed w (wrapN e w) = e := by
  cases signed with
  | true =>
    obtain ⟨hlo, hhi⟩ := h
    obtain ⟨n, rfl⟩ := Nat.exists_eq_succ_of_ne_zero hw
    have hpow : (2 : Int) ^ (n + 1) = 2 * 2 ^ n := by ring
    have hword : BitVec.ofNat (n + 1) (wrapN e (n + 1)) = BitVec.ofInt (n + 1) e := by
      rw [wrapN_eq_toNat, BitVec.ofNat_toNat, BitVec.setWidth_eq]
    rw [srcInt, if_pos rfl, sextN_eq_toInt, hword, BitVec.toInt_ofInt]
    refine Int.bmod_eq_of_le ?_ ?_
    all_goals
      push_cast
      simp only [Nat.succ_sub_one] at hlo hhi
      omega
  | false =>
    obtain ⟨hlo, hhi⟩ := h
    rw [srcInt, if_neg Bool.false_ne_true, Nat.mod_eq_of_lt (wrapN_lt e w), cast_wrapN, Int.emod_eq_of_lt hlo hhi]

theorem sextN_wrapN {w : Nat} {e : Int} (hw : w ≠ 0) (h : FitsInt true w e) : sextN (wrapN e w) w = e := srcInt_wrapN hw h

/-- The bits of a sign extension. -/
theorem testBit_wrapN_sextN (x n w k : Nat) (hk : k < w) :
    (wrapN (sextN x n) w).testBit k = if k < n then x.testBit k else decide (0 < n) && x.testBit (n - 1) := by
  rw [sextN_eq_toInt, wrapN_eq_toNat, BitVec.testBit_toNat]
  change (BitVec.signExtend w (BitVec.ofNat n x)).getLsbD k = _
  rw [BitVec.getLsbD_signExtend, decide_eq_true hk, Bool.true_and, BitVec.msb_eq_getLsbD_last]
  by_cases h : k < n
  · simp only [BitVec.getLsbD_ofNat, h, decide_true, if_true, Bool.true_and]
  · cases n with
    | zero => simp [h]
    | succ n => simp only [BitVec.getLsbD_ofNat, h, if_false, Nat.succ_sub_one, Nat.lt_succ_self, Nat.zero_lt_succ]

/-! ### Numbers made of bits -/

theorem ofBits_lt (l : List Bool) : ofBits l < 2 ^ l.length := by
  induction l with
  | nil => exact Nat.one_pos
  | cons b l ih =>
    rw [ofBits, List.length_cons, pow_succ]
    split <;> omega

theorem testBit_ofBits (l : List Bool) (k : Nat) : (ofBits l).testBit k = l.getD k false := by
  induction l generalizing k with
  | nil => simp [ofBits]
  | cons b l ih =>
    have hcons : ofBits (b :: l) = Nat.bit b (ofBits l) := by
      rw [ofBits, Nat.bit_val]
      cases b <;> simp [Nat.add_comm]
    rw [hcons]
    cases k with
    | zero => rw [Nat.testBit_bit_zero]; rfl
    | succ k => rw [Nat.testBit_bit_succ, ih, List.getD_cons_succ]

/-- The number whose bit `k` below `n` is `p k`. -/
theorem ofBits_range_lt (n : Nat) (p : Nat → Bool) : ofBits ((List.range n).map p) < 2 ^ n := by
  simpa using ofBits_lt ((List.range n).map p)

theorem testBit_ofBits_range {n k : Nat} (p : Nat → Bool) (h : k < n) : (ofBits ((List.range n).map p)).testBit k = p k := by
  simp [testBit_ofBits, h]

theorem sum_range_four {α : Type} [AddCommMonoid α] (g : Nat → α) : ((List.range 4).map g).sum = g 0 + g 1 + g 2 + g 3 := by
  simp [List.range_succ, add_assoc]

/-- Four bytes in a word, least significant first. -/
theorem byte_of_sum (b : Nat → Nat) (hb : ∀ k, b k < 256) :
    ((List.range 4).map fun k => b k * 2 ^ (8 * k)).sum < 2 ^ 32 ∧
      ∀ k, k < 4 → ((List.range 4).map fun k => b k * 2 ^ (8 * k)).sum / 2 ^ (8 * k) % 256 = b k := by
  have hsum : ((List.range 4).map fun k => b k * 2 ^ (8 * k)).sum = b 0 * 1 + b 1 * 256 + b 2 * 65536 + b 3 * 16777216 :=
    sum_range_four _
  rw [hsum]
  have h0 := hb 0
  have h1 := hb 1
  have h2 := hb 2
  have h3 := hb 3
  refine ⟨by norm_num; omega, fun k hk => ?_⟩
  interval_cases k
  all_goals
    norm_num
    omega

end Sys2Proof.Machine
end

section
/-!
PROOFS. The integer and predicate classes (05 R131-R133): what each operation computes from its operands, then each instruction
and each base form by its operation.
-/

namespace Sys2Proof.Machine

open Sys2Proof

/-! ### Operands -/

theorem runVal_lt (l : List Reg) : runVal l < 2 ^ (32 * l.length) := by
  induction l with
  | nil => exact Nat.one_pos
  | cons r l ih =>
    have hr := r.val.isLt
    rw [runVal, List.length_cons, Nat.mul_add, pow_add, Nat.mul_one]
    omega

theorem run_length (v : Vals) (n count : Nat) : (v.run n count).length = count := by
  unfold Vals.run
  split <;> simp

/-- An operand of one register, or of a pair, is below 2 to its width. -/
theorem opd_lt_of_wide {f : EFields} {sh : Shape} {p : Pos} (h : useAt sh p = wide f 1) (v : Vals) : opd f sh v p < 2 ^ widthOf f := by
  have hcount : 32 * (wide f 1).count = widthOf f := by
    unfold wide widthOf
    split <;> rfl
  unfold opd
  split
  · simp only [h, wide, widthOf]
    cases f.mod.getLsbD 1 with
    | true => exact (f.lit.getD 0).isLt
    | false => exact Nat.mod_lt _ (Nat.two_pow_pos 32)
  · next hl =>
    have hlt := runVal_lt (fieldRun f sh v p)
    have hrun : (fieldRun f sh v p).length = (wide f 1).count := by rw [fieldRun, if_neg hl, run_length, h]
    rwa [hrun, hcount] at hlt

theorem runVal_run_one (v : Vals) (n : Nat) : runVal (v.run n 1) = (v.get n).val.toNat := by
  unfold Vals.run
  split
  · next h => rw [h]; rfl
  · rfl

/-- A field of one register that does not name the literal. -/
theorem opd_of_reg {f : EFields} {sh : Shape} {p : Pos} (hl : namesLit f sh p = false) (hu : useAt sh p = .reg) (v : Vals) :
    opd f sh v p = (v.get (fieldAt f p).toNat).val.toNat := by
  rw [opd, fieldRun, hl, hu]
  exact runVal_run_one v _

theorem widthOf_cases (f : EFields) : widthOf f = 32 ∨ widthOf f = 64 := by
  unfold widthOf
  split
  · exact .inr rfl
  · exact .inl rfl

theorem widthOf_ne_zero (f : EFields) : widthOf f ≠ 0 := by
  rcases widthOf_cases f with h | h <;> omega

/-! ### Exact arithmetic -/

/-- The wrap, or the clamp to the range of the signedness (05 R131). -/
theorem narrow_value (f : EFields) {w : Nat} (hw : w ≠ 0) (e : Int) :
    narrow f w e < 2 ^ w ∧ (f.mod.getLsbD 2 = false → (narrow f w e : Int) = e % 2 ^ w) ∧
      (f.mod.getLsbD 2 = true → f.mod.getLsbD 0 = true →
        sextN (narrow f w e) w = max (-2 ^ (w - 1)) (min (2 ^ (w - 1) - 1) e)) ∧
      (f.mod.getLsbD 2 = true → f.mod.getLsbD 0 = false → (narrow f w e : Int) = max 0 (min (2 ^ w - 1) e)) := by
  have hhalf : (0 : Int) < 2 ^ (w - 1) := by positivity
  have hfull : (0 : Int) < 2 ^ w := by positivity
  unfold narrow
  refine ⟨?_, fun h => ?_, fun h hs => ?_, fun h hs => ?_⟩
  · split <;> exact wrapN_lt _ _
  · rw [h, if_neg Bool.false_ne_true, cast_wrapN]
  · simp only [h, hs, if_true]
    rw [sextN_wrapN hw ⟨by omega, by omega⟩]
    omega
  · simp only [h, hs, if_true, Bool.false_eq_true, if_false]
    rw [cast_wrapN, Int.emod_eq_of_lt (by omega) (by omega)]
    omega

/-- `IMIN` and `IMAX` choose one of the operands. -/
theorem opMinMax_value (f : EFields) (v : Vals) (rm a b : Nat) (mx : Bool) :
    let r := (opMinMax mx f v rm [a, b]).1
    let z := srcInt (f.mod.getLsbD 0) (widthOf f)
    r < 2 ^ widthOf f ∧ z r = if mx then max (z a) (z b) else min (z a) (z b) := by
  have ha := fitsInt_srcInt (f.mod.getLsbD 0) (widthOf f) a
  have hb := fitsInt_srcInt (f.mod.getLsbD 0) (widthOf f) b
  refine ⟨wrapN_lt _ _, srcInt_wrapN (widthOf_ne_zero f) ?_⟩
  cases mx with
  | true => exact ha.max hb
  | false => exact ha.min hb

theorem opAddMin_value (f : EFields) (v : Vals) (rm a b c : Nat) :
    let r := (opAddMin f v rm [a, b, c]).1
    r < 2 ^ 32 ∧ sextN r 32 = min (max (sextN a 32 + sextN b 32) (-2 ^ 31)) (sextN c 32) := by
  obtain ⟨hlo, hhi⟩ : -2 ^ 31 ≤ sextN c 32 ∧ sextN c 32 < 2 ^ 31 := fitsInt_sextN c 32
  have hfits : FitsInt true 32 (min (max (sextN a 32 + sextN b 32) (-2 ^ 31)) (sextN c 32)) :=
    ⟨le_min (le_max_right _ _) hlo, (min_le_right _ _).trans_lt hhi⟩
  exact ⟨wrapN_lt _ _, sextN_wrapN (by decide) hfits⟩

/-- A byte of its signedness. -/
theorem srcInt_byte (s : Bool) (x k : Nat) :
    srcInt s 8 (x / 2 ^ (8 * k) % 256) =
      if s then (BitVec.ofNat 8 (x / 2 ^ (8 * k))).toInt else ((BitVec.ofNat 8 (x / 2 ^ (8 * k))).toNat : Int) := by
  have hmod : BitVec.ofNat 8 (x / 2 ^ (8 * k) % 256) = BitVec.ofNat 8 (x / 2 ^ (8 * k)) :=
    BitVec.eq_of_toNat_eq (by simp)
  cases s with
  | true => exact (sextN_eq_toInt _ _).trans (congrArg BitVec.toInt hmod)
  | false => simp [srcInt]

/-! ### Shifts and fields -/

theorem opShl_value (f : EFields) (v : Vals) (rm a k : Nat) :
    (widthOf f ≤ k → (opShl f v rm [a, k]).1 = 0) ∧ (k < widthOf f → (opShl f v rm [a, k]).1 = a * 2 ^ k % 2 ^ widthOf f) :=
  ⟨fun h => if_pos h, fun h => (if_neg (Nat.not_le_of_lt h)).trans (by rw [← Nat.shiftLeft_eq]; rfl)⟩

theorem opShr_value (f : EFields) (v : Vals) (rm a k : Nat) :
    (widthOf f ≤ k → (opShr f v rm [a, k]).1 = 0) ∧ (k < widthOf f → (opShr f v rm [a, k]).1 = a / 2 ^ k) :=
  ⟨fun h => if_pos h, fun h => (if_neg (Nat.not_le_of_lt h)).trans (Nat.shiftRight_eq_div_pow a k)⟩

theorem opSar_value (f : EFields) (v : Vals) (rm a k : Nat) :
    let w := widthOf f
    let r := (opSar f v rm [a, k]).1
    r < 2 ^ w ∧ sextN r w = sextN a w / 2 ^ min k (w - 1) := by
  have hfits : FitsInt true (widthOf f) (sextN a (widthOf f) / (2 ^ min k (widthOf f - 1) : Nat)) :=
    (fitsInt_sextN _ _).ediv (by positivity)
  exact ⟨wrapN_lt _ _, by rw [← Nat.cast_ofNat (n := 2), ← Nat.cast_pow]; exact sextN_wrapN (widthOf_ne_zero f) hfits⟩

theorem opFsh_value (f : EFields) (v : Vals) (rm a b c : Nat) :
    (opFsh f v rm [a, b, c]).1 = if f.mod.toNat / 16 = 0 then (b * 2 ^ 32 + a) / 2 ^ (c % 32) % 2 ^ 32
      else (b * 2 ^ 32 + a) * 2 ^ (c % 32) / 2 ^ 32 % 2 ^ 32 := by
  rw [← Nat.shiftRight_eq_div_pow, ← Nat.shiftLeft_eq (b * 2 ^ 32 + a), ← Nat.shiftRight_eq_div_pow _ 32]
  rfl

/-- A field moved down, with copies of its last bit above it if it is signed. -/
theorem opBfx_value (f : EFields) (v : Vals) (rm a b c : Nat) :
    let w := widthOf f
    let pos := min (b % 256) w
    let len := min (c % 256) (w - pos)
    let r := (opBfx f v rm [a, b, c]).1
    r < 2 ^ w ∧ ∀ k, k < w → r.testBit k =
      if k < len then a.testBit (pos + k) else f.mod.getLsbD 0 && decide (0 < len) && a.testBit (pos + len - 1) := by
  intro w pos len r
  have hlen : len ≤ w := by omega
  let x := (a >>> pos) % 2 ^ len
  have hx : ∀ k, x.testBit k = (decide (k < len) && a.testBit (pos + k)) := fun k => by
    rw [Nat.testBit_mod_two_pow, Nat.testBit_shiftRight]
  have hr : r = if f.mod.getLsbD 0 && len != 0 then wrapN (sextN x len) w else x := rfl
  by_cases hs : (f.mod.getLsbD 0 && len != 0) = true
  · rw [if_pos hs] at hr
    obtain ⟨hsigned, hpos⟩ : f.mod.getLsbD 0 = true ∧ 0 < len := by simpa [Nat.pos_iff_ne_zero] using hs
    refine ⟨hr ▸ wrapN_lt _ _, fun k hk => ?_⟩
    rw [hr, testBit_wrapN_sextN _ _ _ _ hk, hx, hx, hsigned, decide_eq_true hpos, decide_eq_true (Nat.sub_one_lt_of_lt hpos),
      Nat.add_sub_assoc hpos]
    split
    · next h => rw [decide_eq_true h, Bool.true_and]
    · rfl
  · rw [if_neg hs] at hr
    have hoff : (f.mod.getLsbD 0 && decide (0 < len)) = false := by simpa [Nat.pos_iff_ne_zero] using hs
    refine ⟨hr ▸ Nat.lt_of_lt_of_le (Nat.mod_lt _ (Nat.two_pow_pos len)) (Nat.pow_le_pow_right Nat.two_pos hlen), fun k _ => ?_⟩
    rw [hr, hx, hoff, Bool.false_and]
    split
    · next h => rw [decide_eq_true h, Bool.true_and]
    · next h => rw [decide_eq_false h, Bool.false_and]

/-- The bits of a field of ones. -/
theorem testBit_fieldMask (pos len k : Nat) :
    ((2 ^ len - 1) <<< pos).testBit k = (decide (pos ≤ k) && decide (k < pos + len)) := by
  rw [Nat.testBit_shiftLeft, Nat.testBit_two_pow_sub_one, ← Bool.decide_and, ← Bool.decide_and]
  exact decide_eq_decide.2 (by omega)

theorem fieldMask_lt {pos len w : Nat} (h : pos + len ≤ w) : (2 ^ len - 1) <<< pos < 2 ^ w := by
  refine Nat.lt_pow_two_of_testBit _ fun k hk => ?_
  rw [testBit_fieldMask, decide_eq_false (show ¬k < pos + len by omega), Bool.and_false]

/-- A field of one operand in the place of that of another. -/
theorem opBfi_value (f : EFields) (v : Vals) (rm a b c d : Nat) :
    let w := widthOf f
    let pos := min (c % 256) w
    let len := min (d % 256) (w - pos)
    let r := (opBfi f v rm [a, b, c, d]).1
    r < 2 ^ w ∧ ∀ k, k < w → r.testBit k = if pos ≤ k ∧ k < pos + len then a.testBit (k - pos) else b.testBit k := by
  intro w pos len r
  obtain ⟨m, hmask, hr⟩ : ∃ m, m = (2 ^ len - 1) <<< pos ∧ r = (b &&& (2 ^ w - 1 - m)) ||| ((a <<< pos) &&& m) := ⟨_, rfl, rfl⟩
  have hm : m < 2 ^ w := hmask ▸ fieldMask_lt (by omega)
  refine ⟨?_, fun k hk => ?_⟩
  · rw [hr]
    exact Nat.or_lt_two_pow (Nat.and_lt_two_pow _ (by omega)) (Nat.and_lt_two_pow _ hm)
  · have hcompl : (2 ^ w - 1 - m).testBit k = !m.testBit k := by
      rw [Nat.sub_sub, Nat.add_comm 1 m, Nat.testBit_two_pow_sub_succ hm, decide_eq_true hk, Bool.true_and]
    rw [hr, Nat.testBit_or, Nat.testBit_and, Nat.testBit_and, hcompl, hmask, testBit_fieldMask, Nat.testBit_shiftLeft]
    by_cases h : pos ≤ k ∧ k < pos + len
    · simp [h]
    · rcases not_and_or.1 h with h' | h' <;> simp [h']

/-! ### Bits and bytes -/

theorem opLop3_value (f : EFields) (v : Vals) (rm a b c : Nat) :
    let bit := fun (x k : Nat) => (x.testBit k).toNat
    let r := (opLop3 f v rm [a, b, c]).1
    r < 2 ^ widthOf f ∧ ∀ k, k < widthOf f → r.testBit k = f.re.toNat.testBit (4 * bit c k + 2 * bit b k + bit a k) := by
  have hbit : ∀ x k : Nat, (x.testBit k).toNat = if x.testBit k then 1 else 0 := fun x k => by cases x.testBit k <;> rfl
  simp only [hbit]
  exact ⟨ofBits_range_lt _ _, fun k hk => testBit_ofBits_range _ hk⟩

/-- Byte `k` of a permutation of `x`: the byte that nibble `k` of `c` selects, or copies of its sign. -/
def permByte (c x k : Nat) : Nat :=
  let n := c / 2 ^ (4 * k) % 16
  let y := x / 2 ^ (8 * (n % 8)) % 256
  if 8 ≤ n then (if 128 ≤ y then 255 else 0) else y

theorem permByte_lt (c x k : Nat) : permByte c x k < 256 := by
  unfold permByte
  extract_lets n y
  split
  · split <;> decide
  · exact Nat.mod_lt _ (by decide)

theorem opPerm_value (f : EFields) (v : Vals) (rm a b c : Nat) :
    let x := b * 2 ^ 32 + a
    let r := (opPerm f v rm [a, b, c]).1
    r < 2 ^ 32 ∧ ∀ k, k < 4 →
      let n := c / 2 ^ (4 * k) % 16
      let y := x / 2 ^ (8 * (n % 8)) % 256
      r / 2 ^ (8 * k) % 256 = if n < 8 then y else if y < 128 then 0 else 255 := by
  intro x r
  obtain ⟨hlt, hget⟩ := byte_of_sum (permByte c x) (permByte_lt c x)
  refine ⟨hlt, fun k hk => (hget k hk).trans ?_⟩
  simp only [permByte, ← Nat.not_lt, ite_not]

theorem opPopc_value (f : EFields) (v : Vals) (rm a : Nat) :
    (opPopc f v rm [a]).1 = ((List.range (widthOf f)).filter fun k => a.testBit k).length := List.countP_eq_length_filter

theorem opClz_zero (f : EFields) (v : Vals) (rm : Nat) : (opClz f v rm [0]).1 = widthOf f := rfl

theorem opClz_value (f : EFields) (v : Vals) (rm : Nat) {a : Nat} (ha : a < 2 ^ widthOf f) (h0 : a ≠ 0) :
    let w := widthOf f
    let r := (opClz f v rm [a]).1
    r < w ∧ a.testBit (w - 1 - r) = true ∧ ∀ k, w - 1 - r < k → a.testBit k = false := by
  intro w r
  have hr : r = w - 1 - a.log2 := if_neg h0
  have hlog : a.log2 < w := (Nat.log2_lt h0).2 ha
  have hback : w - 1 - r = a.log2 := by omega
  rw [hback]
  exact ⟨by omega, Nat.testBit_log2 h0, fun k hk => Nat.testBit_lt_two_pow ((Nat.log2_lt h0).1 hk)⟩

/-! ### The base forms (04 R96, R97) -/

theorem aluResult_of_aluOf {i : Instr} {op : AluOp} (h : aluOf i = some op) (th : Thread) :
    aluResult i th = (op (fieldsOf i).1 th.vals (rmOf (fieldsOf i).1.rm th.rm) (opds (fieldsOf i).1 (fieldsOf i).2 th.vals)).1 := by
  rw [aluResult, h]
  rfl

theorem namesLit_of_no_lit {f : EFields} (h : f.lit = none) (sh : Shape) (p : Pos) : namesLit f sh p = false := by
  unfold namesLit
  split
  · rw [h]; rfl
  · rfl

theorem widthOf_of_not {f : EFields} (h : f.mod.getLsbD 1 = false) : widthOf f = 32 := by
  rw [widthOf, h, if_neg Bool.false_ne_true]

theorem wide_of_not {f : EFields} {k : Nat} (h : f.mod.getLsbD k = false) : wide f k = .reg := by
  rw [wide, h, if_neg Bool.false_ne_true]

/-- The operands of a base form with an immediate: its register and the immediate's word. -/
theorem opds_of_imm {f : EFields} {sh : Shape} {imm : Int} (hmod : f.mod.getLsbD 1 = false) (hsrcs : sh.srcs = [.ra, .rb])
    (hra : sh.ra = wide f 1) (hrb : sh.rb = wide f 1 ∨ sh.rb = .reg) (hlit : sh.lit = .operand [.rb]) (hfield : f.rb = 0x1FF)
    (hl : f.lit = some (BitVec.ofNat 64 (wrapN imm 32))) (v : Vals) :
    opds f sh v = [(v.get f.ra.toNat).val.toNat, wrapN imm 32] := by
  rw [wide_of_not hmod] at hra hrb
  rw [or_self] at hrb
  have hnot : namesLit f sh .ra = false := by simp [namesLit, hlit]
  have hnames : namesLit f sh .rb = true := by simp [namesLit, hlit, hl, fieldAt, hfield]
  have himm : opd f sh v .rb = wrapN imm 32 := by
    have hlt := wrapN_lt imm 32
    rw [opd, if_pos hnames, if_neg (by rw [useAt, hrb]; decide), hl, Option.getD_some, BitVec.toNat_ofNat]
    omega
  rw [opds, hsrcs, List.map_cons, List.map_cons, List.map_nil, himm, opd_of_reg hnot hra]
  rfl

theorem wrapN_sextN_word {n : Nat} (k : BitVec n) : wrapN (sextN k.toNat n) 32 = (k.signExtend 32).toNat := by
  rw [sextN_eq_toInt, wrapN_eq_toNat, BitVec.ofNat_toNat, BitVec.setWidth_eq]
  rfl

theorem wrapN_natCast {x n : Nat} (h : x < 2 ^ n) : wrapN (x : Int) n = x := by
  rw [wrapN, ← Int.natCast_mod, Nat.mod_eq_of_lt h]
  rfl

theorem srcInt_word (a : Word) : srcInt true 32 a.toNat = a.toInt := by
  rw [srcInt, if_pos rfl, sextN_eq_toInt, BitVec.ofNat_toNat, BitVec.setWidth_eq]

theorem wrapN_add_words (a b : Word) : wrapN (srcInt true 32 a.toNat + srcInt true 32 b.toNat) 32 = (a + b).toNat := by
  rw [srcInt_word, srcInt_word, wrapN_eq_toNat, BitVec.ofInt_add, BitVec.ofInt_toInt, BitVec.ofInt_toInt]

theorem shapeOf_mov_srcs (f : EFields) : (shapeOf (.mov f)).srcs = [.ra] := by
  change (if f.mod == 0x10#6 then _ else _ : Shape).srcs = [.ra]
  split <;> rfl

theorem shapeOf_mov_narrow {f : EFields} (h : f.mod = 0) : shapeOf (.mov f) = intShape1 f .reg := by
  change (if f.mod == 0x10#6 then _ else intShape1 f (wide f 1) : Shape) = _
  rw [wide_of_not (h ▸ by decide), h, if_neg (by decide)]

/-! The base forms have a MOD of 0 or 1: their operands have 32 bits. -/

theorem mod_zero_narrow : (0#6).getLsbD 1 = false := by decide
theorem mod_one_narrow : (1#6).getLsbD 1 = false := by decide

theorem opAdd_words {f : EFields} (h : f.mod = 1) (v : Vals) (rm : Nat) (a b : Word) :
    (opAdd f v rm [a.toNat, b.toNat]).1 = (a + b).toNat := by
  change narrow f (widthOf f) (srcInt (f.mod.getLsbD 0) (widthOf f) a.toNat + srcInt (f.mod.getLsbD 0) (widthOf f) b.toNat) = _
  rw [narrow, widthOf_of_not (h ▸ mod_one_narrow), h, if_neg (by decide)]
  exact wrapN_add_words a b

theorem opMovi_of_lit {f : EFields} {l : BitVec 64} (h : f.lit = some l) (v : Vals) (rm : Nat) (xs : List Nat) :
    (opMovi f v rm xs).1 = if f.mod.getLsbD 1 then l.toNat else l.toNat % 2 ^ 32 := by
  rw [opMovi, h]

theorem opMovi_of_lit_word {f : EFields} {l : BitVec 64} (h : f.lit = some l) (hmod : f.mod.getLsbD 1 = false) (v : Vals) (rm : Nat)
    (xs : List Nat) : (opMovi f v rm xs).1 = l.toNat % 2 ^ 32 := by
  rw [opMovi_of_lit h, hmod, if_neg Bool.false_ne_true]

section BaseForms

variable (th : Thread) (a d : BitVec 9)

theorem movBase_value : aluResult (.movBase a d) th = (th.vals.get a.toNat).val.toNat := by
  let f : EFields := { baseFields with ra := a, rd := d }
  have hmod : f.mod = 0 := rfl
  have hreg : useAt (shapeOf (.mov f)) .ra = .reg := by
    rw [shapeOf_mov_narrow hmod]
    exact wide_of_not (hmod ▸ by decide)
  rw [aluResult_of_aluOf rfl, opds, show (fieldsOf (.movBase a d)).2.srcs = [.ra] from shapeOf_mov_srcs _]
  exact opd_of_reg (f := f) (namesLit_of_no_lit rfl _ _) hreg _

theorem iaddBase_value (k : BitVec 6) :
    aluResult (.iaddBase k a d) th = ((th.vals.get a.toNat).val + k.signExtend 32).toNat := by
  rw [aluResult_of_aluOf rfl, opds_of_imm mod_one_narrow rfl rfl (.inl rfl) rfl rfl rfl, wrapN_sextN_word]
  exact opAdd_words rfl _ _ _ _

theorem iaddBaseLiteral_value (l : Word) :
    aluResult (.iaddBaseLiteral a d l) th = ((th.vals.get a.toNat).val + l).toNat := by
  rw [aluResult_of_aluOf rfl, opds_of_imm mod_one_narrow rfl rfl (.inl rfl) rfl rfl rfl, wrapN_natCast l.isLt]
  exact opAdd_words rfl _ _ _ _

theorem andBase_value (k : BitVec 6) :
    aluResult (.andBase k a d) th = ((th.vals.get a.toNat).val &&& k.signExtend 32).toNat := by
  rw [aluResult_of_aluOf rfl, opds_of_imm mod_zero_narrow rfl rfl (.inl rfl) rfl rfl rfl, wrapN_sextN_word, BitVec.toNat_and]
  rfl

theorem andBaseLiteral_value (l : Word) :
    aluResult (.andBaseLiteral a d l) th = ((th.vals.get a.toNat).val &&& l).toNat := by
  rw [aluResult_of_aluOf rfl, opds_of_imm mod_zero_narrow rfl rfl (.inl rfl) rfl rfl rfl, wrapN_natCast l.isLt, BitVec.toNat_and]
  rfl

theorem shlBase_value (n : BitVec 5) :
    aluResult (.shlBase n a d) th = ((th.vals.get a.toNat).val <<< n.toNat).toNat := by
  rw [aluResult_of_aluOf rfl, opds_of_imm mod_zero_narrow rfl rfl (.inr rfl) rfl rfl rfl,
    wrapN_natCast (n.isLt.trans (by decide)), BitVec.toNat_shiftLeft, Nat.shiftLeft_eq]
  have hw : widthOf (fieldsOf (.shlBase n a d)).1 = 32 := widthOf_of_not mod_zero_narrow
  rw [(opShl_value _ _ _ _ _).2 (hw ▸ n.isLt), hw]
  rfl

theorem shrBase_value (n : BitVec 5) :
    aluResult (.shrBase n a d) th = ((th.vals.get a.toNat).val >>> n.toNat).toNat := by
  rw [aluResult_of_aluOf rfl, opds_of_imm mod_zero_narrow rfl rfl (.inr rfl) rfl rfl rfl,
    wrapN_natCast (n.isLt.trans (by decide)), BitVec.toNat_ushiftRight, Nat.shiftRight_eq_div_pow]
  have hw : widthOf (fieldsOf (.shrBase n a d)).1 = 32 := widthOf_of_not mod_zero_narrow
  rw [(opShr_value _ _ _ _ _).2 (hw ▸ n.isLt)]
  rfl

theorem moviBaseLiteral_value (l : Word) : aluResult (.moviBaseLiteral d l) th = l.toNat := by
  rw [aluResult_of_aluOf rfl, opMovi_of_lit_word (l := l.setWidth 64) rfl mod_zero_narrow, BitVec.toNat_setWidth]
  have hlt := l.isLt
  omega

theorem moviBase_value (k : BitVec 15) : aluResult (.moviBase k d) th = (k.signExtend 32).toNat := by
  rw [aluResult_of_aluOf rfl, opMovi_of_lit_word (l := BitVec.ofNat 64 (wrapN (sextN k.toNat 15) 32)) rfl
    mod_zero_narrow, wrapN_sextN_word, BitVec.toNat_ofNat]
  have hlt := (k.signExtend 32).isLt
  omega

end BaseForms

/-! ### The instructions -/

/-- An instruction of exact arithmetic narrows its exact result. -/
theorem exactArithmetic_value {f : EFields} {th : Thread} {i : Instr} {e : Int} {w : Nat} (hw : w ≠ 0)
    (h : aluResult i th = narrow f w e) :
    aluResult i th < 2 ^ w ∧ (f.mod.getLsbD 2 = false → (aluResult i th : Int) = e % 2 ^ w) ∧
      (f.mod.getLsbD 2 = true → f.mod.getLsbD 0 = true →
        sextN (aluResult i th) w = max (-2 ^ (w - 1)) (min (2 ^ (w - 1) - 1) e)) ∧
      (f.mod.getLsbD 2 = true → f.mod.getLsbD 0 = false → (aluResult i th : Int) = max 0 (min (2 ^ w - 1) e)) := by
  rw [h]
  exact narrow_value f hw e

theorem mov_value (f : EFields) (th : Thread) : aluResult (.mov f) th = opd f (shapeOf (.mov f)) th.vals .ra := by
  rw [aluResult_of_aluOf rfl, opds, show (fieldsOf (.mov f)).2.srcs = [.ra] from shapeOf_mov_srcs f]
  rfl

theorem movi_value_imm {f : EFields} (h : f.lit = none) (th : Thread) :
    (aluResult (.movi f) th : Int) = sextN (f.ra.toNat + 2 ^ 9 * f.rb.toNat + 2 ^ 18 * f.rc.toNat) 27 % 2 ^ 64 := by
  rw [aluResult_of_aluOf rfl, opMovi, show (fieldsOf (.movi f)).1.lit = none from h]
  exact cast_wrapN _ 64

theorem movi_value_lit {f : EFields} {l : BitVec 64} (h : f.lit = some l) (th : Thread) :
    aluResult (.movi f) th = if f.mod.getLsbD 1 then l.toNat else l.toNat % 2 ^ 32 :=
  opMovi_of_lit h th.vals (rmOf f.rm th.rm) []

theorem idp4_value (f : EFields) (th : Thread) :
    let byte := fun (n k : Nat) =>
      if f.mod.getLsbD 0 then (BitVec.ofNat 8 (n / 2 ^ (8 * k))).toInt else ((BitVec.ofNat 8 (n / 2 ^ (8 * k))).toNat : Int)
    let x := opd f (shapeOf (.idp4 f)) th.vals
    (aluResult (.idp4 f) th : Int) = (x .rc + (byte (x .ra) 0 * byte (x .rb) 0 + byte (x .ra) 1 * byte (x .rb) 1 +
      byte (x .ra) 2 * byte (x .rb) 2 + byte (x .ra) 3 * byte (x .rb) 3)) % 2 ^ 32 := by
  intro byte x
  simp only [byte, ← srcInt_byte, ← sum_range_four fun k => srcInt (f.mod.getLsbD 0) 8 (x .ra / 2 ^ (8 * k) % 256) *
    srcInt (f.mod.getLsbD 0) 8 (x .rb / 2 ^ (8 * k) % 256)]
  exact cast_wrapN _ 32

/-- `ISET` by its condition code (04 Table 04.8). -/
theorem iset_value (f : EFields) (th : Thread) :
    let W := if f.mod.getLsbD 4 then 64 else 32
    let a := srcInt (f.mod.getLsbD 3) W (opd f (shapeOf (.iset f)) th.vals .ra)
    let b := srcInt (f.mod.getLsbD 3) W (opd f (shapeOf (.iset f)) th.vals .rb)
    let r := aluResult (.iset f) th
    let holds := fun (c : Prop) => (r = 1 ∧ c) ∨ (r = 0 ∧ ¬c)
    (fmtOf f = 0 → holds (a = b)) ∧ (fmtOf f = 1 → holds (a ≠ b)) ∧ (fmtOf f = 2 → holds (a < b)) ∧
      (fmtOf f = 3 → holds (a ≤ b)) ∧ (fmtOf f = 4 → holds (a > b)) ∧ (fmtOf f = 5 → holds (a ≥ b)) := by
  intro W a b r holds
  have hr : r = if condInt (fmtOf f) a b then 1 else 0 := rfl
  have key : ∀ {n : Nat} {c : Prop}, (condInt n a b = true ↔ c) → fmtOf f = n → holds c := by
    intro n c hc hn
    rw [hn] at hr
    by_cases h : c
    · exact .inl ⟨hr.trans (if_pos (hc.2 h)), h⟩
    · exact .inr ⟨hr.trans (if_neg fun hb => h (hc.1 hb)), h⟩
  exact ⟨key beq_iff_eq, key bne_iff_ne, key decide_eq_true_iff, key decide_eq_true_iff, key decide_eq_true_iff, key decide_eq_true_iff⟩

theorem plop_value (f : EFields) (th : Thread) (h : f.rd.toNat < 16) :
    let bit := fun (p : BitVec 9) => (th.vals.pred p.toNat).toNat
    (aluStep (.plop f) opPlop th).vals.pred f.rd.toNat =
      (decide (f.rd = 0) || f.re.toNat.testBit (4 * bit f.rc + 2 * bit f.rb + bit f.ra)) := by
  intro bit
  have hbit : ∀ p : BitVec 9, bit p = if th.vals.pred p.toNat then 1 else 0 := fun p => by
    simp only [bit]
    cases th.vals.pred p.toNat <;> rfl
  obtain ⟨c, hc⟩ : ∃ c, c = f.re.toNat.testBit (4 * bit f.rc + 2 * bit f.rb + bit f.ra) := ⟨_, rfl⟩
  have hvals : (aluStep (.plop f) opPlop th).vals = th.vals.setPred f.rd.toNat c := by
    have hop : aluResult (.plop f) th = if c then 1 else 0 := by
      rw [hc, hbit, hbit, hbit]
      rfl
    have hwrite : (aluStep (.plop f) opPlop th).vals = writeDst f (shapeOf (.plop f)) th.vals (aluResult (.plop f) th)
      (srcTaint f (shapeOf (.plop f)) th.vals) := rfl
    rw [hwrite, writeDst_of_pred rfl rfl, hop]
    cases c <;> rfl
  rw [hvals, Vals.pred_setPred _ _ _ _ h, ← hc]
  by_cases h0 : f.rd = 0
  · simp [h0, Vals.pred]
  · have hne : f.rd.toNat ≠ 0 := fun hz => h0 (BitVec.eq_of_toNat_eq hz)
    rw [if_pos ⟨rfl, hne⟩, decide_eq_false h0, Bool.false_or]

theorem clz_value (f : EFields) (th : Thread) :
    let x := opd f (shapeOf (.clz f)) th.vals .ra
    let r := aluResult (.clz f) th
    (x = 0 → r = widthOf f) ∧ (x ≠ 0 → r < widthOf f ∧ x.testBit (widthOf f - 1 - r) = true ∧
      ∀ k, widthOf f - 1 - r < k → x.testBit k = false) := by
  intro x r
  have hr : r = (opClz f th.vals (rmOf f.rm th.rm) [x]).1 := rfl
  refine ⟨fun h => ?_, fun h => ?_⟩
  · rw [hr, h]
    exact opClz_zero f _ _
  · rw [hr]
    exact opClz_value f _ _ (opd_lt_of_wide rfl _) h

/-- Settles O4: each instruction by its operation on the values of its operands. -/
theorem integerValues : Obligations.IntegerValues := by
  unfold Obligations.IntegerValues
  intro f th w sgn x z r reg
  let v := th.vals
  let rm := rmOf f.rm th.rm
  refine ⟨fun i e W h => ?_, cast_wrapN _ _, opMinMax_value f v rm _ _ false, opMinMax_value f v rm _ _ true, opAddMin_value f v rm _ _ _,
    idp4_value f th, iset_value f th, rfl, mov_value f th, fun h => movi_value_imm h th, fun l h => movi_value_lit h th, ?_, rfl, rfl, rfl,
    opLop3_value f v rm _ _ _, opShl_value f v rm _ _, opShr_value f v rm _ _, opSar_value f v rm _ _, opFsh_value f v rm _ _ _,
    opBfx_value f v rm _ _ _, opBfi_value f v rm _ _ _ _, ?_, opPerm_value f v rm _ _ _, plop_value f th, ?_, opPopc_value f v rm _,
    (clz_value f th).1, (clz_value f th).2,
    fun a d k n l => ⟨movBase_value th a d, iaddBase_value th a d k, iaddBaseLiteral_value th a d l, andBase_value th a d k,
      andBaseLiteral_value th a d l, shlBase_value th a d n, shrBase_value th a d n, moviBaseLiteral_value th d l⟩,
    fun d k => moviBase_value th d k⟩
  · rcases h with ⟨rfl, h⟩ | ⟨rfl, rfl, rfl⟩
    · rcases h with ⟨rfl, rfl⟩ | ⟨rfl, rfl⟩ | ⟨rfl, rfl⟩ | ⟨rfl, rfl⟩ | ⟨rfl, rfl⟩ | ⟨rfl, rfl⟩
      all_goals exact exactArithmetic_value (widthOf_ne_zero f) rfl
    · exact exactArithmetic_value (by decide) rfl
  · exact (cast_wrapN _ 64).trans (by push_cast; rfl)
  · exact ⟨ofBits_range_lt _ _, fun k hk => testBit_ofBits_range _ hk⟩
  · exact ⟨ofBits_range_lt 16 _, fun k hk => testBit_ofBits_range _ hk⟩

end Sys2Proof.Machine
end


section
/-!
PROOFS. Float values (05, number formats): the clause on single powers of DS8 does not bound its exponent from below.
-/

namespace Sys2Proof.Machine

open Sys2Proof

/-! ### The value 2 and its DS8 byte -/

/-- The value 2 as an operand of a conversion. -/
def fvTwo : FV := .fin false 2 0

theorem rat_fvTwo : fvTwo.rat = 2 := by
  norm_num [fvTwo, FV.rat, signedM]

theorem cvtElement_ds8_fvTwo (fl : EFields) (rm : Nat) : cvtElement fl 5 rm fvTwo = (0x00, 0) := by
  have hbyte : toDs8 fvTwo = (0x00, 0) := by decide +kernel
  exact hbyte

/-- Refutes O5: the clause on single powers of DS8 speaks of every integer `k < 8`. At `k = -1` its value is 2, which the
conversion of 2 gives as the byte `0x00` of 2⁰ + 2⁰, and the clause asks for `16·(-1) + 7`. -/
theorem not_floatValues : ¬ Obligations.FloatValues := by
  unfold Obligations.FloatValues
  rintro ⟨-, -, -, -, -, -, -, -, -, -, -, -, -, hds8⟩
  obtain ⟨-, -, hfin⟩ := hds8 baseFields rmRNE fvTwo
  obtain ⟨-, -, hwithin⟩ := hfin rfl
  rw [cvtElement_ds8_fvTwo, rat_fvTwo] at hwithin
  obtain ⟨-, -, -, -, hpower, -⟩ := hwithin (by decide) (by decide)
  have hbyte := hpower (-1) (by decide) (by decide +kernel)
  exact absurd hbyte (by decide)

end Sys2Proof.Machine
end


section
/-!
PROOFS. Patterns of a format (05 Table 05.1): their fields, their values by their place on a grid, and the largest finite one.
-/

namespace Sys2Proof.Machine

open Sys2Proof

theorem rat_fin (n : Bool) (m : Nat) (e : Int) : (FV.fin n m e).rat = (signedM n m : Rat) * (2 : Rat) ^ e := rfl

theorem rat_signedM (n : Bool) (m : Nat) : (signedM n m : Rat) = (if n then -1 else 1) * (m : Rat) := by
  cases n <;> simp [signedM]

/-- The three fields of a pattern. -/
theorem fields_of_pattern (f : Fmt) (neg : Bool) {ex frac : Nat} (hex : ex < 2 ^ f.eb) (hfrac : frac < 2 ^ f.fb) :
    let x := f.sign neg + (ex * 2 ^ f.fb + frac)
    x < 2 ^ f.width ∧ x % 2 ^ f.fb = frac ∧ (x >>> f.fb) % 2 ^ f.eb = ex ∧ x.testBit (f.eb + f.fb) = neg := by
  intro x
  have hx : x = (neg.toNat * 2 ^ f.eb + ex) * 2 ^ f.fb + frac := by
    cases neg
    · simp [x, Fmt.sign]
    · simp [x, Fmt.sign, pow_add]; ring
  have hdiv : x / 2 ^ f.fb = neg.toNat * 2 ^ f.eb + ex := by
    rw [hx, Nat.mul_comm, Nat.mul_add_div (by positivity), Nat.div_eq_of_lt hfrac, Nat.add_zero]
  have hneg : neg.toNat ≤ 1 := Bool.toNat_le neg
  refine ⟨?_, ?_, ?_, ?_⟩
  · have hw : 2 ^ f.width = 2 * 2 ^ f.eb * 2 ^ f.fb := by rw [Fmt.width, pow_add, pow_add, pow_one]
    rw [hw, hx]
    have hlt : neg.toNat * 2 ^ f.eb + ex + 1 ≤ 2 * 2 ^ f.eb := by nlinarith
    calc _ < (neg.toNat * 2 ^ f.eb + ex + 1) * 2 ^ f.fb := by rw [Nat.add_mul _ 1]; omega
      _ ≤ _ := Nat.mul_le_mul_right _ hlt
  · rw [hx, Nat.mul_comm, Nat.mul_add_mod, Nat.mod_eq_of_lt hfrac]
  · rw [Nat.shiftRight_eq_div_pow, hdiv, Nat.mul_comm, Nat.mul_add_mod, Nat.mod_eq_of_lt hex]
  · rw [Nat.testBit_eq_decide_div_mod_eq, Nat.add_comm, pow_add, ← Nat.div_div_eq_div_mul, hdiv, Nat.mul_comm,
      Nat.mul_add_div (by positivity), Nat.div_eq_of_lt hex]
    cases neg <;> rfl

theorem infBits_eq (f : Fmt) : f.infBits = (2 ^ f.eb - 1) * 2 ^ f.fb := by
  rw [Fmt.infBits, Nat.shiftLeft_eq]

/-- A pattern below that of infinity, by its place `T` on the grid of the step `E`; `T` may be the first place of the next step. -/
theorem pattern_on_grid (f : Fmt) (neg : Bool) {E T : Nat} (hT : T ≤ 2 ^ (f.fb + 1)) (hE : E = 0 ∨ 2 ^ f.fb ≤ T)
    (hfin : E * 2 ^ f.fb + T < f.infBits) :
    let x := f.sign neg + (E * 2 ^ f.fb + T)
    x < 2 ^ f.width ∧ (unpackF f x).isFin = true ∧ x.testBit (f.eb + f.fb) = neg ∧
      (unpackF f x).rat = (signedM neg T : Rat) * (2 : Rat) ^ (f.emin - f.fb + E) := by
  have hpos : 0 < 2 ^ f.fb := by positivity
  rw [infBits_eq] at hfin
  -- the fields of the pattern: the quotient and the remainder of `T`
  obtain ⟨q, r, hq2, hr, rfl⟩ : ∃ q r, q ≤ 2 ∧ r < 2 ^ f.fb ∧ T = q * 2 ^ f.fb + r :=
    ⟨T / 2 ^ f.fb, T % 2 ^ f.fb, Nat.div_le_of_le_mul (by rwa [← pow_succ]), Nat.mod_lt _ hpos, (Nat.div_add_mod' ..).symm⟩
  have hsum : E * 2 ^ f.fb + (q * 2 ^ f.fb + r) = (E + q) * 2 ^ f.fb + r := by ring
  rw [hsum] at hfin ⊢
  have hex : E + q < 2 ^ f.eb - 1 := by
    exact Nat.lt_of_mul_lt_mul_right (Nat.lt_of_le_of_lt (Nat.le_add_right ..) hfin)
  obtain ⟨hlt, hmod, hshift, hbit⟩ := fields_of_pattern f neg (ex := E + q) (by omega) hr
  intro x
  have hun : unpackF f x = if E + q = 0 then .fin neg r (f.emin - f.fb)
      else .fin neg (r + 2 ^ f.fb) (((E + q : Nat) : Int) - 1 + f.emin - f.fb) := by
    unfold unpackF
    simp only [x, hmod, hshift, hbit]
    rw [if_neg (by omega)]
  refine ⟨hlt, ?_, hbit, ?_⟩
  · rw [hun]; split <;> rfl
  rw [hun]
  obtain rfl | rfl | rfl : q = 0 ∨ q = 1 ∨ q = 2 := by omega
  · -- a subnormal
    obtain rfl : E = 0 := hE.resolve_right (by omega)
    simp [rat_fin]
  · -- a normal
    have hexp : ((E + 1 : Nat) : Int) - 1 + f.emin - f.fb = f.emin - f.fb + E := by push_cast; ring
    rw [if_neg (by omega), rat_fin, hexp, Nat.one_mul, Nat.add_comm r]
  · -- the first number of the next step
    obtain rfl : r = 0 := by rw [pow_succ] at hT; omega
    have hexp : ((E + 2 : Nat) : Int) - 1 + f.emin - f.fb = f.emin - f.fb + E + 1 := by push_cast; ring
    rw [if_neg (by omega), rat_fin, hexp, zpow_add_one₀ two_ne_zero, rat_signedM, rat_signedM]
    push_cast
    ring

/-- The largest finite value, by its place on its grid. -/
theorem maxf_eq {f : Fmt} (hf : 2 ≤ f.eb) :
    f.maxf = ((2 ^ (f.fb + 1) - 1 : Nat) : Rat) * (2 : Rat) ^ (f.emin - f.fb + (2 ^ f.eb - 3 : Nat)) := by
  have h4 : 2 ^ 2 ≤ 2 ^ f.eb := Nat.pow_le_pow_right (by decide) hf
  have hpos : 0 < 2 ^ f.fb := by positivity
  have hpat : f.sign false + ((2 ^ f.eb - 3) * 2 ^ f.fb + (2 ^ (f.fb + 1) - 1)) = f.infBits - 1 := by
    rw [infBits_eq, pow_succ]
    have : 2 ^ f.eb - 1 = (2 ^ f.eb - 3) + 2 := by omega
    rw [this, Nat.add_mul, Fmt.sign, if_neg Bool.false_ne_true]
    generalize (2 ^ f.eb - 3) * 2 ^ f.fb = a
    omega
  have hlt : (2 ^ f.eb - 3) * 2 ^ f.fb + (2 ^ (f.fb + 1) - 1) < f.infBits := by
    have : 0 < f.infBits := by
      rw [infBits_eq]; exact Nat.mul_pos (by omega) hpos
    simp only [Fmt.sign] at hpat
    omega
  obtain ⟨-, -, -, hrat⟩ := pattern_on_grid f false (Nat.sub_le ..) (.inr (by rw [pow_succ]; omega)) hlt
  rw [hpat] at hrat
  exact hrat

/-- A place on the grid lies above the largest finite value just where its pattern is not below that of infinity. -/
theorem grid_le_maxf_iff {f : Fmt} (hf : 2 ≤ f.eb) {E T : Nat} (hT : T ≤ 2 ^ (f.fb + 1)) (hE : E = 0 ∨ 2 ^ f.fb ≤ T) :
    (T : Rat) * (2 : Rat) ^ (f.emin - f.fb + E) ≤ f.maxf ↔ E * 2 ^ f.fb + T < f.infBits := by
  have h4 : 2 ^ 2 ≤ 2 ^ f.eb := Nat.pow_le_pow_right (by decide) hf
  have hpos : 0 < 2 ^ f.fb := by positivity
  have hpow : ∀ n : Nat, (2 : Rat) ^ (f.emin - f.fb + n) = (2 : Rat) ^ (f.emin - f.fb) * (2 ^ n : Nat) := by
    intro n; rw [zpow_add₀ two_ne_zero, zpow_natCast, Nat.cast_pow, Nat.cast_ofNat]
  rw [maxf_eq hf, hpow, hpow, mul_left_comm, mul_left_comm (((2 ^ (f.fb + 1) - 1 : Nat) : Nat) : Rat),
    mul_le_mul_iff_right₀ (by positivity), ← Nat.cast_mul, ← Nat.cast_mul, Nat.cast_le, infBits_eq]
  obtain ⟨M, hM⟩ : ∃ M, 2 ^ f.eb = M + 3 := ⟨2 ^ f.eb - 3, by omega⟩
  rw [hM, pow_succ] at *
  generalize 2 ^ f.fb = P at *
  simp only [Nat.add_sub_cancel]
  have hPM : (M + 3 - 1) * P = M * P + 2 * P := by rw [← Nat.add_mul]; rfl
  rw [hPM]
  have h2 : ∀ {a b : Nat}, a < b → 2 * 2 ^ a ≤ 2 ^ b := fun {a b} h => by
    rw [← pow_succ']; exact Nat.pow_le_pow_right (by decide) h
  rcases Nat.lt_trichotomy E M with h | rfl | h
  · -- a lower step
    have h1 := Nat.mul_le_mul_right P h
    rw [Nat.succ_mul] at h1
    refine iff_of_true ?_ (by omega)
    calc T * 2 ^ E ≤ P * 2 * 2 ^ E := Nat.mul_le_mul_right _ hT
      _ = P * (2 * 2 ^ E) := Nat.mul_assoc ..
      _ ≤ P * 2 ^ M := Nat.mul_le_mul_left _ (h2 h)
      _ ≤ (P * 2 - 1) * 2 ^ M := Nat.mul_le_mul_right _ (by omega)
  · rw [Nat.mul_le_mul_right_iff (by positivity)]
    omega
  · -- a higher step
    have h1 := Nat.mul_le_mul_right P h
    rw [Nat.succ_mul] at h1
    have hTP : P ≤ T := hE.resolve_left (by omega)
    refine iff_of_false (Nat.not_le.2 ?_) (by omega)
    calc (P * 2 - 1) * 2 ^ M < P * 2 * 2 ^ M := Nat.mul_lt_mul_of_pos_right (by omega) (by positivity)
      _ = P * (2 * 2 ^ M) := Nat.mul_assoc ..
      _ ≤ P * 2 ^ E := Nat.mul_le_mul_left _ (h2 h)
      _ ≤ T * 2 ^ E := Nat.mul_le_mul_right _ hTP

end Sys2Proof.Machine
end


section
/-!
PROOFS. The one rounding (05 R118, R120): the places of a grid, the place that a magnitude is rounded to, and the pattern and the flags
that `roundF` gives.
-/

namespace Sys2Proof.Machine

open Sys2Proof

/-! ### The grid -/

theorem ratAbs_eq (x : Rat) : x.abs = |x| := by
  unfold Rat.abs
  split
  · next h => exact (abs_of_nonneg h).symm
  · next h => exact (abs_of_neg (not_le.1 h)).symm

/-- Of the places `n` and `n + 1` around a value, at the fraction `ρ` between them, a rounding takes the upper one. -/
def GoesUp (rm : Nat) (n : Int) (ρ : Rat) : Prop :=
  ρ ≠ 0 ∧ ((rm = rmRNE ∧ (1 < 2 * ρ ∨ 2 * ρ = 1 ∧ ¬ 2 ∣ n)) ∨ (rm = rmRNA ∧ (1 < 2 * ρ ∨ 2 * ρ = 1 ∧ 0 ≤ n)) ∨
    (rm = rmRTZ ∧ ¬ 0 ≤ n) ∨ rm = rmRUP)

theorem abs_place_lt_iff {q : Rat} (hq : 0 < q) (n : Int) : |(n : Rat) * q| < |(n : Rat) * q + q| ↔ 0 ≤ n := by
  have hsucc : (n : Rat) * q + q = ((n + 1 : Int) : Rat) * q := by push_cast; ring
  rw [hsucc, abs_mul, abs_mul, mul_lt_mul_iff_of_pos_right (abs_pos.2 hq.ne'), ← Int.cast_abs, ← Int.cast_abs, Int.cast_lt, ← sq_lt_sq]
  constructor <;> intro h <;> nlinarith

/-- The value that `onGrid` takes, by its place. -/
theorem onGrid_place {rm : Nat} {q ρ : Rat} (n : Int) [Decidable (GoesUp rm n ρ)] (hq : 0 < q) (h0 : 0 ≤ ρ) (h1 : ρ < 1)
    (hrm : 1 ≤ rm ∧ rm ≤ 5) :
    onGrid rm q ((n + ρ) * q) = ((if GoesUp rm n ρ then n + 1 else n : Int) : Rat) * q := by
  have hfloor : ((n + ρ) * q / q).floor = n := by
    rw [mul_div_cancel_right₀ _ hq.ne']
    have hfl : ⌊(n : Rat) + ρ⌋ = n := Int.floor_eq_iff.2 ⟨by linarith, by linarith⟩
    exact hfl
  have hzero : (n + ρ) * q = n * q ↔ ρ = 0 := by
    rw [mul_left_inj' hq.ne']
    simp
  have hlow : (n + ρ) * q - n * q < n * q + q - (n + ρ) * q ↔ 2 * ρ < 1 := by
    constructor <;> intro h <;> nlinarith
  have hhigh : n * q + q - (n + ρ) * q < (n + ρ) * q - n * q ↔ 1 < 2 * ρ := by
    constructor <;> intro h <;> nlinarith
  have hup : ((n + 1 : Int) : Rat) * q = n * q + q := by push_cast; ring
  rw [apply_ite (fun z : Int => (z : Rat) * q), hup]
  unfold onGrid GoesUp
  simp only [hfloor, hzero, hlow, hhigh, ratAbs_eq, abs_place_lt_iff hq]
  by_cases hρ : ρ = 0
  · simp [hρ]
  obtain ⟨hr1, hr5⟩ := hrm
  obtain rfl | rfl | rfl | rfl | rfl : rm = 1 ∨ rm = 2 ∨ rm = 3 ∨ rm = 4 ∨ rm = 5 := by omega
  all_goals
    rcases lt_trichotomy (2 * ρ) 1 with h | h | h
    · simp [rmRNE, rmRNA, rmRTZ, rmRDN, rmRUP, hρ, h, h.not_gt, h.ne, -not_le, -Int.not_le]
    · simp [rmRNE, rmRNA, rmRTZ, rmRDN, rmRUP, hρ, h, -not_le, -Int.not_le, -Int.two_dvd_ne_zero]
    · simp [rmRNE, rmRNA, rmRTZ, rmRDN, rmRUP, hρ, h, h.not_gt, h.ne', -not_le, -Int.not_le]

/-! ### Rounding a magnitude -/

section Fraction

variable {r sh : Nat} (hr : r < 2 ^ sh)

/-- The fraction `r / 2 ^ sh`. -/
def fraction (r sh : Nat) : Rat := r / 2 ^ sh

theorem fraction_eq_zero_iff : fraction r sh = 0 ↔ r = 0 := by
  simp [fraction]

theorem fraction_nonneg : 0 ≤ fraction r sh := by unfold fraction; positivity

include hr in
theorem fraction_lt_one : fraction r sh < 1 := by
  rw [fraction, div_lt_one (by positivity)]
  exact_mod_cast hr

theorem half_lt_fraction_iff : 1 < 2 * fraction r sh ↔ 2 ^ sh < 2 * r := by
  rw [fraction, ← mul_div_assoc, lt_div_iff₀ (by positivity), one_mul]
  exact_mod_cast Iff.rfl

theorem fraction_eq_half_iff : 2 * fraction r sh = 1 ↔ 2 ^ sh = 2 * r := by
  rw [fraction, ← mul_div_assoc, div_eq_one_iff_eq (by positivity), eq_comm]
  exact_mod_cast Iff.rfl

theorem fraction_lt_half_iff : 2 * fraction r sh < 1 ↔ 2 * r < 2 ^ sh := by
  rw [fraction, ← mul_div_assoc, div_lt_one (by positivity)]
  exact_mod_cast Iff.rfl

/-- A positive magnitude is rounded to the place above it where its value is. -/
theorem goesUp_iff_roundUp {rm t : Nat} (hrm : 1 ≤ rm ∧ rm ≤ 5) :
    GoesUp rm t (fraction r sh) ↔ roundUp rm false t r sh = true := by
  unfold GoesUp roundUp
  rw [ne_eq, fraction_eq_zero_iff, half_lt_fraction_iff, fraction_eq_half_iff]
  by_cases h0 : r = 0
  · simp [h0]
  obtain ⟨hr1, hr5⟩ := hrm
  obtain rfl | rfl | rfl | rfl | rfl : rm = 1 ∨ rm = 2 ∨ rm = 3 ∨ rm = 4 ∨ rm = 5 := by omega
  all_goals simp [rmRNE, rmRNA, rmRTZ, rmRDN, rmRUP, h0] <;> omega

/-- A negative magnitude is rounded to the place above it where its value goes to the lower place. -/
theorem goesUp_neg_iff_roundUp {rm t : Nat} (hrm : 1 ≤ rm ∧ rm ≤ 5) (h0 : r ≠ 0) (hr : r < 2 ^ sh) :
    GoesUp rm (-(t + 1 : Int)) (1 - fraction r sh) ↔ roundUp rm true t r sh = false := by
  have hlt := fraction_lt_one hr
  have hne : 1 - fraction r sh ≠ 0 := by linarith
  have hhalf : 1 < 2 * (1 - fraction r sh) ↔ 2 * r < 2 ^ sh := by
    rw [← fraction_lt_half_iff]; constructor <;> intro h <;> linarith
  have htie : 2 * (1 - fraction r sh) = 1 ↔ 2 ^ sh = 2 * r := by
    rw [← fraction_eq_half_iff]; constructor <;> intro h <;> linarith
  unfold GoesUp roundUp
  rw [hhalf, htie]
  obtain ⟨hr1, hr5⟩ := hrm
  obtain rfl | rfl | rfl | rfl | rfl : rm = 1 ∨ rm = 2 ∨ rm = 3 ∨ rm = 4 ∨ rm = 5 := by omega
  all_goals simp [rmRNE, rmRNA, rmRTZ, rmRDN, rmRUP, h0, hne] <;> omega

end Fraction

/-- THE ROUNDING OF A SIGNED VALUE on a grid is that of its magnitude. -/
theorem onGrid_signed {rm : Nat} {q : Rat} (neg : Bool) (t : Nat) {r sh : Nat} (hq : 0 < q) (hr : r < 2 ^ sh)
    (hrm : 1 ≤ rm ∧ rm ≤ 5) :
    onGrid rm q ((if neg then -1 else 1) * ((t + fraction r sh) * q)) =
      (signedM neg (if roundUp rm neg t r sh then t + 1 else t) : Rat) * q := by
  classical
  have hlt := fraction_lt_one hr
  cases neg with
  | false =>
    have hplace := onGrid_place (rm := rm) t hq fraction_nonneg hlt hrm
    rw [if_neg Bool.false_ne_true, one_mul]
    rw [Int.cast_natCast] at hplace
    rw [hplace]
    simp only [goesUp_iff_roundUp hrm, signedM]
    congr 2
    split <;> simp
  | true =>
    by_cases h0 : r = 0
    · have hplace := onGrid_place (rm := rm) (-(t : Int)) hq le_rfl zero_lt_one hrm
      have hf : fraction r sh = 0 := fraction_eq_zero_iff.2 h0
      have hv : (if true = true then (-1 : Rat) else 1) * ((t + fraction r sh) * q) = (((-(t : Int) : Int) : Rat) + 0) * q := by
        rw [hf, if_pos rfl]; push_cast; ring
      rw [hv, hplace]
      simp [GoesUp, roundUp, h0, signedM]
    · have hplace := onGrid_place (rm := rm) (-(t + 1 : Int)) hq (ρ := 1 - fraction r sh) (by linarith)
        (by have := (fraction_nonneg (r := r) (sh := sh)).lt_of_ne' (mt fraction_eq_zero_iff.1 h0); linarith) hrm
      have hv : (if true = true then (-1 : Rat) else 1) * ((t + fraction r sh) * q) =
          (((-(t + 1 : Int) : Int) : Rat) + (1 - fraction r sh)) * q := by
        rw [if_pos rfl]; push_cast; ring
      rw [hv, hplace]
      simp only [goesUp_neg_iff_roundUp hrm h0 hr, signedM]
      congr 2
      cases roundUp rm true t r sh <;> simp

/-! ### `round_fmt` -/

/-- The exponent of the grid, the bits below it, the place below a magnitude on it and what is left of it. -/
def gridExp (f : Fmt) (m : Nat) (e : Int) : Int := max ((Nat.log2 m : Int) + e) f.emin - f.fb
def restBits (f : Fmt) (m : Nat) (e : Int) : Nat := (gridExp f m e - e).toNat
def gridPlace (f : Fmt) (m : Nat) (e : Int) : Nat :=
  if gridExp f m e ≤ e then m <<< (e - gridExp f m e).toNat else m >>> restBits f m e
def gridRest (f : Fmt) (m : Nat) (e : Int) : Nat := if gridExp f m e ≤ e then 0 else m % 2 ^ restBits f m e

/-- The step of the grid, counted from that of the subnormals. -/
def gridStep (f : Fmt) (m : Nat) (e : Int) : Nat := (max ((Nat.log2 m : Int) + e) f.emin - f.emin).toNat

/-- The place that a magnitude is rounded to. -/
def roundedPlace (f : Fmt) (rm : Nat) (neg : Bool) (m : Nat) (e : Int) : Nat :=
  if roundUp rm neg (gridPlace f m e) (gridRest f m e) (restBits f m e) then gridPlace f m e + 1 else gridPlace f m e

theorem gridRest_lt (f : Fmt) (m : Nat) (e : Int) : gridRest f m e < 2 ^ restBits f m e := by
  unfold gridRest
  split
  · positivity
  · exact Nat.mod_lt _ (by positivity)

theorem magnitude_on_grid (f : Fmt) (m : Nat) (e : Int) :
    (m : Rat) * (2 : Rat) ^ e = (gridPlace f m e + fraction (gridRest f m e) (restBits f m e)) * (2 : Rat) ^ gridExp f m e := by
  unfold gridPlace gridRest
  split
  · next h =>
    have he : e = ((e - gridExp f m e).toNat : Int) + gridExp f m e := by omega
    rw [fraction_eq_zero_iff.2 rfl, add_zero, Nat.shiftLeft_eq]
    conv_lhs => rw [he, zpow_add₀ two_ne_zero, zpow_natCast]
    push_cast
    ring
  · next h =>
    have he : gridExp f m e = (restBits f m e : Int) + e := by unfold restBits; omega
    have hm : (m : Rat) = (m / 2 ^ restBits f m e : Nat) * 2 ^ restBits f m e + (m % 2 ^ restBits f m e : Nat) := by
      exact_mod_cast (Nat.div_add_mod' m _).symm
    rw [he, zpow_add₀ two_ne_zero, zpow_natCast, Nat.shiftRight_eq_div_pow, fraction]
    conv_lhs => rw [hm]
    field_simp

/-- The binary order of a magnitude. -/
theorem magnitude_log {m : Nat} (hm : m ≠ 0) (e : Int) :
    (2 : Rat) ^ ((Nat.log2 m : Int) + e) ≤ m * (2 : Rat) ^ e ∧ (m : Rat) * (2 : Rat) ^ e < (2 : Rat) ^ ((Nat.log2 m : Int) + e + 1) := by
  have h2 : (0 : Rat) < (2 : Rat) ^ e := by positivity
  rw [add_right_comm, zpow_add₀ two_ne_zero, zpow_add₀ two_ne_zero, mul_le_mul_iff_of_pos_right h2, mul_lt_mul_iff_of_pos_right h2]
  exact ⟨by exact_mod_cast Nat.log2_self_le hm, by exact_mod_cast Nat.lt_log2_self⟩

/-- The grid of a step that is not the first begins at the place of a significand with its leading bit. -/
theorem gridPlace_bounds (f : Fmt) {m : Nat} (hm : m ≠ 0) (e : Int) :
    gridPlace f m e < 2 ^ (f.fb + 1) ∧ (gridStep f m e = 0 ∨ 2 ^ f.fb ≤ gridPlace f m e) := by
  have hq : (0 : Rat) < (2 : Rat) ^ gridExp f m e := by positivity
  obtain ⟨hlo, hhi⟩ := magnitude_log hm e
  have hmag := magnitude_on_grid f m e
  have hfrac := fraction_lt_one (gridRest_lt f m e)
  have hfrac0 := fraction_nonneg (r := gridRest f m e) (sh := restBits f m e)
  constructor
  · have hle : (gridPlace f m e : Rat) * (2 : Rat) ^ gridExp f m e < (2 ^ (f.fb + 1) : Nat) * (2 : Rat) ^ gridExp f m e := by
      calc (gridPlace f m e : Rat) * (2 : Rat) ^ gridExp f m e ≤ m * (2 : Rat) ^ e := by
            rw [hmag]; exact mul_le_mul_of_nonneg_right (by linarith) hq.le
        _ < (2 : Rat) ^ ((Nat.log2 m : Int) + e + 1) := hhi
        _ ≤ (2 : Rat) ^ (((f.fb + 1 : Nat) : Int) + gridExp f m e) :=
            zpow_le_zpow_right₀ one_le_two (by unfold gridExp; push_cast; omega)
        _ = _ := by rw [zpow_add₀ two_ne_zero, zpow_natCast]; push_cast; rfl
    exact_mod_cast (mul_lt_mul_iff_of_pos_right hq).1 hle
  · by_cases hstep : gridStep f m e = 0
    · exact .inl hstep
    right
    have hge : ((2 ^ f.fb : Nat) : Rat) * (2 : Rat) ^ gridExp f m e < ((gridPlace f m e + 1 : Nat) : Rat) * (2 : Rat) ^ gridExp f m e := by
      calc ((2 ^ f.fb : Nat) : Rat) * (2 : Rat) ^ gridExp f m e = (2 : Rat) ^ ((f.fb : Int) + gridExp f m e) := by
            rw [zpow_add₀ two_ne_zero, zpow_natCast]; push_cast; rfl
        _ ≤ (2 : Rat) ^ ((Nat.log2 m : Int) + e) :=
            zpow_le_zpow_right₀ one_le_two (by unfold gridExp; unfold gridStep at hstep; omega)
        _ ≤ m * (2 : Rat) ^ e := hlo
        _ < _ := by
            rw [hmag]; exact mul_lt_mul_of_pos_right (by push_cast; linarith) hq
    have hlt := (mul_lt_mul_iff_of_pos_right hq).1 hge
    exact Nat.lt_succ_iff.1 (by exact_mod_cast hlt)

theorem roundedPlace_bounds (f : Fmt) (rm : Nat) (neg : Bool) {m : Nat} (hm : m ≠ 0) (e : Int) :
    roundedPlace f rm neg m e ≤ 2 ^ (f.fb + 1) ∧ (gridStep f m e = 0 ∨ 2 ^ f.fb ≤ roundedPlace f rm neg m e) := by
  obtain ⟨hlt, hge⟩ := gridPlace_bounds f hm e
  unfold roundedPlace
  split <;> omega

theorem gridExp_eq (f : Fmt) (m : Nat) (e : Int) : gridExp f m e = f.emin - f.fb + gridStep f m e := by
  unfold gridExp gridStep; omega

/-- The bits of a rounded magnitude: its place, after those of the steps below. -/
def roundedPattern (f : Fmt) (rm : Nat) (neg : Bool) (m : Nat) (e : Int) : Nat :=
  gridStep f m e * 2 ^ f.fb + roundedPlace f rm neg m e

/-- The flags of a rounding whose result is finite and not flushed. -/
def roundedFlags (f : Fmt) (m : Nat) (e : Int) : Nat :=
  (if gridRest f m e ≠ 0 then fNX else 0) ||| (if gridRest f m e ≠ 0 ∧ (Nat.log2 m : Int) + e < f.emin then fUF else 0)

/-- What `roundF` gives, by the place its magnitude is rounded to. -/
theorem roundF_eq (f : Fmt) (rm : Nat) (ftzo neg : Bool) (m : Nat) (e : Int) :
    roundF f rm ftzo neg m e =
      if f.infBits ≤ roundedPattern f rm neg m e then
        (f.sign neg + (if rm = rmRNE ∨ rm = rmRNA ∨ (rm = rmRUP ∧ !neg) ∨ (rm = rmRDN ∧ neg) then f.infBits else f.infBits - 1),
          fOF ||| fNX)
      else if ftzo && roundedPattern f rm neg m e < 2 ^ f.fb && roundedPattern f rm neg m e ≠ 0 then
        (f.sign neg, roundedFlags f m e ||| fUF ||| fNX)
      else (f.sign neg + roundedPattern f rm neg m e, roundedFlags f m e) := by
  unfold roundF
  simp only [Nat.shiftLeft_eq (_ : Int).toNat f.fb]
  rfl

/-- A magnitude is on its grid just where nothing is left of it. -/
theorem roundedPlace_eq_iff (f : Fmt) (rm : Nat) (neg : Bool) (m : Nat) (e : Int) :
    (roundedPlace f rm neg m e : Rat) * (2 : Rat) ^ gridExp f m e = m * (2 : Rat) ^ e ↔ gridRest f m e = 0 := by
  have hfrac := fraction_lt_one (gridRest_lt f m e)
  rw [magnitude_on_grid f m e, mul_left_inj' (by positivity)]
  constructor
  · intro h
    by_contra h0
    have hpos := (fraction_nonneg (r := gridRest f m e) (sh := restBits f m e)).lt_of_ne' (mt fraction_eq_zero_iff.1 h0)
    unfold roundedPlace at h
    split at h
    · push_cast at h; linarith
    · linarith
  · intro h
    rw [fraction_eq_zero_iff.2 h, add_zero, roundedPlace, h]
    simp [roundUp]

/-- A rounded magnitude is below the smallest normal just where its pattern has no exponent. -/
theorem rounded_lt_normal_iff (f : Fmt) (rm : Nat) (neg : Bool) {m : Nat} (hm : m ≠ 0) (e : Int) :
    (roundedPlace f rm neg m e : Rat) * (2 : Rat) ^ gridExp f m e < (2 : Rat) ^ f.emin ↔
      roundedPattern f rm neg m e < 2 ^ f.fb := by
  unfold roundedPattern
  obtain ⟨-, hge⟩ := roundedPlace_bounds f rm neg hm e
  have hmin : (2 : Rat) ^ f.emin = (2 ^ f.fb : Nat) * (2 : Rat) ^ (f.emin - f.fb) := by
    rw [Nat.cast_pow, Nat.cast_ofNat, ← zpow_natCast, ← zpow_add₀ two_ne_zero]; congr 1; omega
  have hexp : (2 : Rat) ^ gridExp f m e = (2 ^ gridStep f m e : Nat) * (2 : Rat) ^ (f.emin - f.fb) := by
    rw [gridExp_eq, zpow_add₀ two_ne_zero, zpow_natCast]; push_cast; ring
  rw [hmin, hexp, ← mul_assoc, mul_lt_mul_iff_of_pos_right (by positivity), ← Nat.cast_mul, Nat.cast_lt]
  by_cases h0 : gridStep f m e = 0
  · simp [h0]
  · have hP := hge.resolve_left h0
    refine iff_of_false (Nat.not_lt.2 ?_) (by omega)
    exact hP.trans (Nat.le_mul_of_pos_right _ (by positivity))

theorem roundedPattern_eq_zero_iff (f : Fmt) (rm : Nat) (neg : Bool) {m : Nat} (hm : m ≠ 0) (e : Int) :
    roundedPattern f rm neg m e = 0 ↔ roundedPlace f rm neg m e = 0 := by
  obtain ⟨-, hge⟩ := roundedPlace_bounds f rm neg hm e
  have hpos : 0 < 2 ^ f.fb := by positivity
  unfold roundedPattern
  refine ⟨fun h => (Nat.add_eq_zero_iff.1 h).2, fun h => ?_⟩
  rw [h, hge.resolve_right (by omega), Nat.zero_mul]

/-- The value of a rounded pattern that is finite. -/
theorem roundedPattern_value (f : Fmt) (rm : Nat) (neg : Bool) {m : Nat} (hm : m ≠ 0) (e : Int)
    (hfin : roundedPattern f rm neg m e < f.infBits) :
    let x := f.sign neg + roundedPattern f rm neg m e
    x < 2 ^ f.width ∧ (unpackF f x).isFin = true ∧ x.testBit (f.eb + f.fb) = neg ∧
      (unpackF f x).rat = (if neg then -1 else 1) * ((roundedPlace f rm neg m e : Rat) * (2 : Rat) ^ gridExp f m e) := by
  obtain ⟨hle, hge⟩ := roundedPlace_bounds f rm neg hm e
  obtain ⟨h1, h2, h3, h4⟩ := pattern_on_grid f neg hle hge hfin
  refine ⟨h1, h2, h3, ?_⟩
  rw [gridExp_eq, ← mul_assoc, ← rat_signedM, ← h4]
  rfl

/-- The signed zero. -/
theorem sign_value {f : Fmt} (hf : 2 ≤ f.eb) (neg : Bool) :
    f.sign neg < 2 ^ f.width ∧ (unpackF f (f.sign neg)).isFin = true ∧ (f.sign neg).testBit (f.eb + f.fb) = neg ∧
      (unpackF f (f.sign neg)).rat = 0 := by
  have h4 : 2 ^ 2 ≤ 2 ^ f.eb := Nat.pow_le_pow_right (by decide) hf
  have hpos : 0 < f.infBits := by
    rw [infBits_eq]; exact Nat.mul_pos (by omega) (by positivity)
  obtain ⟨h1, h2, h3, h5⟩ := pattern_on_grid f neg (E := 0) (T := 0) (Nat.zero_le _) (.inl rfl) (by omega)
  rw [Nat.zero_mul] at h1 h2 h3 h5
  refine ⟨h1, h2, h3, h5.trans ?_⟩
  cases neg <;> simp [signedM]

/-- The value that a rounding takes. -/
theorem onGrid_value {f : Fmt} {rm m : Nat} (neg : Bool) (e : Int) (hrm : 1 ≤ rm ∧ rm ≤ 5) :
    onGrid rm ((2 : Rat) ^ gridExp f m e) (FV.fin neg m e).rat =
      (if neg then -1 else 1) * ((roundedPlace f rm neg m e : Rat) * (2 : Rat) ^ gridExp f m e) := by
  have hv : (FV.fin neg m e).rat = (if neg then -1 else 1) * ((m : Rat) * (2 : Rat) ^ e) := by
    rw [rat_fin, rat_signedM, mul_assoc]
  rw [hv, magnitude_on_grid f m e, onGrid_signed neg _ (by positivity) (gridRest_lt f m e) hrm, rat_signedM, mul_assoc]
  rfl

section Rounding

variable {f : Fmt} {rm m : Nat} (neg : Bool) (e : Int) (hm : m ≠ 0)
include hm

/-- The sign of a value, and its magnitude. -/
theorem value_sign : ((FV.fin neg m e).rat < 0 ↔ neg = true) ∧ (0 < (FV.fin neg m e).rat ↔ neg = false) ∧
    (FV.fin neg m e).rat.abs = (m : Rat) * (2 : Rat) ^ e := by
  have hmag : (0 : Rat) < m * (2 : Rat) ^ e := by positivity
  rw [ratAbs_eq, rat_fin, rat_signedM, mul_assoc]
  cases neg
  · rw [if_neg Bool.false_ne_true, one_mul, abs_of_pos hmag]
    simp [hmag, hmag.le, -mul_pos_iff_of_pos_left]
  · rw [if_pos rfl, neg_one_mul, abs_neg, abs_of_pos hmag]
    simp [hmag, hmag.le]

/-- It is exact where nothing is left of the magnitude, and zero where its pattern is. -/
theorem onGrid_value_iff (hrm : 1 ≤ rm ∧ rm ≤ 5) :
    let x := onGrid rm ((2 : Rat) ^ gridExp f m e) (FV.fin neg m e).rat
    x.abs = (roundedPlace f rm neg m e : Rat) * (2 : Rat) ^ gridExp f m e ∧
      (x = (FV.fin neg m e).rat ↔ gridRest f m e = 0) ∧ (x = 0 ↔ roundedPattern f rm neg m e = 0) := by
  intro x
  have hx : x = _ := onGrid_value (f := f) (m := m) neg e hrm
  have hq : (0 : Rat) < (2 : Rat) ^ gridExp f m e := by positivity
  have hs : (if neg = true then (-1 : Rat) else 1) ≠ 0 := by cases neg <;> simp
  refine ⟨?_, ?_, ?_⟩
  · rw [hx, ratAbs_eq, abs_mul, abs_of_nonneg (a := _ * _) (by positivity)]
    cases neg <;> simp
  · rw [← roundedPlace_eq_iff f rm neg, hx, rat_fin, rat_signedM, mul_assoc, mul_right_inj' hs]
  · rw [roundedPattern_eq_zero_iff f rm neg hm, hx, mul_eq_zero, mul_eq_zero, Nat.cast_eq_zero]
    simp [hs, hq.ne']

/-- THE ONE ROUNDING (05 R118, R120): `roundF` gives the pattern of the value that `onGrid` takes, with the flags of it. -/
theorem roundF_roundsTo (ftzo : Bool) (hf : 2 ≤ f.eb) (hrm : 1 ≤ rm ∧ rm ≤ 5) :
    RoundsTo f rm ftzo (FV.fin neg m e).rat (roundF f rm ftzo neg m e) := by
  obtain ⟨hneg, hpos, hvabs⟩ := value_sign neg e hm
  obtain ⟨hlo, hhi⟩ := magnitude_log hm e
  obtain ⟨hxabs, hexact, hx0⟩ := onGrid_value_iff (f := f) neg e hm hrm
  have hxv := onGrid_value (f := f) (m := m) neg e hrm
  have hsmall := rounded_lt_normal_iff f rm neg hm e
  obtain ⟨hle, hge⟩ := roundedPlace_bounds f rm neg hm e
  have hfinite := grid_le_maxf_iff hf hle hge
  rw [← gridExp_eq, ← hxabs] at hfinite
  rw [← hxabs] at hsmall
  have hvsmall : (FV.fin neg m e).rat.abs < (2 : Rat) ^ f.emin ↔ (Nat.log2 m : Int) + e < f.emin := by
    rw [hvabs]
    exact ⟨fun h => (zpow_lt_zpow_iff_right₀ one_lt_two).1 (hlo.trans_lt h),
      fun h => hhi.trans_le (zpow_le_zpow_right₀ one_le_two (by omega))⟩
  have hsign : decide ((FV.fin neg m e).rat < 0) = neg := by
    cases neg <;> simpa using hneg
  refine ⟨(Nat.log2 m : Int) + e, by rwa [hvabs], by rwa [hvabs], ?_⟩
  intro x away tiny
  have hx : x = onGrid rm ((2 : Rat) ^ gridExp f m e) (FV.fin neg m e).rat := rfl
  rw [← hx] at hxabs hexact hx0 hxv hsmall hfinite
  have htiny : tiny ↔ ftzo = true ∧ roundedPattern f rm neg m e < 2 ^ f.fb ∧ roundedPattern f rm neg m e ≠ 0 := by
    simp only [tiny, hsmall, ne_eq, hx0]
    exact and_congr_right fun _ => and_comm
  refine ⟨fun h => ?_, fun h => ?_⟩
  · -- past the largest finite value
    have hinf : f.infBits ≤ roundedPattern f rm neg m e := Nat.le_of_not_lt (mt hfinite.2 (not_le.2 h))
    have haway : away ↔ rm = rmRNE ∨ rm = rmRNA ∨ (rm = rmRUP ∧ (!neg) = true) ∨ (rm = rmRDN ∧ neg = true) := by
      simp only [away, hpos, hneg, Bool.not_eq_true']
    rw [roundF_eq, if_pos hinf, hsign, if_congr haway rfl rfl]
  have hfin : roundedPattern f rm neg m e < f.infBits := hfinite.1 h
  by_cases ht : tiny
  · -- flushed to a zero
    obtain ⟨h1, h2, h3, h4⟩ := sign_value hf neg
    have hr : roundF f rm ftzo neg m e = (f.sign neg, roundedFlags f m e ||| fUF ||| fNX) := by
      rw [roundF_eq, if_neg (Nat.not_le.2 hfin), if_pos (by simpa [and_assoc] using htiny.1 ht)]
    rw [hr, if_pos ht, if_pos (.inr ht), if_pos (.inr ht), hsign]
    refine ⟨h1, h2, h4, h3, ?_⟩
    unfold roundedFlags
    split <;> split <;> rfl
  · obtain ⟨h1, h2, h3, h4⟩ := roundedPattern_value f rm neg hm e hfin
    have hr : roundF f rm ftzo neg m e = (f.sign neg + roundedPattern f rm neg m e, roundedFlags f m e) := by
      rw [roundF_eq, if_neg (Nat.not_le.2 hfin), if_neg (by simpa [and_assoc] using mt htiny.2 ht)]
    rw [hr, if_neg ht, hsign]
    refine ⟨h1, h2, h4.trans hxv.symm, h3, ?_⟩
    simp only [ne_eq, hexact, hvsmall, ht, or_false, roundedFlags, and_comm]

end Rounding

end Sys2Proof.Machine
end


section
/-!
PROOFS. Exact products and sums (05 R119, R123), the sum of products rounded once, and one element of the matrix sum (05 R134).
-/

namespace Sys2Proof.Machine

open Sys2Proof

/-! ### Products -/

/-- NV where a condition holds. -/
def nvIf (c : Bool) : Nat := if c then fNV else 0

theorem nvIf_or (a b : Bool) : nvIf a ||| nvIf b = nvIf (a || b) := by
  cases a <;> cases b <;> rfl

/-- A product of zero and infinity. -/
def invalidProduct (p : FV × FV) : Bool := p.1.isInf && p.2.isZero || p.1.isZero && p.2.isInf

theorem mulFV_flags (a b : FV) : (mulFV a b).2 = nvIf (invalidProduct (a, b)) := by
  cases a with
  | nan s => rfl
  | inf n =>
    cases b with
    | nan s => rfl
    | inf n' => rfl
    | fin n' m' e' => cases m' <;> rfl
  | fin n m e =>
    cases b with
    | nan s => cases m <;> rfl
    | inf n' => cases m <;> rfl
    | fin n' m' e' => cases m <;> rfl

theorem mulFV_isNan (a b : FV) : (mulFV a b).1.isNan = (a.isNan || b.isNan || invalidProduct (a, b)) := by
  cases a with
  | nan s => rfl
  | inf n =>
    cases b with
    | nan s => rfl
    | inf n' => rfl
    | fin n' m' e' => cases m' <;> rfl
  | fin n m e =>
    cases b with
    | nan s => cases m <;> rfl
    | inf n' => cases m <;> rfl
    | fin n' m' e' => cases m <;> rfl

theorem mulFV_eq_inf_iff (n : Bool) (a b : FV) : (mulFV a b).1 = .inf n ↔ infiniteTerm n (a, b) := by
  cases a with
  | nan s => simp [mulFV, infiniteTerm, FV.isNan]
  | inf m =>
    cases b with
    | nan s => simp [mulFV, infiniteTerm, FV.isNan]
    | inf m' => simp [mulFV, infiniteTerm, FV.isNan, FV.isInf, FV.isZero, FV.neg?]
    | fin n' m' e' => cases m' <;> simp [mulFV, infiniteTerm, FV.isNan, FV.isInf, FV.isZero, FV.neg?]
  | fin n' m e =>
    cases b with
    | nan s => simp [mulFV, infiniteTerm, FV.isNan]
    | inf m' => cases m <;> simp [mulFV, infiniteTerm, FV.isNan, FV.isInf, FV.isZero, FV.neg?]
    | fin n' m' e' => simp [mulFV, infiniteTerm, FV.isInf]

theorem isFin_iff (x : FV) : x.isFin = true ↔ ∃ n m e, x = .fin n m e := by
  cases x <;> simp [FV.isFin]

theorem isZero_fin (n : Bool) (m : Nat) (e : Int) : (FV.fin n m e).isZero = true ↔ m = 0 := by
  cases m <;> simp [FV.isZero]

theorem rat_eq_zero_iff (n : Bool) (m : Nat) (e : Int) : (FV.fin n m e).rat = 0 ↔ m = 0 := by
  have h2 : (2 : Rat) ^ e ≠ 0 := by positivity
  rw [rat_fin, rat_signedM, mul_eq_zero, or_iff_left h2]
  cases n <;> simp

/-- A product of finite values is exact. -/
theorem mulFV_fin {a b : FV} (ha : a.isFin = true) (hb : b.isFin = true) :
    (mulFV a b).1.isFin = true ∧ (mulFV a b).1.rat = a.rat * b.rat ∧ (mulFV a b).1.neg? = xor a.neg? b.neg? ∧
      ((mulFV a b).1.isZero = true ↔ a.isZero = true ∨ b.isZero = true) := by
  obtain ⟨n, m, e, rfl⟩ := (isFin_iff a).1 ha
  obtain ⟨n', m', e', rfl⟩ := (isFin_iff b).1 hb
  have hmul : (mulFV (.fin n m e) (.fin n' m' e')).1 = .fin (xor n n') (m * m') (e + e') := by cases m <;> rfl
  rw [hmul]
  refine ⟨rfl, ?_, rfl, ?_⟩
  · have hsign : (if xor n n' then -1 else 1 : Rat) = (if n then -1 else 1) * (if n' then -1 else 1) := by
      cases n <;> cases n' <;> simp
    rw [rat_fin, rat_fin, rat_fin, rat_signedM, rat_signedM, rat_signedM, zpow_add₀ two_ne_zero, hsign]
    push_cast
    ring
  · rw [isZero_fin, isZero_fin, isZero_fin, mul_eq_zero]

/-! ### The exact sum -/

theorem minExp_le (l : List FV) (a : Int) :
    minExp l a ≤ a ∧ ∀ n m e, FV.fin n m e ∈ l → m ≠ 0 → minExp l a ≤ e := by
  induction l generalizing a with
  | nil => simp [minExp]
  | cons x l ih =>
    have hstep : ∀ a', minExp (x :: l) a = minExp l a' → a' ≤ a → (∀ n m e, x = .fin n m e → m ≠ 0 → a' ≤ e) →
        minExp (x :: l) a ≤ a ∧ ∀ n m e, FV.fin n m e ∈ x :: l → m ≠ 0 → minExp (x :: l) a ≤ e := by
      intro a' h ha hx
      obtain ⟨hle, hmem⟩ := ih a'
      rw [h]
      refine ⟨hle.trans ha, fun n m e he hm => ?_⟩
      rcases List.mem_cons.1 he with he | he
      · exact hle.trans (hx n m e he.symm hm)
      · exact hmem n m e he hm
    cases x with
    | nan s => exact hstep a rfl le_rfl (by simp)
    | inf n => exact hstep a rfl le_rfl (by simp)
    | fin n m e =>
      cases m with
      | zero => exact hstep a rfl le_rfl (by rintro n m e h hm; injection h with _ h2; exact absurd h2.symm hm)
      | succ m => exact hstep (min e a) rfl (min_le_right ..) (by rintro n m e h -; injection h with _ _ h3; rw [← h3]; exact min_le_left ..)

/-- The exact sum in units of a power of two that divides every term. -/
theorem sum_rat_eq {l : List FV} {e0 : Int} (hfin : ∀ x ∈ l, x.isFin = true)
    (he : ∀ n m e, FV.fin n m e ∈ l → m ≠ 0 → e0 ≤ e) : (l.map FV.rat).sum = (sumAt e0 l : Rat) * (2 : Rat) ^ e0 := by
  induction l with
  | nil => simp [sumAt]
  | cons x l ih =>
    have ih' := ih (fun y hy => hfin y (List.mem_cons_of_mem _ hy)) (fun n m e h => he n m e (List.mem_cons_of_mem _ h))
    obtain ⟨n, m, e, rfl⟩ := (isFin_iff x).1 (hfin x (List.mem_cons_self ..))
    rw [List.map_cons, List.sum_cons, ih', sumAt, Int.cast_add, add_mul]
    congr 1
    rw [rat_fin, rat_signedM, rat_signedM, Nat.shiftLeft_eq]
    by_cases hm : m = 0
    · simp [hm]
    · have hexp : e = ((e - e0).toNat : Int) + e0 := by
        have := he n m e (List.mem_cons_self ..) hm
        omega
      conv_lhs => rw [hexp, zpow_add₀ two_ne_zero, zpow_natCast]
      push_cast
      ring

/-- The infinities among some terms. -/
theorem any_inf (l : List FV) (n : Bool) :
    l.any (fun t => t.isInf && (t.neg? == n)) = decide (FV.inf n ∈ l) := by
  rw [Bool.eq_iff_iff, List.any_eq_true, decide_eq_true_iff]
  constructor
  · rintro ⟨x, hx, h⟩
    cases x <;> simp_all [FV.isInf, FV.neg?]
  · exact fun h => ⟨_, h, by simp [FV.isInf, FV.neg?]⟩

/-- What a sum is, by the infinities and NaNs among its terms. -/
theorem sumFV_eq (rm : Nat) (l : List FV) :
    sumFV rm l =
      if FV.inf false ∈ l ∧ FV.inf true ∈ l then (.nan false, fNV)
      else if l.any FV.isNan then (.nan false, 0)
      else if FV.inf false ∈ l then (.inf false, 0)
      else if FV.inf true ∈ l then (.inf true, 0)
      else if sumAt (minExp l 1024) l = 0 then
        (.fin (if l.all FV.isZero then l.all FV.neg? else decide (rm = rmRDN)) 0 0, 0)
      else (.fin (decide (sumAt (minExp l 1024) l < 0)) (sumAt (minExp l 1024) l).natAbs (minExp l 1024), 0) := by
  have hpos : l.any (fun t => t.isInf && !t.neg?) = decide (FV.inf false ∈ l) := by simpa using any_inf l false
  have hneg : l.any (fun t => t.isInf && t.neg?) = decide (FV.inf true ∈ l) := by simpa using any_inf l true
  unfold sumFV
  simp only [hpos, hneg, Bool.and_eq_true, decide_eq_true_iff]

/-- A sum of finite terms is exact. -/
theorem sumFV_fin (rm : Nat) {l : List FV} (hfin : ∀ x ∈ l, x.isFin = true) :
    ∃ n m e, sumFV rm l = (.fin n m e, 0) ∧ (FV.fin n m e).rat = (l.map FV.rat).sum ∧
      ((l.map FV.rat).sum = 0 → n = if l.all FV.isZero then l.all FV.neg? else decide (rm = rmRDN)) := by
  have hinf : ∀ n, FV.inf n ∉ l := fun n h => absurd (hfin _ h) (by simp [FV.isFin])
  have hnan : l.any FV.isNan = false := by
    rw [List.any_eq_false]
    intro x hx h
    have := hfin x hx
    cases x <;> simp_all [FV.isFin, FV.isNan]
  have hsum := sum_rat_eq hfin (minExp_le l 1024).2
  rw [sumFV_eq, if_neg (fun h => hinf _ h.1), if_neg (by simp [hnan]), if_neg (hinf _), if_neg (hinf _), hsum]
  split
  · next h => exact ⟨_, 0, 0, rfl, by rw [h]; simp [rat_fin, rat_signedM], fun _ => rfl⟩
  · next h =>
    refine ⟨_, _, _, rfl, ?_, fun h0 => ?_⟩
    · rw [rat_fin]
      congr 2
      unfold signedM
      split
      · next hs => rw [decide_eq_true_iff] at hs; omega
      · next hs => rw [decide_eq_true_iff] at hs; omega
    · rw [mul_eq_zero, Int.cast_eq_zero] at h0
      exact absurd (h0.resolve_right (by positivity)) h

/-! ### Sums of products -/

/-- The terms of a sum of products: the products, then the single terms. -/
def productTerms (ps : List (FV × FV)) (ts : List FV) : List FV := (ps.map fun p => (mulFV p.1 p.2).1) ++ ts

/-- The operands of a sum of products. -/
def productOperands (ps : List (FV × FV)) (ts : List FV) : List FV := ps.map Prod.fst ++ ps.map Prod.snd ++ ts

/-- The flags of the operands and of the products. -/
theorem foldl_flags (ps : List (FV × FV)) (c : Bool) :
    (ps.map fun p => mulFV p.1 p.2).foldl (fun a p => a ||| p.2) (nvIf c) = nvIf (c || ps.any invalidProduct) := by
  induction ps generalizing c with
  | nil => simp
  | cons p ps ih => rw [List.map_cons, List.foldl_cons, mulFV_flags, nvIf_or, ih, List.any_cons, Bool.or_assoc]

theorem sumOfProducts_eq (f : Fmt) (rm : Nat) (z : Bool) (ps : List (FV × FV)) (ts : List FV) :
    sumOfProducts f rm z ps ts =
      orFlags (nvIf ((productOperands ps ts).any FV.signaling || ps.any invalidProduct) ||| (sumFV rm (productTerms ps ts)).2)
        (finishF f rm z (sumFV rm (productTerms ps ts)).1) := by
  have hmap : (ps.map fun p => mulFV p.1 p.2).map Prod.fst = ps.map fun p => (mulFV p.1 p.2).1 := by
    rw [List.map_map]; rfl
  have hfl := foldl_flags ps ((productOperands ps ts).any FV.signaling)
  rw [← hfl, productTerms, ← hmap]
  rfl

theorem mem_productTerms {ps : List (FV × FV)} {ts : List FV} {x : FV} :
    x ∈ productTerms ps ts ↔ (∃ p ∈ ps, (mulFV p.1 p.2).1 = x) ∨ x ∈ ts := by
  simp [productTerms]

theorem mem_productOperands {ps : List (FV × FV)} {ts : List FV} {x : FV} :
    x ∈ productOperands ps ts ↔ (∃ p ∈ ps, p.1 = x) ∨ (∃ p ∈ ps, p.2 = x) ∨ x ∈ ts := by
  simp [productOperands]

/-- An infinity among the terms. -/
theorem inf_mem_productTerms {ps : List (FV × FV)} {ts : List FV} {n : Bool} :
    FV.inf n ∈ productTerms ps ts ↔ (∃ p ∈ ps, infiniteTerm n p) ∨ FV.inf n ∈ ts := by
  simp only [mem_productTerms, mulFV_eq_inf_iff]

/-- A NaN among the terms: one among the operands, or an invalid product. -/
theorem any_isNan_productTerms (ps : List (FV × FV)) (ts : List FV) :
    (productTerms ps ts).any FV.isNan = ((productOperands ps ts).any FV.isNan || ps.any invalidProduct) := by
  rw [Bool.eq_iff_iff, Bool.or_eq_true, List.any_eq_true, List.any_eq_true, List.any_eq_true]
  simp only [mem_productTerms, mem_productOperands]
  constructor
  · rintro ⟨_, ⟨p, hp, rfl⟩ | hx, hn⟩
    · rw [mulFV_isNan, Bool.or_eq_true, Bool.or_eq_true] at hn
      rcases hn with (hn | hn) | hn
      · exact .inl ⟨_, .inl ⟨p, hp, rfl⟩, hn⟩
      · exact .inl ⟨_, .inr (.inl ⟨p, hp, rfl⟩), hn⟩
      · exact .inr ⟨p, hp, hn⟩
    · exact .inl ⟨_, .inr (.inr hx), hn⟩
  · rintro (⟨_, ⟨p, hp, rfl⟩ | ⟨p, hp, rfl⟩ | hx, hn⟩ | ⟨p, hp, hn⟩)
    · exact ⟨_, .inl ⟨p, hp, rfl⟩, by simp [mulFV_isNan, hn]⟩
    · exact ⟨_, .inl ⟨p, hp, rfl⟩, by simp [mulFV_isNan, hn]⟩
    · exact ⟨_, .inr hx, hn⟩
    · exact ⟨_, .inl ⟨p, hp, rfl⟩, by simp [mulFV_isNan, hn]⟩

theorem isNan_of_signaling {x : FV} (h : x.signaling = true) : x.isNan = true := by
  cases x <;> simp_all [FV.signaling, FV.isNan]

/-- A sum with a NaN or with infinities of both signs among its terms is a NaN; the second is invalid. -/
theorem sumFV_nan {rm : Nat} {l : List FV} (h : (FV.inf false ∈ l ∧ FV.inf true ∈ l) ∨ l.any FV.isNan = true) :
    sumFV rm l = (.nan false, nvIf (decide (FV.inf false ∈ l ∧ FV.inf true ∈ l))) := by
  rw [sumFV_eq]
  by_cases hb : FV.inf false ∈ l ∧ FV.inf true ∈ l
  · rw [if_pos hb, decide_eq_true hb]; rfl
  · rw [if_neg hb, if_pos (h.resolve_left hb), decide_eq_false hb]; rfl

/-- A sum with infinities of one sign and without NaN is that infinity. -/
theorem sumFV_inf {rm : Nat} {l : List FV} {n : Bool} (hnan : l.any FV.isNan = false) (hn : FV.inf n ∈ l)
    (hother : FV.inf (!n) ∉ l) : sumFV rm l = (.inf n, 0) := by
  rw [sumFV_eq, hnan]
  cases n
  · rw [if_neg (fun h => hother h.2), if_neg (by decide), if_pos hn]
  · rw [if_neg (fun h => hother h.1), if_neg (by decide), if_neg (Bool.not_true ▸ hother), if_pos hn]

/-- Finite operands give finite terms, whose exact sum is that of the products and the single terms. -/
theorem productTerms_fin {ps : List (FV × FV)} {ts : List FV} (hfin : ∀ x ∈ productOperands ps ts, x.isFin = true) :
    (∀ x ∈ productTerms ps ts, x.isFin = true) ∧ ps.any invalidProduct = false ∧
    (productOperands ps ts).any FV.signaling = false ∧
    ((productTerms ps ts).map FV.rat).sum = (ps.map fun p => p.1.rat * p.2.rat).sum + (ts.map FV.rat).sum ∧
    ((productTerms ps ts).all FV.isZero = true ↔ (∀ p ∈ ps, p.1.isZero = true ∨ p.2.isZero = true) ∧ ∀ t ∈ ts, t.isZero = true) ∧
    ((productTerms ps ts).all FV.neg? = true ↔ (∀ p ∈ ps, xor p.1.neg? p.2.neg? = true) ∧ ∀ t ∈ ts, t.neg? = true) := by
  have hp : ∀ p ∈ ps, p.1.isFin = true ∧ p.2.isFin = true := fun p hp =>
    ⟨hfin _ (mem_productOperands.2 (.inl ⟨p, hp, rfl⟩)), hfin _ (mem_productOperands.2 (.inr (.inl ⟨p, hp, rfl⟩)))⟩
  have ht : ∀ t ∈ ts, t.isFin = true := fun t h => hfin _ (mem_productOperands.2 (.inr (.inr h)))
  have hmul := fun p (h : p ∈ ps) => mulFV_fin (hp p h).1 (hp p h).2
  refine ⟨fun x hx => ?_, ?_, ?_, ?_, ?_, ?_⟩
  · rcases mem_productTerms.1 hx with ⟨p, h, rfl⟩ | h
    · exact (hmul p h).1
    · exact ht x h
  · rw [List.any_eq_false]
    intro p h hbad
    obtain ⟨ha, hb⟩ := hp p h
    obtain ⟨_, _, _, ha⟩ := (isFin_iff _).1 ha
    obtain ⟨_, _, _, hb⟩ := (isFin_iff _).1 hb
    simp [invalidProduct, ha, hb, FV.isInf] at hbad
  · rw [List.any_eq_false]
    intro x h hs
    obtain ⟨_, _, _, rfl⟩ := (isFin_iff x).1 (hfin x h)
    exact absurd hs (by simp [FV.signaling])
  · rw [productTerms, List.map_append, List.sum_append, List.map_map]
    congr 2
    exact List.map_congr_left fun p h => (hmul p h).2.1
  · simp only [productTerms, List.all_append, Bool.and_eq_true, List.all_map, List.all_eq_true, Function.comp]
    exact and_congr_left fun _ => forall₂_congr fun p h => (hmul p h).2.2.2
  · simp only [productTerms, List.all_append, Bool.and_eq_true, List.all_map, List.all_eq_true, Function.comp]
    exact and_congr_left fun _ => forall₂_congr fun p h => by rw [(hmul p h).2.2.1]

theorem orFlags_zero (r : Nat × Nat) : orFlags 0 r = r := by simp [orFlags]

/-- Flags beside a result that sets none. -/
theorem orFlags_quiet (fl x : Nat) : orFlags fl (x, 0) = (x, fl) := by simp [orFlags]

theorem nvIf_false : nvIf false ||| 0 = 0 := rfl

/-- THE ROUNDED SUM OF PRODUCTS (05 R118, R119, R134): formed exactly and rounded once. -/
theorem sumOfProducts_sumRounds {f : Fmt} {rm : Nat} (z : Bool) (ps : List (FV × FV)) (ts : List FV) (hf : 2 ≤ f.eb)
    (hrm : 1 ≤ rm ∧ rm ≤ 5) : SumRounds f rm z ps ts (sumOfProducts f rm z ps ts) := by
  have hbadProduct : (∃ p ∈ ps, (p.1.isInf = true ∧ p.2.isZero = true) ∨ (p.1.isZero = true ∧ p.2.isInf = true)) ↔
      ps.any invalidProduct = true := by
    simp [invalidProduct]
  rw [sumOfProducts_eq]
  unfold SumRounds
  intro S all isInf bad zeros negative
  have hinf : ∀ n, isInf n ↔ FV.inf n ∈ productTerms ps ts := fun n => inf_mem_productTerms.symm
  have hbad : bad ↔ ps.any invalidProduct = true ∨ (FV.inf false ∈ productTerms ps ts ∧ FV.inf true ∈ productTerms ps ts) := by
    rw [← hinf, ← hinf, and_comm, ← hbadProduct]
  have hall : all = productOperands ps ts := rfl
  rw [hall]
  refine ⟨fun hfin => ?_, fun h => ?_, fun hb hnan hsig => ?_, fun n hb hnan hn => ?_⟩
  · -- finite operands
    obtain ⟨hterms, hinv, hsig, hsum, hzeros, hneg⟩ := productTerms_fin hfin
    obtain ⟨n, m, e, hv, hrat, hsign⟩ := sumFV_fin rm hterms
    rw [hsum] at hrat hsign
    rw [hv, hinv, hsig]
    refine ⟨fun hS => ?_, fun hS => ?_⟩
    · have hm : m ≠ 0 := fun h => hS (hrat.symm.trans ((rat_eq_zero_iff n m e).2 h))
      have hround := roundF_roundsTo (f := f) (rm := rm) n e hm z hf hrm
      obtain ⟨k, rfl⟩ := Nat.exists_eq_succ_of_ne_zero hm
      rw [hrat] at hround
      rw [Bool.or_false, nvIf_false, orFlags_zero]
      exact hround
    · obtain rfl : m = 0 := (rat_eq_zero_iff n m e).1 (hrat.trans hS)
      have hn := hsign hS
      have hneg' : ((zeros ∧ negative) ∨ (¬zeros ∧ rm = rmRDN)) ↔ n = true := by
        rw [hn]
        by_cases hz : (productTerms ps ts).all FV.isZero = true
        · rw [if_pos hz, hneg]
          have hz' : zeros := hzeros.1 hz
          simp [hz', negative]
        · rw [if_neg hz, decide_eq_true_iff]
          have hz' : ¬zeros := mt hzeros.2 hz
          simp [hz']
      refine ⟨fun h => ?_, fun h => ?_⟩
      · rw [hneg'.1 h, Bool.or_false, nvIf_false]
        exact orFlags_quiet _ _
      · rw [Bool.eq_false_iff.2 (mt hneg'.2 h), Bool.or_false, nvIf_false]
        exact orFlags_quiet _ _
  · -- an invalid sum
    have hnan : (FV.inf false ∈ productTerms ps ts ∧ FV.inf true ∈ productTerms ps ts) ∨ (productTerms ps ts).any FV.isNan = true := by
      rw [any_isNan_productTerms, Bool.or_eq_true]
      rcases h with h | ⟨x, hx, hs⟩
      · rcases hbad.1 h with h | h
        · exact .inr (.inr h)
        · exact .inl h
      · exact .inr (.inl (List.any_eq_true.2 ⟨x, hx, isNan_of_signaling hs⟩))
    have hflag : (((productOperands ps ts).any FV.signaling || ps.any invalidProduct) ||
        decide (FV.inf false ∈ productTerms ps ts ∧ FV.inf true ∈ productTerms ps ts)) = true := by
      rw [Bool.or_eq_true, Bool.or_eq_true, decide_eq_true_iff]
      rcases h with h | ⟨x, hx, hs⟩
      · exact (hbad.1 h).elim (fun h => .inl (.inr h)) .inr
      · exact .inl (.inl (List.any_eq_true.2 ⟨x, hx, hs⟩))
    rw [sumFV_nan hnan, nvIf_or, hflag]
    exact orFlags_quiet _ _
  · -- a quiet NaN
    rw [hbad, not_or] at hb
    obtain ⟨hinv, hboth⟩ := hb
    have hsig' : (productOperands ps ts).any FV.signaling = false := by
      rw [List.any_eq_false]
      exact fun x hx h => absurd h (by rw [hsig x hx]; decide)
    have hn : (productTerms ps ts).any FV.isNan = true := by
      rw [any_isNan_productTerms, List.any_eq_true.2 hnan, Bool.true_or]
    rw [sumFV_nan (.inr hn), decide_eq_false hboth, hsig', Bool.eq_false_iff.2 hinv]
    exact orFlags_quiet _ _
  · -- an infinity
    rw [hbad, not_or] at hb
    obtain ⟨hinv, hboth⟩ := hb
    have hany : (productOperands ps ts).any FV.isNan = false := by
      rw [List.any_eq_false]
      exact fun x hx h => absurd h (by rw [hnan x hx]; decide)
    have hsig : (productOperands ps ts).any FV.signaling = false := by
      rw [List.any_eq_false]
      exact fun x hx h => absurd (isNan_of_signaling h) (by rw [hnan x hx]; decide)
    have hother : FV.inf (!n) ∉ productTerms ps ts := by
      intro h
      cases n
      · exact hboth ⟨(hinf _).1 hn, h⟩
      · exact hboth ⟨h, (hinf _).1 hn⟩
    rw [sumFV_inf (by rw [any_isNan_productTerms, hany, Bool.eq_false_iff.2 hinv]; rfl) ((hinf n).1 hn) hother, hsig,
      Bool.eq_false_iff.2 hinv, Bool.or_false, nvIf_false]
    exact orFlags_quiet _ _

/-! ### One element of the matrix sum (05 R134) -/

theorem prepare_plain (f : Fmt) (ftzi : Bool) (x : Nat) : prepare f ftzi false false x = unpackF f (flushIn f ftzi x) := rfl

theorem mmaSum_sumRounds {at_ : Bool} {bt rm : Nat} (zi zo : Bool) (c : Option Nat) (row col : List Nat) (hrm : 1 ≤ rm ∧ rm ≤ 5) :
    SumRounds f32 rm zo
      ((row.zip col).flatMap fun p => mmaTerms bt zi (prepare (if at_ then f16 else bf16) zi false false p.1) p.2)
      (c.toList.map fun x => prepare f32 zi false false x) (mmaSum at_ bt rm zi zo c row col) := by
  cases c <;> exact sumOfProducts_sumRounds zo _ _ (by decide) hrm

theorem mmaTerms_float {bt : Nat} (h : bt ≠ 2) (zi : Bool) (a : FV) (w : Nat) :
    mmaTerms bt zi a w = [(a, prepare (if bt = 1 then f16 else bf16) zi false false w)] := if_neg h

/-- A power of two in units of 2⁻⁷. -/
theorem rat_ds8Power (s : Bool) {k : Nat} (hk : k ≤ 7) :
    (FV.fin (decide (signedM s (2 ^ (7 - k)) < 0)) (signedM s (2 ^ (7 - k))).natAbs (-7)).rat =
      (if s then -1 else 1) * (2 : Rat) ^ (-(k : Int)) := by
  have hneg : decide (signedM s (2 ^ (7 - k)) < 0) = s := by
    cases s <;> simp [signedM]
  have hmag : (signedM s (2 ^ (7 - k))).natAbs = 2 ^ (7 - k) := by
    cases s <;> simp [signedM, Int.natAbs_pow]
  have hexp : (-(k : Int)) = ((7 - k : Nat) : Int) + (-7) := by omega
  rw [hneg, hmag, rat_fin, rat_signedM, hexp, zpow_add₀ two_ne_zero, zpow_natCast, mul_assoc]
  push_cast
  rfl

/-- A DS8 element is two exact terms. -/
theorem mmaTerms_ds8 (zi : Bool) (a : FV) (w : Nat) :
    ∃ x y, mmaTerms 2 zi a w = [(a, x), (a, y)] ∧ x.isFin = true ∧ y.isFin = true ∧
      x.rat = (if w.testBit 7 then -1 else 1) * (2 : Rat) ^ (-((w / 16 % 8 : Nat) : Int)) ∧
      y.rat = if w % 8 = 7 then 0 else (if w.testBit 3 then -1 else 1) * (2 : Rat) ^ (-((w % 8 : Nat) : Int)) := by
  refine ⟨_, _, rfl, rfl, rfl, ?_, ?_⟩
  · have hbits : bitsOf w 6 4 = w / 16 % 8 := congrArg (· % 8) (Nat.shiftRight_eq_div_pow w 4)
    simp only [ds8Terms, hbits]
    exact rat_ds8Power _ (by omega)
  · simp only [ds8Terms]
    split
    · simp [rat_fin, signedM]
    · exact rat_ds8Power _ (by omega)

end Sys2Proof.Machine
end


section
/-!
PROOFS. The tiles and convergence registers of one block: what a change of one does to the block, and the frame of a step that changes
one block and leaves its scratch alone.
-/

namespace Sys2Proof.Machine

open Sys2Proof

/-! ### Memory -/

theorem MemorySame.trans {s m r : State} (h : MemorySame s m) (h' : MemorySame m r) : MemorySame s r :=
  ⟨fun k => (h'.newest k).trans (h.newest k), fun k => (h'.system k).trans (h.system k), fun a => (h'.device a).trans (h.device a),
    fun b a => (h'.scratch b a).trans (h.scratch b a)⟩

theorem modCore_memory (core : Nat) (f : Core → Core) (s : State) : MemorySame s (modCore core f s) :=
  ⟨newestByte_congr rfl rfl, sysByte_congr rfl rfl rfl, fun _ => rfl, fun _ _ => rfl⟩

/-! ### A step that changes one block -/

/-- Nothing of the machine has changed but block `b`, and of it neither its scratch nor its launch. -/
structure OneBlock (b : Nat) (s m : State) : Prop where
  rest : m = { s with blocks := m.blocks }
  others : ∀ c, c ≠ b → m.block c = s.block c
  scratch : (m.block b).scratch = (s.block b).scratch
  launch : (m.block b).launch = (s.block b).launch

namespace OneBlock

theorem refl (b : Nat) (s : State) : OneBlock b s s := ⟨rfl, fun _ _ => rfl, rfl, rfl⟩

theorem modBlock {b : Nat} {s m : State} (h : OneBlock b s m) {f : Block → Block}
    (hf : ∀ x, (f x).scratch = x.scratch ∧ (f x).launch = x.launch) : OneBlock b s (modBlock b f m) := by
  obtain ⟨hr, ho, hs, hl⟩ := h
  have hself := modAt_getD_or f default b b m.blocks
  refine ⟨?_, fun c hc => (block_modBlock_ne b c f m hc).trans (ho c hc), ?_, ?_⟩
  · rw [hr]; rfl
  · rcases hself with h | h
    · exact (congrArg Block.scratch h).trans hs
    · exact (congrArg Block.scratch h).trans ((hf _).1.trans hs)
  · rcases hself with h | h
    · exact (congrArg Block.launch h).trans hl
    · exact (congrArg Block.launch h).trans ((hf _).2.trans hl)

theorem modThread {b : Nat} {s m : State} (h : OneBlock b s m) (t : Nat) (f : Thread → Thread) : OneBlock b s (modThread b t f m) :=
  h.modBlock fun _ => ⟨rfl, rfl⟩

theorem modTile {b : Nat} {s m : State} (h : OneBlock b s m) (t : Nat) (f : Tile → Tile) : OneBlock b s (modTile b t f m) :=
  h.modBlock fun _ => ⟨rfl, rfl⟩

theorem modCv {b : Nat} {s m : State} (h : OneBlock b s m) (c : Nat) (f : Cv → Cv) : OneBlock b s (modCv b c f m) :=
  h.modBlock fun _ => ⟨rfl, rfl⟩

theorem foldl {α : Type} {b : Nat} {s m : State} (h : OneBlock b s m) {go : State → α → State}
    (hgo : ∀ m x, OneBlock b s m → OneBlock b s (go m x)) (l : List α) : OneBlock b s (l.foldl go m) :=
  foldl_keeps (OneBlock b s) go hgo l m h

theorem memory {b : Nat} {s m : State} (h : OneBlock b s m) : MemorySame s m := by
  obtain ⟨hr, ho, hs, -⟩ := h
  refine ⟨newestByte_congr (by rw [hr]) (by rw [hr]), sysByte_congr (by rw [hr]) (by rw [hr]) (by rw [hr]), fun a => by rw [hr],
    fun c a => ?_⟩
  by_cases hc : c = b
  · rw [hc, hs]
  · rw [ho c hc]

end OneBlock

/-! ### Tiles -/

@[simp] theorem tileOf_modThread (b t : Nat) (f : Thread → Thread) (s : State) (c x : Nat) :
    tileOf (modThread b t f s) c x = tileOf s c x := by
  rw [tileOf, block_modThread]
  split <;> rfl

theorem block_modTile (b t : Nat) (f : Tile → Tile) (s : State) (c : Nat) :
    (modTile b t f s).block c = if c = b then { s.block c with tiles := modAt f t (s.block c).tiles } else s.block c :=
  modAt_getD_fixed (by cases t <;> rfl) b c s.blocks

@[simp] theorem thread_modTile (b t : Nat) (f : Tile → Tile) (s : State) (c u : Nat) :
    (modTile b t f s).thread c u = s.thread c u := by
  rw [State.thread, block_modTile]
  split <;> rfl

theorem tileOf_modTile_ne {b t x : Nat} {f : Tile → Tile} {s : State} (h : x ≠ t) : tileOf (modTile b t f s) b x = tileOf s b x := by
  rw [tileOf, block_modTile, if_pos rfl]
  exact modAt_getD_ne f default t x _ h

theorem tileOf_modTile_self {b t : Nat} {f : Tile → Tile} {s : State} (h : t < (s.block b).tiles.length) :
    tileOf (modTile b t f s) b t = f (tileOf s b t) := by
  rw [tileOf, block_modTile, if_pos rfl]
  exact modAt_getD_self f default t _ h

/-- A run of changes of threads changes no tile. -/
theorem tileOf_foldl_modThread {α : Type} (b : Nat) (tid : α → Nat) (f : α → Thread → Thread) (l : List α) (s : State) (c x : Nat) :
    tileOf (l.foldl (fun m a => modThread b (tid a) (f a) m) s) c x = tileOf s c x :=
  foldl_same (fun m => tileOf m c x) _ (fun m a => tileOf_modThread b (tid a) (f a) m c x) l s

/-! ### Changes of threads that can be done twice -/

/-- A change that does nothing the second time, made to some threads, of which some may be named more than once. -/
theorem thread_foldl_modThread_twice {b : Nat} {f : Thread → Thread} (hf : ∀ th, f (f th) = f th) (u : Nat) (l : List Nat) (s : State)
    (h : ∀ t ∈ l, t < (s.block b).threads.length ∨ f default = default) :
    (l.foldl (fun m t => modThread b t f m) s).thread b u = if u ∈ l then f (s.thread b u) else s.thread b u := by
  induction l generalizing s with
  | nil => rfl
  | cons t r ih =>
    rw [List.foldl_cons, ih _ fun x hx => by simpa using h x (List.mem_cons_of_mem _ hx)]
    by_cases hut : u = t
    · subst hut
      rw [thread_modThread_self (h u (List.mem_cons_self ..)), if_pos (List.mem_cons_self ..), hf]
      split <;> rfl
    · rw [thread_modThread_ne _ _ _ _ _ hut]
      simp [hut]

end Sys2Proof.Machine
end


section
/-!
PROOFS. Instances of the matrix engine: the capture of the first that waits for it, the completion of the first in the queue, and the
cells that each writes.
-/

namespace Sys2Proof.Machine

open Sys2Proof

/-! ### Capture (06 R145-R147) -/

theorem mem_of_capturable {s : State} {core : Nat} {i : MInst} (h : capturable s core = some i) : i ∈ (s.core core).mq := by
  unfold capturable at h
  dsimp only at h
  split at h
  · cases h
  · next hfind =>
    split at h
    · obtain rfl := Option.some.inj h
      exact List.mem_of_find?_eq_some hfind
    · cases h

/-- An `MInst` with its operands captured. -/
def captured (core : Nat) (i : MInst) (s : State) : MInst :=
  { i with
      cap := some (i.sigs.map (fun x => (x.rank, rowOf s i.block (cvOf s i.block i.cv) x)),
        memRead (s.block i.block).scratch (i.sigs.headD default).vb (bBytes (i.sigs.headD default).bt))
      capAt := s.coreCycle core }

/-- The queue of a core as a capture leaves it. -/
def captureQueue (core : Nat) (i : MInst) (s : State) (k : Core) : Core :=
  { k with
      mq := k.mq.map fun j =>
        if j.id = i.id && j.block = i.block && j.cv = i.cv then
          { j with cap := (captured core i s).cap, capAt := (captured core i s).capAt }
        else j }

/-- Beside the queue, a capture changes the block of its signers alone. -/
theorem captureInst_oneBlock (core : Nat) (i : MInst) (s : State) :
    OneBlock i.block (modCore core (captureQueue core i s) s) (captureInst core i s) := by
  unfold captureInst
  dsimp only
  refine OneBlock.modCv (OneBlock.foldl (OneBlock.refl _ _) (fun m x hm => OneBlock.foldl (hm.modThread _ _) ?_ _) _) _ _
  exact fun m g hm => hm.modThread _ _

theorem core_captureInst {core : Nat} {i : MInst} {s : State} (hc : core < s.cores.length) :
    (captureInst core i s).core core = captureQueue core i s (s.core core) := by
  have hr := (captureInst_oneBlock core i s).rest
  have hcores : (captureInst core i s).cores = modAt (captureQueue core i s) core s.cores := by rw [hr]; rfl
  rw [State.core, hcores]
  exact modAt_getD_self _ default core s.cores hc

theorem captured_mem {core : Nat} {i : MInst} {s : State} (hc : core < s.cores.length) (hi : i ∈ (s.core core).mq) :
    captured core i s ∈ ((captureInst core i s).core core).mq := by
  rw [core_captureInst hc]
  exact List.mem_map.2 ⟨i, hi, by simp [captured]⟩

/-! ### The end of the cycle of a capture (06 R154) -/

/-- A signer whose hold for a capture is gone. -/
def releaseHold (key : Nat) (th : Thread) : Thread := { th with aBusy := th.aBusy.filter fun a => a.inst != key }

theorem freeSigners_eq (i : MInst) (s : State) :
    freeSigners i s = (i.sigs.map Sig.tid).foldl (fun m t => modThread i.block t (releaseHold (instKey i.cv i.id)) m) s := by
  rw [List.foldl_map]
  rfl

theorem thread_modThread_or (b t : Nat) (f : Thread → Thread) (s : State) (c u : Nat) :
    (modThread b t f s).thread c u = s.thread c u ∨ (modThread b t f s).thread c u = f (s.thread c u) := by
  rw [State.thread, block_modThread]
  split
  · exact modAt_getD_or f default t u _
  · exact .inl rfl

/-- Freeing signers adds no hold. -/
theorem aBusy_freeSigners_subset (i : MInst) (s : State) (b u : Nat) :
    ((freeSigners i s).thread b u).aBusy ⊆ (s.thread b u).aBusy := by
  refine foldl_keeps (fun m => (m.thread b u).aBusy ⊆ (s.thread b u).aBusy) _ (fun m x hm => ?_) i.sigs s (List.Subset.refl _)
  rcases thread_modThread_or i.block x.tid (releaseHold (instKey i.cv i.id)) m b u with h | h
  · exact (congrArg Thread.aBusy h) ▸ hm
  · exact (congrArg Thread.aBusy h) ▸ fun a ha => hm (List.mem_of_mem_filter ha)

theorem aBusy_freeSigners {i : MInst} {x : Sig} (hx : x ∈ i.sigs) (s : State) :
    ∀ a ∈ ((freeSigners i s).thread i.block x.tid).aBusy, a.inst ≠ instKey i.cv i.id := by
  intro a ha
  rw [freeSigners_eq, thread_foldl_modThread_twice (fun th => ?_) _ _ _ fun _ _ => .inr rfl,
    if_pos (List.mem_map.2 ⟨x, hx, rfl⟩)] at ha
  · simpa using (List.mem_filter.1 ha).2
  · simp [releaseHold]

/-- The end of a cycle frees the signers of all instances that were captured in it. -/
theorem aBusy_settleCaptures {core : Nat} {j : MInst} {x : Sig} {s : State} (hj : j ∈ (s.core core).mq) (hcap : j.cap.isSome = true)
    (hat : j.capAt = s.coreCycle core) (hx : x ∈ j.sigs) :
    ∀ a ∈ ((settleCaptures core s).thread j.block x.tid).aBusy, a.inst ≠ instKey j.cv j.id := by
  have hmem : j ∈ (s.core core).mq.filter fun i => i.cap.isSome && decide (i.capAt = s.coreCycle core) :=
    List.mem_filter.2 ⟨hj, by simp [hcap, hat]⟩
  obtain ⟨before, after, hsplit⟩ := List.append_of_mem hmem
  unfold settleCaptures
  rw [hsplit, List.foldl_append, List.foldl_cons]
  refine foldl_keeps (fun m : State => ∀ a ∈ (m.thread j.block x.tid).aBusy, a.inst ≠ instKey j.cv j.id) _ (fun m i hm a ha => ?_) after _
    (aBusy_freeSigners hx _)
  exact hm a (aBusy_freeSigners_subset i m j.block x.tid ha)

/-- MMA_CAPTURE, where the operands of one may be taken. -/
theorem mmaCapture_captures {core : Nat} {i : MInst} {s : State} (hc : core < s.cores.length) (h : capturable s core = some i) :
    ∃ r, exec (.mmaCapture core) s = .next r ∧ r.now = s.now + 1 ∧ captured core i s ∈ (r.core core).mq ∧
      (∀ key, newestByte r key = newestByte s key) ∧
      (∀ c a, memGet (r.block c).scratch a = memGet (s.block c).scratch a) ∧
      (∀ x ∈ i.sigs, ∀ a ∈ ((settleCaptures core r).thread i.block x.tid).aBusy, a.inst ≠ instKey i.cv i.id) ∧
      (∀ c, c ≠ i.block → r.block c = s.block c) := by
  have hone := captureInst_oneBlock core i s
  have hmem := (modCore_memory core (captureQueue core i s) s).trans hone.memory
  have hin := captured_mem hc (mem_of_capturable h)
  have hr := hone.rest
  have hexec : exec (.mmaCapture core) s = .next (captureInst core i s).tickNow := by
    show execMmaCapture core s = _
    unfold execMmaCapture
    rw [h]
  refine ⟨_, hexec, ?_, hin, fun key => (newestByte_congr rfl rfl key).trans (hmem.newest key), hmem.scratch,
    fun x hx => ?_, hone.others⟩
  · rw [tickNow_now, hr]; rfl
  · refine aBusy_settleCaptures (s := (captureInst core i s).tickNow) (j := captured core i s) hin rfl ?_ hx
    rw [State.coreCycle, tickNow_die_get, hr]
    rfl

/-! ### Completion (06 R136, R146) -/

/-- A signer, after the completion. -/
def finishSigner (i : MInst) (flags : Nat) (th : Thread) : Thread :=
  { th with flags := mergeFlags th.flags (BitVec.ofNat 5 flags), signed := th.signed.filter (· != (i.cv, i.id)) }

theorem finishSigner_twice (i : MInst) (flags : Nat) (th : Thread) :
    finishSigner i flags (finishSigner i flags th) = finishSigner i flags th := by
  have hflags : mergeFlags (mergeFlags th.flags (BitVec.ofNat 5 flags)) (BitVec.ofNat 5 flags) =
      mergeFlags th.flags (BitVec.ofNat 5 flags) := by
    simp [mergeFlags, BitVec.or_assoc]
  simp [finishSigner, hflags]

/-- The machine with an `MInst` out of the queue and its cells in the tile. -/
def writtenInst (core : Nat) (i : MInst) (s : State) : State :=
  modTile i.block i.tile (fun c => { c with cells := (runInst i (tileOf s i.block i.tile).cells).1 })
    (modCore core (fun k => { k with mq := k.mq.erase i }) s)

theorem completeInst_eq (core : Nat) (i : MInst) (s : State) :
    completeInst core i s = (i.sigs.map Sig.tid).foldl
      (fun m t => modThread i.block t (finishSigner i (runInst i (tileOf s i.block i.tile).cells).2) m) (writtenInst core i s) := by
  rw [List.foldl_map]
  rfl

theorem completeInst_oneBlock (core : Nat) (i : MInst) (s : State) :
    OneBlock i.block (modCore core (fun k => { k with mq := k.mq.erase i }) s) (completeInst core i s) := by
  rw [completeInst_eq]
  exact OneBlock.foldl ((OneBlock.refl _ _).modTile _ _) (fun m x hm => hm.modThread _ _) _

theorem mmaCompletion_completes {core : Nat} {i : MInst} {rest : List MInst} {s : State} (hc : core < s.cores.length)
    (hmq : (s.core core).mq = i :: rest) (hcap : i.cap.isSome = true) (hat : i.capAt < s.coreCycle core)
    (hhalt : (s.ctx (ctxOf s i.block)).halted = false)
    (htile : i.tile < (s.block i.block).tiles.length) (hsigs : ∀ x ∈ i.sigs, x.tid < (s.block i.block).threads.length) :
    let res := runInst i (tileOf s i.block i.tile).cells
    ∃ r, exec (.mmaCompletion core) s = .next r ∧ MemorySame s r ∧ (r.core core).mq = rest ∧
      (tileOf r i.block i.tile).cells = res.1 ∧ (∀ x, x ≠ i.tile → tileOf r i.block x = tileOf s i.block x) ∧
      (∀ x ∈ i.sigs, (r.thread i.block x.tid).flags = (s.thread i.block x.tid).flags ||| BitVec.ofNat 5 res.2 ∧
        (i.cv, i.id) ∉ (r.thread i.block x.tid).signed ∧ (r.thread i.block x.tid).vals = (s.thread i.block x.tid).vals) ∧
      (∀ c, c ≠ i.block → r.block c = s.block c) := by
  intro res
  have hone := completeInst_oneBlock core i s
  have hexec : exec (.mmaCompletion core) s = .next (completeInst core i s) := by
    show execMmaCompletion core s = _
    unfold execMmaCompletion
    rw [hmq]
    simp [Option.isNone_eq_false_iff.2 hcap, hat, hhalt]
  have hwritten : (writtenInst core i s).thread i.block = s.thread i.block := funext fun u => thread_modTile ..
  have hlen : ((writtenInst core i s).block i.block).threads.length = (s.block i.block).threads.length := by
    rw [writtenInst, block_modTile, if_pos rfl]; rfl
  have htiles : ∀ x, tileOf (completeInst core i s) i.block x = tileOf (writtenInst core i s) i.block x := fun x => by
    rw [completeInst_eq]
    exact tileOf_foldl_modThread i.block id (fun _ => finishSigner i res.2) _ _ _ _
  refine ⟨_, hexec, (modCore_memory ..).trans hone.memory, ?_, ?_, fun x hx => ?_, fun x hx => ?_, hone.others⟩
  · have hcores : (completeInst core i s).cores = modAt (fun k : Core => { k with mq := k.mq.erase i }) core s.cores := by
      rw [hone.rest]; rfl
    have hself : (modAt (fun k : Core => { k with mq := k.mq.erase i }) core s.cores).getD core default = _ :=
      modAt_getD_self _ default core s.cores hc
    rw [State.core, hcores, hself]
    have : (s.cores.getD core default).mq = i :: rest := hmq
    rw [this, List.erase_cons_head]
  · rw [htiles]
    exact congrArg Tile.cells (tileOf_modTile_self htile)
  · rw [htiles]
    exact tileOf_modTile_ne hx
  · have hth : (completeInst core i s).thread i.block x.tid = finishSigner i res.2 (s.thread i.block x.tid) := by
      rw [completeInst_eq, thread_foldl_modThread_twice (finishSigner_twice i _) _ _ _ (fun t ht => ?_),
        if_pos (List.mem_map.2 ⟨x, hx, rfl⟩), hwritten]
      obtain ⟨y, hy, rfl⟩ := List.mem_map.1 ht
      exact .inl (hlen ▸ hsigs y hy)
    rw [hth]
    exact ⟨rfl, by simp [finishSigner], rfl⟩

/-! ### The cells that a completion writes (05 R134, 06 R140) -/

/-- A map that lists the values of some keys, but for those equal to the default. -/
theorem sget_filterMap {α : Type} [DecidableEq α] (d : α) (v : Nat → α) (n : Nat) (l : List Nat) :
    sget d n (l.filterMap fun m => if v m = d then none else some (m, v m)) = if n ∈ l then v n else d := by
  induction l with
  | nil => rfl
  | cons m l ih =>
    rw [List.filterMap_cons]
    by_cases hm : v m = d
    · rw [if_pos hm, ih]
      by_cases hnm : n = m
      · subst hnm; simp [hm]
      · simp [hnm]
    · rw [if_neg hm, sget, ih]
      by_cases hnm : n = m
      · subst hnm; simp
      · simp [hnm]

/-- The bits of all flags together. -/
theorem testBit_foldl_or {α : Type} (g : α → Nat) (j : Nat) (l : List α) (a : Nat) :
    (l.foldl (fun fl e => fl ||| g e) a).testBit j = true ↔ a.testBit j = true ∨ ∃ e ∈ l, (g e).testBit j = true := by
  induction l generalizing a with
  | nil => simp
  | cons x l ih => simp [ih, or_assoc]

/-- The elements of a row of eight words. -/
theorem halves_eq {ws : List Word} (h : ws.length = 8) :
    halves ws = (List.range 16).map fun k => (ws.getD (k / 2) 0).toNat / 2 ^ (16 * (k % 2)) % 2 ^ 16 := by
  have hi : ∀ w : Word, w.toNat / 65536 % 65536 = w.toNat / 65536 := fun w =>
    Nat.mod_eq_of_lt (by have := w.isLt; omega)
  have hrange : List.range 16 = [0, 1, 2, 3, 4, 5, 6, 7, 8, 9, 10, 11, 12, 13, 14, 15] := rfl
  match ws, h with
  | [w0, w1, w2, w3, w4, w5, w6, w7], _ => simp [halves, hi, hrange]

/-- An element of the tile after a completion, with its flags. -/
def instElem (i : MInst) (rows : List (Nat × List Word)) (data : List Byte) (cells : Sparse Word) (n : Nat) : Nat × Nat :=
  let g := i.sigs.headD default
  elemOf g i.count rows ((List.range 128).map (colOf g.bt data)) (sget 0 n cells).toNat (n / 128) (n % 128)

theorem runInst_cell {i : MInst} {rows : List (Nat × List Word)} {data : List Byte} (h : i.cap = some (rows, data))
    (cells : Sparse Word) {n : Nat} (hn : n < 8192) :
    sget 0 n (runInst i cells).1 = BitVec.ofNat 32 (instElem i rows data cells n).1 := by
  have hcells : (runInst i cells).1 = (List.range 8192).filterMap fun m =>
      if BitVec.ofNat 32 (instElem i rows data cells m).1 = (0 : Word) then none
      else some (m, BitVec.ofNat 32 (instElem i rows data cells m).1) := by
    simp only [runInst, h, List.filterMap_map]
    rfl
  rw [hcells, sget_filterMap (0 : Word) (fun m => BitVec.ofNat 32 (instElem i rows data cells m).1), if_pos (List.mem_range.2 hn)]

theorem runInst_flags {i : MInst} {rows : List (Nat × List Word)} {data : List Byte} (h : i.cap = some (rows, data))
    (cells : Sparse Word) (j : Nat) :
    (runInst i cells).2.testBit j = true ↔ ∃ n, n < 8192 ∧ (instElem i rows data cells n).2.testBit j = true := by
  have hflags : (runInst i cells).2 = (List.range 8192).foldl (fun fl n => fl ||| (instElem i rows data cells n).2) 0 := by
    simp only [runInst, h, List.foldl_map]
    rfl
  rw [hflags, testBit_foldl_or]
  simp

/-- A row without a signer keeps its elements, or is zero under ZC. -/
theorem instElem_unsigned {i : MInst} {n : Nat} (h : i.count ≤ n / 128) (rows : List (Nat × List Word)) (data : List Byte)
    (cells : Sparse Word) :
    instElem i rows data cells n = (if (i.sigs.headD default).zc then 0 else (sget 0 n cells).toNat, 0) := if_pos h

/-- Element `k` of a captured row, and element `j` of row `k` of B. -/
def elemA (rows : List (Nat × List Word)) (m k : Nat) : Nat :=
  ((((rows.find? (·.1 = m)).map Prod.snd).getD []).getD (k / 2) (0 : Word)).toNat / 2 ^ (16 * (k % 2)) % 2 ^ 16
def elemB (bt : BitVec 2) (data : List Byte) (k j : Nat) : Nat :=
  if bt = 2 then (data.getD (k * 128 + j) 0).toNat
  else (data.getD (2 * (k * 128 + j)) 0).toNat + 256 * (data.getD (2 * (k * 128 + j) + 1) 0).toNat

/-- A signed row is the matrix sum. -/
theorem instElem_signed {i : MInst} {n : Nat} {rows : List (Nat × List Word)} (h : n / 128 < i.count)
    (hlen : ∀ e ∈ rows, e.2.length = 8) (hrow : ∃ e ∈ rows, e.1 = n / 128) (data : List Byte) (cells : Sparse Word) :
    instElem i rows data cells n =
      let g := i.sigs.headD default
      mmaSum g.at_ g.bt.toNat g.rm.toNat g.ftzi g.ftzo (if g.zc then none else some (sget 0 n cells).toNat)
        ((List.range 16).map (elemA rows (n / 128))) ((List.range 16).map fun k => elemB g.bt data k (n % 128)) := by
  have hfind : (rows.find? (·.1 = n / 128)).isSome = true := by
    obtain ⟨e, he, hen⟩ := hrow
    exact List.find?_isSome.2 ⟨e, he, by simp [hen]⟩
  obtain ⟨e, he⟩ := Option.isSome_iff_exists.1 hfind
  have hcol : ((List.range 128).map (colOf (i.sigs.headD default).bt data)).getD (n % 128) [] =
      (List.range 16).map fun k => elemB (i.sigs.headD default).bt data k (n % 128) := by
    rw [List.getD_eq_getElem?_getD, List.getElem?_map, List.getElem?_range (Nat.mod_lt _ (by decide))]
    rfl
  have ha : (List.range 16).map (elemA rows (n / 128)) = halves e.2 := by
    rw [halves_eq (hlen e (List.mem_of_find?_eq_some he))]
    exact List.map_congr_left fun k _ => by rw [elemA, he]; rfl
  unfold instElem elemOf
  dsimp only
  rw [if_neg (Nat.not_le.2 h), hcol, ha, he]

/-- Settles O34: the capture and the completion as changes of the queue and of one block, the cells and the flags element by element,
the matrix sum as the rounded sum of products. -/
theorem instancesRun : Obligations.InstancesRun := by
  unfold Obligations.InstancesRun
  refine ⟨fun core i s hc h => mmaCapture_captures hc h,
    fun core i rest s hc hmq hcap hat hhalt _ htile hsigs => mmaCompletion_completes hc hmq hcap hat hhalt htile hsigs,
    fun i rows data cells hcap hlen => ?_, fun at_ bt rm zi zo c row col h1 h5 => mmaSum_sumRounds zi zo c row col ⟨h1, h5⟩,
    fun bt zi a w => ⟨fun h => mmaTerms_float h zi a w, fun h => h ▸ mmaTerms_ds8 zi a w⟩⟩
  refine ⟨fun n hn hrow hlt => ?_, fun n hn hle => ?_, fun hrows j => ?_⟩
  · rw [runInst_cell hcap cells hn, instElem_signed hlt hlen hrow]
    rfl
  · rw [runInst_cell hcap cells hn, instElem_unsigned hle]
  · rw [runInst_flags hcap]
    refine exists_congr fun n => and_congr_right fun _ => ?_
    by_cases hlt : n / 128 < i.count
    · rw [instElem_signed hlt hlen (hrows _ hlt)]
      exact (and_iff_right hlt).symm
    · rw [instElem_unsigned (Nat.le_of_not_lt hlt)]
      simp [hlt]

end Sys2Proof.Machine
end


section
/-!
PROOFS. CVSET, MWAIT, ACCWIN and the reads and writes of the accumulator store: lane instructions whose lanes change their block, and
the cells that a run of writes leaves.
-/

namespace Sys2Proof.Machine

open Sys2Proof

/-! ### Lanes that change their block -/

theorem modThread_id (b t : Nat) (s : State) : modThread b t (fun th => th) s = s := by
  have h : (fun k : Block => { k with threads := modAt (fun th => th) t k.threads }) = id :=
    funext fun k => congrArg (fun ths => { k with threads := ths }) (modAt_id t k.threads)
  rw [modThread, h, modBlock_id]

theorem guarded_same (i : Instr) (s : State) : guarded i (fun _ th => th) s = passed s :=
  funext fun _ => ite_self _

/-- THE LANES GO ON, where each passes the instruction and one with a true guard changes its block by `k`. -/
theorem laneExec_block {i : Instr} {s : State} {faultOf : State → Nat → Nat → Option (Nat × Nat)}
    {act : Nat → Nat → State → State} (k : Nat → Block → Block) (h : Unhindered i s)
    (hf : OnAll i s fun t => faultOf s s.cur.block t = none)
    (hk : ∀ t x ths, k t { x with threads := ths } = { k t x with threads := ths })
    (hi : ∀ t x, (k t x).issues = x.issues ∧ (k t x).launch = x.launch)
    (hact : OnAll i s fun t => ∀ m, m.cur = s.cur → m.launchOf s.cur.block = s.launchOf s.cur.block →
      m.thread s.cur.block t = passed s t → act s.cur.block t m = modBlock s.cur.block (k t) m) :
    ∃ t, laneExec i faultOf act s = .next t ∧
      GroupStep (passed s) (fun x => (onTids i s).foldl (fun x t => k t x) x) s t := by
  rw [← guarded_same i s]
  refine laneExec_group (fun _ th => th) k (fun h => (h (s.block s.cur.block)).launch = (s.block s.cur.block).launch) h hf hk
    (fun t x => (hi t x).1) rfl (fun t h hq => (hi t _).2.trans hq) fun t ht hg h m hq hm => ?_
  rw [modThread_id]
  exact hact t ht hg m hm.cur (hm.launchOf hq) hm.self

/-- What such an instruction leaves of memory, where no lane changes the scratch. -/
theorem GroupStep.memory_foldl {i : Instr} {g : Nat → Thread} {k : Nat → Block → Block} {s t : State}
    (hs : GroupStep g (fun x => (onTids i s).foldl (fun x t => k t x) x) s t) (hk : ∀ t x, (k t x).scratch = x.scratch) :
    MemorySame s t :=
  hs.memory (foldl_same Block.scratch _ (fun x t => hk t x) _ _)

/-- The tiles after an instruction whose lanes each change a tile by `f t`. -/
theorem GroupStep.tiles_foldl {i : Instr} {g : Nat → Thread} {k : Nat → Block → Block} {s t : State}
    (hs : GroupStep g (fun x => (onTids i s).foldl (fun x t => k t x) x) s t) {f : Nat → Tile → Tile} {n : Nat → Nat}
    (hk : ∀ t x, (k t x).tiles = modAt (f t) (n t) x.tiles) :
    (t.block s.cur.block).tiles = (onTids i s).foldl (fun ts t => modAt (f t) (n t) ts) (s.block s.cur.block).tiles := by
  obtain ⟨ths, pws, hown⟩ := hs.own
  rw [hown]
  exact (List.foldl_hom Block.tiles fun x t => (hk t x).symm).symm

theorem mem_onTids {i : Instr} {s : State} {t : Nat} :
    t ∈ onTids i s ↔ t ∈ s.cur.tids ∧ threadGuard i s s.cur.block t = true := List.mem_filter

/-! ### `CVSET`, `MWAIT`, `ACCWIN` -/

/-- The checks of `CVSET` that do not depend on the signs of the cycle (06 R142), of a group with `lanes` true guards. -/
def cvsetFault (f : EFields) (lanes : Nat) (s : State) (b t : Nat) : Option (Nat × Nat) :=
  let v := (s.thread b t).vals
  let n := opd f (shapeOf (.cvset f)) v .ra
  if 1 < lanes ∨ n = 0 ∨ 64 < n ∨ (s.block b).ntid < opd f (shapeOf (.cvset f)) v .rb + n then some (0x05, 0) else none

/-- The set that a thread's operands give. -/
def cvsetBlock (f : EFields) (pc : DWord) (t : Nat) (v : Vals) : Block → Block :=
  withSet f.rd.toNat (t, pc, opd f (shapeOf (.cvset f)) v .ra, opd f (shapeOf (.cvset f)) v .rb)

theorem execCvset_eq (f : EFields) (s : State) : execCvset f s =
    laneExec (.cvset f) (cvsetFault f (onTids (.cvset f) s).length)
      (fun b t m => modBlock b (cvsetBlock f m.cur.pc t (m.thread b t).vals) m) s := rfl

theorem cvset_completes {f : EFields} {s : State} {tid : Nat} (h : Unhindered (.cvset f) s) (hon : onTids (.cvset f) s = [tid]) :
    let v := (s.thread s.cur.block tid).vals
    let n := opd f (shapeOf (.cvset f)) v .ra
    let first := opd f (shapeOf (.cvset f)) v .rb
    n ≠ 0 → n ≤ 64 → first + n ≤ (s.block s.cur.block).ntid →
    ∃ t, exec (.cvset f) s = .next t ∧ MemorySame s t ∧ GroupStep (passed s) (cvsetBlock f s.cur.pc tid v) s t := by
  intro v n first hn0 hn hfirst
  have hfault : OnAll (.cvset f) s fun t => cvsetFault f (onTids (.cvset f) s).length s s.cur.block t = none := fun t ht hg => by
    obtain rfl : t = tid := List.mem_singleton.1 (hon ▸ mem_onTids.2 ⟨ht, hg⟩)
    refine if_neg ?_
    rw [hon]
    rintro (h | h | h | h)
    · exact Nat.lt_irrefl 1 h
    · exact hn0 h
    · exact Nat.not_lt.2 hn h
    · exact Nat.not_lt.2 hfirst h
  obtain ⟨t, ht, hs⟩ := laneExec_block (faultOf := cvsetFault f (onTids (.cvset f) s).length)
    (act := fun b t m => modBlock b (cvsetBlock f m.cur.pc t (m.thread b t).vals) m)
    (fun t => cvsetBlock f s.cur.pc t (s.thread s.cur.block t).vals)
    h hfault (fun _ _ _ => rfl) (fun _ _ => ⟨rfl, rfl⟩) (fun t _ _ m hc _ hth => by rw [hc, hth]; rfl)
  rw [hon] at hs
  exact ⟨t, (execCvset_eq f s).trans ht, hs.memory rfl, hs⟩

theorem mwait_completes {f : EFields} {s : State} (h : Unhindered (.mwait f) s) :
    ∃ t, exec (.mwait f) s = .next t ∧ MemorySame s t ∧ LaneStep (.mwait f) (fun _ th => th) s t := by
  obtain ⟨t, ht, hs⟩ := laneExec_threads (i := .mwait f) (faultOf := noFault) (act := fun _ _ m => m) (fun _ th => th) h
    (fun _ _ _ => rfl) fun t _ _ m _ => (modThread_id _ t m).symm
  exact ⟨t, ht, hs.memory rfl, hs⟩

/-- The checks of `ACCWIN` (18 R283). -/
def accwinFault (f : EFields) (s : State) (b t : Nat) : Option (Nat × Nat) :=
  let v := (s.thread b t).vals
  let lim := opd f (shapeOf (.accwin f)) v .rc
  if t ≠ 0 then some (0x0D, 0)
  else if (s.block b).waves.length ≤ opd f (shapeOf (.accwin f)) v .ra ∨ lim < opd f (shapeOf (.accwin f)) v .rb ∨
      64 * (s.block b).tiles.length < lim then some (0x03, 0)
  else none

/-- The window that a thread's operands give. -/
def accwinBlock (f : EFields) (v : Vals) : Block → Block :=
  withWindow (opd f (shapeOf (.accwin f)) v .ra) (BitVec.ofNat 32 (opd f (shapeOf (.accwin f)) v .rb))
    (BitVec.ofNat 32 (opd f (shapeOf (.accwin f)) v .rc))

theorem execAccwin_eq (f : EFields) (s : State) : execAccwin f s =
    laneExec (.accwin f) (accwinFault f) (fun b t m => modBlock b (accwinBlock f (m.thread b t).vals) m) s := rfl

theorem accwin_completes {f : EFields} {s : State} (h : Unhindered (.accwin f) s) (hon : onTids (.accwin f) s = [0]) :
    let v := (s.thread s.cur.block 0).vals
    opd f (shapeOf (.accwin f)) v .ra < (s.block s.cur.block).waves.length →
    opd f (shapeOf (.accwin f)) v .rb ≤ opd f (shapeOf (.accwin f)) v .rc →
    opd f (shapeOf (.accwin f)) v .rc ≤ 64 * (s.block s.cur.block).tiles.length →
    ∃ t, exec (.accwin f) s = .next t ∧ MemorySame s t ∧ GroupStep (passed s) (accwinBlock f v) s t := by
  intro v hw hle hlim
  have hfault : OnAll (.accwin f) s fun t => accwinFault f s s.cur.block t = none := fun t ht hg => by
    obtain rfl : t = 0 := List.mem_singleton.1 (hon ▸ mem_onTids.2 ⟨ht, hg⟩)
    refine if_neg ?_
    rintro (h | h | h)
    · exact Nat.not_le.2 hw h
    · exact Nat.not_lt.2 hle h
    · exact Nat.not_lt.2 hlim h
  obtain ⟨t, ht, hs⟩ := laneExec_block
    (act := fun b t m => modBlock b (accwinBlock f (m.thread b t).vals) m)
    (fun t => accwinBlock f (s.thread s.cur.block t).vals)
    h hfault (fun _ _ _ => rfl) (fun _ _ => ⟨rfl, rfl⟩) (fun t _ _ m _ _ hth => by rw [hth]; rfl)
  rw [hon] at hs
  exact ⟨t, (execAccwin_eq f s).trans ht, hs.memory rfl, hs⟩

/-! ### `ALD` -/

theorem Found.tileOf {s m : State} {t : Nat} (hm : Found id s t m) (x : Nat) : tileOf m s.cur.block x = tileOf s s.cur.block x := by
  obtain ⟨ths, hown⟩ := hm.own
  unfold Machine.tileOf
  rw [hown]
  rfl

/-- What the producer of an `ALD` holds: the pattern of the cell that the operands name. -/
def aldVal (f : EFields) (s : State) (b : Nat) (v : Vals) : ProdVal :=
  let row := opd f (shapeOf (.ald f)) v .ra
  .tile (row / 64) (sget 0 (cellOf row (opd f (shapeOf (.ald f)) v .rb)) (tileOf s b (row / 64)).cells)

/-- A thread of an `ALD`. -/
def aldThread (f : EFields) (s : State) (b : Nat) (pc : DWord) (th : Thread) : Thread :=
  producerThread f (shapeOf (.ald f)) pc (aldVal f s b th.vals) th

theorem execAld_eq (f : EFields) (s : State) : execAld f s = laneExec (.ald f) (cellFault f (shapeOf (.ald f)))
    (fun b t m => modThread b t (producerThread f (shapeOf (.ald f)) m.cur.pc (aldVal f m b (m.thread b t).vals)) m) s := rfl

theorem ald_completes {f : EFields} {s : State} (h : Unhindered (.ald f) s)
    (hf : OnAll (.ald f) s fun t => cellFault f (shapeOf (.ald f)) s s.cur.block t = none) :
    ∃ t, exec (.ald f) s = .next t ∧ MemorySame s t ∧ LaneStep (.ald f) (fun _ => aldThread f s s.cur.block s.cur.pc) s t := by
  obtain ⟨t, ht, hs⟩ := laneExec_threads
    (act := fun b t m => modThread b t (producerThread f (shapeOf (.ald f)) m.cur.pc (aldVal f m b (m.thread b t).vals)) m)
    (fun _ => aldThread f s s.cur.block s.cur.pc) h hf fun t _ _ m hm => modThread_congr (by
      have hval : aldVal f m s.cur.block (m.thread s.cur.block t).vals = aldVal f s s.cur.block (m.thread s.cur.block t).vals := by
        simp only [aldVal, hm.tileOf]
      rw [hm.cur, hval]
      rfl)
  exact ⟨t, (execAld_eq f s).trans ht, hs.memory rfl, hs⟩

/-! ### `AST` -/

/-- A write of one cell, and the cell that stands in a place. -/
def writeCell (n x : Nat) (v : Word) (ts : List Tile) : List Tile := modAt (fun c => { c with cells := sset 0 x v c.cells }) n ts
def readCell (ts : List Tile) (n x : Nat) : Word := sget 0 x (ts.getD n default).cells

/-- The cells of every tile are in canonical form. -/
def CellsWf (ts : List Tile) : Prop := ∀ c ∈ ts, SparseWf 0 c.cells

theorem CellsWf.getD {ts : List Tile} (h : CellsWf ts) (n : Nat) : SparseWf 0 (ts.getD n default).cells := by
  by_cases hn : n < ts.length
  · rw [List.getD_eq_getElem _ _ hn]
    exact h _ (List.getElem_mem hn)
  · rw [List.getD_eq_default _ _ (Nat.le_of_not_lt hn)]
    exact ⟨List.Pairwise.nil, fun e he => nomatch he⟩

theorem CellsWf.writeCell {ts : List Tile} (h : CellsWf ts) (n x : Nat) (v : Word) : CellsWf (writeCell n x v ts) := by
  intro c hc
  rcases mem_modAt _ _ _ _ hc with hc | ⟨c', hc', rfl⟩
  · exact h c hc
  · exact sset_wf x v (h c' hc')

theorem readCell_writeCell_self {ts : List Tile} (h : CellsWf ts) {n : Nat} (hn : n < ts.length) (x : Nat) (v : Word) :
    readCell (writeCell n x v ts) n x = v := by
  rw [readCell, writeCell, modAt_getD_self _ _ _ _ hn]
  exact (sget_sset x x v (h.getD n)).trans (if_pos rfl)

theorem readCell_writeCell_ne {ts : List Tile} (h : CellsWf ts) {n x n' x' : Nat} (hne : ¬(n = n' ∧ x = x')) (v : Word) :
    readCell (writeCell n x v ts) n' x' = readCell ts n' x' := by
  unfold readCell writeCell
  by_cases hn : n' = n
  · subst hn
    rcases modAt_getD_or (fun c : Tile => { c with cells := sset 0 x v c.cells }) default n' n' ts with hs | hs
    · rw [hs]
    · rw [hs]
      exact (sget_sset x x' v (h.getD n')).trans (if_neg fun hx => hne ⟨rfl, hx.symm⟩)
  · rw [modAt_getD_ne _ _ _ _ _ hn]

/-- The cells after a run of writes. -/
def writeCells (n x : Nat → Nat) (v : Nat → Word) (l : List Nat) (ts : List Tile) : List Tile :=
  l.foldl (fun ts t => writeCell (n t) (x t) (v t) ts) ts

theorem CellsWf.writeCells {ts : List Tile} (h : CellsWf ts) (n x : Nat → Nat) (v : Nat → Word) (l : List Nat) :
    CellsWf (writeCells n x v l ts) :=
  foldl_keeps CellsWf _ (fun _ t h => h.writeCell (n t) (x t) (v t)) l ts h

theorem length_writeCells (n x : Nat → Nat) (v : Nat → Word) (l : List Nat) (ts : List Tile) :
    (writeCells n x v l ts).length = ts.length :=
  foldl_same List.length _ (fun _ _ => modAt_length ..) l ts

/-- A cell that no write of a run names stands. -/
theorem readCell_writeCells_ne {n x : Nat → Nat} {v : Nat → Word} {n' x' : Nat} {l : List Nat}
    (hne : ∀ u ∈ l, ¬(n u = n' ∧ x u = x')) {ts : List Tile} (h : CellsWf ts) :
    readCell (writeCells n x v l ts) n' x' = readCell ts n' x' := by
  induction l generalizing ts with
  | nil => rfl
  | cons u l ih =>
    exact (ih (fun w hw => hne w (List.mem_cons_of_mem _ hw)) (h.writeCell _ _ _)).trans
      (readCell_writeCell_ne h (hne u (List.mem_cons_self ..)) _)

/-- The last write of a run to a cell stands. -/
theorem readCell_writeCells_last {n x : Nat → Nat} {v : Nat → Word} {before after : List Nat} {t : Nat}
    (hlast : ∀ u ∈ after, ¬(n u = n t ∧ x u = x t)) {ts : List Tile} (h : CellsWf ts) (hn : n t < ts.length) :
    readCell (writeCells n x v (before ++ t :: after) ts) (n t) (x t) = v t := by
  have hwf := h.writeCells n x v before
  have hsplit : writeCells n x v (before ++ t :: after) ts =
      writeCells n x v after (writeCell (n t) (x t) (v t) (writeCells n x v before ts)) := by
    rw [writeCells, List.foldl_append, List.foldl_cons]; rfl
  rw [hsplit, readCell_writeCells_ne hlast (hwf.writeCell _ _ _)]
  exact readCell_writeCell_self hwf (by rwa [length_writeCells]) _ _

/-- The block of a lane of an `AST`: the rollback interval ends, after its log, and one cell is written. -/
def astBlock (f : EFields) (v : Vals) (k : Block) : Block :=
  let sh := shapeOf (.ast f)
  let row := opd f sh v .ra
  { k.performLog with
      rollable := false
      tiles := writeCell (row / 64) (cellOf row (opd f sh v .rb)) (BitVec.ofNat 32 (opd f sh v .rc)) k.tiles }

theorem execAst_eq (f : EFields) (s : State) : execAst f s =
    laneExec (.ast f) (cellFault f (shapeOf (.ast f))) (fun b t m => modBlock b (astBlock f (m.thread b t).vals) m) s := by
  refine congrArg (fun act => laneExec (.ast f) (cellFault f (shapeOf (.ast f))) act s) ?_
  funext b t m
  exact modBlock_modBlock ..

theorem ast_steps {f : EFields} {s : State} (h : Unhindered (.ast f) s)
    (hf : OnAll (.ast f) s fun t => cellFault f (shapeOf (.ast f)) s s.cur.block t = none) :
    ∃ t, exec (.ast f) s = .next t ∧ GroupStep (passed s)
      (fun x => (onTids (.ast f) s).foldl (fun x t => astBlock f (s.thread s.cur.block t).vals x) x) s t := by
  obtain ⟨t, ht, hs⟩ := laneExec_block (fun t => astBlock f (s.thread s.cur.block t).vals) h hf (fun _ _ _ => rfl)
    (fun _ _ => ⟨rfl, rfl⟩) (act := fun b t m => modBlock b (astBlock f (m.thread b t).vals) m) fun t _ _ m _ _ hth => by
      rw [hth]; rfl
  exact ⟨t, (execAst_eq f s).trans ht, hs⟩

/-- A check of a cell that passes names a tile of the block. -/
theorem tile_of_cellFault {f : EFields} {sh : Shape} {s : State} {b t : Nat} (h : cellFault f sh s b t = none) :
    opd f sh (s.thread b t).vals .ra / 64 < (s.block b).tiles.length := by
  unfold cellFault at h
  dsimp only at h
  split at h
  · cases h
  · next hlt => exact Nat.lt_of_not_le hlt

theorem Canonical.cellsWf {s : State} (h : Canonical s) {b : Nat} (hb : b < s.blocks.length) : CellsWf (s.block b).tiles := by
  have hmem : s.block b ∈ s.blocks := by
    rw [State.block, List.getD_eq_getElem _ _ hb]
    exact List.getElem_mem hb
  exact (h.blocks _ hmem).tiles

/-! ### `ACLR` -/

/-- A change that does nothing the second time, made once for each entry of a list. -/
theorem foldl_twice {α β : Type} {k : α → α} (hk : ∀ x, k (k x) = k x) (l : List β) (x : α) :
    l.foldl (fun x _ => k x) x = if l = [] then x else k x := by
  induction l generalizing x with
  | nil => rfl
  | cons b l ih =>
    rw [List.foldl_cons, ih, if_neg (List.cons_ne_nil b l)]
    split
    · rfl
    · exact hk x

/-- A tile without its cells. -/
def clearTile (c : Tile) : Tile := { c with cells := [] }

/-- The block of a lane of an `ACLR`. -/
def aclrBlock (n : Nat) (k : Block) : Block := { k.performLog with rollable := false, tiles := modAt clearTile n k.tiles }

theorem execAclr_eq (f : EFields) (s : State) : execAclr f s =
    laneExec (.aclr f) (aclrFault f.rd.toNat) (fun b _ m => modBlock b (aclrBlock f.rd.toNat) m) s := by
  refine congrArg (fun act => laneExec (.aclr f) (aclrFault f.rd.toNat) act s) ?_
  funext b t m
  exact modBlock_modBlock ..

theorem tile_of_aclrFault {n b t : Nat} {s : State} (h : aclrFault n s b t = none) : n < (s.block b).tiles.length := by
  unfold aclrFault at h
  dsimp only at h
  split at h
  · cases h
  · next hlt => exact Nat.lt_of_not_le hlt

theorem aclr_completes {f : EFields} {s : State} (h : Unhindered (.aclr f) s)
    (hf : OnAll (.aclr f) s fun t => aclrFault f.rd.toNat s s.cur.block t = none) :
    ∃ t, exec (.aclr f) s = .next t ∧ MemorySame s t ∧
      (onTids (.aclr f) s ≠ [] → ∀ x, sget 0 x (tileOf t s.cur.block f.rd.toNat).cells = 0) ∧
      (∀ tile, tile ≠ f.rd.toNat ∨ onTids (.aclr f) s = [] → tileOf t s.cur.block tile = tileOf s s.cur.block tile) ∧
      (∀ tid ∈ s.cur.tids, t.thread s.cur.block tid = passed s tid) ∧
      (∀ tid, tid ∉ s.cur.tids → t.thread s.cur.block tid = s.thread s.cur.block tid) ∧
      (∀ c, c ≠ s.cur.block → t.block c = s.block c) ∧ t = { s with blocks := t.blocks } := by
  obtain ⟨t, ht, hs⟩ := laneExec_block (fun _ => aclrBlock f.rd.toNat) h hf (fun _ _ _ => rfl) (fun _ _ => ⟨rfl, rfl⟩)
    (act := fun b _ m => modBlock b (aclrBlock f.rd.toNat) m) fun _ _ _ _ _ _ _ => rfl
  have htiles := hs.tiles_foldl (f := fun _ => clearTile) (n := fun _ => f.rd.toNat) fun _ _ => rfl
  rw [foldl_twice fun ts => modAt_modAt ..] at htiles
  refine ⟨t, (execAclr_eq f s).trans ht, hs.memory_foldl fun _ _ => rfl, fun hne x => ?_, fun tile htile => ?_, hs.group, hs.threads,
    hs.others, hs.rest⟩
  · obtain ⟨tid, htid⟩ := List.exists_mem_of_ne_nil _ hne
    obtain ⟨hmem, hg⟩ := mem_onTids.1 htid
    rw [tileOf, htiles, if_neg hne, modAt_getD_self _ _ _ _ (tile_of_aclrFault (hf tid hmem hg))]
    rfl
  · rw [tileOf, htiles]
    split
    · rfl
    · next hne => exact modAt_getD_ne _ _ _ _ _ (htile.resolve_right hne)

theorem ast_completes {f : EFields} {s : State} (h : Unhindered (.ast f) s) (hc : Canonical s)
    (hf : OnAll (.ast f) s fun t => cellFault f (shapeOf (.ast f)) s s.cur.block t = none) :
    let b := s.cur.block
    let row := fun t => opd f (shapeOf (.ast f)) (s.thread b t).vals .ra
    let col := fun t => opd f (shapeOf (.ast f)) (s.thread b t).vals .rb
    ∃ t, exec (.ast f) s = .next t ∧ MemorySame s t ∧
      (∀ pre tid post, onTids (.ast f) s = pre ++ tid :: post →
        (∀ u ∈ post, ¬(row u / 64 = row tid / 64 ∧ cellOf (row u) (col u) = cellOf (row tid) (col tid))) →
        sget 0 (cellOf (row tid) (col tid)) (tileOf t b (row tid / 64)).cells =
          BitVec.ofNat 32 (opd f (shapeOf (.ast f)) (s.thread b tid).vals .rc)) ∧
      (∀ tile x, (∀ u ∈ onTids (.ast f) s, ¬(row u / 64 = tile ∧ cellOf (row u) (col u) = x)) →
        sget 0 x (tileOf t b tile).cells = sget 0 x (tileOf s b tile).cells) ∧
      (∀ tid ∈ s.cur.tids, t.thread b tid = passed s tid) ∧
      (∀ tid, tid ∉ s.cur.tids → t.thread b tid = s.thread b tid) ∧
      (∀ c, c ≠ b → t.block c = s.block c) ∧ t = { s with blocks := t.blocks } := by
  intro b row col
  obtain ⟨t, ht, hs⟩ := ast_steps h hf
  have hwf := hc.cellsWf h.1.1
  have htiles : (t.block b).tiles = writeCells (fun u => row u / 64) (fun u => cellOf (row u) (col u))
      (fun u => BitVec.ofNat 32 (opd f (shapeOf (.ast f)) (s.thread b u).vals .rc)) (onTids (.ast f) s) (s.block b).tiles :=
    hs.tiles_foldl fun _ _ => rfl
  refine ⟨t, ht, hs.memory_foldl fun _ _ => rfl, fun pre tid post hon hlast => ?_, fun tile x hne => ?_, hs.group, hs.threads,
    hs.others, hs.rest⟩
  · have hon' : tid ∈ onTids (.ast f) s := by rw [hon]; simp
    obtain ⟨hmem, hg⟩ := mem_onTids.1 hon'
    rw [tileOf, htiles, hon]
    exact readCell_writeCells_last (n := fun u => row u / 64) (x := fun u => cellOf (row u) (col u)) hlast hwf
      (tile_of_cellFault (hf tid hmem hg))
  · rw [tileOf, htiles]
    exact readCell_writeCells_ne hne hwf

/-- Settles O22: the shared execution of each, with what a lane does to its thread or to its block. -/
theorem matrixCompletes : Obligations.MatrixCompletes := by
  unfold Obligations.MatrixCompletes
  refine ⟨fun f s tid h => ?_, fun f s h => mwait_completes h, fun f s h => ?_, fun f s h => ?_, fun f s h => ?_, fun f s h => ?_⟩
  · dsimp only
    intro hon h0 hn hfirst _
    exact cvset_completes h hon h0 hn hfirst
  · dsimp only
    intro hon
    exact accwin_completes h hon
  · exact fun hf => ald_completes h hf
  · exact fun hc hf => ast_completes h hc hf
  · exact fun hf => aclr_completes h hf

end Sys2Proof.Machine
end


section
/-!
PROOFS. Tokens of the accumulator tiles: the request of a wave, the grant, and the two forms of the return.
-/

namespace Sys2Proof.Machine

open Sys2Proof

/-! ### One tile in a run of changes -/

/-- A tile after a run of changes that all concern it. -/
theorem foldl_modAt_getD_self {α : Type} {f : Nat → α → α} {d : α} {n : Nat} (l : List Nat) {ts : List α} (hn : n < ts.length) :
    (l.foldl (fun ts t => modAt (f t) n ts) ts).getD n d = l.foldl (fun c t => f t c) (ts.getD n d) := by
  induction l generalizing ts with
  | nil => rfl
  | cons t l ih => rw [List.foldl_cons, List.foldl_cons, ih (by rwa [modAt_length]), modAt_getD_self _ _ _ _ hn]

/-- What a run of changes that each leave it alone leaves of every tile. -/
theorem foldl_modAt_getD_same {α β : Type} (view : α → β) {f : Nat → α → α} (hf : ∀ t c, view (f t c) = view c) (d : α) (n x : Nat)
    (l : List Nat) (ts : List α) : view ((l.foldl (fun ts t => modAt (f t) n ts) ts).getD x d) = view (ts.getD x d) := by
  refine foldl_same (fun ts => view (ts.getD x d)) _ (fun ts t => ?_) l ts
  rcases modAt_getD_or (f t) d n x ts with h | h
  · exact congrArg view h
  · exact (congrArg view h).trans (hf t _)

/-! ### `TKGET` -/

/-- A thread joins the request of its wave and cycle. -/
def addRequest (w cyc t : Nat) (c : Tile) : Tile :=
  let mine := fun (r : TokReq) => r.wave = w && r.cycle = cyc
  { c with reqs := if c.reqs.any mine then modIf mine (fun r => { r with tids := r.tids ++ [t] }) c.reqs
                   else c.reqs ++ [⟨w, [t], cyc⟩] }

/-- A request of a wave and cycle in which a thread waits. -/
def Requests (w cyc t : Nat) (c : Tile) : Prop := ∃ r ∈ c.reqs, r.wave = w ∧ r.cycle = cyc ∧ t ∈ r.tids

theorem requests_addRequest (w cyc t : Nat) (c : Tile) : Requests w cyc t (addRequest w cyc t c) := by
  unfold addRequest Requests
  dsimp only
  split
  · next h =>
    obtain ⟨r, hr, hmine⟩ := List.any_eq_true.1 h
    refine ⟨_, List.mem_map.2 ⟨r, hr, rfl⟩, ?_⟩
    rw [if_pos hmine]
    simp only [Bool.and_eq_true, decide_eq_true_eq] at hmine
    exact ⟨hmine.1, hmine.2, by simp⟩
  · exact ⟨_, List.mem_append_right _ (List.mem_singleton.2 rfl), rfl, rfl, List.mem_singleton.2 rfl⟩

theorem Requests.addRequest {w cyc t : Nat} {c : Tile} (h : Requests w cyc t c) (w' cyc' t' : Nat) :
    Requests w cyc t (addRequest w' cyc' t' c) := by
  obtain ⟨r, hr, hw, hcyc, ht⟩ := h
  unfold Machine.addRequest Requests
  dsimp only
  split
  · refine ⟨_, List.mem_map.2 ⟨r, hr, rfl⟩, ?_⟩
    split
    · exact ⟨hw, hcyc, List.mem_append_left _ ht⟩
    · exact ⟨hw, hcyc, ht⟩
  · exact ⟨r, List.mem_append_left _ hr, hw, hcyc, ht⟩

/-- Every thread of a run of requests waits in one. -/
theorem requests_foldl {w : Nat → Nat} {cyc t : Nat} {l : List Nat} (h : t ∈ l) (c : Tile) :
    Requests (w t) cyc t (l.foldl (fun c t => addRequest (w t) cyc t c) c) := by
  obtain ⟨before, after, rfl⟩ := List.append_of_mem h
  rw [List.foldl_append, List.foldl_cons]
  exact foldl_keeps (Requests (w t) cyc t) _ (fun _ _ h => h.addRequest _ _ _) after _ (requests_addRequest ..)

/-- A thread at a `TKGET`. -/
def requestThread (tile len : Nat) (pc : DWord) (th : Thread) : Thread := { th with st := .tokWait tile len, pc := pc }

/-- Its block. -/
def requestBlock (tile w cyc t : Nat) (k : Block) : Block := { k with tiles := modAt (addRequest w cyc t) tile k.tiles }

theorem requestToken_eq (f : EFields) (b t : Nat) (m : State) :
    requestToken f b t m = modThread b t (requestThread f.rd.toNat m.cur.len m.cur.pc)
      (modBlock b (requestBlock f.rd.toNat (homeWave (m.launchOf b) t) m.cur.cyc t) m) :=
  modBlock_modThread b t (requestBlock f.rd.toNat (homeWave (m.launchOf b) t) m.cur.cyc t) _ m fun _ _ => rfl

/-- The check of `TKGET`. -/
def tkgetFault (f : EFields) (s : State) (b _t : Nat) : Option (Nat × Nat) :=
  if (s.block b).tiles.length ≤ f.rd.toNat then some (0x03, 0) else none

theorem execTkget_eq (f : EFields) (s : State) : execTkget f s = laneExec (.tkget f) (tkgetFault f) (requestToken f) s := rfl

theorem tkget_steps {f : EFields} {s : State} (h : Unhindered (.tkget f) s) (hn : f.rd.toNat < (s.block s.cur.block).tiles.length) :
    ∃ t, exec (.tkget f) s = .next t ∧
      GroupStep (guarded (.tkget f) (fun _ => requestThread f.rd.toNat s.cur.len s.cur.pc) s)
        (fun x => (onTids (.tkget f) s).foldl
          (fun x t => requestBlock f.rd.toNat (homeWave (s.launchOf s.cur.block) t) s.cur.cyc t x) x) s t := by
  have hf : OnAll (.tkget f) s fun t => tkgetFault f s s.cur.block t = none := fun t _ _ => if_neg (Nat.not_le.2 hn)
  refine laneExec_group (fun _ => requestThread f.rd.toNat s.cur.len s.cur.pc)
    (fun t => requestBlock f.rd.toNat (homeWave (s.launchOf s.cur.block) t) s.cur.cyc t)
    (fun h => (h (s.block s.cur.block)).launch = (s.block s.cur.block).launch) h hf (fun _ _ _ => rfl) (fun _ _ => rfl) rfl
    (fun _ _ hq => hq) fun t _ _ h' m hq hm => ?_
  rw [requestToken_eq, hm.cur, hm.launchOf hq]

theorem tkget_completes {f : EFields} {s : State} (h : Unhindered (.tkget f) s) :
    let b := s.cur.block
    f.rd.toNat < (s.block b).tiles.length →
    ∃ t, exec (.tkget f) s = .next t ∧ MemorySame s t ∧
      (∀ tid ∈ s.cur.tids, t.thread b tid = guarded (.tkget f) (fun _ => requestThread f.rd.toNat s.cur.len s.cur.pc) s tid) ∧
      (∀ tid, tid ∉ s.cur.tids → t.thread b tid = s.thread b tid) ∧
      OnAll (.tkget f) s (fun tid => Requests (homeWave (s.launchOf b) tid) s.cur.cyc tid (tileOf t b f.rd.toNat)) ∧
      (∀ tile, (tileOf t b tile).owner = (tileOf s b tile).owner ∧ (tileOf t b tile).cells = (tileOf s b tile).cells) ∧
      (∀ c, c ≠ b → t.block c = s.block c) ∧ t = { s with blocks := t.blocks } := by
  intro b hn
  obtain ⟨t, ht, hs⟩ := tkget_steps h hn
  have htiles := hs.tiles_foldl (f := fun t => addRequest (homeWave (s.launchOf b) t) s.cur.cyc t) (n := fun _ => f.rd.toNat) fun _ _ => rfl
  refine ⟨t, ht, hs.memory_foldl fun _ _ => rfl, hs.group, hs.threads, fun tid hmem hg => ?_, fun tile => ⟨?_, ?_⟩, hs.others, hs.rest⟩
  · rw [tileOf, htiles, foldl_modAt_getD_self _ hn]
    exact requests_foldl (w := homeWave (s.launchOf b)) (mem_onTids.2 ⟨hmem, hg⟩) _
  · rw [tileOf, htiles]
    exact foldl_modAt_getD_same Tile.owner (f := fun t => addRequest (homeWave (s.launchOf b) t) s.cur.cyc t) (fun _ _ => rfl) ..
  · rw [tileOf, htiles]
    exact foldl_modAt_getD_same Tile.cells (f := fun t => addRequest (homeWave (s.launchOf b) t) s.cur.cyc t) (fun _ _ => rfl) ..

/-! ### `TKPUT` -/

/-- A tile whose token a wave gives back, if it holds it. -/
def returnTile (w : Nat) (c : Tile) : Tile := { c with owner := if c.owner = some w then none else c.owner }

/-- Its block. -/
def returnBlock (tile w : Nat) (k : Block) : Block := { k with tiles := modAt (returnTile w) tile k.tiles }

/-- Of a tile whose token is returned, the token stays free. -/
theorem owner_foldl_returnTile {w : Nat → Nat} {l : List Nat} (hl : l ≠ []) {c : Tile} (h : ∀ t ∈ l, c.owner = some (w t)) :
    (l.foldl (fun c t => returnTile (w t) c) c).owner = none := by
  obtain ⟨t, r, rfl⟩ := List.exists_cons_of_ne_nil hl
  rw [List.foldl_cons]
  refine foldl_keeps (fun c : Tile => c.owner = none) _ (fun c t hc => ?_) r _ (if_pos (h t (List.mem_cons_self ..)))
  simp [returnTile, hc]

theorem OneBlock.cur {b : Nat} {s m : State} (h : OneBlock b s m) : m.cur = s.cur := by rw [h.rest]

theorem OneBlock.launchOf {b : Nat} {s m : State} (h : OneBlock b s m) : m.launchOf b = s.launchOf b := by
  rw [State.launchOf, h.launch, h.rest]
  rfl

/-- The lanes may go on by another step that agrees wherever only the group's block has changed. -/
theorem laneExecBy_congr {i : Instr} {s : State} {faultOf : State → Nat → Nat → Option (Nat × Nat)} {go go' : State → Nat → State}
    (h : Unhindered i s) (hf : OnAll i s fun t => faultOf s s.cur.block t = none)
    (hkeep : ∀ m t, OneBlock s.cur.block s m → OneBlock s.cur.block s (go' m t))
    (heq : ∀ m t, OneBlock s.cur.block s m → go m t = go' m t) : laneExecBy i faultOf go s = laneExecBy i faultOf go' s := by
  rw [laneExecBy_next go h hf, laneExecBy_next go' h hf, foldl_congr_of_keeps (OneBlock s.cur.block s) hkeep heq _ s (.refl _ _)]

/-- The checks of `TKPUT` (20 R365). -/
def tkputFault (f : EFields) (s : State) (b t : Nat) : Option (Nat × Nat) :=
  if (s.block b).tiles.length ≤ f.rd.toNat then some (0x03, 0)
  else if (tileOf s b f.rd.toNat).owner ≠ some (waveOf s b t) then some (0x04, 0) else none

theorem execTkput_eq (f : EFields) (s : State) : execTkput f s = laneExecBy (.tkput f) (tkputFault f) (putOne f) s := rfl

theorem tkputFault_none {f : EFields} {s : State} {b t : Nat} (hn : f.rd.toNat < (s.block b).tiles.length)
    (ho : (tileOf s b f.rd.toNat).owner = some (homeWave (s.launchOf b) t)) : tkputFault f s b t = none := by
  unfold tkputFault
  rw [if_neg (Nat.not_le.2 hn)]
  exact if_neg (not_not.2 ho)

/-- A lane of a `TKPUT` of a block that is not COMPACT. -/
def putAct (f : EFields) (b t : Nat) (m : State) : State := returnToken b (waveOf m b t) f.rd.toNat m

theorem putOne_notCompact {f : EFields} {m : State} (h : (m.launchOf m.cur.block).compact = false) (t : Nat) :
    putOne f m t = goThread (.tkput f) (putAct f) m t := by
  unfold putOne
  dsimp only
  rw [h]
  rfl

theorem goThread_putAct_keeps {f : EFields} {s m : State} (h : OneBlock s.cur.block s m) (t : Nat) :
    OneBlock s.cur.block s (goThread (.tkput f) (putAct f) m t) := by
  unfold goThread
  dsimp only
  rw [h.cur]
  split
  · exact (h.modThread _ _).modTile _ _
  · exact h.modThread _ _

/-- In a block that is not COMPACT a `TKPUT` is a lane instruction of the usual form. -/
theorem execTkput_notCompact {f : EFields} {s : State} (h : Unhindered (.tkput f) s)
    (hf : OnAll (.tkput f) s fun t => tkputFault f s s.cur.block t = none) (hc : (s.launchOf s.cur.block).compact = false) :
    execTkput f s = laneExec (.tkput f) (tkputFault f) (putAct f) s :=
  (execTkput_eq f s).trans (laneExecBy_congr h hf (fun _ t hm => goThread_putAct_keeps hm t)
    fun m t hm => putOne_notCompact (by rw [hm.cur, hm.launchOf, hc]) t)

theorem tkput_returns {f : EFields} {s : State} (h : Unhindered (.tkput f) s)
    (hn : f.rd.toNat < (s.block s.cur.block).tiles.length)
    (ho : OnAll (.tkput f) s fun t => (tileOf s s.cur.block f.rd.toNat).owner = some (homeWave (s.launchOf s.cur.block) t))
    (hf : OnAll (.tkput f) s fun t => tkputFault f s s.cur.block t = none) (hc : (s.launchOf s.cur.block).compact = false) :
    ∃ t, exec (.tkput f) s = .next t ∧ MemorySame s t ∧ (∃ h, GroupStep (passed s) h s t) ∧
      (onTids (.tkput f) s ≠ [] → (tileOf t s.cur.block f.rd.toNat).owner = none) := by
  obtain ⟨t, ht, hs⟩ := laneExec_block (act := putAct f)
    (fun t => returnBlock f.rd.toNat (homeWave (s.launchOf s.cur.block) t)) h hf (fun _ _ _ => rfl) (fun _ _ => ⟨rfl, rfl⟩)
    fun t _ _ m _ hl _ => by rw [putAct, waveOf, hl]; rfl
  have htiles := hs.tiles_foldl (f := fun t => returnTile (homeWave (s.launchOf s.cur.block) t)) (n := fun _ => f.rd.toNat) fun _ _ => rfl
  refine ⟨t, (execTkput_notCompact h hf hc).trans ht, hs.memory_foldl fun _ _ => rfl, ⟨_, hs⟩, fun hne => ?_⟩
  rw [tileOf, htiles, foldl_modAt_getD_self _ hn]
  exact owner_foldl_returnTile hne fun t ht => ho t (mem_onTids.1 ht).1 (mem_onTids.1 ht).2

/-- A thread of a COMPACT block at a `TKPUT`. -/
def putThread (f : EFields) (cur : Cur) (on : Bool) (th : Thread) : Thread :=
  { stampThread cur.cyc th with st := .putWait on f.rd.toNat cur.len }

/-- A lane of a `TKPUT` of a COMPACT block. -/
def putLane (f : EFields) (m : State) (t : Nat) : State :=
  modThread m.cur.block t (putThread f m.cur (threadGuard (.tkput f) m m.cur.block t)) m

theorem putOne_compact {f : EFields} {m : State} (h : (m.launchOf m.cur.block).compact = true) (t : Nat) :
    putOne f m t = putLane f m t := by
  unfold putOne
  dsimp only
  rw [h]
  rfl

theorem tkput_waits {f : EFields} {s : State} (h : Unhindered (.tkput f) s)
    (hf : OnAll (.tkput f) s fun t => tkputFault f s s.cur.block t = none) (hc : (s.launchOf s.cur.block).compact = true) :
    ∃ t, exec (.tkput f) s = .next t ∧ GroupStep
      (fun tid => putThread f s.cur (threadGuard (.tkput f) s s.cur.block tid) (s.thread s.cur.block tid)) id s t := by
  obtain ⟨t, ht, hs⟩ := laneExecBy_threads (go := putLane f) (fun tid => putThread f s.cur (threadGuard (.tkput f) s s.cur.block tid)) h hf
    fun t m hcur hth => by simp only [putLane, threadGuard, hcur, hth]
  have heq : laneExecBy (.tkput f) (tkputFault f) (putOne f) s = laneExecBy (.tkput f) (tkputFault f) (putLane f) s :=
    laneExecBy_congr h hf (fun m t hm => by rw [putLane, hm.cur]; exact hm.modThread _ _)
      fun m t hm => putOne_compact (by rw [hm.cur, hm.launchOf, hc]) t
  exact ⟨t, (execTkput_eq f s).trans (heq.trans ht), hs⟩

theorem tkput_completes {f : EFields} {s : State} (h : Unhindered (.tkput f) s) :
    let b := s.cur.block
    f.rd.toNat < (s.block b).tiles.length →
    OnAll (.tkput f) s (fun t => (tileOf s b f.rd.toNat).owner = some (homeWave (s.launchOf b) t)) →
    ∃ t, exec (.tkput f) s = .next t ∧ MemorySame s t ∧
      (∀ tid, tid ∉ s.cur.tids → t.thread b tid = s.thread b tid) ∧
      ((s.launchOf b).compact = false →
        (∀ tid ∈ s.cur.tids, t.thread b tid = passed s tid) ∧
        (onTids (.tkput f) s ≠ [] → (tileOf t b f.rd.toNat).owner = none)) ∧
      ((s.launchOf b).compact = true →
        (∀ tid ∈ s.cur.tids, t.thread b tid = putThread f s.cur (threadGuard (.tkput f) s b tid) (s.thread b tid)) ∧
        (∀ tile, tileOf t b tile = tileOf s b tile)) ∧
      (∀ c, c ≠ b → t.block c = s.block c) ∧ t = { s with blocks := t.blocks } := by
  intro b hn ho
  have hf : OnAll (.tkput f) s fun t => tkputFault f s s.cur.block t = none := fun t ht hg => tkputFault_none hn (ho t ht hg)
  cases hc : (s.launchOf b).compact with
  | false =>
    obtain ⟨t, ht, hmem, ⟨k, hs⟩, howner⟩ := tkput_returns h hn ho hf hc
    exact ⟨t, ht, hmem, hs.threads, fun _ => ⟨hs.group, howner⟩, fun hc' => Bool.noConfusion hc', hs.others, hs.rest⟩
  | true =>
    obtain ⟨t, ht, hs⟩ := tkput_waits h hf hc
    obtain ⟨ths, pws, hown⟩ := hs.own
    have htiles : (t.block b).tiles = (s.block b).tiles := by rw [hown]; rfl
    exact ⟨t, ht, hs.memory rfl, hs.threads, fun hc' => Bool.noConfusion hc',
      fun _ => ⟨hs.group, fun tile => by rw [tileOf, htiles]; rfl⟩, hs.others, hs.rest⟩

/-! ### TOKEN_GRANT -/

/-- A change that makes some threads ready, and leaves a ready one, does nothing the second time. -/
theorem twice_of_ready {p : Thread → Thread} (h : ∀ th, p th = th ∨ (p th).st = .ready) (hr : ∀ th, th.st = .ready → p th = th)
    (th : Thread) : p (p th) = p th := by
  rcases h th with h | h
  · exact congrArg p h
  · exact hr _ h

/-- A thread that waits for a token passes. -/
def tokenPassed (th : Thread) : Thread := match th.st with
  | .tokWait _ len => { advancePc len th with st := .ready }
  | _ => th

theorem tokenPassed_wait {th : Thread} {x len : Nat} (h : th.st = .tokWait x len) :
    tokenPassed th = { advancePc len th with st := .ready } := by rw [tokenPassed, h]

theorem tokenPassed_twice (th : Thread) : tokenPassed (tokenPassed th) = tokenPassed th := by
  refine twice_of_ready (fun th => ?_) (fun th h => by rw [tokenPassed, h]) th
  unfold tokenPassed
  split
  · exact .inr rfl
  · exact .inl rfl

/-- The tile whose token is granted. -/
def grantTile (r : TokReq) (c : Tile) : Tile := { c with owner := some r.wave, reqs := c.reqs.erase r }

theorem execTokenGrant_some {b tile : Nat} {s : State} {r : TokReq} (h : nextReq s b tile = some r) :
    execTokenGrant b tile s = .next (r.tids.foldl (fun m t => modThread b t tokenPassed m) (modTile b tile (grantTile r) s)) := by
  unfold execTokenGrant
  rw [h]
  rfl

theorem tokenGrant_completes {b tile : Nat} {s : State} {r : TokReq} (hn : tile < (s.block b).tiles.length)
    (h : nextReq s b tile = some r) :
    ∃ t, exec (.tokenGrant b tile) s = .next t ∧ MemorySame s t ∧ (tileOf t b tile).owner = some r.wave ∧
      (∀ tid ∈ r.tids, ∀ x len, (s.thread b tid).st = .tokWait x len →
        (t.thread b tid).st = .ready ∧ (t.thread b tid).pc = (s.thread b tid).pc + BitVec.ofNat 64 len) ∧
      (∀ tid, tid ∉ r.tids → t.thread b tid = s.thread b tid) ∧
      (∀ c, c ≠ b → t.block c = s.block c) ∧ t = { s with blocks := t.blocks } := by
  have hone : OneBlock b s (r.tids.foldl (fun m t => modThread b t tokenPassed m) (modTile b tile (grantTile r) s)) :=
    ((OneBlock.refl b s).modTile _ _).foldl (fun m t hm => hm.modThread _ _) _
  have hth := fun u => thread_foldl_modThread_twice (b := b) tokenPassed_twice u r.tids (modTile b tile (grantTile r) s) fun _ _ => .inr rfl
  refine ⟨_, execTokenGrant_some h, hone.memory, ?_, fun tid hmem x len hst => ?_, fun tid hmem => ?_, hone.others, hone.rest⟩
  · rw [tileOf_foldl_modThread b (fun t => t) (fun _ => tokenPassed), tileOf_modTile_self hn]
    rfl
  · rw [hth, if_pos hmem, thread_modTile, tokenPassed_wait hst]
    exact ⟨rfl, rfl⟩
  · rw [hth, if_neg hmem, thread_modTile]

/-! ### TOKEN_RETURN -/

/-- A thread that waits at a `TKPUT` passes. -/
def putPassed (th : Thread) : Thread := match th.st with
  | .putWait _ _ len => { advancePc len th with st := .ready }
  | _ => th

theorem putPassed_wait {th : Thread} {on : Bool} {x len : Nat} (h : th.st = .putWait on x len) :
    putPassed th = { advancePc len th with st := .ready } := by rw [putPassed, h]

theorem putPassed_twice (th : Thread) : putPassed (putPassed th) = putPassed th := by
  refine twice_of_ready (fun th => ?_) (fun th h => by rw [putPassed, h]) th
  unfold putPassed
  split
  · exact .inr rfl
  · exact .inl rfl

/-- The living threads of a home wave. -/
def livingOf (s : State) (b w : Nat) : List Nat := (tidsOf (s.block b)).filter fun t => waveOf s b t = w && (s.thread b t).alive

/-- A thread waits at a `TKPUT` of the tile, at a pc. -/
def atPut (tile : Nat) (pc : DWord) (th : Thread) : Bool := match th.st with
  | .putWait _ x _ => x = tile && th.pc = pc
  | _ => false

/-- A thread waits at a `TKPUT` with a true guard. -/
def putsToken (th : Thread) : Bool := match th.st with
  | .putWait g _ _ => g
  | _ => false

theorem execTokenReturn_eq (b w tile : Nat) (s : State) : execTokenReturn b w tile s =
    let ts := livingOf s b w
    if ts ≠ [] ∧ ts.all (fun t => atPut tile (s.thread b (ts.headD 0)).pc (s.thread b t)) ∧
        (ts.any (fun t => putsToken (s.thread b t)) → aldPending s b w tile = false) then
      .next (ts.foldl (fun m t => modThread b t putPassed m)
        (if ts.any (fun t => putsToken (s.thread b t)) then returnToken b w tile s else s))
    else .next s := rfl

theorem atPut_wait {tile len : Nat} {pc : DWord} {on : Bool} {th : Thread} (h : th.st = .putWait on tile len) (hpc : th.pc = pc) :
    atPut tile pc th = true := by simp [atPut, h, hpc]

theorem putsToken_wait {tile len : Nat} {on : Bool} {th : Thread} (h : th.st = .putWait on tile len) : putsToken th = on := by
  rw [putsToken, h]

/-- The state before the threads pass. -/
def tokenBack (back : Bool) (b w tile : Nat) (s : State) : State := if back then returnToken b w tile s else s

/-- The token goes back: a thread of the home wave waits with a true guard. -/
def goesBack (s : State) (b w : Nat) : Bool := (livingOf s b w).any fun t => putsToken (s.thread b t)

/-- Where every living thread of the home wave waits at a `TKPUT` of the tile, the token goes back for one with a true guard. -/
theorem goesBack_iff {s : State} {b w tile : Nat}
    (h : ∀ tid ∈ livingOf s b w, ∃ on len, (s.thread b tid).st = .putWait on tile len) :
    goesBack s b w = true ↔ ∃ tid ∈ livingOf s b w, ∃ len, (s.thread b tid).st = .putWait true tile len := by
  refine List.any_eq_true.trans (exists_congr fun tid => and_congr_right fun hmem => ?_)
  obtain ⟨on, len, hst⟩ := h tid hmem
  rw [putsToken_wait hst, hst]
  simp

theorem execTokenReturn_passes {b w tile : Nat} {s : State} (hne : livingOf s b w ≠ [])
    (hthere : ∀ tid ∈ livingOf s b w, (s.thread b tid).pc = (s.thread b ((livingOf s b w).headD 0)).pc ∧
      ∃ on len, (s.thread b tid).st = .putWait on tile len)
    (hpend : goesBack s b w = true → aldPending s b w tile = false) :
    execTokenReturn b w tile s =
      .next ((livingOf s b w).foldl (fun m t => modThread b t putPassed m) (tokenBack (goesBack s b w) b w tile s)) := by
  have hall : (livingOf s b w).all (fun t => atPut tile (s.thread b ((livingOf s b w).headD 0)).pc (s.thread b t)) = true := by
    refine List.all_eq_true.2 fun tid hmem => ?_
    obtain ⟨hpc, on, len, hst⟩ := hthere tid hmem
    exact atPut_wait hst hpc
  exact (execTokenReturn_eq b w tile s).trans (if_pos ⟨hne, hall, hpend⟩)

theorem tokenBack_oneBlock (back : Bool) (b w tile : Nat) (s : State) : OneBlock b s (tokenBack back b w tile s) := by
  unfold tokenBack
  split
  · exact (OneBlock.refl b s).modTile _ _
  · exact OneBlock.refl b s

theorem thread_tokenBack (back : Bool) (b w tile : Nat) (s : State) (u : Nat) : (tokenBack back b w tile s).thread b u = s.thread b u := by
  unfold tokenBack
  split
  · exact thread_modTile ..
  · rfl

theorem tileOf_tokenBack_ne (back : Bool) {b w tile x : Nat} (s : State) (h : x ≠ tile) :
    tileOf (tokenBack back b w tile s) b x = tileOf s b x := by
  unfold tokenBack
  split
  · exact tileOf_modTile_ne h
  · rfl

theorem owner_tokenBack {b w tile : Nat} {s : State} (hn : tile < (s.block b).tiles.length) (h : (tileOf s b tile).owner = some w) :
    (tileOf (tokenBack true b w tile s) b tile).owner = none := by
  rw [tokenBack, if_pos rfl, returnToken, tileOf_modTile_self hn]
  exact if_pos h

theorem tokenReturn_completes {b w tile : Nat} {s : State} (hn : tile < (s.block b).tiles.length) :
    let ts := livingOf s b w
    ts ≠ [] → (tileOf s b tile).owner = some w →
    (∀ tid ∈ ts, (s.thread b tid).pc = (s.thread b (ts.headD 0)).pc ∧ ∃ on len, (s.thread b tid).st = .putWait on tile len) →
    ((∃ tid ∈ ts, ∃ len, (s.thread b tid).st = .putWait true tile len) → aldPending s b w tile = false) →
    ∃ t, exec (.tokenReturn b w tile) s = .next t ∧ MemorySame s t ∧
      ((∃ tid ∈ ts, ∃ len, (s.thread b tid).st = .putWait true tile len) → (tileOf t b tile).owner = none) ∧
      ((∀ tid ∈ ts, ∀ len, (s.thread b tid).st ≠ .putWait true tile len) → tileOf t b tile = tileOf s b tile) ∧
      (∀ x, x ≠ tile → tileOf t b x = tileOf s b x) ∧
      (∀ tid ∈ ts, ∀ on len, (s.thread b tid).st = .putWait on tile len →
        (t.thread b tid).st = .ready ∧ (t.thread b tid).pc = (s.thread b tid).pc + BitVec.ofNat 64 len) ∧
      (∀ tid, tid ∉ ts → t.thread b tid = s.thread b tid) ∧
      (∀ c, c ≠ b → t.block c = s.block c) ∧ t = { s with blocks := t.blocks } := by
  intro ts hne howner hthere hpend
  have hback := goesBack_iff fun tid hmem => (hthere tid hmem).2
  have hexec := execTokenReturn_passes hne hthere fun h => hpend (hback.1 h)
  have hone : OneBlock b s (ts.foldl (fun m t => modThread b t putPassed m) (tokenBack (goesBack s b w) b w tile s)) :=
    (tokenBack_oneBlock ..).foldl (fun m t hm => hm.modThread _ _) _
  have htile := tileOf_foldl_modThread b (fun t => t) (fun _ => putPassed) ts (tokenBack (goesBack s b w) b w tile s) b
  have hth := fun u => thread_foldl_modThread_twice (b := b) putPassed_twice u ts (tokenBack (goesBack s b w) b w tile s) fun _ _ => .inr rfl
  refine ⟨_, hexec, hone.memory, fun h => ?_, fun h => ?_, fun x hx => ?_, fun tid hmem on len hst => ?_, fun tid hmem => ?_,
    hone.others, hone.rest⟩
  · rw [htile, hback.2 h]
    exact owner_tokenBack hn howner
  · have hfalse : goesBack s b w = false := Bool.eq_false_iff.2 fun hb => by
      obtain ⟨tid, hmem, len, hst⟩ := hback.1 hb
      exact h tid hmem len hst
    rw [htile, hfalse]
    rfl
  · rw [htile]
    exact tileOf_tokenBack_ne _ s hx
  · rw [hth, if_pos hmem, thread_tokenBack, putPassed_wait hst]
    exact ⟨rfl, rfl⟩
  · rw [hth, if_neg hmem, thread_tokenBack]

/-- Settles O23: the requests of the lanes one after another, the two forms of `TKPUT` as two forms of the shared execution, the grant
and the return as a change of one tile and then of threads. -/
theorem tokensComplete : Obligations.TokensComplete := by
  unfold Obligations.TokensComplete
  exact ⟨fun f s h => tkget_completes h, fun f s h => tkput_completes h, fun b tile s r _ hn h => tokenGrant_completes hn h,
    fun b w tile s _ hn => tokenReturn_completes hn⟩

end Sys2Proof.Machine
end


section
/-!
PROOFS. Signing: what a lane of an `MMA` finds after the lanes before it, its sign, and the close of a set.
-/

namespace Sys2Proof.Machine

open Sys2Proof

/-! ### One sign -/

/-- The A registers of a signer, busy until the capture. -/
def signBusy (c inst issues : Nat) (g : Sig) : ABusy :=
  ⟨instKey c inst, if g.latched || g.aIdx = 0 then 512 else g.aIdx, g.opMark, issues, g.vb / 16, (g.vb + bBytes g.bt) / 16⟩

/-- A thread that signs. -/
def signThread (c inst issues : Nat) (g : Sig) (th : Thread) : Thread :=
  { th with aBusy := th.aBusy ++ [signBusy c inst issues g], signed := th.signed ++ [(c, inst)] }

/-- The block with a list of signatures in a cv. -/
def withSigs (c : Nat) (sigs : List Sig) (k : Block) : Block := { k with cvs := modAt (fun x => { x with sigs := sigs }) c k.cvs }

/-- The `MInst` that a close makes. -/
def closedInst (b c inst : Nat) (cur : Cur) (sigs : List Sig) (g : Sig) : MInst :=
  ⟨inst, b, c, g.tile, sigs.length, sigs, cur.cyc, cur.pc, none, 0⟩

/-- A cv after a close. -/
def openCv (sigs : List Sig) (g : Sig) (x : Cv) : Cv :=
  { x with sigs := [], inst := x.inst + 1, latch := if g.ret = 1 then sigs.map fun y => (y.rank, y.aIdx) else [] }

/-- The block after a close: the rollback interval has ended, the cv is OPEN. -/
def closeBlock (c : Nat) (sigs : List Sig) (g : Sig) (k : Block) : Block :=
  { k.performLog with rollable := false, cvs := modAt (openCv sigs g) c k.cvs }

theorem closeSet_eq (b c : Nat) (sigs : List Sig) (g : Sig) (s : State) : closeSet b c sigs g s =
    modBlock b (closeBlock c sigs g)
      (modCore (s.block b).core (fun k => { k with mq := addInst (closedInst b c (cvOf s b c).inst s.cur sigs g) k.mq }) s) :=
  modBlock_modBlock b (fun k => { k with cvs := modAt (openCv sigs g) c k.cvs }) (fun k => { k.performLog with rollable := false })
    (modCore (s.block b).core (fun k => { k with mq := addInst (closedInst b c (cvOf s b c).inst s.cur sigs g) k.mq }) s)

/-- A sign that leaves the set open. -/
theorem signOne_joins {f : EFields} {b t first n : Nat} {m : State} {g : Sig} (hset : (cvOf m b f.rc.toNat).set = some (first, n))
    (hg : sigOf f (shapeOf (.mma f)) m b t (t - first) = g) (hf : signFault m b t (cvOf m b f.rc.toNat) g = none)
    (hn : (cvOf m b f.rc.toNat).sigs.length + 1 ≠ n) :
    signOne f b t m = (none, modBlock b (withSigs f.rc.toNat ((cvOf m b f.rc.toNat).sigs ++ [g]))
      (modThread b t (signThread f.rc.toNat (cvOf m b f.rc.toNat).inst (m.block b).issues g) m)) := by
  have hopen : decide (((cvOf m b f.rc.toNat).sigs ++ [g]).length = n) = false := by simpa using hn
  unfold signOne
  simp only [hset, Option.getD_some, hg, hf, hopen]
  rfl

/-- The last sign of a set, whose operands are those of the others and whose tile the engine holds. -/
theorem signOne_closes {f : EFields} {b t first n : Nat} {m : State} {g : Sig} (hset : (cvOf m b f.rc.toNat).set = some (first, n))
    (hg : sigOf f (shapeOf (.mma f)) m b t (t - first) = g) (hf : signFault m b t (cvOf m b f.rc.toNat) g = none)
    (hn : (cvOf m b f.rc.toNat).sigs.length + 1 = n) (hops : ∀ x ∈ (cvOf m b f.rc.toNat).sigs, sameOps g x = true)
    (hown : (tileOf m b g.tile).ownerS = none) :
    signOne f b t m = (none, closeSet b f.rc.toNat ((cvOf m b f.rc.toNat).sigs ++ [g]) g
      (modThread b t (signThread f.rc.toNat (cvOf m b f.rc.toNat).inst (m.block b).issues g) m)) := by
  have hlast : decide (((cvOf m b f.rc.toNat).sigs ++ [g]).length = n) = true := by simpa using hn
  have hself : sameOps g g = true := by simp [sameOps]
  have hall : ((cvOf m b f.rc.toNat).sigs ++ [g]).all (sameOps g) = true := by
    rw [List.all_append, List.all_eq_true.2 hops]
    simp [hself]
  unfold signOne
  simp only [hset, Option.getD_some, hg, hf, hlast, hall, hown]
  rfl

/-! ### What a lane of an `MMA` finds -/

/-- The cv of an `MMA`, and the signature of a thread, as the group finds them. -/
abbrev mmaCv (f : EFields) (s : State) : Cv := cvOf s s.cur.block f.rc.toNat
abbrev mmaSig (f : EFields) (s : State) (first t : Nat) : Sig := sigOf f (shapeOf (.mma f)) s s.cur.block t (t - first)

/-- The lanes before have left the thread as it was, and of its block they have changed threads and the signatures of the cv. -/
structure SignTurn (f : EFields) (s : State) (sigs : List Sig) (t : Nat) (m : State) : Prop where
  cur : m.cur = s.cur
  thread : m.thread s.cur.block t = s.thread s.cur.block t
  block : ∃ ths, m.block s.cur.block = { withSigs f.rc.toNat sigs (s.block s.cur.block) with threads := ths }
  launch : m.launchOf s.cur.block = s.launchOf s.cur.block

theorem Midway.signTurn {f : EFields} {g : Nat → Thread} {s m : State} {sigs : List Sig} {done : List Nat} {t : Nat}
    (h : Midway g (withSigs f.rc.toNat sigs) s done m) (ht : t ∉ done) : SignTurn f s sigs t m := by
  obtain ⟨hrest, -, -, ⟨ths, -, hown⟩, -, hth⟩ := h
  exact ⟨by rw [hrest], hth t ht, ⟨ths, hown⟩, by rw [State.launchOf, hown, hrest]; rfl⟩

section
variable {f : EFields} {s m : State} {sigs : List Sig} {t : Nat} (h : SignTurn f s sigs t m)
include h

theorem SignTurn.guard : threadGuard (.mma f) m s.cur.block t = threadGuard (.mma f) s s.cur.block t := by
  rw [threadGuard, h.thread]
  rfl

theorem SignTurn.cv (hc : f.rc.toNat < (s.block s.cur.block).cvs.length) :
    cvOf m s.cur.block f.rc.toNat = { mmaCv f s with sigs := sigs } := by
  obtain ⟨ths, hown⟩ := h.block
  rw [cvOf, hown]
  exact modAt_getD_self _ _ _ _ hc

theorem SignTurn.covers (reg : Nat) :
    latchCovers (m.block s.cur.block) f.rc.toNat t reg = latchCovers (s.block s.cur.block) f.rc.toNat t reg := by
  obtain ⟨ths, hown⟩ := h.block
  rw [hown]
  unfold latchCovers withSigs
  dsimp only
  rcases modAt_getD_or (fun x : Cv => { x with sigs := sigs }) default f.rc.toNat f.rc.toNat (s.block s.cur.block).cvs with hcv | hcv
  · rw [hcv]
  · rw [hcv]

theorem SignTurn.shape : threadShape (.mma f) m s.cur.block t = threadShape (.mma f) s s.cur.block t := by
  have hcov := h.covers f.ra.toNat
  show (if latchCovers (m.block s.cur.block) f.rc.toNat t f.ra.toNat then _ else _) = _
  rw [hcov]
  rfl

theorem SignTurn.ready : threadNotReady (.mma f) m s.cur.block t = threadNotReady (.mma f) s s.cur.block t := by
  unfold threadNotReady
  rw [h.shape, h.thread]

theorem SignTurn.waits (l : List Nat) :
    threadWaits (.mma f) m s.cur.block l t = threadWaits (.mma f) s s.cur.block s.cur.tids t := by
  unfold threadWaits operandWait
  rw [h.shape, h.thread, h.guard]
  rfl

theorem SignTurn.sig (rank : Nat) :
    sigOf f (shapeOf (.mma f)) m s.cur.block t rank = sigOf f (shapeOf (.mma f)) s s.cur.block t rank := by
  unfold sigOf
  rw [h.thread, h.covers]

theorem SignTurn.fault (v : Cv) (g : Sig) : signFault m s.cur.block t v g = signFault s s.cur.block t v g := by
  obtain ⟨ths, hown⟩ := h.block
  unfold signFault waveOf
  rw [h.launch, hown]
  rfl

theorem SignTurn.issues : (m.block s.cur.block).issues = (s.block s.cur.block).issues := by
  obtain ⟨ths, hown⟩ := h.block
  rw [hown]
  rfl

theorem SignTurn.core : (m.block s.cur.block).core = (s.block s.cur.block).core := by
  obtain ⟨ths, hown⟩ := h.block
  rw [hown]
  rfl

theorem SignTurn.tile (x : Nat) : tileOf m s.cur.block x = tileOf s s.cur.block x := by
  obtain ⟨ths, hown⟩ := h.block
  rw [tileOf, hown]
  rfl

end

/-- Signatures of other threads do not stop a sign. -/
theorem signFault_append {s : State} {b t : Nat} {v : Cv} {g : Sig} {sigs : List Sig} (h : signFault s b t v g = none)
    (hother : ∀ x ∈ sigs, x.tid ≠ t) : signFault s b t { v with sigs := v.sigs ++ sigs } g = none := by
  have hany : ((v.sigs ++ sigs).any fun x => x.tid = t) = v.sigs.any fun x => x.tid = t := by
    have hsigs : (sigs.any fun x => x.tid = t) = false := List.any_eq_false.2 fun x hx => by simpa using hother x hx
    rw [List.any_append, hsigs, Bool.or_false]
  unfold signFault
  dsimp only
  rw [hany]
  exact h

/-! ### The lanes one after another -/

/-- A thread of an `MMA`: past it, and a signer where its guard is true. -/
def mmaThread (f : EFields) (s : State) (first : Nat) : Nat → Thread :=
  guarded (.mma f) (fun t => signThread f.rc.toNat (mmaCv f s).inst (s.block s.cur.block).issues
    (mmaSig f s first t)) s

/-- The lanes of `done` that sign, and their signatures. -/
def signers (f : EFields) (s : State) (first : Nat) (done : List Nat) : List Sig :=
  (done.filter fun t => threadGuard (.mma f) s s.cur.block t).map fun t => mmaSig f s first t

/-- A lane with a false guard passes. -/
theorem Midway.passLane {i : Instr} {one : Nat → Nat → State → Option (Nat × Nat) × State} {g : Nat → Thread} {k : Block → Block}
    {s m : State} {done : List Nat} {t : Nat} (h : Midway g k s done m) (hb : s.cur.block < s.blocks.length)
    (ht : t < (s.block s.cur.block).threads.length) (hd : t ∉ done) (hgt : g t = passed s t)
    (hguard : threadGuard i s s.cur.block t = false) :
    LaneGoes i one s.cur.block t m (passLane s.cur.block m t) ∧ Midway g k s (done ++ [t]) (passLane s.cur.block m t) := by
  have hcur : m.cur = s.cur := by rw [h.rest]
  refine ⟨.inl ⟨by rw [threadGuard, h.threads t hd]; exact hguard, rfl⟩, ?_⟩
  have hmore := h.more id hb ht (fun _ _ => rfl) (fun th => stampThread s.cur.cyc (advancePc s.cur.len th)) (fun _ => hgt.symm) hd
  rw [modBlock_id] at hmore
  rw [Machine.passLane, hcur]
  exact hmore

end Sys2Proof.Machine
end


section
/-!
PROOFS. `MMA`: the lanes of the group one after another, each of which joins the set or closes it, and what they leave of the cv, of the
threads and of the queue of the core.
-/

namespace Sys2Proof.Machine

open Sys2Proof

theorem Midway.congr {g : Nat → Thread} {h k : Block → Block} {s m : State} {done : List Nat} (hm : Midway g h s done m)
    (hk : h (s.block s.cur.block) = k (s.block s.cur.block)) : Midway g k s done m := by
  obtain ⟨hrest, hcount, hothers, hown, hgroup, hthreads⟩ := hm
  exact ⟨hrest, hcount, hothers, hk ▸ hown, hgroup, hthreads⟩

theorem withSigs_same (s : State) (b c : Nat) : withSigs c (cvOf s b c).sigs (s.block b) = s.block b := by
  have hcvs : modAt (fun x : Cv => { x with sigs := (cvOf s b c).sigs }) c (s.block b).cvs = (s.block b).cvs := by
    refine List.ext_getElem? fun n => ?_
    rw [modAt_getElem?]
    split
    · next hn =>
      subst hn
      rw [cvOf, List.getD_eq_getElem?_getD]
      cases (s.block b).cvs[n]? <;> rfl
    · rfl
  rw [withSigs, hcvs]

theorem withSigs_withSigs (c : Nat) (sigs sigs' : List Sig) : withSigs c sigs ∘ withSigs c sigs' = withSigs c sigs :=
  funext fun k => congrArg (fun cvs => { k with cvs := cvs }) (modAt_modAt ..)

theorem closeBlock_withSigs (c : Nat) (sigs sigs' : List Sig) (g : Sig) : closeBlock c sigs g ∘ withSigs c sigs' = closeBlock c sigs g :=
  funext fun k => congrArg (fun cvs => { k.performLog with rollable := false, cvs := cvs }) (modAt_modAt ..)

/-- A lane changes its thread, then its block, then passes. -/
theorem passLane_acted {b t : Nat} {k : Block → Block} (hk : ∀ x ths, k { x with threads := ths } = { k x with threads := ths })
    (u : Thread → Thread) (m : State) : passLane b (modBlock b k (modThread b t u m)) t =
      modThread b t ((fun th => stampThread m.cur.cyc (advancePc m.cur.len th)) ∘ u) (modBlock b k m) := by
  rw [modBlock_modThread b t k u m hk, passLane, modThread_modThread]
  rfl

@[simp] theorem cvOf_modThread (b t : Nat) (u : Thread → Thread) (m : State) (c : Nat) : cvOf (modThread b t u m) b c = cvOf m b c := by
  rw [cvOf, block_modThread]
  split <;> rfl

theorem core_modThread (b t : Nat) (u : Thread → Thread) (m : State) : ((modThread b t u m).block b).core = (m.block b).core := by
  rw [block_modThread]
  split <;> rfl

/-- A lane changes its thread, closes the set, then passes. -/
theorem passLane_closed (b c t : Nat) (sigs : List Sig) (g : Sig) (u : Thread → Thread) (m : State) :
    passLane b (closeSet b c sigs g (modThread b t u m)) t =
      modCore (m.block b).core (fun k => { k with mq := addInst (closedInst b c (cvOf m b c).inst m.cur sigs g) k.mq })
        (modThread b t ((fun th => stampThread m.cur.cyc (advancePc m.cur.len th)) ∘ u) (modBlock b (closeBlock c sigs g) m)) := by
  rw [closeSet_eq, core_modThread, cvOf_modThread, ← passLane_acted fun _ _ => rfl]
  rfl

/-- A signer passes. -/
def signerPasses (f : EFields) (s : State) (g : Sig) : Thread → Thread :=
  (fun th => stampThread s.cur.cyc (advancePc s.cur.len th)) ∘ signThread f.rc.toNat (mmaCv f s).inst (s.block s.cur.block).issues g

section
variable {f : EFields} {s : State} {first n : Nat}

theorem mmaThread_on {t : Nat} (hg : threadGuard (.mma f) s s.cur.block t = true) : mmaThread f s first t =
    signThread f.rc.toNat (mmaCv f s).inst (s.block s.cur.block).issues (mmaSig f s first t) (passed s t) := if_pos hg

theorem mmaThread_off {t : Nat} (hg : threadGuard (.mma f) s s.cur.block t = false) : mmaThread f s first t = passed s t :=
  if_neg (Bool.eq_false_iff.1 hg)

theorem mmaThread_pc_vals (t : Nat) : (mmaThread f s first t).pc = (passed s t).pc ∧
    (mmaThread f s first t).vals = (s.thread s.cur.block t).vals := by
  cases hg : threadGuard (.mma f) s s.cur.block t with
  | true => rw [mmaThread_on hg]; exact ⟨rfl, rfl⟩
  | false => rw [mmaThread_off hg]; exact ⟨rfl, rfl⟩

theorem signers_append_on {t : Nat} (done : List Nat) (hg : threadGuard (.mma f) s s.cur.block t = true) :
    signers f s first (done ++ [t]) = signers f s first done ++ [mmaSig f s first t] := by
  simp [signers, List.filter_append, hg]

theorem signers_append_off {t : Nat} (done : List Nat) (hg : threadGuard (.mma f) s s.cur.block t = false) :
    signers f s first (done ++ [t]) = signers f s first done := by
  simp [signers, List.filter_append, hg]

theorem tid_of_mem_signers {done : List Nat} {x : Sig} (hx : x ∈ signers f s first done) : x.tid ∈ done := by
  obtain ⟨t, ht, rfl⟩ := List.mem_map.1 hx
  exact List.mem_of_mem_filter ht

/-- While the set is open: the lanes of `done` have signed. -/
abbrev Signing (f : EFields) (s : State) (first : Nat) (done : List Nat) (m : State) : Prop :=
  Midway (mmaThread f s first) (withSigs f.rc.toNat ((mmaCv f s).sigs ++ signers f s first done)) s done m

theorem Signing.start (f : EFields) (s : State) (first : Nat) : Signing f s first [] s := by
  have hsame : withSigs f.rc.toNat ((mmaCv f s).sigs ++ signers f s first []) (s.block s.cur.block) = s.block s.cur.block := by
    rw [show signers f s first [] = [] from rfl, List.append_nil]
    exact withSigs_same ..
  exact (Midway.start _ s).congr hsame.symm

/-- The next lane joins. -/
theorem Signing.joins {m : State} {done : List Nat} {t : Nat} (h : Unhindered (.mma f) s) (hm : Signing f s first done m)
    (ht : t ∈ s.cur.tids) (hd : t ∉ done) (hg : threadGuard (.mma f) s s.cur.block t = true)
    (hc : f.rc.toNat < (s.block s.cur.block).cvs.length) (hset : (mmaCv f s).set = some (first, n))
    (hn : ((mmaCv f s).sigs ++ signers f s first done).length + 1 ≠ n)
    (hf : signFault s s.cur.block t (mmaCv f s) (mmaSig f s first t) = none) :
    ∃ m', LaneGoes (.mma f) (signOne f) s.cur.block t m m' ∧ Signing f s first (done ++ [t]) m' := by
  obtain ⟨⟨hb, -, -, hlen⟩, -, hwait⟩ := h
  have hturn := hm.signTurn hd
  have hcv := hturn.cv hc
  obtain ⟨hready, hwaits⟩ := (hwait t ht).2 hg
  have hfault := signFault_append (sigs := signers f s first done) hf fun x hx => ne_of_mem_of_not_mem (tid_of_mem_signers hx) hd
  have hone := signOne_joins (f := f) (b := s.cur.block) (m := m) (n := n) (by rw [hcv]; exact hset) (hturn.sig _)
    (by rw [hcv, hturn.fault]; exact hfault) (by rw [hcv]; exact hn)
  refine ⟨_, .inr ⟨hturn.guard.trans hg, hturn.ready.trans hready, (hturn.waits _).trans hwaits, _, hone, rfl⟩, ?_⟩
  rw [passLane_acted fun _ _ => rfl, hcv, hturn.issues, hturn.cur]
  have hmore := hm.more (withSigs f.rc.toNat ((mmaCv f s).sigs ++ signers f s first done ++ [mmaSig f s first t])) hb (hlen t ht).1
    (fun _ _ => rfl) (signerPasses f s (mmaSig f s first t)) (fun _ => (mmaThread_on hg).symm) hd
  exact hmore.congr (by rw [withSigs_withSigs, List.append_assoc, signers_append_on done hg])

/-- A lane with a false guard leaves the set as it is. -/
theorem Signing.passes {m : State} {done : List Nat} {t : Nat} (h : Unhindered (.mma f) s) (hm : Signing f s first done m)
    (ht : t ∈ s.cur.tids) (hd : t ∉ done) (hg : threadGuard (.mma f) s s.cur.block t = false) :
    ∃ m', LaneGoes (.mma f) (signOne f) s.cur.block t m m' ∧ Signing f s first (done ++ [t]) m' := by
  obtain ⟨hb, -, -, hlen⟩ := h.1
  obtain ⟨hgo, hm'⟩ := hm.passLane (one := signOne f) hb (hlen t ht).1 hd (mmaThread_off hg) hg
  refine ⟨_, hgo, ?_⟩
  rwa [← signers_append_off (first := first) done hg] at hm'

/-! ### Signs without a close -/

/-- A lane of a group is not among those before it. -/
theorem not_mem_of_nodup_append {i : Instr} (h : Unhindered i s) {done rest : List Nat} {t : Nat} (hl : s.cur.tids = done ++ t :: rest) :
    t ∉ done := by
  obtain ⟨⟨-, -, hnd, -⟩, -, -⟩ := h
  rw [hl] at hnd
  exact fun hmem => List.disjoint_of_nodup_append hnd hmem (List.mem_cons_self ..)

theorem mma_signs_steps (h : Unhindered (.mma f) s) (hc : f.rc.toNat < (s.block s.cur.block).cvs.length)
    (hset : (mmaCv f s).set = some (first, n)) (hn : (mmaCv f s).sigs.length + (onTids (.mma f) s).length < n)
    (hf : OnAll (.mma f) s fun t => signFault s s.cur.block t (mmaCv f s) (mmaSig f s first t) = none) :
    ∃ t, exec (.mma f) s = .next t ∧ GroupStep (mmaThread f s first)
      (withSigs f.rc.toNat ((mmaCv f s).sigs ++ signers f s first s.cur.tids)) s t := by
  obtain ⟨m, hexec, hm⟩ := seqExec_next (stop := false) (one := signOne f) (P := Signing f s first) h (.start f s first)
    fun done t rest m hl hm => by
      have ht : t ∈ s.cur.tids := by simp [hl]
      have hd : t ∉ done := not_mem_of_nodup_append h hl
      cases hg : threadGuard (.mma f) s s.cur.block t with
      | false => exact hm.passes h ht hd hg
      | true =>
        refine hm.joins h ht hd hg hc hset ?_ (hf t ht hg)
        have hle : (done.filter fun t => threadGuard (.mma f) s s.cur.block t).length + 1 ≤ (onTids (.mma f) s).length := by
          rw [onTids, hl, List.filter_append, List.filter_cons, if_pos hg, List.length_append, List.length_cons]
          omega
        rw [List.length_append, signers, List.length_map]
        omega
  exact ⟨_, hexec, noteIssue_group _ h.1.1 hm rfl⟩

/-! ### The close -/

/-- The machine with the `MInst` of a close in the queue of the core. -/
def closedState (f : EFields) (s : State) (g : Sig) : State :=
  let i := closedInst s.cur.block f.rc.toNat (mmaCv f s).inst s.cur ((mmaCv f s).sigs ++ [g]) g
  modCore (s.block s.cur.block).core (fun k => { k with mq := addInst i k.mq }) s

theorem mem_addInst (i : MInst) (q : List MInst) : i ∈ addInst i q := List.mem_append_right _ (List.mem_cons_self ..)

theorem closedInst_mem {g : Sig} (h : (s.block s.cur.block).core < s.cores.length) :
    closedInst s.cur.block f.rc.toNat (mmaCv f s).inst s.cur ((mmaCv f s).sigs ++ [g]) g ∈
      ((closedState f s g).core (s.block s.cur.block).core).mq := by
  have hself : (closedState f s g).core (s.block s.cur.block).core = _ := modAt_getD_self _ default _ s.cores h
  rw [hself]
  exact mem_addInst ..

/-- A change of a core goes with a state midway. -/
theorem Midway.modCore {g : Nat → Thread} {k : Block → Block} {m : State} {done : List Nat} (h : Midway g k s done m) (core : Nat)
    (u : Core → Core) : Midway g k (modCore core u s) done (modCore core u m) := by
  obtain ⟨hrest, hcount, hothers, hown, hgroup, hthreads⟩ := h
  exact ⟨by rw [hrest]; rfl, hcount, hothers, hown, hgroup, hthreads⟩

/-- Once the set is closed. -/
abbrev Closed (f : EFields) (s : State) (first : Nat) (g : Sig) (done : List Nat) (m : State) : Prop :=
  Midway (mmaThread f s first) (closeBlock f.rc.toNat ((mmaCv f s).sigs ++ [g]) g) (closedState f s g) done m

/-- The lane that signs last closes the set. -/
theorem Signing.closes {m : State} {done : List Nat} {t : Nat} (h : Unhindered (.mma f) s) (hm : Signing f s first done m)
    (ht : t ∈ s.cur.tids) (hd : t ∉ done) (hg : threadGuard (.mma f) s s.cur.block t = true)
    (hc : f.rc.toNat < (s.block s.cur.block).cvs.length) (hset : (mmaCv f s).set = some (first, n))
    (hnone : signers f s first done = []) (hn : (mmaCv f s).sigs.length + 1 = n)
    (hf : signFault s s.cur.block t (mmaCv f s) (mmaSig f s first t) = none)
    (hops : ∀ x ∈ (mmaCv f s).sigs, sameOps (mmaSig f s first t) x = true)
    (hown : (tileOf s s.cur.block f.rd.toNat).ownerS = none) :
    ∃ m', LaneGoes (.mma f) (signOne f) s.cur.block t m m' ∧
      Closed f s first (mmaSig f s first t) (done ++ [t]) m' := by
  obtain ⟨⟨hb, -, -, hlen⟩, -, hwait⟩ := h
  have hm := hm.congr (k := withSigs f.rc.toNat (mmaCv f s).sigs) (by rw [hnone, List.append_nil])
  have hturn := hm.signTurn hd
  have hcv := hturn.cv hc
  obtain ⟨hready, hwaits⟩ := (hwait t ht).2 hg
  have hone := signOne_closes (f := f) (b := s.cur.block) (m := m) (n := n) (by rw [hcv]; exact hset) (hturn.sig _)
    (by rw [hcv, hturn.fault]; exact hf) (by rw [hcv]; exact hn) (by rw [hcv]; exact hops) ((congrArg Tile.ownerS (hturn.tile _)).trans hown)
  refine ⟨_, .inr ⟨hturn.guard.trans hg, hturn.ready.trans hready, (hturn.waits _).trans hwaits, _, hone, rfl⟩, ?_⟩
  rw [passLane_closed, hcv, hturn.issues, hturn.cur, hturn.core]
  have hmore := hm.more (closeBlock f.rc.toNat ((mmaCv f s).sigs ++ [mmaSig f s first t]) (mmaSig f s first t)) hb (hlen t ht).1
    (fun _ _ => rfl) (signerPasses f s (mmaSig f s first t)) (fun _ => (mmaThread_on hg).symm) hd
  exact (hmore.congr (by rw [closeBlock_withSigs])).modCore _ _

/-- A lane with a false guard leaves the closed set as it is. -/
theorem Closed.passes {m : State} {g : Sig} {done : List Nat} {t : Nat} (h : Unhindered (.mma f) s) (hm : Closed f s first g done m)
    (ht : t ∈ s.cur.tids) (hd : t ∉ done) (hg : threadGuard (.mma f) s s.cur.block t = false) :
    ∃ m', LaneGoes (.mma f) (signOne f) s.cur.block t m m' ∧ Closed f s first g (done ++ [t]) m' := by
  obtain ⟨hb, -, -, hlen⟩ := h.1
  exact ⟨_, Midway.passLane hm hb (hlen t ht).1 hd (mmaThread_off hg) hg⟩

theorem signers_nil {done : List Nat} (h : ∀ t ∈ done, threadGuard (.mma f) s s.cur.block t = false) : signers f s first done = [] := by
  have hfilter : (done.filter fun t => threadGuard (.mma f) s s.cur.block t) = [] :=
    List.filter_eq_nil_iff.2 fun t ht => Bool.eq_false_iff.1 (h t ht)
  rw [signers, hfilter, List.map_nil]

theorem mma_closes_steps {tid : Nat} (h : Unhindered (.mma f) s) (hc : f.rc.toNat < (s.block s.cur.block).cvs.length)
    (hon : onTids (.mma f) s = [tid]) (hset : (mmaCv f s).set = some (first, n))
    (hn : (mmaCv f s).sigs.length + 1 = n)
    (hf : signFault s s.cur.block tid (mmaCv f s) (mmaSig f s first tid) = none)
    (hops : ∀ x ∈ (mmaCv f s).sigs, sameOps (mmaSig f s first tid) x = true)
    (hown : (tileOf s s.cur.block f.rd.toNat).ownerS = none) :
    let g := mmaSig f s first tid
    ∃ t, exec (.mma f) s = .next t ∧ GroupStep (mmaThread f s first)
      (closeBlock f.rc.toNat ((mmaCv f s).sigs ++ [g]) g) (closedState f s g) t := by
  intro g
  have htid : ∀ t ∈ s.cur.tids, threadGuard (.mma f) s s.cur.block t = true → t = tid := fun t ht hg =>
    List.mem_singleton.1 (hon ▸ mem_onTids.2 ⟨ht, hg⟩)
  obtain ⟨hmem, hguard⟩ := mem_onTids.1 (hon ▸ List.mem_singleton.2 rfl : tid ∈ onTids (.mma f) s)
  obtain ⟨m, hexec, hm⟩ := seqExec_next (stop := false) (one := signOne f)
    (P := fun done m => tid ∉ done ∧ Signing f s first done m ∨ tid ∈ done ∧ Closed f s first g done m) h
    (.inl ⟨List.not_mem_nil, .start f s first⟩) fun done t rest m hl hm => by
      have ht : t ∈ s.cur.tids := by simp [hl]
      have hd : t ∉ done := not_mem_of_nodup_append h hl
      rcases hm with ⟨hopen, hm⟩ | ⟨hclosed, hm⟩
      · cases hg : threadGuard (.mma f) s s.cur.block t with
        | false =>
          have hne : tid ≠ t := fun heq => by rw [← heq, hguard] at hg; cases hg
          obtain ⟨m', hgo, hm'⟩ := hm.passes h ht hd hg
          exact ⟨m', hgo, .inl ⟨by simp [hopen, hne], hm'⟩⟩
        | true =>
          obtain rfl := htid t ht hg
          have hnone : signers f s first done = [] := signers_nil fun u hu => Bool.eq_false_iff.2 fun hgu =>
            hd (htid u (by simp [hl, hu]) hgu ▸ hu)
          obtain ⟨m', hgo, hm'⟩ := hm.closes h ht hd hg hc hset hnone hn hf hops hown
          exact ⟨m', hgo, .inr ⟨by simp, hm'⟩⟩
      · have hg : threadGuard (.mma f) s s.cur.block t = false := Bool.eq_false_iff.2 fun hgt => hd (htid t ht hgt ▸ hclosed)
        obtain ⟨m', hgo, hm'⟩ := Closed.passes h hm ht hd hg
        exact ⟨m', hgo, .inr ⟨by simp [hclosed], hm'⟩⟩
  obtain ⟨habsent, -⟩ | ⟨-, hm⟩ := hm
  · exact absurd hmem habsent
  · exact ⟨_, hexec, noteIssue_group (s := closedState f s g) _ h.1.1 hm rfl⟩

/-! ### The cv and the threads that the two leave -/

theorem cvOf_withSigs {g : Nat → Thread} {r : State} {c : Nat} {sigs : List Sig} (hs : GroupStep g (withSigs c sigs) s r)
    (hc : c < (s.block s.cur.block).cvs.length) : cvOf r s.cur.block c = { cvOf s s.cur.block c with sigs := sigs } := by
  obtain ⟨ths, pws, hown⟩ := hs.own
  rw [cvOf, hown]
  exact modAt_getD_self _ _ _ _ hc

theorem cvOf_withSigs_ne {g : Nat → Thread} {r : State} {c c' : Nat} {sigs : List Sig} (hs : GroupStep g (withSigs c sigs) s r)
    (hne : c' ≠ c) : cvOf r s.cur.block c' = cvOf s s.cur.block c' := by
  obtain ⟨ths, pws, hown⟩ := hs.own
  rw [cvOf, hown]
  exact modAt_getD_ne _ _ _ _ _ hne

theorem cvOf_closeBlock {g : Nat → Thread} {r : State} {c : Nat} {sigs : List Sig} {x : Sig} (hs : GroupStep g (closeBlock c sigs x) s r)
    (hc : c < (s.block s.cur.block).cvs.length) : cvOf r s.cur.block c = openCv sigs x (cvOf s s.cur.block c) := by
  obtain ⟨ths, pws, hown⟩ := hs.own
  rw [cvOf, hown]
  exact modAt_getD_self _ _ _ _ hc

/-- The hold of a signer, from its operands. -/
theorem signBusy_sigOf (c inst issues : Nat) (b t rank : Nat) :
    let g := sigOf f (shapeOf (.mma f)) s b t rank
    signBusy c inst issues g = ⟨instKey c inst,
      if latchCovers (s.block b) f.rc.toNat t f.ra.toNat ∨ f.ra = 0 then 512 else f.ra.toNat, (s.thread b t).nextId, issues,
      g.vb / 16, (g.vb + bBytes g.bt) / 16⟩ := by
  have hzero : f.ra.toNat = 0 ↔ f.ra = 0 := by rw [← BitVec.toNat_inj]; rfl
  intro g
  have hreg : (if g.latched || g.aIdx = 0 then 512 else g.aIdx) =
      if latchCovers (s.block b) f.rc.toNat t f.ra.toNat ∨ f.ra = 0 then 512 else f.ra.toNat :=
    if_congr (by rw [Bool.or_eq_true, decide_eq_true_eq]; exact or_congr_right hzero) rfl rfl
  rw [signBusy, hreg]
  rfl

end

/-- Settles O21: the lanes one after another, each of which finds the signatures of those before it; the lane that signs last closes. -/
theorem mmaSignsAndCloses : Obligations.MmaSignsAndCloses := by
  unfold Obligations.MmaSignsAndCloses
  refine ⟨fun f s first n h => ?_, fun f s first n tid h => ?_⟩
  · intro sh b c cv on hc hset hn hf
    obtain ⟨t, ht, hs⟩ := mma_signs_steps h hc hset hn hf
    have hcv := cvOf_withSigs hs hc
    refine ⟨t, ht, hs.memory rfl, congrArg Cv.sigs hcv, (congrArg Cv.set hcv :), fun c' hne => cvOf_withSigs_ne hs hne,
      fun tid hmem hg => ?_, fun tid hmem => ?_, hs.threads, hs.others, hs.rest⟩
    · have hth : t.thread b tid = _ := (hs.group tid hmem).trans (mmaThread_on hg)
      refine ⟨hth ▸ List.mem_append_right _ (List.mem_singleton.2 rfl), (congrArg Thread.aBusy hth).trans ?_⟩
      exact congrArg (fun a => (s.thread b tid).aBusy ++ [a]) (signBusy_sigOf ..)
    · have hth : t.thread b tid = mmaThread f s first tid := hs.group tid hmem
      rw [hth]
      exact mmaThread_pc_vals tid
  · intro sh b c cv g hc hcore hon hset hn hf hops hown
    obtain ⟨t, ht, hs⟩ := mma_closes_steps h hc hon hset hn hf hops hown
    have hcv := cvOf_closeBlock hs hc
    obtain ⟨hmem, -⟩ := mem_onTids.1 (hon ▸ List.mem_singleton.2 rfl : tid ∈ onTids (.mma f) s)
    have hcores : t.cores = (closedState f s g).cores := by rw [hs.rest]
    have hmq : closedInst b c cv.inst s.cur (cv.sigs ++ [g]) g ∈ (t.core (s.block b).core).mq := by
      rw [State.core, hcores]
      exact closedInst_mem hcore
    have hpc : (t.thread b tid).pc = (passed s tid).pc :=
      (congrArg Thread.pc (hs.group tid hmem)).trans (mmaThread_pc_vals tid).1
    exact ⟨t, ht, (modCore_memory ..).trans (hs.memory rfl), ⟨_, hmq, rfl, rfl, rfl, rfl, rfl, rfl, rfl⟩, congrArg Cv.sigs hcv,
      congrArg Cv.inst hcv, (congrArg Cv.set hcv :), hpc, hs.others⟩

end Sys2Proof.Machine
end


section
/-!
PROOFS. The canonical form of the memories: what it asks of a block, of a state, of what a part of the machine answers, and
which changes keep it. From here on each function of the model has one lemma, `Canonical` and its name: the state that it leaves is
in canonical form if the one it was given is. A proof then follows the function's own composition: `h.notify.rejectPacket` says
that the state after a notice and a rejection is in canonical form.
-/

namespace Sys2Proof.Machine

open Sys2Proof

/-! ### Sparse maps -/

/-- The empty map is in canonical form. -/
theorem sparseWf_nil {α : Type} {d : α} : SparseWf d [] := ⟨.nil, nofun⟩

theorem foldl_sset_wf {α : Type} [DecidableEq α] {d v : α} {l : List Nat} {m : Sparse α} (h : SparseWf d m) :
    SparseWf d (l.foldl (fun m n => sset d n v m) m) :=
  foldl_keeps _ _ (fun _ n => sset_wf n v) l m h

theorem filterMap_range_wf {α : Type} {d : α} {n : Nat} {f : Nat → Option (Nat × α)}
    (hf : ∀ m e, f m = some e → e.1 = m ∧ e.2 ≠ d) : SparseWf d ((List.range n).filterMap f) := by
  refine ⟨List.Pairwise.filterMap f (fun m m' hlt e he e' he' => ?_) List.pairwise_lt_range, fun e he => ?_⟩
  · rwa [(hf m e he).1, (hf m' e' he').1]
  · obtain ⟨m, -, hm⟩ := List.mem_filterMap.1 he
    exact (hf m e hm).2

theorem runInst_wf {i : MInst} {cells : Sparse Word} (h : SparseWf 0 cells) : SparseWf 0 (runInst i cells).1 := by
  rcases hcap : i.cap with _ | ⟨rows, data⟩
  · simpa only [runInst, hcap] using h
  · have hcells : (runInst i cells).1 = (List.range 8192).filterMap fun n =>
        if BitVec.ofNat 32 (instElem i rows data cells n).1 = (0 : Word) then none
        else some (n, BitVec.ofNat 32 (instElem i rows data cells n).1) := by
      simp only [runInst, hcap, List.filterMap_map]
      rfl
    rw [hcells]
    refine filterMap_range_wf fun n e he => ?_
    obtain ⟨hne, he⟩ := Option.ite_none_left_eq_some.1 he
    cases he
    exact ⟨rfl, hne⟩

/-! ### Blocks -/

section Block

variable {k k' : Block}

/-- A change that leaves a block's memories alone. -/
theorem BlockCanonical.same (h : BlockCanonical k)
    (he : (k'.scratch, k'.fe, k'.ckpt, k'.tiles) = (k.scratch, k.fe, k.ckpt, k.tiles)) : BlockCanonical k' := by
  simp only [Prod.mk_inj] at he
  obtain ⟨hs, hf, hc, ht⟩ := he
  exact ⟨hs ▸ h.scratch, hf ▸ h.fe, hc ▸ h.ckpt, ht ▸ h.tiles⟩

theorem BlockCanonical.ite {c : Prop} {_ : Decidable c} (h : BlockCanonical k) (h' : BlockCanonical k') :
    BlockCanonical (if c then k else k') := by
  split <;> assumption

/-- A block of a new launch, and one that is placed, hold nothing. -/
theorem newBlock_canonical {l index ntid entry arg cycle done from_} :
    BlockCanonical (newBlock l index ntid entry arg cycle done from_) :=
  ⟨sparseWf_nil, sparseWf_nil, nofun, nofun⟩

theorem placeBlock_canonical {l core f cycle k} : BlockCanonical (placeBlock l core f cycle k) :=
  ⟨sparseWf_nil, sparseWf_nil, nofun, fun _ hx => List.eq_of_mem_replicate hx ▸ sparseWf_nil⟩

end Block

/-! ### The state, and what parts of the machine answer -/

/-- What an instruction ends in. -/
def EndsCanonical (r : Result) : Prop := ∀ t, r = .next t → Canonical t

/-- The state that an act leaves, if it takes place. -/
def MaybeCanonical (o : Option State) : Prop := ∀ t, o = some t → Canonical t

/-- The state that a service leaves. -/
def ServedCanonical : SvcEnd → Prop
  | .ok _ _ s | .stuck s => Canonical s
  | .reject _ | .poison _ | .held => True

/-- The two ends of an attempt. -/
def BothEnds {ε α : Type} (bad : ε → Prop) (good : α → Prop) : Except ε α → Prop
  | .error e => bad e
  | .ok a => good a

section

variable {s t : State} {a b : Result} {o o' : Option State} {e e' : SvcEnd} {c : Prop} {inst : Decidable c}

/-- A change that leaves the memories alone. -/
theorem Canonical.same (h : Canonical s) (he : (t.mem, t.pmem, t.hmem, t.blocks) = (s.mem, s.pmem, s.hmem, s.blocks)) :
    Canonical t := by
  simp only [Prod.mk_inj] at he
  obtain ⟨hm, hp, hh, hb⟩ := he
  exact ⟨hm ▸ h.mem, hp ▸ h.pmem, hh ▸ h.hmem, hb ▸ h.blocks⟩

theorem Canonical.ite (h : Canonical s) (h' : Canonical t) : Canonical (if c then s else t) := by
  split <;> assumption

theorem Canonical.foldl {α : Type} {f : State → α → State} {l : List α} (hf : ∀ s a, Canonical s → Canonical (f s a))
    (h : Canonical s) : Canonical (l.foldl f s) :=
  foldl_keeps Canonical f hf l s h

theorem EndsCanonical.next (h : Canonical s) : EndsCanonical (.next s) := by
  rintro t ⟨⟩
  exact h

theorem EndsCanonical.fault {f : Fault} : EndsCanonical (.fault f) := fun _ h => nomatch h

theorem EndsCanonical.ite (h : EndsCanonical a) (h' : EndsCanonical b) : EndsCanonical (if c then a else b) := by
  split <;> assumption

theorem MaybeCanonical.some (h : Canonical s) : MaybeCanonical (.some s) := by
  rintro t ⟨⟩
  exact h

theorem MaybeCanonical.none : MaybeCanonical .none := fun _ h => nomatch h

theorem MaybeCanonical.ite (h : MaybeCanonical o) (h' : MaybeCanonical o') : MaybeCanonical (if c then o else o') := by
  split <;> assumption

theorem ServedCanonical.ok {n : Nat} {r : Option Nat} (h : Canonical s) : ServedCanonical (.ok n r s) := h
theorem ServedCanonical.stuck (h : Canonical s) : ServedCanonical (.stuck s) := h
theorem ServedCanonical.reject {n : Nat} : ServedCanonical (.reject n) := trivial
theorem ServedCanonical.poison {n : Nat} : ServedCanonical (.poison n) := trivial
theorem ServedCanonical.held : ServedCanonical .held := trivial

theorem ServedCanonical.of_ok {n : Nat} {r : Option Nat} (h : ServedCanonical e) (he : e = .ok n r s) : Canonical s := by
  subst he
  exact h

theorem ServedCanonical.of_stuck (h : ServedCanonical e) (he : e = .stuck s) : Canonical s := by
  subst he
  exact h

theorem ServedCanonical.ite (h : ServedCanonical e) (h' : ServedCanonical e') : ServedCanonical (if c then e else e') := by
  split <;> assumption

section

variable {ε ε' α β : Type} {p : ε → Prop} {p' : ε' → Prop} {q : α → Prop} {q' : β → Prop} {r : Except ε α}

theorem BothEnds.of_ok {x : α} (h : BothEnds p q r) (hr : r = .ok x) : q x := by
  subst hr
  exact h

theorem BothEnds.of_error {e : ε} (h : BothEnds p q r) (hr : r = .error e) : p e := by
  subst hr
  exact h

theorem BothEnds.bind {f : α → Except ε β} (h : BothEnds p q r) (hf : ∀ a, q a → BothEnds p q' (f a)) :
    BothEnds p q' (r.bind f) := by
  cases r with
  | error e => exact h
  | ok a => exact hf a h

theorem BothEnds.mapError {f : ε → ε'} (h : BothEnds p q r) (hf : ∀ e, p e → p' (f e)) :
    BothEnds p' q (r.mapError f) := by
  cases r with
  | error e => exact hf e h
  | ok a => exact h

end

/-! ### Changes of a block -/

theorem Canonical.block (h : Canonical s) (b : Nat) : BlockCanonical (s.block b) := by
  by_cases hb : b < s.blocks.length
  · rw [State.block, List.getD_eq_getElem _ _ hb]
    exact h.blocks _ (List.getElem_mem hb)
  · rw [State.block, List.getD_eq_default _ _ (Nat.le_of_not_lt hb)]
    exact ⟨sparseWf_nil, sparseWf_nil, nofun, nofun⟩

theorem Canonical.modBlock {b : Nat} {f : Block → Block} (hf : ∀ k, BlockCanonical k → BlockCanonical (f k))
    (h : Canonical s) : Canonical (modBlock b f s) := by
  refine ⟨h.mem, h.pmem, h.hmem, fun k hk => ?_⟩
  rcases mem_modAt _ _ _ _ hk with hk | ⟨k', hk', rfl⟩
  · exact h.blocks k hk
  · exact hf k' (h.blocks k' hk')

/-- A change of a block that leaves its memories alone. -/
theorem Canonical.modRest {b : Nat} {f : Block → Block}
    (hf : ∀ k, ((f k).scratch, (f k).fe, (f k).ckpt, (f k).tiles) = (k.scratch, k.fe, k.ckpt, k.tiles)) (h : Canonical s) :
    Canonical (Machine.modBlock b f s) :=
  h.modBlock fun k hk => hk.same (hf k)

theorem Canonical.modTile {b n : Nat} {f : Tile → Tile} (hf : ∀ x, SparseWf 0 x.cells → SparseWf 0 (f x).cells)
    (h : Canonical s) : Canonical (modTile b n f s) := by
  refine h.modBlock fun k hk => ⟨hk.scratch, hk.fe, hk.ckpt, fun x hx => ?_⟩
  rcases mem_modAt _ _ _ _ hx with hx | ⟨y, hy, rfl⟩
  · exact hk.tiles x hx
  · exact hf y (hk.tiles y hy)

/-- New blocks that are in canonical form. -/
theorem Canonical.addBlocks {l : List Block} (hl : ∀ k ∈ l, BlockCanonical k) (h : Canonical s) :
    Canonical { s with blocks := s.blocks ++ l } :=
  ⟨h.mem, h.pmem, h.hmem, fun k hk => (List.mem_append.1 hk).elim (h.blocks k) (hl k)⟩

end

end Sys2Proof.Machine
end


section
/-!
PROOFS. The canonical form under the named operations over the state, the steps of the visibility machine (09 R179-R181) and the
issue of an instruction by its lanes.
-/

namespace Sys2Proof.Machine

open Sys2Proof

variable {s : State}

theorem Canonical.modThread {b t f} (h : Canonical s) : Canonical (Machine.modThread b t f s) :=
  .modRest (fun _ => rfl) h

theorem Canonical.modWave {b w f} (h : Canonical s) : Canonical (Machine.modWave b w f s) :=
  .modRest (fun _ => rfl) h

theorem Canonical.modPWave {b w f} (h : Canonical s) : Canonical (Machine.modPWave b w f s) :=
  .modRest (fun _ => rfl) h

theorem Canonical.modLaunch {l f} (h : Canonical s) : Canonical (Machine.modLaunch l f s) :=
  h.same rfl

theorem Canonical.modCore {c f} (h : Canonical s) : Canonical (Machine.modCore c f s) :=
  h.same rfl

theorem Canonical.modQueue {q f} (h : Canonical s) : Canonical (Machine.modQueue q f s) :=
  h.same rfl

theorem Canonical.modDie {d f} (h : Canonical s) : Canonical (Machine.modDie d f s) :=
  h.same rfl

theorem Canonical.modCtl {c f} (h : Canonical s) : Canonical (Machine.modCtl c f s) :=
  h.same rfl

theorem Canonical.modPart {p f} (h : Canonical s) : Canonical (Machine.modPart p f s) :=
  h.same rfl

theorem Canonical.modCtx {n f} (h : Canonical s) : Canonical (Machine.modCtx n f s) :=
  h.same rfl

theorem Canonical.modPlat {f} (h : Canonical s) : Canonical (Machine.modPlat f s) :=
  h.same rfl

theorem Canonical.tickNow (h : Canonical s) : Canonical (State.tickNow s) :=
  h.same rfl

theorem Canonical.fresh (h : Canonical s) : Canonical (State.fresh s).2 :=
  h.same rfl

theorem Canonical.logAs {src seq cause k args} (h : Canonical s) : Canonical (Machine.logAs src seq cause k args s) :=
  h.modPlat

theorem Canonical.nextSeq {src} (h : Canonical s) : Canonical (Machine.nextSeq s src).2 :=
  h.same rfl

theorem Canonical.logEvent {src k args} (h : Canonical s) : Canonical (Machine.logEvent src k args s) :=
  h.nextSeq.logAs

theorem Canonical.haltCtx {ctx seq src} (h : Canonical s) : Canonical (Machine.haltCtx ctx seq src s) :=
  h.same rfl

theorem Canonical.noteCause {l cause src} (h : Canonical s) : Canonical (Machine.noteCause l cause src s) :=
  h.modLaunch

theorem Canonical.notify {cs src} (h : Canonical s) : Canonical (Machine.notify cs src s) :=
  .foldl (fun _ _ h => h.nextSeq.modPlat) h

theorem Canonical.mgRequest (h : Canonical s) : Canonical (Machine.mgRequest s).2 :=
  h.same rfl

theorem Canonical.writeRecord {r} (h : Canonical s) : Canonical (Machine.writeRecord r s).2 :=
  .modPlat (h.same rfl)

theorem Canonical.receiveRecord (h : Canonical s) : Canonical (Machine.receiveRecord s) := by
  simp only [Machine.receiveRecord]
  split
  · exact h
  · exact .modCtx (h.same rfl)

theorem Canonical.takeFault {r} (h : Canonical s) : Canonical (Machine.takeFault r s) :=
  .haltCtx (.ite h.writeRecord h.writeRecord.noteCause)

theorem Canonical.raiseCause {b cause tids pc addr} (h : Canonical s) : Canonical (Machine.raiseCause b cause tids pc addr s) :=
  .ite h h.takeFault

theorem Canonical.raiseFaults {b pc fs} (h : Canonical s) : Canonical (Machine.raiseFaults b pc fs s) :=
  .foldl (fun _ _ h => h.raiseCause) h

theorem Canonical.raiseStore {source cause ctx r addr extra} (h : Canonical s) :
    Canonical (Machine.raiseStore source cause ctx r addr extra s) :=
  h.takeFault

theorem Canonical.raiseContext {source cause ctx addr extra} (h : Canonical s) :
    Canonical (Machine.raiseContext source cause ctx addr extra s) :=
  h.takeFault

theorem Canonical.resumeCtx {ctx} (h : Canonical s) : Canonical (Machine.resumeCtx ctx s) :=
  h.same rfl

theorem Canonical.dropRequests {b} (h : Canonical s) : Canonical (Machine.dropRequests b s) :=
  h.same rfl

theorem Canonical.rollBack {b cause tids pc addr} (h : Canonical s) : Canonical (Machine.rollBack b cause tids pc addr s) := by
  simp only [Machine.rollBack]
  split
  · exact h
  · next c hc =>
    obtain ⟨hs, hf⟩ := (h.block b).ckpt c hc
    refine .modBlock (fun k hk => ⟨hs, hf, hk.ckpt, List.forall_mem_map.2 hk.tiles⟩) (.dropRequests ?_)
    exact h.same rfl

theorem Canonical.errorOrRollBack {b cause tids pc addr} (h : Canonical s) :
    Canonical (Machine.errorOrRollBack b cause tids pc addr s) :=
  .ite h.rollBack h.raiseCause

theorem Canonical.setFloor {b g x τ} (h : Canonical s) : Canonical (Machine.setFloor b g x τ s) :=
  .ite h (h.same rfl)

theorem Canonical.raiseFloor {b g x} (h : Canonical s) : Canonical (Machine.raiseFloor b g x s) :=
  .ite h.setFloor h

theorem Canonical.acquireFrom {b k w} (h : Canonical s) : Canonical (Machine.acquireFrom b k w s) :=
  .foldl (fun _ _ h => h.raiseFloor) h

theorem Canonical.raiseAll {b k} (h : Canonical s) : Canonical (Machine.raiseAll b k s) :=
  .foldl (fun _ _ h => h.raiseFloor) h

theorem Canonical.acquireRead {b sc x1} (h : Canonical s) : Canonical (Machine.acquireRead b sc x1 s) := by
  simp only [Machine.acquireRead]
  split
  · exact h.acquireFrom
  · exact h

theorem Canonical.dropOp {b t op} (h : Canonical s) : Canonical (Machine.dropOp b t op s) :=
  h.modThread

theorem Canonical.noteGran {b t g} (h : Canonical s) : Canonical (Machine.noteGran b t g s) :=
  h.modThread

theorem Canonical.noteScratch {b t g} (h : Canonical s) : Canonical (Machine.noteScratch b t g s) :=
  h.noteGran

theorem Canonical.coverSys {b t op} (h : Canonical s) : Canonical (Machine.coverSys b t op s) :=
  h.same rfl

theorem Canonical.releaseItem {b t op sc} (h : Canonical s) : Canonical (Machine.releaseItem b t op sc s) :=
  .ite (.coverSys (h.same rfl)) (h.same rfl)

theorem Canonical.performStore {b t o sc sync} (h : Canonical s) : Canonical (Machine.performStore b t o sc sync s) :=
  .noteGran (.setFloor (h.same rfl))

theorem Canonical.sysWriteGran {key data} (h : Canonical s) : Canonical (Machine.sysWriteGran key data s) :=
  h.same rfl

theorem Canonical.sysWriteFrom {fuel key data} (h : Canonical s) : Canonical (Machine.sysWriteFrom fuel key data s) := by
  induction fuel generalizing key data s with
  | zero => exact h
  | succ fuel ih => exact .ite h (ih h.sysWriteGran)

theorem Canonical.sysWrite {ctx va data} (h : Canonical s) : Canonical (Machine.sysWrite ctx va data s) :=
  h.sysWriteFrom

theorem Canonical.noteIssue {yld} (h : Canonical s) : Canonical (Machine.noteIssue yld s) :=
  .modRest (fun _ => rfl) h

theorem Canonical.issueFaults {b pc fs} (h : Canonical s) : Canonical (Machine.issueFaults b pc fs s) :=
  .ite h.rollBack h.raiseFaults

theorem Canonical.goThread {i act t} (hact : ∀ b t s, Canonical s → Canonical (act b t s)) (h : Canonical s) :
    Canonical (Machine.goThread i act s t) :=
  .ite (hact _ _ _ h.modThread) h.modThread

theorem Canonical.laneExecBy {i faultOf go} (hgo : ∀ s t, Canonical s → Canonical (go s t)) (h : Canonical s) :
    EndsCanonical (Machine.laneExecBy i faultOf go s) :=
  .ite (.next h.raiseCause) (.ite (.next h.issueFaults) (.ite (.next h) (.next (.noteIssue (.foldl hgo h)))))

theorem Canonical.laneExec {i faultOf act} (hact : ∀ b t s, Canonical s → Canonical (act b t s)) (h : Canonical s) :
    EndsCanonical (Machine.laneExec i faultOf act s) :=
  h.laneExecBy (fun _ _ h => h.goThread hact)

theorem Canonical.aluExec {i op} (h : Canonical s) : EndsCanonical (Machine.aluExec i op s) :=
  h.laneExec (fun _ _ _ h => h.modThread)

end Sys2Proof.Machine
end


section
/-!
PROOFS. The canonical form under the control class: lines that leave, transfers, meetings, exit, barriers, traps, spawning, gates.
-/

namespace Sys2Proof.Machine

open Sys2Proof

variable {s : State}

theorem Canonical.addVictim {core l} (h : Canonical s) : Canonical (Machine.addVictim core l s) :=
  h.modCore

theorem Canonical.removeLines {gone} (h : Canonical s) : Canonical (Machine.removeLines gone s) := by
  refine .foldl (fun _ _ h => ?_) (h.same rfl)
  split
  · exact h.addVictim
  · exact h

theorem Canonical.writeBackLine {l} (h : Canonical s) : Canonical (Machine.writeBackLine s l) :=
  h.same rfl

theorem Canonical.writeBackLines {p} (h : Canonical s) : Canonical (Machine.writeBackLines p s) :=
  .foldl (fun _ _ h => h.writeBackLine) (.foldl (fun _ _ h => h.writeBackLine) h)

theorem Canonical.cacheRelease {b sc} (h : Canonical s) : Canonical (Machine.cacheRelease b sc s) :=
  h.writeBackLines

theorem Canonical.reachDevice {l} (h : Canonical s) : Canonical (Machine.reachDevice l s) :=
  .ite (h.same rfl) h

theorem Canonical.recallLines {p} (h : Canonical s) : Canonical (Machine.recallLines p s) :=
  .removeLines (.foldl (fun _ _ h => h.reachDevice) h)

theorem Canonical.cacheAcquire {b sc} (h : Canonical s) : Canonical (Machine.cacheAcquire b sc s) :=
  h.removeLines

theorem Canonical.dropSharers {b sc ctx va} (h : Canonical s) : Canonical (Machine.dropSharers b sc ctx va s) :=
  .ite h h.recallLines

theorem Canonical.orderHere {b t} (h : Canonical s) : Canonical (Machine.orderHere b t s) :=
  h.modThread

theorem Canonical.noteAcq {b t sc} (h : Canonical s) : Canonical (Machine.noteAcq b t sc s) :=
  .ite (.modRest (fun _ => rfl) h.orderHere.cacheAcquire) h.orderHere.cacheAcquire

theorem Canonical.endInterval {b} (h : Canonical s) : Canonical (Machine.endInterval b s) :=
  h.modRest fun _ => rfl

theorem Canonical.pushRelease {b t sc tag} (h : Canonical s) : Canonical (Machine.pushRelease b t sc tag s) :=
  h.modThread

theorem Canonical.compactFrom {b p} (h : Canonical s) : Canonical (Machine.compactFrom b p s) := by
  induction p generalizing s with
  | zero => exact h
  | succ p ih => exact ih (.modRest (fun _ => rfl) h.fresh)

theorem Canonical.compactMove (h : Canonical s) : Canonical (Machine.compactMove s) :=
  .ite h.compactFrom h

theorem Canonical.transfer {i target} (h : Canonical s) : EndsCanonical (Machine.transfer i target s) := by
  unfold Machine.transfer
  split
  extract_lets faultOf act
  have hlane : EndsCanonical (Machine.laneExec i faultOf act s) := h.laneExec fun _ _ _ h => h.modThread
  split
  · next hr => exact .next (.ite (hlane _ hr).compactMove (hlane _ hr))
  · exact hlane

theorem Canonical.releaseSlot {b w e} (h : Canonical s) : Canonical (Machine.releaseSlot b w e s) :=
  .foldl (fun _ _ h => .ite h.modThread h) h.modWave

theorem Canonical.releaseMet {b w} (h : Canonical s) : Canonical (Machine.releaseMet b w s) :=
  .foldl (fun _ _ h => .ite h.releaseSlot h) h

theorem Canonical.execMeet {f} (h : Canonical s) : EndsCanonical (Machine.execMeet f s) :=
  h.laneExec (fun _ _ _ h => .modThread (.ite h h.modWave))

theorem Canonical.execMeetingArrival {b w pc} (h : Canonical s) : EndsCanonical (Machine.execMeetingArrival b w pc s) := by
  unfold Machine.execMeetingArrival
  extract_lets l ts s₁ s₂
  have h₁ : Canonical s₁ := .foldl (fun _ _ h => h.modThread) h
  have h₂ : Canonical s₂ := .ite h₁.modPWave h₁
  exact .next (.foldl (fun _ _ h => h.releaseMet) h₂)

theorem Canonical.returnTokens {b w} (h : Canonical s) : Canonical (Machine.returnTokens b w s) :=
  h.modBlock fun _ hk => ⟨hk.scratch, hk.fe, hk.ckpt, List.forall_mem_map.2 hk.tiles⟩

theorem Canonical.dropOwner {b w} (h : Canonical s) : Canonical (Machine.dropOwner b w s) :=
  h.modCore

theorem Canonical.sweepSlots {b} (h : Canonical s) : Canonical (Machine.sweepSlots b s) :=
  .foldl (fun _ _ h => .ite h h.modWave.releaseMet) h

theorem Canonical.exitThread {b t} (h : Canonical s) : Canonical (Machine.exitThread b t s) := by
  unfold Machine.exitThread
  extract_lets l w s₁ s₂
  have h₂ : Canonical s₂ := .ite h.modThread.returnTokens.dropOwner h.modThread
  exact .ite h₂.endInterval h₂

theorem Canonical.arriveBar {f sh b t} (h : Canonical s) : Canonical (Machine.arriveBar f sh b t s) :=
  .modRest (fun _ => rfl) (.modThread (.pushRelease (.ite h h.endInterval)))

theorem Canonical.barExec {i} (h : Canonical s) : EndsCanonical (Machine.barExec i s) :=
  h.laneExec (fun _ _ _ h => h.arriveBar)

theorem Canonical.takeCheckpoint {b} (h : Canonical s) : Canonical (Machine.takeCheckpoint b s) :=
  .ite (h.modBlock fun _ hk => ⟨hk.scratch, hk.fe, fun _ hc => Option.some.inj hc ▸ ⟨hk.scratch, hk.fe⟩, hk.tiles⟩) h

theorem Canonical.completePhase {b id ph} (h : Canonical s) : Canonical (Machine.completePhase b id ph s) := by
  unfold Machine.completePhase
  extract_lets whole s₁ s₂ s₃ s₄
  have h₁ : Canonical s₁ := .foldl (fun _ _ h => h.acquireFrom.noteAcq) h
  have h₃ : Canonical s₃ := .modRest (fun _ => rfl) (.foldl (fun _ _ h => h.modThread) h₁)
  exact .tickNow (.ite h₃.takeCheckpoint h₃)

theorem Canonical.refuseArrivals {b id bad} (h : Canonical s) : Canonical (Machine.refuseArrivals b id bad s) :=
  .modRest (fun _ => rfl) (.foldl (fun _ _ h => h.raiseCause) h)

theorem Canonical.judgePhase {b id} (h : Canonical s) : Canonical (Machine.judgePhase b id s) := by
  simp only [Machine.judgePhase]
  split
  · exact h
  · exact .ite (.completePhase (.ite h h.refuseArrivals)) (.ite h h.refuseArrivals)

theorem Canonical.judgeBar {b id} (h : Canonical s) : Canonical (Machine.judgeBar b id s) :=
  .foldl (fun _ _ h => h.judgePhase) h

theorem Canonical.trapExec {i cause addr} (h : Canonical s) : EndsCanonical (Machine.trapExec i cause addr s) :=
  .next (.raiseCause (.noteIssue (.foldl (fun _ _ h => h.modThread) h)))

/-- The lanes of a sequential execution, one after another. -/
theorem Canonical.seqExec {i stop one} (hone : ∀ b t s, Canonical s → Canonical (one b t s).2) (h : Canonical s) :
    EndsCanonical (Machine.seqExec i stop one s) := by
  unfold Machine.seqExec
  extract_lets b ts pass r
  have hr : Canonical r.1 := by
    refine foldl_keeps (fun a : State × List (Nat × Nat × Nat) × Bool => Canonical a.1) _ (fun a t ha => ?_) ts
      (s, [], false) h
    have hpass : ∀ s, Canonical s → Canonical (pass s t) := fun _ h => h.modThread
    split
    · exact ha
    split
    · exact hpass _ ha
    split
    · exact ha
    split
    · exact ha
    have ho := hone b t a.1 ha
    split
    · next he => exact hpass _ (by rwa [he] at ho)
    · next he => rwa [he] at ho
  split
  extract_lets m
  have hm : Canonical m := hr.noteIssue
  exact .ite (.next h.raiseCause) (.ite (.next h) (.next (.ite hm hm.raiseFaults)))

theorem Canonical.enqueueSpawn {die e} (h : Canonical s) : Canonical (Machine.enqueueSpawn die e s) := by
  simp only [Machine.enqueueSpawn]
  refine .ite h.modDie ?_
  split
  · exact h.modCtx.modDie
  · exact h

theorem Canonical.spawnOne {f b t} (h : Canonical s) : Canonical (Machine.spawnOne f b t s).2 := by
  simp only [Machine.spawnOne]
  split
  · exact h.modThread
  · split
    · exact h
    · exact .enqueueSpawn (.addBlocks (fun k hk => by obtain ⟨_, -, rfl⟩ := List.mem_map.1 hk; exact newBlock_canonical)
        (.modLaunch (.modRest (fun _ => rfl) h.modThread.pushRelease.endInterval)))

theorem Canonical.execSpawn {f} (h : Canonical s) : EndsCanonical (Machine.execSpawn f s) :=
  h.seqExec (fun _ _ _ h => h.spawnOne)

theorem Canonical.passGate {g b t} (h : Canonical s) : Canonical (Machine.passGate g b t s) := by
  simp only [Machine.passGate]
  split
  · exact h
  · exact .tickNow (.noteAcq (.acquireFrom (.ite h.modLaunch h)))

theorem Canonical.execGate {f} (h : Canonical s) : EndsCanonical (Machine.execGate f s) :=
  h.laneExec (fun _ _ _ h => h.passGate)

theorem Canonical.execRelease {f} (h : Canonical s) : EndsCanonical (Machine.execRelease f s) :=
  h.laneExec (fun _ _ _ h => .pushRelease (.modRest (fun _ => rfl) h.endInterval))

theorem Canonical.execLease {f} (h : Canonical s) : EndsCanonical (Machine.execLease f s) :=
  h.laneExec (fun _ _ _ h => .ite h.modWave h)

end Sys2Proof.Machine
end


section
/-!
PROOFS. The canonical form under the memory class: loads, stores, atomics, fences, scratch and the copy engine.
-/

namespace Sys2Proof.Machine

open Sys2Proof

variable {s : State}

theorem Canonical.loadExec {i consume} (h : Canonical s) : EndsCanonical (Machine.loadExec i consume s) :=
  h.laneExec (fun _ _ _ h => h.modThread)

theorem Canonical.endIfWide {b sc} (h : Canonical s) : Canonical (Machine.endIfWide b sc s) := by
  simp only [Machine.endIfWide]
  split
  · exact h
  · exact h
  · exact h.endInterval

theorem Canonical.execSt {f} (h : Canonical s) : EndsCanonical (Machine.execSt f s) :=
  h.laneExec (fun _ _ _ h => h.endIfWide.modThread)

theorem Canonical.setBits {b gs full} (h : Canonical s) : Canonical (Machine.setBits b gs full s) :=
  h.modBlock fun _ hk => ⟨hk.scratch, foldl_sset_wf hk.fe, hk.ckpt, hk.tiles⟩

theorem Canonical.ldsExec {i} (h : Canonical s) : EndsCanonical (Machine.ldsExec i s) :=
  h.laneExec (fun _ _ _ h => h.modThread)

theorem Canonical.stsExec {i} (h : Canonical s) : EndsCanonical (Machine.stsExec i s) :=
  h.laneExec (fun _ _ _ h => h.modThread)

theorem Canonical.execFeset {f} (h : Canonical s) : EndsCanonical (Machine.execFeset f s) :=
  h.laneExec (fun _ _ _ h => .ite h h.modThread)

theorem Canonical.execAtom {f} (h : Canonical s) : EndsCanonical (Machine.execAtom f s) :=
  h.laneExec (fun _ _ _ h => h.endInterval.modThread)

theorem Canonical.execFence {f} (h : Canonical s) : EndsCanonical (Machine.execFence f s) :=
  h.laneExec (fun _ _ _ h => h.endIfWide.modThread)

theorem Canonical.cctlLines {f core ctx va} (h : Canonical s) : Canonical (Machine.cctlLines f core ctx va s) :=
  .ite (.removeLines (.ite h.writeBackLines h)) (.ite h.writeBackLines h)

theorem Canonical.execCctl {f} (h : Canonical s) : EndsCanonical (Machine.execCctl f s) :=
  h.laneExec (fun _ _ _ h => h.cctlLines)

theorem Canonical.pushPool {ctx p} (h : Canonical s) : Canonical (Machine.pushPool ctx p s) :=
  .same (.foldl (fun _ _ h => h.reachDevice) h) rfl

theorem Canonical.startCopy {b t c reads taint} (h : Canonical s) : Canonical (Machine.startCopy b t c reads taint s) :=
  .foldl (fun _ _ h => h.modThread) (.modWave (.modRest (fun _ => rfl) h.modThread))

theorem Canonical.execAcp {f} (h : Canonical s) : EndsCanonical (Machine.execAcp f s) :=
  h.laneExec (fun _ _ _ h => h.setBits.startCopy)

theorem Canonical.execAcwait {f} (h : Canonical s) : EndsCanonical (Machine.execAcwait f s) :=
  h.laneExec (fun _ _ _ h => h.acquireFrom.modThread)

theorem Canonical.startTensor {b t desc tag iss taint pc} (h : Canonical s) :
    Canonical (Machine.startTensor b t desc tag iss taint pc s) := by
  simp only [Machine.startTensor]
  split
  · exact h
  · exact .ite h.setBits.startCopy h.endInterval.startCopy

theorem Canonical.execTcopy {f} (h : Canonical s) : EndsCanonical (Machine.execTcopy f s) :=
  h.laneExec (fun _ _ _ h => .ite h.startTensor h.modThread)

theorem Canonical.startWaiter {core} (h : Canonical s) : Canonical (Machine.startWaiter core s) := by
  simp only [Machine.startWaiter]
  split
  · exact h
  · split
    · exact .ite h.modThread.startTensor h
    · exact h

theorem Canonical.startWaiters {core} (h : Canonical s) : Canonical (Machine.startWaiters core s) :=
  .foldl (fun _ _ h => h.startWaiter) h

theorem Canonical.abandonOp {b t o} (h : Canonical s) : Canonical (Machine.abandonOp b t o s) := by
  unfold Machine.abandonOp
  extract_lets s₁
  have h₁ : Canonical s₁ := by
    unfold s₁
    split
    · exact .modThread (.modRest (fun _ => rfl) h)
    · exact h.dropOp
  split
  · exact h₁.modThread
  · exact h₁

theorem Canonical.chargeOp {source cause b t o extra} (h : Canonical s) :
    Canonical (Machine.chargeOp source cause b t o extra s) :=
  .ite h.abandonOp.raiseStore h.abandonOp.takeFault

theorem Canonical.markLost {b t o} (h : Canonical s) : Canonical (Machine.markLost b t o s) :=
  .ite (h.same rfl) h

theorem Canonical.chargeLost {b t o} (h : Canonical s) : Canonical (Machine.chargeLost b t o s) :=
  h.markLost.chargeOp

theorem Canonical.noteStore {b t o} (h : Canonical s) : Canonical (Machine.noteStore b t o s) := by
  simp only [Machine.noteStore]
  split
  · exact h.same rfl
  · exact h.same rfl

theorem Canonical.readyProd {b t p ws} (h : Canonical s) : Canonical (Machine.readyProd b t p ws s) :=
  h.modThread

theorem Canonical.logStore {b size} (h : Canonical s) : Canonical (Machine.logStore b size s) :=
  .ite (.ite h.fresh.endInterval (.modRest (fun _ => rfl) h.fresh)) h

theorem Canonical.performGlobal {b t o} (h : Canonical s) : Canonical (Machine.performGlobal b t o s) := by
  unfold Machine.performGlobal
  extract_lets s₁
  have h₁ : Canonical s₁ := h.noteStore
  split
  · next r _ =>
    extract_lets s₂ s₃ s₄ s₅
    have h₂ : Canonical s₂ := h₁.cacheRelease
    have h₄ : Canonical s₄ := h₂.dropSharers
    have h₅ : Canonical s₅ := .performStore (.ite h₄.logStore h₄)
    exact .ite (.performStore (.ite h₂.releaseItem.logStore h₂.releaseItem)) (.ite h₅.coverSys h₅)
  · exact h₁.logStore.performStore

theorem Canonical.notePast {b gs} (h : Canonical s) : Canonical (Machine.notePast b gs s) :=
  .modRest (fun _ => rfl) h

theorem Canonical.writeScratch {b a data} (h : Canonical s) : Canonical (Machine.writeScratch b a data s) :=
  h.notePast.modBlock fun _ hk => ⟨memWrite_wf data a hk.scratch, hk.fe, hk.ckpt, hk.tiles⟩

theorem Canonical.fillBits {b t o gs} (h : Canonical s) : Canonical (Machine.fillBits b t o gs s) :=
  h.setBits

theorem Canonical.performScratch {b t o} (h : Canonical s) : Canonical (Machine.performScratch b t o s) :=
  .ite h.writeScratch.noteGran.fillBits h.writeScratch.noteGran

theorem Canonical.readScratch {b t w} (h : Canonical s) : Canonical (Machine.readScratch b t w s) :=
  h.modThread

theorem Canonical.noteRead {b t x1} (h : Canonical s) : Canonical (Machine.noteRead b t x1 s) :=
  h.modThread

theorem Canonical.atomScratch {op b t o} (h : Canonical s) : Canonical (Machine.atomScratch op b t o s) := by
  unfold Machine.atomScratch
  extract_lets k old s₁ s₂ s₃
  have h₁ : Canonical s₁ := by
    unfold s₁
    split
    · exact h.writeScratch
    · exact h
  have h₂ : Canonical s₂ := .ite h₁.acquireFrom.noteAcq h₁
  exact h₂.noteGran.readScratch.readyProd

theorem Canonical.atomGlobal {op b t o} (h : Canonical s) : Canonical (Machine.atomGlobal op b t o s) := by
  unfold Machine.atomGlobal
  extract_lets sc x old s₁ s₂ s₃
  have h₁ : Canonical s₁ := h.raiseFloor.noteGran
  have h₂ : Canonical s₂ := by
    unfold s₂
    split
    · exact .ite h.performGlobal h.noteStore.dropSharers.performStore
    · split
      · exact h₁.cacheRelease.releaseItem
      · exact h₁
  have h₃ : Canonical s₃ := by
    unfold s₃
    split
    · exact h₂.acquireRead.noteAcq
    · exact h₂
  exact h₃.noteRead.readyProd

theorem Canonical.fenceStep {acq rel b t o} (h : Canonical s) : Canonical (Machine.fenceStep acq rel b t o s) := by
  unfold Machine.fenceStep
  extract_lets s₁ s₂ s₃
  have h₁ : Canonical s₁ := by
    unfold s₁
    split
    · exact h.cacheRelease.releaseItem
    · exact h
  have h₂ : Canonical s₂ := .ite h₁.modThread h₁
  have h₃ : Canonical s₃ := by
    unfold s₃
    split
    · extract_lets s₄
      have h₄ : Canonical s₄ := .foldl (fun _ _ h => h.acquireRead) h₂
      exact .noteAcq (.ite h₄.acquireFrom h₄)
    · exact h₂
  split
  · exact .ite h₃.raiseAll h₃
  · exact h₃

theorem Canonical.releaseTag {b tag} (h : Canonical s) : Canonical (Machine.releaseTag b tag s) := by
  simp only [Machine.releaseTag]
  split
  · exact h.modLaunch
  · exact h

theorem Canonical.sendPool {b o} (h : Canonical s) : Canonical (Machine.sendPool b o s) :=
  .ite h.pushPool h

theorem Canonical.fesetStep {b t o n full} (h : Canonical s) : Canonical (Machine.fesetStep b t o n full s) :=
  .ite h.fillBits h.setBits

theorem Canonical.takeStep {b t o} (h : Canonical s) : Canonical (Machine.takeStep b t o s) := by
  simp only [Machine.takeStep]
  split
  · exact .ite h.performScratch h.performGlobal
  · exact .ite h.atomScratch h.atomGlobal
  · exact h.fenceStep
  · exact h.fesetStep
  · refine .releaseTag ?_
    split
    · exact h.cacheRelease.releaseItem
    · exact h
  · exact h

theorem Canonical.performOp {b t o} (h : Canonical s) : Canonical (Machine.performOp b t o s) :=
  h.sendPool.takeStep.dropOp.sendPool.tickNow

theorem Canonical.execStorePerform {b t op} (h : Canonical s) : EndsCanonical (Machine.execStorePerform b t op s) := by
  simp only [Machine.execStorePerform]
  split
  · exact .next h
  · refine .ite (.next h) ?_
    refine .ite (.next h.chargeLost) ?_
    refine .ite (.next h.abandonOp.takeFault) ?_
    exact .ite (.next (.ite h.sendPool h)) (.ite (.next h.sendPool) (.next (.foldl (fun _ _ h => h.performOp) h)))

theorem Canonical.deliver {b t o data} (h : Canonical s) : Canonical (Machine.deliver b t o data s) := by
  simp only [Machine.deliver]
  split
  · exact .modRest (fun _ => rfl) h
  · exact h.readyProd

theorem Canonical.satisfyScratch {b t o τ} (h : Canonical s) : Canonical (Machine.satisfyScratch b t o τ s) :=
  .deliver (.readScratch (.noteGran (.ite (.noteAcq (.foldl (fun _ _ h => h.acquireFrom) h)) h)))

theorem Canonical.satisfyTogether {b g o τ} (h : Canonical s) : Canonical (Machine.satisfyTogether b g o τ s) :=
  .ite (.setBits (.foldl (fun _ _ h => h.satisfyScratch.dropOp) h)) (.foldl (fun _ _ h => h.satisfyScratch.dropOp) h)

theorem Canonical.satisfyGlobal {b t o x1 τ} (h : Canonical s) : Canonical (Machine.satisfyGlobal b t o x1 τ s) := by
  unfold Machine.satisfyGlobal
  extract_lets data s₁ s₂ s₃ s₄
  have h₁ : Canonical s₁ := .ite h.setFloor h
  have h₃ : Canonical s₃ := h₁.noteGran.noteRead.modThread
  have h₄ : Canonical s₄ := by
    unfold s₄
    split
    · exact .noteAcq (.ite h₃.acquireRead h₃)
    · exact h₃
  exact h₄.deliver

theorem Canonical.execLoadSatisfy {b t op item early} (h : Canonical s) :
    EndsCanonical (Machine.execLoadSatisfy b t op item early s) := by
  simp only [Machine.execLoadSatisfy]
  split
  · exact .next h
  · refine .ite (.next h) ?_
    refine .ite (.next h.chargeLost) ?_
    refine .ite (.next h) ?_
    refine .ite (.ite (.next h.satisfyTogether.tickNow) (.next h)) ?_
    exact .ite (.next h.satisfyGlobal.dropOp.tickNow) (.next h)

theorem Canonical.reachWider {b item wider key} (h : Canonical s) : Canonical (Machine.reachWider b item wider key s) :=
  .dropSharers (.ite h.pushPool h)

theorem Canonical.execFrontierAdvance {item wider} (h : Canonical s) :
    EndsCanonical (Machine.execFrontierAdvance item wider s) := by
  unfold Machine.execFrontierAdvance
  split
  · exact .next h
  · split
    · exact .next h
    · extract_lets k held s₁
      have h₁ : Canonical s₁ := by
        unfold s₁
        split
        · exact h.reachWider
        · exact h
      exact .ite (.next h) (.next (.tickNow (h₁.same rfl)))

theorem Canonical.lowerTag {b c} (h : Canonical s) : Canonical (Machine.lowerTag b c s) :=
  h.modWave

theorem Canonical.landScratch {b c} (h : Canonical s) : Canonical (Machine.landScratch b c s) := by
  refine .setBits (.modRest (fun _ => rfl) (.foldl (fun _ _ h => ?_) h.notePast))
  exact .modBlock (fun _ hk => ⟨memSet_wf _ _ hk.scratch, hk.fe, hk.ckpt, hk.tiles⟩) h

theorem Canonical.dropCopy {b c} (h : Canonical s) : Canonical (Machine.dropCopy b c s) :=
  .modRest (fun _ => rfl) h

theorem Canonical.landCopy {b c} (h : Canonical s) : Canonical (Machine.landCopy b c s) :=
  h.dropCopy.landScratch.lowerTag.tickNow

theorem Canonical.execAcpTransferComplete {b id} (h : Canonical s) :
    EndsCanonical (Machine.execAcpTransferComplete b id s) := by
  simp only [Machine.execAcpTransferComplete]
  split
  · exact .ite (.next h.landCopy) (.next h)
  · exact .next h

end Sys2Proof.Machine
end


section
/-!
PROOFS. The canonical form under the path of a global access: lines, translation, walks, controllers, migration.
-/

namespace Sys2Proof.Machine

open Sys2Proof

variable {s : State}

theorem Canonical.dropLine {l} (h : Canonical s) : Canonical (Machine.dropLine l s) :=
  h.removeLines

theorem Canonical.evictLine {back l} (hback : ∀ l s, Canonical s → Canonical (back l s)) (h : Canonical s) :
    Canonical (Machine.evictLine back s l) :=
  .dropLine (.reachDevice (.ite h (.ite h.writeBackLine (hback _ _ h))))

theorem Canonical.evictLines {path ctx va evict back} (hback : ∀ l s, Canonical s → Canonical (back l s)) (h : Canonical s) :
    Canonical (Machine.evictLines path ctx va evict back s) := by
  refine .foldl (fun _ _ h => .ite h ?_) (.foldl (fun _ _ h => h.evictLine hback) h)
  split
  · exact h.evictLine hback
  · exact h

theorem Canonical.freeL2 {d n back} (hback : ∀ l s, Canonical s → Canonical (back l s)) (h : Canonical s) :
    Canonical (Machine.freeL2 d n back s) := by
  refine .foldl (fun _ _ h => .ite h ?_) h
  split
  · exact h.evictLine hback
  · exact h

theorem Canonical.modOp {b t op f} (h : Canonical s) : Canonical (Machine.modOp b t op f s) :=
  h.modThread

theorem Canonical.finishFill {b t o l} (h : Canonical s) : Canonical (Machine.finishFill b t o l s) :=
  .ite h.modOp h.chargeOp

theorem Canonical.noteMiss {b t o} (h : Canonical s) : Canonical (Machine.noteMiss b t o s) := by
  unfold Machine.noteMiss
  extract_lets w ctx core tag s₁ s₂
  have h₂ : Canonical s₂ := .ite h.modOp h.modOp.modThread
  exact .ite h₂.modCore.modWave h₂

theorem Canonical.installPath {path mk} (h : Canonical s) : Canonical (Machine.installPath path mk s) :=
  .foldl (fun _ _ h => .ite h (h.same rfl)) h

theorem Canonical.ownLine {die ctx va} (h : Canonical s) : Canonical (Machine.ownLine die ctx va s) :=
  .same (.foldl (fun _ _ h => h.reachDevice) h) rfl

theorem Canonical.takeOwnership {die ctx va o} (h : Canonical s) : Canonical (Machine.takeOwnership die ctx va o s) :=
  .ite h.ownLine h

theorem Canonical.dropTlb {ctx base len} (h : Canonical s) : Canonical (Machine.dropTlb ctx base len s) :=
  h.same rfl

theorem Canonical.arriveFor {walk thr ctx cls pa who ctl left page} (h : Canonical s) :
    Canonical (Machine.arriveFor walk thr ctx cls pa who ctl left page s) :=
  h.modCtl

theorem Canonical.arrive {thr ctx cls pa who ctl left page} (h : Canonical s) :
    Canonical (Machine.arrive thr ctx cls pa who ctl left page s) :=
  h.arriveFor

theorem Canonical.fillTlb {group ctx va l} (h : Canonical s) : Canonical (Machine.fillTlb group ctx va l s) :=
  h.same rfl

theorem Canonical.askReads {k who cls} (h : Canonical s) : Canonical (Machine.askReads k who cls s) :=
  .foldl (fun _ _ h => h.arriveFor) h

theorem Canonical.landAsk {ctx l a} (h : Canonical s) : Canonical (Machine.landAsk ctx l a s) :=
  h.arrive

theorem Canonical.walkAsk {ctx a} (h : Canonical s) : Canonical (Machine.walkAsk ctx a s) :=
  .ite (h.same rfl) (.ite (.askReads (h.same rfl)) (h.same rfl))

theorem Canonical.askAt {who cls ctx va off} (h : Canonical s) : Canonical (Machine.askAt who cls ctx va off s) := by
  simp only [Machine.askAt]
  split
  · exact h.landAsk
  · exact h.walkAsk

theorem Canonical.askRange {who cls ctx va n} (h : Canonical s) : Canonical (Machine.askRange who cls ctx va n s) :=
  .foldl (fun _ _ h => h.askAt) h

theorem Canonical.queueOp {b t o l} (h : Canonical s) : Canonical (Machine.queueOp b t o l s) :=
  h.arrive.modOp

theorem Canonical.joinWalk {b t o} (h : Canonical s) : Canonical (Machine.joinWalk b t o s) :=
  .ite (.modOp (h.same rfl)) (.ite (.askReads (.modOp (h.same rfl))) h)

theorem Canonical.endOps {charge ops} (hcharge : ∀ b t o s, Canonical s → Canonical (charge b t o s)) (h : Canonical s) :
    Canonical (Machine.endOps charge ops s) := by
  unfold Machine.endOps
  extract_lets one
  have hone : ∀ first s r, Canonical s → Canonical (one first s r) := by
    intro first s r h
    simp only [one]
    split
    · exact h
    · exact .ite (hcharge _ _ _ _ h) h.abandonOp
  split
  · exact h
  · exact .foldl (hone false) (hone true s _ h)

theorem Canonical.noTranslation {source a} (h : Canonical s) : Canonical (Machine.noTranslation source a s) :=
  h.endOps (fun _ _ _ _ h => h.chargeOp)

theorem Canonical.memoryError {source b t o} (h : Canonical s) : Canonical (Machine.memoryError source b t o s) :=
  .ite h.rollBack h.abandonOp.takeFault

theorem Canonical.startWalk {group} (h : Canonical s) : Canonical (Machine.startWalk group s) := by
  simp only [Machine.startWalk]
  split
  · exact .ite (.askReads (h.same rfl)) h
  · exact h

theorem Canonical.endWalkAt {w l} (h : Canonical s) : Canonical (Machine.endWalkAt w l s) := by
  refine .foldl (fun _ _ h => h.landAsk) (.foldl (fun _ _ h => ?_) h.fillTlb.noTranslation)
  split
  · exact h.queueOp
  · exact h

theorem Canonical.execPageWalk {die group ctx va} (h : Canonical s) :
    EndsCanonical (Machine.execPageWalk die group ctx va s) := by
  simp only [Machine.execPageWalk]
  split
  · exact .next h
  · refine .ite (.next h) ?_
    refine .ite (.next (.startWalk (.endOps (fun _ _ _ _ h => h.memoryError) (h.same rfl)))) ?_
    split
    · exact .fault
    · exact .next (.startWalk (.noTranslation (h.same rfl)))
    · exact .next (.startWalk (.endWalkAt (h.same rfl)))

theorem Canonical.openUnit {ctx r unit back} (hback : ∀ l s, Canonical s → Canonical (back l s)) (h : Canonical s) :
    Canonical (Machine.openUnit ctx r unit back s) := by
  simp only [Machine.openUnit]
  split
  · exact .ite h (h.same rfl)
  · exact .ite (.same (h.freeL2 hback) rfl) (h.freeL2 hback)

theorem Canonical.backOf {m b l} (h : Canonical s) : Canonical (Machine.backOf m b l s) :=
  h.askRange

theorem Canonical.deliverLine {b t o l gen evict} (h : Canonical s) : Canonical (Machine.deliverLine b t o l gen evict s) := by
  unfold Machine.deliverLine
  extract_lets ctx core path s₁ mk
  have h₁ : Canonical s₁ := h.evictLines (fun _ _ h => h.backOf)
  exact .ite h₁.installPath.takeOwnership.finishFill h₁

theorem Canonical.lookUp {b t o evict} (h : Canonical s) : Canonical (Machine.lookUp b t o evict s) := by
  simp only [Machine.lookUp]
  split
  · exact h.takeOwnership.finishFill
  · split
    · exact h.noteMiss.deliverLine
    · split
      · exact h.noteMiss.queueOp
      · exact h.noteMiss.joinWalk

theorem Canonical.execLineFill {b t op evict} (h : Canonical s) : EndsCanonical (Machine.execLineFill b t op evict s) := by
  simp only [Machine.execLineFill]
  split
  · exact .next h
  · refine .ite (.next h) ?_
    refine .ite (.next h.chargeLost) ?_
    split
    · exact .next h.lookUp
    · exact .next h.lookUp
    · split
      · split
        · exact .ite (.next h.deliverLine) (.next (h.openUnit (fun _ _ h => h.backOf)))
        · exact .next h.deliverLine
      · exact .next h.modOp
    · exact .next h

theorem Canonical.noteDeadline {r} (h : Canonical s) : Canonical (Machine.noteDeadline r s) :=
  .ite (h.same rfl) h

theorem Canonical.noteHot {die ctx page} (h : Canonical s) : Canonical (Machine.noteHot die ctx page s) :=
  h.modDie

theorem Canonical.modRemap {st f} (h : Canonical s) : Canonical (Machine.modRemap st f s) :=
  h.modPlat

theorem Canonical.remapStep {r} (h : Canonical s) : Canonical (Machine.remapStep r s) := by
  simp only [Machine.remapStep]
  split
  · exact h
  · exact .ite h h.modRemap.logEvent
  · exact .ite h h.modRemap.modPlat.logEvent

theorem Canonical.repairRemap {st} (h : Canonical s) : Canonical (Machine.repairRemap s st) :=
  .ite h.fresh.modRemap h

theorem Canonical.execControllerServe {ctl remap} (h : Canonical s) :
    EndsCanonical (Machine.execControllerServe ctl remap s) := by
  unfold Machine.execControllerServe
  extract_lets s₁
  have h₁ : Canonical s₁ := h.remapStep
  split
  · exact .next h₁
  · extract_lets s₂ s₃ s₄
    have h₃ : Canonical s₃ := h₁.modCtl.noteDeadline
    have h₄ : Canonical s₄ := by
      unfold s₄
      split
      · exact .ite h₃.noteHot h₃
      · exact h₃
    split
    · exact .next h₄
    · split
      · exact .next h₄
      · exact .ite (.next h₄.memoryError) (.next h₄.modOp)

theorem Canonical.execBudgetWindow {ctl} (h : Canonical s) : EndsCanonical (Machine.execBudgetWindow ctl s) :=
  .next h.modCtl

theorem Canonical.writePte {e} (h : Canonical s) : Canonical (Machine.writePte e s) :=
  ⟨h.mem, memWrite_wf _ _ h.pmem, h.hmem, h.blocks⟩

theorem Canonical.writePtes {l} (h : Canonical s) : Canonical (Machine.writePtes l s) :=
  .foldl (fun _ _ h => h.writePte) h

theorem Canonical.hostWrite {fn a bytes} (h : Canonical s) : Canonical (Machine.hostWrite fn a bytes s) :=
  ⟨h.mem, h.pmem, memWrite_wf _ _ h.hmem, h.blocks⟩

theorem Canonical.moveLeaf {frame e} (h : Canonical s) : Canonical (Machine.moveLeaf frame s e) :=
  h.writePte.dropTlb

theorem Canonical.execPageMigration {die ctx va frame} (h : Canonical s) :
    EndsCanonical (Machine.execPageMigration die ctx va frame s) := by
  simp only [Machine.execPageMigration]
  split
  · refine .ite (.next h) ?_
    exact .ite (.next h.logEvent) (.ite (.next (.askRange (.foldl (fun _ _ h => h.moveLeaf) h.askRange))) (.next h))
  · exact .next h

end Sys2Proof.Machine
end


section
/-!
PROOFS. The canonical form under the transducer: runs, fills, encodes, device agents, the recode walker.
-/

namespace Sys2Proof.Machine

open Sys2Proof

variable {s : State}

theorem Canonical.modRun {n f} (h : Canonical s) : Canonical (Machine.modRun n f s) :=
  h.same rfl

theorem Canonical.fitasExec {i} (h : Canonical s) : EndsCanonical (Machine.fitasExec i s) :=
  .next h.modRun

theorem Canonical.execStepBoundExceeded {run} (h : Canonical s) : EndsCanonical (Machine.execStepBoundExceeded run s) := by
  simp only [Machine.execStepBoundExceeded]
  split
  · exact .next h
  · exact .ite (.next h.modRun) (.next h)

theorem Canonical.modRegion {ctx idx f} (h : Canonical s) : Canonical (Machine.modRegion ctx idx f s) :=
  h.modCtx

theorem Canonical.askEngine {ctx r cls blk n} (h : Canonical s) : Canonical (Machine.askEngine ctx r cls blk n s) :=
  h.fresh.askAt

theorem Canonical.askSide {ctx r cls va n} (h : Canonical s) : Canonical (Machine.askSide ctx r cls va n s) :=
  h.fresh.askRange

theorem Canonical.writeSlot {ctx r cls blk b} (h : Canonical s) : Canonical (Machine.writeSlot ctx r cls blk b s) :=
  .ite h.askEngine.modRegion.askSide.sysWrite h.askEngine.modRegion

theorem Canonical.setPlain {ctx r blk out} (h : Canonical s) : Canonical (Machine.setPlain ctx r blk out s) :=
  .foldl (fun _ _ h => .ite h h.sysWriteGran) h

theorem Canonical.askEntry {ctx r cls blk n} (h : Canonical s) : Canonical (Machine.askEntry ctx r cls blk n s) :=
  .ite h.askSide h

theorem Canonical.filledBy {cls ctx r blk n out} (h : Canonical s) : Canonical (Machine.filledBy cls ctx r blk n out s) :=
  .setPlain (.ite h.askEngine.modRegion.logEvent h)

theorem Canonical.fillFrom {cls ctx r blk m n} (h : Canonical s) :
    BothEnds (fun e => Canonical e.2) Canonical (Machine.fillFrom cls ctx r blk m n s) := by
  induction m generalizing n s with
  | zero =>
    simp only [Machine.fillFrom]
    split
    · exact h.askEngine.askEntry.filledBy
    · exact h.askEngine.askEntry
  | succ m ih =>
    simp only [Machine.fillFrom]
    split
    · exact h.askEngine.askEntry.filledBy
    · exact ih h.askEngine.askEntry

theorem Canonical.freeEngine {die} (h : Canonical s) : Canonical (Machine.freeEngine die s) := by
  simp only [Machine.freeEngine]
  refine .ite h ?_
  split
  · exact h.modRun
  · exact h

theorem Canonical.fillNow {cls ctx r blk} (h : Canonical s) :
    BothEnds (fun e => Canonical e.2) Canonical (Machine.fillNow cls ctx r blk s) :=
  h.freeEngine.fillFrom

theorem Canonical.engineSource {die} (h : Canonical s) : Canonical (Machine.engineSource die s).2 :=
  h.fresh

theorem Canonical.encodeFault {ctx r blk cause step closing} (h : Canonical s) :
    Canonical (Machine.encodeFault ctx r blk cause step closing s) := by
  simp only [Machine.encodeFault]
  split
  · exact h.engineSource.raiseStore
  · exact h.engineSource.raiseContext

theorem Canonical.decodeFault {r blk cause step attempt op} (h : Canonical s) :
    Canonical (Machine.decodeFault r blk cause step attempt op s) := by
  simp only [Machine.decodeFault]
  split
  · exact h
  · split
    · exact h
    · exact .ite h.engineSource.rollBack h.engineSource.abandonOp.takeFault

theorem Canonical.modUnit {ctx region unit f} (h : Canonical s) : Canonical (Machine.modUnit ctx region unit f s) :=
  h.same rfl

theorem Canonical.escape {cls ctx r blk g x} (h : Canonical s) : Canonical (Machine.escape cls ctx r blk g x s).2 := by
  simp only [Machine.escape]
  split
  · exact h
  · exact h.askSide.sysWrite.writeSlot.modRegion

theorem Canonical.storeSlot {cls ctx r blk slot} (h : Canonical s) : Canonical (Machine.storeSlot cls ctx r blk slot s) :=
  h.writeSlot.modRegion

theorem Canonical.settleLossy {ctx r blk g x slot} (h : Canonical s) :
    Canonical (Machine.settleLossy ctx r blk g x slot s) := by
  simp only [Machine.settleLossy]
  refine .ite ?_ ?_
  · split
    · exact h.setPlain
    · exact h
  · exact h

theorem Canonical.leaveBlock {ctx r blk ok closing} (h : Canonical s) :
    Canonical (Machine.leaveBlock ctx r blk ok closing s) := by
  simp only [Machine.leaveBlock]
  have hfree := h.freeL2 (d := r.die) (n := unitLines r) (back := fun x => Machine.askRange 4096 3 x.ctx x.addr 128)
    (fun _ _ h => h.askRange)
  exact .ite h.modUnit (.modUnit (.ite h (.ite (hfree.same rfl) hfree)))

theorem Canonical.finishEncode {cls ctx r blk g x e closing} (h : Canonical s) :
    Canonical (Machine.finishEncode cls ctx r blk g x e closing s) := by
  unfold Machine.finishEncode
  extract_lets esc
  have hesc : ∀ cause n s, Canonical s → Canonical (esc cause n s) := by
    intro cause n s h
    refine .ite (.leaveBlock ?_) (.leaveBlock (.encodeFault (.ite h.escape.encodeFault h.escape)))
    split
    · exact h.escape.encodeFault
    · exact h.escape
  split
  · exact hesc _ _ _ h
  · exact hesc _ _ _ h
  · exact .ite (hesc _ _ _ h.modRegion) h.storeSlot.settleLossy.leaveBlock

theorem Canonical.encodeZero {cls ctx r blk g closing} (h : Canonical s) :
    Canonical (Machine.encodeZero cls ctx r blk g closing s) :=
  h.storeSlot.leaveBlock

theorem Canonical.encodeNow {cls ctx idx blk closing} (h : Canonical s) :
    Canonical (Machine.encodeNow cls ctx idx blk closing s) := by
  simp only [Machine.encodeNow]
  split
  · exact h
  · exact .ite h.encodeZero h.freeEngine.finishEncode

theorem Canonical.startLeaving {ctx r blk} (h : Canonical s) : Canonical (Machine.startLeaving ctx r blk s) :=
  h.modUnit

theorem Canonical.dropUnit {ctx r unit} (h : Canonical s) : Canonical (Machine.dropUnit ctx r unit s) :=
  .removeLines (h.same rfl)

theorem Canonical.settleUnit {ctx r unit} (h : Canonical s) : Canonical (Machine.settleUnit ctx r unit s) := by
  simp only [Machine.settleUnit]
  split
  · exact .ite h.dropUnit h
  · exact h

theorem Canonical.unfill {full p} (h : Canonical s) : Canonical (Machine.unfill full p s) :=
  h.same rfl

theorem Canonical.takeRun {n} (h : Canonical s) : Canonical (Machine.takeRun n s) :=
  h.modRun

theorem Canonical.encodes {r u blk} (h : Canonical s) : Canonical (Machine.encodes r u blk s).2 := by
  simp only [Machine.encodes]
  split
  · exact h
  · split
    · exact h.fresh
    · exact h

theorem Canonical.execBlockEncode {ctx region blk} (h : Canonical s) :
    EndsCanonical (Machine.execBlockEncode ctx region blk s) := by
  simp only [Machine.execBlockEncode]
  split
  · exact .next h
  · next r _ =>
    split
    · exact .ite (.next h) (.ite (.next h) (.next h.takeRun.finishEncode.settleUnit.tickNow))
    · split
      · exact .next h
      · next u _ =>
        have hs : Canonical (Machine.startLeaving ctx r blk (Machine.encodes r u blk s).2) := h.encodes.startLeaving
        refine .ite (.next h) (.ite (.next h) (.ite (.next h.encodes.settleUnit) ?_))
        refine .ite (.next hs.encodeZero.settleUnit.tickNow) ?_
        exact .ite (.next hs.finishEncode.settleUnit.tickNow) (.next (hs.same rfl))

theorem Canonical.encodeDirty {forced ctx r blk} (h : Canonical s) : Canonical (Machine.encodeDirty forced ctx r blk s) := by
  simp only [Machine.encodeDirty]
  split
  · exact h.takeRun.finishEncode
  · exact h

theorem Canonical.encodeFresh {forced ctx r blk} (h : Canonical s) : Canonical (Machine.encodeFresh forced ctx r blk s) :=
  .ite h.startLeaving.encodeNow h

theorem Canonical.writeBackUnit {forced ctx r unit} (h : Canonical s) : Canonical (Machine.writeBackUnit forced ctx r unit s) :=
  .settleUnit (.foldl (fun _ _ h => h.encodeDirty.encodeFresh) h)

theorem Canonical.writeBackUnits {forced ctx p} (h : Canonical s) : Canonical (Machine.writeBackUnits forced ctx p s) :=
  .foldl (fun _ _ h => .foldl (fun _ _ h => h.writeBackUnit) h) h

theorem Canonical.endWaiters {ctx r unit} (h : Canonical s) : Canonical (Machine.endWaiters ctx r unit s) :=
  .foldl (fun _ _ h => .ite (.foldl (fun _ _ h => .foldl (fun _ _ h => h.abandonOp) h) h) h) h

theorem Canonical.endFills {ctx r unit} (h : Canonical s) : Canonical (Machine.endFills ctx r unit s) :=
  h.same rfl

theorem Canonical.failUnit {ctx r blk f cause steps} (h : Canonical s) :
    Canonical (Machine.failUnit ctx r blk f cause steps s) :=
  h.endFills.unfill.decodeFault.endWaiters

theorem Canonical.blockFilled {ctx r f out} (h : Canonical s) : Canonical (Machine.blockFilled ctx r f out s) :=
  .modUnit (h.filledBy.same rfl)

theorem Canonical.attemptEnds {ctx r f e} (h : Canonical s) : Canonical (Machine.attemptEnds ctx r f e s) := by
  simp only [Machine.attemptEnds]
  split
  · exact h.blockFilled
  · exact .ite (.askEngine (h.same rfl)) h.failUnit

theorem Canonical.execBlockFill {ctx region blk} (h : Canonical s) :
    EndsCanonical (Machine.execBlockFill ctx region blk s) := by
  simp only [Machine.execBlockFill]
  split
  · refine .ite (.next h) ?_
    split
    · exact .ite (.next h) (.next h.takeRun.attemptEnds.tickNow)
    · refine .ite (.next h) ?_
      split
      · exact .next h.askEntry.attemptEnds.tickNow
      · exact .next h.askEntry.attemptEnds.tickNow
      · exact .ite (.next h) (.ite (.next h.attemptEnds.tickNow) (.next (h.same rfl)))
  · exact .next h

theorem Canonical.cancelDecodes {ctx} (h : Canonical s) : Canonical (Machine.cancelDecodes ctx s) :=
  .unfill (h.same rfl)

theorem Canonical.fillBlocks {cls ctx r l} (h : Canonical s) :
    BothEnds (fun e => Canonical e.2) Canonical (Machine.fillBlocks cls ctx r l s) := by
  induction l generalizing s with
  | nil => exact h
  | cons k l ih =>
    simp only [Machine.fillBlocks]
    split
    · next he => exact ih (h.fillNow.of_ok he)
    · next he => exact h.fillNow.of_error he

theorem Canonical.makeRoom {cls r} (h : Canonical s) : Canonical (Machine.makeRoom cls r s) := by
  unfold Machine.makeRoom
  extract_lets s₁ key held go s₂
  have h₁ : Canonical s₁ := h.freeL2 (fun _ _ h => h.askRange)
  have h₂ : Canonical s₂ := .foldl (fun _ _ h => h.writeBackUnit) h₁
  exact .ite h₁ (.foldl (fun _ _ h => .ite h h.writeBackUnit) h₂)

theorem Canonical.touchUnit {cls ctx r unit} (h : Canonical s) :
    BothEnds (fun e => Canonical e.2) Canonical (Machine.touchUnit cls ctx r unit s) := by
  unfold Machine.touchUnit
  extract_lets u there new
  have hm : Canonical (if u.isSome then s else Machine.makeRoom cls r s) := .ite h h.makeRoom
  split
  · next he => exact hm.fillBlocks.of_error he
  · next m he =>
    have hf : Canonical (Machine.endFills ctx r unit m) := (hm.fillBlocks.of_ok he).endFills
    exact Canonical.modUnit (.ite hf (hf.same rfl))

theorem Canonical.touchUnits {cls ctx r l} (h : Canonical s) :
    BothEnds (fun e => Canonical e.2) Canonical (Machine.touchUnits cls ctx r l s) := by
  induction l generalizing s with
  | nil => exact h
  | cons u l ih =>
    simp only [Machine.touchUnits]
    split
    · next he => exact ih (h.touchUnit.of_ok he)
    · next he => exact h.touchUnit.of_error he

theorem Canonical.touchRange {cls ctx va n} (h : Canonical s) :
    BothEnds (fun e => ∀ x ∈ e, Canonical x.2.2) Canonical (Machine.touchRange cls ctx va n s) := by
  unfold Machine.touchRange
  extract_lets one
  have hone : ∀ a r, BothEnds (fun e => ∀ x ∈ e, Canonical x.2.2) Canonical a →
      BothEnds (fun e => ∀ x ∈ e, Canonical x.2.2) Canonical (one a r) := by
    intro a r ha
    refine ha.bind fun s h => BothEnds.mapError h.touchUnits fun e he x hx => ?_
    cases hx
    exact he
  refine BothEnds.bind (foldl_keeps (BothEnds _ Canonical) one hone _ _ h) fun m hm => ?_
  split
  · exact hm
  · exact fun _ hx => nomatch hx

theorem Canonical.dirtyRange {ctx va n} (h : Canonical s) : Canonical (Machine.dirtyRange ctx va n s) :=
  .foldl (fun _ _ h => .foldl (fun _ _ h => h.modUnit) h) h

theorem Canonical.agentWrite {ctx va data} (h : Canonical s) : Canonical (Machine.agentWrite ctx va data s) :=
  .sysWrite (h.recallLines.same rfl)

theorem Canonical.raiseDevice {ctx a} (h : Canonical s) : Canonical (Machine.raiseDevice ctx a s) :=
  h.raiseContext

theorem Canonical.deviceTouch {ctx va n} (h : Canonical s) : Canonical (Machine.deviceTouch ctx va n s) := by
  simp only [Machine.deviceTouch]
  split
  · next he => exact h.askRange.touchRange.of_ok he
  · next he => exact h.askRange.touchRange.of_error he _ rfl
  · exact h.askRange

theorem Canonical.deviceWrite {ctx va data} (h : Canonical s) : Canonical (Machine.deviceWrite ctx va data s) := by
  rw [Machine.deviceWrite]
  split
  · exact h.raiseDevice
  · exact h.deviceTouch.agentWrite.dirtyRange

theorem Canonical.endWalk {ctx region} (h : Canonical s) : Canonical (Machine.endWalk ctx region s) :=
  h.modRegion

theorem Canonical.stopWalk {ctx region blk cause} (h : Canonical s) : Canonical (Machine.stopWalk ctx region blk cause s) :=
  h.modRegion.logEvent

theorem Canonical.execRecodeWalk {ctx region} (h : Canonical s) : EndsCanonical (Machine.execRecodeWalk ctx region s) := by
  unfold Machine.execRecodeWalk
  split
  · exact .next h
  · split
    · exact .next h
    · next r _ _ k _ =>
      extract_lets next unit s₁ room
      have hnext : ∀ s, Canonical s → Canonical (next s) := fun _ h => h.modRegion
      have h₁ : Canonical s₁ := h.askEngine
      have hr : Canonical room := .ite h.makeRoom h
      refine .ite (.next h) (.ite (.next h.endWalk) (.ite (.next (.ite h₁.stopWalk (hnext _ h₁))) ?_))
      refine .ite (.next h) (.ite (.next h.modUnit) (.ite ?_ (.ite (.next h) ?_)))
      · exact .ite (.next h₁.stopWalk) (.ite (.next h₁.stopWalk) (.next (hnext _ h₁.writeSlot)))
      · split
        · next he => exact .next (hr.fillNow.of_error he).stopWalk
        · next m he =>
          have h₂ : Canonical (Machine.encodeNow 3 ctx region k none m) := (hr.fillNow.of_ok he).encodeNow
          refine .next ?_
          split
          · exact hnext _ h₂
          · exact h₂.stopWalk

theorem Canonical.execSlotInjection {ctx region blk off bytes} (h : Canonical s) :
    EndsCanonical (Machine.execSlotInjection ctx region blk off bytes s) := by
  simp only [Machine.execSlotInjection]
  refine .ite (.next h) ?_
  split
  · exact .next h.mgRequest
  · refine .ite (.next h.mgRequest) (.next (.tickNow (.logAs (.modRegion ?_))))
    exact Canonical.nextSeq (.removeLines (.unfill (.foldl (fun _ _ h => h.endFills) h.mgRequest.writeBackUnits)))

theorem Canonical.poolLine {die ctx va l back} (hback : ∀ l s, Canonical s → Canonical (back l s)) (h : Canonical s) :
    Canonical (Machine.poolLine die ctx va l back s) :=
  .ite h (.ownLine (.ite (.installPath (h.evictLines hback)) (h.evictLines hback)))

theorem Canonical.killCopy {b c} (h : Canonical s) : Canonical (Machine.killCopy b c s) :=
  .modRest (fun _ => rfl) h

theorem Canonical.modCopy {b c f} (h : Canonical s) : Canonical (Machine.modCopy b c f s) :=
  .modRest (fun _ => rfl) h

theorem Canonical.scatterOne {now b c d e va} (h : Canonical s) : Canonical (Machine.scatterOne now b c d e va s) := by
  unfold Machine.scatterOne
  extract_lets ctx core cls o charge bad
  have hcharge : ∀ src cause extra s, Canonical s → Canonical (charge src cause extra s) :=
    fun _ _ _ _ h => h.killCopy.takeFault
  have hbad : ∀ s, Canonical s → Canonical (bad s) := fun _ h => .ite h.rollBack (hcharge _ _ _ _ h)
  split
  · exact .ite (hbad s h) (hcharge _ _ _ _ h)
  · refine .ite h (.ite h.modCopy.askRange (.ite h (.ite (hbad s h) ?_)))
    split
    · exact h
    · next r _ _ he =>
      have hm := h.touchRange.of_error he _ rfl
      split
      · exact hm.killCopy.failUnit
      · exact hcharge _ _ _ _ (hm.engineSource (die := r.die))
    · next he =>
      extract_lets s₁ s₂
      have h₁ : Canonical s₁ := Canonical.poolLine (fun _ _ h => h.askRange) (h.touchRange.of_ok he)
      have h₂ : Canonical s₂ := h₁.performGlobal
      exact h₂.modCopy.tickNow
  · exact h

theorem Canonical.copyStep {now b c d} (h : Canonical s) : Canonical (Machine.copyStep now b c d s) := by
  simp only [Machine.copyStep]
  refine .ite (.ite h.landCopy h) ?_
  refine .ite h ?_
  split
  · exact h.modCopy.scatterOne
  · exact h.modCopy.dropCopy.lowerTag.tickNow

theorem Canonical.execTcopyComplete {b id} (h : Canonical s) : EndsCanonical (Machine.execTcopyComplete b id s) := by
  simp only [Machine.execTcopyComplete]
  split
  · exact .next h
  · split
    · exact .next h
    · exact .next h.copyStep

end Sys2Proof.Machine
end


section
/-!
PROOFS. The canonical form under the cross-lane and the matrix class.
-/

namespace Sys2Proof.Machine

open Sys2Proof

variable {s : State}

theorem Canonical.arriveLane {i t} (h : Canonical s) : Canonical (Machine.arriveLane i s t) :=
  h.modThread

theorem Canonical.crossExec {i} (h : Canonical s) : EndsCanonical (Machine.crossExec i s) :=
  h.laneExecBy (fun _ _ h => h.arriveLane)

theorem Canonical.execCrossLaneFire {b w pc} (h : Canonical s) : EndsCanonical (Machine.execCrossLaneFire b w pc s) :=
  .next (.foldl (fun _ _ h => h.modThread) h)

theorem Canonical.execConvergenceDeadlock {b w} (h : Canonical s) : EndsCanonical (Machine.execConvergenceDeadlock b w s) :=
  .ite (.next h.raiseCause) (.next h)

theorem Canonical.sfuExec {i fn} (h : Canonical s) : EndsCanonical (Machine.sfuExec i fn s) :=
  h.laneExec (fun _ _ _ h => h.modThread)

theorem Canonical.execAst {f} (h : Canonical s) : EndsCanonical (Machine.execAst f s) :=
  h.laneExec fun _ _ _ h => .modTile (fun _ hx => sset_wf _ _ hx) h.endInterval

theorem Canonical.execAclr {f} (h : Canonical s) : EndsCanonical (Machine.execAclr f s) :=
  h.laneExec fun _ _ _ h => .modTile (fun _ _ => sparseWf_nil) h.endInterval

theorem Canonical.execAccwin {f} (h : Canonical s) : EndsCanonical (Machine.execAccwin f s) :=
  h.laneExec (fun _ _ _ h => h.modWave)

theorem Canonical.modCv {b c f} (h : Canonical s) : Canonical (Machine.modCv b c f s) :=
  .modRest (fun _ => rfl) h

theorem Canonical.execCvset {f} (h : Canonical s) : EndsCanonical (Machine.execCvset f s) :=
  h.laneExec (fun _ _ _ h => h.modCv)

theorem Canonical.settleCv {b c} (h : Canonical s) : Canonical (Machine.settleCv b c s) :=
  .foldl (fun _ _ h => .ite h.modCv h.modThread.raiseCause) h.modCv

theorem Canonical.closeSet {b c sigs g} (h : Canonical s) : Canonical (Machine.closeSet b c sigs g s) :=
  h.endInterval.modCore.modCv

theorem Canonical.signOne {f b t} (h : Canonical s) : Canonical (Machine.signOne f b t s).2 := by
  simp only [Machine.signOne]
  split
  · exact h
  · split
    · exact h
    · split
      · exact h
      · exact .ite h.modThread.closeSet h.modThread.modCv

theorem Canonical.execMma {f} (h : Canonical s) : EndsCanonical (Machine.execMma f s) :=
  h.seqExec (fun _ _ _ h => h.signOne)

theorem Canonical.captureInst {core i} (h : Canonical s) : Canonical (Machine.captureInst core i s) :=
  .modCv (.foldl (fun _ _ h => .foldl (fun _ _ h => h.noteScratch) h.modThread) h.modCore)

theorem Canonical.freeSigners {i} (h : Canonical s) : Canonical (Machine.freeSigners i s) :=
  .foldl (fun _ _ h => h.modThread) h

theorem Canonical.execMmaCapture {core} (h : Canonical s) : EndsCanonical (Machine.execMmaCapture core s) := by
  simp only [Machine.execMmaCapture]
  split
  · exact .next h
  · exact .next h.captureInst.tickNow

theorem Canonical.captureSaved {core b} (h : Canonical s) : Canonical (Machine.captureSaved core b s) :=
  .foldl (fun _ _ h => h.freeSigners) (.foldl (fun _ _ h => h.captureInst) h)

theorem Canonical.settleCaptures {core} (h : Canonical s) : Canonical (Machine.settleCaptures core s) :=
  .foldl (fun _ _ h => h.freeSigners) h

theorem Canonical.completeInst {core i} (h : Canonical s) : Canonical (Machine.completeInst core i s) :=
  have hcells : SparseWf 0 (tileOf s i.block i.tile).cells := CellsWf.getD (h.block i.block).tiles i.tile
  .foldl (fun _ _ h => h.modThread) (.modTile (fun _ _ => runInst_wf hcells) h.modCore)

theorem Canonical.execMmaCompletion {core} (h : Canonical s) : EndsCanonical (Machine.execMmaCompletion core s) := by
  simp only [Machine.execMmaCompletion]
  split
  · exact .next h
  · exact .ite (.next h) (.next h.completeInst)

theorem Canonical.requestToken {f b t} (h : Canonical s) : Canonical (Machine.requestToken f b t s) :=
  h.modThread.modTile (fun _ hx => hx)

theorem Canonical.execTkget {f} (h : Canonical s) : EndsCanonical (Machine.execTkget f s) :=
  h.laneExec (fun _ _ _ h => h.requestToken)

theorem Canonical.execTokenGrant {b tile} (h : Canonical s) : EndsCanonical (Machine.execTokenGrant b tile s) := by
  simp only [Machine.execTokenGrant]
  split
  · exact .next h
  · exact .next (.foldl (fun _ _ h => h.modThread) (h.modTile (fun _ hx => hx)))

theorem Canonical.returnToken {b w tile} (h : Canonical s) : Canonical (Machine.returnToken b w tile s) :=
  h.modTile (fun _ hx => hx)

theorem Canonical.putOne {f t} (h : Canonical s) : Canonical (Machine.putOne f s t) :=
  .ite h.modThread (h.goThread (fun _ _ _ h => h.returnToken))

theorem Canonical.execTkput {f} (h : Canonical s) : EndsCanonical (Machine.execTkput f s) :=
  h.laneExecBy (fun _ _ h => h.putOne)

theorem Canonical.execTokenReturn {b w tile} (h : Canonical s) : EndsCanonical (Machine.execTokenReturn b w tile s) :=
  .ite (.next (.foldl (fun _ _ h => h.modThread) (.ite h.returnToken h))) (.next h)

end Sys2Proof.Machine
end


section
/-!
PROOFS. The canonical form under queues, packets, launches and transfers.
-/

namespace Sys2Proof.Machine

open Sys2Proof

variable {s : State}

theorem Canonical.queueWrite {x host a bytes} (h : Canonical s) : Canonical (Machine.queueWrite x host a bytes s) :=
  .ite h.hostWrite h.deviceWrite

theorem Canonical.modPkt {q n f} (h : Canonical s) : Canonical (Machine.modPkt q n f s) :=
  h.modQueue

theorem Canonical.advanceHead {q} (h : Canonical s) : Canonical (Machine.advanceHead q s) :=
  .ite h h.modQueue.queueWrite

theorem Canonical.queueError {q count type reason} (h : Canonical s) : Canonical (Machine.queueError q count type reason s) :=
  h.modQueue.queueWrite.notify

theorem Canonical.rejectPacket {q n reason} (h : Canonical s) : Canonical (Machine.rejectPacket q n reason s) :=
  h.modPkt.queueError.advanceHead

theorem Canonical.tryReject {q n reason} (h : Canonical s) : MaybeCanonical (Machine.tryReject q n reason s) :=
  .ite (.some h.rejectPacket) .none

theorem Canonical.orWait {o : Option State} (h : Canonical s) (ho : MaybeCanonical o) : EndsCanonical (Machine.orWait s o) := by
  cases o with
  | none => exact .next h
  | some t => exact .next (ho t rfl).tickNow

theorem Canonical.startPacket {q n} (h : Canonical s) : Canonical (Machine.startPacket q n s) :=
  h.modPkt.advanceHead

theorem Canonical.completePacket {q n doneAt} (h : Canonical s) : Canonical (Machine.completePacket q n doneAt s) :=
  h.modPkt.advanceHead

theorem Canonical.touchRing {x cs} (h : Canonical s) : Canonical (Machine.touchRing x cs s) :=
  .ite h (.foldl (fun _ _ h => h.deviceTouch) h)

theorem Canonical.postTail {q} (h : Canonical s) : Canonical (Machine.postTail q s) :=
  .ite h h.notify

theorem Canonical.makeResident {q} (h : Canonical s) : Canonical (Machine.makeResident q s) := by
  refine .modQueue (.ite h ?_)
  split
  · exact h.modQueue
  · exact h

theorem Canonical.execTailDoorbell {q tail} (h : Canonical s) : EndsCanonical (Machine.execTailDoorbell q tail s) := by
  simp only [Machine.execTailDoorbell]
  split
  · exact .next h
  · refine .ite (.next h) ?_
    refine .ite (.next h.postTail.makeResident.queueError.tickNow) ?_
    split
    · exact .next h.raiseDevice
    · exact .next h.postTail.makeResident.touchRing.modQueue.tickNow

theorem Canonical.execQueueCreate {spec} (h : Canonical s) : EndsCanonical (Machine.execQueueCreate spec s) :=
  .ite (.next (h.same rfl)) (.next h)

theorem Canonical.execQueueResume {q} (h : Canonical s) : EndsCanonical (Machine.execQueueResume q s) :=
  .next h.modQueue

theorem Canonical.runPacket {q type act} (hact : ∀ p s, Canonical s → MaybeCanonical (act p s)) (h : Canonical s) :
    EndsCanonical (Machine.runPacket q type act s) := by
  simp only [Machine.runPacket]
  split
  · exact .next h
  · split
    · exact .orWait h h.tryReject
    · exact .ite (.orWait h (hact _ _ h)) (.next h)

theorem Canonical.execLaunch {q} (h : Canonical s) : EndsCanonical (Machine.execLaunch q s) := by
  simp only [Machine.execLaunch]
  split
  · exact .next h
  · split
    · exact .orWait h h.tryReject
    · exact .next h.modPkt

theorem Canonical.refreshAliases (h : Canonical s) : Canonical (Machine.refreshAliases s) :=
  h.same rfl

theorem Canonical.dropStale (h : Canonical s) : Canonical (Machine.dropStale s) :=
  h.same rfl

theorem Canonical.mmWrite {loose ptes} (h : Canonical s) : Canonical (Machine.mmWrite loose ptes s) :=
  .ite h (.ite h.writePtes.dropStale.refreshAliases h)

theorem Canonical.editLeaf {ctx va f} (h : Canonical s) : Canonical (Machine.editLeaf ctx va f s) := by
  simp only [Machine.editLeaf]
  split
  · exact h.writePte
  · exact h

theorem Canonical.flushRange {cls ctx base len} (h : Canonical s) : Canonical (Machine.flushRange cls ctx base len s) :=
  .removeLines (.pushPool (.writeBackUnits (.foldl (fun _ _ h => h.askRange) h)))

theorem Canonical.classTransition {cls ctx r} (h : Canonical s) : Canonical (Machine.classTransition cls ctx r s) :=
  have hf := h.flushRange
  .ite (.ite hf (.dropTlb (.foldl (fun _ _ h => h.editLeaf) hf))) h

theorem Canonical.writeCompletion {ctx record status cause tag retired} (h : Canonical s) :
    Canonical (Machine.writeCompletion ctx record status cause tag retired s) :=
  h.nextSeq.deviceWrite

theorem Canonical.setTokens {q mask} (h : Canonical s) : Canonical (Machine.setTokens q mask s) :=
  h.modQueue

theorem Canonical.lateGates {l} (h : Canonical s) : Canonical (Machine.lateGates l s) :=
  .foldl (fun _ _ h => h.acquireFrom.noteAcq) h

theorem Canonical.finishLaunch {l status} (h : Canonical s) : Canonical (Machine.finishLaunch l status s) :=
  h.tickNow.lateGates.setTokens.modLaunch.writeCompletion.completePacket

theorem Canonical.widenStores {l} (h : Canonical s) : Canonical (Machine.widenStores l s) :=
  h.same rfl

theorem Canonical.widenLaunch {l} (h : Canonical s) : Canonical (Machine.widenLaunch l s) :=
  h.widenStores.writeBackUnits.writeBackLines.pushPool.removeLines.modLaunch

theorem Canonical.execLaunchCompletion {l} (h : Canonical s) : EndsCanonical (Machine.execLaunchCompletion l s) := by
  unfold Machine.execLaunchCompletion
  split
  · exact .next h
  · extract_lets s₁ y
    have h₁ : Canonical s₁ := .ite h.widenLaunch h.pushPool
    exact .ite (.next h) (.ite (.next h₁.tickNow) (.next h₁.finishLaunch.tickNow))

theorem Canonical.seedLaunch {q p ranges} (h : Canonical s) : Canonical (Machine.seedLaunch q p ranges s) :=
  .startPacket (.modPkt (.same (h.addBlocks fun _ hk => List.mem_singleton.1 hk ▸ newBlock_canonical) rfl))

theorem Canonical.failLaunch {q p ranges} (h : Canonical s) : Canonical (Machine.failLaunch q p ranges s) :=
  .finishLaunch (.widenLaunch (.startPacket (.modPkt (h.same rfl))))

theorem Canonical.execLaunchDispatch {q n plan} (h : Canonical s) : EndsCanonical (Machine.execLaunchDispatch q n plan s) := by
  simp only [Machine.execLaunchDispatch]
  split
  · exact .next h
  · refine .ite (.next h) ?_
    split
    · exact .orWait h h.tryReject
    · refine .ite (.orWait h h.tryReject) ?_
      refine .ite (.next h.mmWrite.failLaunch.tickNow) ?_
      refine .ite (.next h.mmWrite) ?_
      refine .ite (.next (.foldl (fun _ _ h => h.classTransition) h.mmWrite)) ?_
      exact .next (.tickNow (.seedLaunch (.foldl (fun _ _ h => h.classTransition) h.mmWrite)))

theorem Canonical.finishCopy {c status} (h : Canonical s) : Canonical (Machine.finishCopy c status s) :=
  .completePacket (.writeCompletion (h.same rfl))

theorem Canonical.startCopyPacket {q plan p} (h : Canonical s) : Canonical (Machine.startCopyPacket q plan p s) :=
  .ite (h.startPacket.mmWrite.same rfl) (.finishCopy (h.startPacket.mmWrite.same rfl))

theorem Canonical.execCopy {q plan} (h : Canonical s) : EndsCanonical (Machine.execCopy q plan s) :=
  h.runPacket (fun _ _ h => .ite .none (.some h.startCopyPacket))

theorem Canonical.copyFault {c cause addr causeSeq} (h : Canonical s) :
    Canonical (Machine.copyFault c cause addr causeSeq s) := by
  unfold Machine.copyFault
  extract_lets x s₁
  have h₁ : Canonical s₁ := h.same rfl
  exact h₁.raiseContext

theorem Canonical.endCopy {c} (h : Canonical s) : Canonical (Machine.endCopy c s) := by
  simp only [Machine.endCopy]
  refine .ite h ?_
  split
  · exact h.flushRange.copyFault
  · exact .ite h.flushRange h.flushRange.finishCopy

theorem Canonical.modXfer {c f} (h : Canonical s) : Canonical (Machine.modXfer c f s) :=
  h.same rfl

theorem Canonical.copyUnfilled {c r e} (h : Canonical s) : Canonical (Machine.copyUnfilled c r e s) := by
  simp only [Machine.copyUnfilled]
  split
  · exact h.modXfer.failUnit
  · exact h.modXfer.copyFault

theorem Canonical.writeChunk {c} (h : Canonical s) : Canonical (Machine.writeChunk c s) := by
  simp only [Machine.writeChunk]
  split
  · exact h
  · next he => exact (h.touchRange.of_error he _ rfl).copyUnfilled
  · next he =>
    have h₁ := h.touchRange.of_ok he
    split
    · exact h
    · next he => exact (h₁.touchRange.of_error he _ rfl).copyUnfilled
    · next he => exact (h₁.touchRange.of_ok he).agentWrite.dirtyRange.modXfer.askRange

theorem Canonical.execCopyChunk {c} (h : Canonical s) : EndsCanonical (Machine.execCopyChunk c s) := by
  simp only [Machine.execCopyChunk]
  split
  · exact .next h
  · refine .ite (.next (.ite h h.endCopy.tickNow)) ?_
    refine .ite (.next h) ?_
    refine .ite (.next (.ite h h.endCopy.tickNow)) ?_
    split
    · exact .next h.modXfer.copyFault
    · refine .ite (.next h) ?_
      refine .ite (.next h.modXfer.askRange) ?_
      exact .ite (.next h) (.next (.ite h.writeChunk.endCopy.tickNow (.ite h.writeChunk.tickNow h.writeChunk)))

theorem Canonical.reply {r} (h : Canonical s) : Canonical (Machine.reply r s) :=
  h.modPlat

theorem Canonical.execSignal {q plan} (h : Canonical s) : EndsCanonical (Machine.execSignal q plan s) := by
  refine h.runPacket fun _ _ h => .ite .none (.ite h.mmWrite.tryReject (.some (.completePacket ?_)))
  exact .ite h.mmWrite.deviceWrite.reply h.mmWrite.deviceWrite

theorem Canonical.execTokclr {q} (h : Canonical s) : EndsCanonical (Machine.execTokclr q s) :=
  h.runPacket (fun _ _ h => .some h.modQueue.completePacket)

theorem Canonical.peerItems {bs} (h : Canonical s) : Canonical (Machine.peerItems bs s) :=
  .foldl (fun _ _ h => h.same rfl) h

theorem Canonical.keepPeers {bs} (h : Canonical s) : Canonical (Machine.keepPeers bs s) :=
  h.same rfl

theorem Canonical.claimPeers (h : Canonical s) : Canonical (Machine.claimPeers s) :=
  .peerItems (h.same rfl)

theorem Canonical.addPool {ctx salvage r} (h : Canonical s) : Canonical (Machine.addPool ctx salvage r s) :=
  .ite h (.ite (.ite (h.same rfl) h) (.modCtx (.ite (h.same rfl) h)))

theorem Canonical.dropPools {ctx} (h : Canonical s) : Canonical (Machine.dropPools ctx s) := by
  unfold Machine.dropPools
  extract_lets lines named gone kept s₁ holds goes s₂
  have h₂ : Canonical s₂ := h.recallLines.modCtx.keepPeers
  exact h₂.same rfl

theorem Canonical.execMap {q salvage ptes} (h : Canonical s) : EndsCanonical (Machine.execMap q salvage ptes s) := by
  refine h.runPacket fun _ _ h => .ite .none ?_
  split
  · exact .some h.raiseDevice
  · extract_lets s₁ raw
    have h₁ : Canonical s₁ := h.deviceTouch
    split
    · exact .some h₁.notify.rejectPacket
    · refine .ite (.some h₁.notify.rejectPacket) (.ite .none (.some (.completePacket (.refreshAliases (.claimPeers ?_)))))
      exact .foldl (fun _ _ h => h.addPool) h₁.mmWrite.notify.modCtx.dropPools

end Sys2Proof.Machine
end


section
/-!
PROOFS. The canonical form under the system class, placement, the wave scheduler and the services of the CV.
-/

namespace Sys2Proof.Machine

open Sys2Proof

variable {s : State}

theorem Canonical.execSwrite {f} (h : Canonical s) : EndsCanonical (Machine.execSwrite f s) :=
  h.laneExec (fun _ _ _ h => .ite h.modThread (.ite h.modThread (.ite h.modWave h)))

theorem Canonical.execSvc {f} (h : Canonical s) : EndsCanonical (Machine.execSvc f s) :=
  h.laneExec (fun _ _ _ h => h.endInterval.modThread)

theorem Canonical.execProducerCompletion {b t p} (h : Canonical s) :
    EndsCanonical (Machine.execProducerCompletion b t p s) := by
  simp only [Machine.execProducerCompletion]
  split
  · exact .next h
  · split
    · exact .next h
    · exact .next h.modThread

theorem Canonical.execWaveTimerExpiry {b w} (h : Canonical s) : EndsCanonical (Machine.execWaveTimerExpiry b w s) :=
  .ite (.next h.modWave.raiseCause) (.next h)

theorem Canonical.trimSpawn (h : Canonical s) : Canonical (Machine.trimSpawn s) :=
  h.same rfl

theorem Canonical.firstAcquire {b} (h : Canonical s) : Canonical (Machine.firstAcquire b s) := by
  unfold Machine.firstAcquire
  extract_lets k s₁ s₂ s₃
  have h₁ : Canonical s₁ := .foldl (fun _ _ h => h.orderHere) h
  have h₂ : Canonical s₂ := .ite h₁.cacheAcquire h₁
  have h₃ : Canonical s₃ := by
    unfold s₃
    split
    · exact h₂.acquireFrom
    · exact h₂
  split
  · split
    · exact h₃.acquireFrom
    · exact h₃
  · exact h₃

theorem Canonical.execBlockPlacement {b places} (h : Canonical s) : EndsCanonical (Machine.execBlockPlacement b places s) := by
  refine .ite (.next (.tickNow (.trimSpawn (.foldl (fun _ _ h => ?_) h)))) (.next h)
  exact .firstAcquire (.modBlock (fun _ _ => placeBlock_canonical) h)

theorem Canonical.execPlacementReservation {b} (h : Canonical s) : EndsCanonical (Machine.execPlacementReservation b s) :=
  .ite (.next (.modRest (fun _ => rfl) h)) (.next h)

theorem Canonical.retire {b} (h : Canonical s) : Canonical (Machine.retire b s) :=
  .modLaunch (.modRest (fun _ => rfl) h)

theorem Canonical.execBlockRetirement {b} (h : Canonical s) : EndsCanonical (Machine.execBlockRetirement b s) :=
  .ite (.next h.retire) (.next h)

theorem Canonical.modSub {core sub f} (h : Canonical s) : Canonical (Machine.modSub core sub f s) :=
  h.modCore

theorem Canonical.activate {core sub x} (h : Canonical s) : Canonical (Machine.activate core sub x s) :=
  h.modPWave.modSub

theorem Canonical.deactivate {x} (h : Canonical s) : Canonical (Machine.deactivate x s) :=
  h.modPWave

theorem Canonical.execWaveActivation {core sub} (h : Canonical s) : EndsCanonical (Machine.execWaveActivation core sub s) := by
  simp only [Machine.execWaveActivation]
  split
  · exact .next h.activate
  · exact .next h

theorem Canonical.execWaveSwap {core sub} (h : Canonical s) : EndsCanonical (Machine.execWaveSwap core sub s) := by
  simp only [Machine.execWaveSwap]
  split
  · exact .next h.deactivate.activate
  · exact .next h

theorem Canonical.execStarvationAdmission {core sub} (h : Canonical s) :
    EndsCanonical (Machine.execStarvationAdmission core sub s) := by
  simp only [Machine.execStarvationAdmission]
  split
  · exact .next h
  · refine .next (.activate (.ite h ?_))
    split
    · exact h.deactivate
    · exact h

theorem Canonical.execIssueRotation {core sub} (h : Canonical s) : EndsCanonical (Machine.execIssueRotation core sub s) :=
  .ite (.next h.modSub) (.next h)

theorem Canonical.execGroupIssueLimit {core sub} (h : Canonical s) :
    EndsCanonical (Machine.execGroupIssueLimit core sub s) := by
  simp only [Machine.execGroupIssueLimit]
  split
  · exact .next h
  · exact .next h.modPWave

theorem Canonical.execLeaseHalving {core} (h : Canonical s) : EndsCanonical (Machine.execLeaseHalving core s) :=
  .ite (.next (.modCore (.foldl (fun _ _ h => .modRest (fun _ => rfl) h) h))) (.next h)

theorem Canonical.svcRead {view ctx va n go} (hgo : ∀ bytes s, Canonical s → ServedCanonical (go bytes s)) (h : Canonical s) :
    ServedCanonical (Machine.svcRead view ctx va n s go) := by
  rw [Machine.svcRead]
  split
  · exact .poison
  · exact .ite .held (hgo _ _ h.deviceTouch)

theorem Canonical.replyPacket {q p result} (h : Canonical s) : Canonical (Machine.replyPacket q p result s) :=
  h.deviceWrite.completePacket

theorem Canonical.serveQueue {q svc work} (hwork : ∀ c a b v s, Canonical s → ServedCanonical (work c a b v s))
    (h : Canonical s) : EndsCanonical (Machine.serveQueue q svc work s) := by
  unfold Machine.serveQueue
  split
  · exact .next h
  · split
    · exact .orWait h h.tryReject
    · next p _ _ _ =>
      extract_lets ctx s₁
      have h₁ : Canonical s₁ := h.notify
      refine .ite (.next h) ?_
      have hw := hwork ctx (pf p.raw 8 8) (pf p.raw 0x10 8) sysRead s₁ h₁
      split
      · next he => exact .next (hw.of_ok he).replyPacket.tickNow
      · exact .next h₁.rejectPacket.tickNow
      · next he => exact .next (hw.of_stuck he)
      · exact .next h₁.raiseDevice
      · exact .next h

theorem Canonical.raiseToRecord {b ctx va} (h : Canonical s) : Canonical (Machine.raiseToRecord b ctx va s) :=
  .foldl (fun _ _ h => h.raiseFloor) h

theorem Canonical.fillNowProd {b t prod ws} (h : Canonical s) : Canonical (Machine.fillNowProd b t prod ws s) :=
  h.modThread

theorem Canonical.serveThread {b t svc work} (hwork : ∀ c a b v s, Canonical s → ServedCanonical (work c a b v s))
    (h : Canonical s) : EndsCanonical (Machine.serveThread b t svc work s) := by
  unfold Machine.serveThread
  extract_lets th ctx
  split
  · next n a c prod iss len _ =>
    extract_lets _ fault
    have hfault : ∀ source cause addr, Canonical (fault source cause addr) := fun _ _ _ => h.modThread.takeFault
    refine .ite (.next h) ?_
    have hw := hwork ctx a c devRead s h
    split
    · next he =>
      extract_lets s₁ s₂
      have h₁ : Canonical s₁ := (hw.of_ok he).fillNowProd
      have h₂ : Canonical s₂ := h₁.modThread
      refine .next (.tickNow ?_)
      split
      · exact h₂.raiseToRecord
      · exact h₂
    · exact .next (hfault _ _ _)
    · next he => exact .next (hw.of_stuck he)
    · exact .next (hfault _ _ _)
    · exact .next h
  · exact .next h

theorem Canonical.serve {src svc work} (hwork : ∀ c a b v s, Canonical s → ServedCanonical (work c a b v s))
    (h : Canonical s) : EndsCanonical (Machine.serve src svc work s) := by
  simp only [Machine.serve]
  split
  · exact h.serveQueue hwork
  · exact h.serveThread hwork

theorem Canonical.codecLoadWork {ctx a b view} (h : Canonical s) : ServedCanonical (Machine.codecLoadWork ctx a b view s) := by
  refine .ite .reject (h.svcRead fun _ _ h => ?_)
  split
  · exact .reject
  · split
    · exact .reject
    · exact h.svcRead fun _ _ h => .ok h.modCtx

theorem Canonical.execCodecLoad {src} (h : Canonical s) : EndsCanonical (Machine.execCodecLoad src s) :=
  h.serve (fun _ _ _ _ _ h => h.codecLoadWork)

theorem Canonical.readOnlyPages {ctx base len} (h : Canonical s) : Canonical (Machine.readOnlyPages ctx base len s) :=
  .foldl (fun _ _ h => h.editLeaf) h

theorem Canonical.firstBinding {ctx r} (h : Canonical s) : Canonical (Machine.firstBinding ctx r s) := by
  unfold Machine.firstBinding
  extract_lets r s₁ s₂ s₃ s₄ s₅
  have h₂ : Canonical s₂ := .foldl (fun _ _ h => h.editLeaf) h.removeLines
  have h₃ : Canonical s₃ := h₂.readOnlyPages
  have h₄ : Canonical s₄ := .ite (.foldl (fun _ _ h => h.sysWrite) h₃.readOnlyPages) h₃
  exact h₄.dropTlb.dropTlb.dropTlb.modCtx.refreshAliases

theorem Canonical.rebind {ctx n new} (h : Canonical s) : Canonical (Machine.rebind ctx n new s) := by
  unfold Machine.rebind
  extract_lets _ g larger pool s₁ s₂
  have h₁ : Canonical s₁ := .ite h.readOnlyPages.dropTlb.refreshAliases h
  have h₂ : Canonical s₂ := h₁.modRegion
  exact h₂.same rfl

theorem Canonical.codecBindWork {ptes ctx a b view} (h : Canonical s) :
    ServedCanonical (Machine.codecBindWork ptes ctx a b view s) := by
  refine .ite .reject (h.svcRead fun _ _ h => ?_)
  refine .ite .reject (.ite .reject (.ite .reject ?_))
  split
  · split
    · exact .reject
    · exact .ite (.ok h.mmWrite.rebind) .reject
  · exact .ite (.ok h.mmWrite.firstBinding) .reject

theorem Canonical.execCodecBind {src ptes} (h : Canonical s) : EndsCanonical (Machine.execCodecBind src ptes s) :=
  h.serve (fun _ _ _ _ _ h => h.codecBindWork)

theorem Canonical.decodeAll {ctx r l} (h : Canonical s) : BothEnds Canonical Canonical (Machine.decodeAll ctx r l s) := by
  induction l generalizing s with
  | nil => exact h
  | cons k l ih =>
    simp only [Machine.decodeAll]
    split
    · exact ih h
    · split
      · next he => exact ih (h.fillNow.of_ok he)
      · next he => exact (h.fillNow.of_error he).engineSource.raiseContext

theorem Canonical.codecUnbindWork {ptes ctx a b view} (h : Canonical s) :
    ServedCanonical (Machine.codecUnbindWork ptes ctx a b view s) := by
  unfold Machine.codecUnbindWork
  refine .ite .reject ?_
  split
  · exact .reject
  · refine .ite .reject (.ite .held ?_)
    extract_lets s₁ mine
    have h₁ : Canonical s₁ := h.writeBackUnits
    split
    · next he => exact .stuck (h₁.decodeAll.of_error he)
    · next s₂ he =>
      have h₂ : Canonical s₂ := h₁.decodeAll.of_ok he
      extract_lets s₃ s₄ s₅
      have h₃ : Canonical s₃ := .foldl (fun _ _ h => h.endFills) h₂
      have h₄ : Canonical s₄ := .removeLines (h₃.same rfl)
      have h₅ : Canonical s₅ := .foldl (fun _ _ h => h.editLeaf) h₄.mmWrite
      exact .ok h₅.dropTlb.modCtx.refreshAliases

theorem Canonical.execCodecUnbind {src ptes} (h : Canonical s) : EndsCanonical (Machine.execCodecUnbind src ptes s) :=
  h.serve (fun _ _ _ _ _ h => h.codecUnbindWork)

theorem Canonical.regionInfoWork {ctx a va view} (h : Canonical s) :
    ServedCanonical (Machine.regionInfoWork ctx a va view s) := by
  simp only [Machine.regionInfoWork]
  refine .ite .reject ?_
  split
  · exact .reject
  · refine .ite .reject (.ite .held ?_)
    split
    · exact .poison
    · exact .ok h.deviceWrite

theorem Canonical.execRegionInfo {src} (h : Canonical s) : EndsCanonical (Machine.execRegionInfo src s) :=
  h.serve (fun _ _ _ _ _ h => h.regionInfoWork)

end Sys2Proof.Machine
end


section
/-!
PROOFS. The canonical form under stops, what the EH does, pre-emption, saving and restoring.
-/

namespace Sys2Proof.Machine

open Sys2Proof

variable {s : State}

theorem Canonical.widenOwn {b t op sc} (h : Canonical s) : Canonical (Machine.widenOwn b t op sc s) :=
  .same (.foldl (fun _ _ h => h.dropSharers) h) rfl

theorem Canonical.forceLine {now b t o} (h : Canonical s) :
    BothEnds Canonical (fun e => Canonical e.2) (Machine.forceLine now b t o s) := by
  unfold Machine.forceLine
  extract_lets ctx walks
  split
  · exact h.chargeLost
  split
  · exact h.memoryError
  split
  · split
    · exact h.chargeOp
    split
    · exact h.abandonOp
    split
    · exact h.memoryError
    split
    · exact h.abandonOp
    split
    · split
      · exact h
      · exact h.abandonOp
    · next he =>
      have hm := h.touchRange.of_error he _ rfl
      show Canonical _
      split
      · exact hm.failUnit.abandonOp
      · exact hm.decodeFault
    · next he =>
      have hm := h.touchRange.of_ok he
      exact Canonical.ite (.poolLine (fun _ _ h => h) hm) hm
  · exact h.chargeOp

theorem Canonical.forceStep {b t o} (h : Canonical s) : Canonical (Machine.forceStep b t o s) := by
  unfold Machine.forceStep
  extract_lets s₁
  have h₁ : Canonical s₁ := by
    unfold s₁
    split
    · exact h.sendPool.widenOwn
    · exact h
  split
  · exact .ite h₁.atomScratch h₁.widenOwn.atomGlobal
  · exact .ite h₁.satisfyScratch (.ite h₁.satisfyGlobal h₁.satisfyGlobal)
  · exact .ite h₁.satisfyScratch (.ite h₁.satisfyGlobal h₁.satisfyGlobal)
  · exact h₁.takeStep

theorem Canonical.stopEntry {now plan e} (h : Canonical s) : Canonical (Machine.stopEntry now plan e s) := by
  unfold Machine.stopEntry
  obtain ⟨b, t, op⟩ := e
  dsimp only
  split
  · exact h
  · split
    · exact h.dropOp
    · refine .ite h.abandonOp.takeFault (.ite ?_ ?_)
      · split
        · exact h.dropOp
        · exact h.abandonOp
      refine .ite (.ite h.satisfyTogether.tickNow h.abandonOp) (.ite h.forceStep.dropOp.tickNow ?_)
      split
      · next he => exact h.forceLine.of_error he
      · next he => exact (h.forceLine.of_ok he).forceStep.dropOp.tickNow

theorem Canonical.settleProds {b t} (h : Canonical s) : Canonical (Machine.settleProds b t s) := by
  refine .foldl (fun _ _ h => ?_) h
  split
  · exact h
  · split
    · exact h.modThread
    · exact h.modThread

theorem Canonical.discardArrivals {b} (h : Canonical s) : Canonical (Machine.discardArrivals b s) :=
  h.sweepSlots.modBlock fun _ hk => ⟨hk.scratch, hk.fe, hk.ckpt, List.forall_mem_map.2 hk.tiles⟩

theorem Canonical.stopCopies {b} (h : Canonical s) : Canonical (Machine.stopCopies b s) :=
  .foldl (fun _ _ h => .ite h.landCopy (.modRest (fun _ => rfl) h)) h

theorem Canonical.reissueCopy {b c} (h : Canonical s) : Canonical (Machine.reissueCopy b c s) :=
  .foldl (fun _ _ h => h.modThread) (.modRest (fun _ => rfl) h)

theorem Canonical.reissueCopies {b} (h : Canonical s) : Canonical (Machine.reissueCopies b s) :=
  .foldl (fun _ _ h => h.reissueCopy) h

theorem Canonical.stopRecords {ctx srcs seq from_} (h : Canonical s) : Canonical (Machine.stopRecords ctx srcs seq from_ s) :=
  .foldl (fun _ _ h => h.writeRecord) h

theorem Canonical.stopMatrix {plan core} (h : Canonical s) : Canonical (Machine.stopMatrix plan core s) := by
  simp only [Machine.stopMatrix]
  refine .ite ?_ ?_
  · split
    · exact .ite h.completeInst h
    · exact h
  · exact h

theorem Canonical.execPartitionStop {p plan} (h : Canonical s) : EndsCanonical (Machine.execPartitionStop p plan s) := by
  unfold Machine.execPartitionStop
  split
  · exact .next h
  · split
    · extract_lets bs engines s₁ s₂ s₃ s₄ s₅
      have h₁ : Canonical s₁ := .foldl (fun _ _ h => h.stopEntry) h
      have h₂ : Canonical s₂ := .foldl (fun _ _ h => h.stopMatrix) h₁
      have h₃ : Canonical s₃ := .foldl (fun _ _ h => h.stopCopies) h₂
      have h₄ : Canonical s₄ := .foldl (fun _ _ h => .discardArrivals (.foldl (fun _ _ h => h.settleProds) h)) h₃
      exact .ite (.next h) (.next h₄.cancelDecodes.modPart.stopRecords.tickNow)
    · exact .next h

theorem Canonical.execEhResumeContext {ctx} (h : Canonical s) : EndsCanonical (Machine.execEhResumeContext ctx s) :=
  .ite (.next (.foldl (fun _ _ h => .ite h.reissueCopies h) h.resumeCtx)) (.next h)

theorem Canonical.endBlocks {l} (h : Canonical s) : Canonical (Machine.endBlocks l s) := by
  unfold Machine.endBlocks
  extract_lets bs s₁
  have h₁ : Canonical s₁ := .foldl (fun _ _ h => .modRest (fun _ => rfl) h) h
  exact h₁.same rfl

theorem Canonical.killLaunch {l} (h : Canonical s) : Canonical (Machine.killLaunch l s) := by
  unfold Machine.killLaunch
  extract_lets s₁ s₂
  have h₁ : Canonical s₁ := h.endBlocks.trimSpawn.modLaunch
  have h₂ : Canonical s₂ := .ite h₁.widenLaunch h₁
  exact .ite (.ite h₁ (.ite h₂ h₂.finishLaunch.tickNow)) h

theorem Canonical.execEhKillLaunch {l} (h : Canonical s) : EndsCanonical (Machine.execEhKillLaunch l s) :=
  .ite (.next h.killLaunch) (.next h)

theorem Canonical.execEhKillContext {ctx} (h : Canonical s) : EndsCanonical (Machine.execEhKillContext ctx s) := by
  unfold Machine.execEhKillContext
  extract_lets s₁ s₂ s₃
  have h₂ : Canonical s₂ := .foldl (fun _ _ h => .ite h.killLaunch h) h.modCtx
  have h₃ : Canonical s₃ := .foldl (fun _ _ h => .ite (.ite h.modXfer h.modXfer.endCopy) h) h₂
  exact .ite (.next (h₃.same rfl)) (.next h)

theorem Canonical.flushBlock {b} (h : Canonical s) : Canonical (Machine.flushBlock b s) := by
  unfold Machine.flushBlock
  extract_lets k s₁ s₂ s₃ s₄
  have h₂ : Canonical s₂ := .modCore (.foldl (fun _ _ h => h.dropOwner) h)
  have h₃ : Canonical s₃ := h₂.same rfl
  exact .modBlock (fun _ _ => ⟨sparseWf_nil, sparseWf_nil, nofun, nofun⟩) h₃.dropRequests

theorem Canonical.preemptSpan {d f bs} (h : Canonical s) : Canonical (Machine.preemptSpan d f bs s) := by
  simp only [Machine.preemptSpan]
  split
  · exact .foldl (fun _ _ h => h.flushBlock) h
  · exact .foldl (fun _ _ h => .modRest (fun _ => rfl) h) h

theorem Canonical.execPreemptionRequest {p d f} (h : Canonical s) : EndsCanonical (Machine.execPreemptionRequest p d f s) := by
  unfold Machine.execPreemptionRequest
  split
  · exact .next h
  · extract_lets s₁ heads
    have h₁ : Canonical s₁ := .foldl (fun _ _ h => .ite h.retire h) h
    refine .ite (.next h) (.ite (.next h₁) ?_)
    split
    · exact .next h₁.raiseDevice
    · exact .next (.foldl (fun _ _ h => h.preemptSpan) (.modPart (.foldl (fun _ _ h => h.deviceTouch) h₁)))

theorem Canonical.execDrainTimeout {p} (h : Canonical s) : EndsCanonical (Machine.execDrainTimeout p s) :=
  .ite (.next (.foldl (fun _ _ h => .modRest (fun _ => rfl) h) h)) (.next h)

theorem Canonical.saveRecord {b} (h : Canonical s) : Canonical (Machine.saveRecord s b).2 :=
  h.same rfl

theorem Canonical.saveBlock {b} (h : Canonical s) : Canonical (Machine.saveBlock b s) := by
  simp only [Machine.saveBlock]
  have hr : Canonical (Machine.saveRecord (Machine.captureSaved (s.block b).core b s) b).2 := h.captureSaved.saveRecord
  generalize Machine.saveRecord (Machine.captureSaved (s.block b).core b s) b = r at hr ⊢
  refine .modRest (fun _ => rfl) (.modCore (.modCtx ?_))
  exact ⟨hr.mem, memWrite_wf _ _ hr.pmem, hr.hmem, hr.blocks⟩

theorem Canonical.execBlockSave {b} (h : Canonical s) : EndsCanonical (Machine.execBlockSave b s) :=
  .ite (.next h.discardArrivals.saveBlock) (.next h)

theorem Canonical.restoreOne {b core f} (h : Canonical s) : Canonical (Machine.restoreOne b core f s) := by
  have hr : Canonical (Machine.modBlock b (restoreBlock core f (s.coreCycle core) (s.launchOf b)) s) := h.modRest fun _ => rfl
  exact .ite hr.modCore.modCtx hr.modCore.modCtx.reissueCopies

theorem Canonical.raiseRecord {b a} (h : Canonical s) : Canonical (Machine.raiseRecord b a s) :=
  h.raiseContext

theorem Canonical.execContextRestore {b places} (h : Canonical s) : EndsCanonical (Machine.execContextRestore b places s) := by
  refine .ite (.next ?_) (.next h)
  split
  · exact h.raiseRecord
  · exact .foldl (fun _ _ h => h.restoreOne) h

theorem Canonical.execTimingReplay {core} (h : Canonical s) : EndsCanonical (Machine.execTimingReplay core s) :=
  .next h.modCore

end Sys2Proof.Machine
end


section
/-!
PROOFS. The canonical form under the pool tier, Winter and Thaw, firmware and management.
-/

namespace Sys2Proof.Machine

open Sys2Proof

variable {s : State}

theorem Canonical.snoopDie {op ctx va d} (h : Canonical s) : Canonical (Machine.snoopDie op ctx va s d) := by
  simp only [Machine.snoopDie]
  split
  · exact h
  · split
    · exact .dropLine (h.reachDevice.same rfl)
    · exact h.reachDevice.same rfl
    · exact h.reachDevice.same rfl

theorem Canonical.snoopLine {op port hpa} (h : Canonical s) : Canonical (Machine.snoopLine op port s hpa) := by
  simp only [Machine.snoopLine]
  split
  · exact h
  · exact .foldl (fun _ _ h => h.snoopDie) h

theorem Canonical.peerStore {sn} (h : Canonical s) : Canonical (Machine.peerStore sn s) :=
  h.keepPeers.peerItems

theorem Canonical.execBackInvalidationSnoop {sn} (h : Canonical s) :
    EndsCanonical (Machine.execBackInvalidationSnoop sn s) := by
  unfold Machine.execBackInvalidationSnoop
  extract_lets s₁ s₂
  have h₁ : Canonical s₁ := .foldl (fun _ _ h => h.snoopLine) h
  have h₂ : Canonical s₂ := h₁.reply
  exact .ite (.next (.tickNow (.ite h₂.peerStore h₂))) (.next h)

theorem Canonical.modPort {p f} (h : Canonical s) : Canonical (Machine.modPort p f s) :=
  h.same rfl

theorem Canonical.salvage {port ctx p} (h : Canonical s) : Canonical (Machine.salvage port ctx p s).2 := by
  refine .foldl (fun _ _ h => ?_) h.sysWrite.sysWrite.removeLines
  split
  · exact h.raiseStore
  · exact h

theorem Canonical.loseContext {port rs ctx} (h : Canonical s) : Canonical (Machine.loseContext port rs s ctx) :=
  .logAs (.foldl (fun _ _ h => h.sysWrite) h.nextSeq)

theorem Canonical.loseLink {port} (h : Canonical s) : Canonical (Machine.loseLink port s) := by
  unfold Machine.loseLink
  extract_lets rs s₁ mark s₂
  have h₂ : Canonical s₂ := (h.modPort : Canonical s₁).same rfl
  have hf : Canonical (rs.foldl (fun (a : List (Nat × PoolRegion × Nat) × State) r =>
      ((a.1 ++ [(r.1, r.2, (Machine.salvage port r.1 r.2 a.2).1)], (Machine.salvage port r.1 r.2 a.2).2))) ([], s₂)).2 :=
    foldl_keeps (fun a : List (Nat × PoolRegion × Nat) × State => Canonical a.2) _ (fun _ _ h => h.salvage) _ _ h₂
  split
  next counts m he =>
    extract_lets s₃ s₄
    have h₃ : Canonical s₃ := by
      refine .foldl (fun _ _ h => .foldl (fun _ _ h => ?_) h) (he ▸ hf :)
      split
      · exact h.chargeLost
      · exact h
    exact .foldl (fun _ _ h => h.loseContext) h₃.modCtl

theorem Canonical.execLinkExitL0 {port} (h : Canonical s) : EndsCanonical (Machine.execLinkExitL0 port s) :=
  .next h.modPort

theorem Canonical.execLinkReturnToL0 {port} (h : Canonical s) : EndsCanonical (Machine.execLinkReturnToL0 port s) :=
  .next h.modPort

theorem Canonical.execLinkRecoveryTimeout {port} (h : Canonical s) : EndsCanonical (Machine.execLinkRecoveryTimeout port s) :=
  .next (.ite h.loseLink.tickNow h)

theorem Canonical.execPoolRequestTimeout {port} (h : Canonical s) : EndsCanonical (Machine.execPoolRequestTimeout port s) :=
  .next (.ite h.loseLink.tickNow h)

theorem Canonical.execPortReturnTimeout {port} (h : Canonical s) : EndsCanonical (Machine.execPortReturnTimeout port s) :=
  .next (.ite h.loseLink.tickNow h)

theorem Canonical.forgetLost {ctx p} (h : Canonical s) : Canonical (Machine.forgetLost ctx p s) :=
  h.same rfl

theorem Canonical.execRegionRevalidate {ctx i} (h : Canonical s) : EndsCanonical (Machine.execRegionRevalidate ctx i s) := by
  simp only [Machine.execRegionRevalidate]
  split
  · exact .next h
  · exact .ite (.next h.modCtx.forgetLost) (.next h)

theorem Canonical.execPoolAttach {port dev} (h : Canonical s) : EndsCanonical (Machine.execPoolAttach port dev s) :=
  .ite (.next (h.same rfl)) (.next h)

theorem Canonical.copyAgain {b c d} (h : Canonical s) : Canonical (Machine.copyAgain b c d s) := by
  simp only [Machine.copyAgain]
  split
  · exact h.copyStep
  · exact h

theorem Canonical.landCopies {b} (h : Canonical s) : Canonical (Machine.landCopies b s) := by
  refine .foldl (fun _ _ h => .ite h ?_) h
  split
  · exact .ite h.landCopy (.foldl (fun _ _ h => h.copyAgain) h)
  · exact h.landCopy

theorem Canonical.unaskService {b t} (h : Canonical s) : Canonical (Machine.unaskService b t s) :=
  h.modThread

theorem Canonical.quiesceBlock {b} (h : Canonical s) : Canonical (Machine.quiesceBlock s b) :=
  .discardArrivals (.foldl (fun _ _ h => h.unaskService.settleProds) h.landCopies.stopCopies)

theorem Canonical.quiesceCopies (h : Canonical s) : Canonical (Machine.quiesceCopies s) :=
  .foldl (fun _ _ h => .ite h (.ite h.modXfer h.writeChunk)) h

theorem Canonical.quiesceBlocks {bs} (h : Canonical s) : Canonical (Machine.quiesceBlocks bs s) :=
  .foldl (fun _ _ h => h.quiesceBlock) (.foldl (fun _ _ h => h.stopEntry) h)

theorem Canonical.quiescePart {p} (h : Canonical s) : Canonical (Machine.quiescePart s p) := by
  unfold Machine.quiescePart
  extract_lets x s₁
  have h₁ : Canonical s₁ := .ite h.quiesceBlocks h
  split
  · next hr => exact h₁.execPartitionStop _ hr
  · exact h₁

theorem Canonical.winterSave {b} (h : Canonical s) : Canonical (Machine.winterSave s b) :=
  .modRest (fun _ => rfl) h.saveBlock

theorem Canonical.saveAll (h : Canonical s) : Canonical (Machine.saveAll s) :=
  .foldl (fun _ _ h => h.winterSave) (.quiesceCopies (.foldl (fun _ _ h => h.quiescePart) h))

theorem Canonical.losePort {port} (h : Canonical s) : Canonical (Machine.losePort s port) :=
  .ite h.loseLink h

theorem Canonical.pushAll (h : Canonical s) : Canonical (Machine.pushAll s) :=
  .foldl (fun _ _ h => h.pushPool) h

theorem Canonical.spillUnit {u} (h : Canonical s) : Canonical (Machine.spillUnit s u) := by
  simp only [Machine.spillUnit]
  split
  · exact h
  · exact .foldl (fun _ _ h => h.modDie) h

theorem Canonical.writeBackAll (h : Canonical s) : Canonical (Machine.writeBackAll s) := by
  unfold Machine.writeBackAll
  extract_lets s₁ s₂ clean s₃
  have h₁ : Canonical s₁ := .foldl (fun _ _ h => h.writeBackUnits) h
  have h₂ : Canonical s₂ := .foldl (fun _ _ h => h.losePort) h₁.pushAll
  exact .foldl (fun _ _ h => h.spillUnit) (h₂.same rfl)

theorem Canonical.enterWinter {way} (h : Canonical s) : Canonical (Machine.enterWinter way s) := by
  unfold Machine.enterWinter
  extract_lets s₁ off s₂
  have h₁ : Canonical s₁ := .writeBackAll (.saveAll (.foldl (fun _ _ h => h.losePort) h.pushAll))
  clear_value s₁
  have h₂ : Canonical s₂ := h₁.same rfl
  exact h₂.modPlat.logEvent

theorem Canonical.wipeSram (h : Canonical s) : Canonical (Machine.wipeSram s) :=
  h.same rfl

theorem Canonical.unspill {e} (h : Canonical s) : Canonical (Machine.unspill s e) := by
  simp only [Machine.unspill]
  split
  · exact h
  · exact h.setPlain.leaveBlock

theorem Canonical.unspillDie {d} (h : Canonical s) : Canonical (Machine.unspillDie s d) :=
  .modDie (.foldl (fun _ _ h => h.unspill) h)

theorem Canonical.thawBlock {b} (h : Canonical s) : Canonical (Machine.thawBlock s b) := by
  simp only [Machine.thawBlock]
  refine .ite ?_ ?_
  · refine .ite ?_ ?_
    · split
      · exact .raiseRecord (.modRest (fun _ => rfl) h)
      · exact h.restoreOne
    · exact .modRest (fun _ => rfl) h
  · exact h

theorem Canonical.thawContexts (h : Canonical s) : Canonical (Machine.thawContexts s) :=
  .foldl (fun _ _ h => h.thawBlock) (.foldl (fun _ _ h => h.unspillDie) h)

theorem Canonical.thawPorts (h : Canonical s) : Canonical (Machine.thawPorts s) :=
  .logEvent (.modPlat (h.same rfl))

theorem Canonical.thawStep (h : Canonical s) : Canonical (Machine.thawStep s) := by
  simp only [Machine.thawStep]
  split
  · exact h.wipeSram.modPlat
  · exact h.thawContexts.modPlat
  · exact h.modPlat
  · exact h.thawPorts

theorem Canonical.execThaw (h : Canonical s) : EndsCanonical (Machine.execThaw s) :=
  .next (.ite h.thawStep.tickNow h)

theorem Canonical.execPwrwarnAssert (h : Canonical s) : EndsCanonical (Machine.execPwrwarnAssert s) :=
  .next (.ite h.modPlat.enterWinter.tickNow h.modPlat)

theorem Canonical.execPwrwarnDeassert (h : Canonical s) : EndsCanonical (Machine.execPwrwarnDeassert s) :=
  .next h.modPlat

theorem Canonical.execWinterRequest (h : Canonical s) : EndsCanonical (Machine.execWinterRequest s) :=
  .next (.ite h.enterWinter.tickNow h)

theorem Canonical.execWakeRequest (h : Canonical s) : EndsCanonical (Machine.execWakeRequest s) :=
  .next (.ite h.modPlat h)

theorem Canonical.setReadings {die rs} (h : Canonical s) : Canonical (Machine.setReadings die rs s) :=
  h.modDie

theorem Canonical.execWinterSensorSample {die readings} (h : Canonical s) :
    EndsCanonical (Machine.execWinterSensorSample die readings s) :=
  .next (.ite h.setReadings.modPlat h)

theorem Canonical.execMailboxMessage {core msg} (h : Canonical s) : EndsCanonical (Machine.execMailboxMessage core msg s) :=
  .next h.nextSeq.modPlat

theorem Canonical.execArbiterWindow {caps budgets clocks} (h : Canonical s) :
    EndsCanonical (Machine.execArbiterWindow caps budgets clocks s) :=
  .next (h.same rfl)

theorem Canonical.execThermalSample {die readings} (h : Canonical s) :
    EndsCanonical (Machine.execThermalSample die readings s) := by
  unfold Machine.execThermalSample
  extract_lets s₁ above s₂ s₃
  have h₁ : Canonical s₁ := h.setReadings
  have h₂ : Canonical s₂ := .ite h₁.modDie.logEvent h₁
  have h₃ : Canonical s₃ := .ite h₂.modDie h₂
  exact .next (.ite h₃.enterWinter.tickNow h₃)

theorem Canonical.execEmergencyEnd {die} (h : Canonical s) : EndsCanonical (Machine.execEmergencyEnd die s) :=
  .next (.ite h.modDie h)

theorem Canonical.wipeMemories (h : Canonical s) : Canonical (Machine.wipeMemories s) :=
  ⟨sparseWf_nil, sparseWf_nil, h.hmem, fun _ hk => absurd hk List.not_mem_nil⟩

theorem Canonical.execReset {failed} (h : Canonical s) : EndsCanonical (Machine.execReset failed s) :=
  have hr := ⟨sparseWf_nil, sparseWf_nil, h.hmem, fun _ hk => absurd hk List.not_mem_nil⟩
  .next (.ite hr (.logEvent hr))

theorem Canonical.execLifeCycleTransition {target signed} (h : Canonical s) :
    EndsCanonical (Machine.execLifeCycleTransition target signed s) :=
  .next (.ite h.fresh.wipeMemories.modPlat h.fresh)

theorem Canonical.askMg {serve} (hserve : ∀ s, Canonical s → EndsCanonical (serve s)) (h : Canonical s) :
    EndsCanonical (Machine.askMg s serve) :=
  .ite (.next h) (hserve _ h.mgRequest)

theorem Canonical.execFirmwareUpdate {image counter signed} (h : Canonical s) :
    EndsCanonical (Machine.execFirmwareUpdate image counter signed s) :=
  h.askMg (fun _ h => .next h.modPlat)

theorem Canonical.execAttestationRequest {port nonce} (h : Canonical s) :
    EndsCanonical (Machine.execAttestationRequest port nonce s) :=
  .next (.ite h.fresh.reply h.fresh)

theorem Canonical.askScrub (h : Canonical s) : Canonical (Machine.askScrub s) :=
  .foldl (fun _ _ h => .ite h h.arrive) h

theorem Canonical.execPatrolScrub {corrected bad} (h : Canonical s) : EndsCanonical (Machine.execPatrolScrub corrected bad s) :=
  .next (.logEvent (.modPlat (.foldl (fun _ _ h => h.repairRemap) h.askScrub)))

theorem Canonical.execSensorRead (h : Canonical s) : EndsCanonical (Machine.execSensorRead s) :=
  h.askMg (fun _ h => .next h.fresh.reply)

theorem Canonical.execEventLogRead (h : Canonical s) : EndsCanonical (Machine.execEventLogRead s) :=
  h.askMg (fun _ h => .next h.reply)

theorem Canonical.execDeadlineCountersRead (h : Canonical s) : EndsCanonical (Machine.execDeadlineCountersRead s) :=
  h.askMg (fun _ h => .next (h.same rfl))

theorem Canonical.execWinterCountRead (h : Canonical s) : EndsCanonical (Machine.execWinterCountRead s) :=
  h.askMg (fun _ h => .next h.reply)

theorem Canonical.writeMask {die f} (h : Canonical s) : Canonical (Machine.writeMask die f s) :=
  .ite h h.modDie

theorem Canonical.writeHomeMap {ctx m} (h : Canonical s) : Canonical (Machine.writeHomeMap ctx m s) :=
  .ite h.modCtx h

theorem Canonical.refreshMap (h : Canonical s) : Canonical (Machine.refreshMap s) :=
  h.same rfl

theorem Canonical.dropUncovered (h : Canonical s) : Canonical (Machine.dropUncovered s) :=
  h.same rfl

theorem Canonical.writeDecoder {i d} (h : Canonical s) : Canonical (Machine.writeDecoder i d s) :=
  .ite (.claimPeers (.dropUncovered (.refreshMap (h.same rfl)))) h

theorem Canonical.writePartition {p cores ctx} (h : Canonical s) : Canonical (Machine.writePartition p cores ctx s) :=
  .ite (h.same rfl) h

theorem Canonical.execRegisterWrite {w} (h : Canonical s) : EndsCanonical (Machine.execRegisterWrite w s) := by
  refine .next ?_
  split
  · exact .ite h.modCore h
  · exact h.modCtx
  · exact h.writeMask
  · exact h.writeMask
  · exact h.writeHomeMap
  · exact h.writeDecoder
  · exact h.writePartition
  · exact h.mmWrite
  · exact .ite h.modPlat h

theorem Canonical.execHostMemoryAccess {a} (h : Canonical s) : EndsCanonical (Machine.execHostMemoryAccess a s) := by
  cases a with
  | read ctx va n =>
    rw [Machine.execHostMemoryAccess]
    refine .ite (.next h) (.ite (.next h.reply) ?_)
    split
    · exact .next h.raiseDevice.reply
    · exact .next h.deviceTouch.reply.tickNow
  | write ctx va bytes => exact .ite (.next h) (.next (.ite h.deviceWrite.tickNow h))

theorem Canonical.execContextCreate {spec} (h : Canonical s) : EndsCanonical (Machine.execContextCreate spec s) :=
  .next (.ite (.notify (.refreshAliases (h.same rfl))) h)

end Sys2Proof.Machine
end


section
/-!
PROOFS. The canonical form under one step: an instruction or event, a turn of the agenda, the step.
-/

namespace Sys2Proof.Machine

open Sys2Proof

variable {s : State}

theorem Canonical.exec {i} (h : Canonical s) : EndsCanonical (Machine.exec i s) := by
  cases i with simp only [Machine.exec]
  | tailDoorbell => exact h.execTailDoorbell
  | queueCreate => exact h.execQueueCreate
  | queueResume => exact h.execQueueResume
  | launch => exact h.execLaunch
  | launchDispatch => exact h.execLaunchDispatch
  | copy => exact h.execCopy
  | copyChunk => exact h.execCopyChunk
  | signal => exact h.execSignal
  | tokclr => exact h.execTokclr
  | map => exact h.execMap
  | launchCompletion => exact h.execLaunchCompletion
  | blockPlacement => exact h.execBlockPlacement
  | placementReservation => exact h.execPlacementReservation
  | blockRetirement => exact h.execBlockRetirement
  | waveActivation => exact h.execWaveActivation
  | waveSwap => exact h.execWaveSwap
  | starvationAdmission => exact h.execStarvationAdmission
  | issueRotation => exact h.execIssueRotation
  | groupIssueLimit => exact h.execGroupIssueLimit
  | leaseHalving => exact h.execLeaseHalving
  | meetingArrival => exact h.execMeetingArrival
  | convergenceDeadlock => exact h.execConvergenceDeadlock
  | crossLaneFire => exact h.execCrossLaneFire
  | producerCompletion => exact h.execProducerCompletion
  | waveTimerExpiry => exact h.execWaveTimerExpiry
  | mmaCapture => exact h.execMmaCapture
  | mmaCompletion => exact h.execMmaCompletion
  | tokenGrant => exact h.execTokenGrant
  | tokenReturn => exact h.execTokenReturn
  | acpTransferComplete => exact h.execAcpTransferComplete
  | tcopyComplete => exact h.execTcopyComplete
  | storePerform => exact h.execStorePerform
  | loadSatisfy => exact h.execLoadSatisfy
  | frontierAdvance => exact h.execFrontierAdvance
  | lineFill => exact h.execLineFill
  | pageWalk => exact h.execPageWalk
  | pageMigration => exact h.execPageMigration
  | controllerServe => exact h.execControllerServe
  | budgetWindow => exact h.execBudgetWindow
  | blockFill => exact h.execBlockFill
  | blockEncode => exact h.execBlockEncode
  | stepBoundExceeded => exact h.execStepBoundExceeded
  | recodeWalk => exact h.execRecodeWalk
  | codecLoad => exact h.execCodecLoad
  | codecBind => exact h.execCodecBind
  | codecUnbind => exact h.execCodecUnbind
  | regionInfo => exact h.execRegionInfo
  | slotInjection => exact h.execSlotInjection
  | partitionStop => exact h.execPartitionStop
  | ehKillLaunch => exact h.execEhKillLaunch
  | ehKillContext => exact h.execEhKillContext
  | ehResumeContext => exact h.execEhResumeContext
  | preemptionRequest => exact h.execPreemptionRequest
  | drainTimeout => exact h.execDrainTimeout
  | blockSave => exact h.execBlockSave
  | contextRestore => exact h.execContextRestore
  | timingReplay => exact h.execTimingReplay
  | backInvalidationSnoop => exact h.execBackInvalidationSnoop
  | linkExitL0 => exact h.execLinkExitL0
  | linkRecoveryTimeout => exact h.execLinkRecoveryTimeout
  | poolRequestTimeout => exact h.execPoolRequestTimeout
  | regionRevalidate => exact h.execRegionRevalidate
  | poolAttach => exact h.execPoolAttach
  | mailboxMessage => exact h.execMailboxMessage
  | arbiterWindow => exact h.execArbiterWindow
  | thermalSample => exact h.execThermalSample
  | emergencyEnd => exact h.execEmergencyEnd
  | pwrwarnAssert => exact h.execPwrwarnAssert
  | winterRequest => exact h.execWinterRequest
  | pwrwarnDeassert => exact h.execPwrwarnDeassert
  | wakeRequest => exact h.execWakeRequest
  | winterSensorSample => exact h.execWinterSensorSample
  | thaw => exact h.execThaw
  | reset => exact h.execReset
  | lifeCycleTransition => exact h.execLifeCycleTransition
  | firmwareUpdate => exact h.execFirmwareUpdate
  | attestationRequest => exact h.execAttestationRequest
  | patrolScrub => exact h.execPatrolScrub
  | sensorRead => exact h.execSensorRead
  | eventLogRead => exact h.execEventLogRead
  | deadlineCountersRead => exact h.execDeadlineCountersRead
  | winterCountRead => exact h.execWinterCountRead
  | registerWrite => exact h.execRegisterWrite
  | meet => exact h.execMeet
  | spawn => exact h.execSpawn
  | gate => exact h.execGate
  | release => exact h.execRelease
  | svc => exact h.execSvc
  | st => exact h.execSt
  | feset => exact h.execFeset
  | atom => exact h.execAtom
  | fence => exact h.execFence
  | cctl => exact h.execCctl
  | lease => exact h.execLease
  | acp => exact h.execAcp
  | acwait => exact h.execAcwait
  | tcopy => exact h.execTcopy
  | mma => exact h.execMma
  | cvset => exact h.execCvset
  | accwin => exact h.execAccwin
  | ast => exact h.execAst
  | aclr => exact h.execAclr
  | tkget => exact h.execTkget
  | tkput => exact h.execTkput
  | swrite => exact h.execSwrite
  | linkReturnToL0 => exact h.execLinkReturnToL0
  | portReturnTimeout => exact h.execPortReturnTimeout
  | hostMemoryAccess => exact h.execHostMemoryAccess
  | contextCreate => exact h.execContextCreate
  | movBase | iaddBase | shlBase | shrBase | andBase | moviBase | moviBaseLiteral | iaddBaseLiteral | andBaseLiteral | iadd
  | isub | iadd3 | imul | imulh | imad | imadw | imin | imax | iaddmin | iabs | idp4 | iset | sel | mov | movi | lea | and
  | or | xor | lop3 | shl | shr | sar | fsh | bfx | bfi | popc | clz | brev | perm | plop | p2v | fadd | fmul | ffma | fmin
  | fmax | fset | fcls | frnd | fscl | fdp2 | cvt => exact h.aluExec
  | xEnd | xFail | xMovi | xMovh | xAdd | xSub | xAnd | xOr | xXor | xShl | xShr | xSar | xZze | xGetb | xPutb | xLdt | xLdw
  | xStw | xLdp | xCopy | xBeq | xBne | xBlt | xJ | xInfo | xZzd => exact h.fitasExec
  | braBase | bra | brx | call | callx | ret => exact h.transfer
  | shfl | vote | wred | qxch | qbc => exact h.crossExec
  | frcp | fsqrt | frsq | fex2 | flg2 => exact h.sfuExec
  | ldsBase | ldsBaseLiteral | lds => exact h.ldsExec
  | stsBase | stsBaseLiteral | sts => exact h.stsExec
  | barBase | bar => exact h.barExec
  | trap | brk => exact h.trapExec
  | ld | ldc => exact h.loadExec
  | meetx | v2p | elect | atoms | ald | sread => exact h.laneExec (fun _ _ _ h => h.modThread)
  | nopBase | nop | pfetch | mwait => exact h.laneExec (fun _ _ _ h => h)
  | exitBase | exit => exact h.laneExec (fun _ _ _ h => h.exitThread)

theorem Canonical.noteSlot {core sub x pc} (h : Canonical s) : Canonical (Machine.noteSlot core sub x pc s) :=
  .modPWave (.foldl (fun _ _ h => h.modThread) h.modSub)

theorem Canonical.fetchFaulted {x pc cause} (h : Canonical s) : Canonical (Machine.fetchFaulted x pc cause s) := by
  simp only [Machine.fetchFaulted]
  split
  · exact h.errorOrRollBack
  · exact h.raiseCause

theorem Canonical.issueFault {x pc cause} (h : Canonical s) : Canonical (Machine.issueFault x pc cause s) :=
  .ite h.raiseCause h.fetchFaulted

theorem Canonical.issueTurn {core sub} (h : Canonical s) : EndsCanonical (Machine.issueTurn core sub s) := by
  simp only [Machine.issueTurn]
  split
  · exact .next h
  · split
    · exact .next h.noteSlot.issueFault
    · exact .exec (h.noteSlot.same rfl)

theorem Canonical.fitasTurn {n} (h : Canonical s) : EndsCanonical (Machine.fitasTurn n s) := by
  simp only [Machine.fitasTurn]
  refine .ite ?_ ?_
  · refine .ite (.exec (h.same rfl)) ?_
    split
    · exact .exec (h.same rfl)
    · exact .next (.modRun (h.same rfl))
  · exact .next h

theorem Canonical.countWaits {b} (h : Canonical s) : Canonical (Machine.countWaits s b) :=
  .foldl (fun _ _ h => h.modPWave) h

theorem Canonical.tickBlock {b} (h : Canonical s) : Canonical (Machine.tickBlock s b) :=
  .modBlock (fun _ hk => ⟨hk.scratch, hk.fe, hk.ckpt, List.forall_mem_map.2 hk.tiles⟩)
    (.countWaits (.foldl (fun _ _ h => h.judgeBar.settleCv) h.sweepSlots))

theorem Canonical.dropBlocked {b} (h : Canonical s) : Canonical (Machine.dropBlocked s b) := by
  refine .foldl (fun _ _ h => ?_) h
  split
  · exact .ite h.modPWave h
  · exact h

theorem Canonical.tickTurn (h : Canonical s) : Canonical (Machine.tickTurn s) := by
  unfold Machine.tickTurn
  extract_lets cores bs s₁
  have h₁ : Canonical s₁ := .foldl (fun _ _ h => h.settleCaptures.startWaiters) (.foldl (fun _ _ h => h.tickBlock) h)
  exact .ite h (.foldl (fun _ _ h => h.dropBlocked) (h₁.same rfl))

theorem Canonical.sramErrorTurn {b tids pc} (h : Canonical s) : Canonical (Machine.sramErrorTurn b tids pc s) :=
  .ite h.errorOrRollBack h

theorem Canonical.firmwareTurn {c} (h : Canonical s) : Canonical (Machine.firmwareTurn c s) :=
  .ite h (.ite h.modPlat (.modPlat (.ite h.receiveRecord h)))

theorem Canonical.takeTurn {turn} (h : Canonical s) : EndsCanonical (Machine.takeTurn turn s) := by
  simp only [Machine.takeTurn]
  split
  · exact h.issueTurn
  · exact h.fitasTurn
  · exact .ite (.next h) h.exec
  · exact .next h.sramErrorTurn
  · exact .next h.firmwareTurn
  · exact .next h.hostWrite
  · exact .next h.tickTurn

theorem Canonical.step (h : Canonical s) : EndsCanonical (Machine.step s) := by
  simp only [Machine.step]
  split
  · exact h.exec
  · exact .takeTurn (h.same rfl)

/-- Settles O59: what each turn, event and instruction does to the memories, operation by operation. -/
theorem stepKeepsCanonical : Obligations.StepKeepsCanonical := by
  unfold Obligations.StepKeepsCanonical
  exact fun s t h ht => h.step t ht

end Sys2Proof.Machine
end


section
/-!
PROOFS. The path of an access (08 R157, R160): a walk whose leaf no decoder covers, for a thread that holds two accesses under one
number.
-/

namespace Sys2Proof.Machine

open Sys2Proof

/-- A read of a copy and a load, both under number 0. -/
def readOfCopy : MemOp := { (default : MemOp) with kind := .copyRead 0 0 }
def loadOfSameNumber : MemOp := { (default : MemOp) with kind := .load }

/-- The tables of context 0 lead virtual page 0 to a leaf of 1 GiB in pool memory (tables at 0, 256 and 512), where no decoder is
set, and the walk for the access under number 0 runs. -/
def walkToPool : State :=
  { State.reset with
      blocks := [{ newBlock 0 0 1 0 0 0 none none with threads := [{ (default : Thread) with ops := [readOfCopy, loadOfSameNumber] }] }]
      pmem := [(1, 0x01), (7, 0xE0), (257, 0x02), (263, 0xE0), (517, 0x10), (519, 0xC0)]
      walks := [⟨0, 0, 0, 0, [(0, 0, 0)], [], true⟩] }

/-- The leaf that the walk finds. -/
def poolLeaf : Leaf := ⟨3, .priv, false, false, 0, false, false, false, 0x10 * 2 ^ 48, 512⟩

theorem walk_walkToPool : walk walkToPool 0 0 = .leaf poolLeaf := by decide +kernel

theorem not_covered_walkToPool : leafCovers walkToPool poolLeaf 0 = false := by decide +kernel

/-- Ending the read of the copy takes it alone from the queue, so that the number then finds the load. -/
theorem load_stays_walkToPool :
    ∃ r, exec (.pageWalk 0 0 0 0) walkToPool = .next r ∧ findOp r 0 0 0 = some loadOfSameNumber :=
  ⟨_, rfl, by decide +kernel⟩

/-- Refutes O30: of an access whose address no decoder covers the PAGE_WALK clause says that its number finds nothing once the walk
has ended, and says so of every state. A thread whose queue holds a read of a copy and a load under one number is such a state: the
walk ends the read, which the number finds first, and the load stays. -/
theorem not_accessPath : ¬ Obligations.AccessPath := by
  unfold Obligations.AccessPath
  rintro ⟨-, hwalk, -⟩
  obtain ⟨-, hgood⟩ := hwalk 0 0 0 0 ⟨0, 0, 0, 0, [(0, 0, 0)], [], true⟩ walkToPool (by decide) rfl (by decide)
  obtain ⟨-, hleaf, -⟩ := hgood (by decide)
  obtain ⟨r, hr, -, -, -, -, hops⟩ := hleaf poolLeaf walk_walkToPool
  obtain ⟨-, hgone⟩ := hops (0, 0, 0) (by decide) readOfCopy (by decide)
  obtain ⟨r', hr', hstays⟩ := load_stays_walkToPool
  cases hr.symm.trans hr'
  exact absurd ((hgone not_covered_walkToPool).symm.trans hstays) nofun

end Sys2Proof.Machine
end
